-- ==== Sys2Proof/Word.lean ====
section
/-! DEFINITION. The word types of the machine: 64-bit scalar words, 32-bit parcels and lanes, bytes, and register
fields. Only the types and their plainest arithmetic stand here. -/

namespace Sys2Proof

/-- A scalar register, a program address or a CSR value (R134). -/
abbrev Word := BitVec 64

/-- A 32-bit parcel of the instruction stream, a vector lane or an accumulator word (R37, R136, R143). -/
abbrev Parcel := BitVec 32

/-- One byte of memory, scratchpad, tile register or weight slot. -/
abbrev Byte := BitVec 8

/-- A scalar register field s0 to s63 (R42). -/
abbrev SReg := BitVec 6

end Sys2Proof
end

