-- ==== Sys2Proof/Syntax.lean ====
section
/-! DEFINITION. The instruction set as syntax: one constructor of `Instr` per row of the opcode table. The first 207
are the instruction words of R37 to R53; the others are the machine's own events, which have no encoding and carry
what the outside world or the timing supplies. -/

namespace Sys2Proof

/-- The format tag (R12). Tag 15 is reserved and no register ever carries it. -/
inductive Fmt where
  | raw | int8 | int32 | fp64 | fp32 | bf16 | fp16 | e4m3 | e5m2 | e3m2 | e2m3 | mk8 | e8 | int16 | uint8
  deriving DecidableEq, Repr

/-- The five timelines (R127). -/
inductive TL where
  | cp | ga | ws | fx | mx
  deriving DecidableEq, Repr

/-- FENCE scopes (R257, R262). -/
inductive Scope where
  | task | team | slice | module | system
  deriving DecidableEq, Repr

/-- The rings above U that hold trap registers (R337). -/
inductive HRing where
  | d | h | m
  deriving DecidableEq, Repr

/-- The six trap registers of one ring (R337). -/
inductive TReg where
  | tvec | epc | cause | tval | status | scratch
  deriving DecidableEq, Repr

/-- The assigned control and status registers (R171). -/
inductive Csr where
  | fpflags | rng | gtag | leaserun | engfault | engfaddr | vtaglo | vtaghi | mtag | atag
  | audit | cycle | retired | ptpns
  | trapReg (r : HRing) (t : TReg)
  | dbgctl | dbgstat | pbudget | shareack | vfid | world
  deriving DecidableEq, Repr

/-- One 24-bit operand field of a vector word (R47). An unused field is `v 0`, whose bits are all zero. -/
inductive Operand where
  | v (n : BitVec 5)
  | row (m : BitVec 3) (ix : SReg)
  | col (m : BitVec 3) (ix : SReg)
  | diag (m : BitVec 3) (ix : SReg)
  | sp (base : SReg) (stride : BitVec 6)
  | q (n : BitVec 3)
  | s (n : SReg)
  | k (n : BitVec 3)
  deriving DecidableEq, Repr

/-- The fields of a vector word other than its opcode (R46). -/
structure VWord where
  k     : BitVec 3
  fmt   : Fmt
  rm    : BitVec 3
  flags : BitVec 2
  d     : Operand
  a     : Operand
  b     : Operand
  deriving DecidableEq, Repr

/-- The fields of a matrix word other than its opcode (R50). -/
structure MWord where
  acc        : BitVec 3
  rowMask    : BitVec 3
  colMask    : BitVec 3
  af         : Fmt
  bf         : Fmt
  cf         : Fmt
  ovw        : Bool
  aKind      : BitVec 2
  aTile      : BitVec 3
  aFirst     : SReg
  aSecond    : SReg
  bKind      : BitVec 2
  bTile      : BitVec 3
  bFirst     : SReg
  bSecond    : SReg
  slot       : BitVec 2
  kcount     : BitVec 9
  koff       : SReg
  entry      : BitVec 9
  dparam     : SReg
  dmode      : BitVec 2
  acc2       : BitVec 3
  aScaled    : Bool
  bScaled    : Bool
  rm         : BitVec 3
  rep        : BitVec 8
  advA       : Bool
  advB       : Bool
  accAcross  : Bool
  drainLast  : Bool
  waitCp     : SReg
  waitWs     : SReg
  deriving DecidableEq, Repr

/-- The three engines of a cluster (R109). -/
inductive Eng where
  | copy | gather | weight
  deriving DecidableEq, Repr

/-- The two masters of the control space (R406). -/
inductive Master where
  | host | manager
  deriving DecidableEq, Repr

/-- A register of a block (of a slice, a cluster, a core or a VF, by its number) and the master that writes it (R406). -/
structure Site where
  m : Master
  n : Nat
  deriving DecidableEq, Repr

/-- A word and the master that writes it to a register of the module (R406). -/
structure SpaceWord where
  m : Master
  v : Word
  deriving DecidableEq, Repr

/-- Where a request of a PCIe endpoint goes, and the PASID that it carries (R405). -/
structure HostAddr where
  pasid : Nat
  pa    : Nat
  deriving DecidableEq, Repr

/-- A wavelength of one of a port's directions (R299). -/
structure Wave where
  l  : Nat
  tx : Bool
  deriving DecidableEq, Repr

/-- The wavelengths that a receiver has lost the light of, and those it has found again. -/
structure Light where
  lost  : BitVec 16
  found : BitVec 16
  deriving DecidableEq, Repr

/-- What the host complex's IOMMU answers to a translation request (R366). -/
inductive AtsReply where
  | granted (lg : Nat) (pa : Nat) (r w : Bool)
  | unsupported
  | completerAbort
  deriving DecidableEq, Repr

/-- A page response under PRI (R369). -/
inductive PriResp where
  | success | invalid | failure
  deriving DecidableEq, Repr

/-- One packet of the fabric, as its header and payload give it (R298): `control` marks a heartbeat, whose payload is
empty, or a boundary message, neither of which holds a write; `port` is the optical port it came in by, 8 for none. -/
structure Packet where
  control : Bool
  port    : Nat
  srcChip : Nat
  vf      : Nat
  reduce  : Bool
  step    : Nat
  seq     : BitVec 32
  srcRank : Nat
  win     : Nat
  off     : Nat
  ctrEn   : Bool
  ctrWin  : Nat
  ctrOff  : Nat
  op      : Nat
  data    : List Byte
  crcOk   : Bool
  last    : Bool := false
  deriving DecidableEq, Repr

/-- The boundary messages of R291 as one module receives them: DRAINED for a step and VERDICT with its code, each from a
rank below it in the tree; ALLDRAINED and DECISION of the module's step from the root. -/
inductive BMsg where
  | drained (rank step : Nat)
  | allDrained
  | verdict (rank code : Nat)
  | decision (code : Nat)
  deriving DecidableEq, Repr

/-- A data flit, or an idle one, as it reaches a receiver (R300 to R303), beside its SEQ and HOLD and whether FEC could
correct it: its acknowledgement, the wavelengths it was dealt over, the bit errors of each corrected symbol by the
symbol's place, and its packet bytes. -/
structure Flit where
  idle  : Bool := false
  ack   : Option (BitVec 12) := none
  lanes : BitVec 16 := 0xFFFF
  corr  : List (Nat × Nat) := []
  data  : List Byte := []
  deriving DecidableEq, Repr

/-- Why a stream leaves its route (R297). -/
inductive RouteWhy where
  | portDown | reported | noProgress
  deriving DecidableEq, Repr

/-- A power block (R410). -/
inductive PBlock where
  | slice (n : Nat)
  | port (n : Nat)
  | iface
  deriving DecidableEq, Repr

/-- The control-space registers that software writes and that have no event row of their own (R406, R408, R409 and
the chapters that name them). -/
inductive CReg where
  | stq (vf : Nat)
  | allot (vf : Nat)
  | hypPasid (vf : Nat)
  | driverPasid (vf : Nat)
  | taskPasid (vf : Nat)
  | tol (b : PBlock)
  | pwrctl
  | bootcfg
  | fevbase
  | fevsize
  | errbase
  | errsize
  | evbase (vf : Nat)
  | evsize (vf : Nat)
  | swapbase (slice : Nat)
  | swaplen (slice : Nat)
  | period
  | regionLo (n : Nat)
  | regionHi (n : Nat)
  | resident (vf : Nat) (slice : Nat) (word : Nat)
  | chip
  | route (chip n : Nat)
  | reserved (slice cl : Nat)
  | staging (image byte : Nat)
  | other (n : Nat)
  deriving DecidableEq, Repr

/-- One instruction or event: one constructor per row of spec/opcode_table.json. -/
inductive Instr where
  -- register–register operations (R158 to R160)
  | add (d a b : SReg) | sub (d a b : SReg) | and (d a b : SReg) | or (d a b : SReg) | xor (d a b : SReg)
  | andn (d a b : SReg) | sll (d a b : SReg) | srl (d a b : SReg) | sra (d a b : SReg)
  | slt (d a b : SReg) | sltu (d a b : SReg) | min (d a b : SReg) | max (d a b : SReg)
  | minu (d a b : SReg) | maxu (d a b : SReg) | mul (d a b : SReg) | mulh (d a b : SReg)
  | mulhu (d a b : SReg) | div (d a b : SReg) | divu (d a b : SReg) | rem (d a b : SReg)
  | remu (d a b : SReg)
  | clz (d a : SReg) | ctz (d a : SReg) | popc (d a : SReg) | bswap (d a : SReg)
  | sextb (d a : SReg) | sexth (d a : SReg) | sextw (d a : SReg)
  -- immediate operations (R161, R162) and upper immediates (R163)
  | addi (d a : SReg) (imm : BitVec 13) | andi (d a : SReg) (imm : BitVec 13)
  | ori (d a : SReg) (imm : BitVec 13) | xori (d a : SReg) (imm : BitVec 13)
  | slti (d a : SReg) (imm : BitVec 13) | sltiu (d a : SReg) (imm : BitVec 13)
  | slli (d a : SReg) (sh : BitVec 6) | srli (d a : SReg) (sh : BitVec 6) | srai (d a : SReg) (sh : BitVec 6)
  | lui (d : SReg) (imm : BitVec 19) | aupc (d : SReg) (imm : BitVec 19)
  -- branches and jumps (R164, R165)
  | beq (a b : SReg) (off : BitVec 10) | bne (a b : SReg) (off : BitVec 10)
  | blt (a b : SReg) (off : BitVec 10) | bge (a b : SReg) (off : BitVec 10)
  | bltu (a b : SReg) (off : BitVec 10) | bgeu (a b : SReg) (off : BitVec 10)
  | jal (d : SReg) (off : BitVec 19) | jalr (d a : SReg) (imm : BitVec 13)
  -- loads and stores (R91 to R94), stream pop (R120)
  | ldb (d a : SReg) (imm : BitVec 13) | ldbu (d a : SReg) (imm : BitVec 13)
  | ldh (d a : SReg) (imm : BitVec 13) | ldhu (d a : SReg) (imm : BitVec 13)
  | ldw (d a : SReg) (imm : BitVec 13) | ldwu (d a : SReg) (imm : BitVec 13)
  | ldd (d a : SReg) (imm : BitVec 13)
  | qpop (d : SReg) (q : BitVec 3)
  | stb (d a : SReg) (imm : BitVec 13) | sth (d a : SReg) (imm : BitVec 13)
  | stw (d a : SReg) (imm : BitVec 13) | std (d a : SReg) (imm : BitVec 13)
  -- line operations (R95 to R98)
  | pref (a : SReg) | cflush (a b : SReg) | cinv (a b : SReg) | czero (a b : SReg)
  -- atomics (R102), reductions (R104), line regions (R105)
  | amoswap (d a b : SReg) | amoadd (d a b : SReg) | amoand (d a b : SReg) | amoor (d a b : SReg)
  | amoxor (d a b : SReg) | amomin (d a b : SReg) | amomax (d a b : SReg) | amominu (d a b : SReg)
  | amomaxu (d a b : SReg) | amofadds (d a b : SReg) | amofaddd (d a b : SReg) | amocas (d a b : SReg)
  | redadd (a b : SReg) | redand (a b : SReg) | redor (a b : SReg) | redxor (a b : SReg)
  | redmin (a b : SReg) | redmax (a b : SReg) | redminu (a b : SReg) | redmaxu (a b : SReg)
  | redfadds (a b : SReg) | redfaddd (a b : SReg)
  | alb (a : SReg) | ale (d : SReg)
  -- visibility (R257), timelines (R129, R130), mailboxes (R326), counters (R132)
  | acq (d a : SReg) | rel (d a b : SReg) | fence (sc : Scope) | cbar | sobind (d a b : SReg)
  | bcwait (d a b : SReg) | waittl (t : TL) (b : SReg) | tlrd (d : SReg) (t : TL) (issued : Bool)
  | mbwait (d a : SReg) | mback (a b : SReg)
  | waitc (ld st cp tile : BitVec 3)
  -- engine commands (R112, R229), lease (R216, R217), fabric (R277, R288, R307)
  | cpy (d a : SReg) | cpyb (d a : SReg) | gath (d a : SReg) | scat (d a : SReg) | wstr (d a : SReg)
  | lease (d : SReg) | unlease | dload (d a : SReg)
  | fxput (d a : SReg) | fxred (d a : SReg) | step (d : SReg) | stepnb (d : SReg) | stepwt (d a : SReg)
  | fxstat (d a : SReg)
  -- tasks (R326) and trap instructions (R344), CSRs (R167)
  | spawn (a b : SReg) | jdec (a b : SReg) | exit | yield (d : SReg) | tcoord (d : SReg) | gridid (d : SReg)
  | eret | brk | wfe (d a : SReg) | pdone (d a : SReg) | halt
  | csrr (d : SReg) (c : Csr) | csrw (d a : SReg) (c : Csr) | csrs (d a : SReg) (c : Csr)
  | csrc (d a : SReg) (c : Csr) | trap (code : BitVec 13)
  -- vector words (R49)
  | vadd (w : VWord) | vsub (w : VWord) | vmul (w : VWord) | vdiv (w : VWord)
  | vfma (w : VWord) | vfms (w : VWord) | vfnma (w : VWord) | vfnms (w : VWord)
  | vmax (w : VWord) | vmin (w : VWord) | vabs (w : VWord) | vneg (w : VWord) | vsqrt (w : VWord)
  | vcpsgn (w : VWord)
  | vexp2 (w : VWord) | vlog2 (w : VWord) | vrcp (w : VWord) | vrsq (w : VWord) | vsigm (w : VWord)
  | vtanh (w : VWord)
  | viadd (w : VWord) | visub (w : VWord) | vimul (w : VWord) | vimulh (w : VWord) | vimin (w : VWord)
  | vimax (w : VWord) | viminu (w : VWord) | vimaxu (w : VWord) | vand (w : VWord) | vor (w : VWord)
  | vxor (w : VWord) | vshl (w : VWord) | vshr (w : VWord) | vsra (w : VWord) | viabs (w : VWord)
  | vidot4 (w : VWord)
  | vcvt (w : VWord) | vscale (w : VWord) | vtag (w : VWord) | vqblk (w : VWord) | vdqblk (w : VWord)
  | vclass (w : VWord)
  | vcmp (w : VWord) | vsel (w : VWord) | kand (w : VWord) | kor (w : VWord) | kxor (w : VWord)
  | knot (w : VWord) | kpop (w : VWord) | kmov (w : VWord)
  | vrsum (w : VWord) | vrmax (w : VWord) | vrmin (w : VWord) | vramax (w : VWord) | vriadd (w : VWord)
  | vmov (w : VWord) | vbcast (w : VWord) | vperm (w : VWord) | vrot (w : VWord) | vcomp (w : VWord)
  | vexpd (w : VWord) | viota (w : VWord) | vzip (w : VWord) | vuzp (w : VWord)
  | vld (w : VWord) | vst (w : VWord) | vldx (w : VWord) | vstx (w : VWord)
  -- matrix words (R51)
  | mma (w : MWord) | drun (w : MWord) | mld (w : MWord) | mst (w : MWord) | mzero (w : MWord)
  | acpy (w : MWord) | acpyin (w : MWord) | msave (a b : SReg) | mrstr (a b : SReg) | mstat (d : SReg)
  -- events of the array and the engines
  | leaseGrant (cl : Nat) | leaseRunIdleTimeout (cl : Nat) | matrixAccept (core : Nat) | tileStep (cl : Nat)
  | arrayExecute (cl : Nat) | runDrain (cl : Nat)
  | engineBurst (team member : Nat) (e : Eng) (ix : Nat)
  | commandComplete (team member : Nat) (t : TL) (num : Word)
  -- events of translation and memory
  | atsCompletion (slice pasid page : Nat) (write : Bool) (r : AtsReply)
  | pageResponse (slice pasid page : Nat) (write : Bool) (r : PriResp)
  | atsInvalidate (pasid base len : Nat)
  | priReenable (slice : Site) (pasid : Nat)
  | loadComplete (core ix : Nat)
  | multicastLand
  | l1Writeback (core pasid vline : Nat)
  | dramRead (pa : Nat) (ue : Bool)
  | l2Evict (line : Nat) (ue : Bool) | mscEvict (line : Nat) (ue : Bool) | writeQueueFlush (line : Nat) (ue : Bool)
  | hostPcieWrite (pa : HostAddr) (data : List Byte) | hostPcieRead (pa : HostAddr) (n : Nat)
  | memsplitWrite (v : SpaceWord)
  -- events of the dispatcher and the HSC
  | launchDoorbell (vf : Nat) | timeTableRelease (vf ix : Nat) | dispatch (slice vf : Nat)
  | recordAging (slice vf prio queue : Nat) | quantumExpiry (cl : Nat) | swapOut (cl : Nat)
  | bankSwitch (core : Nat) | dispatchDescriptorWrite (vf : Nat) (ws : List Word)
  | mailboxDoorbell (vf : Nat) (bits : Word) | timeSliceEnd (slice vf : Nat)
  | preemptBudgetExpiry (core cyc cyc2 : Nat) | takeTrap (core : Nat) | coreInterrupt (core : Site) (vector : Word)
  | wfeLimitExpiry (core : Nat) | coreResume (core : Site) (v : Word)
  | nodeRollback (team : Nat) | nodeKill (team : Nat)
  | badgerPass (pass : Bool) (pattern : Nat) | auditRequest (cl : Site)
  | poolFree (vf : Site) (hyp : Bool) (aper count list : Nat) | poolTake (vf : Site) (hyp : Bool) (aper count list : Nat)
  | scrubPage (aper : Nat)
  | shareWrite (slice : Site) (vf : Nat) (v : Word) | shareChangeComplete (slice : Nat)
  | sliceReset (slice : Site)
  | migrationStage (vf rank chip bound : Nat) (withdraw : Bool)
  -- events of the fabric
  | fabricPacketSend (team member : Nat) | fabricPacketReceive (p : Packet) | fabricAckReceive (vf chip : Nat) (mark : BitVec 32)
  | heartbeatSend | peerLost (vf rank : Nat) | boundaryMessage (vf : Nat) (m : BMsg)
  | stepApplyComplete (vf : Nat) | routeFailover (vf chip : Nat) (why : RouteWhy)
  -- events of the link layer
  | linkFlitReceive (port : Nat) (seq : BitVec 12) (fecOk hold : Bool) (f : Flit)
  | linkNakReceive (port : Nat) (seq : BitVec 12)
  | laneControl (port : Nat) (lanes : BitVec 16) (seq : BitVec 12)
  | berWindow (port sec : Nat)
  | retrainComplete (port : Nat) (lam : Wave) (ok : Bool)
  | lossOfLight (port : Nat) (light : Light)
  | emitterPowerLoss (port q : Nat) | linkProgressTimeout (port : Nat) | portPark (port : Nat)
  | wavelengthRelockComplete (port : Nat)
  | stepGroupDescriptorWrite (vf pa : Nat)
  -- events of the control space, power, boot and attestation
  | controlSpaceWrite (m : Master) (r : CReg) (v : Word)
  | semaphoreRead (m : Master) (n : Nat) | semaphoreWrite (m : Master) (n : Nat) (v : Word)
  | mgmtLinkTimeout | hostComplexReset
  | qstateEntry (b : PBlock) (idleNs : Nat) | qstateWake (b : PBlock)
  | pwrwarnAssert | pwrwarnHoldExpiry (cyc cyc2 : Nat) | pwrwarnRelease | powerRailRestore | overcurrent
  | overcurrentRecovery
  | moduleReset (badStacks : BitVec 16) (badClusters : Word) (badRx badTx : List (BitVec 16))
  | attestationRequest (m : Master) (pa : Nat) | attestationComplete
  | emitterPowerReturn (port q : Nat) | ptpClockLock (ns : Word)
  deriving DecidableEq, Repr

end Sys2Proof
end

