-- ==== Sys2Proof/Config.lean ====
section
/-! DEFINITION. What an implementation fixes and the manual leaves open: free values, each an opaque constant that
nothing in Lean can evaluate, applied to plain data of the state (the assumption log names each one). -/

namespace Sys2Proof.Config

/-- The ac cycles that step number `tick` takes (R8, R172): the manual gives latencies only as bounds or for
orientation. Assumption 2. -/
opaque elapsed : Nat → Nat

/-- The nanoseconds of the PTP clock that step number `tick` takes once the clock has locked (R172). Assumption 2. -/
opaque nsElapsed : Nat → Nat

/-- Which of the lines of a full L1 set is the victim (R81). Assumption 3. -/
opaque l1Victim : Nat → Nat

/-- Which DTC entry makes room for a new one (R366 gives the capacity only). Assumption 3. -/
opaque dtcVictim : Nat → Nat

/-- Which write-queue entry of a full queue is written to DRAM (R99). Assumption 3. -/
opaque wqVictim : Nat → Nat

/-- Which line of a VF's ways of a full L2 or MSC set is the victim (R393 gives the ways only). Assumption 3. -/
opaque l2Victim : Nat → Nat
opaque mscVictim : Nat → Nat

/-- The MSC set of a line. Assumption 4. -/
opaque mscSet : Nat → Nat

/-- The L2 set of a line within its bank, which R378 counts pending lines in and no rule gives. Assumption 4. -/
opaque l2Set : Nat → Nat

/-- HMAC-SHA-256 under the per-boot module key, which no program can read (R359). Assumption 5. -/
opaque hmac : List Byte → BitVec 256

/-- The nonce of a swap, which the HSC draws (R357). Assumption 6. -/
opaque nonce : Nat → Word

/-- The value that a granule holds that a fault or a stop leaves as "either its old value or the value the command
would have written" (R126, R381): true takes the new one. Assumption 7. -/
opaque granuleNew : Nat → Bool

/-- Byte `i` of the module serial (R418). Assumption 8. -/
opaque serialByte : Nat → Byte

/-- The signature byte `i` over the 240 bytes of a report (R418). Assumption 8. -/
opaque signByte : List Byte → Nat → Byte

/-- Element `i` of a conversion whose RAW tile source has no layout to be read in, because the target format has none
(R137, R186). Assumption 9. -/
opaque rawTile : Nat → Nat → Nat

/-- The word read for the consumer index of an APPEND ring in the verdict phase where its line cannot be read, a case
that no rule gives (R285). Assumption 10. -/
opaque unreadIndex : Nat → BitVec 64

/-- The rank to which a member sends its messages up the combining tree, whose shape R291 leaves open: of the rank and
the lowest live rank. Assumption 11. -/
opaque treeParent : Nat → Nat → Nat

/-- Does a fetch that finds its line in the L1 instruction cache take the copy, by the step's tick? No rule orders a store to
code against the copies that cores hold. Assumption 44. -/
opaque codeFromCache : Nat → Bool

/-- Which line of a full L1 instruction cache gives way. Assumption 44. -/
opaque l1iVictim : Nat → Nat

/-- How far the array has come with the instruction in progress when a freeze catches it where nothing outside the
model says so (R225, R226): ac cycles of a step, elements of a drain, rows of a row instruction. Assumption 13. -/
opaque frozenAt : Nat → Nat

/-- Byte `i` of the Reed-Solomon parity of a flit over its 232 data bytes: R300 gives the code's lengths and neither its
field nor its generator. Assumption 48. -/
opaque fecByte : List Byte → Nat → Byte

/-- How many flits a receiver's input buffer takes (R302 gives no size). Assumption 48. -/
opaque inputFlits : Nat

/-- Does an RSA-3072 signature verify over the 48 bytes of an image header, under the key whose hash is fused (R416)?
Assumption 49. -/
opaque signatureOk : List Byte → List Byte → Bool

/-- The fused minimum security version of a boot image (R416). Assumption 49. -/
opaque fusedMin : Nat → Nat

/-- The boot image with which the module was made, by index (R416). Assumption 49. -/
opaque bootImage : Nat → List Byte

/-- Byte `i` of the certified public part of the device identity key (R418). Assumption 8. -/
opaque idKeyByte : Nat → Byte

/-- Byte `i` of a record in a save block whose contents R358 names and whose layout it leaves open: the progress of an
engine command, the pending bindings of a stream register. Assumption 33. -/
opaque progressByte : List Nat → Nat → Byte

end Sys2Proof.Config
end

