-- ==== Sys2Proof/Machine/Bits.lean ====
section
/-! DEFINITION. Bit-field, byte-order and counting helpers (R6, R11). -/

namespace Sys2Proof.Machine

/-- Bits [lo + len − 1 : lo] of a number. -/
def bitsOf (x lo len : Nat) : Nat := (x >>> lo) % 2 ^ len

/-- Little-endian bytes as a number (R6). -/
def leNat : List Byte → Nat
  | [] => 0
  | b :: r => b.toNat + 256 * leNat r

/-- The low `n` bytes of a number, little-endian. -/
def leBytes : Nat → Nat → List Byte
  | 0, _ => []
  | n + 1, x => BitVec.ofNat 8 x :: leBytes n (x / 256)

/-- SignExtend of an `n`-bit pattern into 64 bits (R11). -/
def sext64 (n x : Nat) : Word := (BitVec.ofNat n x).signExtend 64

/-- ZeroExtend into 64 bits. -/
def zext64 {n : Nat} (x : BitVec n) : Word := x.setWidth 64

/-- The number of one bits among the low `n` bits. -/
def onesBelow : Nat → Nat → Nat
  | 0, _ => 0
  | n + 1, x => (if x.testBit n then 1 else 0) + onesBelow n x

/-- The zero bits above the highest one bit among the low `n` bits; `n` where there is none. -/
def leadingZeros : Nat → Nat → Nat
  | 0, _ => 0
  | n + 1, x => if x.testBit n then 0 else 1 + leadingZeros n x

/-- The zero bits below the lowest one bit, looking at bits `i` to `i + n − 1`. -/
def trailingZerosFrom : Nat → Nat → Nat → Nat
  | 0, _, _ => 0
  | n + 1, i, x => if x.testBit i then 0 else 1 + trailingZerosFrom n (i + 1) x

/-- The lowest set bit of a 64-bit word, 64 where there is none. -/
def lowestBit (x : Word) : Nat := trailingZerosFrom 64 0 x.toNat

/-- Byte n of the result is byte 7 − n of the source (R159, BSWAP). -/
def byteSwap64 (x : Word) : Word := BitVec.ofNat 64 (leNat (leBytes 8 x.toNat).reverse)

/-- A 64-bit word as a mathematical integer, signed. -/
def sInt (x : Word) : Int := x.toInt

/-- Ceiling division. -/
def ceilDiv (a b : Nat) : Nat := (a + b - 1) / b

/-- The list [0, n). -/
def upTo (n : Nat) : List Nat := List.range n

/-- The first `some` that `f` gives on a list. -/
def firstSome {α β : Type} (f : α → Option β) : List α → Option β
  | [] => none
  | x :: r => match f x with
    | some y => some y
    | none => firstSome f r

/-- A fold that threads an accumulator through a function that may stop. -/
def foldE {α σ ε : Type} (f : σ → α → Except ε σ) : σ → List α → Except ε σ
  | s, [] => .ok s
  | s, x :: r => match f s x with
    | .ok s' => foldE f s' r
    | .error e => .error e

/-- Does the range [a, a + n) meet [b, b + m)? -/
def rangesMeet (a n b m : Nat) : Bool := decide (max a b < min (a + n) (b + m))

end Sys2Proof.Machine
end

