-- ==== Sys2Proof/Machine/Format.lean ====
section
/-! DEFINITION. The number formats to the bit (R12 to R36): decoding a pattern to an exact value, rounding an exact
value into a format under each mode, the rounding generator, the sticky flags, the exact arithmetic that the vector
unit, the array, the drain and the atomics share. -/

namespace Sys2Proof

/-- The 4-bit code of a format tag (R12). -/
def Fmt.code : Fmt → BitVec 4
  | .raw => 0 | .int8 => 1 | .int32 => 2 | .fp64 => 3 | .fp32 => 4 | .bf16 => 5 | .fp16 => 6 | .e4m3 => 7
  | .e5m2 => 8 | .e3m2 => 9 | .e2m3 => 10 | .mk8 => 11 | .e8 => 12 | .int16 => 13 | .uint8 => 14

/-- The format tag of a 4-bit code; tag 15 is reserved (R12). -/
def Fmt.ofCode (n : Nat) : Option Fmt :=
  match n with
  | 0 => some .raw | 1 => some .int8 | 2 => some .int32 | 3 => some .fp64 | 4 => some .fp32 | 5 => some .bf16
  | 6 => some .fp16 | 7 => some .e4m3 | 8 => some .e5m2 | 9 => some .e3m2 | 10 => some .e2m3 | 11 => some .mk8
  | 12 => some .e8 | 13 => some .int16 | 14 => some .uint8 | _ => none

namespace Machine

/-- Element width in bits (R12); RAW lanes are 32 bits (R136). -/
def fmtBits : Fmt → Nat
  | .raw => 32 | .int8 => 8 | .int32 => 32 | .fp64 => 64 | .fp32 => 32 | .bf16 => 16 | .fp16 => 16 | .e4m3 => 8
  | .e5m2 => 8 | .e3m2 => 6 | .e2m3 => 6 | .mk8 => 8 | .e8 => 8 | .int16 => 16 | .uint8 => 8

/-- Element width in bytes as an element lies in memory, scratchpad or a lane; a 6-bit element takes a padded byte
(R31, R117, R197). -/
def fmtBytes : Fmt → Nat
  | .raw => 4 | .int8 => 1 | .int32 => 4 | .fp64 => 8 | .fp32 => 4 | .bf16 => 2 | .fp16 => 2 | .e4m3 => 1
  | .e5m2 => 1 | .e3m2 => 1 | .e2m3 => 1 | .mk8 => 1 | .e8 => 1 | .int16 => 2 | .uint8 => 1

def isInt : Fmt → Bool
  | .int8 | .int16 | .int32 | .uint8 => true
  | _ => false

/-- The formats that an instruction may name as block-scaled (R30). -/
def scalable : Fmt → Bool
  | .int8 | .uint8 | .e4m3 | .e5m2 | .e3m2 | .e2m3 | .mk8 => true
  | _ => false

def is6bit : Fmt → Bool
  | .e3m2 | .e2m3 => true
  | _ => false

/-- The six rounding modes (R24). -/
inductive Rm where
  | rne | rz | ru | rd | rna | rs
  deriving DecidableEq, Repr

/-- The mode of a 3-bit code; codes 6 and 7 are refused at decode, and read here as RNE. -/
def Rm.ofCode (c : BitVec 3) : Rm :=
  match c.toNat with
  | 1 => .rz | 2 => .ru | 3 => .rd | 4 => .rna | 5 => .rs | _ => .rne

/-- An exact value: NaN, a signed infinity, or ±m·2^e. With `st` the magnitude lies strictly between m·2^e and
(m+1)·2^e, which is all that any rounding of a quotient or a root needs. -/
inductive FVal where
  | nan
  | inf (neg : Bool)
  | fin (neg : Bool) (m : Nat) (e : Int) (st : Bool)
  deriving DecidableEq, Repr

def FVal.zero (neg : Bool) : FVal := .fin neg 0 0 false
def FVal.ofNat (n : Nat) : FVal := .fin false n 0 false
def FVal.ofInt (n : Int) : FVal := .fin (decide (n < 0)) n.natAbs 0 false

def FVal.isZero : FVal → Bool
  | .fin _ m _ st => m == 0 && !st
  | _ => false

def FVal.neg : FVal → FVal
  | .nan => .nan
  | .inf n => .inf (!n)
  | .fin n m e st => .fin (!n) m e st

def FVal.abs : FVal → FVal
  | .nan => .nan
  | .inf _ => .inf false
  | .fin _ m e st => .fin false m e st

def FVal.sign : FVal → Bool
  | .nan => false
  | .inf n => n
  | .fin n _ _ _ => n

/-- The exponent width, fraction width and bias of a floating-point format (R18). -/
structure FSpec where
  eb   : Nat
  w    : Nat
  bias : Nat

def fspec : Fmt → FSpec
  | .fp64 => ⟨11, 52, 1023⟩
  | .fp32 => ⟨8, 23, 127⟩
  | .bf16 => ⟨8, 7, 127⟩
  | .fp16 => ⟨5, 10, 15⟩
  | .e4m3 => ⟨4, 3, 7⟩
  | .e5m2 => ⟨5, 2, 15⟩
  | .e3m2 => ⟨3, 2, 3⟩
  | .e2m3 => ⟨2, 3, 1⟩
  | _ => ⟨8, 23, 127⟩

/-- Does the format have infinities (R19)? -/
def hasInf : Fmt → Bool
  | .fp64 | .fp32 | .bf16 | .fp16 | .e5m2 => true
  | _ => false

/-- The canonical NaN (R19); for a format without NaN encodings, what R28 writes in its place. -/
def canonNan : Fmt → Nat
  | .fp64 => 0x7FF8000000000000 | .fp32 => 0x7FC00000 | .bf16 => 0x7FC0 | .fp16 => 0x7E00
  | .e4m3 => 0x7F | .e5m2 => 0x7E | .mk8 => 0x80 | .e8 => 0xFF
  | _ => 0

def hasNan : Fmt → Bool
  | .fp64 | .fp32 | .bf16 | .fp16 | .e4m3 | .e5m2 | .mk8 | .e8 => true
  | _ => false

/-- Decode the low bits of a pattern under a format (R17 to R19, R21, R23). RAW reads as an unsigned number. -/
def decodeF (f : Fmt) (x : Nat) : FVal :=
  match f with
  | .raw => .ofNat (x % 2 ^ 32)
  | .uint8 => .ofNat (x % 256)
  | .int8 => .ofInt (BitVec.ofNat 8 x).toInt
  | .int16 => .ofInt (BitVec.ofNat 16 x).toInt
  | .int32 => .ofInt (BitVec.ofNat 32 x).toInt
  | .mk8 =>
    let b := x % 128
    if b = 0 then (if x.testBit 7 then .nan else .zero false) else .fin (x.testBit 7) b (-6) false
  | .e8 => if x % 256 = 255 then .nan else .fin false 1 ((x % 256 : Nat) - 127 : Int) false
  | f =>
    let sp := fspec f
    let fr := bitsOf x 0 sp.w
    let ex := bitsOf x sp.w sp.eb
    let sg := x.testBit (sp.w + sp.eb)
    let top := ex == 2 ^ sp.eb - 1
    if top && hasInf f then (if fr = 0 then .inf sg else .nan)
    else if f = .e4m3 && top && fr == 7 then .nan
    else if ex = 0 then .fin sg fr ((1 : Int) - sp.bias - sp.w) false
    else .fin sg (2 ^ sp.w + fr) ((ex : Int) - sp.bias - sp.w) false

/-- The sticky flags of ctl.fpflags as a mask (R29). -/
abbrev Flags := BitVec 7
def fNV : Flags := 1
def fDZ : Flags := 2
def fOF : Flags := 4
def fUF : Flags := 8
def fNX : Flags := 16
def fSAT : Flags := 32
def fFZ : Flags := 64

/-- What a rounding reads and changes beside its value: the flags gathered so far and the generator state. -/
structure FEnv where
  flags : Flags
  rng   : Word
  deriving DecidableEq, Repr

def FEnv.raise (e : FEnv) (f : Flags) : FEnv := { e with flags := e.flags ||| f }

/-- One step of the rounding generator (R26). -/
def rngNext (x : Word) : Word :=
  let x := if x = 0 then 0x9E3779B97F4A7C15 else x
  let x := x ^^^ (x <<< 13)
  let x := x ^^^ (x >>> 7)
  x ^^^ (x <<< 17)

/-- The 24-bit draw of a generator state (R26). -/
def rngDraw (x : Word) : Nat := bitsOf x.toNat 40 24

/-- Make the draw that a rounding in RS mode makes, exact or not (R25); other modes make none. -/
def FEnv.draw (rm : Rm) (e : FEnv) : Nat × FEnv :=
  if rm = .rs then (rngDraw (rngNext e.rng), { e with rng := rngNext e.rng }) else (0, e)

/-- The number of significant bits. -/
def bitLen (m : Nat) : Nat := if m = 0 then 0 else m.log2 + 1

/-- What a magnitude m·2^e (sticky `st`) is on the grid of multiples of 2^q: the multiple below, the remainder scaled
by 2^s, and s. -/
def gridOf (m : Nat) (e q : Int) : Nat × Nat × Nat :=
  if q ≤ e then (m <<< (e - q).toNat, 0, 0)
  else
    let s := (q - e).toNat
    (m >>> s, m % 2 ^ s, s)

/-- Does the magnitude round up to the next multiple (R24, R25)? `k` is the multiple below, `r`/2^s the remainder. -/
def roundsUp (rm : Rm) (neg : Bool) (k r s : Nat) (st : Bool) (u : Nat) : Bool :=
  let inexact := decide (r ≠ 0) || st
  let half := 2 ^ (s - 1)
  let above := decide (0 < s) && (decide (half < r) || (decide (r = half) && st))
  let tie := decide (0 < s) && decide (r = half) && !st
  match rm with
  | .rne => above || (tie && decide (k % 2 = 1))
  | .rna => above || tie
  | .rz => false
  | .ru => inexact && !neg
  | .rd => inexact && neg
  | .rs =>
    -- the fraction times 2^24, and whether more remains below it
    let f := (r * 2 ^ 24) / 2 ^ s
    let more := decide ((r * 2 ^ 24) % 2 ^ s ≠ 0) || st
    inexact && (if neg then decide (u < f) || (decide (f = u) && more) else decide (2 ^ 24 ≤ f + u))

/-- The largest finite magnitude m·2^e of a floating-point format (R18). -/
def largest : Fmt → Nat × Int
  | .e4m3 => (14, 5)
  | .e3m2 => (7, 2)
  | .e2m3 => (15, -1)
  | f => let sp := fspec f; (2 ^ (sp.w + 1) - 1, (2 ^ sp.eb - 2 : Nat) - sp.bias - sp.w)

/-- Is k·2^q above m·2^e? -/
def gtMag (k : Nat) (q : Int) (m : Nat) (e : Int) : Bool :=
  let lo := if q ≤ e then q else e
  decide (m <<< (e - lo).toNat < k <<< (q - lo).toNat)

/-- The pattern of the largest finite value of a floating-point format. -/
def largestBits : Fmt → Nat
  | .e4m3 => 0x7E
  | .e5m2 => 0x7B
  | .e3m2 => 0x1F
  | .e2m3 => 0x1F
  | f => let sp := fspec f; (2 ^ sp.eb - 2) * 2 ^ sp.w + (2 ^ sp.w - 1)

def infBits (f : Fmt) : Nat := let sp := fspec f; (2 ^ sp.eb - 1) * 2 ^ sp.w

def signBit (f : Fmt) (neg : Bool) : Nat := if neg then (let sp := fspec f; 2 ^ (sp.w + sp.eb)) else 0

/-- The pattern of k·2^q, where k has at most w + 2 bits and q is the format's quantum for it. -/
def packMag (f : Fmt) (k : Nat) (q : Int) : Nat :=
  let sp := fspec f
  let (k, q) := if 2 ^ (sp.w + 1) ≤ k then (k / 2, q + 1) else (k, q)
  if k < 2 ^ sp.w then k else (q + sp.w + sp.bias).toNat * 2 ^ sp.w + (k - 2 ^ sp.w)

/-- The overflow result and flags of a floating-point target (R28). -/
def overflowF (f : Fmt) (rm : Rm) (neg : Bool) : Nat × Flags :=
  match f with
  | .e4m3 | .e5m2 | .e3m2 | .e2m3 => (signBit f neg + largestBits f, fOF ||| fSAT ||| fNX)
  | _ =>
    let toInf := match rm with
      | .rne | .rna | .rs => true
      | .rz => false
      | .ru => !neg
      | .rd => neg
    (signBit f neg + (if toInf then infBits f else largestBits f), fOF ||| fNX)

/-- Encode into a floating-point format other than MK8 and E8 (R28), given the draw. -/
def encFloat (f : Fmt) (rm : Rm) (u : Nat) (v : FVal) : Nat × Flags :=
  let sp := fspec f
  match v with
  | .nan => (canonNan f, if hasNan f then 0 else fNV)
  | .inf neg =>
    if hasInf f then (signBit f neg + infBits f, 0) else (signBit f neg + largestBits f, fOF ||| fSAT)
  | .fin neg m e st =>
    if m = 0 && !st then (signBit f neg, 0)
    else
      let lead : Int := e + (bitLen m : Int) - 1
      let qe : Int := lead - sp.w
      let emin : Int := 1 - (sp.bias : Int)
      let q : Int := if qe < emin - sp.w then emin - sp.w else qe
      let (k, r, s) := gridOf m e q
      let (lm, le) := largest f
      let rmx := if rm = .rs && gtMag (k + 1) q lm le then .rne else rm
      let up := roundsUp rmx neg k r s st u
      let k' := if up then k + 1 else k
      let inexact := decide (r ≠ 0) || st
      if gtMag k' q lm le then overflowF f rm neg
      else
        -- tininess after rounding with an unbounded exponent range (R28)
        let (ku, ru, su) := gridOf m e qe
        let upu := roundsUp (if rm = .rs then .rne else rm) neg ku ru su st 0
        let tiny := decide (lead < emin) && !(decide (lead = emin - 1) && upu && decide (ku + 1 = 2 ^ (sp.w + 1)))
        (signBit f neg + packMag f k' q,
          (if inexact then fNX else 0) ||| (if inexact && tiny then fUF else 0))

/-- Encode into MK8 (R22). -/
def encMk8 (rm : Rm) (u : Nat) (v : FVal) : Nat × Flags :=
  match v with
  | .nan => (0x80, 0)
  | .inf neg => (if neg then 0xFF else 0x7F, fSAT ||| fOF)
  | .fin neg m e st =>
    let (k, r, s) := gridOf m e (-6)
    let rmx := if rm = .rs && decide (127 < k + 1) then .rne else rm
    let k' := if roundsUp rmx neg k r s st u then k + 1 else k
    let inexact := decide (r ≠ 0) || st
    if 127 < k' then (if neg then 0xFF else 0x7F, fSAT ||| fOF ||| fNX)
    else if k' = 0 then (0, if inexact then fUF ||| fNX else 0)
    else ((if neg then 128 else 0) + k', if inexact then fNX else 0)

/-- Encode into E8 (R23); the rounding mode is ignored. -/
def encE8 (v : FVal) : Nat × Flags :=
  match v with
  | .nan => (0xFF, 0)
  | .inf _ => (0xFF, fNV)
  | .fin neg m e st =>
    if neg || m == 0 then (0xFF, fNV)
    else
      let c : Int := e + (bitLen m : Int) - 1 + 127
      let nx := if st || decide (m ≠ 2 ^ (bitLen m - 1)) then fNX else 0
      if c < 0 then (0, nx ||| fSAT)
      else if 254 < c then (254, nx ||| fSAT)
      else (c.toNat, nx)

/-- The least and greatest value of an integer format (R17). -/
def intRange : Fmt → Int × Int
  | .int8 => (-128, 127)
  | .uint8 => (0, 255)
  | .int16 => (-32768, 32767)
  | _ => (-2147483648, 2147483647)

def intBits (f : Fmt) (n : Int) : Nat := (BitVec.ofInt (fmtBits f) n).toNat

/-- Encode into an integer format (R28). `fromInt`: the source was an integer element, whose clamp sets SAT alone. -/
def encInt (f : Fmt) (rm : Rm) (fromInt : Bool) (u : Nat) (v : FVal) : Nat × Flags :=
  let (lo, hi) := intRange f
  let clampFlags : Flags := if fromInt then fSAT else fNV ||| fSAT
  match v with
  | .nan => (0, fNV)
  | .inf neg => (intBits f (if neg then lo else hi), fNV ||| fSAT)
  | .fin neg m e st =>
    let (k, r, s) := gridOf m e 0
    let lim : Int := if neg then -lo else hi
    let rmx := if rm = .rs && decide (lim < (k : Int) + 1) then .rne else rm
    let k' : Nat := if roundsUp rmx neg k r s st u then k + 1 else k
    let n : Int := if neg then -(k' : Int) else k'
    let nx : Flags := if decide (r ≠ 0) || st then fNX else 0
    if n < lo then (intBits f lo, nx ||| clampFlags)
    else if hi < n then (intBits f hi, nx ||| clampFlags)
    else (intBits f n, nx)

/-- Round an exact value into a format under a mode, with its flags and its draw (R24 to R28). -/
def encodeF (f : Fmt) (rm : Rm) (fromInt : Bool) (v : FVal) (env : FEnv) : Nat × FEnv :=
  match f with
  | .e8 => let (x, fl) := encE8 v; (x, env.raise fl)
  | .raw => (0, env)
  | .mk8 =>
    let (u, env) := env.draw rm
    let (x, fl) := encMk8 rm u v
    (x, env.raise fl)
  | .int8 | .uint8 | .int16 | .int32 =>
    let (u, env) := env.draw rm
    let (x, fl) := encInt f rm fromInt u v
    (x, env.raise fl)
  | f =>
    let (u, env) := env.draw rm
    let (x, fl) := encFloat f rm u v
    (x, env.raise fl)

/-- Convert an element from one format to another (R16, R27, R28); a RAW side passes the bits. -/
def convertF (src dst : Fmt) (rm : Rm) (x : Nat) (env : FEnv) : Nat × FEnv :=
  if src = .raw || dst = .raw then (x, env) else encodeF dst rm (isInt src) (decodeF src x) env

/-! ### Exact arithmetic (R180) -/

/-- A signed multiple of 2^e as a value; an exact zero is negative only under RD (IEEE 754 zero-sum rule). -/
def ofScaled (rm : Rm) (i : Int) (e : Int) : FVal :=
  if i = 0 then .zero (decide (rm = .rd)) else .fin (decide (i < 0)) i.natAbs e false

/-- The exact sum, and whether it is invalid (∞ − ∞). -/
def FVal.add (rm : Rm) : FVal → FVal → FVal × Bool
  | .nan, _ => (.nan, false)
  | _, .nan => (.nan, false)
  | .inf a, .inf b => if a = b then (.inf a, false) else (.nan, true)
  | .inf a, _ => (.inf a, false)
  | _, .inf b => (.inf b, false)
  | .fin na ma ea _, .fin nb mb eb _ =>
    if ma = 0 && mb == 0 then (if na = nb then .zero na else .zero (decide (rm = .rd)), false)
    else
      let e := if ea ≤ eb then ea else eb
      let a : Int := (ma <<< (ea - e).toNat : Nat)
      let b : Int := (mb <<< (eb - e).toNat : Nat)
      (ofScaled rm ((if na then -a else a) + (if nb then -b else b)) e, false)

/-- The exact product, and whether it is invalid (0 × ∞). -/
def FVal.mul : FVal → FVal → FVal × Bool
  | .nan, _ => (.nan, false)
  | _, .nan => (.nan, false)
  | .inf a, .inf b => (.inf (a != b), false)
  | .inf a, .fin nb mb _ _ => if mb = 0 then (.nan, true) else (.inf (a != nb), false)
  | .fin na ma _ _, .inf b => if ma = 0 then (.nan, true) else (.inf (na != b), false)
  | .fin na ma ea _, .fin nb mb eb _ => (.fin (na != nb) (ma * mb) (ea + eb) false, false)

/-- The quotient to enough bits for any rounding, with NV (0/0, ∞/∞) or DZ (finite non-zero / 0). -/
def FVal.div : FVal → FVal → FVal × Flags
  | .nan, _ => (.nan, 0)
  | _, .nan => (.nan, 0)
  | .inf _, .inf _ => (.nan, fNV)
  | .inf a, .fin nb _ _ _ => (.inf (a != nb), 0)
  | .fin na _ _ _, .inf b => (.zero (na != b), 0)
  | .fin na ma ea _, .fin nb mb eb _ =>
    if mb = 0 then (if ma = 0 then (.nan, fNV) else (.inf (na != nb), fDZ))
    else if ma = 0 then (.zero (na != nb), 0)
    else
      let k := 128 + bitLen mb
      let n := ma <<< k
      (.fin (na != nb) (n / mb) (ea - eb - k) (decide (n % mb ≠ 0)), 0)

/-- The integer square root, bit by bit from bit `i`. -/
def isqrtFrom (n : Nat) : Nat → Nat → Nat
  | 0, r => if (r + 1) * (r + 1) ≤ n then r + 1 else r
  | i + 1, r =>
    let c := r + 2 ^ (i + 1)
    isqrtFrom n i (if c * c ≤ n then c else r)

def isqrt (n : Nat) : Nat := isqrtFrom n (bitLen n / 2 + 1) 0

/-- The square root to enough bits for any rounding, and whether it is invalid. -/
def FVal.sqrt : FVal → FVal × Bool
  | .nan => (.nan, false)
  | .inf n => if n then (.nan, true) else (.inf false, false)
  | .fin n m e _ =>
    if m = 0 then (.zero n, false)
    else if n then (.nan, true)
    else
      let k : Nat := if (e % 2 = 0) then 260 else 261
      let m' := m <<< k
      let r := isqrt m'
      (.fin false r ((e - k) / 2) (decide (r * r ≠ m')), false)

/-- Compare two values that are not NaN: −1, 0 or 1 as an Int; −0 equals +0. -/
def FVal.cmp : FVal → FVal → Int
  | .inf a, .inf b => if a = b then 0 else if a then -1 else 1
  | .inf a, _ => if a then -1 else 1
  | _, .inf b => if b then 1 else -1
  | .fin na ma ea _, .fin nb mb eb _ =>
    let e := if ea ≤ eb then ea else eb
    let a : Int := (ma <<< (ea - e).toNat : Nat)
    let b : Int := (mb <<< (eb - e).toNat : Nat)
    let x := (if na then -a else a) - (if nb then -b else b)
    if x < 0 then -1 else if 0 < x then 1 else 0
  | _, _ => 0

/-- Is `a` below `b`, with −0 below +0 (R32)? Neither is NaN. -/
def FVal.ltZ (a b : FVal) : Bool :=
  let c := a.cmp b
  decide (c < 0) || (decide (c = 0) && a.sign && !b.sign)

/-- MAX of R32: NaN if either is NaN. -/
def FVal.max (a b : FVal) : FVal :=
  match a, b with
  | .nan, _ => .nan
  | _, .nan => .nan
  | a, b => if a.ltZ b then b else a

/-- MIN of R32. -/
def FVal.min (a b : FVal) : FVal :=
  match a, b with
  | .nan, _ => .nan
  | _, .nan => .nan
  | a, b => if b.ltZ a then b else a

/-- The pattern of an exact value that the format represents (no rounding, no draw, no flag). -/
def exactBits (f : Fmt) (v : FVal) : Nat := (encodeF f .rne (isInt f) v ⟨0, 0⟩).1

/-- Round an arithmetic result: NV when the operation itself was invalid (R180). -/
def roundRes (f : Fmt) (rm : Rm) (r : FVal × Bool) (env : FEnv) : Nat × FEnv :=
  encodeF f rm (isInt f) r.1 (if r.2 then env.raise fNV else env)

/-- a + b rounded once. -/
def addF (f : Fmt) (rm : Rm) (a b : FVal) (env : FEnv) : Nat × FEnv := roundRes f rm (a.add rm b) env

/-- a × b rounded once. -/
def mulF (f : Fmt) (rm : Rm) (a b : FVal) (env : FEnv) : Nat × FEnv := roundRes f rm (a.mul b) env

/-- a × b + c rounded once (R180); NV for an invalid product or sum only when no source is NaN. -/
def fmaF (f : Fmt) (rm : Rm) (a b c : FVal) (env : FEnv) : Nat × FEnv :=
  let (p, i1) := a.mul b
  let (r, i2) := p.add rm c
  let anyNan := decide (a = .nan) || decide (b = .nan) || decide (c = .nan)
  roundRes f rm (r, (i1 || i2) && !anyNan) env

/-- a / b rounded once, with DZ or NV. -/
def divF (f : Fmt) (rm : Rm) (a b : FVal) (env : FEnv) : Nat × FEnv :=
  let (r, fl) := a.div b
  encodeF f rm false r (env.raise fl)

/-- √a rounded once. -/
def sqrtF (f : Fmt) (rm : Rm) (a : FVal) (env : FEnv) : Nat × FEnv := roundRes f rm a.sqrt env

/-- The FP32 or FP64 add of an atomic, a reduction or a fabric operation: RNE, no flag, no draw (R103, R283). -/
def addBits (f : Fmt) (a b : Nat) : Nat := (addF f .rne (decodeF f a) (decodeF f b) ⟨0, 0⟩).1

/-- The class 0 to 8 of R191. Every non-zero finite MK8 value and every E8 value is normal. -/
def classOf (f : Fmt) (v : FVal) : Nat :=
  match v with
  | .nan => 8
  | .inf n => if n then 0 else 7
  | .fin n m e _ =>
    if m = 0 then (if n then 3 else 4)
    else
      let sub := match f with
        | .mk8 | .e8 => false
        | _ => decide (e + (bitLen m : Int) - 1 < 1 - ((fspec f).bias : Int))
      if sub then (if n then 2 else 5) else (if n then 1 else 6)

end Machine
end Sys2Proof
end

