-- ==== Sys2Proof/Machine/Map.lean ====
section
/-! DEFINITION. The one finite map of the machine: an association list with strictly rising keys and no entry equal to
what an unlisted key reads as, so that equal maps are equal lists. Every register file, memory and table of the state
is one of these. -/

namespace Sys2Proof.Machine

/-- Keys and values, keys strictly rising. What an unlisted key reads as is the `d` argument of the operations. -/
abbrev Map (α : Type) := List (Nat × α)

/-- The value at a key; `d` where the key is not listed. -/
def Map.get {α : Type} (d : α) : Map α → Nat → α
  | [], _ => d
  | (k, v) :: r, a => if a < k then d else if a = k then v else Map.get d r a

/-- Drop the leading entries whose key is not above `a`. -/
def Map.above {α : Type} : Map α → Nat → Map α
  | [], _ => []
  | (k, v) :: r, a => if k ≤ a then Map.above r a else (k, v) :: r

/-- Put a value at a key, keeping the canonical form: writing `d` removes the entry. -/
def Map.set {α : Type} [DecidableEq α] (d : α) : Map α → Nat → α → Map α
  | [], a, x => if x = d then [] else [(a, x)]
  | (k, v) :: r, a, x =>
    if a < k then (if x = d then (k, v) :: r else (a, x) :: (k, v) :: r)
    else if a = k then (if x = d then Map.above r a else (a, x) :: r)
    else (k, v) :: Map.set d r a x

/-- Change the value at a key. -/
def Map.modify {α : Type} [DecidableEq α] (d : α) (m : Map α) (a : Nat) (f : α → α) : Map α :=
  m.set d a (f (m.get d a))

/-- Every key is at least `lo`, the keys rise strictly, and no value is `d`. -/
def Map.wfFrom {α : Type} [DecidableEq α] (d : α) : Nat → Map α → Bool
  | _, [] => true
  | lo, (k, v) :: r => decide (lo ≤ k) && decide (v ≠ d) && Map.wfFrom d (k + 1) r

/-- The canonical form. -/
def Map.wf {α : Type} [DecidableEq α] (d : α) (m : Map α) : Bool := m.wfFrom d 0

/-- The `n` values from key `a` upward. -/
def Map.getRange {α : Type} (d : α) (m : Map α) : Nat → Nat → List α
  | _, 0 => []
  | a, n + 1 => m.get d a :: Map.getRange d m (a + 1) n

/-- Put a list of values from key `a` upward. -/
def Map.setRange {α : Type} [DecidableEq α] (d : α) : Map α → Nat → List α → Map α
  | m, _, [] => m
  | m, a, x :: xs => Map.setRange d (m.set d a x) (a + 1) xs

/-- Remove every entry whose key lies in [lo, hi): those keys read as unlisted again. -/
def Map.clear {α : Type} (m : Map α) (lo hi : Nat) : Map α :=
  match m with
  | [] => []
  | (k, v) :: r => if k < lo ∨ hi ≤ k then (k, v) :: Map.clear r lo hi else Map.above (Map.clear r lo hi) k

/-- A map of bit patterns whose unlisted keys read as zero. -/
abbrev Sparse (w : Nat) := Map (BitVec w)

def Sparse.get {w : Nat} (m : Sparse w) (a : Nat) : BitVec w := Map.get 0#w m a
def Sparse.set {w : Nat} (m : Sparse w) (a : Nat) (x : BitVec w) : Sparse w := Map.set 0#w m a x
def Sparse.getRange {w : Nat} (m : Sparse w) (a n : Nat) : List (BitVec w) := Map.getRange 0#w m a n
def Sparse.setRange {w : Nat} (m : Sparse w) (a : Nat) (xs : List (BitVec w)) : Sparse w := Map.setRange 0#w m a xs

/-- Memory: (address, byte) cells in canonical form. An unlisted address reads as 0 (assumption 1). -/
abbrev Memory := List Host.Cell

/-- The canonical form of memory. -/
def Memory.wf (m : Memory) : Bool := Map.wf (0#8) m

def Memory.get (m : Memory) (a : Nat) : Byte := Map.get 0#8 m a
def Memory.set (m : Memory) (a : Nat) (x : Byte) : Memory := Map.set 0#8 m a x
def Memory.getRange (m : Memory) (a n : Nat) : List Byte := Map.getRange 0#8 m a n
def Memory.setRange (m : Memory) (a : Nat) (xs : List Byte) : Memory := Map.setRange 0#8 m a xs

end Sys2Proof.Machine
end

