-- ==== Sys2Proof/Machine/Wire.lean ====
section
/-! DEFINITION. What travels on the fibre: the packet header with its CRC (R298), the flit with its link control word
(R300), and the dealing of its beats over the wavelengths (R301). -/

namespace Sys2Proof.Machine

/-! ### Packets (R298) -/

/-- The CRC register after one more bit, the most significant bit of a byte first (assumption 48). -/
def crcBit (c : BitVec 16) (b : Bool) : BitVec 16 := if c.msb != b then (c <<< 1) ^^^ 0x1021 else c <<< 1

/-- CRC-16 of a byte string: polynomial 0x1021, initial value 0xFFFF. -/
def crc16 (bs : List Byte) : BitVec 16 :=
  bs.foldl (fun c b => [7, 6, 5, 4, 3, 2, 1, 0].foldl (fun c i => crcBit c (b.getLsbD i)) c) 0xFFFF

/-- KIND of a packet that is no acknowledgement. -/
def pktKind (p : Packet) : Nat :=
  if p.control then (if p.data.isEmpty then 4 else 5) else if p.reduce then 2 else 1

/-- Bytes 0 to 29 of the header of a packet of a kind, on a route to a chip. -/
def pktHead (p : Packet) (kind route dst : Nat) : List Byte :=
  leBytes 1 (kind % 16 + 16 * (route % 4)) ++ leBytes 3 (p.srcChip % 2 ^ 18 + 2 ^ 18 * (p.vf % 8))
    ++ leBytes 3 (dst % 2 ^ 18) ++ leBytes 1 p.step ++ leBytes 4 p.seq.toNat ++ leBytes 3 (p.srcRank % 2 ^ 18)
    ++ leBytes 1 p.win ++ leBytes 5 (p.off % 2 ^ 38) ++ leBytes 1 p.ctrWin ++ leBytes 5 (p.ctrOff % 2 ^ 38)
    ++ leBytes 2 (p.data.length % 2 ^ 13 + 2 ^ 13 * p.ctrEn.toNat + 2 ^ 14 * p.last.toNat) ++ leBytes 1 (p.op % 16)

/-- A header with its CRC. -/
def withCrc (h : List Byte) : List Byte := h ++ leBytes 2 (crc16 h).toNat

/-- A packet as it is sent: header, CRC, payload. -/
def pktBytes (p : Packet) (route dst : Nat) : List Byte := withCrc (pktHead p (pktKind p) route dst) ++ p.data

/-- An acknowledgement as it is sent: SEQ holds the contiguous mark. -/
def ackBytes (vf src dst route mark : Nat) : List Byte :=
  withCrc (pktHead {
    control := true, port := 8, srcChip := src, vf := vf, reduce := false, step := 0, seq := BitVec.ofNat 32 mark
    srcRank := 0, win := 0, off := 0, ctrEn := false, ctrWin := 0, ctrOff := 0, op := 0, data := [], crcOk := true
    } 3 route dst)

/-- A received packet: KIND, DSTCHIP, and the packet with the result of its CRC. -/
def packetOf (port : Nat) (bs : List Byte) : Nat × Nat × Packet :=
  let f (o n : Nat) : Nat := leNat ((bs.drop o).take n)
  let kind := f 0 1 % 16
  (kind, f 4 3 % 2 ^ 18, {
    control := kind == 4 || kind == 5, port := port, srcChip := f 1 3 % 2 ^ 18, vf := f 1 3 / 2 ^ 18 % 8
    reduce := kind == 2, step := f 7 1, seq := BitVec.ofNat 32 (f 8 4), srcRank := f 12 3 % 2 ^ 18, win := f 15 1
    off := f 16 5 % 2 ^ 38, ctrEn := (f 27 2).testBit 13, ctrWin := f 21 1, ctrOff := f 22 5 % 2 ^ 38, op := f 29 1 % 16
    data := (bs.drop 32).take (f 27 2 % 2 ^ 13), crcOk := f 30 2 == (crc16 (bs.take 30)).toNat
    last := (f 27 2).testBit 14 })

/-! ### Flits (R300, R301) -/

/-- The link control word of a flit. -/
structure LinkWord where
  seq   : BitVec 12
  ack   : Option (BitVec 12) := none
  nak   : Bool := false
  hold  : Bool := false
  kind  : Nat := 0
  lanes : BitVec 16 := 0
  laneSeq : BitVec 12 := 0
  deriving DecidableEq, Repr

def LinkWord.value (w : LinkWord) : Nat :=
  w.seq.toNat + 2 ^ 12 * ((w.ack.map (·.toNat)).getD 0) + 2 ^ 24 * w.ack.isSome.toNat + 2 ^ 25 * w.nak.toNat
    + 2 ^ 26 * w.hold.toNat + 2 ^ 27 * w.kind + 2 ^ 32 * w.lanes.toNat + 2 ^ 48 * w.laneSeq.toNat

/-- The 256 bytes of a flit: link control, 224 packet bytes, parity. -/
def flitBytes (w : LinkWord) (data : List Byte) : List Byte :=
  let d := leBytes 8 w.value ++ (data ++ List.replicate (224 - data.length) 0).take 224
  d ++ (List.range 24).map (Config.fecByte d)

/-- The packet bytes of a packet's flits, in order. -/
def flitsOf (bs : List Byte) : List (List Byte) :=
  (List.range ((bs.length + 223) / 224)).map (fun i => (bs.drop (224 * i)).take 224)

/-- The wavelengths of a mask, in ascending order. -/
def lams (m : BitVec 16) : List Nat := (List.range 16).filter (fun l => m.getLsbD l)

/-- Where beat `g` after a lane change goes: its wavelength and its slot. -/
def beatPlace (mask : BitVec 16) (g : Nat) : Nat × Nat :=
  let l := lams mask
  (l.getD (g % l.length) 0, g / l.length)

/-- The places of the 16 beats of a flit whose first is beat `g`. -/
def flitBeats (mask : BitVec 16) (g : Nat) : List (Nat × Nat) := (List.range 16).map (fun i => beatPlace mask (g + i))

/-- The fill beats that complete the slot in which beat `g` would come next. -/
def fillBeats (mask : BitVec 16) (g : Nat) : Nat :=
  let n := (lams mask).length
  if n = 0 then 0 else (n - g % n) % n

end Sys2Proof.Machine
end

