-- ==== Sys2Proof/WellFormed.lean ====
section
/-! DEFINITION. Which instructions are well formed: for a scalar word the register and group limits of R40 and R43,
for a vector word the tables of the vector chapter (R177, R182 to R197), for a matrix word the field groups of R52 and
the combinations of R53, R201 and R223. An event has no encoding and is no well-formed word. The checks are the same
functions that the decoder runs, step by step of R40. -/

namespace Sys2Proof

/-- The vector opcodes of R49. -/
inductive VOp where
  | add | sub | mul | div | fma | fms | fnma | fnms | max | min | abs | neg | sqrt | cpsgn
  | exp2 | log2 | rcp | rsq | sigm | tanh
  | iadd | isub | imul | imulh | imin | imax | iminu | imaxu | and | or | xor | shl | shr | sra | iabs | idot4
  | cvt | scale | tag | qblk | dqblk | cls
  | cmp | sel | kand | kor | kxor | knot | kpop | kmov
  | rsum | rmax | rmin | ramax | riadd
  | mov | bcast | perm | rot | comp | expd | iota | zip | uzp
  | ld | st | ldx | stx
  deriving DecidableEq, Repr

/-- The matrix opcodes of R51 that carry the common matrix fields. -/
inductive MOp where
  | mma | drun | mld | mst | mzero | acpy | acpyin
  deriving DecidableEq, Repr

/-- The operand kinds of R177: every tile form is one kind. -/
inductive OKind where
  | v | t | p | q | s | k
  deriving DecidableEq, Repr

def Operand.kind : Operand → OKind
  | .v _ => .v
  | .row _ _ => .t
  | .col _ _ => .t
  | .diag _ _ => .t
  | .sp _ _ => .p
  | .q _ => .q
  | .s _ => .s
  | .k _ => .k

/-- What a word's flags field may hold (R184, R186, R196). -/
inductive FlagUse where
  | none   -- must be 00
  | bit22  -- bit 22 is an option, bit 23 must be 0
  | source -- names the source format of an untagged A
  deriving DecidableEq, Repr

/-- The format an operand is checked against (R177): the word's, a fixed one, or none. -/
inductive Chk where
  | word
  | fixed (f : Fmt)
  | none
  deriving DecidableEq, Repr

/-- How an instruction uses one operand field; no kinds means that the field is unused. -/
structure OUse where
  kinds : List OKind
  chk   : Chk
  data  : Bool
  deriving DecidableEq, Repr

/-- The row of an instruction in the tables of the vector chapter. -/
structure VSig where
  fmts   : List Fmt
  rounds : Bool
  fl     : FlagUse
  noMask : Bool
  d      : OUse
  a      : OUse
  b      : OUse
  deriving DecidableEq, Repr

def fmtsFloat : List Fmt := [.fp64, .fp32, .bf16, .fp16]
def fmtsInt : List Fmt := [.int8, .uint8, .int16, .int32]
def fmtsBlock : List Fmt := [.int8, .uint8, .e4m3, .e5m2, .e3m2, .e2m3, .mk8]
def fmtsClass : List Fmt := [.fp64, .fp32, .bf16, .fp16, .e4m3, .e5m2, .e3m2, .e2m3, .mk8, .e8]
def fmtsTagged : List Fmt :=
  [.int8, .int32, .fp64, .fp32, .bf16, .fp16, .e4m3, .e5m2, .e3m2, .e2m3, .mk8, .e8, .int16, .uint8]
def fmtsAll : List Fmt := .raw :: fmtsTagged

def OUse.unused : OUse := ⟨[], .none, false⟩
def OUse.dst : OUse := ⟨[.v, .t, .p], .word, true⟩
def OUse.src : OUse := ⟨[.v, .t, .p, .q, .s, .k], .word, true⟩
def OUse.mask : OUse := ⟨[.k], .none, false⟩

/-- The table rows. -/
def VOp.sig : VOp → VSig
  | .add | .sub | .mul | .div | .fma | .fms | .fnma | .fnms =>
    ⟨fmtsFloat, true, .none, false, .dst, .src, .src⟩
  | .max | .min | .cpsgn => ⟨fmtsFloat, false, .none, false, .dst, .src, .src⟩
  | .abs | .neg => ⟨fmtsFloat, false, .none, false, .dst, .src, .unused⟩
  | .sqrt => ⟨fmtsFloat, true, .none, false, .dst, .src, .unused⟩
  | .exp2 | .log2 | .rcp | .rsq | .sigm | .tanh =>
    ⟨[.fp32, .bf16, .fp16], true, .none, false, .dst, .src, .unused⟩
  | .iadd | .isub | .imul | .shl => ⟨fmtsInt, false, .bit22, false, .dst, .src, .src⟩
  | .imulh | .imin | .imax | .iminu | .imaxu | .and | .or | .xor | .shr | .sra =>
    ⟨fmtsInt, false, .none, false, .dst, .src, .src⟩
  | .iabs => ⟨fmtsInt, false, .bit22, false, .dst, .src, .unused⟩
  | .idot4 => ⟨[.int8, .uint8], false, .bit22, false, ⟨[.v, .t, .p], .fixed .int32, true⟩, .src, .src⟩
  | .cvt => ⟨fmtsAll, true, .source, false, .dst, ⟨[.v, .t, .p, .q, .s, .k], .none, false⟩, .unused⟩
  | .scale =>
    ⟨fmtsFloat, true, .none, false, .dst, .src, ⟨[.v, .t, .p, .q, .s, .k], .fixed .e8, true⟩⟩
  | .tag => ⟨fmtsAll, false, .none, true, ⟨[.v, .t], .none, false⟩, .unused, .unused⟩
  | .qblk =>
    ⟨fmtsBlock, true, .source, false, .dst, ⟨[.v, .t, .p, .q, .s, .k], .none, false⟩, ⟨[.v], .none, false⟩⟩
  | .dqblk =>
    ⟨fmtsBlock, true, .none, false, ⟨[.v, .t, .p], .fixed .fp32, true⟩, ⟨[.v, .t, .p], .word, true⟩,
      ⟨[.v, .s], .none, false⟩⟩
  | .cls => ⟨fmtsClass, false, .none, false, ⟨[.v, .t, .p], .fixed .int32, true⟩, .src, .unused⟩
  | .cmp => ⟨fmtsTagged, false, .none, false, .mask, .src, .src⟩
  | .sel => ⟨fmtsAll, false, .none, false, .dst, .src, .src⟩
  | .kand | .kor | .kxor => ⟨[.raw], false, .none, true, .mask, .mask, .mask⟩
  | .knot => ⟨[.raw], false, .none, true, .mask, .mask, .unused⟩
  | .kpop => ⟨[.int32], false, .none, false, ⟨[.v, .p], .fixed .int32, true⟩, .mask, .unused⟩
  | .kmov => ⟨[.raw], false, .none, true, .mask, ⟨[.k, .s], .none, false⟩, .unused⟩
  | .rsum => ⟨fmtsFloat, true, .none, false, .dst, .src, .unused⟩
  | .rmax | .rmin | .ramax => ⟨fmtsFloat, false, .none, false, .dst, .src, .unused⟩
  | .riadd => ⟨fmtsInt, false, .none, false, ⟨[.v, .t, .p], .fixed .int32, true⟩, .src, .unused⟩
  | .mov | .comp | .expd => ⟨fmtsAll, false, .none, false, .dst, .src, .unused⟩
  | .bcast | .rot => ⟨fmtsAll, false, .none, false, .dst, .src, ⟨[.s], .none, false⟩⟩
  | .perm => ⟨fmtsAll, false, .none, false, .dst, .src, ⟨[.v], .none, false⟩⟩
  | .iota =>
    ⟨[.int8, .uint8, .int16, .int32, .fp64, .fp32, .bf16, .fp16], false, .none, false, .dst, .unused, .unused⟩
  | .zip | .uzp => ⟨fmtsAll, false, .bit22, false, .dst, .src, .src⟩
  | .ld => ⟨fmtsAll, false, .none, false, ⟨[.v, .t], .word, true⟩, ⟨[.s], .none, false⟩, .unused⟩
  | .st => ⟨fmtsAll, false, .none, false, .unused, .src, ⟨[.s], .none, false⟩⟩
  | .ldx => ⟨fmtsAll, false, .none, false, ⟨[.v, .t], .word, true⟩, ⟨[.s], .none, false⟩, ⟨[.v], .none, false⟩⟩
  | .stx => ⟨fmtsAll, false, .none, false, ⟨[.v], .none, false⟩, .src, ⟨[.s], .none, false⟩⟩

/-- Does a word of this opcode move elements, so that RAW restricts its data operands (R177)? -/
def VOp.moves : VOp → Bool
  | .sel | .mov | .bcast | .perm | .rot | .comp | .expd | .zip | .uzp | .ld | .st | .ldx | .stx => true
  | _ => false

/-- Is the operand the scalar register `s n` with lo ≤ n ≤ hi? -/
def Operand.isS (lo hi : Nat) : Operand → Bool
  | .s n => decide (lo ≤ n.toNat) && decide (n.toNat ≤ hi)
  | _ => false

/-- Step 3 of R40: a reserved rounding-mode code. VCMP's field is a condition and never fails. -/
def VOp.step3 (op : VOp) (rm : BitVec 3) : Bool := decide (op = .cmp) || decide (rm.toNat < 6)

/-- The flags field (R184, R186, R196). -/
def VOp.flagsOk (op : VOp) (w : VWord) : Bool :=
  match op.sig.fl with
  | .none => w.flags == 0
  | .bit22 => w.flags.toNat < 2
  | .source => w.flags == 0 || w.a.kind == .p || w.a.kind == .s || w.a.kind == .k

/-- An unused operand field is all zero (R46). -/
def OUse.zeroOk (u : OUse) (o : Operand) : Bool := !u.kinds.isEmpty || o == .v 0

/-- Step 4 of R40 on the fields of a vector word: the format is one the entry lists (R177), rm is 0 where nothing is
rounded, the mask is k0 where the entry says so, the flags are allowed, unused operands are zero. -/
def VOp.step4 (op : VOp) (w : VWord) : Bool :=
  op.sig.fmts.contains w.fmt
  && (op.sig.rounds || op == .cmp || w.rm == 0)
  && (!op.sig.noMask || w.k == 0)
  && op.flagsOk w
  && op.sig.d.zeroOk w.d && op.sig.a.zeroOk w.a && op.sig.b.zeroOk w.b
  && (op != .qblk || (w.d.kind != .t && w.d.kind != .p) || w.b == .v 0)
  && (op != .dqblk || (w.a.kind != .t && w.a.kind != .p) || w.b == .v 0)

/-- The format an operand is checked against, under a word's format. -/
def Chk.fmt (c : Chk) (f : Fmt) : Option Fmt :=
  match c with
  | .word => some f
  | .fixed g => some g
  | .none => Option.none

/-- The tile operands that R177 forbids: a checked format of INT32, or E8 outside the row access of the sideband. -/
def OUse.tileOk (u : OUse) (f : Fmt) (o : Operand) : Bool :=
  match o with
  | .row _ _ => u.chk.fmt f != some .int32
  | .col _ _ | .diag _ _ => u.chk.fmt f != some .int32 && u.chk.fmt f != some .e8
  | _ => true

/-- A used operand is of an allowed kind, is not a forbidden tile form, and is of kind v (or k) where RAW elements
are moved. -/
def OUse.kindOk (u : OUse) (f : Fmt) (rawMove : Bool) (o : Operand) : Bool :=
  u.kinds.isEmpty ||
    (u.kinds.contains o.kind && u.tileOk f o && (!(rawMove && u.data) || o.kind == .v || o.kind == .k))

/-- Step 5 of R40 on the fields of a vector word: kinds, tile forms, k0 as a destination, and the combinations that
single entries forbid (R187, R189, R190, R194, R197). -/
def VOp.step5 (op : VOp) (w : VWord) : Bool :=
  let raw := op.moves && w.fmt == .raw
  op.sig.d.kindOk w.fmt raw w.d && op.sig.a.kindOk w.fmt raw w.a
  && (op.sig.b.kindOk w.fmt raw w.b || (op == .qblk && w.d.kind != .v)
      || (op == .dqblk && w.a.kind != .v))
  && (w.d.kind != .k || w.d != .k 0)
  && (op != .cvt || w.fmt != .raw || w.d.kind == .v)
  && (op != .qblk || (match w.d with
      | .v _ => true
      | .row _ _ => true
      | .sp _ stride => stride == 1
      | _ => false))
  && (op != .dqblk || (match w.a with
      | .v _ => true
      | .row _ _ => true
      | .sp _ stride => stride == 1
      | _ => false))
  && (op != .tag || w.d.kind == .v || (w.fmt != .int32 && w.fmt != .e8))
  && (op != .kmov || w.a != .s 63)
  && (op != .ld || w.a.isS 1 62) && (op != .st || w.b.isS 1 62)
  && (op != .ldx || w.a.isS 1 63) && (op != .stx || w.b.isS 1 63)
  && ((op != .st && op != .stx) || w.fmt != .raw || w.a.kind == .v)

/-- A vector word that decodes. -/
def VOp.wordOk (op : VOp) (w : VWord) : Bool := op.step3 w.rm && op.step4 w && op.step5 w

/-- The format class of a step (R5). -/
inductive MClass where
  | c16 | c8 | fp32 | fp64
  deriving DecidableEq, Repr

def MClass.kt : MClass → Nat
  | .c16 => 128
  | .c8 => 256
  | .fp32 => 32
  | .fp64 => 64

def fmts86 : List Fmt := [.e4m3, .e5m2, .e3m2, .e2m3, .mk8]

/-- The format class and the C format of a pair of operand formats (R53). -/
def mmaClass (af bf : Fmt) (scaled : Bool) : Option (MClass × Fmt) :=
  if af = .fp64 ∧ bf = .fp64 then some (.fp64, .fp64)
  else if af = .fp32 ∧ bf = .fp32 then some (.fp32, .fp32)
  else if (af = .bf16 ∨ af = .fp16) ∧ (bf = .bf16 ∨ bf = .fp16) then some (.c16, .fp32)
  else if af = .int16 ∧ bf = .int16 then some (.c16, .int32)
  else if fmts86.contains af ∧ fmts86.contains bf then some (.c8, .fp32)
  else if (af = .int8 ∨ af = .uint8) ∧ (bf = .int8 ∨ bf = .uint8) then
    some (.c8, if scaled then .fp32 else .int32)
  else none

/-- The formats that have a tile layout (R137). -/
def hasLayout : Fmt → Bool
  | .raw | .int32 | .e8 => false
  | _ => true

/-- The formats an accumulator may carry. -/
def accFmt : Fmt → Bool
  | .fp32 | .fp64 | .int32 => true
  | _ => false

/-- The accumulator format ACPYIN pairs with a tile format (R223). -/
def acpyinCf : Fmt → Fmt
  | .fp64 => .fp64
  | .int8 | .uint8 | .int16 => .int32
  | _ => .fp32

/-- The word with every field zero. -/
def MWord.zero : MWord :=
  ⟨0, 0, 0, .raw, .raw, .raw, false, 0, 0, 0, 0, 0, 0, 0, 0, 0, 0, 0, 0, 0, 0, 0, false, false, 0, 0, false, false,
    false, false, 0, 0⟩

/-- The A source group with the fields that the chosen kind does not use cleared. `dest` keeps the tile of MLD. -/
def MWord.keepA (w r : MWord) (dest : Bool) : MWord :=
  if w.aKind = 1 then
    { r with aKind := w.aKind, aTile := if dest then w.aTile else 0, aFirst := w.aFirst, aSecond := w.aSecond }
  else { r with aKind := w.aKind, aTile := w.aTile }

/-- The B source group likewise; with kind 10 only the slot and bit [51] are used (R50). -/
def MWord.keepB (w r : MWord) : MWord :=
  if w.bKind = 1 then { r with bKind := w.bKind, bFirst := w.bFirst, bSecond := w.bSecond }
  else if w.bKind = 2 then { r with bKind := w.bKind, bTile := w.bTile &&& 1, slot := w.slot }
  else { r with bKind := w.bKind, bTile := w.bTile }

def MWord.keepAcc (w r : MWord) : MWord := { r with acc := w.acc, rowMask := w.rowMask, colMask := w.colMask }
def MWord.keepDrain (w r : MWord) : MWord :=
  { r with entry := w.entry, dparam := w.dparam, dmode := w.dmode, acc2 := w.acc2 }
def MWord.keepWait (w r : MWord) : MWord := { r with waitCp := w.waitCp, waitWs := w.waitWs }

/-- The word with every field that its opcode and kinds do not read cleared (R52). -/
def MOp.keep (op : MOp) (w : MWord) : MWord :=
  match op with
  | .mma =>
    let r := w.keepWait (w.keepDrain (w.keepAcc MWord.zero))
    let r := w.keepB (w.keepA r false)
    { r with
      af := w.af, bf := w.bf, cf := w.cf, ovw := w.ovw, kcount := w.kcount, koff := w.koff
      aScaled := w.aScaled, bScaled := w.bScaled, rm := w.rm, rep := w.rep, advA := w.advA, advB := w.advB
      accAcross := w.accAcross, drainLast := w.drainLast }
  | .drun => { w.keepWait (w.keepDrain (w.keepAcc MWord.zero)) with cf := w.cf, rm := w.rm }
  | .mld => { w.keepWait (w.keepA MWord.zero true) with af := w.af, aScaled := w.aScaled }
  | .mst => { w.keepWait (w.keepA (w.keepAcc MWord.zero) false) with af := w.af, cf := w.cf, rm := w.rm }
  | .mzero => { w.keepAcc MWord.zero with cf := w.cf }
  | .acpy => { w.keepA (w.keepAcc MWord.zero) false with af := w.af, cf := w.cf, rm := w.rm }
  | .acpyin => { w.keepA (w.keepAcc MWord.zero) false with af := w.af, cf := w.cf, ovw := w.ovw }

/-- Step 3 of R40: a reserved code in a rounding-mode field that the opcode reads. -/
def MOp.step3 (op : MOp) (rm : BitVec 3) : Bool :=
  match op with
  | .mma | .drun | .mst | .acpy => rm.toNat < 6
  | _ => true

/-- Step 4 of R40: every field the opcode does not read is zero (R52). -/
def MOp.step4 (op : MOp) (w : MWord) : Bool := op.keep w == w

/-- The drain fields agree with one another (R53). -/
def MWord.drainOk (w : MWord) : Bool :=
  w.dmode != 3
  && (w.dmode == 0 || w.entry != 0)
  && (w.dmode != 0 || (w.entry == 0 && w.dparam == 0 && w.acc2 == 0))

/-- The operand formats that a word may name as block-scaled (R30). -/
def scalableFmt (f : Fmt) : Bool := fmtsBlock.contains f

/-- Step 5 of R40 for a matrix word (R53, R201, R220 to R223). -/
def MOp.step5 (op : MOp) (w : MWord) : Bool :=
  match op with
  | .mma =>
    w.aKind != 3 && w.drainOk && w.dmode != 2 && (!w.drainLast || w.dmode != 0)
    && (!w.aScaled || scalableFmt w.af) && (!w.bScaled || scalableFmt w.bf)
    && (match mmaClass w.af w.bf (w.aScaled || w.bScaled) with
      | none => false
      | some (c, cf) =>
        w.cf == cf && w.kcount.toNat ≤ c.kt
        && (w.aKind != 2 || ((c == .c16 || c == .fp64) && !w.aScaled))
        && (w.bKind != 3 || ((c == .c16 || c == .fp64) && !w.bScaled)))
  | .drun => w.drainOk && w.dmode == 2 && accFmt w.cf
  | .mld => w.aKind == 1 && hasLayout w.af && (!w.aScaled || scalableFmt w.af)
  | .mst => w.aKind == 1 && w.af != .raw && accFmt w.cf
  | .mzero => accFmt w.cf
  | .acpy => w.aKind == 0 && hasLayout w.af && accFmt w.cf
  | .acpyin => w.aKind == 0 && hasLayout w.af && w.cf == acpyinCf w.af

/-- A matrix word that decodes. -/
def MOp.wordOk (op : MOp) (w : MWord) : Bool := op.step3 w.rm && op.step4 w && op.step5 w

/-- The vector opcode and fields of an instruction. -/
def Instr.vparts : Instr → Option (VOp × VWord)
  | .vadd w => some (.add, w) | .vsub w => some (.sub, w) | .vmul w => some (.mul, w) | .vdiv w => some (.div, w)
  | .vfma w => some (.fma, w) | .vfms w => some (.fms, w) | .vfnma w => some (.fnma, w)
  | .vfnms w => some (.fnms, w) | .vmax w => some (.max, w) | .vmin w => some (.min, w) | .vabs w => some (.abs, w)
  | .vneg w => some (.neg, w) | .vsqrt w => some (.sqrt, w) | .vcpsgn w => some (.cpsgn, w)
  | .vexp2 w => some (.exp2, w) | .vlog2 w => some (.log2, w) | .vrcp w => some (.rcp, w)
  | .vrsq w => some (.rsq, w) | .vsigm w => some (.sigm, w) | .vtanh w => some (.tanh, w)
  | .viadd w => some (.iadd, w) | .visub w => some (.isub, w) | .vimul w => some (.imul, w)
  | .vimulh w => some (.imulh, w) | .vimin w => some (.imin, w) | .vimax w => some (.imax, w)
  | .viminu w => some (.iminu, w) | .vimaxu w => some (.imaxu, w) | .vand w => some (.and, w)
  | .vor w => some (.or, w) | .vxor w => some (.xor, w) | .vshl w => some (.shl, w) | .vshr w => some (.shr, w)
  | .vsra w => some (.sra, w) | .viabs w => some (.iabs, w) | .vidot4 w => some (.idot4, w)
  | .vcvt w => some (.cvt, w) | .vscale w => some (.scale, w) | .vtag w => some (.tag, w)
  | .vqblk w => some (.qblk, w) | .vdqblk w => some (.dqblk, w) | .vclass w => some (.cls, w)
  | .vcmp w => some (.cmp, w) | .vsel w => some (.sel, w) | .kand w => some (.kand, w) | .kor w => some (.kor, w)
  | .kxor w => some (.kxor, w) | .knot w => some (.knot, w) | .kpop w => some (.kpop, w)
  | .kmov w => some (.kmov, w)
  | .vrsum w => some (.rsum, w) | .vrmax w => some (.rmax, w) | .vrmin w => some (.rmin, w)
  | .vramax w => some (.ramax, w) | .vriadd w => some (.riadd, w)
  | .vmov w => some (.mov, w) | .vbcast w => some (.bcast, w) | .vperm w => some (.perm, w)
  | .vrot w => some (.rot, w) | .vcomp w => some (.comp, w) | .vexpd w => some (.expd, w)
  | .viota w => some (.iota, w) | .vzip w => some (.zip, w) | .vuzp w => some (.uzp, w)
  | .vld w => some (.ld, w) | .vst w => some (.st, w) | .vldx w => some (.ldx, w) | .vstx w => some (.stx, w)
  | _ => none

/-- The matrix opcode and fields of an instruction. -/
def Instr.mparts : Instr → Option (MOp × MWord)
  | .mma w => some (.mma, w) | .drun w => some (.drun, w) | .mld w => some (.mld, w) | .mst w => some (.mst, w)
  | .mzero w => some (.mzero, w) | .acpy w => some (.acpy, w) | .acpyin w => some (.acpyin, w)
  | _ => none

/-- The first register of a command group (R43). -/
def groupOk (a : SReg) : Bool := decide (1 ≤ a.toNat) && decide (a.toNat ≤ 60)

/-- The scalar instructions whose register fields R40 limits. -/
def Instr.scalarOk : Instr → Bool
  | .cpy _ a | .cpyb _ a | .gath _ a | .scat _ a | .wstr _ a | .dload _ a | .fxput _ a | .fxred _ a => groupOk a
  | .amocas _ _ b => b != 63
  | .sobind _ _ b => b != 0 && b != 63
  | _ => true

/-- The rows of the opcode table that are events: they have no encoding. -/
def Instr.isEvent : Instr → Bool
  | .leaseGrant .. | .leaseRunIdleTimeout .. | .matrixAccept .. | .tileStep .. | .arrayExecute .. | .runDrain ..
  | .engineBurst .. | .commandComplete .. | .atsCompletion .. | .pageResponse .. | .atsInvalidate ..
  | .priReenable .. | .loadComplete .. | .multicastLand | .l1Writeback .. | .dramRead .. | .l2Evict ..
  | .mscEvict .. | .writeQueueFlush .. | .hostPcieWrite .. | .hostPcieRead .. | .memsplitWrite ..
  | .launchDoorbell .. | .timeTableRelease .. | .dispatch .. | .recordAging .. | .quantumExpiry .. | .swapOut ..
  | .bankSwitch .. | .dispatchDescriptorWrite .. | .mailboxDoorbell .. | .timeSliceEnd .. | .preemptBudgetExpiry ..
  | .takeTrap .. | .coreInterrupt .. | .wfeLimitExpiry .. | .coreResume .. | .nodeRollback .. | .nodeKill ..
  | .badgerPass .. | .auditRequest .. | .poolFree .. | .poolTake .. | .scrubPage .. | .shareWrite ..
  | .shareChangeComplete .. | .sliceReset .. | .migrationStage .. | .fabricPacketSend .. | .fabricPacketReceive ..
  | .fabricAckReceive .. | .heartbeatSend | .peerLost .. | .boundaryMessage .. | .stepApplyComplete ..
  | .routeFailover .. | .linkFlitReceive .. | .linkNakReceive .. | .laneControl .. | .berWindow ..
  | .retrainComplete .. | .lossOfLight .. | .emitterPowerLoss .. | .linkProgressTimeout .. | .portPark ..
  | .wavelengthRelockComplete .. | .stepGroupDescriptorWrite .. | .controlSpaceWrite .. | .semaphoreRead ..
  | .semaphoreWrite .. | .mgmtLinkTimeout | .hostComplexReset | .qstateEntry .. | .qstateWake ..
  | .pwrwarnAssert | .pwrwarnHoldExpiry .. | .pwrwarnRelease | .powerRailRestore | .overcurrent
  | .overcurrentRecovery | .moduleReset .. | .attestationRequest .. | .attestationComplete
  | .emitterPowerReturn .. | .ptpClockLock .. => true
  | _ => false

/-- A well-formed instruction: one that some word of the instruction stream holds. -/
def Instr.wf (i : Instr) : Bool :=
  !i.isEvent && i.scalarOk
  && (match i.vparts with
    | some (op, w) => op.wordOk w
    | none => true)
  && (match i.mparts with
    | some (op, w) => op.wordOk w
    | none => true)

end Sys2Proof
end

