-- ==== Sys2Proof/Machine/State.lean ====
section
/-! DEFINITION. The state of the module, as plain data: every piece of state the manual names, the outside world's
tables and inputs that the events consume, the reasons a step can stop, and the state right after reset. -/

namespace Sys2Proof.Machine

/-- The rings, ranked U < D < H < M (R336). -/
inductive Ring where
  | u | d | h | m
  deriving DecidableEq, Repr

def Ring.rank : Ring → Nat
  | .u => 0 | .d => 1 | .h => 2 | .m => 3

/-- The six trap registers of one ring (R337, R338). -/
structure TrapRegs where
  tvec    : Word := 0
  epc     : Word := 0
  cause   : Word := 0
  tval    : Word := 0
  status  : Word := 4
  scratch : Word := 0
  deriving DecidableEq, Repr

/-- One timeline of a task (R127): both values, the numbers above done that have completed, and the pending-fault
mark with its record (R126); a mark of 0 is none. -/
structure Timeline where
  issued   : Nat := 0
  done     : Nat := 0
  finished : List Nat := []
  mark     : Nat := 0
  fault    : Word := 0
  addr     : Word := 0
  deriving DecidableEq, Repr

/-- A stream register (R117 to R119): its tag, the queued bytes, and, for each faulted CPYB, how many queued elements
stand before the place where its delivery ended. `narrow` says, element by element, which of them are single bytes of
padded groups though the tag is wider (R117); beyond its end none is. -/
structure QReg where
  fmt    : Fmt := .raw
  bytes  : List Byte := []
  narrow : List Bool := []
  faults : List Nat := []
  deriving DecidableEq, Repr

/-- The engine and fabric commands (R112, R229, R277). -/
inductive EKind where
  | cpy | cpyb | gath | scat | wstr | dload | fxput | fxred
  deriving DecidableEq, Repr

/-- A command in a task's queue of an engine: its number, its command group, what it has moved (`off` is WSTR's place
in its stream), and the DRAM tag, address space and step it carries from issue. A WSTR carries its place in the
acceptance order and the matrix instructions that fetch its slot before it (R125). `started`: the engine has begun it
(R110); `held`: bytes on their way to lines of which more is to come; `edge`: the source granules that its last piece was
read from, as they were read (R133); `umap`: the map of the unit that a WSTR is in (R124); `moved`: nothing is left to
move. -/
structure EngCmd where
  num   : Nat
  kind  : EKind
  g0    : Word
  g1    : Word
  g2    : Word
  g3    : Word
  pasid : Nat
  gtag  : Word
  step  : Nat := 0
  prog  : Nat := 0
  off   : Nat := 0
  order : Nat := 0
  after : List (Nat × Nat) := []
  started : Bool := false
  held  : Map (Option Byte) := []
  edge  : Nat × List Byte := (0, [])
  umap  : List Byte := []
  moved : Bool := false
  deriving DecidableEq, Repr

/-- One recorded access of a line region (R107): a load of `w` bytes into `d`, or a store of the captured data. -/
structure RegionOp where
  store  : Bool
  off    : Nat
  w      : Nat
  signed : Bool
  d      : SReg
  data   : Word
  deriving DecidableEq, Repr

/-- A line region that ALE has not ended (R106, R107). `ring` is the ring in which ALB opened it: the handler of a trap
taken inside it is no part of it, whether it runs above that ring or, as `inner` counts them, in that ring itself (R341,
R346). `mark` is 0, or the status of R108 that was marked first. -/
structure Region where
  vline  : Nat
  pline  : Nat
  ops    : List RegionOp := []
  count  : Nat := 0
  mark   : Nat := 0
  broken : Bool := false
  ring   : Ring := .u
  inner  : Nat := 0
  deriving DecidableEq, Repr

/-- A vector load whose data is still to come (R198): its destination and format, and each active element's position,
address and PA. -/
structure VPend where
  d   : Operand
  fmt : Fmt
  els : List (Nat × Nat × Nat)
  deriving DecidableEq, Repr

/-- A load that has retired and whose data is still to come (R89, R90), with the group tag of its DRAM request
(R76): a scalar one, or a vector one with its elements in `vec`. -/
structure PendLoad where
  pc    : Word
  va    : Nat
  pa    : Nat
  w     : Nat
  sign  : Bool
  d     : SReg
  pasid : Nat
  gtag  : Nat
  vec   : Option VPend := none
  deriving DecidableEq, Repr

/-- A matrix instruction waiting, accepted or stopped (R206, R363). -/
structure MxInstr where
  insn   : Instr
  core   : Nat
  member : Nat
  rowK   : BitVec 128
  colK   : BitVec 128
  a1     : Word
  a2     : Word
  b1     : Word
  b2     : Word
  koff   : Word
  dparam : Word
  waitCp : Word
  waitWs : Word
  num    : Nat := 0
  rep    : Nat := 0
  stepped : Bool := false
  cycle  : Nat := 0
  cycle2 : Nat := 0
  rng    : Word := 0
  flags  : Flags := 0
  pasid  : Nat := 0
  deriving DecidableEq, Repr

/-- The wait of WFE (R348): the reasons seen since it issued, and its limit in ac cycles, 0 for none. -/
structure Wfe where
  seen  : BitVec 6 := 0
  limit : Word := 0
  deriving DecidableEq, Repr

/-- A 32-bit register word that fails its ECC on read (R148): of a scalar, vector, tile or mask register or of a tile's
sideband, by the register and the word's place in it. A bad word of a stream register is given by its queued bytes. -/
inductive BadReg where
  | s (n w : Nat) | v (n w : Nat) | m (n w : Nat) | side (n w : Nat) | k (n w : Nat) | q (n i : Nat)
  deriving DecidableEq, Repr

/-- The register files of a task (R134 to R141): what a vector or scalar instruction names. -/
structure Regs where
  s    : Sparse 64 := []
  v    : Sparse 32 := []
  vtag : Map Fmt := []
  m    : Sparse 8 := []
  side : Sparse 8 := []
  mtag : Map Fmt := []
  k    : Sparse 128 := []
  q    : Map QReg := []
  bad  : List BadReg := []
  deriving DecidableEq, Repr

/-- The task-visible control registers (R150) and the trap registers of ring D (R337). -/
structure Ctl where
  fpflags  : Flags := 0
  rng      : Word := 0
  gtag     : Word := 0
  leaserun : Word := 0
  engfault : Word := 0
  engfaddr : Word := 0
  retired  : Word := 0
  dbgctl   : Word := 0
  lastTl   : Nat := 7
  lastNum  : Nat := 0
  d        : TrapRegs := {}
  deriving DecidableEq, Repr

/-- A DATA_ABORT that waits for its boundary (R89): the data address and the address of the instruction. -/
structure Abort where
  va : Word
  pc : Word
  deriving DecidableEq, Repr

/-- A STEP that has arrived and waits (R289): the ring and the address of its instruction, and the step it waits for. -/
structure StepWait where
  ring : Ring
  pc   : Word
  num  : Nat
  deriving DecidableEq, Repr

/-- The context of one task (R134, R358). `aborts` are the DATA_ABORTs that the write-backs of its own save met, for
its first boundary after the restore; `pdoneD` is the destination of the PDONE that its restore has to write
(R352). -/
structure Ctx where
  pc        : Word := 0
  ring      : Ring := .u
  regs      : Regs := {}
  ctl       : Ctl := {}
  tl        : Map Timeline := []
  loads     : BitVec 16 := 0
  stores    : BitVec 16 := 0
  copies    : BitVec 16 := 0
  tiles     : BitVec 16 := 0
  cbar      : Nat := 0
  cbarPend  : Bool := false
  member    : Nat := 0
  curStep   : Nat := 0
  arrivals  : Nat := 0
  steps     : List StepWait := []
  region    : Option Region := none
  queues    : Map (List EngCmd) := []
  coop      : Bool := false
  forced    : Bool := false
  pdone     : BitVec 3 := 0
  exited    : Bool := false
  pend      : List PendLoad := []
  wfe       : Option Wfe := none
  mx        : Option MxInstr := none
  aborts    : List Abort := []
  pdoneD    : Option SReg := none
  deriving DecidableEq, Repr

/-- One line of an L1 data cache (R81): tag, the PA it was filled from, per-byte valid and dirty bits, data, and the
8-byte granules that fail their ECC. -/
structure L1Line where
  pasid : Nat
  vline : Nat
  pline : Nat
  valid : BitVec 128 := 0
  dirty : BitVec 128 := 0
  data  : Sparse 8 := []
  bad   : BitVec 16 := 0
  deriving DecidableEq, Repr

/-- A control core (R4): the active and the shadow bank (R354), the trap registers of rings H and M, the pre-emption
budget, a pre-emption request that waits for a halted core (R349), pending asynchronous causes, the DATA_ABORT that is
taken next and those that wait behind it (R89, R340), its count of register errors that ECC corrected (R148), its data cache, and the lines of its instruction cache by their line
number, with their bytes (R3; assumption 44). -/
structure Core where
  team    : Nat := 0
  running : Bool := false
  ctx     : Ctx := {}
  shadow  : Option Ctx := none
  bankPasid : Nat := 0
  h       : TrapRegs := {}
  m       : TrapRegs := {}
  halted  : Bool := false
  dead    : Bool := false
  budget  : Option Nat := none
  reqWait : Bool := false
  preempt : Bool := false
  intr    : Option Word := none
  abort   : Option Abort := none
  abortQ  : List Abort := []
  stepped : Option Word := none
  corrected : Nat := 0
  l1      : List L1Line := []
  l1i     : List (Nat × List Byte) := []
  deriving DecidableEq, Repr

/-- The lease of an array (R212, R213): its holder, the steps left in the run, whether no instruction of the run has
been accepted yet, whether LEASE opened it, the last holder, and the members that request it. -/
structure Lease where
  holder  : Option Nat := none
  left    : Nat := 0
  first   : Bool := false
  byLease : Bool := false
  last    : Nat := 3
  reqs    : List Nat := []
  deriving DecidableEq, Repr

/-- The last stop that MSTAT shows (R224). -/
structure StopRec where
  stop  : Nat := 0
  rep   : Nat := 0
  kdone : Nat := 0
  acc   : Nat := 0
  num   : Nat := 0
  deriving DecidableEq, Repr

/-- The drain restart record (R250). -/
structure Restart where
  valid  : Bool := false
  cause  : Bool := false
  num    : Nat := 0
  member : Nat := 0
  tile   : Nat := 0
  pair   : Nat := 0
  entry  : Nat := 0
  rep    : Nat := 0
  row    : Nat := 0
  col    : Nat := 0
  runMax : Nat := 0
  runSum : Nat := 0
  rng    : Word := 0
  deriving DecidableEq, Repr

/-- The team state of a cluster (R134): accumulators with row checksums and tags, weight-buffer slots with their
sidebands, drain control store, scratchpad; and the places that fail their ECC. -/
structure TeamStore where
  acc   : Sparse 32 := []
  sums  : Sparse 32 := []
  atag  : Map Fmt := []
  wb    : Sparse 8 := []
  wbs   : Sparse 8 := []
  dcs   : Sparse 32 := []
  sp    : Sparse 8 := []
  spBad : List Nat := []
  wbBad : List Nat := []
  deriving DecidableEq, Repr

/-- What a drain read once at its start: its program's micro-words, its parameter block and the words of the vectors that it
names, by selector (R231). -/
structure DrainRead where
  prog  : List Parcel
  block : List Byte
  vecs  : List (Nat × List Nat)
  deriving DecidableEq, Repr

/-- The array and its queue (R206): queued instructions, how many of the first of them a restore brought (R365), the
lease, the accumulators' tags as acceptance leaves them, those that ctl.atag shows (R150, R152), the VF last accepted, the last stop, the restart record with what the drain that it belongs to has
read (R250), and whether the array begins no further step (R215). -/
structure MxArray where
  queue   : List MxInstr := []
  replay  : Nat := 0
  lease   : Lease := {}
  shown   : Map Fmt := []
  seen    : Map Fmt := []
  lastVf  : Option Nat := none
  stop    : StopRec := {}
  restart : Restart := {}
  reading : Option DrainRead := none
  halt    : Bool := false
  deriving DecidableEq, Repr

/-- A record that ran on a cluster during the current audit interval (R389). -/
structure Provisional where
  vf     : Nat
  dnum   : Nat
  record : List Byte
  deriving DecidableEq, Repr

/-- A cluster (R4). The audit fields are R389 and R390: sequence number, fence, consecutive passes of a fenced
cluster, an audit that is due, and the records of the interval. `owner` is the VF whose team state
the cluster holds (R153, R155); `served` gives, by engine, the queue it served last (R110), and
`lastQ`, by VF and class, the ready queue that the cluster popped last (R315). -/
structure Cluster where
  team     : Nat := 0
  owner    : Option Nat := none
  store    : TeamStore := {}
  array    : MxArray := {}
  auditSeq : Nat := 0
  fenced   : Bool := false
  passes   : Nat := 0
  auditReq : Bool := false
  provisional : List Provisional := []
  served   : Map Nat := []
  lastQ    : Map Nat := []
  deriving DecidableEq, Repr

/-- A cached translation (R366). -/
structure DtcEnt where
  pasid : Nat
  va    : Nat
  lg    : Nat
  pa    : Nat
  r     : Bool
  w     : Bool
  deriving DecidableEq, Repr

/-- Who waits for a translation: the queues of R368. -/
inductive Req where
  | core (n : Nat)
  | engine (team member q : Nat)
  | array (cl : Nat)
  | launch (vf : Nat)
  | apply (vf : Nat)
  | log (vf : Nat)
  deriving DecidableEq, Repr

/-- An outstanding translation request (R366 to R369): `pri` while a page request is out, `again` once a Success
response has had the translation requested again, `secure` the world of the DTC that makes it (R396). -/
structure AtsReq where
  pasid   : Nat
  page    : Nat
  write   : Bool
  pri     : Bool := false
  again   : Bool := false
  secure  : Bool := false
  waiters : List Req
  deriving DecidableEq, Repr

/-- A refusal that its requester has not yet met (R369). -/
structure Refused where
  req   : Req
  pasid : Nat
  page  : Nat
  write : Bool
  deriving DecidableEq, Repr

/-- An entry of a ready queue (R314): its 32 bytes, a team record or a swap handle (R357), the record's address, its
rollback count and its time-table entry; for the record of resident mode, the clusters that have popped a copy
(R321). `ring` is the slot of the queue's backing ring that an entry beyond the 64 on chip is read from (R314), `since` the
model's count of steps when it joined its class (R315). -/
structure QEnt where
  record : List Byte
  addr   : Nat := 0
  rolled : Nat := 0
  tt     : Option Nat := none
  resident : Bool := false
  popped : List Nat := []
  ring   : Option Nat := none
  since  : Nat := 0
  deriving DecidableEq, Repr

/-- A slice (R4): its DTC and translation requests, its ready queues with the next slot of each one's backing ring, its
cache shares, the place of its swap table with the team that each handle's save block holds, the save blocks that ring H
reserves for its clusters (R357), and the stop of R387. -/
structure Slice where
  dtc      : List DtcEnt := []
  ats      : List AtsReq := []
  refused  : List Refused := []
  priOff   : List Nat := []
  queues   : Map (List QEnt) := []
  qtail    : Map Nat := []
  nextDnum : Nat := 0
  share    : Map Word := []
  shareQ   : List (Nat × Word) := []
  ackSeq   : Nat := 0
  swapBase : Nat := 0
  swapLen  : Nat := 0
  swaps    : Map Nat := []
  reserved : Map Nat := []
  stopped  : Bool := false
  deriving DecidableEq, Repr

/-- A pending reduction of an uncommitted node (R101), or one that has been accepted. `op` is the fn of R104. -/
structure RedOp where
  pa : Nat
  w  : Nat
  op : Nat
  v  : Word
  deriving DecidableEq, Repr

/-- A held push of a node (R327, R328): a SPAWN's copy of the record, or a JDEC's record address. -/
inductive Push where
  | spawn (slice : Nat) (addr : Nat) (record : List Byte)
  | jdec (slice : Nat) (addr pa : Nat)
  deriving DecidableEq, Repr

/-- What a swap-out saves of a team (R356, R362), the place of its save block, where it has one, and the bytes that the
burrow engine wrote there, by offset (R359). -/
structure Saved where
  ctxs    : List Ctx
  store   : TeamStore
  queue   : List MxInstr
  seen    : Map Fmt
  stop    : StopRec
  restart : Restart
  reading : Option DrainRead
  overrun : Bool
  frozen  : Bool
  block   : Option Nat
  nonce   : Word
  image   : Memory := []
  deriving DecidableEq, Repr

/-- A team: the node of a record while it is RUNNING or SWAPPED (R313, R375 to R380). `overrun`: a budget has run out and
its forced save is due (R353). `engCl` is the cluster it stood on last, whose engines serve the commands that run on
while it is away (R110, R128); `powerCl` is the cluster to which a power-warning save will return it (R414). -/
structure Team where
  live      : Bool := false
  record    : List Byte := []
  addr      : Nat := 0
  vf        : Nat := 0
  slice     : Nat := 0
  cluster   : Option Nat := none
  engCl     : Nat := 0
  dnum      : Nat := 0
  committed : Bool := false
  consumed  : Bool := false
  kill      : Bool := false
  staged    : Map (Option Byte) := []
  reds      : List RedOp := []
  objs      : List (Nat × Word) := []
  pushes    : List Push := []
  rolled    : Nat := 0
  swap      : Bool := false
  hsc       : Bool := false
  overrun   : Bool := false
  resident  : Bool := false
  tt        : Option Nat := none
  powerCl   : Option Nat := none
  saved     : Option Saved := none
  deriving DecidableEq, Repr

/-- A binding of a synchronisation object (R256). -/
structure Binding where
  obj   : Nat
  base  : Nat
  len   : Nat
  pasid : Nat
  imm   : Bool
  deriving DecidableEq, Repr

/-- The boundary state of a VF's step group (R291). -/
inductive BState where
  | opened | drain | sync | vote | applying
  deriving DecidableEq, Repr

/-- An outgoing stream (R295 to R297): next number, acknowledged mark, the packets not yet acknowledged with their
numbers, and the current route. -/
structure OutStream where
  next    : Nat := 0
  acked   : Nat := 0
  unacked : List (Nat × Packet) := []
  route   : Nat := 0
  dead    : Bool := false
  deriving DecidableEq, Repr

/-- An incoming stream (R295): the contiguous mark and the numbers received above it. -/
structure InStream where
  mark : Nat := 0
  got  : List Nat := []
  deriving DecidableEq, Repr

/-- A rank-table change staged for the boundary `bound`, which marks its rank as migrating (R273, R398). -/
structure RankChange where
  rank  : Nat
  chip  : Nat
  bound : Nat
  deriving DecidableEq, Repr

/-- A step group of a VF (R272 to R275, R287 to R293). The rank and window tables are copied at each boundary. A
bank's writes carry their unwrapped stream number; `todo` are the writes of APPLY that are left, `apps` the records
applied to each APPEND window in the step, `pend` the packets that no stream has numbered yet, by target rank; `heard`
says that ALLDRAINED has come. `drains` are the DRAINED that have come up the tree, by rank and step, `verdicts` the
VERDICT of the module's step, and `told` whether the module's own has gone up. `due` are the lost ranks whose VALID the
next boundary clears (R293). -/
structure StepGroup where
  group   : Nat := 0
  rank    : Nat := 0
  nrank   : Nat := 0
  quorum  : Nat := 0
  tmo     : Nat := 0
  sbbase  : Nat := 0
  sbsize  : Nat := 0
  quota   : Nat := 0
  rtbase  : Nat := 0
  wtbase  : Nat := 0
  step    : Nat := 0
  arrived : Nat := 0
  bst     : BState := .opened
  verdict : Nat := 0
  next    : Nat := 0
  bank0   : List (Nat × Packet) := []
  bank1   : List (Nat × Packet) := []
  todo    : List (Nat × Packet) := []
  apps    : Map Nat := []
  pend    : List (Nat × Packet) := []
  heard   : Bool := false
  drains  : List (Nat × Nat) := []
  verdicts : List (Nat × Nat) := []
  told    : Bool := false
  sent    : Map Nat := []
  codes   : List (Nat × Nat) := []
  ranks   : Map Nat := []
  wins    : List Byte := []
  lost    : List Nat := []
  due     : List Nat := []
  staged  : List RankChange := []
  migrating : List Nat := []
  held    : Bool := false
  deriving DecidableEq, Repr

/-- A virtual function: what the control space and the dispatcher hold for it, with the time-table entries whose records have
ended and those whose releases wait for the launch queue. `loaded`: its stream states stand on this
module (R399). -/
structure Vf where
  desc      : Sparse 64 := []
  taskPasid : Nat := 0
  driverPasid : Nat := 0
  hypPasid  : Nat := 0
  allot     : BitVec 8 := 0
  rotate    : Nat := 0
  stq       : Word := 0
  pbudget   : Word := 0
  doorbell  : Word := 0
  lstate    : Nat := 0
  lreason   : Nat := 0
  binds     : List Binding := []
  sgPa      : Option Nat := none
  sg        : Option StepGroup := none
  outs      : Map OutStream := []
  ins       : Map InStream := []
  loaded    : Bool := true
  failovers : Nat := 0
  withheldW : Nat := 0
  evBase    : Nat := 0
  evSize    : Nat := 0
  evDropped : Nat := 0
  resident  : Bool := false
  resBuf    : Sparse 64 := []
  rung      : Bool := false
  ttDone    : List Nat := []
  ttDue     : List Nat := []
  logQ      : List (Nat × List Byte) := []
  deriving DecidableEq, Repr

/-- Where a line's current value stands (R74, R99). -/
inductive Place where
  | dram | l2 (dirty : Bool) | msc (dirty : Bool) | wq
  deriving DecidableEq, Repr

/-- Is the value there newer than the one in DRAM? -/
def Place.dirty : Place → Bool
  | .dram => false
  | .l2 d | .msc d => d
  | .wq => true

/-- A pool command (R391, R392): FREE or TAKE, its VF and whether ring H gave it, its aperture, page count and list. -/
structure PoolCmd where
  take  : Bool
  vf    : Nat
  hyp   : Bool
  aper  : Nat
  count : Nat
  list  : Nat
  deriving DecidableEq, Repr

/-- Who allocated a cached line, and its way (R393). VF 8 stands for a requester of no VF. -/
structure Way where
  vf  : Nat
  way : Nat
  deriving DecidableEq, Repr

/-- The home memory system: committed values by PA, the bytes that DRAM still holds of the lines whose current value is
newer (`old`, R74, R75), where each line stands, the ways that the lines of the L2s and of
the MSCs take (R393), the DRAM lines and the clean MSC copies that fail ECC (R79), the count of corrected errors of each stack (R65), the withheld
lines of each stack by the entry of its table (R385) and those already read once (R382), MEMSPLIT (R66), the region
table (R397), ctl.world (R396), the cedar pools with the VF to which each page was given and the pages to be scrubbed, by
aperture, and the pool commands (R391, R392). -/
structure Home where
  mem      : Memory := []
  old      : Memory := []
  place    : Map Place := []
  l2ways   : Map Way := []
  mscways  : Map Way := []
  corrected : Map Nat := []
  dramBad  : List Nat := []
  mscBad   : List Nat := []
  withheld : Map (List Nat) := []
  seen     : List Nat := []
  wide     : Nat := 36
  splitLock : Bool := false
  regionLo : Sparse 64 := []
  regionHi : Sparse 64 := []
  world    : Word := 0
  pool     : Map (List Nat) := []
  owned    : Map (Option Nat) := []
  scrub    : List (Nat × Nat) := []
  poolQ    : List PoolCmd := []
  poolDone : Nat := 0
  deriving DecidableEq, Repr

/-- A multicast store on its way (R71, R86): issuing core, team and grid, and its pieces, each a cluster mask, an offset and
bytes; `at_` is the ac cycle of its issue. One that has `landed` stands until its landing cycle is over. -/
structure McStore where
  at_   : Word
  core  : Nat
  team  : Nat
  slice : Nat
  grid  : Nat
  vf    : Nat
  parts : List (BitVec 8 × Nat × List Byte)
  landed : Bool := false
  deriving DecidableEq, Repr

/-- The wavelengths of one direction of a port (R299, R304 to R306): those that are active, parked, retraining, marked
failed, dark, and lit again but not yet retrained; the beats dealt since the last lane change (R301), and the retrains
that failed in a row, by wavelength. -/
structure Lanes where
  active    : BitVec 16 := 0xFFFF
  parked    : BitVec 16 := 0
  training  : BitVec 16 := 0
  failed    : BitVec 16 := 0
  dark      : BitVec 16 := 0
  lit       : BitVec 16 := 0
  beat      : Nat := 0
  failedTrains : Map Nat := []
  deriving DecidableEq, Repr

/-- An optical port (R299 to R307, R404): its wavelengths inbound and outbound; the next link numbers, the last number it
sent a NAK for, and the flit from which it receives after its own lane control; the lanes that idle flits still take until
the first data flit after the far end's (R301); whether the far end holds; the flits of its input buffer, and how many of a
packet are still to come; the packet bytes of the flits that it has queued and of those not yet acknowledged, each with whether it
is a heartbeat; whether a data flit has come since it parked; its counts; and, of the bit-error window, its number, the
time up to which bits are counted, and the bits and the corrected errors by wavelength (R303). -/
structure Port where
  rx        : Lanes := {}
  tx        : Lanes := {}
  up        : Bool := true
  rxSeq     : BitVec 12 := 0
  txSeq     : BitVec 12 := 0
  nakSent   : Option (BitVec 12) := none
  await     : Option (BitVec 12) := none
  laneOld   : Option (BitVec 16) := none
  hold      : Bool := false
  inbuf     : Nat := 0
  rest      : Nat := 0
  queue     : List (List Byte × Bool) := []
  sent      : List (List Byte × Bool) := []
  wake      : Bool := false
  uncorr    : Nat := 0
  replays   : Nat := 0
  retrains  : Nat := 0
  losses    : Nat := 0
  window    : Nat := 0
  since     : Nat := 0
  bits      : Map Nat := []
  corr      : Map Nat := []
  berLast   : Map Nat := []
  deriving DecidableEq, Repr

/-- One of the routes to a chip (R297): its number, the port it leaves by, and whether it was reported failed. -/
structure Route where
  num    : Nat
  port   : Nat
  failed : Bool := false
  deriving DecidableEq, Repr

/-- The fabric die's own registers: the module's chip ID (R271), the routing table (R297), and the queue that the fabric
engine served last (R280). -/
structure FabDie where
  chip   : Nat := 0
  routes : Map (List Route) := []
  served : Nat := 0
  deriving DecidableEq, Repr

/-- What moves with a VF from module to module: its step, its stream states with the packets not yet acknowledged, the
packets that no stream has numbered yet, and its bindings (R256, R295, R398). -/
structure VfMove where
  step  : Nat
  outs  : Map OutStream
  ins   : Map InStream
  pend  : List (Nat × Packet)
  binds : List Binding
  deriving DecidableEq, Repr

/-- Signals that leave the module: interrupts and replies to the host complex and the manager, and what goes out on the
fibre. -/
inductive Signal where
  | errorIrq (slice : Nat)
  | vfEvent (vf : Nat)
  | dispatchFault (vf : Nat)
  | mailbox (vf i : Nat)
  | fabricEvent
  | fabricAck (vf chip mark : Nat)
  | linkNak (port : Nat) (seq : BitVec 12)
  | laneControl (port : Nat) (lanes : BitVec 16) (seq : BitVec 12)
  | flit (port : Nat) (bytes : List Byte) (beats : List (Nat × Nat))
  | fillBeats (port n : Nat)
  | streamStates (vf : Nat) (x : VfMove)
  | savedTeam (slice h : Nat) (t : Team)
  | moduleError
  | fatal (record : Word)
  | invalidateDone (pasid : Nat)
  | hostReply (data : Option (List Byte))
  | semReply (v : Nat)
  | spaceReply (m : Master) (v : Word)
  | spaceAbort (m : Master)
  | unsupportedRequest
  | attestDone
  deriving DecidableEq, Repr

/-- The management side (R406 to R419): semaphores, guarded registers, power with a power-warning save that has begun
(`saveDue`), boot with the images that updates have
replaced and those that stand in the staging area, attestation, the rings' places and their counters, and the signals
that have left the module, newest first. -/
structure Mgmt where
  sems     : Map Nat := []
  refusedW : Nat := 0
  tol      : Map Word := []
  pstate   : Map Nat := []
  pwrctl   : Word := 0xC9
  throttled : Bool := false
  saveDue  : Bool := false
  railsOff : Bool := false
  slowdown : Nat := 0
  bootcfg  : Word := 0
  bootstat : Word := 0
  selftest : Word := 0
  images   : Map Memory := []
  staging  : Map Memory := []
  attBuf   : Option Nat := none
  attDone  : Bool := false
  fatalrec : Word := 0
  fevbase  : Nat := 0
  fevsize  : Nat := 0
  fevLost  : Nat := 0
  errbase  : Nat := 0
  errsize  : Nat := 0
  errLost  : Nat := 0
  period   : Nat := 40
  auditNext : Nat := 0
  held     : Bool := false
  signals  : List Signal := []
  deriving DecidableEq, Repr

/-- The clocks (R172): ac cycles since reset, the PTP time, whether it has locked; and the count of steps that the
free values are drawn by, which is the model's own. DESIGN CHOICE (assumption 2): one count of ac cycles serves all
slices, whose counts R172 lets differ by up to 2. -/
structure Time where
  tick   : Nat := 0
  cycle  : Word := 0
  ptpns  : Word := 0
  locked : Bool := false
  deriving DecidableEq, Repr

/-- A page of the host complex's tables for requests of one world, as the IOMMU answers from them (R366, R396): the outside
world's, not the device's. -/
structure IoMap where
  pasid : Nat
  va    : Nat
  lg    : Nat
  pa    : Nat
  r     : Bool
  w     : Bool
  secure : Bool := false
  deriving DecidableEq, Repr

/-- A register of the control space that a master reads: one that software writes, or one that the device keeps (R9,
R406). `id` is a word of the certified public key (R418). -/
inductive RReg where
  | reg (r : CReg)
  | share (slice vf : Nat) | coreRes (core : Nat) | poolCmd | poolDone | memsplit | launch (vf : Nat)
  | desc (vf n : Nat) | mailbox (vf : Nat) | refused | fatalRec | bootstat | selftest | attReq | attDone | pstate
  | withheld (stack n : Nat) | corrected (stack : Nat) | errLost | fevLost | evDropped (vf : Nat) | id (n : Nat)
  deriving DecidableEq, Repr

/-- What moves next, where the outside world or a test decides it: a core's turn, an event, or a thing that no event row
names: a control-space read or write of some width at some offset in a register (R406); an endpoint's request to a
control-space address (R405); an error that DRAM or a register file corrected (R65, R148); a packet's bytes from a port
(R298); the transfer of a VF's stream states, and of a team's save block, from or to the module (R398); a binding that system software enters, and the
reset of a VF (R256). The model's own. -/
inductive Act where
  | run (core : Nat)
  | ev (i : Instr)
  | read (m : Master) (off width : Nat) (r : RReg)
  | write (m : Master) (off width : Nat) (i : Instr)
  | endpointSpace
  | corrected (stack : Nat)
  | correctedReg (core : Nat)
  | packet (port : Nat) (bytes : List Byte)
  | streamsOut (vf : Nat)
  | streamsIn (vf : Nat) (x : VfMove)
  | savedIn (slice h : Nat) (t : Team)
  | bind (vf : Nat) (b : Binding)
  | vfReset (vf : Nat)
  deriving DecidableEq, Repr

/-- The state of the module. `turn` is the core whose instruction runs, and `actor` the VF for which the last step's
requests were made (8: none); both are the model's own, as are `nextTeam` and `agenda`. -/
structure State where
  cores    : Map Core := []
  clusters : Map Cluster := []
  slices   : Map Slice := []
  vfs      : Map Vf := []
  teams    : Map Team := []
  home     : Home := {}
  mcast    : List McStore := []
  ports    : Map Port := []
  fab      : FabDie := {}
  mgmt     : Mgmt := {}
  time     : Time := {}
  turn     : Nat := 0
  actor    : Nat := 8
  nextTeam : Nat := 1
  iommu    : List IoMap := []
  agenda   : List Act := []
  deriving DecidableEq, Repr

/-- Why the machine can stop. -/
inductive Fault where
  /-- Raised by `step` where the agenda gives the turn to a core that the module does not have (R4). Safe: the machine
  never puts one there itself. -/
  | noCore
  deriving DecidableEq, Repr

/-- Why a step can refuse. -/
inductive Refusal where
  /-- Raised by `exec` for an instruction that the model has no meaning for yet. Safe. -/
  | notModelled (mnemonic : String)
  deriving DecidableEq, Repr

/-- The state right after reset: no team, no translation, no descriptor; every register at its reset value. -/
def State.reset : State := {}

end Sys2Proof.Machine
end

