-- ==== Sys2Proof/Machine/Ops.lean ====
section
/-! DEFINITION. The named operations over the state: cores and contexts, scalar registers, address spaces (R70),
retirement, taking an exception (R338 to R342) and the return from one (R346). -/

namespace Sys2Proof.Machine

/-! ### Units (R4) -/

def clusterOf (core : Nat) : Nat := core / 4
def sliceOf (core : Nat) : Nat := core / 32
def sliceOfCluster (cl : Nat) : Nat := cl / 8

def State.core (s : State) (n : Nat) : Core := Map.get {} s.cores n
def State.setCore (s : State) (n : Nat) (c : Core) : State := { s with cores := Map.set {} s.cores n c }
def State.onCore (s : State) (n : Nat) (f : Core → Core) : State := s.setCore n (f (s.core n))
def State.ctx (s : State) (n : Nat) : Ctx := (s.core n).ctx
def State.setCtx (s : State) (n : Nat) (c : Ctx) : State := s.setCore n { s.core n with ctx := c }
def State.onCtx (s : State) (n : Nat) (f : Ctx → Ctx) : State := s.setCtx n (f (s.ctx n))

def State.cluster (s : State) (n : Nat) : Cluster := Map.get {} s.clusters n
def State.setCluster (s : State) (n : Nat) (c : Cluster) : State := { s with clusters := Map.set {} s.clusters n c }
def State.onCluster (s : State) (n : Nat) (f : Cluster → Cluster) : State := s.setCluster n (f (s.cluster n))
def State.onStore (s : State) (n : Nat) (f : TeamStore → TeamStore) : State :=
  s.onCluster n (fun c => { c with store := f c.store })
def State.onArray (s : State) (n : Nat) (f : MxArray → MxArray) : State :=
  s.onCluster n (fun c => { c with array := f c.array })

def State.slice (s : State) (n : Nat) : Slice := Map.get {} s.slices n
def State.onSlice (s : State) (n : Nat) (f : Slice → Slice) : State :=
  { s with slices := Map.set {} s.slices n (f (s.slice n)) }

def State.vf (s : State) (n : Nat) : Vf := Map.get {} s.vfs n
def State.onVf (s : State) (n : Nat) (f : Vf → Vf) : State := { s with vfs := Map.set {} s.vfs n (f (s.vf n)) }

def State.team (s : State) (n : Nat) : Team := Map.get {} s.teams n
def State.onTeam (s : State) (n : Nat) (f : Team → Team) : State :=
  { s with teams := Map.set {} s.teams n (f (s.team n)) }

def State.port (s : State) (n : Nat) : Port := Map.get {} s.ports n
def State.onPort (s : State) (n : Nat) (f : Port → Port) : State :=
  { s with ports := Map.set {} s.ports n (f (s.port n)) }

def State.onHome (s : State) (f : Home → Home) : State := { s with home := f s.home }
def State.onMgmt (s : State) (f : Mgmt → Mgmt) : State := { s with mgmt := f s.mgmt }

/-- A wake event brings a power block to Q0 (R412): blocks 0 to 7 are the slices, 8 to 15 the ports, 16 the accelerator
interface. -/
def State.wakeBlock (s : State) (b : Nat) : State := s.onMgmt (fun m => { m with pstate := Map.set 0 m.pstate b 0 })

/-- A doorbell of a VF wakes its slices (R412). -/
def State.wakeVf (s : State) (vf : Nat) : State :=
  (List.range 8).foldl (fun s n => if (s.vf vf).allot.getLsbD n then s.wakeBlock n else s) s

/-- A signal leaves the module. -/
def State.signal (s : State) (x : Signal) : State := s.onMgmt (fun m => { m with signals := x :: m.signals })

/-- The team that a core runs a member of. -/
def State.teamOf (s : State) (core : Nat) : Team := s.team (s.core core).team
def State.vfOf (s : State) (core : Nat) : Vf := s.vf (s.teamOf core).vf

/-- Team size, from byte 26 of the record (R310). -/
def Team.size (t : Team) : Nat := bitsOf ((t.record.getD 26 0).toNat) 0 2 + 1

/-- The cores of a team's members, in member order (R309). -/
def Team.coreList (t : Team) : List Nat :=
  match t.cluster with
  | some c => (List.range t.size).map (fun m => 4 * c + m)
  | none => []

/-- The context of a team's member on a core: in the active bank, or in the shadow bank while another context has the
active one (R354). -/
def State.memberCtx (s : State) (core team : Nat) : Ctx :=
  let c := s.core core
  if c.team = team then c.ctx else c.shadow.getD {}

/-- Change the context of a team's member on a core, in the bank that holds it. -/
def State.onBankCtx (s : State) (core team : Nat) (f : Ctx → Ctx) : State :=
  s.onCore core (fun c => if c.team = team then { c with ctx := f c.ctx } else { c with shadow := c.shadow.map f })

/-- The context of member `m` of a team: on its core, or in its save block. -/
def State.member (s : State) (team m : Nat) : Ctx :=
  let t := s.team team
  match t.cluster, t.saved with
  | some c, _ => s.memberCtx (4 * c + m) team
  | none, some b => b.ctxs.getD m {}
  | none, none => {}

/-- Change the context of member `m` of a team, wherever it stands. -/
def State.onMember (s : State) (team m : Nat) (f : Ctx → Ctx) : State :=
  let t := s.team team
  match t.cluster with
  | some c => s.onBankCtx (4 * c + m) team f
  | none => s.onTeam team (fun t => { t with saved := t.saved.map (fun b =>
      { b with ctxs := b.ctxs.modify m f }) })

/-- The other cores of the team of a core. -/
def State.others (s : State) (core : Nat) : List Nat := (s.teamOf core).coreList.filter (· ≠ core)

/-! ### Scalar registers (R42, R135) -/

/-- The value of a scalar register; s0 reads zero. -/
def Ctx.rs (c : Ctx) (n : SReg) : Word := if n = 0 then 0 else c.regs.s.get n.toNat

/-- Is the word one of a scalar register, or of a mask register? -/
def BadReg.ofS (n : Nat) : BadReg → Bool
  | .s j _ => j == n
  | _ => false
def BadReg.ofK (n : Nat) : BadReg → Bool
  | .k j _ => j == n
  | _ => false

/-- Is the word one of a tile register, or of its sideband? -/
def BadReg.ofTile (n : Nat) : BadReg → Bool
  | .m j _ => j == n
  | _ => false
def BadReg.ofSide (n : Nat) : BadReg → Bool
  | .side j _ => j == n
  | _ => false

/-- Words that are written anew no longer fail their ECC (R148). -/
def Regs.heal (r : Regs) (p : BadReg → Bool) : Regs := { r with bad := r.bad.filter (fun b => !p b) }

/-- Write a scalar register; a write to s0 is discarded. -/
def Ctx.setS (c : Ctx) (n : SReg) (v : Word) : Ctx :=
  if n = 0 then c
  else { c with regs := { c.regs with
    s := c.regs.s.set n.toNat v, bad := c.regs.bad.filter (fun b => !b.ofS n.toNat) } }

/-- The register whose number is `n` above another's; beyond s63 the fields wrap, which no decoded word reaches. -/
def sregAdd (a : SReg) (n : Nat) : SReg := a + BitVec.ofNat 6 n

def State.rs (s : State) (n : SReg) : Word := (s.ctx s.turn).rs n

/-! ### Timelines and counters (R127, R131) -/

def Ctx.timeline (c : Ctx) (t : TL) : Timeline :=
  Map.get {} c.tl (match t with | .cp => 0 | .ga => 1 | .ws => 2 | .fx => 3 | .mx => 4)

def Ctx.onTimeline (c : Ctx) (t : TL) (f : Timeline → Timeline) : Ctx :=
  { c with tl := Map.modify {} c.tl (match t with | .cp => 0 | .ga => 1 | .ws => 2 | .fx => 3 | .mx => 4) f }

/-- Raise `done` past every completed number. -/
def advanceDone : Nat → Timeline → Timeline
  | 0, t => t
  | n + 1, t =>
    if t.finished.contains (t.done + 1) then
      advanceDone n { t with done := t.done + 1, finished := t.finished.filter (· ≠ t.done + 1) }
    else t

/-- A command counts as completed. -/
def Timeline.complete (t : Timeline) (n : Nat) : Timeline :=
  advanceDone (t.finished.length + 1) { t with finished := n :: t.finished }

/-- The timeline of an engine or fabric command (R127, R279). -/
def EKind.tl : EKind → TL
  | .cpy | .cpyb | .dload => .cp
  | .gath | .scat => .ga
  | .wstr => .ws
  | .fxput | .fxred => .fx

/-- The queue of an engine command: copy 0, gather/scatter 1, weight-stream 2, fabric 3. -/
def EKind.queue : EKind → Nat
  | .cpy | .cpyb | .dload => 0
  | .gath | .scat => 1
  | .wstr => 2
  | .fxput | .fxred => 3

/-- The command's fn, as a fault record names it (R126). -/
def EKind.fn : EKind → Nat
  | .cpy => 0 | .cpyb => 1 | .gath => 2 | .scat => 3 | .wstr => 4 | .dload => 7 | .fxput => 0 | .fxred => 1

def Ctx.queue (c : Ctx) (q : Nat) : List EngCmd := Map.get [] c.queues q
def Ctx.setQueue (c : Ctx) (q : Nat) (l : List EngCmd) : Ctx := { c with queues := Map.set [] c.queues q l }

/-- The image of ctl.engfault for a fault (R126). -/
def faultWord (engine code fn num : Nat) (ovf : Bool) : Word :=
  BitVec.ofNat 64 (1 + 2 * ovf.toNat + 4 * engine + 16 * code + 256 * fn + 4294967296 * (num % 4294967296))

/-- Note a fault on a timeline: the lowest-numbered unreported fault keeps the mark, the loser leaves OVF (R126). -/
def Timeline.note (t : Timeline) (engine code fn num : Nat) (addr : Word) : Timeline :=
  if t.mark = 0 then { t with mark := num, fault := faultWord engine code fn num false, addr := addr }
  else if num < t.mark then { t with mark := num, fault := faultWord engine code fn num true, addr := addr }
  else { t with fault := t.fault ||| 2 }

/-- Report a timeline's record: the mark is cleared and the record is copied into ctl.engfault and ctl.engfaddr. -/
def Ctx.report (c : Ctx) (t : TL) : Ctx :=
  let x := c.timeline t
  let c := { c with ctl := { c.ctl with engfault := x.fault, engfaddr := x.addr } }
  c.onTimeline t (fun x => { x with mark := 0, fault := 0, addr := 0 })

/-! ### Events of WFE (R348) -/

/-- Set a reason bit of a core's WFE, where it waits in one. -/
def Ctx.wake (c : Ctx) (bit : Nat) : Ctx :=
  match c.wfe with
  | none => c
  | some w => { c with wfe := some { w with seen := w.seen ||| BitVec.ofNat 6 (2 ^ bit) } }

def State.wake (s : State) (core bit : Nat) : State := s.onCtx core (·.wake bit)
def State.wakeAll (s : State) (cores : List Nat) (bit : Nat) : State := cores.foldl (·.wake · bit) s

/-! ### Line regions (R107) -/

/-- Break an open line region. -/
def Ctx.breakRegion (c : Ctx) : Ctx := { c with region := c.region.map (fun r => { r with broken := true }) }

/-- Break an open line region by a trap to a ring: a handler that runs in the region's own ring stands inside it until its
ERET (R107, R341). -/
def Ctx.trapRegion (c : Ctx) (to_ : Ring) : Ctx := { c with region := c.region.map (fun r =>
  { r with broken := true, inner := if r.ring = c.ring ∧ r.ring = to_ then r.inner + 1 else r.inner }) }

/-- The return of a handler from a ring to a ring (R346). -/
def Ctx.eretRegion (c : Ctx) (to_ : Ring) : Ctx := { c with region := c.region.map (fun r =>
  { r with inner := if r.ring = c.ring ∧ r.ring = to_ then r.inner - 1 else r.inner }) }

/-! ### The lease (R213) -/

/-- End a run. -/
def Lease.end (l : Lease) : Lease :=
  match l.holder with
  | some m => { l with holder := none, left := 0, first := false, byLease := false, last := m }
  | none => l

/-- A core stops holding and requesting the array's lease. -/
def State.dropLease (s : State) (core : Nat) : State :=
  s.onArray (clusterOf core) (fun a =>
    let l := { a.lease with reqs := a.lease.reqs.filter (· ≠ core % 4) }
    { a with lease := if l.holder = some (core % 4) then l.end else l })

/-! ### Address spaces (R70, R71) -/

inductive Space where
  | memory | localSp | mcast | none
  deriving DecidableEq, Repr

def spaceOf (a : Nat) : Space :=
  if a < 2 ^ 57 then .memory
  else if 0xFFFFFFF000000000 ≤ a ∧ a ≤ 0xFFFFFFF0007FFFFF then .localSp
  else if 0xFFFFFFF100000000 ≤ a ∧ a ≤ 0xFFFFFFF17FFFFFFF then .mcast
  else .none

/-- The base of the local scratchpad window. -/
def spWindow : Nat := 0xFFFFFFF000000000

/-- Does the range of `n` bytes from `a` lie wholly in one space? -/
def rangeIn (sp : Space) (a n : Nat) : Bool :=
  decide (spaceOf a = sp) && (n == 0 || decide (spaceOf (a + n - 1) = sp))

/-! ### Group tags (R76) -/

/-- The group tag of a core's DRAM requests: TAG of ctl.gtag under EN, else the team ID. -/
def State.gtagOf (s : State) (core : Nat) : Nat :=
  let g := (s.ctx core).ctl.gtag
  if g.getLsbD 16 then g.toNat % 65536 else (s.teamOf core).dnum % 65536

/-! ### How an instruction ends -/

/-- A cause as it is raised (R338, R339): `epcOff` is added to the pc for EPC. -/
structure TrapInfo where
  cause  : Nat
  tval   : Word := 0
  target : Ring := .d
  step   : Nat := 0
  access : Nat := 0
  epcOff : Nat := 0
  deriving DecidableEq, Repr

/-- How a meaning stops short of retiring: it traps in a state, or it waits (interruptibly) in a state. -/
inductive Stop where
  | trap (s : State) (t : TrapInfo)
  | wait (s : State)

abbrev Res := Except Stop State

def trapE {α : Type} (s : State) (t : TrapInfo) : Except Stop α := .error (.trap s t)
def waitE {α : Type} (s : State) : Except Stop α := .error (.wait s)

def tIllegal (step : Nat) (parcel : Word) : TrapInfo := { cause := 0x01, step := step, tval := parcel }
def tRing (csr : Nat) : TrapInfo := { cause := 0x02, tval := BitVec.ofNat 64 csr }
/-- FORMAT_MISMATCH: the tag expected, the tag found, the operand (0 D, 1 A, 2 B, 3 accumulator). -/
def tFormat (want found : Fmt) (operand : Nat) : TrapInfo :=
  { cause := 0x03, tval := BitVec.ofNat 64 (want.code.toNat + 16 * found.code.toNat + 256 * operand) }
def tAddress (a : Nat) : TrapInfo := { cause := 0x04, tval := BitVec.ofNat 64 a }
def tMisaligned (a : Nat) : TrapInfo := { cause := 0x05, tval := BitVec.ofNat 64 a }
/-- TRANSLATION_FAULT: 0 fetch, 1 load, 2 store, 3 atomic or line region. -/
def tTranslation (access a : Nat) : TrapInfo := { cause := 0x06, tval := BitVec.ofNat 64 a, access := access }
/-- COMMAND_INVALID, with the failing field as R420 gives it. -/
def tCommand (reg bit sreg kind : Nat) : TrapInfo :=
  { cause := 0x08, tval := BitVec.ofNat 64 (reg + 4 * bit + 256 * sreg + 16384 * kind) }
def tStreamEmpty (q : Nat) : TrapInfo := { cause := 0x09, tval := BitVec.ofNat 64 q }
def tEngine : TrapInfo := { cause := 0x0A }
def tAhead (n : Word) : TrapInfo := { cause := 0x0B, tval := n }
def tBarrier : TrapInfo := { cause := 0x0C }

/-! ### Taking an exception -/

/-- The trap registers of a ring above U on a core; ring D's belong to the task context (R337). -/
def Core.trapRegs (c : Core) : HRing → TrapRegs
  | .d => c.ctx.ctl.d
  | .h => c.h
  | .m => c.m

def Core.setTrapRegs (c : Core) (r : HRing) (t : TrapRegs) : Core :=
  match r with
  | .d => { c with ctx := { c.ctx with ctl := { c.ctx.ctl with d := t } } }
  | .h => { c with h := t }
  | .m => { c with m := t }

def toRing : HRing → Ring
  | .d => .d | .h => .h | .m => .m

/-- The ring as a holder of trap registers; ring U holds none, and no cause targets it. -/
def Ring.trapHolder : Ring → HRing
  | .u | .d => .d
  | .h => .h
  | .m => .m

/-- The ring a synchronous cause is taken in, and whether it was escalated; none where ring M raises it (R342). -/
def escalate (cur target : Ring) : Option (HRing × Bool) :=
  if cur.rank < target.rank then some (target.trapHolder, false)
  else match cur with
    | .u => some (.d, true)
    | .d => some (.h, true)
    | .h => some (.m, true)
    | .m => none

/-- The cause word of R338. -/
def causeWord (cause step : Nat) (esc : Bool) (orig access : Nat) (async : Bool) (dist : Nat) : Word :=
  BitVec.ofNat 64 (cause + 256 * step + 2048 * esc.toNat + 4096 * orig + 16384 * access + 65536 * async.toNat
    + 4294967296 * (dist % 4294967296))

/-- IE of a status word (R338). -/
def statusIE (st : Word) : Bool := st.getLsbD 2

/-- The status after a trap is taken: PRING the ring that was running, PIE the old IE, IE 0, ASU 0. -/
def statusOnTrap (st : Word) (cur : Ring) : Word :=
  BitVec.ofNat 64 (cur.rank + 8 * (statusIE st).toNat)

/-- Enter ring T for a cause (R341): save EPC, cause, detail and status, change the ring, go to the handler. An open
line region breaks (R107), a waiting instruction is interrupted, and a run of the lease ends (R213). -/
def State.enterTrap (s : State) (core : Nat) (t : HRing) (epc cause tval : Word) : State :=
  let s := s.onCore core (fun c =>
    let r := c.trapRegs t
    let c := c.setTrapRegs t { r with
      epc := epc, cause := cause, tval := tval, status := statusOnTrap r.status c.ctx.ring }
    { c with ctx := { (c.ctx.trapRegion (toRing t)) with
      ring := toRing t, pc := r.tvec &&& ~~~3#64, wfe := none, mx := none } })
  let s := s.onSlice (sliceOf core) (fun sl => { sl with
    refused := sl.refused.filter (·.req ≠ .core core)
    ats := sl.ats.map (fun q => { q with waiters := q.waiters.filter (· ≠ .core core) }) })
  s.dropLease core

/-- The core stops with every CSR unchanged, the module reports a fatal core error, and the HSC will kill the team
(R342, R409). -/
def State.fatalStop (s : State) (core : Nat) (cause : Nat) : State :=
  let word : Word := BitVec.ofNat 64 (core % 256 + 256 * (s.ctx core).ring.rank + 1024 * cause)
  let s := s.onCore core (fun c => { c with dead := true })
  let s := s.onTeam (s.core core).team (fun t => if t.live then { t with consumed := true, kill := true } else t)
  let s := s.onMgmt (fun m => { m with fatalrec := word })
  (s.signal .moduleError).signal (.fatal word)

/-- Take a synchronous cause on a core (R341, R342). -/
def State.takeSync (s : State) (core : Nat) (t : TrapInfo) (dist : Nat := 0) : State :=
  let c := s.ctx core
  match escalate c.ring t.target with
  | none => s.fatalStop core t.cause
  | some (hr, esc) =>
    s.enterTrap core hr (c.pc + BitVec.ofNat 64 t.epcOff)
      (causeWord t.cause t.step esc (if esc then t.target.rank else 0) t.access false dist) t.tval

/-- May an asynchronous cause that targets ring D be taken now (R341)? -/
def Core.asyncOk (c : Core) : Bool :=
  match c.ctx.ring with
  | .u => true
  | .d => statusIE c.ctx.ctl.d.status
  | _ => false

/-- The target of BREAKPOINT and SINGLE_STEP (R373). -/
def Ctl.debugRing (c : Ctl) : Ring := if c.dbgctl.getLsbD 1 then .h else .d

/-- The cause that is taken at the instruction boundary before the next instruction, in the rank order of R340. -/
def State.boundaryTrap (s : State) (core : Nat) : Option State :=
  let c := s.core core
  let pc := c.ctx.pc
  match c.abort, c.stepped with
  | some a, _ =>
    let s := s.onCore core (fun c => { c with abort := c.abortQ.head?, abortQ := c.abortQ.tail })
    some (s.takeSync core { cause := 0x07, tval := a.va } ((pc - a.pc).toNat / 4))
  | none, some at_ =>
    let s := s.onCore core (fun c => { c with stepped := none })
    some (s.takeSync core { cause := 0x0F, tval := at_, target := c.ctx.ctl.debugRing })
  | none, none =>
    if !c.asyncOk then none
    else if c.preempt then
      let s := s.onCore core (fun c => { c with preempt := false })
      some (s.enterTrap core .d pc (causeWord 0x10 0 false 0 0 true 0) (BitVec.ofNat 64 (c.budget.getD 0)))
    else match c.intr with
      | some v =>
        let s := s.onCore core (fun c => { c with intr := none })
        some (s.enterTrap core .d pc (causeWord 0x11 0 false 0 0 true 0) v)
      | none => none

/-- The return from an exception (R346): the ring in force restores IE from PIE, its PRING becomes the ring, its EPC
the pc. -/
def State.eretOp (s : State) (core : Nat) : Res :=
  let c := s.core core
  match c.ctx.ring with
  | .u => trapE s (tRing 0)
  | r =>
    let hr := r.trapHolder
    let t := c.trapRegs hr
    let pring := bitsOf t.status.toNat 0 2
    if r.rank < pring then trapE s (tRing 0)
    else
      let st := if t.status.getLsbD 3 then t.status ||| 4 else t.status &&& ~~~4#64
      let ring : Ring := match pring with | 0 => .u | 1 => .d | 2 => .h | _ => .m
      .ok (s.onCore core (fun c =>
        let c := c.setTrapRegs hr { t with status := st }
        { c with ctx := { (c.ctx.eretRegion ring) with ring := ring, pc := t.epc &&& ~~~3#64 } }))

/-! ### Retirement -/

/-- Retire the instruction of the turn's core: the pc moves on, ctl.retired counts, a step trap becomes pending in
ring U under SSTEP (R172, R373). `ring` is the ring the instruction ran in. -/
def State.retireTo (s : State) (pc : Word) (ring : Ring) (at_ : Word) : State :=
  s.onCore s.turn (fun c => { c with
    stepped := if ring = .u ∧ c.ctx.ctl.dbgctl.getLsbD 0 then some at_ else c.stepped
    ctx := { c.ctx with
      pc := pc, wfe := none, mx := none, steps := c.ctx.steps.filter (·.ring ≠ c.ctx.ring)
      ctl := { c.ctx.ctl with retired := c.ctx.ctl.retired + 1 } } })

/-- Retire past a word of `n` bytes. -/
def State.retire (s : State) (n : Nat) : State :=
  let c := s.ctx s.turn
  s.retireTo (c.pc + BitVec.ofNat 64 n) c.ring c.pc

/-- The outcome of a meaning: the state it answers, the state after its trap, or the state it waits in. -/
def State.finish (s : State) (r : Res) : Host.Outcome State Fault Refusal :=
  match r with
  | .ok t => .next t
  | .error (.trap t i) => .next (t.takeSync s.turn i)
  | .error (.wait t) => .next t

/-- The word that an instruction other than majors 0x00 to 0x09 and the recorded accesses begins from: an open line
region is broken (R107). -/
def State.breaking (s : State) : State :=
  if (s.ctx s.turn).region.isNone then s else s.onCtx s.turn (·.breakRegion)

/-- Write a scalar destination and retire a 4-byte word: how the arithmetic words end (R156). -/
def State.writeRetire (s : State) (d : SReg) (v : Word) : Host.Outcome State Fault Refusal :=
  .next ((s.onCtx s.turn (·.setS d v)).retire 4)

end Sys2Proof.Machine
end

