-- ==== Sys2Proof/Machine/Translate.lean ====
section
/-! DEFINITION. Translation (R366 to R369): the device translation caches, a requester's translation of one address
and what it does on a miss, and the completions. -/

namespace Sys2Proof.Machine

/-- The address-space name under which ring M's physical addresses are held (R336): no PASID reaches it. -/
def physPasid : Nat := 2 ^ 20

/-- The PASID under which a core's accesses are translated in the ring in force (R336). -/
def State.pasidOf (s : State) (core : Nat) (data : Bool) : Nat :=
  let c := s.ctx core
  let v := s.vfOf core
  match c.ring with
  | .u => v.taskPasid
  | .d => if data && c.ctl.d.status.getLsbD 4 then v.taskPasid else v.driverPasid
  | .h => v.hypPasid
  | .m => physPasid

def DtcEnt.hits (e : DtcEnt) (pasid va : Nat) : Bool :=
  e.pasid == pasid && decide (e.va ≤ va) && decide (va < e.va + 2 ^ e.lg)

def DtcEnt.grants (e : DtcEnt) (write : Bool) : Bool := if write then e.w else e.r

/-- A cached translation that grants the permission. -/
def State.dtcHit (s : State) (slice pasid va : Nat) (write : Bool) : Option Nat :=
  ((s.slice slice).dtc.find? (fun e => e.hits pasid va && e.grants write)).map (fun e => e.pa + (va - e.va))

/-- The outcome of a translation: an address, a wait in a state, or a refusal met in a state. -/
inductive Tr where
  | ok (pa : Nat)
  | stall (s : State)
  | refused (s : State)

def AtsReq.same (q : AtsReq) (pasid page : Nat) (write : Bool) : Bool :=
  q.pasid == pasid && q.page == page && q.write == write

/-- The world that the requests of a slice's DTC carry (R396). -/
def State.dtcWorld (s : State) (slice : Nat) : Bool := s.home.world.getLsbD (8 + slice)

/-- Join the outstanding request for the page, or make one if fewer than 1024 are outstanding (R367). -/
def Slice.request (sl : Slice) (secure : Bool) (r : Req) (pasid page : Nat) (write : Bool) : Slice :=
  if sl.ats.any (·.same pasid page write) then
    { sl with ats := sl.ats.map (fun q =>
      if q.same pasid page write && !q.waiters.contains r then { q with waiters := q.waiters ++ [r] } else q) }
  else if sl.ats.length < 1024 then
    { sl with ats := sl.ats ++ [⟨pasid, page, write, false, false, secure, [r]⟩] }
  else sl

/-- Translate one address for a requester (R89, R126, R368, R369). -/
def State.translate (s : State) (r : Req) (slice pasid va : Nat) (write : Bool) : Tr :=
  let page := va / 4096
  if pasid = physPasid then .ok va
  else if (s.slice slice).refused.any (fun x => x.req == r && x.pasid == pasid && x.page == page && x.write == write) then
    .refused (s.onSlice slice (fun sl => { sl with refused := sl.refused.filter (fun x =>
      !(x.req == r && x.pasid == pasid && x.page == page && x.write == write)) }))
  else match s.dtcHit slice pasid va write with
    | some pa => .ok pa
    | none => .stall (s.onSlice slice (·.request (s.dtcWorld slice) r pasid page write))

/-- The largest supported page size, as a power of two, that is not above a returned size (R366). -/
def pageLg (lg : Nat) : Nat :=
  if 31 ≤ lg then 31 else if 25 ≤ lg then 25 else if 21 ≤ lg then 21 else if 16 ≤ lg then 16 else 12

/-- Cache a returned translation: the returned range is 2^lg bytes aligned about `va`, and `pa` is its start. -/
def Slice.fill (sl : Slice) (tick pasid va lg pa : Nat) (r w : Bool) : Slice :=
  let l := pageLg lg
  let base := va / 2 ^ l * 2 ^ l
  let rbase := va / 2 ^ lg * 2 ^ lg
  let e : DtcEnt := ⟨pasid, base, l, pa + (base - rbase), r, w⟩
  let rest := sl.dtc.filter (fun x => !(x.pasid == pasid && x.va == base && x.lg == l))
  let rest := if rest.length < 8192 then rest else rest.eraseIdx (Config.dtcVictim tick % 8192)
  { sl with dtc := e :: rest }

/-- Refuse every waiter of a request. -/
def Slice.refuse (sl : Slice) (q : AtsReq) : Slice :=
  { sl with
    ats := sl.ats.filter (fun x => !x.same q.pasid q.page q.write)
    refused := sl.refused ++ q.waiters.map (fun r => ⟨r, q.pasid, q.page, q.write⟩) }

/-- Update the request for a page. -/
def Slice.onReq (sl : Slice) (pasid page : Nat) (write : Bool) (f : AtsReq → AtsReq) : Slice :=
  { sl with ats := sl.ats.map (fun q => if q.same pasid page write then f q else q) }

/-- A translation completion for an outstanding request (R366, R369). -/
def Slice.complete (sl : Slice) (tick : Nat) (q : AtsReq) (r : AtsReply) : Slice :=
  match r with
  | .unsupported | .completerAbort => sl.refuse q
  | .granted lg pa rd wr =>
    let sl := if rd || wr then sl.fill tick q.pasid (q.page * 4096) (max lg 12) pa rd wr else sl
    if (if q.write then wr else rd) then
      { sl with ats := sl.ats.filter (fun x => !x.same q.pasid q.page q.write) }
    else if q.again || sl.priOff.contains q.pasid then sl.refuse q
    else sl.onReq q.pasid q.page q.write (fun q => { q with pri := true })

/-- A page response for an outstanding page request (R369). -/
def Slice.respond (sl : Slice) (q : AtsReq) (r : PriResp) : Slice :=
  match r with
  | .success => sl.onReq q.pasid q.page q.write (fun q => { q with pri := false, again := true })
  | .invalid => sl.refuse q
  | .failure =>
    { sl.refuse q with priOff := if sl.priOff.contains q.pasid then sl.priOff else sl.priOff ++ [q.pasid] }

/-- What the host complex's tables say of a page to a request of a world. -/
def State.iommuReply (s : State) (secure : Bool) (pasid page : Nat) : AtsReply :=
  match s.iommu.find? (fun e => e.secure == secure && e.pasid == pasid && decide (e.va ≤ page * 4096) && decide (page * 4096 < e.va + 2 ^ e.lg)) with
  | some e => .granted e.lg (e.pa) e.r e.w
  | none => .granted 12 0 false false

end Sys2Proof.Machine
end

