-- ==== Sys2Proof/Machine/Home.lean ====
section
/-! DEFINITION. The home memory system: PA decode (R66 to R69), withheld data (R79, R385 to R387), node staging, quota
and commit (R254, R375 to R378), the atomic arithmetic of the home (R102 to R104), the ready queues' pushes and the
logs and rings the device writes (R311, R328, R334, R335, R382 to R384). -/

namespace Sys2Proof.Machine

/-! ### PA decode -/

/-- Stack, channel and home slice of a PA; none where it lies in no aperture (R67 to R69). -/
def decodePA (wide pa : Nat) : Option (Nat × Nat × Nat) :=
  if pa / 2 ^ 30 < 16 * wide then some (bitsOf pa 12 4, bitsOf pa 16 5, bitsOf pa 12 4 / 2)
  else if 2 ^ 40 ≤ pa then
    let sl := (pa - 2 ^ 40) / 2 ^ 37
    let o := (pa - 2 ^ 40) % 2 ^ 37
    if sl < 8 ∧ o / 2 ^ 30 < 2 * (36 - wide) then some (2 * sl + bitsOf o 12 1, bitsOf o 13 5, sl) else none
  else none

/-- The DRAM byte of a PA: its stack, and the place within the stack, whose first WIDE GiB are the module-wide
aperture's and the rest the slice-local aperture's (R67, R68). -/
def cellOf (wide pa : Nat) : Option (Nat × Nat) :=
  if pa / 2 ^ 30 < 16 * wide then some (bitsOf pa 12 4, pa / 65536 * 4096 + pa % 4096)
  else if 2 ^ 40 ≤ pa then
    let sl := (pa - 2 ^ 40) / 2 ^ 37
    let o := (pa - 2 ^ 40) % 2 ^ 37
    if sl < 8 ∧ o / 2 ^ 30 < 2 * (36 - wide) then
      some (2 * sl + bitsOf o 12 1, wide * 2 ^ 30 + (o / 8192 * 4096 + o % 4096))
    else none
  else none

/-- The PA of a DRAM byte: the inverse of `cellOf`. -/
def paOfCell (wide : Nat) (c : Nat × Nat) : Nat :=
  if c.2 / 2 ^ 30 < wide then c.2 / 4096 * 65536 + c.1 * 4096 + c.2 % 4096
  else
    let o := c.2 - wide * 2 ^ 30
    2 ^ 40 + c.1 / 2 * 2 ^ 37 + (o / 4096 * 8192 + c.1 % 2 * 4096 + o % 4096)

/-- Where the byte of a PA is found once WIDE has changed; a PA of no aperture stays. -/
def movedPA (old new pa : Nat) : Nat :=
  match cellOf old pa with
  | some c => paOfCell new c
  | none => pa

/-- WIDE changes (R66): every byte stays in its cell of its stack and so shows at another PA. Cached lines count as
written to DRAM before: the rule has software write MEMSPLIT before the first request (assumption 37). -/
def Home.resplit (h : Home) (wide : Nat) : Home :=
  if wide = h.wide then h
  else { h with
    wide := wide
    mem := h.mem.foldl (fun (m : Memory) e => m.set (movedPA h.wide wide e.1) e.2) []
    old := []
    place := []
    dramBad := h.dramBad.map (fun l => movedPA h.wide wide (128 * l) / 128)
    mscBad := [] }

/-- Is a PA secure: some enabled entry of the region table that covers it is marked so (R397)? -/
def Home.secure (h : Home) (pa : Nat) : Bool :=
  (List.range 64).any (fun n =>
    let lo := h.regionLo.get n
    lo.getLsbD 0 && lo.getLsbD 1 && decide (bitsOf lo.toNat 12 30 ≤ pa / 4096)
    && decide (pa / 4096 ≤ bitsOf (h.regionHi.get n).toNat 12 30))

/-- Do a slice's requests carry the secure bit (R396)? -/
def State.secureSlice (s : State) (slice : Nat) : Bool := s.home.world.getLsbD slice

/-- Is a master's access to the control space secure: does it come through a management block that ctl.world marks so? The
host complex has no bit of ctl.world (R396, R406; assumption 36). -/
def State.secureMaster (s : State) (m : Master) : Bool := m == .manager && s.home.world.getLsbD 24

/-- May a master change a register of a block, given by its bit of ctl.world: from the non-secure world none of a secure
block, whose fields then count as SL (R9, R406)? -/
def State.mayWrite (s : State) (m : Master) (b : Nat) : Bool := !s.home.world.getLsbD b || s.secureMaster m

/-- Is a core's request secure (R396)? -/
def State.secureCore (s : State) (core : Nat) : Bool :=
  (s.ctx core).ring == .m || s.home.world.getLsbD (sliceOf core)

/-! ### Lines -/

def Home.placeOf (h : Home) (line : Nat) : Place := Map.get .dram h.place line

/-- The line's current value stands in a place: where that is not newer than DRAM's, DRAM holds it, and the error of a
clean MSC copy goes with the copy (R79). -/
def Home.setPlace (h : Home) (line : Nat) (p : Place) : Home :=
  { h with
    place := Map.set .dram h.place line p
    old := if p.dirty then h.old else Map.clear h.old (128 * line) (128 * line + 128)
    mscBad := if p = .msc false then h.mscBad else h.mscBad.filter (· ≠ line) }

/-- The line is about to change where DRAM holds its value: DRAM keeps what it holds (R74, R75). -/
def Home.keepOld (h : Home) (line : Nat) : Home :=
  if (h.placeOf line).dirty then h
  else { h with old := h.old.setRange (128 * line) (h.mem.getRange (128 * line) 128) }

/-- Does a stack's table hold the line (R385)? -/
def Home.isWithheld (h : Home) (line : Nat) : Bool := h.withheld.any (fun e => e.2.contains line)

/-- The lines that the bytes [pa, pa + n) touch. -/
def linesOf (pa n : Nat) : List Nat :=
  if n = 0 then [] else (List.range ((pa + n - 1) / 128 - pa / 128 + 1)).map (· + pa / 128)

/-- Bytes at consecutive addresses, cut at line boundaries. -/
def cutLines (pa : Nat) (bs : List Byte) : List (Nat × List (Nat × Byte)) :=
  (linesOf pa bs.length).map (fun l =>
    (l, ((List.range bs.length).zip bs).filterMap (fun e =>
      if (pa + e.1) / 128 = l then some (pa + e.1, e.2) else none)))

/-- Why data is not delivered: an uncorrectable error with the type of its error record (R79, R382), or an abort with
neither interrupt nor record (R69, R79). -/
inductive HErr where
  | ue (kind : Nat)
  | abort
  deriving DecidableEq, Repr

/-- How a request touches a line. -/
inductive Touch where
  | read | part | full
  deriving DecidableEq, Repr

/-- Does an uncommitted node hold the line pending (R73)? -/
def Team.stages (t : Team) (line : Nat) : Bool := t.staged.any (fun e => e.1 / 128 == line)

/-- What a request to one line meets (R69, R79, R386, R387). A line the node itself holds pending was filled when it
was staged. -/
def State.lineErr (s : State) (secure : Bool) (team line : Nat) (t : Touch) : Option HErr :=
  match decodePA s.home.wide (line * 128) with
  | none => some .abort
  | some (stack, _, sl) =>
    if s.home.secure (line * 128) && !secure then some .abort
    else if (s.slice sl).stopped then some (.ue 5)
    else if (s.team team).stages line then none
    else if (Map.get [] s.home.withheld stack).contains line then
      (match t with
      | .read => some (.ue 3)
      | .part => some (.ue 4)
      | .full => none)
    else if s.home.dramBad.contains line && s.home.placeOf line == .dram && t != .full then some (.ue 1)
    else if s.home.mscBad.contains line && s.home.placeOf line == .msc false && t != .full then some (.ue 1)
    else none

/-- The first error among the lines of a range that is read. -/
def State.readErr (s : State) (secure : Bool) (team pa n : Nat) : Option (Nat × HErr) :=
  firstSome (fun l => (s.lineErr secure team l .read).map (fun e => (l, e))) (linesOf pa n)

/-- A read finds the line wherever it is and leaves it in L2 with its dirty state (R75, R78); a write-queue entry is
read in place (R99). A withheld line is never filled (R386). -/
def Home.fillL2 (h : Home) (line : Nat) : Home :=
  if h.isWithheld line then h
  else match h.placeOf line with
  | .dram => h.setPlace line (.l2 false)
  | .msc d => h.setPlace line (.l2 d)
  | _ => h

/-- Every line of a range is read into L2. -/
def State.touchRead (s : State) (pa n : Nat) : State :=
  s.onHome (fun h => (linesOf pa n).foldl (fun h l => h.fillL2 l) h)

/-- Drop a line from L2, the MSC and its write queue without write-back: DRAM's value remains (R75, R391). -/
def Home.dropCached (h : Home) (line : Nat) : Home :=
  (if (h.placeOf line).dirty then { h with mem := h.mem.setRange (128 * line) (h.old.getRange (128 * line) 128) }
  else h).setPlace line .dram

/-- Raw committed bytes. -/
def State.peek (s : State) (pa n : Nat) : List Byte := s.home.mem.getRange pa n
def State.peekNat (s : State) (pa n : Nat) : Nat := leNat (s.peek pa n)

/-- Where a line stands once it has been written: in its write-queue entry where it has one, to which writes are applied
(R99), else dirty in L2 (R73). -/
def Home.wrote (h : Home) (line : Nat) : Home :=
  if h.placeOf line = .wq then h else h.setPlace line (.l2 true)

/-- A line that is replaced whole loses its error and its withheld entry (R79, R386). -/
def Home.fullWrite (h : Home) (line : Nat) : Home :=
  { h with
    dramBad := h.dramBad.filter (· ≠ line)
    mscBad := h.mscBad.filter (· ≠ line)
    seen := h.seen.filter (· ≠ line)
    withheld := h.withheld.filterMap (fun e =>
      let l := e.2.filter (· ≠ line)
      if l.isEmpty then none else some (e.1, l)) }

/-- A line has been replaced whole: a withheld one is written to DRAM (R386). -/
def Home.replaced (h : Home) (line : Nat) : Home :=
  if h.isWithheld line then (h.fullWrite line).setPlace line .dram else (h.fullWrite line).wrote line

/-- Write committed bytes at their home lines (R72, R73). -/
def State.poke (s : State) (pa : Nat) (bs : List Byte) : State :=
  s.onHome (fun h =>
    let ls := linesOf pa bs.length
    let h := ls.foldl (·.keepOld ·) h
    let h := { h with mem := h.mem.setRange pa bs }
    ls.foldl (fun h l => if pa ≤ l * 128 ∧ l * 128 + 128 ≤ pa + bs.length then h.replaced l else h.wrote l) h)

def State.pokeNat (s : State) (pa n v : Nat) : State := s.poke pa (leBytes n v)

/-! ### Rings that the device writes by physical address -/

/-- The error that a write of a record to a ring meets: in the line of its indexes or in that of its next entry. The
device's own requests to a ring by physical address are not held to the region table. -/
def State.ringErr (s : State) (base size n : Nat) : Option (Nat × HErr) :=
  let e := base + 128 + s.peekNat base 8 % size * n
  firstSome (fun l => (s.lineErr true 0 l .part).map (fun x => (l, x))) [base / 128, e / 128]

/-- Append a record to a ring in memory: write index at offset 0, read index at offset 8, entries from 128; none
where it is full or a line of it cannot be written (R308, R382, R386, R409). -/
def State.ringPut (s : State) (base size : Nat) (bs : List Byte) : Option State :=
  let w := s.peekNat base 8
  let r := s.peekNat (base + 8) 8
  if size ≤ (w + 2 ^ 64 - r) % 2 ^ 64 ∨ (s.ringErr base size bs.length).isSome then none
  else some ((s.poke (base + 128 + w % size * bs.length) bs).pokeNat base 8 (w + 1))

/-- An error record to the HSC's ring (R382). -/
structure ErrRec where
  kind    : Nat
  stack   : Nat := 0xFF
  channel : Nat := 0xFF
  vf      : Nat := 0xFF
  slice   : Nat := 0
  cluster : Nat := 0xFF
  cls     : Nat := 0xFF
  pa      : Nat := 0
  pasid   : Nat := 0
  dnum    : Nat := 0
  detail  : Nat := 0

def ErrRec.bytes (e : ErrRec) : List Byte :=
  leBytes 2 e.kind ++ leBytes 1 e.stack ++ leBytes 1 e.channel ++ leBytes 1 e.vf ++ leBytes 1 e.slice
    ++ leBytes 1 e.cluster ++ leBytes 1 e.cls ++ leBytes 8 e.pa ++ leBytes 4 e.pasid ++ leBytes 8 e.dnum
    ++ leBytes 4 e.detail

/-- Write an error record, and raise the error interrupt of types 1, 2, 5 and of the first read of each withheld line
(R382). -/
def State.report (s : State) (e : ErrRec) : State :=
  let s :=
    if s.mgmt.errbase = 0 then s
    else match s.ringPut s.mgmt.errbase s.mgmt.errsize e.bytes with
      | some s => s
      | none => s.onMgmt (fun m => { m with errLost := m.errLost + 1 })
  if e.kind = 1 ∨ e.kind = 2 ∨ e.kind = 5 then s.signal (.errorIrq e.slice)
  else if e.kind = 3 ∧ !s.home.seen.contains (e.pa / 128) then
    (s.onHome (fun h => { h with seen := e.pa / 128 :: h.seen })).signal (.errorIrq e.slice)
  else s

/-- The node has consumed an uncorrectable error: rollback where it is uncommitted and was rolled back fewer than
three times, else a kill (R375, R376, R380). -/
def State.consume (s : State) (team : Nat) : State :=
  s.onTeam team (fun t =>
    if t.live then { t with consumed := true, kill := t.kill || t.committed || decide (3 ≤ t.rolled) } else t)

/-- A clean MSC copy in which a request found an error is dropped (R79). -/
def Home.dropMscBad (h : Home) (line : Nat) : Home :=
  if h.mscBad.contains line then
    let h := { h with mscBad := h.mscBad.filter (· ≠ line) }
    if h.placeOf line = .msc false then h.setPlace line .dram else h
  else h

/-- The error record of an uncorrectable error that a request for a VF met at a line (R79, R382); 0xFF stands for no
VF. -/
def State.reportFor (s : State) (vf team line cls pasid : Nat) (e : HErr) : State :=
  match e with
  | .abort => s
  | .ue kind =>
    let t := s.team team
    match decodePA s.home.wide (line * 128) with
    | some (stack, ch, sl) => (s.report {
        kind := kind, stack := stack, channel := ch, vf := vf, slice := sl
        cluster := match t.cluster with | some c => c % 8 | none => 0xFF
        cls := cls, pa := line * 128, pasid := pasid, dnum := if t.live then t.dnum else 0 }).onHome (·.dropMscBad line)
    | none => s

/-- What an error record says of a request of the device's own (R382), and the world that it carries (R396). -/
structure Asker where
  secure : Bool
  vf     : Nat
  cls    : Nat
  pasid  : Nat

/-- The device writes bytes, line by line: a line that may not be written stays as it is, and an error that the write met
there is reported (R79, R386, R387). -/
def State.devPut (s : State) (a : Asker) (pa : Nat) (bs : List Byte) : State :=
  (cutLines pa bs).foldl (fun s e =>
    match s.lineErr a.secure 0 e.1 (if 128 ≤ e.2.length then .full else .part) with
    | some x => s.reportFor a.vf 0 e.1 a.cls a.pasid x
    | none => s.poke ((e.2.head?.map (·.1)).getD pa) (e.2.map (·.2))) s

/-- The device reads bytes: none of them where a line may not be read, whose error is reported. -/
def State.devGet (s : State) (a : Asker) (pa n : Nat) : State × Option (List Byte) :=
  match s.readErr a.secure 0 pa n with
  | some (l, x) => (s.reportFor a.vf 0 l a.cls a.pasid x, none)
  | none => (s.touchRead pa n, some (s.peek pa n))

/-- The device appends a record to a ring; one that is full or cannot be written loses it, and an error that the write met
is reported (R308, R382, R386). -/
def State.ringWrite (s : State) (base size : Nat) (bs : List Byte) : State × Bool :=
  match s.ringPut base size bs with
  | some s => (s, true)
  | none => match s.ringErr base size bs.length with
    | some (l, e) => (s.reportFor 0xFF 0 l 0xFF 0 e, false)
    | none => (s, false)

/-- The error record of an uncorrectable error that a request of a team met. -/
def State.reportAt (s : State) (team line cls pasid : Nat) (e : HErr) : State :=
  s.reportFor (if (s.team team).live then (s.team team).vf else 0xFF) team line cls pasid e

/-- Report an error met at a line, and let the requesting node consume it. -/
def State.meet (s : State) (team line cls pasid : Nat) (e : HErr) : State :=
  let s := s.reportAt team line cls pasid e
  match e with
  | .abort => s
  | .ue _ => s.consume team

/-! ### The arithmetic of atomics and reductions -/

/-- The new value of an atomic (fn of R102; fn 11 is AMOCAS with compare value `cmp`). -/
def amoValue (fn : Nat) (old op cmp : Word) : Word :=
  match fn with
  | 0 => op
  | 1 => old + op
  | 2 => old &&& op
  | 3 => old ||| op
  | 4 => old ^^^ op
  | 5 => if op.slt old then op else old
  | 6 => if old.slt op then op else old
  | 7 => if op.ult old then op else old
  | 8 => if old.ult op then op else old
  | 9 => BitVec.ofNat 64 (addBits .fp32 (old.toNat % 2 ^ 32) (op.toNat % 2 ^ 32))
  | 10 => BitVec.ofNat 64 (addBits .fp64 old.toNat op.toNat)
  | _ => if old = cmp then op else old

/-- The fn of R102 that computes the applied value of a reduction (fn of R104). -/
def redFn (fn : Nat) : Nat := fn + 1

/-- Access width of an atomic by its fn of R102. -/
def amoWidth (fn : Nat) : Nat := if fn = 9 then 4 else 8

/-- The lines of a stack's write queue. -/
def Home.wqLines (h : Home) (stack : Nat) : List Nat :=
  h.place.filterMap (fun e =>
    if e.2 = .wq ∧ (decodePA h.wide (e.1 * 128)).map (·.1) = some stack then some e.1 else none)

/-- The line gets an entry of its stack's write queue; a queue of 256 entries makes room by writing one of them, a free
choice, to DRAM (R99). -/
def Home.toWq (h : Home) (tick line : Nat) : Home :=
  if h.placeOf line = .wq then h
  else
    let l := h.wqLines (((decodePA h.wide (line * 128)).map (·.1)).getD 16)
    let h := if l.length < 256 then h else h.setPlace (l.getD (Config.wqVictim tick % l.length) 0) .dram
    (h.keepOld line).setPlace line .wq

/-- A reduction that is held for its node moves a line that sits in L2 or the MSC into a write-queue entry; one in DRAM
is not read before its commit (R99, R101). -/
def Home.heldAt (h : Home) (tick line : Nat) : Home := if h.placeOf line = .dram then h else h.toWq tick line

/-- Perform an operation at a line's write-queue entry (R99). -/
def State.pokeWq (s : State) (pa w v : Nat) : State :=
  (s.pokeNat pa w v).onHome (fun h => h.toWq s.time.tick (pa / 128))

/-- Apply a reduction at its home. -/
def State.applyRed (s : State) (r : RedOp) : State :=
  s.pokeWq r.pa r.w (amoValue (redFn r.op) (BitVec.ofNat 64 (s.peekNat r.pa r.w)) r.v 0).toNat

/-- Perform one release on a sync word: RSEQ + 1, VALUE := v (R259). -/
def State.applyRelease (s : State) (pa : Nat) (v : Word) : State :=
  (s.pokeWq pa 8 (s.peekNat pa 8 + 1)).pokeWq (pa + 8) 8 v.toNat

/-! ### The dispatch descriptor (R317) -/

def Vf.word (v : Vf) (n : Nat) : Nat := (v.desc.get n).toNat
def Vf.lrmask (v : Vf) : Nat := bitsOf (v.word 2) 32 8
def Vf.qsize (v : Vf) : Nat := bitsOf (v.word 6) 0 32
def Vf.dfbase (v : Vf) : Nat := v.word 8
def Vf.dfsize (v : Vf) : Nat := bitsOf (v.word 9) 0 32

def isPow2 (n lo hi : Nat) : Bool := decide (lo ≤ n) && decide (n ≤ hi) && decide (n = 2 ^ n.log2)

/-- The validity of the descriptor but for its fault-log fields: every field in range, in either mode. -/
def Vf.descOkA (v : Vf) : Bool :=
  bitsOf (v.word 0) 1 63 == 0 && bitsOf (v.word 2) 40 24 == 0
  && isPow2 (bitsOf (v.word 2) 0 32) 16 65536
  && v.word 3 % 32 == 0 && v.word 4 % 16384 == 0 && v.word 5 % 4096 == 0 && isPow2 v.qsize 64 1048576
  && bitsOf (v.word 9) 32 32 == 0
  && (List.range 6).all (fun i => v.word (10 + i) == 0)

/-- The validity of DFBASE and DFSIZE (R335). -/
def Vf.descOkB (v : Vf) : Bool := v.dfbase % 128 == 0 && isPow2 v.dfsize 16 65536
def Vf.descOk (v : Vf) : Bool := v.descOkA && v.descOkB

/-! ### Logs in a VF's memory (R334, R335, R383) -/

/-- The base, the entry count and the entry size of log 0 (dispatch faults), 1 (retirements), 2 (events). -/
def Vf.logAt (v : Vf) (kind : Nat) : Nat × Nat × Nat :=
  match kind with
  | 0 => (if v.descOkB then v.dfbase else 0, v.dfsize, 16)
  | 1 => (v.word 7, 4096, 16)
  | _ => (v.evBase, v.evSize, 32)

/-- The slice through whose DTC the dispatcher reaches a VF's memory: its lowest allotted slice, else slice 0. -/
def Vf.logSlice (v : Vf) : Nat := ((List.range 8).find? (fun n => v.allot.getLsbD n)).getD 0

/-- The fabric die's requests for a VF at a boundary: with the world of the VF's slice (assumption 36). -/
def State.fabricAsker (s : State) (vf pasid : Nat) : Asker := ⟨s.secureSlice (s.vf vf).logSlice, vf, 4, pasid⟩

/-- The burrow engine's and the HSC's requests for a slice: with the slice's world (assumption 36). -/
def State.hscAsker (s : State) (slice : Nat) : Asker := ⟨s.secureSlice slice, 0xFF, 9, 0⟩

/-- The page pieces of a range of at most 4096 bytes. -/
def pageSegs (a n : Nat) : List (Nat × Nat) :=
  let k := min n (4096 - a % 4096)
  if n = 0 then [] else if n = k then [(a, n)] else [(a, k), (a + k, n - k)]

/-- Where bytes of a VF's memory stand for its logs, page by page. Else the state and whether a translation is pending; an
error that the access meets at a line gets a record where `tell` says so (R335, R382). -/
def State.logSegs (s : State) (vf va n : Nat) (write tell : Bool) : Except (State × Bool) (List (Nat × Nat)) :=
  let v := s.vf vf
  foldE (fun (l : List (Nat × Nat)) p =>
    match s.translate (.log vf) v.logSlice v.driverPasid p.1 write with
    | .stall s => .error (s, true)
    | .refused s => .error (s, false)
    | .ok pa =>
      match firstSome (fun l => (s.lineErr (s.secureSlice v.logSlice) 0 l (if write then .part else .read)).map (fun e => (l, e)))
        (linesOf pa p.2) with
      | some (line, e) => .error (if tell then s.reportFor vf 0 line 10 v.driverPasid e else s, false)
      | none => .ok (l ++ [(pa, p.2)])) [] (pageSegs va n)

/-- The number that stands in pieces of memory, and bytes written to them. -/
def State.segNat (s : State) (l : List (Nat × Nat)) : Nat := leNat (l.flatMap (fun p => s.peek p.1 p.2))

def State.segPut : State → List (Nat × Nat) → List Byte → State
  | s, [], _ => s
  | s, p :: r, bs => State.segPut (s.poke p.1 (bs.take p.2)) r (bs.drop p.2)

/-- Count one drop in the DROPPED word, where that can be written; false while its translation is pending (R335). -/
def State.countDrop (s : State) (vf : Nat) : State × Bool :=
  let v := s.vf vf
  if (v.logAt 0).1 = 0 then (s, true)
  else match s.logSegs vf (v.dfbase + 16) 8 true false with
    | .error (s, pending) => (s, !pending)
    | .ok l => (s.segPut l (leBytes 8 (min (2 ^ 64 - 1) (s.segNat l + 1))), true)

/-- Count a dropped entry: in the DROPPED word for logs 0 and 1, where a count whose translation is pending waits in the
VF's log queue as an entry of kind 3; on chip for log 2. -/
def State.dropLog (s : State) (vf kind : Nat) : State :=
  if kind = 2 then s.onVf vf (fun v => { v with evDropped := v.evDropped + 1 })
  else match s.countDrop vf with
    | (s, true) => s
    | (s, false) => s.onVf vf (fun v => { v with logQ := (3, []) :: v.logQ })

/-- What a written or dropped entry signals (R335, R384). -/
def State.logSignal (s : State) (vf kind : Nat) (written : Bool) : State :=
  if kind = 0 then s.signal (.dispatchFault vf)
  else if kind = 2 && written then s.signal (.vfEvent vf)
  else s

/-- Try to write an entry of a VF's log queue; false where a translation is pending. Kinds 0 to 2 are the entries of the
logs, kind 3 a count of a drop, and kind 4 + 8a bytes for address a, an entry of a queue's ring. A write that cannot be made
drops the entry, for logs 0 and 1 without a record in the HSC's error ring (R335). -/
def State.putLog (s : State) (vf kind : Nat) (bs : List Byte) : State × Bool :=
  let (base, size, w) := (s.vf vf).logAt kind
  let tell := decide (2 ≤ kind)
  let lost (x : State × Bool) : State × Bool :=
    if x.2 then (x.1, false) else ((x.1.dropLog vf kind).logSignal vf kind false, true)
  if kind = 3 then s.countDrop vf
  else if 4 ≤ kind then match s.logSegs vf (kind / 8) bs.length true tell with
    | .error (s, pending) => (s, !pending)
    | .ok l => (s.segPut l bs, true)
  else if base = 0 ∨ size = 0 then (s.logSignal vf kind false, true)
  else match s.logSegs vf base 8 true tell, s.logSegs vf (base + 8) 8 false tell with
    | .error x, _ => lost x
    | .ok _, .error x => lost x
    | .ok wl, .ok rl =>
      let wi := s.segNat wl
      if size ≤ (wi + 2 ^ 64 - s.segNat rl) % 2 ^ 64 then lost (s, false)
      else match s.logSegs vf (base + 128 + wi % size * w) w true tell with
        | .error x => lost x
        | .ok l => (((s.segPut l bs).segPut wl (leBytes 8 (wi + 1))).logSignal vf kind true, true)

/-- Try to write the entries of the VF's log queue in order; one that has to wait holds back only those of its own log or
slot (R335). -/
def State.flushLog (s : State) (vf : Nat) : State :=
  let q := (s.vf vf).logQ
  let s := s.onVf vf (fun v => { v with logQ := [] })
  let (s, left) := q.foldl (fun (x : State × List (Nat × List Byte)) e =>
    if x.2.any (·.1 == e.1) then (x.1, x.2 ++ [e])
    else match x.1.putLog vf e.1 e.2 with
      | (s, true) => (s, x.2)
      | (s, false) => (s, x.2 ++ [e])) (s, [])
  s.onVf vf (fun v => { v with logQ := left ++ v.logQ })

/-- Put an entry in a VF's log queue and write it if nothing holds it up. -/
def State.log (s : State) (vf kind : Nat) (bs : List Byte) : State :=
  (s.onVf vf (fun v => { v with logQ := v.logQ ++ [(kind, bs)] })).flushLog vf

/-- A dispatch fault (R311, R335). -/
def State.dispatchFault (s : State) (vf addr reason slice source grid : Nat) : State :=
  s.log vf 0 (leBytes 8 addr ++ leBytes 1 reason ++ leBytes 1 slice ++ leBytes 1 source ++ leBytes 1 0
    ++ leBytes 4 grid)

/-! ### Team records and ready queues (R310, R311, R314) -/

def recCode (r : List Byte) : Nat := leNat (r.take 8)
def recFrame (r : List Byte) : Nat := leNat ((r.drop 8).take 8)
def recJoin (r : List Byte) : Nat := leNat ((r.drop 16).take 4)
def recCoord (r : List Byte) : Nat := leNat ((r.drop 20).take 6)
def recB26 (r : List Byte) : Nat := (r.getD 26 0).toNat
def recB27 (r : List Byte) : Nat := (r.getD 27 0).toNat
def recSize (r : List Byte) : Nat := bitsOf (recB26 r) 0 2
def recPrio (r : List Byte) : Nat := bitsOf (recB26 r) 2 2
def recXspread (r : List Byte) : Bool := (recB27 r).testBit 0
def recRetlog (r : List Byte) : Bool := (recB27 r).testBit 1
def recQueue (r : List Byte) : Nat := bitsOf (recB27 r) 2 2
def recGrid (r : List Byte) : Nat := leNat ((r.drop 28).take 4)

/-- The reason a record may not enter a queue (R311). -/
def recBad (r : List Byte) : Option Nat :=
  if recJoin r ≠ 0 then some 1
  else if recCode r % 4 ≠ 0 ∨ 2 ^ 57 ≤ recCode r then some 2
  else if bitsOf (recB26 r) 4 4 ≠ 0 ∨ bitsOf (recB27 r) 4 4 ≠ 0 then some 3
  else none

/-- The key of a ready queue. -/
def qkey (vf p q : Nat) : Nat := 16 * vf + 4 * p + q

def Slice.queue (sl : Slice) (k : Nat) : List QEnt := Map.get [] sl.queues k
def Slice.setQueue (sl : Slice) (k : Nat) (l : List QEnt) : Slice := { sl with queues := Map.set [] sl.queues k l }

/-- Where slot `n` of the backing ring of a queue stands (R317). -/
def Vf.ringAt (v : Vf) (slice k n : Nat) : Nat := v.word 5 + ((16 * slice + k % 16) * v.qsize + n % v.qsize) * 32

/-- An entry joins the tail of a queue: it is written to its slot of the backing ring, and one beyond the 64 on chip will
be read from there (R314; assumption 45). -/
def State.enqueue (s : State) (vf slice k : Nat) (e : QEnt) : State :=
  let sl := s.slice slice
  let n := Map.get 0 sl.qtail k
  let ring := if (sl.queue k).length < 64 then none else some n
  (s.onSlice slice (fun sl => { sl.setQueue k (sl.queue k ++ [{ e with ring := ring, since := s.time.tick }]) with
    qtail := Map.set 0 sl.qtail k (n + 1) })).wakeBlock slice |>.log vf (4 + 8 * (s.vf vf).ringAt slice k n) e.record

/-- Push an entry at the tail of a given queue; a full ring logs reason 4 (R314). -/
def State.pushAt (s : State) (vf slice source k : Nat) (e : QEnt) : State :=
  if (s.vf vf).qsize ≤ ((s.slice slice).queue k).length then
    s.dispatchFault vf e.addr 4 slice source (recGrid e.record)
  else s.enqueue vf slice k e

/-- Push at the tail of the record's own queue. -/
def State.pushTail (s : State) (vf slice source : Nat) (e : QEnt) : State :=
  s.pushAt vf slice source (qkey vf (recPrio e.record) (recQueue e.record)) e

/-- Check a record under R311 and push it. -/
def State.pushChecked (s : State) (vf slice source : Nat) (e : QEnt) : State :=
  match recBad e.record with
  | some r => s.dispatchFault vf e.addr r slice source (recGrid e.record)
  | none => s.pushTail vf slice source e

/-- Count down a record's JOIN at its home and push the record when it reaches 0 (R328); false where the line is
uncorrectable or withheld. The world of the request was checked when it was issued (R396, R397). -/
def State.applyJdec (s : State) (team vf slice addr pa : Nat) : State × Bool :=
  match s.lineErr true 0 ((pa + 16) / 128) .read with
  | some e =>
    let s := s.meet team ((pa + 16) / 128) 5 (s.vf vf).taskPasid e
    (s, false)
  | none =>
    let j := s.peekNat (pa + 16) 4
    if j = 0 then (s.dispatchFault vf addr 6 slice 3 0, true)
    else
      let s := s.pokeWq (pa + 16) 4 (j - 1)
      if j = 1 then (s.pushChecked vf slice 3 { record := s.peek pa 32, addr := addr }, true) else (s, true)

/-! ### The node's commit (R254) -/

/-- Apply one held reduction, release or push of a commit; an error kills the node after its commit. The region table
let the request pass when it was issued, in its own world (R397). -/
def State.commitRed (s : State) (team : Nat) (r : RedOp) : State :=
  match s.lineErr true 0 (r.pa / 128) .read with
  | some e => s.meet team (r.pa / 128) 5 (s.vf (s.team team).vf).taskPasid e
  | none => s.applyRed r

def State.commitObj (s : State) (team : Nat) (o : Nat × Word) : State :=
  match s.lineErr true 0 (o.1 / 128) .read with
  | some e => s.meet team (o.1 / 128) 5 (s.vf (s.team team).vf).taskPasid e
  | none => s.applyRelease o.1 o.2

def State.commitPush (s : State) (team vf : Nat) (p : Push) : State :=
  match p with
  | .spawn slice addr r => s.pushTail vf slice 2 { record := r, addr := addr }
  | .jdec slice addr pa => (s.applyJdec team vf slice addr pa).1

/-- The lines of some bytes by address, descending. -/
def lineList {α : Type} (m : Map α) : List Nat :=
  m.foldl (fun l e => match l with
    | x :: _ => if x = e.1 / 128 then l else e.1 / 128 :: l
    | [] => [e.1 / 128]) []

/-- Make the staged bytes visible. A pending line is a whole line of L2 (R73), so the line that becomes current is
replaced whole (R386). -/
def State.publish (s : State) (staged : Map (Option Byte)) : State :=
  s.onHome (fun h =>
    let ls := lineList staged
    let h := ls.foldl (·.keepOld ·) h
    let put (m : Memory) (e : Nat × Option Byte) : Memory := match e.2 with
      | some b => m.set e.1 b
      | none => m
    let h := { h with mem := staged.foldl put h.mem }
    ls.foldl (·.replaced ·) h)

/-- The node commits, in the order of R254. A node that has committed already, or that has consumed an error and so is
to be rolled back or killed (R375, R376), is unchanged. -/
def State.commit (s : State) (team : Nat) : State :=
  let t := s.team team
  if !t.live || t.committed || t.consumed then s
  else
    let s := s.onTeam team (fun t => { t with committed := true, staged := [], reds := [], objs := [], pushes := [] })
    let s := s.publish t.staged
    let s := t.reds.foldl (fun s r => s.commitRed team r) s
    let s := t.objs.foldl (fun s o => s.commitObj team o) s
    t.pushes.foldl (fun s p => s.commitPush team t.vf p) s

/-! ### The staging quota (R378) -/

def quotaUnits (stq : Word) : Nat :=
  let u := bitsOf stq.toNat 0 18
  if u = 0 then 16384 else min u 131072

def quotaSet (stq : Word) : Nat :=
  let m := bitsOf stq.toNat 18 3
  if m = 0 then 8 else m

/-- The lines a node holds pending. -/
def Team.lines (t : Team) : List Nat := lineList t.staged

def Team.units (t : Team) : Nat := t.lines.length + t.reds.length + t.pushes.length

/-- The pending lines of a VF in one L2 set of one slice. -/
def State.pendingInSet (s : State) (vf line : Nat) : Nat :=
  let home (l : Nat) := ((decodePA s.home.wide (l * 128)).map (·.2.2)).getD 8
  s.teams.foldl (fun n e =>
    if e.2.live && e.2.vf == vf then
      n + (e.2.lines.filter (fun l =>
        l % 16 == line % 16 && Config.l2Set l % 1024 == Config.l2Set line % 1024 && home l == home line)).length
    else n) 0

/-- Would one more unit, and one more pending line where `line` is given, overflow the node's quota? -/
def State.overflows (s : State) (team : Nat) (line : Option Nat) : Bool :=
  let t := s.team team
  let stq := (s.vf t.vf).stq
  decide (quotaUnits stq < t.units + 1)
  || (match line with
    | some l => decide (quotaSet stq < s.pendingInSet t.vf l + 1)
    | none => false)

/-! ### Reads and writes in a node's view -/

/-- A byte of a node's staged lines, else of memory. -/
def State.lineByte (s : State) (team pa : Nat) : Byte :=
  match Map.get none (s.team team).staged pa with
  | some b => b
  | none => s.home.mem.get pa

/-- RSEQ of an object in a node's view: the home value with the node's own staged updates (R259). -/
def State.rseqView (s : State) (team pa : Nat) : Word :=
  BitVec.ofNat 64 (leNat ((List.range 8).map (fun i => s.lineByte team (pa + i)))
    + ((s.team team).objs.filter (·.1 == pa)).length)

/-- A byte as a node's own tasks see it at the home (R254): its staged lines, with its staged updates of a
synchronisation object, which the commit performs after them, on top. -/
def State.viewByte (s : State) (team pa : Nat) : Byte :=
  match ((s.team team).objs.filter (·.1 == pa / 16 * 16)).getLast? with
  | none => s.lineByte team pa
  | some o =>
    BitVec.ofNat 8 ((if pa % 16 < 8 then (s.rseqView team o.1).toNat else o.2.toNat) / 256 ^ (pa % 8))

def State.view (s : State) (team pa n : Nat) : List Byte := (List.range n).map (fun i => s.viewByte team (pa + i))

/-- Write bytes of one line for a node: staged while the node is uncommitted and within its quota, else committed
(R254, R377, R378). The error is what the line's fill meets. -/
def State.writeLine (s : State) (secure : Bool) (team line : Nat) (bs : List (Nat × Byte)) : Except HErr State :=
  let touch : Touch := if 128 ≤ bs.length then .full else .part
  match s.lineErr secure team line touch with
  | some e => .error e
  | none =>
    let t := s.team team
    let staging := t.live && !t.committed
    let spill := staging && !t.consumed && !t.stages line && s.overflows team (some line)
    let s := if spill then s.commit team else s
    if staging && !spill then
      .ok (s.onTeam team (fun t => { t with
        staged := bs.foldl (fun (m : Map (Option Byte)) (b : Nat × Byte) => Map.set none m b.1 (some b.2)) t.staged }))
    else
      .ok (s.onHome (fun h =>
        let h := h.keepOld line
        let h := { h with mem := bs.foldl (fun (m : Memory) (b : Nat × Byte) => m.set b.1 b.2) h.mem }
        if touch = .full then h.replaced line else h.wrote line))

/-- Write consecutive bytes for a node, line by line; stops at the first error, with the line. -/
def State.writeNode (s : State) (secure : Bool) (team pa : Nat) (bs : List Byte) : Except (State × Nat × HErr) State :=
  foldE (fun s e => match s.writeLine secure team e.1 e.2 with
    | .ok s => .ok s
    | .error x => .error (s, e.1, x)) s (cutLines pa bs)

/-! ### Teams that leave (R353, R357) -/

/-- An entry of a slice's swap table, in memory outside every VF's translation (R357). -/
structure SwapEnt where
  block : Nat
  dnum  : Nat
  vf    : Nat
  valid : Bool
  nonce : Nat

def Slice.swapAt (sl : Slice) (h : Nat) : Nat := sl.swapBase + 32 * h

def State.swapEnt (s : State) (slice h : Nat) : SwapEnt :=
  let b := s.peek ((s.slice slice).swapAt h) 32
  let v := (b.getD 16 0).toNat
  ⟨leNat (b.take 8), leNat ((b.drop 8).take 8), v % 8, v.testBit 7, leNat (b.drop 24)⟩

/-- The lowest free entry of a slice's swap table. -/
def State.freeHandle (s : State) (slice : Nat) : Option Nat :=
  (List.range (s.slice slice).swapLen).find? (fun h => !(s.swapEnt slice h).valid)

/-- Do the members of a team stop at their next boundaries in ring U or D, for a swap-out that can be made, a forced save
or the save of a power warning (R353, R414)? -/
def State.leaving (s : State) (team : Nat) : Bool :=
  let t := s.team team
  t.overrun || s.mgmt.saveDue || (t.swap && (!t.hsc || (s.freeHandle t.slice).isSome))

/-- Does the core stand at the boundary at which its member has stopped for its save? A trap of the instruction before is
taken first. -/
def State.atSave (s : State) (core : Nat) : Bool :=
  let c := s.core core
  s.leaving c.team && c.abort.isNone && c.stepped.isNone && (c.ctx.ring == .u || c.ctx.ring == .d)

/-! ### The node's acts -/

/-- A commit-class act: the node commits first (R376). -/
def State.commitClass (s : State) (core : Nat) : State := s.commit (s.core core).team

end Sys2Proof.Machine
end

