-- ==== Sys2Proof/Machine/Cache.lean ====
section
/-! DEFINITION. The L1 data caches (R80 to R83): lookup, fill, store, write-back, invalidation. -/

namespace Sys2Proof.Machine

/-- The bits [off, off + n) of a 128-bit byte mask. -/
def byteMask (off n : Nat) : BitVec 128 := BitVec.ofNat 128 ((2 ^ n - 1) * 2 ^ off)

/-- The granules that bytes [off, off + n) touch. -/
def granMask (off n : Nat) : BitVec 16 :=
  if n = 0 then 0 else BitVec.ofNat 16 ((2 ^ ((off + n - 1) / 8 - off / 8 + 1) - 1) * 2 ^ (off / 8))

def L1Line.is (l : L1Line) (pasid vline : Nat) : Bool := l.pasid == pasid && l.vline == vline

def Core.line (c : Core) (pasid vline : Nat) : Option L1Line := c.l1.find? (·.is pasid vline)
def Core.dropLine (c : Core) (pasid vline : Nat) : Core := { c with l1 := c.l1.filter (fun l => !l.is pasid vline) }
def Core.putLine (c : Core) (l : L1Line) : Core := { c with l1 := l :: (c.dropLine l.pasid l.vline).l1 }

/-- Are the bytes all valid? -/
def L1Line.has (l : L1Line) (off n : Nat) : Bool := (l.valid &&& byteMask off n) == byteMask off n

/-- Do the bytes touch a granule that fails its ECC? -/
def L1Line.badIn (l : L1Line) (off n : Nat) : Bool := (l.bad &&& granMask off n) != 0

def L1Line.bytes (l : L1Line) (off n : Nat) : List Byte := l.data.getRange off n

/-- The dirty bytes of a line's good granules, at their PAs. -/
def L1Line.dirtyBytes (l : L1Line) : List (Nat × Byte) :=
  (List.range 128).filterMap (fun i =>
    if l.dirty.getLsbD i && !l.bad.getLsbD (i / 8) then some (l.pline * 128 + i, l.data.get i) else none)

/-- Does a bad granule hold dirty bytes (R81)? -/
def L1Line.badDirty (l : L1Line) : Bool :=
  (List.range 128).any (fun i => l.dirty.getLsbD i && l.bad.getLsbD (i / 8))

/-- The line after a write-back: clean, and the bytes of bad granules not valid (R81, R82). -/
def L1Line.cleaned (l : L1Line) : L1Line :=
  let lostMask := (List.range 16).foldl (fun m g => if l.bad.getLsbD g then m ||| byteMask (8 * g) 8 else m) (0#128)
  { l with dirty := 0, valid := l.valid &&& ~~~lostMask, bad := 0 }

/-- A consumed error of a core, a register file or the array (R81, R148, R382 type 6). -/
def State.consumeLocal (s : State) (core cls : Nat) : State :=
  let t := s.teamOf core
  let s := s.report {
    kind := 6, vf := if t.live then t.vf else 0xFF, slice := sliceOf core, cluster := clusterOf core % 8, cls := cls
    dnum := if t.live then t.dnum else 0 }
  s.consume (s.core core).team

/-- An abort that an access of a core met becomes a pending DATA_ABORT, behind those that wait already; an uncorrectable
error has been consumed by the node (R89). -/
def State.abortAt (s : State) (core va : Nat) (pc : Word) (e : Option HErr) : State :=
  match e with
  | some .abort => s.onCore core (fun c =>
    let a : Abort := ⟨BitVec.ofNat 64 va, pc⟩
    if c.abort.isNone then { c with abort := some a } else { c with abortQ := c.abortQ ++ [a] })
  | _ => s

/-- Write a line's dirty bytes back to its home, byte-masked (R82). An abort reaches the core whose stores they are; the
instruction that its DATA_ABORT names is the core's next one (R69, R89; assumption 29). -/
def State.sendDirty (s : State) (core : Nat) (l : L1Line) : State :=
  let s := if l.badDirty then s.consumeLocal core 0 else s
  let bs := l.dirtyBytes
  if bs.isEmpty then s
  else match s.writeLine (s.secureCore core) (s.core core).team l.pline bs with
    | .ok s => s
    | .error e => (s.meet (s.core core).team l.pline 0 l.pasid e).abortAt core (l.vline * 128) (s.ctx core).pc (some e)

/-- Write a line back and keep it, clean. -/
def State.cleanLine (s : State) (core : Nat) (l : L1Line) : State :=
  if l.dirty = 0 ∧ l.bad = 0 then s
  else (s.sendDirty core l).onCore core (fun c => c.putLine l.cleaned)

/-- Write a line back and invalidate it. -/
def State.flushLine (s : State) (core : Nat) (l : L1Line) : State :=
  (s.sendDirty core l).onCore core (fun c => c.dropLine l.pasid l.vline)

/-- The lines of a core under a PASID whose 128-byte line numbers lie in [lo, hi]. -/
def Core.linesIn (c : Core) (pasid lo hi : Nat) : List L1Line :=
  c.l1.filter (fun l => l.pasid == pasid && decide (lo ≤ l.vline) && decide (l.vline ≤ hi))

def State.cleanRange (s : State) (core pasid lo hi : Nat) : State :=
  ((s.core core).linesIn pasid lo hi).foldl (fun s l => s.cleanLine core l) s

def State.flushRange (s : State) (core pasid lo hi : Nat) : State :=
  ((s.core core).linesIn pasid lo hi).foldl (fun s l => s.flushLine core l) s

/-- Write back and invalidate every line of a PASID (R255). -/
def State.flushPasid (s : State) (core pasid : Nat) : State := s.flushRange core pasid 0 (2 ^ 57)

/-- Is the line one of those that a load in progress accesses (R81)? -/
def PendLoad.uses (p : PendLoad) (l : L1Line) : Bool :=
  p.pasid == l.pasid && (match p.vec with
    | none => p.va / 128 == l.vline
    | some v => v.els.any (fun e => e.2.1 / 128 == l.vline))

/-- The lines of a core's L1 in the set of a line, and those of them without an access in progress (R81). -/
def Core.l1Set (c : Core) (vline : Nat) : List L1Line := c.l1.filter (fun l => l.vline % 1024 == vline % 1024)
def Core.l1Free (c : Core) (vline : Nat) : List L1Line :=
  (c.l1Set vline).filter (fun l => !c.ctx.pend.any (·.uses l))

/-- Can the core's L1 hold the line: is it there, or has its set room or a victim? Where every line of the set has an
access in progress, an access that needs room waits until one of them has ended. -/
def State.lineRoom (s : State) (core pasid vline : Nat) : Bool :=
  let c := s.core core
  (c.line pasid vline).isSome || decide ((c.l1Set vline).length < 12) || !(c.l1Free vline).isEmpty

/-- Make room for a new line: a full set of 12 gives up a victim without an access in progress (R81). -/
def State.makeRoom (s : State) (core vline : Nat) : State :=
  let c := s.core core
  if (c.l1Set vline).length < 12 then s
  else
    let free := c.l1Free vline
    match free[Config.l1Victim s.time.tick % free.length]? with
    | some l => s.flushLine core l
    | none => s

/-- The core's copy of a line, allocated empty where it has none and its set has room for it. -/
def State.allocLine (s : State) (core pasid vline pline : Nat) : State :=
  if ((s.core core).line pasid vline).isSome || !s.lineRoom core pasid vline then s
  else (s.makeRoom core vline).onCore core (fun c => c.putLine { pasid := pasid, vline := vline, pline := pline })

def State.onLine (s : State) (core pasid vline : Nat) (f : L1Line → L1Line) : State :=
  s.onCore core (fun c => match c.line pasid vline with
    | some l => c.putLine (f l)
    | none => c)

/-- Store bytes of one line into L1 (R81, R82); false where the store needs bytes of a bad granule and so consumes
the error. -/
def State.storeLine (s : State) (core pasid va pa : Nat) (bs : List Byte) : State :=
  let vline := va / 128
  let off := va % 128
  let n := bs.length
  let s := s.allocLine core pasid vline (pa / 128)
  match (s.core core).line pasid vline with
  | none => s
  | some l =>
    let partialBad := (List.range 16).any (fun g =>
      l.bad.getLsbD g && (granMask off n).getLsbD g && !(decide (off ≤ 8 * g) && decide (8 * g + 8 ≤ off + n)))
    if partialBad then s.consumeLocal core 0
    else s.onLine core pasid vline (fun l => { l with
      data := l.data.setRange off bs
      valid := l.valid ||| byteMask off n
      dirty := l.dirty ||| byteMask off n
      bad := l.bad &&& ~~~(granMask off n) })

/-- What a read of bytes of one line finds in L1. -/
inductive L1Read where
  | hit (bs : List Byte)
  | miss
  | bad

def State.l1Read (s : State) (core pasid va n : Nat) : L1Read :=
  match (s.core core).line pasid (va / 128) with
  | none => .miss
  | some l =>
    if l.has (va % 128) n then
      if l.badIn (va % 128) n then .bad else .hit (l.bytes (va % 128) n)
    else .miss

/-- Fill the bytes of a line that are not valid from its home, in the node's view (R82). -/
def State.fillLine (s : State) (core pasid vline pline : Nat) : Except HErr State :=
  let team := (s.core core).team
  match s.lineErr (s.secureCore core) team pline .read with
  | some e => .error e
  | none =>
    let s := (s.touchRead (pline * 128) 128).allocLine core pasid vline pline
    .ok (s.onLine core pasid vline (fun l => { l with
      data := (List.range 128).foldl (fun d i =>
        if l.valid.getLsbD i then d else Sparse.set d i (s.viewByte team (l.pline * 128 + i))) l.data
      valid := BitVec.allOnes 128 }))

/-- A completed read of bytes of one line through L1, filling it where needed (R82, R89). A line that finds no room, as
every line of its set has an access in progress, is read at its home and not kept (R81). -/
def State.readThrough (s : State) (core pasid va pa n : Nat) : Except (State × Option HErr) (State × List Byte) :=
  match s.l1Read core pasid va n with
  | .hit bs => .ok (s, bs)
  | .bad => .error (s.consumeLocal core 0, none)
  | .miss =>
    match s.fillLine core pasid (va / 128) (pa / 128) with
    | .error e => .error (s.meet (s.core core).team (pa / 128) 0 pasid e, some e)
    | .ok s =>
      match s.l1Read core pasid va n with
      | .hit bs => .ok (s, bs)
      | .miss => .ok (s, s.view (s.core core).team pa n)
      | .bad => .error (s.consumeLocal core 0, none)

end Sys2Proof.Machine
end

