-- ==== Sys2Proof/Machine/Access.lean ====
section
/-! DEFINITION. What the memory instructions share: the checks of R88, translation for a core (R89), scratchpad reads
and writes (R84 to R87), and the outcome of an error in the data (R79, R89). -/

namespace Sys2Proof.Machine

/-- Translate for a core: a miss waits, a refusal is TRANSLATION_FAULT (R89). -/
def State.tr (s : State) (core va : Nat) (write : Bool) (access : Nat) : Except Stop Nat :=
  match s.translate (.core core) (sliceOf core) (s.pasidOf core true) va write with
  | .ok pa => .ok pa
  | .stall s => waitE s
  | .refused s => trapE s (tTranslation access va)

/-- Translate every line of a list, in order, from line numbers to line numbers. -/
def State.trLines (s : State) (core : Nat) (write : Bool) (access : Nat) : List Nat → Except Stop (List (Nat × Nat))
  | [] => .ok []
  | l :: r => do
    let pa ← s.tr core (l * 128) write access
    let rest ← s.trLines core write access r
    .ok ((l, pa / 128) :: rest)

/-- The address must lie in translated memory, then be a multiple of `w` (R88, R103, R257). -/
def State.checkMem (s : State) (a : Word) (w : Nat) : Except Stop Nat :=
  if !rangeIn .memory a.toNat w then trapE s (tAddress a.toNat)
  else if a.toNat % w ≠ 0 then trapE s (tMisaligned a.toNat)
  else .ok a.toNat

/-- A cluster's scratchpad offset of a local window address. -/
def spOff (a : Nat) : Nat := a - spWindow

def TeamStore.spGet (t : TeamStore) (off n : Nat) : List Byte := t.sp.getRange off n

/-- Write scratchpad bytes: a granule written whole is no longer bad. -/
def TeamStore.spPut (t : TeamStore) (off : Nat) (bs : List Byte) : TeamStore :=
  { t with
    sp := t.sp.setRange off bs
    spBad := t.spBad.filter (fun g => !(decide (off ≤ 8 * g) && decide (8 * g + 8 ≤ off + bs.length))) }

/-- Do the bytes touch a scratchpad granule that fails its ECC? -/
def TeamStore.spBadIn (t : TeamStore) (off n : Nat) : Bool :=
  n != 0 && t.spBad.any (fun g => decide (off / 8 ≤ g) && decide (g ≤ (off + n - 1) / 8))

/-- Has the core's task a multicast store on its way? Its stores to scratchpad perform in program order, so a later
one waits until its landing cycle is over (R71, R87). -/
def State.mcastOut (s : State) (core : Nat) : Bool :=
  s.mcast.any (fun m => m.team == (s.core core).team && m.core % 4 == core % 4)

/-- Is a multicast store of the core to these bytes of its own cluster still on its way (R86)? -/
def State.mcastPending (s : State) (core off n : Nat) : Bool :=
  s.mcast.any (fun m => !m.landed && m.core == core && m.parts.any (fun p =>
    p.1.getLsbD (clusterOf core % 8) && rangesMeet p.2.1 p.2.2.length off n))

/-- An error that an access of a core at its home met. -/
def State.homeErr (s : State) (core va line cls : Nat) (e : HErr) : State :=
  (s.meet (s.core core).team line cls (s.pasidOf core true) e).abortAt core va (s.ctx core).pc (some e)

/-- Extend a loaded value to 64 bits (R91). -/
def extend (signed : Bool) (w v : Nat) : Word := if signed then sext64 (8 * w) v else BitVec.ofNat 64 v

end Sys2Proof.Machine
end

