-- ==== Sys2Proof/Decode.lean ====
section
/-! DEFINITION. The decoder, total on any parcels, which answers an instruction or the step of R40 that fails first,
and the encoder, written from the same tables (R37 to R53, R129, R130, R167, R171, R257). -/

namespace Sys2Proof

open Machine (bitsOf)

/-- The field [lo + len − 1 : lo] of a parcel, as a bit vector. -/
def fieldOf (p lo len : Nat) : BitVec len := BitVec.ofNat len (bitsOf p lo len)

/-- How many parcels the word that starts with this parcel takes (R37). -/
def wordParcels (p : Nat) : Nat := if p % 2 = 0 then 1 else if p % 4 = 1 then 3 else 6

/-! ### Scalar words -/

/-- Timelines by code (R129). -/
def TL.ofCode (n : Nat) : Option TL :=
  match n with
  | 0 => some .cp | 1 => some .ga | 2 => some .ws | 3 => some .fx | 4 => some .mx | _ => none

def TL.code : TL → Nat
  | .cp => 0 | .ga => 1 | .ws => 2 | .fx => 3 | .mx => 4

/-- FENCE scopes by code (R257). -/
def Scope.ofCode (n : Nat) : Option Scope :=
  match n with
  | 0 => some .task | 1 => some .team | 2 => some .slice | 3 => some .module | 4 => some .system | _ => none

def Scope.code : Scope → Nat
  | .task => 0 | .team => 1 | .slice => 2 | .module => 3 | .system => 4

def TReg.code : TReg → Nat
  | .tvec => 0 | .epc => 1 | .cause => 2 | .tval => 3 | .status => 4 | .scratch => 5

def TReg.ofCode (n : Nat) : Option TReg :=
  match n with
  | 0 => some .tvec | 1 => some .epc | 2 => some .cause | 3 => some .tval | 4 => some .status | 5 => some .scratch
  | _ => none

def HRing.code : HRing → Nat
  | .d => 1 | .h => 2 | .m => 3

/-- The CSR number of R171. -/
def Csr.number : Csr → Nat
  | .fpflags => 0x000 | .rng => 0x001 | .gtag => 0x002 | .leaserun => 0x003 | .engfault => 0x004
  | .engfaddr => 0x005 | .vtaglo => 0x008 | .vtaghi => 0x009 | .mtag => 0x00A | .atag => 0x00B
  | .audit => 0x010 | .cycle => 0x011 | .retired => 0x012 | .ptpns => 0x013
  | .trapReg r t => 256 * r.code + t.code
  | .dbgctl => 0x110 | .dbgstat => 0x111 | .pbudget => 0x208 | .shareack => 0x209 | .vfid => 0x20A
  | .world => 0x308

/-- The register of a CSR number; every other number is unassigned (R171). -/
def Csr.ofNumber (n : Nat) : Option Csr :=
  match n with
  | 0x000 => some .fpflags | 0x001 => some .rng | 0x002 => some .gtag | 0x003 => some .leaserun
  | 0x004 => some .engfault | 0x005 => some .engfaddr | 0x008 => some .vtaglo | 0x009 => some .vtaghi
  | 0x00A => some .mtag | 0x00B => some .atag | 0x010 => some .audit | 0x011 => some .cycle
  | 0x012 => some .retired | 0x013 => some .ptpns
  | 0x110 => some .dbgctl | 0x111 => some .dbgstat | 0x208 => some .pbudget | 0x209 => some .shareack
  | 0x20A => some .vfid | 0x308 => some .world
  | n =>
    if n < 256 then none
    else if n < 512 then (TReg.ofCode (n - 256)).map (Csr.trapReg .d)
    else if n < 768 then (TReg.ofCode (n - 512)).map (Csr.trapReg .h)
    else (TReg.ofCode (n - 768)).map (Csr.trapReg .m)

/-- A word that uses d and a: a non-zero b fails step 4. -/
def usesDA (b : SReg) (i : Instr) : Except Nat Instr := if b = 0 then .ok i else .error 4
def usesA (d b : SReg) (i : Instr) : Except Nat Instr := if d = 0 ∧ b = 0 then .ok i else .error 4
def usesAB (d : SReg) (i : Instr) : Except Nat Instr := if d = 0 then .ok i else .error 4
def usesD (a b : SReg) (i : Instr) : Except Nat Instr := if a = 0 ∧ b = 0 then .ok i else .error 4
def usesNone (d a b : SReg) (i : Instr) : Except Nat Instr :=
  if d = 0 ∧ a = 0 ∧ b = 0 then .ok i else .error 4

/-- An engine or fabric command: b is unused, a names a group (R43). -/
def group (a b : SReg) (i : Instr) : Except Nat Instr :=
  if b ≠ 0 then .error 4 else if groupOk a then .ok i else .error 5

def decQpop (d a b : SReg) : Except Nat Instr :=
  if b ≠ 0 then .error 4 else if a.toNat < 8 then .ok (.qpop d (a.setWidth 3)) else .error 5

def decFence (d a b : SReg) : Except Nat Instr :=
  match Scope.ofCode a.toNat with
  | none => .error 2
  | some sc => if d = 0 ∧ b = 0 then .ok (.fence sc) else .error 4

def decWaittl (d a b : SReg) : Except Nat Instr :=
  match TL.ofCode a.toNat with
  | none => .error 2
  | some t => if d = 0 then .ok (.waittl t b) else .error 4

def decTlrd (d a b : SReg) : Except Nat Instr :=
  match TL.ofCode (a.toNat % 8) with
  | none => .error 2
  | some t => if b = 0 ∧ a.toNat < 16 then .ok (.tlrd d t (a.toNat / 8 % 2 == 1)) else .error 4

def decAmocas (d a b : SReg) : Except Nat Instr := if b = 63 then .error 5 else .ok (.amocas d a b)

def decSobind (d a b : SReg) : Except Nat Instr :=
  if b = 0 ∨ b = 63 then .error 5 else .ok (.sobind d a b)

/-- Major 0x00 of R44. -/
def decodeAlu (fn : Nat) (d a b : SReg) : Except Nat Instr :=
  match fn with
  | 0 => .ok (.add d a b)
  | 1 => .ok (.sub d a b)
  | 2 => .ok (.and d a b)
  | 3 => .ok (.or d a b)
  | 4 => .ok (.xor d a b)
  | 5 => .ok (.andn d a b)
  | 6 => .ok (.sll d a b)
  | 7 => .ok (.srl d a b)
  | 8 => .ok (.sra d a b)
  | 9 => .ok (.slt d a b)
  | 10 => .ok (.sltu d a b)
  | 11 => .ok (.min d a b)
  | 12 => .ok (.max d a b)
  | 13 => .ok (.minu d a b)
  | 14 => .ok (.maxu d a b)
  | 15 => .ok (.mul d a b)
  | 16 => .ok (.mulh d a b)
  | 17 => .ok (.mulhu d a b)
  | 18 => .ok (.div d a b)
  | 19 => .ok (.divu d a b)
  | 20 => .ok (.rem d a b)
  | 21 => .ok (.remu d a b)
  | 22 => usesDA b (.clz d a)
  | 23 => usesDA b (.ctz d a)
  | 24 => usesDA b (.popc d a)
  | 25 => usesDA b (.bswap d a)
  | 26 => usesDA b (.sextb d a)
  | 27 => usesDA b (.sexth d a)
  | 28 => usesDA b (.sextw d a)
  | _ => .error 2

/-- Major 0x17 of R44. -/
def decodePop (fn : Nat) (d a b : SReg) : Except Nat Instr :=
  match fn with
  | 0 => decQpop d a b
  | _ => .error 2

/-- Major 0x1C of R44. -/
def decodeLine (fn : Nat) (d a b : SReg) : Except Nat Instr :=
  match fn with
  | 0 => usesA d b (.pref a)
  | 1 => usesAB d (.cflush a b)
  | 2 => usesAB d (.cinv a b)
  | 3 => usesAB d (.czero a b)
  | _ => .error 2

/-- Major 0x20 of R44. -/
def decodeAmo (fn : Nat) (d a b : SReg) : Except Nat Instr :=
  match fn with
  | 0 => .ok (.amoswap d a b)
  | 1 => .ok (.amoadd d a b)
  | 2 => .ok (.amoand d a b)
  | 3 => .ok (.amoor d a b)
  | 4 => .ok (.amoxor d a b)
  | 5 => .ok (.amomin d a b)
  | 6 => .ok (.amomax d a b)
  | 7 => .ok (.amominu d a b)
  | 8 => .ok (.amomaxu d a b)
  | 9 => .ok (.amofadds d a b)
  | 10 => .ok (.amofaddd d a b)
  | 11 => decAmocas d a b
  | _ => .error 2

/-- Major 0x21 of R44. -/
def decodeRed (fn : Nat) (d a b : SReg) : Except Nat Instr :=
  match fn with
  | 0 => usesAB d (.redadd a b)
  | 1 => usesAB d (.redand a b)
  | 2 => usesAB d (.redor a b)
  | 3 => usesAB d (.redxor a b)
  | 4 => usesAB d (.redmin a b)
  | 5 => usesAB d (.redmax a b)
  | 6 => usesAB d (.redminu a b)
  | 7 => usesAB d (.redmaxu a b)
  | 8 => usesAB d (.redfadds a b)
  | 9 => usesAB d (.redfaddd a b)
  | _ => .error 2

/-- Major 0x22 of R44. -/
def decodeRegion (fn : Nat) (d a b : SReg) : Except Nat Instr :=
  match fn with
  | 0 => usesA d b (.alb a)
  | 1 => usesD a b (.ale d)
  | _ => .error 2

/-- Major 0x23 of R44. -/
def decodeSync (fn : Nat) (d a b : SReg) : Except Nat Instr :=
  match fn with
  | 0 => usesDA b (.acq d a)
  | 1 => .ok (.rel d a b)
  | 2 => decFence d a b
  | 3 => usesNone d a b .cbar
  | 4 => decSobind d a b
  | 5 => .ok (.bcwait d a b)
  | 6 => decWaittl d a b
  | 7 => decTlrd d a b
  | 8 => usesDA b (.mbwait d a)
  | 9 => usesAB d (.mback a b)
  | _ => .error 2

/-- Major 0x28 of R44. -/
def decodeEngine (fn : Nat) (d a b : SReg) : Except Nat Instr :=
  match fn with
  | 0 => group a b (.cpy d a)
  | 1 => group a b (.cpyb d a)
  | 2 => group a b (.gath d a)
  | 3 => group a b (.scat d a)
  | 4 => group a b (.wstr d a)
  | 5 => usesD a b (.lease d)
  | 6 => usesNone d a b .unlease
  | 7 => group a b (.dload d a)
  | _ => .error 2

/-- Major 0x29 of R44. -/
def decodeFabric (fn : Nat) (d a b : SReg) : Except Nat Instr :=
  match fn with
  | 0 => group a b (.fxput d a)
  | 1 => group a b (.fxred d a)
  | 2 => usesD a b (.step d)
  | 3 => usesD a b (.stepnb d)
  | 4 => usesDA b (.stepwt d a)
  | 5 => usesDA b (.fxstat d a)
  | _ => .error 2

/-- Major 0x30 of R44. -/
def decodeTask (fn : Nat) (d a b : SReg) : Except Nat Instr :=
  match fn with
  | 0 => usesAB d (.spawn a b)
  | 1 => usesAB d (.jdec a b)
  | 2 => usesNone d a b .exit
  | 3 => usesD a b (.yield d)
  | 4 => usesD a b (.tcoord d)
  | 5 => usesD a b (.gridid d)
  | _ => .error 2

/-- Major 0x31 of R44. -/
def decodeTrap (fn : Nat) (d a b : SReg) : Except Nat Instr :=
  match fn with
  | 0 => usesNone d a b .eret
  | 1 => usesNone d a b .brk
  | 2 => usesDA b (.wfe d a)
  | 3 => usesDA b (.pdone d a)
  | 4 => usesNone d a b .halt
  | _ => .error 2

/-- The SR majors. -/
def decodeSR (major fn : Nat) (d a b : SReg) : Except Nat Instr :=
  match major with
  | 0x00 => decodeAlu fn d a b
  | 0x17 => decodePop fn d a b
  | 0x1C => decodeLine fn d a b
  | 0x20 => decodeAmo fn d a b
  | 0x21 => decodeRed fn d a b
  | 0x22 => decodeRegion fn d a b
  | 0x23 => decodeSync fn d a b
  | 0x28 => decodeEngine fn d a b
  | 0x29 => decodeFabric fn d a b
  | 0x30 => decodeTask fn d a b
  | 0x31 => decodeTrap fn d a b
  | _ => .error 2

/-- Major 0x07: the shifts by an immediate (R45). -/
def decodeShift (d a : SReg) (imm : BitVec 13) : Except Nat Instr :=
  let n := imm.toNat
  if n / 2048 = 3 then .error 2
  else if n / 64 % 32 ≠ 0 then .error 4
  else if n / 2048 = 0 then .ok (.slli d a (imm.setWidth 6))
  else if n / 2048 = 1 then .ok (.srli d a (imm.setWidth 6))
  else .ok (.srai d a (imm.setWidth 6))

/-- Major 0x24: WAITC (R45). -/
def decodeWaitc (d a : SReg) (imm : BitVec 13) : Except Nat Instr :=
  if d = 0 ∧ a = 0 ∧ imm.toNat < 4096 then
    .ok (.waitc (fieldOf imm.toNat 0 3) (fieldOf imm.toNat 3 3) (fieldOf imm.toNat 6 3) (fieldOf imm.toNat 9 3))
  else .error 4

/-- Majors 0x32 to 0x35: an unlisted number fails step 5, an unused a of CSRR step 4 (R40, R167). -/
def decodeCsr (major : Nat) (d a : SReg) (imm : BitVec 13) : Except Nat Instr :=
  if major = 0x32 ∧ a ≠ 0 then .error 4
  else match Csr.ofNumber imm.toNat with
    | none => .error 5
    | some c =>
      match major with
      | 0x32 => .ok (.csrr d c)
      | 0x33 => .ok (.csrw d a c)
      | 0x34 => .ok (.csrs d a c)
      | _ => .ok (.csrc d a c)

/-- The SI majors. -/
def decodeSI (major : Nat) (d a : SReg) (imm : BitVec 13) : Except Nat Instr :=
  match major with
  | 0x01 => .ok (.addi d a imm) | 0x02 => .ok (.andi d a imm) | 0x03 => .ok (.ori d a imm)
  | 0x04 => .ok (.xori d a imm) | 0x05 => .ok (.slti d a imm) | 0x06 => .ok (.sltiu d a imm)
  | 0x07 => decodeShift d a imm
  | 0x0C => .ok (.jalr d a imm)
  | 0x10 => .ok (.ldb d a imm) | 0x11 => .ok (.ldbu d a imm) | 0x12 => .ok (.ldh d a imm)
  | 0x13 => .ok (.ldhu d a imm) | 0x14 => .ok (.ldw d a imm) | 0x15 => .ok (.ldwu d a imm)
  | 0x16 => .ok (.ldd d a imm)
  | 0x18 => .ok (.stb d a imm) | 0x19 => .ok (.sth d a imm) | 0x1A => .ok (.stw d a imm)
  | 0x1B => .ok (.std d a imm)
  | 0x24 => decodeWaitc d a imm
  | 0x32 | 0x33 | 0x34 | 0x35 => decodeCsr major d a imm
  | 0x36 => if d = 0 ∧ a = 0 then .ok (.trap imm) else .error 4
  | _ => .error 2

/-- Major 0x0A: the conditional branches. -/
def decodeSB (cond : Nat) (a b : SReg) (off : BitVec 10) : Except Nat Instr :=
  match cond with
  | 0 => .ok (.beq a b off) | 1 => .ok (.bne a b off) | 2 => .ok (.blt a b off) | 3 => .ok (.bge a b off)
  | 4 => .ok (.bltu a b off) | 5 => .ok (.bgeu a b off) | _ => .error 2

/-- A scalar word (R41, R44). -/
def decodeScalar (p : Nat) : Except Nat Instr :=
  let major := bitsOf p 1 6
  let d : SReg := fieldOf p 7 6
  let a : SReg := fieldOf p 13 6
  match major with
  | 0x08 => .ok (.lui d (fieldOf p 13 19))
  | 0x09 => .ok (.aupc d (fieldOf p 13 19))
  | 0x0A => decodeSB (bitsOf p 19 3) d a (fieldOf p 22 10)
  | 0x0B => .ok (.jal d (fieldOf p 13 19))
  | 0x00 | 0x17 | 0x1C | 0x20 | 0x21 | 0x22 | 0x23 | 0x28 | 0x29 | 0x30 | 0x31 =>
    decodeSR major (bitsOf p 25 7) d a (fieldOf p 19 6)
  | m => decodeSI m d a (fieldOf p 19 13)

/-! ### Vector words -/

/-- The opcode of a vector instruction (R49). -/
def VOp.code : VOp → Nat
  | .add => 0x000
  | .sub => 0x001
  | .mul => 0x002
  | .div => 0x003
  | .fma => 0x004
  | .fms => 0x005
  | .fnma => 0x006
  | .fnms => 0x007
  | .max => 0x008
  | .min => 0x009
  | .abs => 0x00A
  | .neg => 0x00B
  | .sqrt => 0x00C
  | .cpsgn => 0x00D
  | .exp2 => 0x040
  | .log2 => 0x041
  | .rcp => 0x042
  | .rsq => 0x043
  | .sigm => 0x044
  | .tanh => 0x045
  | .iadd => 0x060
  | .isub => 0x061
  | .imul => 0x062
  | .imulh => 0x063
  | .imin => 0x064
  | .imax => 0x065
  | .iminu => 0x066
  | .imaxu => 0x067
  | .and => 0x068
  | .or => 0x069
  | .xor => 0x06A
  | .shl => 0x06B
  | .shr => 0x06C
  | .sra => 0x06D
  | .iabs => 0x06E
  | .idot4 => 0x06F
  | .cvt => 0x0A0
  | .scale => 0x0A1
  | .tag => 0x0A2
  | .qblk => 0x0A3
  | .dqblk => 0x0A4
  | .cls => 0x0A5
  | .cmp => 0x0C0
  | .sel => 0x0C1
  | .kand => 0x0C2
  | .kor => 0x0C3
  | .kxor => 0x0C4
  | .knot => 0x0C5
  | .kpop => 0x0C6
  | .kmov => 0x0C7
  | .rsum => 0x0E0
  | .rmax => 0x0E1
  | .rmin => 0x0E2
  | .ramax => 0x0E3
  | .riadd => 0x0E4
  | .mov => 0x100
  | .bcast => 0x101
  | .perm => 0x102
  | .rot => 0x103
  | .comp => 0x104
  | .expd => 0x105
  | .iota => 0x106
  | .zip => 0x107
  | .uzp => 0x108
  | .ld => 0x140
  | .st => 0x141
  | .ldx => 0x142
  | .stx => 0x143

/-- The vector instruction of an opcode; every other opcode fails step 2 of R40. -/
def VOp.ofCode (n : Nat) : Option VOp :=
  match n with
  | 0x000 => some .add
  | 0x001 => some .sub
  | 0x002 => some .mul
  | 0x003 => some .div
  | 0x004 => some .fma
  | 0x005 => some .fms
  | 0x006 => some .fnma
  | 0x007 => some .fnms
  | 0x008 => some .max
  | 0x009 => some .min
  | 0x00A => some .abs
  | 0x00B => some .neg
  | 0x00C => some .sqrt
  | 0x00D => some .cpsgn
  | 0x040 => some .exp2
  | 0x041 => some .log2
  | 0x042 => some .rcp
  | 0x043 => some .rsq
  | 0x044 => some .sigm
  | 0x045 => some .tanh
  | 0x060 => some .iadd
  | 0x061 => some .isub
  | 0x062 => some .imul
  | 0x063 => some .imulh
  | 0x064 => some .imin
  | 0x065 => some .imax
  | 0x066 => some .iminu
  | 0x067 => some .imaxu
  | 0x068 => some .and
  | 0x069 => some .or
  | 0x06A => some .xor
  | 0x06B => some .shl
  | 0x06C => some .shr
  | 0x06D => some .sra
  | 0x06E => some .iabs
  | 0x06F => some .idot4
  | 0x0A0 => some .cvt
  | 0x0A1 => some .scale
  | 0x0A2 => some .tag
  | 0x0A3 => some .qblk
  | 0x0A4 => some .dqblk
  | 0x0A5 => some .cls
  | 0x0C0 => some .cmp
  | 0x0C1 => some .sel
  | 0x0C2 => some .kand
  | 0x0C3 => some .kor
  | 0x0C4 => some .kxor
  | 0x0C5 => some .knot
  | 0x0C6 => some .kpop
  | 0x0C7 => some .kmov
  | 0x0E0 => some .rsum
  | 0x0E1 => some .rmax
  | 0x0E2 => some .rmin
  | 0x0E3 => some .ramax
  | 0x0E4 => some .riadd
  | 0x100 => some .mov
  | 0x101 => some .bcast
  | 0x102 => some .perm
  | 0x103 => some .rot
  | 0x104 => some .comp
  | 0x105 => some .expd
  | 0x106 => some .iota
  | 0x107 => some .zip
  | 0x108 => some .uzp
  | 0x140 => some .ld
  | 0x141 => some .st
  | 0x142 => some .ldx
  | 0x143 => some .stx
  | _ => none

/-- The instruction of a vector opcode and its fields. -/
def VOp.instr (op : VOp) (w : VWord) : Instr :=
  match op with
  | .add => .vadd w
  | .sub => .vsub w
  | .mul => .vmul w
  | .div => .vdiv w
  | .fma => .vfma w
  | .fms => .vfms w
  | .fnma => .vfnma w
  | .fnms => .vfnms w
  | .max => .vmax w
  | .min => .vmin w
  | .abs => .vabs w
  | .neg => .vneg w
  | .sqrt => .vsqrt w
  | .cpsgn => .vcpsgn w
  | .exp2 => .vexp2 w
  | .log2 => .vlog2 w
  | .rcp => .vrcp w
  | .rsq => .vrsq w
  | .sigm => .vsigm w
  | .tanh => .vtanh w
  | .iadd => .viadd w
  | .isub => .visub w
  | .imul => .vimul w
  | .imulh => .vimulh w
  | .imin => .vimin w
  | .imax => .vimax w
  | .iminu => .viminu w
  | .imaxu => .vimaxu w
  | .and => .vand w
  | .or => .vor w
  | .xor => .vxor w
  | .shl => .vshl w
  | .shr => .vshr w
  | .sra => .vsra w
  | .iabs => .viabs w
  | .idot4 => .vidot4 w
  | .cvt => .vcvt w
  | .scale => .vscale w
  | .tag => .vtag w
  | .qblk => .vqblk w
  | .dqblk => .vdqblk w
  | .cls => .vclass w
  | .cmp => .vcmp w
  | .sel => .vsel w
  | .kand => .kand w
  | .kor => .kor w
  | .kxor => .kxor w
  | .knot => .knot w
  | .kpop => .kpop w
  | .kmov => .kmov w
  | .rsum => .vrsum w
  | .rmax => .vrmax w
  | .rmin => .vrmin w
  | .ramax => .vramax w
  | .riadd => .vriadd w
  | .mov => .vmov w
  | .bcast => .vbcast w
  | .perm => .vperm w
  | .rot => .vrot w
  | .comp => .vcomp w
  | .expd => .vexpd w
  | .iota => .viota w
  | .zip => .vzip w
  | .uzp => .vuzp w
  | .ld => .vld w
  | .st => .vst w
  | .ldx => .vldx w
  | .stx => .vstx w

/-- The kind bits of an operand field whose other bits must be zero, and those bits (R47): [23:20] always, the
stride but for kind 100, the index for kinds that name none, the register for kinds 100 and 110. -/
def operandReserved (x : Nat) : Bool :=
  let kind := x % 8
  bitsOf x 20 4 == 0
  && (kind == 4 || bitsOf x 14 6 == 0)
  && (kind == 1 || kind == 2 || kind == 3 || kind == 4 || kind == 6 || bitsOf x 8 6 == 0)
  && (!(kind == 4 || kind == 6) || bitsOf x 3 5 == 0)

/-- The register of a tile, stream or mask operand is 0 to 7 (R47). -/
def operandRange (x : Nat) : Bool :=
  let kind := x % 8
  kind == 0 || kind == 4 || kind == 6 || decide (bitsOf x 3 5 < 8)

/-- The operand that a 24-bit field names. -/
def Operand.ofBits (x : Nat) : Operand :=
  let ix : SReg := fieldOf x 8 6
  match x % 8 with
  | 0 => .v (fieldOf x 3 5)
  | 1 => .row (fieldOf x 3 3) ix
  | 2 => .col (fieldOf x 3 3) ix
  | 3 => .diag (fieldOf x 3 3) ix
  | 4 => .sp ix (fieldOf x 14 6)
  | 5 => .q (fieldOf x 3 3)
  | 6 => .s ix
  | _ => .k (fieldOf x 3 3)

/-- The 24-bit field of an operand. -/
def Operand.bits : Operand → Nat
  | .v n => 8 * n.toNat
  | .row m ix => 1 + 8 * m.toNat + 256 * ix.toNat
  | .col m ix => 2 + 8 * m.toNat + 256 * ix.toNat
  | .diag m ix => 3 + 8 * m.toNat + 256 * ix.toNat
  | .sp ix st => 4 + 256 * ix.toNat + 16384 * st.toNat
  | .q n => 5 + 8 * n.toNat
  | .s n => 6 + 256 * n.toNat
  | .k n => 7 + 8 * n.toNat

/-- A vector word of three parcels (R46), checked in the order of R40. -/
def decodeVector (p0 p1 p2 : Nat) : Except Nat Instr :=
  let d := bitsOf p0 24 8 + 256 * bitsOf p1 0 16
  let a := bitsOf p1 16 16 + 65536 * bitsOf p2 0 8
  let b := bitsOf p2 8 24
  match Fmt.ofCode (bitsOf p0 15 4) with
  | none => .error 1
  | some f =>
    match VOp.ofCode (bitsOf p0 2 10) with
    | none => .error 2
    | some op =>
      let w : VWord := ⟨fieldOf p0 12 3, f, fieldOf p0 19 3, fieldOf p0 22 2, .ofBits d, .ofBits a, .ofBits b⟩
      if !op.step3 w.rm then .error 3
      else if !(op.step4 w && operandReserved d && operandReserved a && operandReserved b) then .error 4
      else if !(op.step5 w && operandRange d && operandRange a && operandRange b) then .error 5
      else .ok (op.instr w)

/-! ### Matrix words -/

def MOp.code : MOp → Nat
  | .mma => 0x01 | .drun => 0x02 | .mld => 0x03 | .mst => 0x04 | .mzero => 0x05 | .acpy => 0x06 | .acpyin => 0x07

def MOp.instr (op : MOp) (w : MWord) : Instr :=
  match op with
  | .mma => .mma w | .drun => .drun w | .mld => .mld w | .mst => .mst w | .mzero => .mzero w | .acpy => .acpy w
  | .acpyin => .acpyin w

/-- The fields of six parcels (R50); the formats are given. -/
def MWord.ofParcels (af bf cf : Fmt) (p0 p1 p2 p3 p4 p5 : Nat) : MWord :=
  { acc := fieldOf p0 10 3, rowMask := fieldOf p0 13 3, colMask := fieldOf p0 16 3, af := af, bf := bf, cf := cf
    ovw := bitsOf p0 31 1 == 1
    aKind := fieldOf p1 0 2, aTile := fieldOf p1 2 3, aFirst := fieldOf p1 5 6, aSecond := fieldOf p1 11 6
    bKind := fieldOf p1 17 2, bTile := fieldOf p1 19 3
    bFirst := fieldOf p2 0 6, bSecond := fieldOf p2 6 6, slot := fieldOf p2 12 2, kcount := fieldOf p2 14 9
    koff := fieldOf p2 23 6
    entry := fieldOf p3 0 9, dparam := fieldOf p3 9 6, dmode := fieldOf p3 15 2, acc2 := fieldOf p3 17 3
    aScaled := bitsOf p3 20 1 == 1, bScaled := bitsOf p3 21 1 == 1, rm := fieldOf p3 22 3
    rep := fieldOf p4 0 8, advA := bitsOf p4 8 1 == 1, advB := bitsOf p4 9 1 == 1
    accAcross := bitsOf p4 10 1 == 1, drainLast := bitsOf p4 11 1 == 1
    waitCp := fieldOf p5 0 6, waitWs := fieldOf p5 6 6 }

/-- The reserved bits of a matrix word (R50). -/
def matrixReserved (p1 p2 p3 p4 p5 : Nat) : Bool :=
  bitsOf p1 22 10 == 0 && bitsOf p2 29 3 == 0 && bitsOf p3 25 7 == 0 && bitsOf p4 12 20 == 0
  && bitsOf p5 12 20 == 0

/-- The words of R52 whose fields are scalars only: MSAVE, MRSTR and MSTAT. -/
def decodeScalarsOnly (op : Nat) (w : MWord) (res : Bool) : Except Nat Instr :=
  if op = 0x0A then
    if res && w == { MWord.zero with aFirst := w.aFirst } then .ok (.mstat w.aFirst) else .error 4
  else if op = 0x08 ∨ op = 0x09 then
    if res && w == { MWord.zero with aFirst := w.aFirst, aSecond := w.aSecond } then
      .ok (if op = 0x08 then .msave w.aFirst w.aSecond else .mrstr w.aFirst w.aSecond)
    else .error 4
  else .error 2

def MOp.ofCode (n : Nat) : Option MOp :=
  match n with
  | 1 => some .mma | 2 => some .drun | 3 => some .mld | 4 => some .mst | 5 => some .mzero | 6 => some .acpy
  | 7 => some .acpyin | _ => none

/-- A matrix word of six parcels, checked in the order of R40. -/
def decodeMatrix (p0 p1 p2 p3 p4 p5 : Nat) : Except Nat Instr :=
  match Fmt.ofCode (bitsOf p0 19 4), Fmt.ofCode (bitsOf p0 23 4), Fmt.ofCode (bitsOf p0 27 4) with
  | some af, some bf, some cf =>
    let w := MWord.ofParcels af bf cf p0 p1 p2 p3 p4 p5
    let res := matrixReserved p1 p2 p3 p4 p5
    match MOp.ofCode (bitsOf p0 2 8) with
    | none => decodeScalarsOnly (bitsOf p0 2 8) w res
    | some op =>
      if !op.step3 w.rm then .error 3
      else if !(op.step4 w && res) then .error 4
      else if !op.step5 w then .error 5
      else .ok (op.instr w)
  | _, _, _ => .error 1

/-! ### The whole decoder -/

/-- Decode a word from its parcels, the first of which fixes the length (R37). Parcels that are missing read as
zero; the fetch supplies every parcel of the word first (R39). The error is the failing step of R40. -/
def decode (ps : List Parcel) : Except Nat Instr :=
  let p (n : Nat) : Nat := (ps.getD n 0).toNat
  if wordParcels (p 0) = 1 then decodeScalar (p 0)
  else if wordParcels (p 0) = 3 then decodeVector (p 0) (p 1) (p 2)
  else decodeMatrix (p 0) (p 1) (p 2) (p 3) (p 4) (p 5)

/-- The instruction whose bits are `w`, bit 0 the lowest bit of the first parcel; bits from `nbits` up are zero. -/
def decodeTableWord (nbits w : Nat) : Option Instr :=
  let x := w % 2 ^ nbits
  match decode [BitVec.ofNat 32 x, BitVec.ofNat 32 (x >>> 32), BitVec.ofNat 32 (x >>> 64), BitVec.ofNat 32 (x >>> 96),
      BitVec.ofNat 32 (x >>> 128), BitVec.ofNat 32 (x >>> 160)] with
  | .ok i => some i
  | .error _ => none

/-! ### The encoder -/

def srWord (major fn : Nat) (d a b : SReg) : List Parcel :=
  [BitVec.ofNat 32 (2 * major + 128 * d.toNat + 8192 * a.toNat + 524288 * b.toNat + 33554432 * fn)]

def siWord (major : Nat) (d a : SReg) (imm : Nat) : List Parcel :=
  [BitVec.ofNat 32 (2 * major + 128 * d.toNat + 8192 * a.toNat + 524288 * imm)]

def sbWord (cond : Nat) (a b : SReg) (off : BitVec 10) : List Parcel :=
  [BitVec.ofNat 32 (2 * 0x0A + 128 * a.toNat + 8192 * b.toNat + 524288 * cond + 4194304 * off.toNat)]

def suWord (major : Nat) (d : SReg) (imm : BitVec 19) : List Parcel :=
  [BitVec.ofNat 32 (2 * major + 128 * d.toNat + 8192 * imm.toNat)]

/-- The three parcels of a vector word (R46). -/
def vectorWord (op : VOp) (w : VWord) : List Parcel :=
  let d := w.d.bits
  let a := w.a.bits
  let b := w.b.bits
  [BitVec.ofNat 32 (1 + 4 * op.code + 4096 * w.k.toNat + 32768 * w.fmt.code.toNat + 524288 * w.rm.toNat
      + 4194304 * w.flags.toNat + 16777216 * (d % 256)),
    BitVec.ofNat 32 (d / 256 + 65536 * (a % 65536)),
    BitVec.ofNat 32 (a / 65536 + 256 * b)]

/-- The six parcels of a matrix word (R50). -/
def matrixWord (op : Nat) (w : MWord) : List Parcel :=
  [BitVec.ofNat 32 (3 + 4 * op + 1024 * w.acc.toNat + 8192 * w.rowMask.toNat + 65536 * w.colMask.toNat
      + 524288 * w.af.code.toNat + 8388608 * w.bf.code.toNat + 134217728 * w.cf.code.toNat
      + 2147483648 * w.ovw.toNat),
    BitVec.ofNat 32 (w.aKind.toNat + 4 * w.aTile.toNat + 32 * w.aFirst.toNat + 2048 * w.aSecond.toNat
      + 131072 * w.bKind.toNat + 524288 * w.bTile.toNat),
    BitVec.ofNat 32 (w.bFirst.toNat + 64 * w.bSecond.toNat + 4096 * w.slot.toNat + 16384 * w.kcount.toNat
      + 8388608 * w.koff.toNat),
    BitVec.ofNat 32 (w.entry.toNat + 512 * w.dparam.toNat + 32768 * w.dmode.toNat + 131072 * w.acc2.toNat
      + 1048576 * w.aScaled.toNat + 2097152 * w.bScaled.toNat + 4194304 * w.rm.toNat),
    BitVec.ofNat 32 (w.rep.toNat + 256 * w.advA.toNat + 512 * w.advB.toNat + 1024 * w.accAcross.toNat
      + 2048 * w.drainLast.toNat),
    BitVec.ofNat 32 (w.waitCp.toNat + 64 * w.waitWs.toNat)]

/-- The parcels of a scalar instruction, and of the three matrix words that take scalar operands only; [] for the
vector and matrix words proper and for events. -/
def encodeScalar : Instr → List Parcel
  | .add d a b => srWord 0x00 0 d a b
  | .sub d a b => srWord 0x00 1 d a b
  | .and d a b => srWord 0x00 2 d a b
  | .or d a b => srWord 0x00 3 d a b
  | .xor d a b => srWord 0x00 4 d a b
  | .andn d a b => srWord 0x00 5 d a b
  | .sll d a b => srWord 0x00 6 d a b
  | .srl d a b => srWord 0x00 7 d a b
  | .sra d a b => srWord 0x00 8 d a b
  | .slt d a b => srWord 0x00 9 d a b
  | .sltu d a b => srWord 0x00 10 d a b
  | .min d a b => srWord 0x00 11 d a b
  | .max d a b => srWord 0x00 12 d a b
  | .minu d a b => srWord 0x00 13 d a b
  | .maxu d a b => srWord 0x00 14 d a b
  | .mul d a b => srWord 0x00 15 d a b
  | .mulh d a b => srWord 0x00 16 d a b
  | .mulhu d a b => srWord 0x00 17 d a b
  | .div d a b => srWord 0x00 18 d a b
  | .divu d a b => srWord 0x00 19 d a b
  | .rem d a b => srWord 0x00 20 d a b
  | .remu d a b => srWord 0x00 21 d a b
  | .clz d a => srWord 0x00 22 d a 0
  | .ctz d a => srWord 0x00 23 d a 0
  | .popc d a => srWord 0x00 24 d a 0
  | .bswap d a => srWord 0x00 25 d a 0
  | .sextb d a => srWord 0x00 26 d a 0
  | .sexth d a => srWord 0x00 27 d a 0
  | .sextw d a => srWord 0x00 28 d a 0
  | .pref a => srWord 0x1C 0 0 a 0
  | .cflush a b => srWord 0x1C 1 0 a b
  | .cinv a b => srWord 0x1C 2 0 a b
  | .czero a b => srWord 0x1C 3 0 a b
  | .amoswap d a b => srWord 0x20 0 d a b
  | .amoadd d a b => srWord 0x20 1 d a b
  | .amoand d a b => srWord 0x20 2 d a b
  | .amoor d a b => srWord 0x20 3 d a b
  | .amoxor d a b => srWord 0x20 4 d a b
  | .amomin d a b => srWord 0x20 5 d a b
  | .amomax d a b => srWord 0x20 6 d a b
  | .amominu d a b => srWord 0x20 7 d a b
  | .amomaxu d a b => srWord 0x20 8 d a b
  | .amofadds d a b => srWord 0x20 9 d a b
  | .amofaddd d a b => srWord 0x20 10 d a b
  | .redadd a b => srWord 0x21 0 0 a b
  | .redand a b => srWord 0x21 1 0 a b
  | .redor a b => srWord 0x21 2 0 a b
  | .redxor a b => srWord 0x21 3 0 a b
  | .redmin a b => srWord 0x21 4 0 a b
  | .redmax a b => srWord 0x21 5 0 a b
  | .redminu a b => srWord 0x21 6 0 a b
  | .redmaxu a b => srWord 0x21 7 0 a b
  | .redfadds a b => srWord 0x21 8 0 a b
  | .redfaddd a b => srWord 0x21 9 0 a b
  | .alb a => srWord 0x22 0 0 a 0
  | .ale d => srWord 0x22 1 d 0 0
  | .acq d a => srWord 0x23 0 d a 0
  | .rel d a b => srWord 0x23 1 d a b
  | .cbar => srWord 0x23 3 0 0 0
  | .bcwait d a b => srWord 0x23 5 d a b
  | .mbwait d a => srWord 0x23 8 d a 0
  | .mback a b => srWord 0x23 9 0 a b
  | .cpy d a => srWord 0x28 0 d a 0
  | .cpyb d a => srWord 0x28 1 d a 0
  | .gath d a => srWord 0x28 2 d a 0
  | .scat d a => srWord 0x28 3 d a 0
  | .wstr d a => srWord 0x28 4 d a 0
  | .lease d => srWord 0x28 5 d 0 0
  | .unlease => srWord 0x28 6 0 0 0
  | .dload d a => srWord 0x28 7 d a 0
  | .fxput d a => srWord 0x29 0 d a 0
  | .fxred d a => srWord 0x29 1 d a 0
  | .step d => srWord 0x29 2 d 0 0
  | .stepnb d => srWord 0x29 3 d 0 0
  | .stepwt d a => srWord 0x29 4 d a 0
  | .fxstat d a => srWord 0x29 5 d a 0
  | .spawn a b => srWord 0x30 0 0 a b
  | .jdec a b => srWord 0x30 1 0 a b
  | .exit => srWord 0x30 2 0 0 0
  | .yield d => srWord 0x30 3 d 0 0
  | .tcoord d => srWord 0x30 4 d 0 0
  | .gridid d => srWord 0x30 5 d 0 0
  | .eret => srWord 0x31 0 0 0 0
  | .brk => srWord 0x31 1 0 0 0
  | .wfe d a => srWord 0x31 2 d a 0
  | .pdone d a => srWord 0x31 3 d a 0
  | .halt => srWord 0x31 4 0 0 0
  | .qpop d q => srWord 0x17 0 d (q.setWidth 6) 0
  | .amocas d a b => srWord 0x20 11 d a b
  | .fence sc => srWord 0x23 2 0 (BitVec.ofNat 6 sc.code) 0
  | .sobind d a b => srWord 0x23 4 d a b
  | .waittl t b => srWord 0x23 6 0 (BitVec.ofNat 6 t.code) b
  | .tlrd d t issued => srWord 0x23 7 d (BitVec.ofNat 6 (t.code + 8 * issued.toNat)) 0
  | .addi d a imm => siWord 0x01 d a imm.toNat
  | .andi d a imm => siWord 0x02 d a imm.toNat
  | .ori d a imm => siWord 0x03 d a imm.toNat
  | .xori d a imm => siWord 0x04 d a imm.toNat
  | .slti d a imm => siWord 0x05 d a imm.toNat
  | .sltiu d a imm => siWord 0x06 d a imm.toNat
  | .slli d a sh => siWord 0x07 d a sh.toNat
  | .srli d a sh => siWord 0x07 d a (2048 + sh.toNat)
  | .srai d a sh => siWord 0x07 d a (4096 + sh.toNat)
  | .lui d imm => suWord 0x08 d imm
  | .aupc d imm => suWord 0x09 d imm
  | .beq a b off => sbWord 0 a b off
  | .bne a b off => sbWord 1 a b off
  | .blt a b off => sbWord 2 a b off
  | .bge a b off => sbWord 3 a b off
  | .bltu a b off => sbWord 4 a b off
  | .bgeu a b off => sbWord 5 a b off
  | .jal d off => suWord 0x0B d off
  | .jalr d a imm => siWord 0x0C d a imm.toNat
  | .ldb d a imm => siWord 0x10 d a imm.toNat
  | .ldbu d a imm => siWord 0x11 d a imm.toNat
  | .ldh d a imm => siWord 0x12 d a imm.toNat
  | .ldhu d a imm => siWord 0x13 d a imm.toNat
  | .ldw d a imm => siWord 0x14 d a imm.toNat
  | .ldwu d a imm => siWord 0x15 d a imm.toNat
  | .ldd d a imm => siWord 0x16 d a imm.toNat
  | .stb d a imm => siWord 0x18 d a imm.toNat
  | .sth d a imm => siWord 0x19 d a imm.toNat
  | .stw d a imm => siWord 0x1A d a imm.toNat
  | .std d a imm => siWord 0x1B d a imm.toNat
  | .waitc ld st cp tile => siWord 0x24 0 0 (ld.toNat + 8 * st.toNat + 64 * cp.toNat + 512 * tile.toNat)
  | .csrr d c => siWord 0x32 d 0 c.number
  | .csrw d a c => siWord 0x33 d a c.number
  | .csrs d a c => siWord 0x34 d a c.number
  | .csrc d a c => siWord 0x35 d a c.number
  | .trap code => siWord 0x36 0 0 code.toNat
  | .msave a b => matrixWord 0x08 { MWord.zero with aFirst := a, aSecond := b }
  | .mrstr a b => matrixWord 0x09 { MWord.zero with aFirst := a, aSecond := b }
  | .mstat d => matrixWord 0x0A { MWord.zero with aFirst := d }
  | _ => []

/-- The parcels of an instruction word; [] for an event, which has none. -/
def encode (i : Instr) : List Parcel :=
  match i.vparts with
  | some (op, w) => vectorWord op w
  | none =>
    match i.mparts with
    | some (op, w) => matrixWord op.code w
    | none => encodeScalar i

end Sys2Proof
end

