-- ==== Sys2Proof/Machine/Csr.lean ====
section
/-! DEFINITION. The CSR instructions (R167 to R174) and every register of R171: what each reads, which fields a write
changes, and the ring each needs. -/

namespace Sys2Proof.Machine

/-- The lowest ring that may access a CSR (R170, R171). -/
def csrRing : Csr → Ring
  | .trapReg .d _ | .dbgctl | .dbgstat => .d
  | .trapReg .h _ | .pbudget | .shareack | .vfid => .h
  | .trapReg .m _ | .world => .m
  | _ => .u

/-- The CSR number of R171, as the detail of RING_VIOLATION. -/
def csrNumber : Csr → Nat
  | .fpflags => 0x000 | .rng => 0x001 | .gtag => 0x002 | .leaserun => 0x003 | .engfault => 0x004
  | .engfaddr => 0x005 | .vtaglo => 0x008 | .vtaghi => 0x009 | .mtag => 0x00A | .atag => 0x00B
  | .audit => 0x010 | .cycle => 0x011 | .retired => 0x012 | .ptpns => 0x013
  | .trapReg .d .tvec => 0x100 | .trapReg .d .epc => 0x101 | .trapReg .d .cause => 0x102
  | .trapReg .d .tval => 0x103 | .trapReg .d .status => 0x104 | .trapReg .d .scratch => 0x105
  | .trapReg .h .tvec => 0x200 | .trapReg .h .epc => 0x201 | .trapReg .h .cause => 0x202
  | .trapReg .h .tval => 0x203 | .trapReg .h .status => 0x204 | .trapReg .h .scratch => 0x205
  | .trapReg .m .tvec => 0x300 | .trapReg .m .epc => 0x301 | .trapReg .m .cause => 0x302
  | .trapReg .m .tval => 0x303 | .trapReg .m .status => 0x304 | .trapReg .m .scratch => 0x305
  | .dbgctl => 0x110 | .dbgstat => 0x111 | .pbudget => 0x208 | .shareack => 0x209 | .vfid => 0x20A
  | .world => 0x308

/-- A vector register's, tile register's or stream register's tag. -/
def Regs.vTag (r : Regs) (n : Nat) : Fmt := Map.get .raw r.vtag n
def Regs.mTag (r : Regs) (n : Nat) : Fmt := Map.get .raw r.mtag n
def Regs.queue (r : Regs) (n : Nat) : QReg := Map.get {} r.q n

/-- Tags packed four bits each from bit `lo` (R152). -/
def packTags (tag : Nat → Fmt) (n lo : Nat) : Nat :=
  (List.range n).foldl (fun x i => x + (tag i).code.toNat * 2 ^ (lo + 4 * i)) 0

def allTLs : List TL := [.cp, .ga, .ws, .fx, .mx]

/-- ctl.dbgstat (R373). -/
def Ctx.dbgstat (c : Ctx) : Word :=
  let pend := ((List.range 5).zip allTLs).foldl (fun x e => if (c.timeline e.2).mark = 0 then x else x + 2 ^ e.1) 0
  let busy := allTLs.any (fun t => decide ((c.timeline t).done < (c.timeline t).issued))
  BitVec.ofNat 64 (pend + 32 * c.ctl.lastTl + 256 * busy.toNat + 4294967296 * (c.ctl.lastNum % 4294967296))

def TrapRegs.read (t : TrapRegs) : TReg → Word
  | .tvec => t.tvec | .epc => t.epc | .cause => t.cause | .tval => t.tval | .status => t.status
  | .scratch => t.scratch

def TrapRegs.write (t : TrapRegs) (r : TReg) (v : Word) : TrapRegs :=
  match r with
  | .tvec => { t with tvec := v } | .epc => { t with epc := v } | .cause => { t with cause := v }
  | .tval => { t with tval := v } | .status => { t with status := v } | .scratch => { t with scratch := v }

/-- What a CSR reads on the turn's core (R172, R174). -/
def State.csrRead (s : State) (r : Csr) : Word :=
  let core := s.turn
  let c := s.core core
  let x := c.ctx
  match r with
  | .fpflags => x.ctl.fpflags.setWidth 64
  | .rng => x.ctl.rng
  | .gtag => x.ctl.gtag
  | .leaserun => x.ctl.leaserun
  | .engfault => x.ctl.engfault
  | .engfaddr => x.ctl.engfaddr
  | .vtaglo => BitVec.ofNat 64 (packTags (fun i => x.regs.vTag i) 16 0)
  | .vtaghi => BitVec.ofNat 64 (packTags (fun i => x.regs.vTag (16 + i)) 16 0)
  | .mtag => BitVec.ofNat 64 (packTags x.regs.mTag 8 0 + packTags (fun i => (x.regs.queue i).fmt) 8 32)
  | .atag =>
    BitVec.ofNat 64 (packTags (fun i => Map.get .raw (s.cluster (clusterOf core)).array.seen i) 8 0)
  | .audit =>
    let cl := s.cluster (clusterOf core)
    BitVec.ofNat 64 (cl.auditSeq % 2 ^ 32 + 2 ^ 32 * clusterOf core + 2 ^ 38 * cl.fenced.toNat)
  | .cycle => s.time.cycle
  | .retired => x.ctl.retired
  | .ptpns => s.time.ptpns
  | .trapReg h t => (c.trapRegs h).read t
  | .dbgctl => x.ctl.dbgctl
  | .dbgstat => x.dbgstat
  | .pbudget => (s.vfOf core).pbudget
  | .shareack =>
    let sl := s.slice (sliceOf core)
    BitVec.ofNat 64 (sl.ackSeq % 65536 + 65536 * (!sl.shareQ.isEmpty).toNat)
  | .vfid =>
    BitVec.ofNat 64 ((s.teamOf core).vf % 8 + 16 * ((s.vfOf core).taskPasid % 2 ^ 20) + 2 ^ 24 * (sliceOf core % 8)
      + 2 ^ 27 * (c.ctx.ring == .m || s.home.world.getLsbD (sliceOf core)).toNat)
  | .world => s.home.world

/-- The bits of a CSR that software writes (RW), and those that a written one clears (W1C) (R29, R76, R126, R151,
R214, R337, R338, R351, R373, R396). -/
def csrFields : Csr → Word × Word
  | .fpflags => (0, 0x7F)
  | .rng => (BitVec.allOnes 64, 0)
  | .gtag => (0x1FFFF, 0)
  | .leaserun => (0x7F, 0)
  | .engfault => (0, 3)
  | .trapReg _ .tvec => (~~~3, 0)
  | .trapReg _ .epc => (BitVec.allOnes 64, 0)
  | .trapReg _ .tval => (BitVec.allOnes 64, 0)
  | .trapReg _ .scratch => (BitVec.allOnes 64, 0)
  | .trapReg _ .cause => (0xFFFFFFFF0001FFFF, 0)
  | .trapReg .d .status => (0x1F, 0)
  | .trapReg _ .status => (0xF, 0)
  | .dbgctl => (3, 0)
  | .pbudget => (0x3FFFFF, 0)
  | .world => (0x8000000001FFFFFF, 0)
  | _ => (0, 0)

/-- The four CSR operations. -/
inductive CsrOp where
  | read | write | set | clear
  deriving DecidableEq, Repr

/-- The value a register receives, field by field (R169). -/
def csrValue (op : CsrOp) (old v rw w1c : Word) : Word :=
  let rwNew := match op with
    | .read => old
    | .write => v
    | .set => old ||| v
    | .clear => old &&& ~~~v
  let w1cNew := match op with
    | .write | .clear => old &&& ~~~v
    | _ => old
  (old &&& ~~~(rw ||| w1c)) ||| (rwNew &&& rw) ||| (w1cNew &&& w1c)

/-- Does a slice hold a team or a queued record (R396)? -/
def State.sliceBusy (s : State) (n : Nat) : Bool :=
  (List.range 8).any (fun j => (s.cluster (8 * n + j)).team != 0)
  || (s.slice n).queues.any (fun e => !e.2.isEmpty)

/-- A write of ctl.world: ignored while LOCK is 1; a SLICE or DTC bit of a busy slice keeps its value (R396). -/
def State.worldValue (s : State) (v : Word) : Word :=
  let old := s.home.world
  if old.getLsbD 63 then old
  else
    (List.range 8).foldl (fun (w : Word) n =>
      if s.sliceBusy n then
        let m : Word := BitVec.ofNat 64 (2 ^ n + 2 ^ (8 + n))
        (w &&& ~~~m) ||| (old &&& m)
      else w) v

/-- Write a CSR of the turn's core. -/
def State.csrWrite (s : State) (r : Csr) (v : Word) : State :=
  let ctl (f : Ctl → Ctl) : State := s.onCtx s.turn (fun c => { c with ctl := f c.ctl })
  match r with
  | .fpflags => ctl (fun c => { c with fpflags := v.setWidth 7 })
  | .rng => ctl (fun c => { c with rng := v })
  | .gtag => ctl (fun c => { c with gtag := v })
  | .leaserun => ctl (fun c => { c with leaserun := v })
  | .engfault => ctl (fun c => { c with engfault := v })
  | .trapReg h t => s.onCore s.turn (fun c => c.setTrapRegs h ((c.trapRegs h).write t v))
  | .dbgctl => ctl (fun c => { c with dbgctl := v })
  | .pbudget => s.onVf (s.teamOf s.turn).vf (fun x => { x with pbudget := v })
  | .world => s.onHome (fun h => { h with world := s.worldValue v })
  | _ => s

/-- A CSR instruction (R168): `v` is none for CSRR; CSRS and CSRC of s0 make no write. -/
def csrOp (op : CsrOp) (d a : SReg) (r : Csr) (s : State) : Host.Outcome State Fault Refusal :=
  let s0 := s.breaking
  let ring := (s0.ctx s0.turn).ring
  if ring.rank < (csrRing r).rank then .next (s0.takeSync s0.turn (tRing (csrNumber r)))
  else
    let old := s0.csrRead r
    let writes := op == .write || (op != .read && a != 0)
    let (rw, w1c) := csrFields r
    let s1 := if writes then s0.csrWrite r (csrValue op old (s0.rs a) rw w1c) else s0
    .next (((s1.onCtx s1.turn (·.setS d old)).retireTo ((s0.ctx s0.turn).pc + 4) ring (s0.ctx s0.turn).pc))

def execCsrr (d : SReg) (r : Csr) (s : State) := csrOp .read d 0 r s
def execCsrw (d a : SReg) (r : Csr) (s : State) := csrOp .write d a r s
def execCsrs (d a : SReg) (r : Csr) (s : State) := csrOp .set d a r s
def execCsrc (d a : SReg) (r : Csr) (s : State) := csrOp .clear d a r s

end Sys2Proof.Machine
end

