-- ==== Sys2Proof/Machine/Timeline.lean ====
section
/-! DEFINITION. Reads of stream registers (R118 to R120), timelines (R127 to R130) and the outstanding counters
(R131, R132). -/

namespace Sys2Proof.Machine

/-- The bytes of one element of a stream register. -/
def QReg.width (q : QReg) : Nat := fmtBytes q.fmt

/-- The commands bound to a stream register that have elements still to deliver. -/
def Ctx.bound (c : Ctx) (q : Nat) : List EngCmd :=
  (c.queue 0).filter (fun e => e.kind = .cpyb && !e.moved && bitsOf e.g0.toNat 0 3 == q)

/-- The bytes of the first `n` elements: one for each of those that are narrow, else `width` (R117). -/
def QReg.span (q : QReg) (n : Nat) : Nat :=
  ((q.narrow.take n).map (fun b => if b then 1 else q.width)).sum + (n - q.narrow.length) * q.width

/-- How many elements a stream register holds. -/
def QReg.count (q : QReg) : Nat :=
  q.narrow.length + (q.bytes.length - q.span q.narrow.length) / q.width

/-- An element joins the others: single bytes of padded groups under a wider tag are marked. -/
def QReg.push (q : QReg) (el : List Byte) : QReg :=
  { q with
    bytes := q.bytes ++ el
    narrow := if el.length = q.width then q.narrow
      else q.narrow ++ List.replicate (q.count - q.narrow.length) false ++ [true] }

/-- How many elements a read can take before the end of a faulted command's delivery, and whether one stands there
that a set tl.cp mark makes it stop at. -/
def QReg.available (q : QReg) (marked : Bool) : Nat × Bool :=
  let n := q.count
  match marked, q.faults with
  | true, f :: _ => (min f n, true)
  | _, _ => (n, false)

/-- The register after `n` elements have been read. -/
def QReg.drop (q : QReg) (n : Nat) : QReg :=
  { q with
    bytes := q.bytes.drop (q.span n)
    narrow := q.narrow.drop n
    faults := (q.faults.filter (fun f => decide (n ≤ f))).map (· - n) }

/-- The first elements of a byte list, `w` bytes each, or one byte where they are narrow. -/
def elementsOf (w : Nat) : Nat → List Bool → List Byte → List Nat
  | 0, _, _ => []
  | n + 1, narrow, bs =>
    let k := if narrow.headD false then 1 else w
    leNat (bs.take k) :: elementsOf w n narrow.tail (bs.drop k)

/-- What stops a read of `n` elements of a stream register (R119): an unreported fault, an empty register with nothing
bound, or a wait for a bound command; none where the elements are there. DESIGN CHOICE (assumption 27): where the commands
still bound cannot supply what is missing, the read waits until none is bound, and STREAM_EMPTY or the fault comes then. -/
def State.streamStop (s : State) (core q n : Nat) : Option Stop :=
  let c := s.ctx core
  let r := c.regs.queue q
  let (have_, stop) := r.available ((c.timeline .cp).mark ≠ 0)
  if n ≤ have_ then none
  else if stop then some (.trap (s.onCtx core (·.report .cp)) tEngine)
  else if (c.bound q).isEmpty then some (.trap s (tStreamEmpty q))
  else some (.wait s)

/-- The marks of bad words after `n` bytes of a stream register have been read. -/
def BadReg.shift (q n : Nat) : BadReg → Option BadReg
  | .q j i => if j = q then (if n ≤ i then some (.q j (i - n)) else none) else some (.q j i)
  | b => some b

/-- Pop `n` elements that are there. -/
def State.streamTake (s : State) (core q n : Nat) : State × List Nat :=
  let r := (s.ctx core).regs.queue q
  (s.onCtx core (fun c => { c with regs := { c.regs with
      q := Map.set {} c.regs.q q (r.drop n), bad := c.regs.bad.filterMap (·.shift q (r.span n)) } }),
    elementsOf r.width n r.narrow r.bytes)

/-- Does a read of `n` elements of a stream register take a word that fails its ECC (R148)? -/
def Regs.streamBad (r : Regs) (q n : Nat) : Bool :=
  r.bad.any (fun b => match b with
    | .q j i => j == q && decide (i < (r.queue q).span n)
    | _ => false)

/-- Read `n` elements, all or none. -/
def State.streamRead (s : State) (core q n : Nat) : Except Stop (State × List Nat) :=
  match s.streamStop core q n with
  | some x => .error x
  | none => .ok (s.streamTake core q n)

/-- QPOP (R120). -/
def execQpop (d : SReg) (q : BitVec 3) (s : State) : Host.Outcome State Fault Refusal :=
  let s := s.breaking
  s.finish (do
    let bad := (s.ctx s.turn).regs.streamBad q.toNat 1
    let (s, xs) ← s.streamRead s.turn q.toNat 1
    if bad then .ok ((s.consumeLocal s.turn 0).retire 4)
    else .ok ((s.onCtx s.turn (·.setS d (BitVec.ofNat 64 (xs.headD 0)))).retire 4))

/-- WAITTL (R129). -/
def execWaittl (t : TL) (b : SReg) (s : State) : Host.Outcome State Fault Refusal :=
  let s := s.breaking
  let n := (s.rs b).toNat
  let x := (s.ctx s.turn).timeline t
  s.finish (
    if x.issued < n then trapE s (tAhead (s.rs b))
    else if x.done < n then waitE s
    else if x.mark ≠ 0 ∧ x.mark ≤ n then trapE (s.onCtx s.turn (·.report t)) tEngine
    else .ok (s.retire 4))

/-- TLRD (R130). -/
def execTlrd (d : SReg) (t : TL) (issued : Bool) (s : State) : Host.Outcome State Fault Refusal :=
  let s := s.breaking
  let x := (s.ctx s.turn).timeline t
  s.writeRetire d (BitVec.ofNat 64 (if issued then x.issued else x.done))

/-- Is a counter at or below a limit of WAITC (R132)? -/
def underLimit (l : BitVec 3) (c : BitVec 16) : Bool := l == 7 || decide (c.toNat ≤ l.toNat)

/-- WAITC (R132). -/
def execWaitc (ld st cp tile : BitVec 3) (s : State) : Host.Outcome State Fault Refusal :=
  let s := s.breaking
  let c := s.ctx s.turn
  if underLimit ld c.loads && underLimit st c.stores && underLimit cp c.copies && underLimit tile c.tiles then
    .next (s.retire 4)
  else .next s

/-- Give a new command the next number of its timeline (R113, R206, R279). -/
def Ctx.number (c : Ctx) (t : TL) : Ctx × Nat :=
  let n := (c.timeline t).issued + 1
  let c := c.onTimeline t (fun x => { x with issued := n })
  ({ c with ctl := { c.ctl with lastTl := t.code, lastNum := n } }, n)

/-- A numbered command counts as completed: done may rise, which WFE sees (R127, R348). -/
def Ctx.completeNum (c : Ctx) (t : TL) (n : Nat) : Ctx :=
  let old := (c.timeline t).done
  let c := c.onTimeline t (·.complete n)
  if (c.timeline t).done = old then c else c.wake 0

end Sys2Proof.Machine
end

