-- ==== Sys2Proof/Machine/Engines.lean ====
section
/-! DEFINITION. The copy, gather/scatter and weight-stream engines (R109 to R128, R229, R230): the checks at issue,
one burst of a command, faults inside an engine, completion. -/

namespace Sys2Proof.Machine

/-! ### Issue (R113) -/

/-- A command group that a check refuses, with the tval of R420, or an address that lies outside its space. -/
inductive CmdErr where
  | invalid (reg bit kind : Nat)
  | address (a : Nat)

/-- Bits that must be zero: refused at the lowest one set. -/
def mustZero (g : Word) (reg lo n : Nat) : Except CmdErr Unit :=
  let x := bitsOf g.toNat lo n
  if x = 0 then .ok () else .error (.invalid reg (lo + trailingZerosFrom n 0 x) 0)

def mustHold (b : Bool) (e : CmdErr) : Except CmdErr Unit := if b then .ok () else .error e

/-- A range that an engine may use: translated memory or the local scratchpad window, not crossing (R111). -/
def engRange (a n : Nat) : Bool := rangeIn .memory a n || rangeIn .localSp a n

def inMem (a n : Nat) : Bool := rangeIn .memory a n
def inSp (a n : Nat) : Bool := rangeIn .localSp a n

/-- The fields of CPY and CPYB (R115, R117). -/
def cpSp (c : EngCmd) : Nat := bitsOf c.g2.toNat 0 32
def cpDp (c : EngCmd) : Nat := bitsOf c.g2.toNat 32 32
def cpLen (c : EngCmd) : Nat := bitsOf c.g3.toNat 0 24
def cpRows (c : EngCmd) : Nat := let r := bitsOf c.g3.toNat 24 16; if r = 0 then 1 else r
def cpXf (c : EngCmd) : Nat := bitsOf c.g3.toNat 40 2

/-- Source and destination group bytes of a transform. -/
def xfIn (xf : Nat) : Nat := match xf with | 1 => 25 | 2 => 33 | _ => 1
def xfOut (xf : Nat) : Nat := match xf with | 1 => 33 | 2 => 25 | _ => 1

/-- Destination bytes per row. -/
def cpDl (c : EngCmd) : Nat := cpLen c / xfIn (cpXf c) * xfOut (cpXf c)

/-- The bytes from the first byte to the last byte of the last row (R116). -/
def extent (pitch rows len : Nat) : Nat := if len = 0 then 0 else (rows - 1) * pitch + len

/-- The fields of CPYB's destination register (R117). -/
def cbQ (c : EngCmd) : Nat := bitsOf c.g0.toNat 0 3
def cbFmt (c : EngCmd) : Option Fmt := Fmt.ofCode (bitsOf c.g0.toNat 8 4)

/-- The fields of GATH and SCAT (R121). -/
def gaCount (c : EngCmd) : Nat := bitsOf c.g3.toNat 0 16
def gaZ (c : EngCmd) : Nat := 2 ^ bitsOf c.g3.toNat 16 3
def gaIw (c : EngCmd) : Nat := if c.g3.getLsbD 19 then 8 else 4
def gaSkip (c : EngCmd) : Bool := c.g3.getLsbD 20

/-- The fields of WSTR (R123). -/
def wsSlot (c : EngCmd) : Nat := bitsOf c.g0.toNat 0 3
def wsLimit (c : EngCmd) : Nat := bitsOf c.g2.toNat 0 32
def wsFmt (c : EngCmd) : Fmt := (Fmt.ofCode (bitsOf c.g3.toNat 0 4)).getD .raw
def wsScl (c : EngCmd) : Bool := c.g3.getLsbD 4
def wsElide (c : EngCmd) : Bool := c.g3.getLsbD 5
def wsTight (c : EngCmd) : Bool := c.g3.getLsbD 6

/-- The fields of DLOAD (R229). -/
def dlDst (c : EngCmd) : Nat := bitsOf c.g0.toNat 0 9
def dlCount (c : EngCmd) : Nat := bitsOf c.g2.toNat 0 10

/-- The checks of CPY (R115, R116). -/
def checkCpy (c : EngCmd) : Except CmdErr Unit := do
  let xf := cpXf c
  let se := extent (cpSp c) (cpRows c) (cpLen c)
  let de := extent (cpDp c) (cpRows c) (cpDl c)
  let d := c.g0.toNat
  let a := c.g1.toNat
  mustHold (xf != 3) (.invalid 3 40 0)
  mustZero c.g3 3 42 22
  mustHold (cpLen c % xfIn xf == 0) (.invalid 3 0 1)
  mustHold (match xf with
    | 1 => spaceOf a != .localSp && spaceOf d != .memory
    | 2 => spaceOf a != .memory && spaceOf d != .localSp
    | _ => true) (.invalid 0 0 1)
  if cpLen c = 0 then .ok ()
  else
    let same := (inMem a se && inMem d de) || (inSp a se && inSp d de)
    mustHold (!(same && rangesMeet a se d de)) (.invalid 0 0 1)
    mustHold (engRange d de) (.address d)
    mustHold (engRange a se) (.address a)

/-- The checks of CPYB (R117). -/
def checkCpyb (x : Ctx) (c : EngCmd) : Except CmdErr Unit := do
  let xf := cpXf c
  let q := x.regs.queue (cbQ c)
  let se := extent (cpSp c) (cpRows c) (cpLen c)
  mustZero c.g0 0 3 5
  match cbFmt c with
  | none => .error (.invalid 0 8 0)
  | some f =>
    mustHold (f != .raw) (.invalid 0 8 0)
    mustZero c.g0 0 12 52
    mustHold (decide (xf < 2)) (.invalid 3 40 0)
    mustZero c.g3 3 42 22
    mustHold (!(f != q.fmt && (!q.bytes.isEmpty || !(x.bound (cbQ c)).isEmpty))) (.invalid 0 0 1)
    mustHold (cpDl c % fmtBytes f == 0) (.invalid 0 8 1)
    mustHold (cpLen c % xfIn xf == 0) (.invalid 3 0 1)
    mustHold (cpLen c == 0 || engRange c.g1.toNat se) (.address c.g1.toNat)

/-- The checks of GATH and SCAT (R121). -/
def checkGa (gath : Bool) (c : EngCmd) : Except CmdErr Unit := do
  let n := gaCount c
  let base := if gath then c.g0.toNat else c.g1.toNat
  mustZero c.g3 3 21 43
  mustHold (c.g2.toNat % gaIw c == 0) (.invalid 2 0 1)
  mustHold (n == 0 || engRange base (n * gaZ c)) (.address base)
  mustHold (if n = 0 then decide (spaceOf c.g2.toNat = .localSp) else inSp c.g2.toNat (n * gaIw c)) (.address c.g2.toNat)

/-- The checks of WSTR (R123). -/
def checkWstr (c : EngCmd) : Except CmdErr Unit := do
  let f := Fmt.ofCode (bitsOf c.g3.toNat 0 4)
  mustZero c.g0 0 3 61
  mustHold (wsLimit c != 0) (.invalid 2 0 0)
  mustZero c.g2 2 32 32
  mustHold (match f with | none | some .raw | some .int32 | some .e8 => false | _ => true) (.invalid 3 0 0)
  mustZero c.g3 3 7 57
  mustHold (!wsScl c || scalable (wsFmt c)) (.invalid 3 0 1)
  mustHold (!wsTight c || (is6bit (wsFmt c) && wsScl c)) (.invalid 3 0 1)
  mustHold (inMem c.g1.toNat (wsLimit c)) (.address c.g1.toNat)

/-- The checks of DLOAD (R229). -/
def checkDload (c : EngCmd) : Except CmdErr Unit := do
  mustZero c.g0 0 9 55
  mustZero c.g2 2 10 54
  mustZero c.g3 3 0 64
  mustHold (decide (dlDst c + dlCount c ≤ 512)) (.invalid 0 0 1)
  mustHold (c.g1.toNat % 4 == 0) (.invalid 1 0 1)
  mustHold (dlCount c == 0 || engRange c.g1.toNat (4 * dlCount c)) (.address c.g1.toNat)

def checkCmd (x : Ctx) (c : EngCmd) : Except CmdErr Unit :=
  match c.kind with
  | .cpy => checkCpy c
  | .cpyb => checkCpyb x c
  | .gath => checkGa true c
  | .scat => checkGa false c
  | .wstr => checkWstr c
  | .dload => checkDload c
  | .fxput | .fxred => .ok ()

/-- Does the command move no data (R114)? -/
def EngCmd.isEmpty (c : EngCmd) : Bool :=
  match c.kind with
  | .cpy | .cpyb => cpLen c == 0
  | .gath | .scat => gaCount c == 0
  | .dload => dlCount c == 0
  | _ => false

/-- The slots that a queued matrix instruction has still to fetch B from, over the repeats that remain (R123, R125,
R218). -/
def MxInstr.slots (m : MxInstr) : List Nat :=
  match m.insn with
  | .mma w =>
    if w.bKind = 2 then
      let s0 := 4 * (w.bTile.toNat % 2) + w.slot.toNat
      let left := (List.range (max 1 w.rep.toNat)).filter (fun r => decide (m.rep < r) || (m.rep == r && !m.stepped))
      left.map (fun r => if w.advB then (s0 + r) % 8 else s0)
    else []
  | _ => []

/-- Issue an engine command (R113): `kind` and the registers of its word. -/
def State.issueEngine (s : State) (kind : EKind) (d a : SReg) : Res :=
  let core := s.turn
  let x := s.ctx core
  let g (i : Nat) : Word := x.rs (sregAdd a i)
  let slot := bitsOf (g 0).toNat 0 3
  let c : EngCmd := {
    num := 0, kind := kind, g0 := g 0, g1 := g 1, g2 := g 2, g3 := g 3
    pasid := s.pasidOf core true
    gtag := BitVec.ofNat 64 (s.gtagOf core)
    order := s.time.tick
    after := if kind = .wstr then
        ((s.cluster (clusterOf core)).array.queue.filter (fun m => m.slots.contains slot)).map (fun m => (m.member, m.num))
      else [] }
  match checkCmd x c with
  | .error (.invalid reg bit k) => trapE s (tCommand reg bit (sregAdd a reg).toNat k)
  | .error (.address n) => trapE s (tAddress n)
  | .ok () =>
    let q := kind.queue
    if 16 ≤ (x.queue q).length ∨ x.copies = 0xFFFF then waitE s
    else
      let (x, n) := x.number kind.tl
      let x := x.setS d (BitVec.ofNat 64 n)
      let x := match kind, cbFmt c with
        | .cpyb, some f => { x with regs := { x.regs with q := Map.modify {} x.regs.q (cbQ c) (fun r => { r with fmt := f }) } }
        | _, _ => x
      let x := if c.isEmpty then x.completeNum kind.tl n
        else { (x.setQueue q (x.queue q ++ [{ c with num := n }])) with copies := x.copies + 1 }
      .ok ((s.setCtx core x).retire 4)

def engineOp (kind : EKind) (d a : SReg) (s : State) : Host.Outcome State Fault Refusal :=
  s.finish (s.breaking.issueEngine kind d a)

def execCpy (d a : SReg) (s : State) := engineOp .cpy d a s
def execCpyb (d a : SReg) (s : State) := engineOp .cpyb d a s
def execGath (d a : SReg) (s : State) := engineOp .gath d a s
def execScat (d a : SReg) (s : State) := engineOp .scat d a s
def execWstr (d a : SReg) (s : State) := engineOp .wstr d a s
def execDload (d a : SReg) (s : State) := engineOp .dload d a s

/-! ### Reading and writing for an engine -/

/-- Who acts: the team and member, with the core and cluster they stand on, its node, the address space, the requester class of R382, and whether a
read allocates the line in L2 (R78). -/
structure Agent where
  req   : Req
  slice : Nat
  cl    : Nat
  team  : Nat
  m     : Nat
  core  : Nat
  pasid : Nat
  cls   : Nat
  alloc : Bool

/-- What an engine's access met: a translation pending, or a fault with its code, its address and the error. -/
inductive EngErr where
  | park (s : State)
  | fault (s : State) (code addr : Nat) (line : Option (Nat × HErr)) (onChip : Bool)

def Agent.secure (e : Agent) (s : State) : Bool := s.home.world.getLsbD e.slice

def State.engTr (s : State) (e : Agent) (va : Nat) (write : Bool) : Except EngErr Nat :=
  match s.translate e.req e.slice e.pasid va write with
  | .ok pa => .ok pa
  | .stall s => .error (.park s)
  | .refused s => .error (.fault s 1 va none false)

/-- The fault that an error at a home line makes (R126). -/
def herrFault (s : State) (va : Nat) (line : Nat) (e : HErr) : EngErr :=
  .fault s (match e with | .ue _ => 2 | .abort => 3) va (some (line, e)) false

/-- Read bytes for an engine (R111). -/
def State.engRead (s : State) (e : Agent) (addr n : Nat) : Except EngErr (State × List Byte) :=
  if inSp addr n then
    let st := (s.cluster e.cl).store
    if st.spBadIn (spOff addr) n then .error (.fault s 2 addr none true)
    else .ok (s, st.spGet (spOff addr) n)
  else
    foldE (fun (x : State × List Byte) (p : Nat × Nat) => do
      let pa ← x.1.engTr e p.1 false
      match x.1.readErr (e.secure x.1) e.team pa p.2 with
      | some (l, err) => .error (herrFault x.1 (p.1 + (l * 128 - pa)) l err)
      | none =>
        let s := if e.alloc then x.1.touchRead pa p.2 else x.1
        .ok (s, x.2 ++ s.view e.team pa p.2)) (s, []) (pageSegs addr n)

/-- A fault of a piece is at no byte before the piece. -/
def EngErr.notBefore (src : Nat) : EngErr → EngErr
  | .fault s code addr line u => .fault s code (max addr src) line u
  | x => x

/-- `m` bytes at `src`, by their whole granules: one that the piece before was read from is taken as it was read then, so
that a command reads no granule in parts (R133). Also the granules, for the next piece. -/
def State.srcRead (s : State) (e : Agent) (edge : Nat × List Byte) (src m : Nat) :
    Except EngErr (State × (Nat × List Byte) × List Byte) :=
  let lo := 8 * (src / 8)
  let hi := 8 * ((src + m + 7) / 8)
  let known := if edge.1 ≤ lo then (edge.2.drop (lo - edge.1)).take (hi - lo) else []
  match s.engRead e (lo + known.length) (hi - lo - known.length) with
  | .error x => .error (x.notBefore src)
  | .ok (s, bs) => .ok (s, (lo, known ++ bs), ((known ++ bs).drop (src - lo)).take m)

/-- Write bytes for an engine: to a bank, or as a node store (R111). -/
def State.engWrite (s : State) (e : Agent) (addr : Nat) (bs : List Byte) : Except EngErr State :=
  let n := bs.length
  if inSp addr n then
    let off := spOff addr
    let st := (s.cluster e.cl).store
    let part := st.spBad.any (fun g => rangesMeet (8 * g) 8 off n && !(decide (off ≤ 8 * g) && decide (8 * g + 8 ≤ off + n)))
    if part then .error (.fault s 2 addr none true)
    else .ok (s.onStore e.cl (·.spPut off bs))
  else
    foldE (fun (s : State) (p : Nat × Nat) => do
      let pa ← s.engTr e p.1 true
      match s.writeNode (e.secure s) e.team pa ((bs.drop (p.1 - addr)).take p.2) with
      | .ok s => .ok s
      | .error (s, l, err) => .error (herrFault s (p.1 + (l * 128 - pa)) l err)) s (pageSegs addr n)

/-! ### Jobs: the pieces of a burst -/

/-- Six-bit elements of a tight group (R31). -/
def tightElem (g : List Byte) (i : Nat) : Nat := bitsOf (leNat ((g.drop (3 * (i / 4))).take 3)) (6 * (i % 4)) 6

/-- A tight group as a padded one, and back (R115). -/
def expandGroup (g : List Byte) : List Byte :=
  (List.range 32).map (fun i => BitVec.ofNat 8 (tightElem g i)) ++ [g.getD 24 0]

def packGroup (g : List Byte) : List Byte :=
  (List.range 8).foldl (fun l w =>
    l ++ leBytes 3 ((List.range 4).foldl (fun x i => x + bitsOf (g.getD (4 * w + i) 0).toNat 0 6 * 2 ^ (6 * i)) 0)) []
    ++ [g.getD 32 0]

def xform (xf : Nat) (g : List Byte) : List Byte :=
  match xf with
  | 1 => expandGroup g
  | 2 => packGroup g
  | _ => g

/-- One piece of a command, within one destination granule: `n` bytes at `dst`, from `m` source bytes at `src` under a
transform, skipping its first `skip` bytes; or a piece that always faults. -/
inductive Job where
  | move (dst n src m xf skip : Nat)
  | bad (code addr : Nat) (onChip : Bool)

/-- Bytes on their way to their destination, by address. -/
abbrev Held := Map (Option Byte)

def Held.put (h : Held) (dst : Nat) (bs : List Byte) : Held :=
  ((List.range bs.length).zip bs).foldl (fun h b => Map.set none h (dst + b.1) (some b.2)) h

/-- Read one piece of a command: the bytes it moves join those on their way. -/
def State.doJob (s : State) (e : Agent) (c : EngCmd) (j : Job) : Except EngErr (State × EngCmd) :=
  match j with
  | .bad code addr u => .error (.fault s code addr none u)
  | .move dst n src m xf skip => do
    let (s, edge, bs) ← s.srcRead e c.edge src m
    .ok (s, { c with edge := edge, held := Held.put c.held dst (((xform xf bs).drop skip).take n) })

/-- Cut the destination bytes [col, stop) of a row into pieces, each with its place in the command. -/
def rowJobs (dst src xf : Nat) : Nat → Nat → Nat → List (Nat × Job)
  | 0, _, _ => []
  | fuel + 1, col, stop =>
    if stop ≤ col then []
    else
      let go := xfOut xf
      let n := min (stop - col) (8 - (dst + col) % 8)
      let n := if go = 1 then n else min n (go - col % go)
      let j : Job := if go = 1 then .move (dst + col) n (src + col) n 0 0
        else .move (dst + col) n (src + col / go * xfIn xf) (xfIn xf) xf (col % go)
      (col, j) :: rowJobs dst src xf fuel (col + n) stop

/-- Index `i` of the list in scratchpad, sign-extended; an error where its granule is bad (R121). -/
def State.gaIndex (s : State) (cl : Nat) (c : EngCmd) (i : Nat) : Except Nat Word :=
  let a := c.g2.toNat + i * gaIw c
  let st := (s.cluster cl).store
  if st.spBadIn (spOff a) (gaIw c) then .error a
  else .ok (sext64 (8 * gaIw c) (leNat (st.spGet (spOff a) (gaIw c))))

/-- The pieces of one element of GATH or SCAT, from byte `o` of it. -/
def State.gaJobs (s : State) (cl : Nat) (c : EngCmd) (i o : Nat) : List (Nat × Job) :=
  let z := gaZ c
  match s.gaIndex cl c i with
  | .error a => [(i * z + o, .bad 2 a true)]
  | .ok j =>
    if gaSkip c && j == BitVec.allOnes 64 then []
    else
      let far (base : Word) : Nat := (base + j * BitVec.ofNat 64 z).toNat
      let near (base : Word) : Nat := base.toNat + i * z
      let x := if c.kind = .gath then far c.g1 else far c.g0
      if !engRange x z then [(i * z + o, .bad 4 x false)]
      else
        let (dst, src) := if c.kind = .gath then (near c.g0, x) else (x, near c.g1)
        (rowJobs dst src 0 z o z).map (fun p => (i * z + p.1, p.2))

/-- Cut the destination bytes [p, stop) of a CPY into pieces, row by row. -/
def cpyJobs (c : EngCmd) : Nat → Nat → Nat → List (Nat × Job)
  | 0, _, _ => []
  | fuel + 1, p, stop =>
    if stop ≤ p then []
    else
      let dl := cpDl c
      let row := p / dl
      let col := p % dl
      let hi := min dl (col + (stop - p))
      (rowJobs (c.g0.toNat + row * cpDp c) (c.g1.toNat + row * cpSp c) (cpXf c) 4096 col hi).map
        (fun j => (row * dl + j.1, j.2)) ++ cpyJobs c fuel (row * dl + hi) stop

/-- Where the whole command ends. -/
def EngCmd.total (c : EngCmd) : Nat :=
  match c.kind with
  | .cpy | .cpyb => cpRows c * cpDl c
  | .gath | .scat => gaCount c * gaZ c
  | .dload => dlCount c
  | _ => 0

/-- The pieces of the next burst of a command, and the progress after it: at most `room` bytes, and at most 32 elements of
GATH or SCAT (R110). -/
def State.burstJobs (s : State) (cl : Nat) (c : EngCmd) (room : Nat) : List (Nat × Job) × Nat :=
  if c.total ≤ c.prog then ([], c.prog)
  else match c.kind with
  | .cpy =>
    let stop := min c.total (c.prog + room)
    (cpyJobs c 4096 c.prog stop, stop)
  | .gath | .scat =>
    let z := gaZ c
    let i0 := c.prog / z
    let n := min (min 32 (room / z)) (gaCount c - i0)
    ((List.range n).flatMap (fun k => s.gaJobs cl c (i0 + k) (if k = 0 then c.prog % z else 0)), if n = 0 then c.prog else (i0 + n) * z)
  | _ => ([], c.prog)

/-- Has the command, from place `p` on, more to write into the `k` bytes at `lo`? Its bytes of a line then wait, so
that a line it covers is written whole (R73, R126) and no granule in parts (R133). -/
def State.toCome (s : State) (cl : Nat) (c : EngCmd) (p lo k : Nat) : Bool :=
  let meets (a n : Nat) : Bool := rangesMeet a n lo k
  match c.kind with
  | .cpy =>
    let dl := cpDl c
    (List.range (cpRows c - p / dl)).any (fun k =>
      let col := if k = 0 then p % dl else 0
      meets (c.g0.toNat + (p / dl + k) * cpDp c + col) (dl - col))
  | .gath => meets (c.g0.toNat + p) (c.total - p)
  | .scat =>
    let z := gaZ c
    (List.range (gaCount c - p / z)).any (fun k => match s.gaIndex cl c (p / z + k) with
      | .ok j => !(gaSkip c && j == BitVec.allOnes 64) && meets (c.g0 + j * BitVec.ofNat 64 z).toNat z
      | .error _ => false)
  | _ => false

/-- The lines of bytes on their way, ascending. -/
def Held.lines (h : Held) : List Nat :=
  (h.foldl (fun (l : List Nat) e => match l with
    | x :: _ => if x = e.1 / 128 then l else e.1 / 128 :: l
    | [] => [e.1 / 128]) []).reverse

/-- The bytes on their way to a line, and the rest. -/
def Held.of (h : Held) (line : Nat) : List (Nat × Byte) :=
  h.filterMap (fun e => if e.1 / 128 = line then e.2.map (fun b => (e.1, b)) else none)
def Held.drop (h : Held) (line : Nat) : Held := h.filter (fun e => e.1 / 128 != line)

/-- The first of some lines whose bytes on their way fit in `room` (R110). -/
def Held.within (h : Held) : Nat → List Nat → List Nat
  | _, [] => []
  | room, l :: r => if room < (h.of l).length then [] else l :: Held.within h (room - (h.of l).length) r

/-- Write bytes of one line for an engine: to a bank, where a granule that fails its ECC must be replaced whole, or as a
node store (R111). -/
def State.engPut (s : State) (e : Agent) (line : Nat) (bs : List (Nat × Byte)) : Except EngErr State :=
  let first := (bs.head?.map (·.1)).getD (128 * line)
  if spaceOf first = .localSp then
    let at_ (b : Nat × Byte) : Nat := spOff b.1
    let st := (s.cluster e.cl).store
    let touched := st.spBad.filter (fun g => bs.any (fun b => at_ b / 8 == g))
    if touched.any (fun g => !(List.range 8).all (fun i => bs.any (fun b => at_ b == 8 * g + i))) then
      .error (.fault s 2 first none true)
    else .ok (s.onStore e.cl (fun t => { t with
      sp := bs.foldl (fun (m : Sparse 8) b => m.set (at_ b) b.2) t.sp
      spBad := t.spBad.filter (fun g => !touched.contains g) }))
  else do
    let pa ← s.engTr e first true
    match s.writeLine (e.secure s) e.team (pa / 128) (bs.map (fun b => (pa + (b.1 - first), b.2))) with
    | .ok s => .ok s
    | .error err => .error (herrFault s first (pa / 128) err)

/-- Write the bytes on their way to some lines; at the first that stops, the state before it, what is left and what it
met. -/
def State.flushHeld (e : Agent) : State → Held → List Nat → Except (State × Held × EngErr) (State × Held)
  | s, h, [] => .ok (s, h)
  | s, h, l :: r =>
    match s.engPut e l (h.of l) with
    | .ok s => State.flushHeld e s (h.drop l) r
    | .error x => .error (s, h, x)

/-- Read pieces in order; at the first that stops, the command as it stands at its place, and what it met. -/
def State.readJobs (e : Agent) : State → EngCmd → List (Nat × Job) → State × EngCmd × Option EngErr
  | s, c, [] => (s, c, none)
  | s, c, (p, j) :: r =>
    match s.doJob e c j with
    | .ok (s, c) => State.readJobs e s c r
    | .error x => (s, { c with prog := p }, some x)

/-- After a fault each granule that the command was writing holds its old value or its new one (R126, R381): a free
value says which, and one of which more was to come holds its old value. -/
def State.looseHeld (s : State) (e : Agent) (c : EngCmd) : State :=
  let h : Held := c.held
  let grans := h.lines.flatMap (fun l => (List.range 16).filterMap (fun g =>
    let bs := (h.of l).filter (fun b => b.1 / 8 == 16 * l + g)
    if bs.isEmpty || s.toCome e.cl c c.prog (128 * l + 8 * g) 8 then none else some (l, bs)))
  ((List.range grans.length).zip grans).foldl (fun s g =>
    if Config.granuleNew (s.time.tick + g.1) then
      (match s.engPut e g.2.1 g.2.2 with
      | .ok s => s
      | .error _ => s)
    else s) s

/-! ### Ending and completing -/

/-- Change a command in its queue. -/
def Ctx.onCmd (x : Ctx) (q num : Nat) (f : EngCmd → EngCmd) : Ctx :=
  x.setQueue q ((x.queue q).map (fun c => if c.num = num then f c else c))

/-- The node's side of an error that an engine met (R126, R375). -/
def State.engMeet (s : State) (e : Agent) (line : Option (Nat × HErr)) (onChip : Bool) : State :=
  match line with
  | some (l, err) => s.meet e.team l e.cls e.pasid err
  | none => if onChip then s.consumeLocal e.core e.cls else s

/-- Drop the refusals of a requester. -/
def State.clearRefused (s : State) (e : Agent) : State :=
  s.onSlice e.slice (fun sl => { sl with refused := sl.refused.filter (·.req ≠ e.req) })

/-- The command ends in fault: its record is noted, and a CPYB's place in its register's order ends here (R118,
R126). -/
def State.endFault (s : State) (e : Agent) (c : EngCmd) (code addr : Nat) (line : Option (Nat × HErr))
    (onChip : Bool) : State :=
  let s := s.engMeet (e := e) line onChip
  let s := s.clearRefused e
  s.onMember e.team e.m (fun x =>
    let x := x.onTimeline c.kind.tl (fun t => t.note c.kind.queue code c.kind.fn c.num (BitVec.ofNat 64 addr))
    let x := x.onCmd c.kind.queue c.num (fun c => { c with moved := true })
    if c.kind = .cpyb then
      { x with regs := { x.regs with q := Map.modify {} x.regs.q (cbQ c) (fun r =>
        { r with faults := r.faults ++ [r.count] }) } }
    else x)

/-- Put a command back in its queue. -/
def State.putCmd (s : State) (e : Agent) (c : EngCmd) : State :=
  s.onMember e.team e.m (fun x => x.onCmd c.kind.queue c.num (fun _ => c))

/-- What a burst that stopped leaves: a command that waits for its translation keeps its progress, a faulted one ends. -/
def State.burstStop (s : State) (e : Agent) (c : EngCmd) (x : EngErr) : State :=
  match x with
  | .park t => ({ s with slices := t.slices } : State).putCmd e c
  | .fault _ code addr line u => ((s.looseHeld e c).putCmd e { c with held := [] }).endFault e c code addr line u

/-- The lines of bytes on their way that a burst can write in `room` bytes: those of which no more is to come. -/
def State.ready (s : State) (e : Agent) (c : EngCmd) (room : Nat) : List Nat :=
  Held.within c.held room ((Held.lines c.held).filter (fun l => !s.toCome e.cl c c.prog (128 * l) 128))

/-- One burst of CPY, GATH or SCAT: what can be written of the bytes on their way, the next pieces, and what can then be
written, at most 4 KiB in all (R110). -/
def State.burstMove (s : State) (e : Agent) (c : EngCmd) : State :=
  match State.flushHeld e s c.held (s.ready e c 4096) with
  | .error (s, h, x) => s.burstStop e { c with held := h } x
  | .ok (s, h) =>
    let room := 4096 - (c.held.length - h.length)
    let c := { c with held := h }
    let (jobs, p) := s.burstJobs e.cl c room
    match State.readJobs e s c jobs with
    | (s, c, some x) => s.burstStop e c x
    | (s, c, none) =>
      let c := { c with prog := p }
      match State.flushHeld e s c.held (s.ready e c room) with
      | .error (s, h, x) => s.burstStop e { c with held := h } x
      | .ok (s, h) => s.putCmd e { c with held := h, moved := decide (c.total ≤ p) && h.isEmpty }

/-- One burst of a DLOAD: its words from the command's place on, each whole (R229, R230). -/
def State.loadWords (e : Agent) : Nat → State → EngCmd → State
  | 0, s, c => s.putCmd e c
  | n + 1, s, c =>
    if dlCount c ≤ c.prog then s.putCmd e { c with moved := true }
    else match s.srcRead e c.edge (c.g1.toNat + 4 * c.prog) 4 with
      | .error x => s.burstStop e c x
      | .ok (s, edge, bs) => State.loadWords e n
        (s.onStore e.cl (fun t => { t with dcs := t.dcs.set (dlDst c + c.prog) (BitVec.ofNat 32 (leNat bs)) }))
        { c with prog := c.prog + 1, edge := edge }

/-! ### CPYB's elements (R117, R118) -/

/-- The source range and the transform of the delivered bytes from `p` on. -/
def cbJob (c : EngCmd) (p : Nat) : Nat × Nat × Nat :=
  let dl := cpDl c
  let row := p / dl
  let col := p % dl
  let base := c.g1.toNat + row * cpSp c
  if cpXf c = 0 then (base + col, 0, 0) else (base + col / 33 * 25, 25, col % 33)

/-- The bytes of an element that a CPYB delivers: those of its tag, or one of a padded group (R117). -/
def cbWidth (c : EngCmd) (r : QReg) : Nat := if cpXf c = 0 then r.width else 1

/-- The element of `w` bytes at the command's place: source bytes, or one byte of a padded group. -/
def State.cbElem (s : State) (e : Agent) (c : EngCmd) (w : Nat) :
    Except EngErr (State × (Nat × List Byte) × List Byte) :=
  let (src, m, k) := cbJob c c.prog
  if cpXf c = 0 then s.srcRead e c.edge src w
  else (s.srcRead e c.edge src m).map (fun r => (r.1, r.2.1, ((expandGroup r.2.2).drop k).take 1))

/-- Deliver up to `n` elements from the command's place. -/
def State.deliver (e : Agent) (w : Nat) : Nat → State → EngCmd → Except (State × EngErr) State
  | 0, s, _ => .ok s
  | n + 1, s, c =>
    if c.total ≤ c.prog then .ok s
    else
      match s.cbElem e c w with
      | .error x => .error (s, x)
      | .ok (s, edge, el) =>
        let c := { c with prog := c.prog + w, edge := edge, moved := decide (c.total ≤ c.prog + w) }
        let s := s.onMember e.team e.m (fun x =>
          let x := { x with regs := { x.regs with q := Map.modify {} x.regs.q (cbQ c) (·.push el) } }
          x.onCmd 0 c.num (fun _ => c))
        State.deliver e w n s c

/-- One burst of a CPYB: it moves only while it is the first bound command of its register and the FIFO has room. -/
def State.burstCpyb (s : State) (e : Agent) (c : EngCmd) : State :=
  let x := s.member e.team e.m
  let r := x.regs.queue (cbQ c)
  let w := cbWidth c r
  if ((x.bound (cbQ c)).head?.map (·.num)) ≠ some c.num then s
  else match State.deliver e w (min (4096 / w) ((1024 - r.bytes.length) / w)) s c with
    | .ok s => s
    | .error (s, .park t) => { s with slices := t.slices }
    | .error (s, .fault _ code addr line u) => s.endFault e c code addr line u

/-! ### WSTR (R123 to R125) -/

/-- Stored bytes of one block. -/
def wsBlock (c : EngCmd) : Nat :=
  if wsScl c then (if wsTight c then 25 else 33) else 32 * fmtBytes (wsFmt c)

/-- Units of a full slot (R124). -/
def wsUnits (c : EngCmd) : Nat :=
  match fmtBytes (wsFmt c) with
  | 1 => 8
  | 2 => 4
  | _ => 1

/-- The bytes of the slot's sideband for each block: 1 KiB over its blocks (R123). -/
def wsSide (c : EngCmd) : Nat := 8 / wsUnits c

/-- Read the next `n` stream bytes of a command, within LIMIT (R124). -/
def State.wsRead (s : State) (e : Agent) (c : EngCmd) (n : Nat) : Except EngErr (EngCmd × List Byte) :=
  if wsLimit c < c.off + n then
    .error (.fault s 5 (((c.g1.toNat + wsLimit c)) % 2 ^ 64) none false)
  else (s.srcRead e c.edge (c.g1.toNat + c.off) n).map (fun r => ({ c with off := c.off + n, edge := r.2.1 }, r.2.2))

/-- What a block writes into the slot: its elements and its bytes of the sideband. -/
structure WsData where
  elems : List Byte
  scale : List Byte

/-- A stored block, and one that the stream leaves out: zeros, with a scale of 1 (R124). -/
def wsStored (c : EngCmd) (bs : List Byte) : WsData :=
  let p := if wsTight c then expandGroup bs else bs
  if wsScl c then ⟨p.take 32, [p.getD 32 0x7F]⟩ else ⟨bs, List.replicate (wsSide c) 0x7F⟩

def wsZero (c : EngCmd) : WsData := ⟨List.replicate (32 * fmtBytes (wsFmt c)) 0, List.replicate (wsSide c) 0x7F⟩

/-- The next block of a command, after the unit's map at a unit's begin (R124). -/
def State.wsNext (s : State) (e : Agent) (c : EngCmd) : Except EngErr (EngCmd × WsData) := do
  let b := c.prog % 128
  let c ← if wsElide c && b == 0 then (s.wsRead e c 16).map (fun r => { r.1 with umap := r.2 }) else .ok c
  if wsElide c && !(c.umap.getD (b / 8) 0).getLsbD (b % 8) then .ok ({ c with prog := c.prog + 1 }, wsZero c)
  else (s.wsRead e c (wsBlock c)).map (fun r => ({ r.1 with prog := c.prog + 1 }, wsStored c r.2))

/-- Up to `n` blocks: the command after them, the blocks, and what stopped it if anything did. -/
def State.wsBlocks (s : State) (e : Agent) : Nat → EngCmd → EngCmd × List WsData × Option EngErr
  | 0, c => (c, [], none)
  | n + 1, c =>
    match s.wsNext e c with
    | .error x => (c, [], some x)
    | .ok (c, d) => let (c, ds, x) := s.wsBlocks e n c; (c, d :: ds, x)

/-- The blocks of one burst: whole granules of the sideband, within the unit, and at most 4 KiB of the slot (R110). -/
def wsBurst (c : EngCmd) : Nat := min (120 / fmtBytes (wsFmt c)) (128 - c.prog % 128)

/-- A write into the weight buffer: an offset in the slot's elements, or in its sideband. -/
inductive WsPut where
  | elems (off : Nat) (bs : List Byte)
  | scale (off : Nat) (bs : List Byte)

/-- The writes of blocks from block `g` of the slot on: the elements of each, and each whole granule of the sideband. -/
def wsPuts (c : EngCmd) (g : Nat) (ds : List WsData) : List WsPut :=
  let side := ds.flatMap (·.scale)
  ((List.range ds.length).zip ds).map (fun d => .elems ((g + d.1) * 32 * fmtBytes (wsFmt c)) d.2.elems)
  ++ (List.range (side.length / 8)).map (fun i => .scale (g * wsSide c + 8 * i) ((side.drop (8 * i)).take 8))

def slotBytes : Nat := 32768

/-- The key of a weight-buffer byte that can be bad: 32768 of elements and 1024 of sideband for each slot. -/
def wbKey (slot : Nat) (side : Bool) (off : Nat) : Nat := slot * 33792 + (if side then 32768 else 0) + off

def TeamStore.wsPut (t : TeamStore) (slot : Nat) (p : WsPut) : TeamStore :=
  match p with
  | .elems off bs => { t with
      wb := t.wb.setRange (slot * slotBytes + off) bs
      wbBad := t.wbBad.filter (fun g => decide (g < wbKey slot false off) || decide (wbKey slot false off + bs.length ≤ g)) }
  | .scale off bs => { t with
      wbs := t.wbs.setRange (slot * 1024 + off) bs
      wbBad := t.wbBad.filter (fun g => decide (g < wbKey slot true off) || decide (wbKey slot true off + bs.length ≤ g)) }

/-- Must a WSTR wait for an earlier WSTR to its slot, or for a fetch accepted before it (R125)? -/
def State.wstrHeld (s : State) (e : Agent) (c : EngCmd) : Bool :=
  let cl := s.cluster e.cl
  let slot := wsSlot c
  let earlier := (List.range 4).any (fun k =>
    ((s.member e.team k).queue 2).any (fun o => !o.moved && wsSlot o == slot &&
      (decide (o.order < c.order) || (o.order == c.order && decide (k < e.m)) || (k == e.m && decide (o.num < c.num)))))
  let fetching := cl.array.queue.any (fun m => c.after.contains (m.member, m.num) && m.slots.contains slot)
  earlier || fetching

/-- One burst of a WSTR, in acceptance order per slot and after the fetches accepted before it (R125). Its progress is
in blocks; `off` is its place in the stream. -/
def State.burstWstr (s : State) (e : Agent) (c : EngCmd) : State :=
  let slot := wsSlot c
  if s.wstrHeld e c then s.putCmd e c
  else
    match s.wsBlocks e (wsBurst c) c with
    | (d, ds, none) =>
      (s.onStore e.cl (fun t => (wsPuts c c.prog ds).foldl (·.wsPut slot ·) t)).putCmd e
        { d with moved := decide (128 * wsUnits c ≤ d.prog) }
    | (_, _, some (.park t)) => ({ s with slices := t.slices } : State).putCmd e c
    | (_, ds, some (.fault _ code addr line u)) =>
      let ps := wsPuts c c.prog ds
      let keep : Nat → Bool := fun i => code == 5 || Config.granuleNew (s.time.tick + i)
      let s := s.onStore e.cl (fun t => ((List.range ps.length).zip ps).foldl (fun t p =>
        if keep p.1 then t.wsPut slot p.2 else t) t)
      s.endFault e c code addr line u

/-! ### The events -/

def engQueue : Eng → Nat
  | .copy => 0 | .gather => 1 | .weight => 2

/-- The place of the engines that serve a team: its cluster's, or, once it is swapped out, those of the cluster it stood
on (R110, R128). -/
def State.engineOf (s : State) (team : Nat) : Nat := (s.team team).cluster.getD (s.team team).engCl

/-- The agent that a command of a team's member is. -/
def State.agent (s : State) (team m q : Nat) (c : EngCmd) : Agent :=
  let t := s.team team
  let cl := s.engineOf team
  ⟨.engine team m q, t.slice, cl, team, m, 4 * cl + m, c.pasid, q + 1, q != 2⟩

/-- Does a translation hold the queue (R126)? -/
def State.parked (s : State) (team m q : Nat) : Bool :=
  (s.slice (s.team team).slice).ats.any (fun a => a.waiters.contains (.engine team m q))

/-- One burst of a command, which the engine has thereby begun. -/
def State.burst (s : State) (team m q : Nat) (c : EngCmd) : State :=
  let e := s.agent team m q c
  let c := { c with started := true }
  let s := s.putCmd e c
  match c.kind with
  | .cpyb => s.burstCpyb e c
  | .wstr => s.burstWstr e c
  | .dload => State.loadWords e (dlCount c + 1) s c
  | .fxput | .fxred => s
  | .cpy | .gath | .scat => s.burstMove e c

/-- Does a command run on while its team is swapped out: does it move translated memory only (R128)? -/
def EngCmd.runsOn (c : EngCmd) : Bool :=
  c.kind == .cpy && decide (spaceOf c.g0.toNat = .memory) && decide (spaceOf c.g1.toNat = .memory)

/-- Can a burst move something of a command now, or begin it? It is one of the first four of its queue, and those before
it have begun (R110); a CPYB waits for its turn and for room (R118), a WSTR for its slot (R125). Once the team is swapped
out, the commands that run on are served alone (R128). -/
def State.canBurst (s : State) (team m q ix : Nat) : Bool :=
  let t := s.team team
  let x := s.member team m
  let here := t.cluster.isSome
  let l := ((x.queue q).take ix).filter (fun o => here || o.runsOn)
  match (x.queue q)[ix]? with
  | none => false
  | some c =>
    !c.moved && decide (l.length < 4) && l.all (·.started) && !s.parked team m q && (here || c.runsOn)
    && !(c.kind == .wstr && c.prog % 128 == 0 && s.leaving team)
    && (!c.started || (match c.kind with
      | .cpyb =>
        let r := x.regs.queue (cbQ c)
        ((x.bound (cbQ c)).head?.map (·.num)) == some c.num && decide (r.bytes.length + cbWidth c r ≤ 1024)
      | .wstr => !s.wstrHeld (s.agent team m q c) c
      | .fxput | .fxred => false
      | _ => true))

/-- The command of a queue that a burst can serve first. -/
def State.burstIx (s : State) (team m q : Nat) : Option Nat := (List.range 16).find? (s.canBurst team m q)

/-- The queues of the live teams that an engine can serve, by team and member, as numbers. -/
def State.ableQueues (s : State) (able : Nat → Nat → Bool) : List Nat :=
  s.teams.flatMap (fun e =>
    if e.2.live && !e.2.consumed then ((List.range 4).filter (able e.1)).map (fun m => 4 * e.1 + m) else [])

/-- The first of some queues in a circle after the one served last. -/
def roundRobin (last : Nat) (l : List Nat) : Option Nat := (l.find? (fun k => decide (last < k))).or l.head?

/-- The queue that an engine of a cluster serves next, round-robin (R110). -/
def State.engineTurn (s : State) (cl q : Nat) : Option Nat :=
  roundRobin (Map.get 0 (s.cluster cl).served q)
    (s.ableQueues (fun team m => s.engineOf team == cl && (s.burstIx team m q).isSome))

/-- An engine serves one burst of a queue (R110). -/
def execEngineBurst (team m : Nat) (eng : Eng) (ix : Nat) (s : State) : Host.Outcome State Fault Refusal :=
  let q := engQueue eng
  match ((s.member team m).queue q)[ix]? with
  | none => .next s
  | some c =>
    if s.canBurst team m q ix && s.engineTurn (s.engineOf team) q == some (4 * team + m) then
      .next ((s.onCluster (s.engineOf team) (fun k => { k with served := Map.set 0 k.served q (4 * team + m) })).burst
        team m q c)
    else .next s

/-- A command whose last byte is moved, or that ended in fault, completes: it leaves its queue, done may rise and the
copies counter falls (R127, R131). -/
def execCommandComplete (team m : Nat) (t : TL) (num : Word) (s : State) : Host.Outcome State Fault Refusal :=
  let n := num.toNat
  let x := s.member team m
  match ([0, 1, 2].filterMap (fun q => ((x.queue q).find? (fun c => c.num == n && c.moved && c.kind.tl == t)).map (fun _ => q))) with
  | q :: _ => .next (s.onMember team m (fun x =>
      let x := x.setQueue q ((x.queue q).filter (fun c => c.num ≠ n))
      { x with copies := x.copies - 1 }.completeNum t n))
  | [] => .next s

end Sys2Proof.Machine
end

