-- ==== Sys2Proof/Machine/Fabric.lean ====
section
/-! DEFINITION. The Carord fabric and supersteps (R271 to R298, R307, R308, R399): the commands and step instructions,
the fabric engine's packets and streams, the boundary's state machine, the apply, liveness and failover. -/

namespace Sys2Proof.Machine

/-! ### The descriptor and the tables (R272, R273, R275) -/

/-- The group that a 64-byte descriptor describes; none where a reserved field is not zero or a field is outside its
range (R272). -/
def groupOf (d : List Byte) : Option StepGroup :=
  let f (o n : Nat) : Nat := leNat ((d.drop o).take n)
  let ok := f 4 4 < 2 ^ 18 && decide (1 ≤ f 8 4) && decide (f 8 4 ≤ 2 ^ 18) && decide (f 4 4 < f 8 4)
    && decide (1 ≤ f 12 2) && decide (f 12 2 ≤ 256) && f 16 8 % 4096 == 0 && f 24 8 % 8192 == 0 && f 56 8 == 0
  if ok then some {
    group := f 0 4, rank := f 4 4, nrank := f 8 4, quorum := f 12 2, tmo := if f 14 2 = 0 then 50 else f 14 2
    sbbase := f 16 8, sbsize := f 24 8, quota := f 32 8, rtbase := f 40 8, wtbase := f 48 8 }
  else none

/-- The rank table's entries from its bytes; a rank whose change is staged for a later boundary keeps its old entry. -/
def StepGroup.ranksFrom (g : StepGroup) (bs : List Byte) : Map Nat :=
  (List.range g.nrank).foldl (fun (m : Map Nat) r =>
    if g.staged.any (·.rank == r) then Map.set 0 m r (Map.get 0 g.ranks r)
    else Map.set 0 m r (leNat ((bs.drop (4 * r)).take 4))) []

/-- A rank's chip, where it is mapped. -/
def StepGroup.chipOf (g : StepGroup) (r : Nat) : Option Nat :=
  let e := Map.get 0 g.ranks r
  if e.testBit 31 then some (bitsOf e 0 18) else none

/-- An open window (R275). -/
structure Window where
  base  : Nat
  size  : Nat
  rule  : Nat
  elem  : Bool
  slotsz : Nat
  nslot : Nat

/-- The width of an element of a typed window. -/
def Window.width (w : Window) : Nat :=
  match w.rule with
  | 1 | 3 | 4 => if w.elem then 8 else 4
  | 2 => 4
  | _ => 1

/-- Window `w` of a group, where it counts as open (R275). -/
def StepGroup.window (g : StepGroup) (w : Nat) : Option Window :=
  let f (o n : Nat) : Nat := leNat ((g.wins.drop (32 * w + o)).take n)
  let b := f 16 1
  let x : Window := ⟨f 0 8, f 8 8, bitsOf b 0 3, b.testBit 4, f 17 1, f 20 4⟩
  let ok := b.testBit 3 && x.rule != 7 && bitsOf b 5 3 == 0 && x.base % 128 == 0 && x.size % 128 == 0
    && decide (x.size ≤ 2 ^ 38) && rangeIn .memory x.base x.size && f 18 2 == 0 && f 24 8 == 0
    && (x.rule != 6 || (decide (6 ≤ x.slotsz) && decide (x.slotsz ≤ 12) && isPow2 x.nslot 1 (2 ^ 24)
      && decide (128 + x.nslot * 2 ^ x.slotsz ≤ x.size)))
  if ok then some x else none

def State.group (s : State) (vf : Nat) : Option StepGroup := (s.vf vf).sg
def State.onGroup (s : State) (vf : Nat) (f : StepGroup → StepGroup) : State :=
  s.onVf vf (fun v => { v with sg := v.sg.map f })

/-- Copy the rank table and the window table (R273, R275). A table that cannot be read is reported, and the group goes on
with the copy it had (assumption 31). -/
def State.copyTables (s : State) (vf : Nat) : State :=
  match s.group vf with
  | none => s
  | some g =>
    let (s, r) := s.devGet (s.fabricAsker vf 0) g.rtbase (4 * g.nrank)
    let (s, w) := s.devGet (s.fabricAsker vf 0) g.wtbase 8192
    s.onGroup vf (fun g => { g with
      ranks := (r.map g.ranksFrom).getD g.ranks
      wins := w.getD g.wins })

/-- The module's step number for a VF (R287); 0 where it has no group. -/
def Vf.stepNo (v : Vf) : Nat := (v.sg.map (·.step)).getD 0

/-- The width of an element under an FXRED operation (R283); none where it is reserved. -/
def redWidth (op : Nat) : Option Nat :=
  match op with
  | 0 | 3 | 4 | 5 | 6 | 7 | 8 => some 8
  | 1 | 2 => some 4
  | _ => none

/-! ### FXPUT and FXRED (R277 to R279) -/

def fxRank (c : EngCmd) : Nat := bitsOf c.g0.toNat 46 18
def fxWin (c : EngCmd) : Nat := bitsOf c.g0.toNat 38 8
def fxOff (c : EngCmd) : Nat := bitsOf c.g0.toNat 0 38
def fxLen (c : EngCmd) : Nat := bitsOf c.g2.toNat 0 32
def fxCtrWin (c : EngCmd) : Nat := bitsOf c.g2.toNat 32 8
def fxCtrEn (c : EngCmd) : Bool := c.g2.getLsbD 40
def fxOp (c : EngCmd) : Nat := bitsOf c.g2.toNat 41 4
def fxCtrOff (c : EngCmd) : Nat := bitsOf c.g3.toNat 0 38

/-- The widths that OFF and LEN must be multiples of (R278). -/
def fxWidths (w : Window) (red : Bool) (op : Nat) : List Nat := w.width :: (if red then (redWidth op).toList else [])

/-- The checks of R278, in the order of its table, then the source range. -/
def checkFx (sg : Option StepGroup) (red : Bool) (c : EngCmd) : Except CmdErr Unit :=
  match sg with
  | none => .error (.invalid 0 0 2)
  | some g => do
    let off := fxOff c
    let len := fxLen c
    mustHold (decide (fxRank c < g.nrank) && (g.chipOf (fxRank c)).isSome) (.invalid 0 46 1)
    match g.window (fxWin c) with
    | none => .error (.invalid 0 38 1)
    | some w =>
      mustHold (decide (off + len ≤ w.size)) (.invalid 0 0 1)
      mustHold (!(red && (w.rule == 5 || w.rule == 6))) (.invalid 0 38 1)
      mustHold (red || w.rule != 6 || (off == 0 && len == 2 ^ w.slotsz)) (.invalid 0 0 1)
      mustHold ((fxWidths w red (fxOp c)).all (fun n => off % n == 0 && len % n == 0)) (.invalid 0 0 1)
      mustHold (if red then (redWidth (fxOp c)).isSome else fxOp c == 0) (.invalid 2 41 0)
      mustHold (if fxCtrEn c then
          (match g.window (fxCtrWin c) with
          | some x => fxCtrOff c % 8 == 0 && decide (fxCtrOff c + 8 ≤ x.size)
          | none => false)
        else fxCtrWin c == 0 && fxCtrOff c == 0) (.invalid 2 32 1)
      mustZero c.g2 2 45 19
      mustZero c.g3 3 38 26
      mustHold (len == 0 || engRange c.g1.toNat len) (.address c.g1.toNat)

/-- Issue a fabric command (R113, R278, R279). -/
def State.issueFabric (s : State) (kind : EKind) (d a : SReg) : Res :=
  let core := s.turn
  let x := s.ctx core
  let g (i : Nat) : Word := x.rs (sregAdd a i)
  let c : EngCmd := {
    num := 0, kind := kind, g0 := g 0, g1 := g 1, g2 := g 2, g3 := g 3
    pasid := s.pasidOf core true, gtag := BitVec.ofNat 64 (s.gtagOf core), step := x.curStep }
  match checkFx (s.vfOf core).sg (kind == .fxred) c with
  | .error (.invalid _ _ 2) => trapE s { cause := 0x08, tval := 2 ^ 15 }
  | .error (.invalid reg bit k) => trapE s (tCommand reg bit (sregAdd a reg).toNat k)
  | .error (.address n) => trapE s (tAddress n)
  | .ok () =>
    if 16 ≤ (x.queue 3).length then waitE s
    else
      let s := s.commitClass core
      let (x, n) := (s.ctx core).number .fx
      let x := (x.setS d (BitVec.ofNat 64 n)).setQueue 3 (x.queue 3 ++ [{ c with num := n }])
      .ok ((s.setCtx core x).retire 4)

def execFxput (d a : SReg) (s : State) : Host.Outcome State Fault Refusal := s.finish (s.breaking.issueFabric .fxput d a)
def execFxred (d a : SReg) (s : State) : Host.Outcome State Fault Refusal := s.finish (s.breaking.issueFabric .fxred d a)

/-! ### Events (R308) -/

/-- A fabric event record. -/
def State.fabricEvent (s : State) (type port vf before after detail peer extra : Nat) : State :=
  let r := leBytes 2 type ++ leBytes 1 port ++ leBytes 1 vf ++ leBytes 2 before ++ leBytes 2 after
    ++ leBytes 8 s.time.ptpns.toNat ++ leBytes 4 detail ++ leBytes 4 peer ++ leBytes 8 extra
  let s := s.signal .fabricEvent
  if s.mgmt.fevbase = 0 then s
  else match s.ringWrite s.mgmt.fevbase s.mgmt.fevsize r with
    | (s, true) => s
    | (s, false) => s.onMgmt (fun m => { m with fevLost := m.fevLost + 1 })

/-! ### Streams (R295 to R297) -/

def Vf.out (v : Vf) (chip : Nat) : OutStream := Map.get {} v.outs chip
def State.onOut (s : State) (vf chip : Nat) (f : OutStream → OutStream) : State :=
  s.onVf vf (fun v => { v with outs := Map.modify {} v.outs chip f })
def Vf.inp (v : Vf) (chip : Nat) : InStream := Map.get {} v.ins chip

/-- The bytes of a packet in the retry buffer. -/
def pktSize (p : Packet) : Nat := 32 + p.data.length

/-- The retry-buffer bytes of a VF, and of the module (R296). -/
def Vf.retryBytes (v : Vf) : Nat :=
  (v.outs.map (fun e => (e.2.unacked.map (fun e => pktSize e.2)).sum)).sum
    + (match v.sg with | some g => (g.pend.map (fun e => pktSize e.2)).sum | none => 0)
def State.retryBytes (s : State) : Nat := (s.vfs.map (·.2.retryBytes)).sum

/-- The bank space of a write (R292). -/
def pktSpace (p : Packet) : Nat := 32 + (p.data.length + 31) / 32 * 32

def StepGroup.bank (g : StepGroup) (parity : Nat) : List (Nat × Packet) := if parity % 2 = 0 then g.bank0 else g.bank1
def StepGroup.setBank (g : StepGroup) (parity : Nat) (l : List (Nat × Packet)) : StepGroup :=
  if parity % 2 = 0 then { g with bank0 := l } else { g with bank1 := l }

/-- The code that several failures of one step make (R290): PEER_LOST before STEP_OVERFLOW before STEP_CONFLICT. -/
def worse (a b : Nat) : Nat :=
  if a = 2 ∨ b = 2 then 2 else if a = 1 ∨ b = 1 then 1 else if a = 3 ∨ b = 3 then 3 else 0

/-- A failure joins this module's verdict for the step whose low bits a packet or a command carries. -/
def StepGroup.fail (g : StepGroup) (step code : Nat) : StepGroup :=
  if step % 2 = g.step % 2 then { g with verdict := worse g.verdict code } else { g with next := worse g.next code }

/-- The step that the low bits of a packet name: the module's or the next one; none for a step that is over, which an early
PEER_LOST can leave packets of (R291, R293). -/
def StepGroup.stepOf (g : StepGroup) (low : Nat) : Option Nat :=
  if low = g.step % 256 then some g.step else if low = (g.step + 1) % 256 then some (g.step + 1) else none

/-- Store an arriving write in the bank of its step; a bank without room makes the verdict STEP_OVERFLOW (R292). One of a
step that is over is discarded. -/
def StepGroup.store (g : StepGroup) (seq : Nat) (p : Packet) : StepGroup :=
  let b := g.bank p.step
  if (g.stepOf p.step).isNone then g
  else if g.sbsize / 2 < (b.map (fun e => pktSpace e.2)).sum + pktSpace p then g.fail p.step 1
  else g.setBank p.step (b ++ [(seq, p)])

/-- Does a receiver hold the far end: its input buffer takes no more flits (R302)? -/
def Port.holds (p : Port) : Bool := decide (Config.inputFlits ≤ p.inbuf)

/-- The link control word of the flit that a port sends next. -/
def Port.word (p : Port) (kind : Nat) : LinkWord := { seq := p.txSeq, ack := some p.rxSeq, hold := p.holds, kind := kind }

/-- After a lane change the first data flit begins with beat 0 under the new lanes, behind fill beats that complete the slot
under the old ones (R301). -/
def State.newLanes (s : State) (n : Nat) : State :=
  match (s.port n).laneOld with
  | none => s
  | some old =>
    (s.signal (.fillBeats n (fillBeats old (s.port n).tx.beat))).onPort n (fun p =>
      { p with laneOld := none, tx := { p.tx with beat := 0 } })

/-- The lanes over which a port's next flit goes, where no data flit comes first. -/
def Port.dealt (p : Port) : BitVec 16 := p.laneOld.getD p.tx.active

/-- A flit leaves a port, its beats dealt on from the last one (R300, R301). -/
def State.emit (s : State) (n : Nat) (w : LinkWord) (data : List Byte) : State :=
  let s := if w.kind = 0 then s.newLanes n else s
  let x := (s.port n).tx
  let on := (s.port n).dealt
  (s.onPort n (fun p => { p with tx := { p.tx with beat := p.tx.beat + 16 } })).signal
    (.flit n (flitBytes w data) (flitBeats on x.beat))

/-- Send queued flits in order: none while the far end holds or the port is down; with 2048 unacknowledged an idle flit
goes instead (R302). -/
def State.pumpQ (n : Nat) : Nat → State → State
  | 0, s => s
  | k + 1, s =>
    let p := s.port n
    match p.queue with
    | [] => s
    | e :: rest =>
      if !p.up || p.hold then s
      else if 2048 ≤ p.sent.length then s.emit n (p.word 1) []
      else State.pumpQ n k ((s.emit n (p.word 0) e.1).onPort n (fun p =>
        { p with queue := rest, sent := p.sent ++ [e], txSeq := p.txSeq + 1 }))

def State.pump (s : State) (n : Nat) : State := State.pumpQ n (s.port n).queue.length s

/-- A packet's bytes join a port's queue as flits (R300); any but a heartbeat wakes a parked port (R306). -/
def State.queueFlits (s : State) (n : Nat) (bs : List Byte) (heartbeat : Bool) : State :=
  (s.onPort n (fun p => { p with
    queue := p.queue ++ (flitsOf bs).map (fun f => (f, heartbeat))
    wake := p.wake || (!heartbeat && (p.rx.parked ||| p.tx.parked) != 0) })).pump n

/-- The port of the route that a stream uses. -/
def State.routePort (s : State) (vf chip : Nat) : Option Nat :=
  let o := (s.vf vf).out chip
  ((Map.get [] s.fab.routes chip).find? (fun r => r.num == o.route)).map (·.port)

/-- Queue the flits of a packet on its stream's port (R297, R300). -/
def State.sendFlits (s : State) (vf chip : Nat) (p : Packet) : State :=
  let o := (s.vf vf).out chip
  if o.dead then s
  else match s.routePort vf chip with
    | some n => s.queueFlits n (pktBytes p o.route chip) (pktKind p == 4)
    | none => s

/-- Acknowledge a stream's packets below its contiguous mark (R295). -/
def State.ackStream (s : State) (vf chip mark : Nat) : State :=
  let s := match s.routePort vf chip with
    | some n => s.queueFlits n (ackBytes vf s.fab.chip chip ((s.vf vf).out chip).route mark) false
    | none => s
  s.signal (.fabricAck vf chip mark)

/-- A packet takes the next number of its stream; one to the module itself goes into its own bank at once (R278,
R295). -/
def State.place (s : State) (vf chip : Nat) (p : Packet) : State :=
  let n := ((s.vf vf).out chip).next
  let p := { p with seq := BitVec.ofNat 32 n }
  if chip = s.fab.chip then
    let s := s.onOut vf chip (fun o => { o with next := n + 1, acked := n + 1 })
    if p.control then s else s.onGroup vf (·.store n p)
  else (s.onOut vf chip (fun o => { o with next := n + 1, unacked := o.unacked ++ [(n, p)] })).sendFlits vf chip p

/-- Must a packet to a rank wait before it is numbered: its stream's 4096 numbers are out, or its step lies beyond the
boundary for which the rank's migration is staged (R295, R399)? -/
def State.mustHold (s : State) (vf : Nat) (g : StepGroup) (rank : Nat) (p : Packet) : Bool :=
  g.staged.any (fun c => c.rank == rank && !p.control && (g.stepOf p.step).any (fun n => decide (c.bound < n)))
  || (match g.chipOf rank with
    | some chip => decide (4096 ≤ ((s.vf vf).out chip).unacked.length)
    | none => false)

/-- Send a packet to a rank, or hold it in the retry buffer. Nothing goes to a rank that is not mapped. -/
def State.sendTo (s : State) (vf rank : Nat) (p : Packet) : State :=
  match s.group vf with
  | none => s
  | some g =>
    if s.mustHold vf g rank p then s.onGroup vf (fun g => { g with pend := g.pend ++ [(rank, p)] })
    else match g.chipOf rank with
      | some chip => s.place vf chip p
      | none => s

/-- Try the held packets again, in order. -/
def State.releasePend (s : State) (vf : Nat) : State :=
  match s.group vf with
  | none => s
  | some g => g.pend.foldl (fun s e => s.sendTo vf e.1 e.2) (s.onGroup vf (fun g => { g with pend := [] }))

/-- A control packet of this module (R291, R298): a heartbeat, or a boundary message with its name and code as its payload
(assumption 48). -/
def State.control (s : State) (vf : Nat) (g : StepGroup) (msg : List Byte) : Packet := {
  control := true, port := 8, srcChip := s.fab.chip, vf := vf, reduce := false, step := g.step % 256, seq := 0
  srcRank := g.rank, win := 0, off := 0, ctrEn := false, ctrWin := 0, ctrOff := 0, op := 0, data := msg, crcOk := true }

/-- The payloads of the boundary messages. -/
def msgDrained : List Byte := [1, 0]
def msgAllDrained : List Byte := [2, 0]
def msgVerdict (code : Nat) : List Byte := [3, BitVec.ofNat 8 code]
def msgDecision (code : Nat) : List Byte := [4, BitVec.ofNat 8 code]

/-- The boundary message that a control packet holds: its step is the module's, or for DRAINED the next one. -/
def StepGroup.message (g : StepGroup) (p : Packet) : Option BMsg :=
  let now := p.step == g.step % 256
  let code := (p.data.getD 1 0).toNat
  match (p.data.getD 0 0).toNat with
  | 1 => (g.stepOf p.step).map (.drained p.srcRank ·)
  | 2 => if now then some .allDrained else none
  | 3 => if now then some (.verdict p.srcRank code) else none
  | 4 => if now then some (.decision code) else none
  | _ => none

/-- The other ranks that are mapped and not lost. -/
def StepGroup.peers (g : StepGroup) : List Nat :=
  (List.range g.nrank).filter (fun r => r != g.rank && (g.chipOf r).isSome && !g.lost.contains r)

/-- Is this module the root of the tree, the lowest live rank (R291)? -/
def StepGroup.isRoot (g : StepGroup) : Bool := g.peers.all (fun r => decide (g.rank < r))

/-- The root, and the rank above a rank in the tree: a live one below it in number, else the root (assumption 11). -/
def StepGroup.root (g : StepGroup) : Nat := min g.rank (g.peers.headD g.rank)
def StepGroup.parent (g : StepGroup) (r : Nat) : Nat :=
  let p := Config.treeParent r g.root
  if (p = g.rank ∨ g.peers.contains p) ∧ p < r then p else g.root

/-- The ranks whose messages this module gathers. -/
def StepGroup.children (g : StepGroup) : List Nat := g.peers.filter (fun r => r != g.root && g.parent r == g.rank)

/-- Have the messages of the boundary's state come up from every child? -/
def StepGroup.gathered (g : StepGroup) : Bool :=
  match g.bst with
  | .sync => g.children.all (fun r => g.drains.contains (r, g.step))
  | .vote => g.children.all (fun r => g.verdicts.any (·.1 == r))
  | _ => false

/-- The verdict of the module and of all below it (R290). -/
def StepGroup.combined (g : StepGroup) : Nat :=
  (g.verdicts.filter (fun e => g.children.contains e.1)).foldl (fun c e => worse c e.2) g.verdict

/-- The module's message goes up the tree, once, when those of its children have come. The root has nobody above it. -/
def State.tellUp (s : State) (vf : Nat) : State :=
  match s.group vf with
  | none => s
  | some g =>
    if g.told || g.isRoot || !g.gathered then s
    else
      let msg := if g.bst = .sync then msgDrained else msgVerdict g.combined
      (s.onGroup vf (fun g => { g with told := true })).sendTo vf (g.parent g.rank) (s.control vf g msg)

/-- The root's broadcast. -/
def State.broadcast (s : State) (vf : Nat) (msg : List Byte) : State :=
  match s.group vf with
  | none => s
  | some g => if g.isRoot then g.peers.foldl (fun s r => s.sendTo vf r (s.control vf g msg)) s else s

/-! ### Out of OPEN and out of DRAIN (R288, R291, R398) -/

/-- The fabric commands of every task of a VF. -/
def State.fxCommands (s : State) (vf : Nat) : List EngCmd :=
  s.teams.flatMap (fun e => if e.2.live && e.2.vf == vf then
    (List.range 4).flatMap (fun m => (s.member e.1 m).queue 3) else [])

/-- Has every packet of step n been sent and acknowledged (R291)? -/
def State.drained (s : State) (vf : Nat) (g : StepGroup) : Bool :=
  (s.fxCommands vf).all (fun c => c.moved || c.step != g.step)
  && (s.vf vf).outs.all (fun e => e.2.unacked.all (fun p => p.2.control || p.2.step != g.step % 256))
  && g.pend.all (fun p => p.2.control || p.2.step != g.step % 256)

/-- The cores that run tasks of a VF. -/
def State.vfCores (s : State) (vf : Nat) : List Nat :=
  s.teams.flatMap (fun e => if e.2.live && e.2.vf == vf then e.2.coreList else [])

/-- Flag every team of a VF to be swapped out (R398). -/
def State.stopVf (s : State) (vf : Nat) : State :=
  { s with teams := s.teams.map (fun e => if e.2.live && e.2.vf == vf then (e.1, { e.2 with swap := true }) else e) }

/-- Move the boundary on where its condition holds: QUORUM arrivals, which also stop a VF that migrates at this
boundary, and the acknowledgement of the step's packets. -/
def State.advance (s : State) (vf : Nat) : State :=
  let s : State := match s.group vf with
    | some g =>
      if g.bst = .opened ∧ g.quorum ≤ g.arrived then
        let stop := g.staged.any (fun c => c.rank == g.rank && c.bound == g.step)
        let s := s.onGroup vf (fun g => { g with bst := .drain, held := g.held || stop })
        if stop then s.stopVf vf else s
      else s
    | none => s
  match s.group vf with
  | some g =>
    if g.bst = .drain ∧ s.drained vf g then (s.onGroup vf (fun g => { g with bst := .sync, told := false })).tellUp vf
    else s
  | none => s

/-! ### STEPNB, STEPWT, STEP and FXSTAT (R287 to R290, R307) -/

/-- The arrival of STEPNB: the step arrived at; it waits for the boundary before it (R288). -/
def State.arrive (s : State) (core : Nat) (g : StepGroup) : Except Stop (Nat × State) :=
  let n := (s.ctx core).curStep
  if g.step < n ∨ g.held then waitE s
  else
    let s := s.onCtx core (fun c => { c with curStep := n + 1, arrivals := c.arrivals + 1 })
    let vf := (s.teamOf core).vf
    let s := if n = g.step then (s.onGroup vf (fun g => { g with arrived := g.arrived + 1 })).advance vf else s
    .ok (n, s)

/-- The status word of a completed step (R290). -/
def StepGroup.status (g : StepGroup) (n : Nat) : Word :=
  BitVec.ofNat 64 (256 * n + ((g.codes.find? (·.1 == n)).map (·.2)).getD 5)

/-- The status word of a step that a VF without a step group reports: NOT_MEMBER. -/
def notMember (n : Nat) : Word := BitVec.ofNat 64 (256 * n + 4)

/-- STEPNB (R289). -/
def execStepnb (d : SReg) (s : State) : Host.Outcome State Fault Refusal :=
  let s := s.breaking
  match (s.vfOf s.turn).sg with
  | none => s.writeRetire d (BitVec.allOnes 64)
  | some g => s.finish (do
      let (n, s) ← s.arrive s.turn g
      .ok ((s.onCtx s.turn (·.setS d (BitVec.ofNat 64 n))).retire 4))

/-- The wait of STEPWT for boundary `n`, and its status word. -/
def State.waitBoundary (s : State) (n : Nat) : Except Stop Word :=
  match (s.vfOf s.turn).sg with
  | none => .ok (notMember n)
  | some g => if g.step ≤ n then waitE s else .ok (g.status n)

/-- STEPWT (R289). -/
def execStepwt (d a : SReg) (s : State) : Host.Outcome State Fault Refusal :=
  let s := s.breaking
  let n := (s.rs a).toNat
  s.finish (
    if (s.ctx s.turn).curStep ≤ n then trapE s (tAhead (s.rs a))
    else do
      let w ← s.waitBoundary n
      .ok ((s.onCtx s.turn (·.setS d w)).retire 4))

/-- The step for which the STEP at the pc has arrived and waits: the wait of its ring, which no instruction of that ring has
retired since. -/
def Ctx.stepWait (c : Ctx) : Option Nat := (c.steps.find? (fun w => w.ring == c.ring && w.pc == c.pc)).map (·.num)

/-- STEP (R289): the arrival happens once, then the wait for its step. -/
def execStep (d : SReg) (s : State) : Host.Outcome State Fault Refusal :=
  let s := s.breaking
  let core := s.turn
  let done (s : State) (w : Word) : State := (s.onCtx core (·.setS d w)).retire 4
  let x := s.ctx core
  s.finish (match x.stepWait with
    | some n => do
      let w ← s.waitBoundary n
      .ok (done s w)
    | none => match (s.vfOf core).sg with
      | none => .ok (done s (notMember x.curStep))
      | some g => do
        let (n, s) ← s.arrive core g
        let s := s.onCtx core (fun c => { c with steps := ⟨x.ring, x.pc, n⟩ :: c.steps.filter (·.ring ≠ x.ring) })
        let w ← s.waitBoundary n
        .ok (done s w))

/-- The state number of FXSTAT. -/
def BState.code : BState → Nat
  | .opened => 0 | .drain => 1 | .sync => 2 | .vote => 3 | .applying => 4

/-- A 64-bit count that saturates (R307). -/
def sat64 (n : Nat) : Word := BitVec.ofNat 64 (min n (2 ^ 64 - 1))

/-- The wavelengths that a port shows as active: those of both directions; and as parked: those of either (assumption
38). -/
def Port.active (p : Port) : BitVec 16 := p.rx.active &&& p.tx.active
def Port.parked (p : Port) : BitVec 16 := p.rx.parked ||| p.tx.parked

/-- The value of a port's selector (R307). -/
def Port.status (p : Port) (c : Nat) : Option Word :=
  match c with
  | 0 => some (BitVec.ofNat 64 (p.active.toNat + 2 ^ 16 * p.parked.toNat + 2 ^ 32 * (p.rx.training ||| p.tx.training).toNat
      + 2 ^ 48 * (p.rx.failed ||| p.rx.dark ||| p.tx.failed ||| p.tx.dark).toNat))
  | 1 => some (sat64 p.uncorr)
  | 2 => some (sat64 p.replays)
  | 3 => some (sat64 p.retrains)
  | 4 => some (sat64 p.losses)
  | 5 => some (BitVec.ofNat 64 p.up.toNat)
  | _ => none

/-- What a selector reads; none where it is reserved (R307). DESIGN CHOICE (assumption 31): the selectors 1 to 4 read 0 for a
VF without a step group, and selector 2 before the group's first boundary has completed, where the rule gives no value. -/
def State.fxstat (s : State) (core sel : Nat) : Option Word :=
  let v := s.vfOf core
  let ofGroup (f : StepGroup → Nat) : Option Word := some (BitVec.ofNat 64 ((v.sg.map f).getD 0))
  match sel with
  | 0 => some (BitVec.ofNat 64 (s.ctx core).curStep)
  | 1 => ofGroup (fun g => 256 * g.step + g.bst.code)
  | 2 => ofGroup (fun g => if g.step = 0 then 0 else (g.status (g.step - 1)).toNat)
  | 3 => ofGroup (·.rank)
  | 4 => ofGroup (·.nrank)
  | 5 => some (sat64 s.retryBytes)
  | 6 => some (sat64 (v.outs.map (·.2.unacked.length)).sum)
  | 7 => some (sat64 v.failovers)
  | 8 => some (sat64 v.withheldW)
  | _ =>
    if 0x100 ≤ sel ∧ sel < 0x180 then (s.port ((sel - 0x100) / 16)).status (sel % 16)
    else if 0x200 ≤ sel ∧ sel < 0x280 then
      some (sat64 (Map.get 0 (s.port ((sel - 0x200) / 16)).berLast (sel % 16)))
    else none

/-- FXSTAT (R307). -/
def execFxstat (d a : SReg) (s : State) : Host.Outcome State Fault Refusal :=
  let s := s.breaking
  let sel := (s.rs a).toNat
  match s.fxstat s.turn sel with
  | none => s.finish (trapE s (tCommand 0 0 a.toNat 0))
  | some w =>
    if 0x100 ≤ sel ∧ (s.ctx s.turn).ring = .u then s.finish (trapE s (tRing 0))
    else s.writeRetire d w

/-! ### The fabric engine (R280, R281) -/

/-- The fault code of ENGINE 3 for a fault that R126 gives an engine (R281). -/
def fxCode (code : Nat) : Nat := code + 9

/-- A fabric command leaves its queue and counts as completed; it moves no outstanding counter (R279). -/
def State.fxDone (s : State) (team m num : Nat) : State :=
  let s := s.onMember team m (fun x => (x.setQueue 3 ((x.queue 3).filter (·.num ≠ num))).completeNum .fx num)
  s.advance (s.team team).vf

/-- The packet that a command sends next: its bytes are in `data`. -/
def State.fxPacket (s : State) (vf : Nat) (g : StepGroup) (c : EngCmd) (data : List Byte) : Packet := {
  control := false, port := 8, srcChip := s.fab.chip, vf := vf, reduce := c.kind == .fxred, step := c.step % 256, seq := 0
  srcRank := g.rank, win := fxWin c, off := fxOff c + c.prog, ctrEn := fxCtrEn c, ctrWin := fxCtrWin c
  ctrOff := fxCtrOff c, op := fxOp c, data := data, crcOk := true
  last := decide (fxLen c ≤ c.prog + data.length) }

/-- The key of a source's count of bank space: target rank and parity of the step. -/
def quotaKey (rank step : Nat) : Nat := 2 * rank + step % 2

/-- Send the next packet of a command (R280, R281, R292). A command of a step that has failed sends nothing more (R293). -/
def State.sendPacket (s : State) (team m : Nat) (g : StepGroup) (c : EngCmd) : State :=
  let vf := (s.team team).vf
  let rank := fxRank c
  let n := min 4096 (fxLen c - c.prog)
  let space := 32 + (n + 31) / 32 * 32
  let key := quotaKey rank c.step
  if g.lost.contains rank || (g.chipOf rank).isNone || decide (c.step < g.step) then s.fxDone team m c.num
  else if g.quota < Map.get 0 g.sent key + space then (s.onGroup vf (·.fail c.step 1)).fxDone team m c.num
  else
    let e := s.agent team m 3 c
    match (if n = 0 then .ok (s, c.edge, []) else s.srcRead e c.edge (c.g1.toNat + c.prog) n) with
    | .error (.park t) => { s with slices := t.slices }
    | .error (.fault _ code addr line u) =>
      let s := (s.engMeet e line u).clearRefused e
      let s := s.onMember team m (·.onTimeline .fx (fun t =>
        t.note 3 (fxCode code) c.kind.fn c.num (BitVec.ofNat 64 addr)))
      s.fxDone team m c.num
    | .ok (s, edge, bs) =>
      let s := s.sendTo vf rank (s.fxPacket vf g c bs)
      let s := s.onGroup vf (fun g => { g with sent := Map.set 0 g.sent key (Map.get 0 g.sent key + space) })
      let s := s.onMember team m (fun x => x.onCmd 3 c.num (fun c => { c with prog := c.prog + n, edge := edge }))
      if fxLen c ≤ c.prog + n then s.fxDone team m c.num else s

/-- May the first fabric command of a member send now? One that reads scratchpad waits while its team is swapped out
(R282); one whose stream holds 4096 packets (R295), or whose bytes the retry buffers cannot hold, waits. -/
def State.canSend (s : State) (team m : Nat) : Bool :=
  let t := s.team team
  match ((s.member team m).queue 3).head?, s.group t.vf with
  | some c, some g =>
    let away := t.cluster.isNone && spaceOf c.g1.toNat == .localSp && fxLen c != 0
    let full := match g.chipOf (fxRank c) with
      | some chip => decide (4096 ≤ ((s.vf t.vf).out chip).unacked.length)
      | none => false
    t.live && !away && !full && !s.parked team m 3
      && decide (s.retryBytes + 32 + min 4096 (fxLen c - c.prog) ≤ 2 ^ 23)
  | some _, none => t.live
  | none, _ => false

/-- The queue that the fabric engine serves next: one packet of each in turn (R280). -/
def State.fabricTurn (s : State) : Option Nat := roundRobin s.fab.served (s.ableQueues s.canSend)

/-- The fabric engine serves one packet of a task's first command. -/
def execFabricPacketSend (team m : Nat) (s : State) : Host.Outcome State Fault Refusal :=
  let vf := (s.team team).vf
  if !s.canSend team m || s.fabricTurn != some (4 * team + m) then .next s
  else
    let s := { s with fab := { s.fab with served := 4 * team + m } }
    match ((s.member team m).queue 3).head?, s.group vf with
    | some c, some g => .next (s.sendPacket team m g c)
    | some c, none => .next (s.fxDone team m c.num)
    | none, _ => .next s

/-! ### Receiving (R295) -/

/-- The unwrapped number that 32 bits name, near a mark: of the two nearest the one within 2³¹, but none below 0, where
the streams begin. -/
def unwrap (mark : Nat) (seq : BitVec 32) : Nat :=
  let d := (seq - BitVec.ofNat 32 mark).toNat
  if d < 2 ^ 31 ∨ mark + d < 2 ^ 32 then mark + d else mark + d - 2 ^ 32

/-- Raise the contiguous mark past every number received. -/
def InStream.advance : Nat → InStream → InStream
  | 0, x => x
  | n + 1, x =>
    if x.got.contains x.mark then InStream.advance n { mark := x.mark + 1, got := x.got.filter (· ≠ x.mark) } else x

def InStream.take (x : InStream) (n : Nat) : InStream :=
  InStream.advance (x.got.length + 1) { x with got := n :: x.got }

/-- Is a rank that stands on a chip still marked as migrating after its change has taken effect (R399)? -/
def StepGroup.arriving (g : StepGroup) (chip rank : Nat) : Bool :=
  g.migrating.contains rank && g.chipOf rank == some chip && !g.staged.any (·.rank == rank)

/-- The flits of a packet leave the input buffer of its port, which lets the far end send again where it held (R302). -/
def State.drainPort (s : State) (n flits : Nat) : State :=
  let held := (s.port n).holds
  let s := s.onPort n (fun p => { p with inbuf := p.inbuf - flits })
  if held && !(s.port n).holds then s.emit n ((s.port n).word 1) [] else s

/-- A packet of some bytes has come in by a port: its flits leave the input buffer, and the port wakes (R302, R412). -/
def State.inbound (s : State) (n bytes : Nat) : State :=
  if n < 8 then (s.drainPort n ((bytes + 223) / 224)).wakeBlock (8 + n) else s

/-- An acknowledgement is taken: the packets below its mark leave the retry buffer. The first one from a rank that has
migrated ends its mark, and the packets that it has not acknowledged are sent again (R295, R296, R399). -/
def State.takeMark (s : State) (vf chip : Nat) (mark : BitVec 32) : State :=
  let o := (s.vf vf).out chip
  let n := unwrap o.acked mark
  let back := (s.group vf).any (fun g => g.migrating.any (g.arriving chip))
  if n < o.acked ∨ o.next < n ∨ (n = o.acked ∧ !back) then s
  else
    let left := o.unacked.filter (fun p => decide (n ≤ p.1))
    let s := s.onOut vf chip (fun o => { o with acked := n, unacked := left })
    let s := s.onGroup vf (fun g => { g with migrating := g.migrating.filter (fun r => !g.arriving chip r) })
    let s := if back then left.foldl (fun s p => s.sendFlits vf chip p.2) s else s
    (s.releasePend vf).advance vf

/-- An acknowledgement arrives, by the port of its stream's route (R295). -/
def execFabricAckReceive (vf chip : Nat) (mark : BitVec 32) (s : State) : Host.Outcome State Fault Refusal :=
  .next ((match s.routePort vf chip with
    | some n => s.inbound n 32
    | none => s).takeMark vf chip mark)

/-- Every 100 µs the fabric engine sends a heartbeat to the other members of each group (R293). -/
def execHeartbeatSend (s : State) : Host.Outcome State Fault Refusal :=
  .next ((List.range 8).foldl (fun s vf => match s.group vf with
    | some g => g.peers.foldl (fun s r => s.sendTo vf r (s.control vf g [])) s
    | none => s) s)

/-! ### The verdict (R284, R285, R291) -/

/-- Do two EXCL writes of the bank share a byte of their window? -/
def StepGroup.conflict (g : StepGroup) (bank : List (Nat × Packet)) : Bool :=
  let ws := bank.filter (fun e => !e.2.reduce && ((g.window e.2.win).map (·.rule)) == some 5)
  (List.range ws.length).any (fun i => (List.range i).any (fun j =>
    match ws[i]?, ws[j]? with
    | some a, some b => a.2.win == b.2.win && rangesMeet a.2.off a.2.data.length b.2.off b.2.data.length
    | _, _ => false))

/-- The records of the bank for an APPEND window. -/
def recordsFor (bank : List (Nat × Packet)) (w : Nat) : Nat := (bank.filter (fun e => e.2.win == w)).length

/-- The APPEND windows that the bank writes to. -/
def StepGroup.appendWins (g : StepGroup) (bank : List (Nat × Packet)) : List Nat :=
  (List.range 256).filter (fun w => ((g.window w).map (·.rule)) == some 6 && recordsFor bank w != 0)

/-- Translate for the fabric die's apply, under the VF's PASID (R275). -/
def State.applyTr (s : State) (vf va : Nat) (write : Bool) : Tr :=
  let v := s.vf vf
  s.translate (.apply vf) v.logSlice v.taskPasid va write

/-- Would a ring overflow? none where a translation is pending (R285). The read of its indexes carries the world of the VF's
slice, and an index that cannot be read is a free value (assumptions 10 and 36). -/
def State.ringOver (s : State) (vf : Nat) (w : Window) (count : Nat) : State × Option Bool :=
  match s.applyTr vf w.base false with
  | .stall s => (s, none)
  | .refused s => (s, some ((Config.unreadIndex s.time.tick).getLsbD 0))
  | .ok pa =>
    let (t, bs) := s.devGet (s.fabricAsker vf (s.vf vf).taskPasid) pa 16
    let word (o : Nat) : Word := match bs with
      | some l => BitVec.ofNat 64 (leNat ((l.drop o).take 8))
      | none => Config.unreadIndex (s.time.tick + o)
    (t, some (decide (w.nslot < (word 0 + BitVec.ofNat 64 count - word 8).toNat)))

/-- Does any APPEND ring overflow? none where a translation is pending. -/
def State.ringsOver (s : State) (vf : Nat) (g : StepGroup) (bank : List (Nat × Packet)) : State × Option Bool :=
  (g.appendWins bank).foldl (fun (x : State × Option Bool) w =>
    match x.2, g.window w with
    | some b, some win =>
      let (s, r) := x.1.ringOver vf win (recordsFor bank w)
      (s, r.map (b || ·))
    | _, _ => x) (s, some false)

/-- Compute the verdict for step n and send it up the tree, unless a translation is pending. -/
def State.vote (s : State) (vf : Nat) (g : StepGroup) : State :=
  let bank := g.bank g.step
  match s.ringsOver vf g bank with
  | (s, none) => s
  | (s, some full) =>
    let v := worse (worse g.verdict (if full then 1 else 0)) (if g.conflict bank then 3 else 0)
    (s.onGroup vf (fun g => { g with verdict := v, bst := .vote, heard := false, told := false })).tellUp vf

/-! ### Leaving a boundary (R273, R290 to R293, R398) -/

/-- Rename the streams of a migrated rank: their states have moved with the VF (R295). -/
def Vf.renameStream (v : Vf) (old new : Nat) : Vf :=
  if old = new then v
  else { v with
    outs := Map.set {} (Map.set {} v.outs new { v.out old with route := 0, dead := false }) old {}
    ins := Map.set {} (Map.set {} v.ins new (v.inp old)) old {} }

/-- Apply the rank changes staged for the boundary just completed: the entry in the table, the copy, the streams. -/
def State.applyStaged (s : State) (vf bound : Nat) : State :=
  match s.group vf with
  | none => s
  | some g => (g.staged.filter (·.bound == bound)).foldl (fun s c =>
      let s := s.devPut (s.fabricAsker vf 0) (g.rtbase + 4 * c.rank) (leBytes 4 (c.chip + 2 ^ 31))
      let s := match g.chipOf c.rank with
        | some old => s.onVf vf (·.renameStream old c.chip)
        | none => s
      s.onGroup vf (fun g => { g with
        ranks := Map.set 0 g.ranks c.rank (c.chip + 2 ^ 31)
        staged := g.staged.filter (· ≠ c) })) s

/-- Clear VALID of the ranks lost for this boundary in the rank table (R273, R293). -/
def State.dropLost (s : State) (vf : Nat) (g : StepGroup) : State :=
  g.due.foldl (fun s r =>
    let a := g.rtbase + 4 * r + 3
    s.devPut (s.fabricAsker vf 0) a [BitVec.ofNat 8 (s.peekNat a 1 % 128)]) s

/-- FREE(n): record the code, free the bank and the counts, take the descriptor and the tables anew, wake the waiting
tasks; n + 1 becomes the module's step. A descriptor that cannot be read leaves the group as it stands (assumption
31). -/
def State.freeStep (s : State) (vf code : Nat) : State :=
  match s.group vf with
  | none => s
  | some g =>
    let n := g.step
    let s := s.dropLost vf g
    let s := s.applyStaged vf n
    let s := s.onGroup vf (fun g =>
      let g := g.setBank n []
      { g with
        step := n + 1, arrived := 0, bst := .opened, verdict := g.next, next := 0, heard := false, told := false
        drains := g.drains.filter (fun e => decide (n < e.2)), verdicts := []
        lost := g.lost.filter (fun r => !g.due.contains r), due := g.lost.filter (fun r => !g.due.contains r)
        todo := [], apps := []
        sent := g.sent.filter (fun e => e.1 % 2 ≠ n % 2)
        pend := g.pend.filter (fun e => e.2.control || e.2.step != n % 256)
        codes := ((n, code) :: g.codes).take 16 })
    let s := if code = 0 then s else s.fabricEvent 10 0xFF vf 0 0 code 0 0
    let s := match (s.vf vf).sgPa with
      | none => s.onVf vf (fun v => { v with sg := none })
      | some pa => match s.devGet (s.fabricAsker vf 0) pa 64 with
        | (s, none) => s.copyTables vf
        | (s, some bs) => match groupOf bs with
          | none => s.onVf vf (fun v => { v with sg := none })
          | some d => (s.onGroup vf (fun g => { g with
            group := d.group, rank := d.rank, nrank := d.nrank, quorum := d.quorum, tmo := d.tmo, sbbase := d.sbbase
            sbsize := d.sbsize, quota := d.quota, rtbase := d.rtbase, wtbase := d.wtbase })).copyTables vf
    let s := s.releasePend vf
    s.wakeAll (s.vfCores vf) 3

/-! ### Applying (R284 to R286, R294) -/

/-- One element's new value under a window's rule (R284): `none` replaces. -/
def ruleValue (w : Window) (old v : Nat) : Nat :=
  let n := 8 * w.width
  let sx (x : Nat) : Int := (BitVec.ofNat n x).toInt
  match w.rule with
  | 1 => (old + v) % 2 ^ n
  | 2 => addBits .fp32 old v
  | 3 => if sx old < sx v then v else old
  | 4 => if sx v < sx old then v else old
  | _ => v

/-- One element's new value under an FXRED operation (R283). -/
def redValue (op old v : Nat) : Nat :=
  let o : Word := BitVec.ofNat 64 old
  let x : Word := BitVec.ofNat 64 v
  match op with
  | 0 => (o + x).toNat
  | 1 => (old + v) % 2 ^ 32
  | 2 => addBits .fp32 old v
  | 3 => addBits .fp64 old v
  | 4 => if o.slt x then v else old
  | 5 => if x.slt o then v else old
  | 6 => (o &&& x).toNat
  | 7 => (o ||| x).toNat
  | _ => (o ^^^ x).toNat

/-- The bytes that a run of elements of `n` bytes becomes. -/
def elementBytes (n : Nat) (f : Nat → Nat → Nat) : Nat → List Byte → List Byte → List Byte
  | 0, _, _ => []
  | k + 1, old, new =>
    leBytes n (f (leNat (old.take n)) (leNat (new.take n))) ++ elementBytes n f k (old.drop n) (new.drop n)

/-- The bytes that a write leaves where `old` stood. -/
def pktResult (p : Packet) (w : Window) (old : List Byte) : List Byte :=
  let n := if p.reduce then (redWidth p.op).getD 8 else w.width
  elementBytes n (if p.reduce then redValue p.op else ruleValue w) (p.data.length / n) old p.data

/-- Does the write replace what stood there, so that a whole line needs no fill? -/
def pktReplaces (p : Packet) (w : Window) : Bool := !p.reduce && (w.rule == 0 || w.rule == 5 || w.rule == 6)

/-- The world of the port by which a write came in (R396); a local write has its slice's. -/
def State.portSecure (s : State) (vf : Nat) (p : Packet) : Bool :=
  s.home.world.getLsbD (if p.port < 8 then 16 + p.port else (s.vf vf).logSlice)

/-- What stops the write of bytes [pa, pa + n): the first bad line. -/
def State.applyErr (s : State) (secure replaces : Bool) (pa n : Nat) : Option (Nat × HErr) :=
  (linesOf pa n).findSome? (fun l =>
    let full := replaces && decide (pa ≤ 128 * l) && decide (128 * l + 128 ≤ pa + n)
    (s.lineErr secure 0 l (if full then .full else .part)).map (fun e => (l, e)))

/-- Translate the pages of a range for the apply. -/
def State.applyPages (s : State) (vf va n : Nat) : Except Tr (List (Nat × Nat)) :=
  foldE (fun (l : List (Nat × Nat)) p => match s.applyTr vf p.1 true with
    | .ok pa => .ok (l ++ [(pa, p.2)])
    | r => .error r) [] (pageSegs va n)

/-- A write is withheld: its error is recorded, the count rises (R294). -/
def State.withhold (s : State) (vf : Nat) (e : Option (Nat × HErr)) : State :=
  let s := match e with
    | some (l, e) => s.reportFor vf 0 l 4 0 e
    | none => s
  s.onVf vf (fun v => { v with withheldW := v.withheldW + 1 })

/-- Where a stored write stands in the step buffer: behind those that arrived before it (R292; assumption 30). -/
def StepGroup.bufferAt (g : StepGroup) (e : Nat × Packet) : Nat :=
  g.sbbase + e.2.step % 2 * (g.sbsize / 2) + (((g.bank e.2.step).takeWhile (· != e)).map (fun e => pktSpace e.2)).sum

/-- The uncorrectable error that a stored write meets as it is read back from the step buffer (R294). -/
def State.bufferErr (s : State) (g : StepGroup) (e : Nat × Packet) : Option (Nat × HErr) :=
  match s.readErr true 0 (g.bufferAt e) (pktSpace e.2) with
  | some (l, .ue k) => some (l, .ue k)
  | _ => none

/-- Apply one write: its bytes, then its counter. A pending translation leaves only its request, and `none`. -/
def State.applyOne (s : State) (vf : Nat) (g : StepGroup) (e : Nat × Packet) : State × Bool :=
  let p := e.2
  let rec_ : State → State := fun s => match g.window p.win with
    | some w => if w.rule = 6 then s.onGroup vf (fun g => { g with apps := Map.modify 0 g.apps p.win (· + 1) }) else s
    | none => s
  match g.window p.win, (if p.ctrEn then g.window p.ctrWin else none) with
  | none, _ => (s, true)
  | some w, cw =>
    let idx := match s.applyTr vf w.base false with
      | .ok pa =>
        if (s.readErr (s.fabricAsker vf 0).secure 0 pa 8).isSome then (Config.unreadIndex s.time.tick).toNat
        else s.peekNat pa 8
      | _ => 0
    let off := if w.rule = 6 then 128 + (idx + Map.get 0 g.apps p.win) % w.nslot * 2 ^ w.slotsz else p.off
    let pages : Except Tr (List (Nat × Nat) × Option Nat) := do
      if w.rule = 6 then match s.applyTr vf w.base false with
        | .ok _ => pure ()
        | r => .error r
      let l ← s.applyPages vf (w.base + off) p.data.length
      match cw with
      | none => .ok (l, none)
      | some c => match s.applyTr vf (c.base + p.ctrOff) true with
        | .ok pa => .ok (l, some pa)
        | r => .error r
    match pages with
    | .error (.stall t) => (t, false)
    | .error (.refused t) => (rec_ (t.withhold vf none), true)
    | .error (.ok _) => (s, true)
    | .ok (l, ctr) =>
      let sec := s.portSecure vf p
      let err := ((s.bufferErr g e).or (l.findSome? (fun e => s.applyErr sec (pktReplaces p w) e.1 e.2))).or
        (ctr.bind (fun pa => s.applyErr sec false pa 8))
      match err with
      | some e => (rec_ (s.withhold vf (some e)), true)
      | none =>
        let old := l.flatMap (fun e => s.peek e.1 e.2)
        let (s, _) := l.foldl (fun (x : State × List Byte) e => (x.1.poke e.1 (x.2.take e.2), x.2.drop e.2))
          (s, pktResult p w old)
        let s := match ctr with
          | some pa => s.pokeWq pa 8 (s.peekNat pa 8 + p.data.length)
          | none => s
        (rec_ s, true)

/-- Apply what is left of the step, in order, until a translation holds it up. -/
def State.applyAll (vf : Nat) : Nat → State → State
  | 0, s => s
  | n + 1, s => match s.group vf with
    | some g => match g.todo with
      | e :: rest => match s.applyOne vf g e with
        | (s, true) => State.applyAll vf n (s.onGroup vf (fun g => { g with todo := rest }))
        | (s, false) => s
      | [] => s
    | none => s

/-- Add the counts of the step's records to the write indexes (R285); false where a translation is pending. An index whose
line may not be written stays as it is, and the error is reported (R386). -/
def State.bumpRings (s : State) (vf : Nat) (g : StepGroup) : State × Bool :=
  g.apps.foldl (fun (x : State × Bool) a =>
    match x.2, g.window a.1 with
    | true, some w => match x.1.applyTr vf w.base true with
      | .ok pa =>
        let s := x.1.devPut (x.1.fabricAsker vf (x.1.vf vf).taskPasid) pa (leBytes 8 (x.1.peekNat pa 8 + a.2))
        (s.onGroup vf (fun g => { g with apps := Map.set 0 g.apps a.1 0 }), true)
      | .stall s => (s, false)
      | .refused s => (s.onGroup vf (fun g => { g with apps := Map.set 0 g.apps a.1 0 }), true)
    | _, _ => x) (s, true)

/-- The order of R284: source rank, then stream number. -/
def applyOrder (l : List (Nat × Packet)) : List (Nat × Packet) :=
  l.mergeSort (fun a b => decide (a.2.srcRank < b.2.srcRank) || (a.2.srcRank == b.2.srcRank && decide (a.1 ≤ b.1)))

/-- DECISION(n) (R291): DONE applies the bank, a failure discards it. -/
def State.decision (s : State) (vf code : Nat) : State :=
  if code = 0 then
    let s := s.onGroup vf (fun g => { g with bst := .applying, todo := applyOrder (g.bank g.step), apps := [] })
    State.applyAll vf ((s.group vf).map (·.todo.length) |>.getD 0) s
  else s.freeStep vf code

/-! ### The boundary's events -/

/-- A message of the boundary arrives. DRAINED and VERDICT come up the tree and are gathered; ALLDRAINED counts in SYNC and a
decision in VOTE, where it can be no weaker than this module's own verdict. The root gives itself both, once all below it
have told it (R290, R291). -/
def State.bmsg (s : State) (vf : Nat) (m : BMsg) : State :=
  match s.group vf with
  | none => s
  | some g =>
    match m, g.bst with
    | .drained r n, _ =>
      if g.drains.contains (r, n) ∨ n < g.step then s
      else (s.onGroup vf (fun g => { g with drains := (r, n) :: g.drains })).tellUp vf
    | .verdict r code, _ =>
      (s.onGroup vf (fun g => { g with verdicts := (r, code) :: g.verdicts.filter (·.1 ≠ r) })).tellUp vf
    | .allDrained, .sync =>
      if g.isRoot && !g.heard && !g.gathered then s
      else
        let s := if g.heard then s else (s.onGroup vf (fun g => { g with heard := true })).broadcast vf msgAllDrained
        s.vote vf g
    | .decision code, .vote =>
      if g.isRoot && !(g.gathered && code == g.combined) then s
      else if worse code g.verdict = code then (s.broadcast vf (msgDecision code)).decision vf code
      else s
    | _, _ => s

/-- BOUNDARY_MESSAGE (R291). -/
def execBoundaryMessage (vf : Nat) (m : BMsg) (s : State) : Host.Outcome State Fault Refusal := .next (s.bmsg vf m)

/-- A packet arrives: a bad header, a VF without its streams, or a number beyond the window is discarded unanswered; a
duplicate is acknowledged again; a new write is stored in its bank, then acknowledged; a boundary message counts (R291,
R292, R295, R298, R399). -/
def execFabricPacketReceive (p : Packet) (s : State) : Host.Outcome State Fault Refusal :=
  let s := s.inbound p.port (pktSize p)
  let x := (s.vf p.vf).inp p.srcChip
  let n := unwrap x.mark p.seq
  match s.group p.vf with
  | none => .next s
  | some g =>
    if !p.crcOk || !(s.vf p.vf).loaded || decide (x.mark + 4096 ≤ n) then .next s
    else if n < x.mark ∨ x.got.contains n then .next (s.ackStream p.vf p.srcChip x.mark)
    else
      let x := x.take n
      let s := s.onVf p.vf (fun v => { v with ins := Map.set {} v.ins p.srcChip x })
      let s := if p.control then s else s.onGroup p.vf (·.store n p)
      let s := s.ackStream p.vf p.srcChip x.mark
      .next (match (if p.control then g.message p else none) with
        | some m => s.bmsg p.vf m
        | none => s)

/-- The apply goes on, and once its last write is applied the write indexes rise and the step is free (R285, R291). -/
def execStepApplyComplete (vf : Nat) (s : State) : Host.Outcome State Fault Refusal :=
  match s.group vf with
  | some g =>
    if g.bst = .applying then
      let s := State.applyAll vf g.todo.length s
      match s.group vf with
      | some g =>
        if g.todo.isEmpty then
          match s.bumpRings vf g with
          | (s, true) => .next (s.freeStep vf 0)
          | (s, false) => .next s
        else .next s
      | none => .next s
    else .next s
  | none => .next s

/-- A peer's heartbeat has been missing for TMO (R291, R293). -/
def execPeerLost (vf rank : Nat) (s : State) : Host.Outcome State Fault Refusal :=
  match s.group vf with
  | none => .next s
  | some g =>
    if !g.peers.contains rank then .next s
    else
      let chip := (g.chipOf rank).getD 0
      let s := s.onGroup vf (fun g => { g with
        lost := rank :: g.lost, due := if g.bst = .applying then g.due else rank :: g.due
        staged := g.staged.filter (·.rank ≠ rank)
        migrating := g.migrating.filter (· ≠ rank), pend := g.pend.filter (·.1 ≠ rank) })
      let s := s.onOut vf chip (fun o => { o with acked := o.next, unacked := [] })
      let s := s.fabricEvent 9 0xFF vf 0 0 0 chip 0
      .next (match g.bst with
        | .opened => (s.onGroup vf (fun g => { g with verdict := 2 })).advance vf
        | .applying => s.onGroup vf (fun g => { g with next := 2 })
        | _ => s.freeStep vf 2)

/-- The chips whose streams a migration spares the failover of R297 (R399). -/
def StepGroup.migratingChip (g : StepGroup) (chip : Nat) : Bool := g.migrating.any (fun r => g.chipOf r == some chip)

/-- May a route carry packets? -/
def State.routeOk (s : State) (r : Route) : Bool := !r.failed && (s.port r.port).up

/-- The next valid route after the current one, wrapping from 3 to 0 (R297). -/
def State.nextRoute (s : State) (chip cur : Nat) : Option Nat :=
  ([1, 2, 3, 4].map (fun i => (cur + i) % 4)).find? (fun n =>
    (Map.get [] s.fab.routes chip).any (fun r => r.num == n && s.routeOk r))

/-- Move a stream to its next route and replay (R297). The event's 8-byte field for the contiguous mark holds the count of
packets, which does not wrap at 32 bits as the stream's numbers do (DESIGN CHOICE, assumption 31). -/
def State.failover (s : State) (vf chip : Nat) : State :=
  let o := (s.vf vf).out chip
  match s.nextRoute chip o.route with
  | none => s.onOut vf chip (fun o => { o with dead := true })
  | some n =>
    let s := s.onOut vf chip (fun o => { o with route := n, dead := false })
    let s := s.onVf vf (fun v => { v with failovers := v.failovers + 1 })
    let s := o.unacked.foldl (fun s e => s.sendFlits vf chip e.2) s
    s.fabricEvent 8 0xFF vf 0 0 n chip o.acked

/-- A stream leaves its route (R297): its port went down, a switch reported the route failed, or no acknowledgement
has advanced for 20 µs, which does not count for a migrating rank (R399). -/
def execRouteFailover (vf chip : Nat) (why : RouteWhy) (s : State) : Host.Outcome State Fault Refusal :=
  let o := (s.vf vf).out chip
  let cur := Map.get [] s.fab.routes chip
  match why with
  | .portDown =>
    if cur.any (fun r => r.num == o.route && !(s.port r.port).up) then .next (s.failover vf chip) else .next s
  | .reported =>
    let cur := cur.map (fun r => if r.num = o.route then { r with failed := true } else r)
    let s := { s with fab := { s.fab with routes := Map.set [] s.fab.routes chip cur } }
    .next (s.failover vf chip)
  | .noProgress =>
    if o.unacked.isEmpty || (match s.group vf with | some g => g.migratingChip chip | none => false) then .next s
    else .next (s.failover vf chip)

/-! ### The descriptor and migration -/

/-- The stream states of a VF, the packets that it still holds and its bindings leave with it, as they stand (R256,
R398). -/
def State.streamsOut (s : State) (vf : Nat) : State :=
  let v := s.vf vf
  let x : VfMove := ⟨v.stepNo, v.outs, v.ins, (v.sg.map (·.pend)).getD [], v.binds⟩
  let s := s.onGroup vf (fun g => { g with pend := [] })
  let s := (s.onVf vf (fun v => { v with outs := [], ins := [], binds := [], loaded := false })).signal (.streamStates vf x)
  s.slices.foldl (fun s n => n.2.swaps.foldl (fun s e =>
    let t := s.team e.2
    if t.live && t.vf == vf && t.saved.isSome then s.signal (.savedTeam n.1 e.1 t) else s) s) s

/-- The stream states of a VF that has come are loaded: its step goes on from theirs, it begins to acknowledge, each stream
at its mark, and the packets not yet acknowledged are sent again (R398, R399). -/
def State.streamsIn (s : State) (vf : Nat) (x : VfMove) : State :=
  let s := s.onVf vf (fun v => { v with outs := x.outs, ins := x.ins, binds := x.binds, loaded := true })
  let s := s.onGroup vf (fun g => { g with step := x.step, pend := g.pend ++ x.pend })
  let s := x.ins.foldl (fun s e => s.ackStream vf e.1 e.2.mark) s
  let s := x.outs.foldl (fun s e => e.2.unacked.foldl (fun s p => s.sendFlits vf e.1 p.2) s) s
  (s.releasePend vf).advance vf

/-- The hypervisor names a descriptor (R272): it takes effect at the next boundary, or at once where the VF has no
step group. A group begins at step 0 (R287). -/
def execStepGroupDescriptorWrite (vf pa : Nat) (s : State) : Host.Outcome State Fault Refusal :=
  let s := (s.wakeBlock 16).onVf vf (fun v => { v with sgPa := some pa })
  match s.group vf with
  | some _ => .next s
  | none => match s.devGet (s.fabricAsker vf 0) pa 64 with
    | (s, none) => .next s
    | (s, some bs) => match groupOf bs with
      | none => .next s
      | some g => .next ((s.onVf vf (fun v => { v with sg := some g })).copyTables vf)

/-- Is a VF to come to this module: the change maps a rank to it that stands elsewhere (R398, R399)? -/
def State.arrives (s : State) (vf rank chip : Nat) : Bool :=
  chip % 2 ^ 18 == s.fab.chip && (match s.group vf with
    | none => true
    | some g => g.rank == rank && g.chipOf rank != some s.fab.chip)

/-- A rank-table change is staged for boundary `bound` and its rank marked as migrating, or the change is withdrawn
before the module has stopped (R398, R400). The module that the VF comes to waits for its stream states (R399). -/
def execMigrationStage (vf rank chip bound : Nat) (withdraw : Bool) (s : State) : Host.Outcome State Fault Refusal :=
  let s := s.wakeBlock 16
  let s := if s.arrives vf rank chip then s.onVf vf (fun v => { v with loaded := withdraw }) else s
  match s.group vf with
  | none => .next s
  | some g =>
    if withdraw then
      if g.held || (g.step == bound && g.bst != .opened) then .next s
      else .next (s.onGroup vf (fun g => { g with
        staged := g.staged.filter (·.rank ≠ rank), migrating := g.migrating.filter (· ≠ rank) }))
    else if g.nrank ≤ rank ∨ bound < g.step then .next s
    else .next (s.onGroup vf (fun g => { g with
      staged := ⟨rank, chip % 2 ^ 18, bound⟩ :: g.staged.filter (·.rank ≠ rank)
      migrating := rank :: g.migrating.filter (· ≠ rank) }))

end Sys2Proof.Machine
end

