-- ==== Sys2Proof/Machine/Flags.lean ====
section
/-! DEFINITION. The sticky flags of ctl.fpflags (R29) and the rounding generator as an instruction uses them (R25,
R26). -/

namespace Sys2Proof.Machine

/-- The environment in which a core's instruction rounds: the flags gathered so far and the generator. -/
def Ctl.env (c : Ctl) : FEnv := ⟨c.fpflags, c.rng⟩

/-- The flags and the generator after the instruction. -/
def Ctl.setEnv (c : Ctl) (e : FEnv) : Ctl := { c with fpflags := e.flags, rng := e.rng }

def State.env (s : State) (core : Nat) : FEnv := (s.ctx core).ctl.env
def State.setEnv (s : State) (core : Nat) (e : FEnv) : State :=
  s.onCtx core (fun c => { c with ctl := c.ctl.setEnv e })

/-- OR flags into a task's ctl.fpflags (R29). -/
def Ctx.orFlags (c : Ctx) (f : Flags) : Ctx := { c with ctl := { c.ctl with fpflags := c.ctl.fpflags ||| f } }

end Sys2Proof.Machine
end

