-- ==== Sys2Proof/Machine/Operands.lean ====
section
/-! DEFINITION. The operand forms of vector words (R47, R48, R136 to R141, R176 to R179): tags and their checks, tile
layouts, scratchpad runs, streams, broadcast scalars, masks; and the frame in which every element-wise vector
instruction runs. -/

namespace Sys2Proof.Machine

/-- A mask register; k0 reads all ones (R141). -/
def Regs.mask (r : Regs) (n : Nat) : BitVec 128 := if n = 0 then BitVec.allOnes 128 else r.k.get n

def Regs.setMask (r : Regs) (n : Nat) (v : BitVec 128) : Regs :=
  if n = 0 then r else { r with k := r.k.set n v, bad := r.bad.filter (fun b => !b.ofK n) }

/-- Element count of a format (R176). -/
def elemCount (f : Fmt) : Nat := if f = .fp64 then 64 else 128

/-- The active elements (R176). -/
def Regs.actives (r : Regs) (k : BitVec 3) (n : Nat) : List Nat :=
  (List.range n).filter (fun i => (r.mask k.toNat).getLsbD i)

/-! ### Tile layouts (R137, R138) -/

inductive Layout where
  | l16 | l8 | l32 | l64
  deriving DecidableEq, Repr

def layoutOf : Fmt → Option Layout
  | .bf16 | .fp16 | .int16 => some .l16
  | .int8 | .uint8 | .e4m3 | .e5m2 | .mk8 | .e3m2 | .e2m3 => some .l8
  | .fp32 => some .l32
  | .fp64 => some .l64
  | _ => none

def Layout.pitch : Layout → Nat
  | .l16 => 256 | .l8 => 256 | .l32 => 128 | .l64 => 512

def Layout.width : Layout → Nat
  | .l16 => 2 | .l8 => 1 | .l32 => 4 | .l64 => 8

/-- The count that an index is reduced modulo (R138). -/
def Layout.modulo : Layout → Nat
  | .l16 => 128 | .l8 => 256 | .l32 => 32 | .l64 => 64

inductive TForm where
  | row | col | diag
  deriving DecidableEq, Repr

/-- Row and column of element `i` of a row, column or diagonal operand at reduced index `s` (R138). -/
def Layout.at (l : Layout) (t : TForm) (s i : Nat) : Nat × Nat :=
  match t, l with
  | .row, .l8 => (s / 2, 128 * (s % 2) + i)
  | .row, .l32 => (4 * s + i / 32, i % 32)
  | .row, _ => (s, i)
  | .col, _ => (i, s)
  | .diag, .l8 => (i, 128 * (s / 128) + (i + s) % 128)
  | .diag, l => (i, (i + s) % l.modulo)

/-- Byte offset of element `i` in a tile register. -/
def Layout.offset (l : Layout) (t : TForm) (s i : Nat) : Nat :=
  let (r, c) := l.at t (s % l.modulo) i
  r * l.pitch + c * l.width

/-- Byte offset in the sideband of element `i` of an E8 row operand (R139). -/
def sideOffset (s i : Nat) : Nat := (16 * (s % 8) + i / 8) * 8 + i % 8

def tileBytes : Nat := 32768

/-- The tile register, form and index register of a tile operand. -/
def tileForm : Operand → Option (Nat × TForm × SReg)
  | .row m ix => some (m.toNat, .row, ix)
  | .col m ix => some (m.toNat, .col, ix)
  | .diag m ix => some (m.toNat, .diag, ix)
  | _ => none

def Regs.tileElem (r : Regs) (m : Nat) (l : Layout) (t : TForm) (s i : Nat) : Nat :=
  leNat (r.m.getRange (m * tileBytes + l.offset t s i) l.width)

def Regs.setTileElem (r : Regs) (m : Nat) (l : Layout) (t : TForm) (s i v : Nat) : Regs :=
  { r with m := r.m.setRange (m * tileBytes + l.offset t s i) (leBytes l.width v) }

/-! ### Vector registers (R136) -/

def Regs.lane (r : Regs) (n i : Nat) : Parcel := r.v.get (128 * n + i)
def Regs.setLane (r : Regs) (n i : Nat) (x : Parcel) : Regs :=
  { r with v := r.v.set (128 * n + i) x, bad := r.bad.filter (· ≠ .v n i) }

def Regs.vElem (r : Regs) (n : Nat) (f : Fmt) (i : Nat) : Nat :=
  if f = .fp64 then (r.lane n (2 * i)).toNat + 4294967296 * (r.lane n (2 * i + 1)).toNat
  else (r.lane n i).toNat % 2 ^ fmtBits f

def Regs.setVElem (r : Regs) (n : Nat) (f : Fmt) (i v : Nat) : Regs :=
  if f = .fp64 then
    (r.setLane n (2 * i) (BitVec.ofNat 32 v)).setLane n (2 * i + 1) (BitVec.ofNat 32 (v / 4294967296))
  else r.setLane n i (BitVec.ofNat 32 (v % 2 ^ fmtBits f))

/-! ### Tags and their checks (R13 to R16, R139, R140) -/

/-- The tag that an operand carries; none for the untagged kinds. -/
def Regs.tagOf (r : Regs) : Operand → Option Fmt
  | .v n => some (r.vTag n.toNat)
  | .row m _ => some (r.mTag m.toNat)
  | .col m _ => some (r.mTag m.toNat)
  | .diag m _ => some (r.mTag m.toNat)
  | .q n => some (r.queue n.toNat).fmt
  | _ => none

def isTile (o : Operand) : Bool := (tileForm o).isSome

/-- Has the tag a sideband (R137)? -/
def hasSide (f : Fmt) : Bool := layoutOf f == some .l8

/-- The check of a tagged source against a format. -/
def Regs.checkSrc (r : Regs) (code : Nat) (o : Operand) (want : Fmt) : Option TrapInfo :=
  match r.tagOf o with
  | none => none
  | some t =>
    if isTile o && want == .e8 then (if hasSide t then none else some (tFormat want t code))
    else if t = want then none else some (tFormat want t code)

/-- The check of a destination that takes a tag (R140): only a tile register is checked. -/
def Regs.checkDst (r : Regs) (o : Operand) (tag : Fmt) : Option TrapInfo :=
  match tileForm o with
  | none => none
  | some (m, _, _) =>
    let t := r.mTag m
    if tag = .e8 then (if hasSide t then none else some (tFormat tag t 0))
    else if t = tag ∨ t = .raw then none else some (tFormat tag t 0)

/-- Set a destination's tag: a RAW tile is zeroed with its sideband first (R140); the sideband access keeps the tag. -/
def Regs.setTag (r : Regs) (o : Operand) (tag : Fmt) : Regs :=
  match o with
  | .v n => { r with vtag := Map.set .raw r.vtag n.toNat tag }
  | _ =>
    match tileForm o with
    | none => r
    | some (m, _, _) =>
      if tag = .e8 ∨ r.mTag m = tag then r
      else { r with
        m := Map.clear r.m (m * tileBytes) ((m + 1) * tileBytes)
        side := Map.clear r.side (m * 1024) ((m + 1) * 1024)
        mtag := Map.set .raw r.mtag m tag
        bad := r.bad.filter (fun b => !(b.ofTile m || b.ofSide m)) }

/-! ### Element addresses (R48, R179) -/

/-- The byte address of element `i` of a scratchpad operand of element width `w`; the grouped forms of VQBLK and
VDQBLK stand in groups of 33 bytes (R189). -/
def Ctx.spAddr (x : Ctx) (base : SReg) (stride : BitVec 6) (w : Nat) (grp : Bool) (i : Nat) : Nat :=
  if grp then (x.rs base + BitVec.ofNat 64 (33 * (i / 32) + i % 32)).toNat
  else (x.rs base + BitVec.ofNat 64 i * stride.signExtend 64 * BitVec.ofNat 64 w).toNat

/-- The scratchpad accesses of an operand: address and width of each. In the grouped form a block with a position below
`top` has its scale byte too (R189, R190). -/
def Ctx.spUses (x : Ctx) (o : Operand) (w : Nat) (grp : Bool) (pos : List Nat) (top : Nat := 128) : List (Nat × Nat) :=
  match o with
  | .sp base stride =>
    let els := pos.map (fun i => (x.spAddr base stride w grp i, w))
    if grp then
      let blocks := (List.range 4).filter (fun b => pos.any (fun i => i / 32 == b && decide (i < top)))
      els ++ blocks.map (fun b => ((x.rs base + BitVec.ofNat 64 (33 * b + 32)).toNat, 1))
    else els
  | _ => []

/-- The address checks of R179: every space check, then every alignment check. -/
def spCheck (aligned : Bool) (uses : List (Nat × Nat)) : Option TrapInfo :=
  match uses.find? (fun u => !rangeIn .localSp u.1 u.2) with
  | some u => some (tAddress u.1)
  | none =>
    if aligned then (uses.find? (fun u => u.1 % u.2 ≠ 0)).map (fun u => tMisaligned u.1) else none

/-! ### Reading elements -/

/-- A mask element, 1 or 0 in a format (R141). E8 has no zero: the model's 0 there is the byte 0xFF, with no flag, as
`exactBits` gives it (R23, R179; assumption 27). -/
def maskElem (f : Fmt) (b : Bool) : Nat :=
  if f = .raw then b.toNat else exactBits f (FVal.ofNat b.toNat)

/-- A source of a vector instruction: its operand, its place in FORMAT_MISMATCH, the format it is checked against, the
format its elements are read in, the layout of a RAW tile, and the positions read. -/
structure VSrc where
  code : Nat
  o    : Operand
  want : Option Fmt
  f    : Fmt
  lay  : Fmt := .raw
  pos  : List Nat
  grp  : Bool := false

/-- Element `i` of a source that is no stream. -/
def State.element (s : State) (core : Nat) (x : Ctx) (v : VSrc) (i : Nat) : Nat :=
  let w := fmtBytes v.f
  match v.o with
  | .v n => x.regs.vElem n.toNat v.f i
  | .sp base stride =>
    leNat (((s.cluster (clusterOf core)).store).spGet (spOff (x.spAddr base stride w v.grp i)) w) % 2 ^ fmtBits v.f
  | .s n => (x.rs n).toNat % 2 ^ fmtBits v.f
  | .k n => maskElem v.f ((x.regs.mask n.toNat).getLsbD i)
  | .q _ => 0
  | o =>
    match tileForm o with
    | none => 0
    | some (m, t, ix) =>
      let sx := (x.rs ix).toNat
      let tag := x.regs.mTag m
      if v.f = .e8 ∧ tag ≠ .raw then (x.regs.side.get (m * 1024 + sideOffset sx i)).toNat
      else match layoutOf (if tag = .raw then v.lay else tag) with
        | some l => x.regs.tileElem m l t sx i % 2 ^ (if tag = .raw then fmtBits v.lay else fmtBits tag)
        | none => Config.rawTile s.time.tick i % 2 ^ fmtBits v.f

/-- The words that the bytes [off, off + n) of a tile register touch. -/
def tileWords (m off n : Nat) : List BadReg := if off % 4 + n ≤ 4 then [.m m (off / 4)] else [.m m (off / 4), .m m (off / 4 + 1)]

/-- The word that the tag of a vector or tile register stands with (R148). -/
def tagWords (o : Operand) : List BadReg :=
  match o with
  | .v n => [.v n.toNat 0]
  | o => match tileForm o with
    | some (m, _, _) => [.m m 0]
    | none => []

/-- The register words that a source reads, with the word that its tag stands with where it is checked (R148); a
stream's are those of `Regs.streamBad`. -/
def VSrc.words (v : VSrc) (x : Ctx) : List BadReg :=
  match v.o with
  | .v n => .v n.toNat 0 :: v.pos.flatMap (fun i =>
      if v.f = .fp64 then [.v n.toNat (2 * i), .v n.toNat (2 * i + 1)] else [.v n.toNat i])
  | .s n => [.s n.toNat 0, .s n.toNat 1]
  | .k n => (List.range 4).map (.k n.toNat)
  | o => match tileForm o with
    | none => []
    | some (m, t, ix) =>
      let sx := (x.rs ix).toNat
      let tag := x.regs.mTag m
      .m m 0 :: v.pos.flatMap (fun i =>
        if v.f = .e8 ∧ tag ≠ .raw then [.side m (sideOffset sx i / 4)]
        else match layoutOf (if tag = .raw then v.lay else tag) with
          | some l => tileWords m (l.offset t sx i) l.width
          | none => [])

/-- The streams that sources pop, with the elements each needs in all. -/
def streamNeeds (vs : List VSrc) : List (Nat × Nat) :=
  vs.foldl (fun l v => match v.o with
    | .q n =>
      if l.any (·.1 == n.toNat) then l.map (fun e => if e.1 == n.toNat then (e.1, e.2 + v.pos.length) else e)
      else l ++ [(n.toNat, v.pos.length)]
    | _ => l) []

/-- Pop every stream source, in order; the popped elements by position. -/
def State.popAll (s : State) (core : Nat) (vs : List VSrc) : State × List (List (Nat × Nat)) :=
  vs.foldl (fun a v => match v.o with
    | .q n =>
      let (s, xs) := a.1.streamTake core n.toNat v.pos.length
      (s, a.2 ++ [v.pos.zip xs])
    | _ => (a.1, a.2 ++ [[]])) (s, [])

/-- The value that source number `j` gives at a position. -/
def State.srcValue (s : State) (core : Nat) (x : Ctx) (vs : List VSrc) (popped : List (List (Nat × Nat))) (j i : Nat) :
    Nat :=
  match vs[j]? with
  | none => 0
  | some v => match v.o with
    | .q _ => (((popped.getD j []).find? (fun e => e.1 == i)).map (·.2)).getD 0 % 2 ^ fmtBits v.f
    | _ => s.element core x v i

/-! ### Writing elements -/

/-- A destination: the operand, the format its elements are written in, the tag it takes, the positions written, and
below which of them a block of the grouped form has a scale. -/
structure VDst where
  o   : Operand
  f   : Fmt
  tag : Fmt
  pos : List Nat
  grp : Bool := false
  top : Nat := 128

/-- The word of a tile destination whose tag is checked. -/
def VDst.words (d : VDst) : List BadReg := if isTile d.o then tagWords d.o else []

def Ctx.onRegs (c : Ctx) (f : Regs → Regs) : Ctx := { c with regs := f c.regs }

/-- Is the word a tile register's, or a sideband's, every byte of which lies in an element of `w` bytes at one of the
offsets? -/
def tileCovered (m w : Nat) (offs : List Nat) (b : BadReg) : Bool :=
  match b with
  | .m n x => n == m && (List.range 4).all (fun j => offs.any (fun o => decide (o ≤ 4 * x + j ∧ 4 * x + j < o + w)))
  | _ => false
def sideCovered (m : Nat) (offs : List Nat) (b : BadReg) : Bool :=
  match b with
  | .side n x => n == m && (List.range 4).all (fun j => offs.contains (4 * x + j))
  | _ => false

/-- Write elements of a tile operand, the tag set first. -/
def Regs.writeTile (r : Regs) (o : Operand) (m : Nat) (t : TForm) (sx : Nat) (tag : Fmt) (vals : List (Nat × Nat)) :
    Regs :=
  let r := r.setTag o tag
  if tag = .e8 then
    (vals.foldl (fun r e => { r with side := r.side.set (m * 1024 + sideOffset sx e.1) (BitVec.ofNat 8 e.2) }) r).heal
      (sideCovered m (vals.map (fun e => sideOffset sx e.1)))
  else match layoutOf tag with
    | some l => (vals.foldl (fun r e => r.setTileElem m l t sx e.1 (e.2 % 2 ^ fmtBits tag)) r).heal
        (tileCovered m l.width (vals.map (fun e => l.offset t sx e.1)))
    | none => r

/-- Write elements to a destination in ascending order, and set its tag. -/
def State.writeElems (s : State) (core : Nat) (d : VDst) (vals : List (Nat × Nat)) : State :=
  let x := s.ctx core
  match d.o with
  | .v n =>
    s.onCtx core (·.onRegs (fun r => vals.foldl (fun r e => r.setVElem n.toNat d.f e.1 e.2) (r.setTag d.o d.tag)))
  | .sp base stride =>
    let w := fmtBytes d.f
    s.onStore (clusterOf core) (fun t => vals.foldl (fun t e =>
      t.spPut (spOff (x.spAddr base stride w d.grp e.1)) (leBytes w (e.2 % 2 ^ fmtBits d.f))) t)
  | o =>
    match tileForm o with
    | none => s
    | some (m, t, ix) => s.onCtx core (·.onRegs (fun r => r.writeTile o m t (x.rs ix).toNat d.tag vals))

/-- Is one of the register words read, or of the stream elements popped, one that fails its ECC (R148)? -/
def Regs.reads (r : Regs) (words : List BadReg) (streams : List (Nat × Nat)) : Bool :=
  !r.bad.isEmpty && (words.any r.bad.contains || streams.any (fun e => r.streamBad e.1 e.2))

/-! ### The frame of an element-wise instruction (R178) -/

/-- Check, pop, read, compute, write; a tag that fails its ECC is met before it is compared (R148). Of several operands whose
scratchpad addresses fail, the first of A, B, D as a source and D as destination is reported, and every space check comes
before every alignment check (DEDUCED, assumption 27). `comp` receives the sources' elements by source number and position, and the
rounding environment; `fin` writes what it answers. `more` are register words that are read besides the sources'. -/
def State.vectorOp {α : Type} (s : State) (srcs : List VSrc) (dst : Option VDst)
    (comp : (Nat → Nat → Nat) → FEnv → α × FEnv) (fin : State → α → State) (more : List BadReg := []) : Res :=
  let core := s.turn
  let x := s.ctx core
  let tagTrap :=
    (srcs.filter (·.code = 0)).findSome? (fun v => v.want.bind (x.regs.checkSrc v.code v.o))
    |>.or (dst.bind (fun d => x.regs.checkDst d.o d.tag))
    |>.or ((srcs.filter (·.code ≠ 0)).findSome? (fun v => v.want.bind (x.regs.checkSrc v.code v.o)))
  if x.regs.reads (srcs.flatMap (fun v => tagWords v.o) ++ (dst.map VDst.words).getD []) [] then
    .ok ((s.consumeLocal core 0).retire 12)
  else match tagTrap with
  | some t => trapE s t
  | none =>
    let reads := srcs.flatMap (fun v => x.spUses v.o (fmtBytes v.f) v.grp v.pos)
    let writes := match dst with
      | some d => x.spUses d.o (fmtBytes d.f) d.grp d.pos d.top
      | none => []
    let alignedUses := (srcs.filter (!·.grp)).flatMap (fun v => x.spUses v.o (fmtBytes v.f) false v.pos)
      ++ (match dst with
        | some d => if d.grp then [] else x.spUses d.o (fmtBytes d.f) false d.pos
        | none => [])
    match (spCheck false (reads ++ writes)).or (spCheck true alignedUses) with
    | some t => trapE s t
    | none =>
      if reads.any (fun u => s.mcastPending core (spOff u.1) u.2) || (!writes.isEmpty && s.mcastOut core) then waitE s
      else match (streamNeeds srcs).findSome? (fun e => s.streamStop core e.1 e.2) with
        | some stop => .error stop
        | none =>
          let st := (s.cluster (clusterOf core)).store
          let bad := reads.any (fun u => st.spBadIn (spOff u.1) u.2)
            || writes.any (fun u => decide (u.2 < 8) && st.spBadIn (spOff u.1) u.2)
            || x.regs.reads (srcs.flatMap (·.words x) ++ ((dst.map VDst.words).getD []) ++ more) (streamNeeds srcs)
          if bad then .ok ((s.consumeLocal core 0).retire 12)
          else
            let (s1, popped) := s.popAll core srcs
            let (r, env) := comp (s.srcValue core x srcs popped) (s.env core)
            .ok ((fin (s1.setEnv core env) r).retire 12)

/-- The element-wise computation of a list of positions in ascending order, threading the environment. -/
def mapElems (f : Nat → FEnv → Nat × FEnv) : List Nat → FEnv → List (Nat × Nat) × FEnv
  | [], env => ([], env)
  | i :: r, env =>
    let (v, env) := f i env
    let (l, env) := mapElems f r env
    ((i, v) :: l, env)

end Sys2Proof.Machine
end

