-- ==== Sys2Proof/Machine/Array.lean ====
section
/-! DEFINITION. What the matrix array does to its data: accumulator tiles and row checksums (R143 to R146), operand
geometry and its checks (R201 to R204), the tile step with its freeze and its fault stop (R199, R205, R226, R227), and
the row instructions MLD, MST, MZERO, ACPY and ACPYIN (R220 to R223). -/

namespace Sys2Proof.Machine

/-! ### Accumulators (R143, R145, R146) -/

def accKey (t i j : Nat) : Nat := (t * 128 + i) * 128 + j

def TeamStore.word (s : TeamStore) (t i j : Nat) : Parcel := s.acc.get (accKey t i j)

/-- One's-complement fold of a sum into 32 bits. -/
def endAround (x : Nat) : Nat :=
  let y := x % 2 ^ 32 + x / 2 ^ 32
  y % 2 ^ 32 + y / 2 ^ 32

/-- RowSum of R145. -/
def TeamStore.rowSum (s : TeamStore) (t i : Nat) : Nat :=
  endAround ((s.acc.getRange (accKey t i 0) 128).foldl (fun n w => n + w.toNat) 0)

/-- The comparison of R146: both zeros are equal. -/
def sameSum (a b : Nat) : Bool := a % (2 ^ 32 - 1) == b % (2 ^ 32 - 1)

def TeamStore.rowOk (s : TeamStore) (t i : Nat) : Bool :=
  sameSum (s.sums.get (t * 128 + i)).toNat (s.rowSum t i)

/-- Write one word, its row's checksum c becoming c + n − o (R145). Of the two values that stand for zero, the checksum of a
row whose words become all zero is the one that the end-around sum leaves, 0xFFFFFFFF (DESIGN CHOICE, assumption 51). -/
def TeamStore.putWord (s : TeamStore) (t i j : Nat) (w : Parcel) : TeamStore :=
  let o := (s.word t i j).toNat
  let c := (s.sums.get (t * 128 + i)).toNat
  { s with
    acc := s.acc.set (accKey t i j) w
    sums := s.sums.set (t * 128 + i) (BitVec.ofNat 32 (endAround (c + w.toNat + (2 ^ 32 - 1 - o)))) }

/-- An element of an accumulator under a C format (R143). -/
def TeamStore.accElem (s : TeamStore) (cf : Fmt) (t i j : Nat) : Nat :=
  if cf = .fp64 then (s.word t i (2 * j)).toNat + 2 ^ 32 * (s.word t i (2 * j + 1)).toNat
  else (s.word t i j).toNat

def TeamStore.setAccElem (s : TeamStore) (cf : Fmt) (t i j v : Nat) : TeamStore :=
  if cf = .fp64 then
    (s.putWord t i (2 * j) (BitVec.ofNat 32 v)).putWord t i (2 * j + 1) (BitVec.ofNat 32 (v / 2 ^ 32))
  else s.putWord t i j (BitVec.ofNat 32 v)

def TeamStore.aTag (s : TeamStore) (t : Nat) : Fmt := Map.get .raw s.atag t
def TeamStore.setATag (s : TeamStore) (t : Nat) (f : Fmt) : TeamStore := { s with atag := Map.set .raw s.atag t f }

/-- Rows or columns of the output tile of a C format (R5, R143). -/
def accSide (cf : Fmt) : Nat := if cf = .fp64 then 64 else 128

/-- The indices below `n` whose mask bit is 1 (R142). -/
def maskList (k : BitVec 128) (n : Nat) : List Nat := (List.range n).filter (fun i => k.getLsbD i)

/-- Rows and columns of a tile layout (R137). -/
def Layout.rows (l : Layout) : Nat := if l = .l64 then 64 else 128
def Layout.cols (l : Layout) : Nat := l.modulo

end Sys2Proof.Machine

namespace Sys2Proof

/-! ### Steps (R199, R200, R205, R218) -/

/-- The format class of an MMA. -/
def MWord.cls (w : MWord) : MClass := ((mmaClass w.af w.bf (w.aScaled || w.bScaled)).map (·.1)).getD .c16

/-- The K count of a step (R205). -/
def MWord.kc (w : MWord) : Nat := if w.kcount = 0 then w.cls.kt else w.kcount.toNat

/-- The target tile and the paired tile of repeat `r` (R218). -/
def MWord.target (w : MWord) (r : Nat) : Nat := if w.accAcross then w.acc.toNat else (w.acc.toNat + r) % 8
def MWord.pair (w : MWord) (r : Nat) : Nat := if w.accAcross then w.acc2.toNat else (w.acc2.toNat + r) % 8

/-- Rows(m). -/
def MClass.rowsDone (c : MClass) (m : Nat) : Nat :=
  match c with
  | .c16 => m
  | .c8 => 2 * m
  | .fp32 => m / 4
  | .fp64 => m / 2

/-- The first slot that carries K row `k`. -/
def MClass.slotOf (c : MClass) (k : Nat) : Nat :=
  match c with
  | .c16 => k
  | .c8 => k / 2
  | .fp32 => 4 * k
  | .fp64 => 2 * k

/-- The last cycle of a step (R200). -/
def MClass.last (c : MClass) : Nat := if c = .fp64 then 253 else 381

/-- n(i, j) of R226 for a step frozen after `c` cycles. -/
def MWord.formed (w : MWord) (c i j : Nat) : Nat := min w.kc (w.cls.rowsDone (min (c - i - j) 128))

end Sys2Proof

namespace Sys2Proof.Machine

/-! ### The fields of a queued instruction -/

def MxInstr.word (m : MxInstr) : MWord := (m.insn.mparts.map (·.2)).getD MWord.zero
def MxInstr.op (m : MxInstr) : Option MOp := m.insn.mparts.map (·.1)

/-- The number of steps (R218), which is also the charge (R212). -/
def MxInstr.nrep (m : MxInstr) : Nat := if m.op = some .mma then max 1 m.word.rep.toNat else 1

/-- Does the step of repeat `r` drain (R218, R219)? -/
def MxInstr.drains (m : MxInstr) (r : Nat) : Bool :=
  m.word.dmode == 1 && (!m.word.drainLast || r + 1 == m.nrep)

/-- Active rows and columns under a C format. -/
def MxInstr.rows (m : MxInstr) : List Nat := maskList m.rowK (accSide m.word.cf)
def MxInstr.cols (m : MxInstr) : List Nat := maskList m.colK (accSide m.word.cf)

/-! ### Scratchpad operands (R202, R203) -/

/-- The two registers of a scratchpad operand (R202). -/
structure SpOp where
  base   : Nat
  tpitch : Nat
  rpitch : Nat
  rot    : Nat

def spOp (first second : Word) : SpOp :=
  ⟨bitsOf first.toNat 0 32, bitsOf first.toNat 32 32, bitsOf second.toNat 0 32, bitsOf second.toNat 32 4⟩

/-- The physical offset of a logical one in row `r` (R202). -/
def rotated (o r rot : Nat) : Nat := o / 4096 * 4096 + (o / 128 % 32 + r * rot) % 32 * 128 + o % 128

/-- e(k) of R202, and the offset of its block's scale. -/
def elemOff (scaled : Bool) (w k : Nat) : Nat := if scaled then 33 * (k / 32) + k % 32 else k * w
def scaleOff (k : Nat) : Nat := 33 * (k / 32) + 32

/-- The logical offset of byte `b` of row `r` in repeat `rep`. -/
def SpOp.logical (p : SpOp) (rep r b : Nat) : Nat := p.base + rep * p.tpitch + r * p.rpitch + b

def SpOp.phys (p : SpOp) (rep r b : Nat) : Nat := rotated (p.logical rep r b) r p.rot

/-- The bytes of one row that elements 0 to `n` − 1 touch, ascending. -/
def rowBytes (scaled : Bool) (w n : Nat) : List Nat :=
  if scaled then (List.range (33 * (ceilDiv n 32))).filter (fun b => b % 33 == 32 || decide (b / 33 * 32 + b % 33 < n))
  else List.range (n * w)

/-- A scratchpad operand as acceptance checks it: the two registers, the register number of the second, whether it is
scaled, the element width, the rows, the bytes of a row, the repeats. -/
structure SpUse where
  first  : Word
  second : Word
  sreg   : Nat
  scaled : Bool
  w      : Nat
  rows   : List Nat
  bytes  : List Nat
  reps   : Nat

/-- The scratchpad operands of an instruction, A then B (R203). -/
def MxInstr.spUses (m : MxInstr) : List SpUse :=
  let w := m.word
  let a (rows bytes : List Nat) (reps : Nat) : SpUse :=
    ⟨m.a1, m.a2, w.aSecond.toNat, w.aScaled, fmtBytes w.af, rows, bytes, reps⟩
  match m.op with
  | some .mma =>
    (if w.aKind = 1 then [a m.rows (rowBytes w.aScaled (fmtBytes w.af) w.kc) (if w.advA then m.nrep else 1)] else [])
    ++ (if w.bKind = 1 then [⟨m.b1, m.b2, w.bSecond.toNat, w.bScaled, fmtBytes w.bf, m.cols,
          rowBytes w.bScaled (fmtBytes w.bf) w.kc, if w.advB then m.nrep else 1⟩] else [])
  | some .mld =>
    (match layoutOf w.af with
    | some l => [a (List.range l.rows) (rowBytes w.aScaled (fmtBytes w.af) l.cols) 1]
    | none => [])
  | some .mst =>
    let n := fmtBytes w.af
    [a m.rows (m.cols.flatMap (fun j => (List.range n).map (· + j * n))) 1]
  | _ => []

/-- The physical offset of the first byte that lies outside the scratchpad, in ascending repeat, row and byte. -/
def SpUse.outside (u : SpUse) : Option Nat :=
  let p := spOp u.first u.second
  (List.range u.reps).findSome? (fun rep => u.rows.findSome? (fun r => u.bytes.findSome? (fun b =>
    if 0x800000 ≤ p.phys rep r b then some (p.phys rep r b) else none)))

/-- The offset that a misaligned unscaled operand reports. -/
def SpUse.misaligned (u : SpUse) : Option Nat :=
  let p := spOp u.first u.second
  if u.scaled || u.rows.isEmpty || u.bytes.isEmpty then none
  else if p.base % u.w ≠ 0 then some p.base
  else if p.rpitch % u.w ≠ 0 then some (p.base + p.rpitch)
  else if p.tpitch % u.w ≠ 0 then some (p.base + p.tpitch)
  else none

/-- The operand checks of R202 and R203: reserved bits, then every range, then every alignment. -/
def spOperandTrap (us : List SpUse) : Option TrapInfo :=
  (us.findSome? (fun u =>
    let x := bitsOf u.second.toNat 36 28
    if x = 0 then none else some (tCommand 0 (36 + trailingZerosFrom 28 0 x) u.sreg 0)))
  |>.or ((us.findSome? (·.outside)).map (fun o => tAddress ((spWindow + o) % 2 ^ 64)))
  |>.or ((us.findSome? (·.misaligned)).map (fun o => tMisaligned ((spWindow + o) % 2 ^ 64)))

/-! ### Operand elements (R201, R204, R30) -/

/-- A value times its block's scale; 0xFF makes it NaN (R30). -/
def scaleV (v : FVal) (e : Nat) : FVal :=
  if e = 255 then .nan
  else match v with
    | .fin n m x st => .fin n m (x + (e : Int) - 127) st
    | v => v

/-- One operand of a step: where its elements come from, its format, whether it is scaled. -/
inductive MSrc where
  | tile (m : Nat) (transposed : Bool)
  | sp (p : SpOp) (rep : Nat)
  | slot (n : Nat)

structure MOpnd where
  src    : MSrc
  f      : Fmt
  scaled : Bool
  kt     : Nat

/-- Operands A and B of repeat `r` (R201, R218). -/
def MxInstr.opndA (m : MxInstr) (r : Nat) : MOpnd :=
  let w := m.word
  let r := if w.advA then r else 0
  ⟨if w.aKind = 1 then .sp (spOp m.a1 m.a2) r else .tile ((w.aTile.toNat + r) % 8) (w.aKind == 2), w.af, w.aScaled,
    w.cls.kt⟩

def MxInstr.opndB (m : MxInstr) (r : Nat) : MOpnd :=
  let w := m.word
  let r := if w.advB then r else 0
  ⟨if w.bKind = 1 then .sp (spOp m.b1 m.b2) r
    else if w.bKind = 2 then .slot ((4 * (w.bTile.toNat % 2) + w.slot.toNat + r) % 8)
    else .tile ((w.bTile.toNat + r) % 8) (w.bKind == 3), w.bf, w.bScaled, w.cls.kt⟩

def spNat (t : TeamStore) (p : SpOp) (rep r b n : Nat) : Nat :=
  leNat (t.sp.getRange (p.phys rep r b) n)

/-- The bits of element `k` of line `i` of an operand: row `i` of A, column `i` of B. -/
def MOpnd.bits (o : MOpnd) (t : TeamStore) (r : Regs) (i k : Nat) : Nat :=
  let w := fmtBytes o.f
  match o.src with
  | .tile m tr =>
    (match layoutOf o.f with
    | some l =>
      let (a, b) := if tr then (k, i) else (i, k)
      leNat (r.m.getRange (m * tileBytes + a * l.pitch + b * l.width) w)
    | none => 0)
  | .sp p rep => spNat t p rep i (elemOff o.scaled w k) w
  | .slot n => leNat (t.wb.getRange (n * slotBytes + (i * o.kt + k) * w) w)

/-- The scale byte of the block of element `k`. -/
def MOpnd.scale (o : MOpnd) (t : TeamStore) (r : Regs) (i k : Nat) : Nat :=
  match o.src with
  | .tile m _ => (r.side.get (m * 1024 + 8 * i + k / 32)).toNat
  | .sp p rep => spNat t p rep i (scaleOff k) 1
  | .slot n => (t.wbs.get (n * 1024 + 8 * i + k / 32)).toNat

/-- The exact value of an element with its scale. -/
def MOpnd.value (o : MOpnd) (t : TeamStore) (r : Regs) (i k : Nat) : FVal :=
  let v := decodeF o.f (o.bits t r i k)
  if o.scaled then scaleV v (o.scale t r i k) else v

/-- Does the fetch of elements [0, n) of the lines meet an uncorrectable error in a tile register or scratchpad? -/
def MOpnd.bad (o : MOpnd) (t : TeamStore) (r : Regs) (lines : List Nat) (n : Nat) : Bool :=
  match o.src with
  | .tile m tr =>
    !r.bad.isEmpty && lines.any (fun i => (List.range n).any (fun k =>
      (match layoutOf o.f with
        | some l =>
          let (a, b) := if tr then (k, i) else (i, k)
          (tileWords m (a * l.pitch + b * l.width) l.width).any r.bad.contains
        | none => false)
      || (o.scaled && r.bad.contains (.side m ((8 * i + k / 32) / 4)))))
  | .sp p rep =>
    !t.spBad.isEmpty && lines.any (fun i => (rowBytes o.scaled (fmtBytes o.f) n).any (fun b =>
      t.spBad.contains (p.phys rep i b / 8)))
  | .slot _ => false

/-- A value that is an integer, as one. -/
def FVal.toInt : FVal → Int
  | .fin n m _ _ => if n then -(m : Int) else m
  | _ => 0

/-- One product into an accumulator element (R33). -/
def accumulate (cf : Fmt) (acc : Nat) (a b : FVal) (env : FEnv) : Nat × FEnv :=
  if cf = .int32 then ((BitVec.ofNat 32 acc + BitVec.ofInt 32 (a.toInt * b.toInt)).toNat, env)
  else fmaF cf .rne a b (decodeF cf acc) env

/-- Products `lo` to `hi` − 1 of element (i, j), in k order. -/
def products (cf : Fmt) (a b : MOpnd) (t : TeamStore) (r : Regs) (i j lo hi acc : Nat) (env : FEnv) : Nat × FEnv :=
  (List.range (hi - lo)).foldl (fun (x : Nat × FEnv) n =>
    accumulate cf x.1 (a.value t r i (lo + n)) (b.value t r j (lo + n)) x.2) (acc, env)

/-! ### The tile step (R205, R226, R227) -/

/-- The bad weight-buffer element of the lowest K row that the step would feed, as that row (R227). A scale byte belongs
to the 32 rows of its block. -/
def MxInstr.wbBadRow (m : MxInstr) (t : TeamStore) (r : Nat) : Option Nat :=
  let o := m.opndB r
  let w := fmtBytes o.f
  match o.src with
  | .slot n =>
    if t.wbBad.isEmpty then none
    else (List.range m.word.kc).find? (fun k => m.cols.any (fun j =>
      (List.range w).any (fun b => t.wbBad.contains (wbKey n false ((j * o.kt + k) * w + b)))
        || (o.scaled && t.wbBad.contains (wbKey n true (8 * j + k / 32)))))
  | _ => none

/-- What a step leaves: the store, the flags, and the fault of R227 as its detail word, or a consumed error. -/
inductive StepEnd where
  | done
  | fault (kdone slot : Nat)
  | consumed
  deriving DecidableEq, Repr

/-- One element of a step. `own` is the number of cycles the repeat had completed before a freeze, `hi` the row that
stops it, `start` whether OVW clears it. -/
def stepElem (m : MxInstr) (t0 : TeamStore) (r : Regs) (rep own hi : Nat) (cut : Option Nat) (keep : Bool) (i j : Nat)
    (x : TeamStore × Flags) : TeamStore × Flags :=
  let w := m.word
  let tt := w.target rep
  let begun := decide (i + j < own)
  let clear := w.ovw && (rep == 0 || !w.accAcross) && !begun
  let koff := if rep = 0 then m.koff.toNat else 0
  let lo := if begun then max koff (w.formed own i j) else koff
  let hi := match cut with
    | some c => min hi (w.formed c i j)
    | none => hi
  match cut with
  | some c =>
    if keep && decide (c ≤ i + j) then x
    else
      let acc := if clear then 0 else x.1.accElem w.cf tt i j
      let (v, env) := products w.cf (m.opndA rep) (m.opndB rep) t0 r i j lo hi acc ⟨x.2, 0⟩
      (x.1.setAccElem w.cf tt i j v, env.flags)
  | none =>
    let acc := if clear then 0 else x.1.accElem w.cf tt i j
    let (v, env) := products w.cf (m.opndA rep) (m.opndB rep) t0 r i j lo hi acc ⟨x.2, 0⟩
    (x.1.setAccElem w.cf tt i j v, env.flags)

/-- The tile step of repeat `rep` on the team's store and the task's registers, whole or frozen after `cut` cycles.
`own` cycles of it had completed before. `keep`: an older step still holds the processing elements that the frozen one
has not reached. -/
def stepOp (m : MxInstr) (t : TeamStore) (r : Regs) (rep own : Nat) (cut : Option Nat) (keep : Bool) :
    TeamStore × Flags × StepEnd :=
  let w := m.word
  let stop := m.wbBadRow t rep
  let tstop := (stop.map w.cls.slotOf).getD 0
  let frozenFirst := match cut, stop with
    | some c, some _ => decide (c ≤ tstop)
    | some _, none => true
    | none, _ => false
  let cut := if frozenFirst then cut else none
  let stop := if frozenFirst then none else stop
  let hi := match stop with
    | some _ => min w.kc (w.cls.rowsDone tstop)
    | none => w.kc
  if (m.opndA rep).bad t r m.rows hi || (m.opndB rep).bad t r m.cols hi then (t, m.flags, .consumed)
  else
    let (t', fl) := m.rows.foldl (fun x i => m.cols.foldl (fun x j => stepElem m t r rep own hi cut keep i j x) x)
      (t, m.flags)
    let slot := match (m.opndB rep).src with
      | .slot n => n
      | _ => 0
    (t'.setATag (w.target rep) w.cf, fl, match stop with
      | some _ => .fault hi slot
      | none => .done)

/-! ### The row instructions (R220 to R223, R225) -/

/-- The rows that a row instruction processes. -/
def MxInstr.rowCount (m : MxInstr) : Nat :=
  match m.op with
  | some .mld => ((layoutOf m.word.af).map (·.rows)).getD 128
  | _ => accSide m.word.cf

/-- What rows work on: the store, the registers of the issuing task, the rounding environment, and whether an error was
consumed. -/
structure RowSt where
  store : TeamStore
  regs  : Regs
  env   : FEnv
  bad   : Bool

/-- Write bytes of the tile file, and one scale byte of a tile's row. -/
def Regs.putTile (r : Regs) (at_ : Nat) (bs : List Byte) : Regs := { r with m := r.m.setRange at_ bs }
def Regs.putSide (r : Regs) (tile row b : Nat) (v : Byte) : Regs :=
  { r with side := r.side.set (tile * 1024 + 8 * row + b) v }

/-- Scale bytes 0 to 3 of a tile's row become 0x7F: a word of the sideband written whole (R223, R242). -/
def Regs.putUnit (r : Regs) (tile row : Nat) : Regs :=
  ((List.range 4).foldl (fun (r : Regs) b => r.putSide tile row b 0x7F) r).heal (fun b => b == .side tile (2 * row))

/-- Columns with a counterpart in a layout. -/
def MxInstr.colsIn (m : MxInstr) (l : Layout) : List Nat := m.cols.filter (fun j => decide (j < l.cols))

/-- One row of MLD (R220). -/
def mldRow (m : MxInstr) (l : Layout) (i : Nat) (x : RowSt) : RowSt :=
  let w := m.word
  let p := spOp m.a1 m.a2
  let n := fmtBytes w.af
  let tm := w.aTile.toNat
  if (rowBytes w.aScaled n l.cols).any (fun b => x.store.spBad.contains (p.phys 0 i b / 8)) then { x with bad := true }
  else
    let r := (List.range l.cols).foldl (fun (r : Regs) c =>
      r.putTile (tm * tileBytes + i * l.pitch + c * l.width) (x.store.sp.getRange (p.phys 0 i (elemOff w.aScaled n c)) n))
      x.regs
    let r := if l = .l8 then
        (List.range 8).foldl (fun (r : Regs) b =>
          r.putSide tm i b (if w.aScaled then x.store.sp.get (p.phys 0 i (scaleOff (32 * b))) else 0x7F)) r
      else r
    { x with regs := r }

/-- One row of MST (R221): its checksum, then each active element. -/
def mstRow (m : MxInstr) (i : Nat) (x : RowSt) : RowSt :=
  let w := m.word
  let p := spOp m.a1 m.a2
  let n := fmtBytes w.af
  if !m.rowK.getLsbD i || m.cols.isEmpty then x
  else if !x.store.rowOk w.acc.toNat i then { x with bad := true }
  else m.cols.foldl (fun (x : RowSt) j =>
    let (v, env) := convertF w.cf w.af (Rm.ofCode w.rm) (x.store.accElem w.cf w.acc.toNat i j) x.env
    { x with store := x.store.spPut (p.phys 0 i (j * n)) (leBytes n v), env := env }) x

/-- One row of MZERO (R222). -/
def mzeroRow (m : MxInstr) (i : Nat) (x : RowSt) : RowSt :=
  let w := m.word
  let t := w.acc.toNat
  if !m.rowK.getLsbD i then x
  else
    let s := m.cols.foldl (fun (s : TeamStore) j => s.setAccElem w.cf t i j 0) x.store
    { x with store := if m.cols.length = accSide w.cf then { s with sums := s.sums.set (t * 128 + i) 0 } else s }

/-- One row of ACPY (R223). -/
def acpyRow (m : MxInstr) (l : Layout) (i : Nat) (x : RowSt) : RowSt :=
  let w := m.word
  let cols := m.colsIn l
  let tm := w.aTile.toNat
  if !m.rowK.getLsbD i || l.rows ≤ i || cols.isEmpty then x
  else if !x.store.rowOk w.acc.toNat i then { x with bad := true }
  else
    let x := cols.foldl (fun (x : RowSt) j =>
      let (v, env) := convertF w.cf w.af (Rm.ofCode w.rm) (x.store.accElem w.cf w.acc.toNat i j) x.env
      { x with regs := x.regs.putTile (tm * tileBytes + i * l.pitch + j * l.width) (leBytes l.width v), env := env }) x
    let x := { x with regs := x.regs.heal (tileCovered tm l.width (cols.map (fun j => i * l.pitch + j * l.width))) }
    if l = .l8 then { x with regs := x.regs.putUnit tm i } else x

/-- One row of ACPYIN (R223): overwrite, or add as one more product. -/
def acpyinRow (m : MxInstr) (l : Layout) (i : Nat) (x : RowSt) : RowSt :=
  let w := m.word
  let t := w.acc.toNat
  let words := (m.colsIn l).flatMap (fun j => tileWords w.aTile.toNat (i * l.pitch + j * l.width) l.width)
  if !m.rowK.getLsbD i || l.rows ≤ i then x
  else if !x.regs.bad.isEmpty && words.any x.regs.bad.contains then { x with bad := true }
  else (m.colsIn l).foldl (fun (x : RowSt) j =>
    let bits := leNat (x.regs.m.getRange (w.aTile.toNat * tileBytes + i * l.pitch + j * l.width) l.width)
    let v := decodeF w.af bits
    let (n, env) :=
      if w.ovw then (if w.cf = .int32 then intBits .int32 v.toInt else (encodeF w.cf .rne false v x.env).1, x.env)
      else accumulate w.cf (x.store.accElem w.cf t i j) v (FVal.ofNat 1) x.env
    { x with store := x.store.setAccElem w.cf t i j n, env := env }) x

/-- One row of a row instruction. -/
def rowOp (m : MxInstr) (i : Nat) (x : RowSt) : RowSt :=
  let l := (layoutOf m.word.af).getD .l16
  match m.op with
  | some .mld => mldRow m l i x
  | some .mst => mstRow m i x
  | some .mzero => mzeroRow m i x
  | some .acpy => acpyRow m l i x
  | some .acpyin => acpyinRow m l i x
  | _ => x

/-- What happens before the first row: the tag that a tile or an accumulator takes, and a tile that is written anew. -/
def rowStart (m : MxInstr) (x : RowSt) : RowSt :=
  let w := m.word
  let tm := w.aTile.toNat
  match m.op with
  | some .mld =>
    { x with regs := { x.regs with
        m := Map.clear x.regs.m (tm * tileBytes) ((tm + 1) * tileBytes)
        side := if hasSide w.af then Map.clear x.regs.side (tm * 1024) ((tm + 1) * 1024) else x.regs.side
        mtag := Map.set .raw x.regs.mtag tm w.af
        bad := x.regs.bad.filter (fun b => !(b.ofTile tm || (hasSide w.af && b.ofSide tm))) } }
  | some .acpy => { x with regs := x.regs.setTag (.row w.aTile 0) w.af }
  | some .mzero => { x with store := x.store.setATag w.acc.toNat w.cf }
  | some .acpyin => { x with store := x.store.setATag w.acc.toNat w.cf }
  | _ => x

/-- Do the rows after one that met an error still run? MST and ACPY deliver every row whose checksum passes (R221,
R223); an error in what MLD or ACPYIN fetches ends them (R219, R220). -/
def MxInstr.rowsGoOn (m : MxInstr) : Bool := m.op == some MOp.mst || m.op == some MOp.acpy

/-- Rows `lo` to `hi` − 1, ascending. -/
def rowsOp (m : MxInstr) (lo hi : Nat) (x : RowSt) : RowSt :=
  let x := if lo = 0 then rowStart m x else x
  (List.range (hi - lo)).foldl (fun x n => if x.bad && !m.rowsGoOn then x else rowOp m (lo + n) x) x

end Sys2Proof.Machine
end

