-- ==== Sys2Proof/Machine/Transc.lean ====
section
/-! DEFINITION. The transcendental functions (R35, R36), shared by the vector unit and the drain. -/

namespace Sys2Proof.Machine

/-- RNE_fp32 of an exact value, as a value (R35: intermediate flags are not kept). -/
def r32 (v : FVal) : FVal := decodeF .fp32 (encodeF .fp32 .rne false v ⟨0, 0⟩).1

def fma32 (a b c : FVal) : FVal := r32 (((a.mul b).1.add .rne c).1)
def mul32 (a b : FVal) : FVal := r32 (a.mul b).1
def add32 (a b : FVal) : FVal := r32 (a.add .rne b).1
def fp32 (x : Nat) : FVal := decodeF .fp32 x

/-- Sixteen FP32 patterns to a number, entry 0 lowest: T[i] = RNE_fp32(2^(i/128)). -/
def expTable : List Nat :=
  [0x3F8AD4C63F8A14D53F8955EE3F88980F3F87DB353F871F623F8664913F85AAC33F84F1F63F843A293F8383593F82CD873F8218AF3F8164D23F80B1ED3F800000,
   0x3F97657D3F96942D3F95C3FF3F94F4F03F9426FF3F935A2B3F928E723F91C3D33F90FA4D3F9031DC3F8F6A813F8EA43A3F8DDF043F8D1ADF3F8C57CA3F8B95C2,
   0x3FA519583FA435163FA3520F3FA270433FA18FAF3FA0B0513F9FD2283F9EF5323F9E196E3F9D3EDA3F9C65733F9B8D3A3F9AB62B3F99E0463F990B883F9837F0,
   0x3FB40AAF3FB311C43FB21A323FB123F63FB02F0E3FAF3B793FAE49343FAD583F3FAC68973FAB7A3A3FAA8D263FA9A15B3FA8B6D53FA7CD943FA6E5953FA5FED7,
   0x3FC4563F3FC346CD3FC238D23FC12C4D3FC0213B3FBF179A3FBE0F683FBD08A43FBC034A3FBAFF5B3FB9FCD23FB8FBAF3FB7FBF03FB6FD923FB600943FB504F3,
   0x3FD61B5E3FD4F35B3FD3CCF13FD2A81E3FD184DF3FD063343FCF43193FCE248C3FCD078C3FCBEC153FCAD2263FC9B9BE3FC8A2D83FC78D753FC679913FC5672A,
   0x3FE97C383FE8396A3FE6F85B3FE5B9073FE47B6D3FE33F893FE2055B3FE0CCDF3FDF96133FDE60F53FDD2D823FDBFBB83FDACB943FD99D163FD870393FD744FD,
   0x3FFE9E113FFD3E0C3FFBDFED3FFA83B33FF9295A3FF7D0DF3FF67A413FF5257D3FF3D2903FF281773FF132313FEFE4BA3FEE99103FED4F303FEC07193FEAC0C7]

/-- T2[i] = RNE_fp32(log2(1 + i/128)), packed in the same way. -/
def logTable : List Nat :=
  [0x3E23B5503E19574F3E0EE68D3E0462C43DF397613DDE42123DC8C50B3DB31FB83D9D517F3D8759C53D626FD63D35D69C3D08E68F3CB73CB43C37F28600000000,
   0x3EA032323E9B89263E96D8883E92203D3E8D602E3E88983F3E83C8573E7DE0B63E74205F3E6A4F723E606DB63E567AF13E4C76E83E42615F3E383A173E2E00D2,
   0x3EE705253EE2C97D3EDE87973EDA3F603ED5F0C43ED19BB03ECD40123EC8DDD43EC474E43EC0052B3EBB8E963EB7110E3EB28C7F3EAE00D23EA96DF03EA4D3C2,
   0x3F13D2603F11E20F3F0FEF1F3F0DF9893F0C01463F0A06503F08089E3F0608283F0404E83F01FED43EFFEBCD3EFBD42B3EF7B6B43EF393553EEF69FF3EEB3A9F,
   0x3F31885C3F2FBE803F2DF2683F2C24113F2A53743F28808C3F26AB533F24D3C23F22F9D53F211D843F1F3ECA3F1D5DA03F1B7A003F1993E33F17AB443F15C01A,
   0x3F4D07C73F4B5ED73F49B3FB3F4807313F4658723F44A7BA3F42F5063F41404F3F3F89913F3DD0C83F3C15EE3F3A58FF3F3899F53F36D8CB3F35157D3F335004,
   0x3F669F353F6512C73F6384AD3F61F4E53F60636A3F5ED0393F5D3B4E3F5BA4A43F5A0C3A3F5872093F56D60F3F5538483F5398AF3F51F7403F5053F73F4EAED0,
   0x3F7E8DF23F7D1A713F7BA5783F7A2F043F78B7143F773DA43F75C2B03F7446363F72C8323F7148A13F6FC7813F6E44CD3F6CC0833F6B3A9F3F69B31E3F6829FB]

def tableAt (t : List Nat) (i : Nat) : FVal := fp32 (bitsOf (t.getD (i / 16) 0) (32 * (i % 16)) 32)

/-- RT[i] = RNE_fp32(1 / (1 + i/128)). -/
def rtAt (i : Nat) : FVal := r32 ((FVal.ofNat 128).div (FVal.ofNat (128 + i))).1

/-- L and d1, c1, c2, d2 of R35. -/
def kL : FVal := fp32 0x3FB8AA3B
def kC1 : FVal := fp32 0x3F317218
def kC2 : FVal := fp32 0x3E75FDF0
def kD2 : FVal := fp32 0xBF38AA3B

/-- The exponent of a non-zero magnitude. -/
def leadOf (m : Nat) (e : Int) : Int := e + (bitLen m : Int) - 1

/-- A result below 2^−126 in magnitude becomes a zero of its sign; true where that happened (R36). -/
def flush32 (v : FVal) : FVal × Bool :=
  match v with
  | .fin n m e _ => if m ≠ 0 ∧ leadOf m e < -126 then (.zero n, true) else (v, false)
  | _ => (v, false)

/-- The fixed-point form of a finite value: its numerator over 2^200, floor; exact for every FP32 value. -/
def fix200 (n : Bool) (m : Nat) (e : Int) : Int :=
  let k : Int := (m <<< (e + 200).toNat : Nat)
  if n then -k else k

def exp2F (x : FVal) : FVal :=
  match x with
  | .nan => .nan
  | .inf n => if n then .zero false else .inf false
  | .fin neg m e _ =>
    if m = 0 then FVal.ofNat 1
    else if !neg && decide (7 ≤ leadOf m e) then .inf false
    else
      let k := fix200 neg m e
      if k < -150 * (2 ^ 200 : Nat) then .zero false
      else
        let n : Int := k / (2 ^ 200 : Nat)
        let f : Nat := (k % (2 ^ 200 : Nat)).toNat
        let i := f / 2 ^ 193
        let g : FVal := .fin false (f % 2 ^ 193) (-200) false
        let q := mul32 (fma32 kC2 g kC1) g
        let t := tableAt expTable i
        match fma32 t q t with
        | .fin s m e st => .fin s m (e + n) st
        | v => v

def log2F (x : FVal) : FVal × Flags :=
  match x with
  | .nan => (.nan, 0)
  | .inf n => if n then (.nan, fNV) else (.inf false, 0)
  | .fin neg m e _ =>
    if m = 0 then (.inf true, fDZ)
    else if neg then (.nan, fNV)
    else
      let l := bitLen m - 1
      let ex : Int := e + l
      -- m / 2^l lies in [1, 2); scaled by 128
      let fr := (m - 2 ^ l) * 128
      let i := fr / 2 ^ l
      let g : FVal := .fin false (fr % 2 ^ l) (-(l : Int) - 7) false
      let w := mul32 g (rtAt i)
      let p := mul32 (fma32 kD2 w kL) w
      (add32 (add32 (FVal.ofInt ex) (tableAt logTable i)) p, 0)

def rcpF (x : FVal) : FVal × Flags :=
  match x with
  | .nan => (.nan, 0)
  | .inf n => (.zero n, 0)
  | .fin n m _ _ => if m = 0 then (.inf n, fDZ) else (r32 ((FVal.ofNat 1).div x).1, 0)

def rsqF (x : FVal) : FVal × Flags :=
  match x with
  | .nan => (.nan, 0)
  | .inf n => if n then (.nan, fNV) else (.zero false, 0)
  | .fin n m e _ =>
    if m = 0 then (.inf n, fDZ)
    else if n then (.nan, fNV)
    else
      let (m, e) := if e % 2 = 0 then (m, e) else (2 * m, e - 1)
      let k := bitLen m + 64
      let r := isqrt (2 ^ (2 * k) / m)
      (r32 (.fin false r (-(e / 2) - k) (decide (r * r * m ≠ 2 ^ (2 * k)))), 0)

def sigmF (x : FVal) : FVal :=
  let t := mul32 x kL
  let d := add32 (FVal.ofNat 1) (flush32 (exp2F t.neg)).1
  (rcpF d).1

def tanhF (x : FVal) : FVal :=
  fma32 (FVal.ofNat 2) (flush32 (sigmF (mul32 (FVal.ofNat 2) x))).1 (FVal.ofInt (-1))

/-- The six functions. -/
inductive TFun where
  | exp2 | log2 | rcp | rsq | sigm | tanh
  deriving DecidableEq, Repr

/-- The function before the final flush, with its flags. -/
def TFun.raw (t : TFun) (x : FVal) : FVal × Flags :=
  match t with
  | .exp2 => (exp2F x, 0)
  | .log2 => log2F x
  | .rcp => rcpF x
  | .rsq => rsqF x
  | .sigm => (sigmF x, 0)
  | .tanh => (tanhF x, 0)

/-- A transcendental of a pattern of format FP32, BF16 or FP16 (R35): evaluated in FP32, flushed, converted to the
source format under RNE. -/
def transc (t : TFun) (f : Fmt) (x : Nat) (env : FEnv) : Nat × FEnv :=
  let (v, fl) := t.raw (decodeF f x)
  let (v, fz) := flush32 v
  let env := env.raise (if fz then fl ||| fFZ else fl)
  let (y, e) := encodeF f .rne false v ⟨0, 0⟩
  (y, env.raise (if f = .fp32 then 0 else e.flags))

end Sys2Proof.Machine
end

