-- ==== Sys2Proof/Machine/Drain.lean ====
section
/-! DEFINITION. Drain programs (R54 to R56, R228 to R251): the check of a program, the drain-parameter block and its
checks, the run of one element, the drain of a tile with its stores, its faults and its restart record. -/

namespace Sys2Proof.Machine

/-! ### Micro-words (R54, R55) -/

structure Micro where
  op  : Nat
  d   : Nat
  a   : Nat
  b   : Nat
  c   : Nat
  imm : Nat

def micro (w : Parcel) : Micro :=
  let x := w.toNat
  ⟨bitsOf x 0 6, bitsOf x 6 3, bitsOf x 9 5, bitsOf x 14 5, bitsOf x 19 5, bitsOf x 24 8⟩

/-- How many of its sources an operation reads (R238). -/
def microArgs (op : Nat) : Nat :=
  if op = 24 then 0
  else if op = 1 ∨ op = 2 ∨ op = 3 ∨ op = 5 ∨ op = 6 then 2
  else if op = 4 ∨ op = 9 ∨ op = 17 then 3
  else 1

/-- The selectors that a micro-word names. -/
def Micro.sources (m : Micro) : List Nat := [m.a, m.b, m.c].take (microArgs m.op)

/-- The FR immediate: format and rounding mode (R55). -/
def Micro.fmt (m : Micro) : Fmt := (Fmt.ofCode (m.imm % 16)).getD .raw
def Micro.rm (m : Micro) : Rm := Rm.ofCode (BitVec.ofNat 3 (m.imm / 16))

/-- The tags that an operation with an FR immediate allows (R236, R239, R243). -/
def Micro.tagOk (m : Micro) (cf : Fmt) : Bool :=
  let f := m.fmt
  if m.op = 20 then f != .raw && f != .int32 && f != .fp64
  else if m.op = 21 then f != .raw
  else if m.op = 22 then hasLayout f
  else f == cf

/-- A micro-word that passes R56 by itself. -/
def Micro.ok (m : Micro) (cf : Fmt) : Bool :=
  let n := microArgs m.op
  let src := m.sources
  decide (m.op ≤ 24)
  && (decide (m.op ≤ 20) || m.d == 0)
  && (decide (1 ≤ n) || m.a == 0) && (decide (2 ≤ n) || m.b == 0) && (decide (3 ≤ n) || m.c == 0)
  && src.all (fun x => decide (x ≤ 22))
  && (if m.op = 16 then !src.contains 22
      else if 20 ≤ m.op ∧ m.op ≤ 23 then
        !src.contains 22 && decide (m.imm < 128) && m.imm % 16 != 15 && decide (m.imm / 16 % 8 < 6) && m.tagOk cf
      else if src.contains 22 then decide (m.imm < 16) else m.imm == 0)

/-- The program from an address (R56): its micro-words up to and including END, or the address of the first failing
word. `stt` is the format of an earlier STT. -/
def scanDrain (dcs : Sparse 32) (cf : Fmt) : Nat → Nat → Option Fmt → Except Nat (List Micro)
  | 0, at_, _ => .error at_
  | n + 1, at_, stt =>
    let m := micro (dcs.get at_)
    let sttBad := m.op == 22 && (match stt with
      | some f => f != m.fmt
      | none => false)
    if !m.ok cf || sttBad then .error at_
    else if m.op = 24 then .ok [m]
    else if at_ = 511 then .error 511
    else (scanDrain dcs cf n (at_ + 1) (if m.op = 22 then some m.fmt else stt)).map (m :: ·)

/-- Does the program name a selector, or hold an operation? -/
def names (p : List Micro) (sel : Nat) : Bool := p.any (fun m => m.sources.contains sel)
def holds (p : List Micro) (op : Nat) : Bool := p.any (fun m => m.op == op)

/-- The format of the program's STTs. -/
def sttFmt (p : List Micro) : Option Fmt := (p.find? (fun m => m.op == 22)).map (·.fmt)

/-! ### The drain-parameter block (R232, R233) -/

/-- 32-bit word `n` of the block. -/
def blockWord (b : List Byte) (n : Nat) : Nat := leNat ((b.drop (4 * n)).take 4)

def octl (b : List Byte) : Nat := blockWord b 27
def ttile (b : List Byte) : Nat := bitsOf (octl b) 4 3
def sta2 (b : List Byte) : Bool := (octl b).testBit 7
def resumes (b : List Byte) : Bool := (octl b).testBit 8
def rren (b : List Byte) : Bool := (octl b).testBit 9
def rres (b : List Byte) : Nat := blockWord b 28

/-- The row and column vectors that the program names, as selectors. -/
def vectors (p : List Micro) : List Nat := ((List.range 8).map (· + 10)).filter (names p)

/-- The restart record that a DRUN with RESUME takes (R251). -/
def Restart.fits (x : Restart) (m : MxInstr) : Bool :=
  x.valid && x.cause && x.tile == m.word.acc.toNat && x.pair == m.word.acc2.toNat && x.entry == m.word.entry.toNat

/-- The lowest sub-code of R234 that the block fails, its offset apart. -/
def blockFault (m : MxInstr) (p : List Micro) (b : List Byte) (r : Regs) (fits : Bool) : Option Nat :=
  let tag := r.mTag (ttile b)
  let n := accSide m.word.cf
  if (vectors p).any (fun s => blockWord b (s - 10) % 4 != 0 || decide (0x800000 < blockWord b (s - 10) + 4 * n)) then
    some 2
  else if p.any (fun w => w.op == 21 && w.fmt.code.toNat != octl b % 16) then some 3
  else if (match sttFmt p with
      | some f => !decide (tag = Fmt.raw) && !decide (tag = f)
      | none => false) then some 4
  else if rren b && (rres b % 4 != 0 || decide (0x800000 < rres b + 1024)) then some 5
  else if octl b / 1024 ≠ 0 ∨ blockWord b 30 ≠ 0 ∨ blockWord b 31 ≠ 0 then some 6
  else if resumes b && (m.op == some MOp.mma || !fits) then some 7
  else none

/-! ### One element (R235 to R244) -/

/-- A store that an element makes at its END (R244). -/
inductive DStore where
  | sto (w v : Nat)
  | stt (f : Fmt) (v : Nat)
  | sta (v : Nat)

/-- What an element's run works on: the x registers, the running values, the rounding environment and the stores so
far. -/
structure ElemSt where
  x      : List FVal
  runMax : FVal
  runSum : FVal
  env    : FEnv
  stores : List DStore

/-- What a drain works by: the instruction, and the program, block and vectors (by selector) read once at its start. -/
structure DrainIn where
  m     : MxInstr
  prog  : List Micro
  block : List Byte
  vecs  : List (Nat × List Nat)
  t     : Nat
  t2    : Nat
  rep   : Nat

def f32 (x : Nat) : FVal := decodeF .fp32 x

/-- The value of a selector (R235). -/
def DrainIn.sel (d : DrainIn) (acc acc2 : FVal) (x : List FVal) (imm i j s : Nat) : FVal :=
  if s < 8 then x.getD s (.zero false)
  else if s = 8 then acc
  else if s = 9 then acc2
  else if s < 18 then
    f32 ((((d.vecs.find? (fun e => e.1 == s)).map (·.2)).getD []).getD (if s < 14 then i else j) 0)
  else if s = 18 then .ofNat i
  else if s = 19 then .ofNat j
  else if s = 20 then .zero false
  else if s = 21 then .ofNat 1
  else f32 (blockWord d.block (8 + imm % 16))

/-- Round to FP32 and read back. -/
def back (r : Nat × FEnv) : FVal × FEnv := (f32 r.1, r.2)

def transFun (op : Nat) : TFun :=
  match op with
  | 10 => .exp2 | 11 => .log2 | 12 => .rcp | 13 => .rsq | 14 => .sigm | _ => .tanh

/-- The value that operations 0 to 20 write, RMAX and RSUM apart (R238, R239). -/
def microValue (w : Micro) (rm : Rm) (a b c : FVal) (env : FEnv) : FVal × FEnv :=
  match w.op with
  | 0 => (a, env)
  | 1 => back (addF .fp32 rm a b env)
  | 2 => back (addF .fp32 rm a b.neg env)
  | 3 => back (mulF .fp32 rm a b env)
  | 4 => back (fmaF .fp32 rm a b c env)
  | 5 => (a.max b, env)
  | 6 => (a.min b, env)
  | 7 => (a.abs, env)
  | 8 => (a.neg, env)
  | 9 => ((a.max b).min c, env)
  | 16 =>
    let n : Int := (BitVec.ofNat 8 w.imm).toInt
    let v : FVal := match a with
      | .fin s m e st => .fin s m (e + n) st
      | v => v
    back (encodeF .fp32 rm false v env)
  | 17 => (match a with
    | .nan => (c, env)
    | a => (if a.cmp (.zero false) < 0 then b else c, env))
  | 20 =>
    let (v, env) := encodeF w.fmt w.rm false a env
    (decodeF w.fmt v, env)
  | op => back (transc (transFun op) .fp32 (exactBits .fp32 a) env)

/-- One micro-word of an element's run. -/
def DrainIn.run1 (d : DrainIn) (acc acc2 : FVal) (i j : Nat) (w : Micro) (e : ElemSt) : ElemSt :=
  let rm := Rm.ofCode d.m.word.rm
  let a := d.sel acc acc2 e.x w.imm i j w.a
  let b := d.sel acc acc2 e.x w.imm i j w.b
  let c := d.sel acc acc2 e.x w.imm i j w.c
  if w.op = 24 then e
  else if w.op = 18 then
    let v := e.runMax.max a
    { e with runMax := v, x := e.x.set w.d v }
  else if w.op = 19 then
    let (v, env) := back (addF .fp32 rm e.runSum a e.env)
    { e with runSum := v, x := e.x.set w.d v, env := env }
  else if w.op < 21 then
    let (v, env) := microValue w rm a b c e.env
    { e with x := e.x.set w.d v, env := env }
  else
    let (v, env) := encodeF w.fmt w.rm false a e.env
    let st : DStore := if w.op = 21 then .sto (fmtBytes w.fmt) v else if w.op = 22 then .stt w.fmt v else .sta v
    { e with env := env, stores := e.stores ++ [st] }

/-- An accumulator element as a drain reads it: in FP32, converted under the word's rm (R235). -/
def DrainIn.accIn (d : DrainIn) (s : TeamStore) (t i j : Nat) (env : FEnv) : FVal × FEnv :=
  back (if d.m.word.cf = .fp32 then (s.accElem .fp32 t i j, env)
    else convertF d.m.word.cf .fp32 (Rm.ofCode d.m.word.rm) (s.accElem d.m.word.cf t i j) env)

/-- The run of an element from its conversions to END. -/
def DrainIn.element (d : DrainIn) (s : TeamStore) (i j : Nat) (rmax rsum : FVal) (env : FEnv) : ElemSt :=
  let (acc, env) := if names d.prog 8 then d.accIn s d.t i j env else (.zero false, env)
  let (acc2, env) := if names d.prog 9 then d.accIn s d.t2 i j env else (.zero false, env)
  d.prog.foldl (fun e w => d.run1 acc acc2 i j w e) ⟨List.replicate 8 (.zero false), rmax, rsum, env, []⟩

/-- The scratchpad offset of an element's STO (R241). -/
def DrainIn.stoAt (d : DrainIn) (i j : Nat) : Int :=
  (blockWord d.block 24 + d.rep * blockWord d.block 29 + i * blockWord d.block 25 : Nat)
    + (j : Int) * (BitVec.ofNat 32 (blockWord d.block 26)).toInt

def stoOk (o : Int) (w : Nat) : Bool := decide (0 ≤ o) && decide (o + w ≤ 0x800000) && decide (o % w = 0)

/-! ### The drain of a tile (R245, R249) -/

/-- How a drain ends. -/
inductive DrainEnd where
  | fault (code : Nat) (detail : Word)
  | consumed
  | frozen
  deriving DecidableEq, Repr

/-- A drain in progress: the team's store, the issuing task's registers, the running values, the rounding environment,
the elements drained, and, once it has stopped, how, with the restart record that it leaves. -/
structure DrainSt where
  store   : TeamStore
  regs    : Regs
  runMax  : FVal
  runSum  : FVal
  env     : FEnv
  n       : Nat
  ended   : Option DrainEnd
  restart : Restart
  read    : Option DrainRead := none

/-- The columns of the tile words that an element of `w` bytes in column `j` ends; none where it ends none. -/
def wordCols (w j : Nat) : List Nat :=
  if (j + 1) * w % 4 = 0 then (List.range (j + 1)).filter (fun c => decide ((j + 1) * w ≤ c * w + max 4 w)) else []

/-- The tile words that the STT of element (i, j) leaves written whole: those whose every element the drain writes (R148). -/
def DrainIn.whole (d : DrainIn) (l : Layout) (i j : Nat) : List BadReg :=
  let c := wordCols l.width j
  if c.isEmpty || !c.all d.m.cols.contains then []
  else tileWords (ttile d.block) (i * l.pitch + j * l.width) l.width

/-- Perform one store of an element at its END. -/
def DrainIn.perform (d : DrainIn) (i j : Nat) (x : DrainSt) (st : DStore) : DrainSt :=
  match st with
  | .sto w v => { x with store := x.store.spPut (d.stoAt i j).toNat (leBytes w v) }
  | .stt f v =>
    (match layoutOf f with
    | some l =>
      if l.rows ≤ i ∨ l.cols ≤ j then x
      else
        let tm := ttile d.block
        let r := (x.regs.putTile (tm * tileBytes + i * l.pitch + j * l.width) (leBytes l.width v)).heal
          (d.whole l i j).contains
        { x with regs := if l = .l8 then r.putUnit tm i else r }
    | none => x)
  | .sta v => { x with store := x.store.setAccElem d.m.word.cf (if sta2 d.block then d.t2 else d.t) i j v }

/-- The restart record of a stop at element (i, j) (R250). -/
def DrainIn.record (d : DrainIn) (cause : Bool) (i j : Nat) (x : DrainSt) : Restart :=
  ⟨true, cause, d.m.num % 2 ^ 32, d.m.member, d.t, d.t2, d.m.word.entry.toNat, d.rep % 256, i, j,
    exactBits .fp32 x.runMax, exactBits .fp32 x.runSum, x.env.rng⟩

/-- Does the program check the rows of the paired tile (R245)? -/
def DrainIn.checks2 (d : DrainIn) : Bool := names d.prog 9 || (sta2 d.block && holds d.prog 23)

/-- Drain one element. `first` and `last` say whether it is the first and the last active element of its row; `mid`
that the drain starts here in the middle of a row; `limit` the elements before a freeze. DESIGN CHOICE (assumption 51): a
RESUME whose own mask makes its first element the first active one of the recorded row checks that row's checksum, as at
the start of a row. -/
def DrainIn.step (d : DrainIn) (limit : Option Nat) (i j : Nat) (first last resumed : Bool) (x : DrainSt) : DrainSt :=
  let x := if first && !resumed then { x with runMax := .inf true, runSum := .zero false } else x
  if x.ended.isSome then x
  else if limit = some x.n then { x with ended := some .frozen, restart := d.record false i j x }
  else if first && !(x.store.rowOk d.t i && (!d.checks2 || x.store.rowOk d.t2 i)) then { x with ended := some .consumed }
  else
    let e := d.element x.store i j x.runMax x.runSum x.env
    let o := d.stoAt i j
    if e.stores.any (fun st => match st with
        | .sto w _ => !stoOk o w
        | _ => false) then
      { x with
        ended := some (.fault 9 (BitVec.ofInt 64 (spWindow + o)))
        restart := d.record true i j x }
    else
      let x := e.stores.foldl (d.perform i j) x
      let x := { x with runMax := e.runMax, runSum := e.runSum, env := e.env, n := x.n + 1 }
      if last && rren d.block then
        { x with store := x.store.spPut (rres d.block + 8 * i) (leBytes 8 (exactBits .fp32 x.runMax + 2 ^ 32 * exactBits .fp32 x.runSum)) }
      else x

/-- Drain the active elements in row-major order from (row, col); a resumed drain has its running values already. -/
def DrainIn.drain (d : DrainIn) (limit : Option Nat) (resumed : Bool) (row col : Nat) (x : DrainSt) : DrainSt :=
  let cols := d.m.cols
  let last := cols.getLastD 0
  (d.m.rows.filter (fun i => decide (row ≤ i))).foldl (fun x i =>
    let here := resumed && i == row
    (cols.filter (fun j => !here || decide (col ≤ j))).foldl (fun x j =>
      d.step limit i j (j == cols.headD 0) (j == last) here x) x) x

/-- Does the drain read a scratchpad range that fails its ECC? -/
def drainBad (s : TeamStore) (off n : Nat) : Bool := s.spBadIn off n

/-- What a drain reads at its start, with its checks: how it ends where one fails (R231, R234, R249). `fits`: the restart
record is one that a RESUME may take (R251). -/
def drainRead (m : MxInstr) (s : TeamStore) (r : Regs) (fits : Bool) (rep : Nat) : Except DrainEnd DrainRead :=
  let w := m.word
  let stop (code low : Nat) : Except DrainEnd DrainRead := .error (.fault code (BitVec.ofNat 64 (low + 512 * (rep % 256))))
  match scanDrain s.dcs w.cf 64 w.entry.toNat none with
  | .error at_ => stop 7 at_
  | .ok prog =>
    let off := bitsOf m.dparam.toNat 0 32
    if off % 16 ≠ 0 ∨ 0x800000 < off + 128 then stop 8 1
    else if drainBad s off 128 then .error .consumed
    else
      let block := s.spGet off 128
      if (sttFmt prog).isSome && r.bad.contains (.m (ttile block) 0) then .error .consumed
      else match blockFault m prog block r fits with
      | some sub => stop 8 sub
      | none =>
        let n := accSide w.cf
        if (vectors prog).any (fun v => drainBad s (blockWord block (v - 10)) (4 * n)) then .error .consumed
        else .ok ⟨s.dcs.getRange w.entry.toNat prog.length, block, (vectors prog).map (fun v =>
          (v, (List.range n).map (fun i => leNat (s.spGet (blockWord block (v - 10) + 4 * i) 4))))⟩

/-- Is the restart record one that a freeze of this very instruction made (R251)? -/
def Restart.frozenAt (x : Restart) (m : MxInstr) : Bool :=
  x.valid && !x.cause && x.num == m.num % 2 ^ 32 && x.member == m.member

/-- Run the drain of repeat `rep` (R231): check the program and the block, read the vectors, drain. `limit` stops it
after so many elements, as a freeze does. A record made by a freeze of this very instruction is taken up, with what the drain
had read, `kept` (R230, R232, R251). -/
def runDrainOp (m : MxInstr) (s : TeamStore) (r : Regs) (x : Restart) (kept : Option DrainRead) (rep : Nat)
    (limit : Option Nat) : DrainSt :=
  let w := m.word
  let frozen := x.frozenAt m
  let st : DrainSt := ⟨s, r, .inf true, .zero false, ⟨m.flags, m.rng⟩, 0, none, x, none⟩
  let read : Except DrainEnd DrainRead := match frozen, kept with
    | true, some k => .ok k
    | _, _ => drainRead m s r (frozen || x.fits m) rep
  match read with
  | .error e => { st with ended := some e }
  | .ok k =>
    let prog := k.prog.map micro
    let resumed := frozen || resumes k.block
    let rep := if resumed then x.rep else rep
    let mma := m.op == some MOp.mma
    let d : DrainIn := ⟨m, prog, k.block, k.vecs, if mma then w.target rep else w.acc.toNat,
      if mma then w.pair rep else w.acc2.toNat, rep⟩
    let regs := match sttFmt prog with
      | some f => r.setTag (.row (BitVec.ofNat 3 (ttile k.block)) 0) f
      | none => r
    let st := { st with regs := regs, read := some k }
    if resumed then
      d.drain limit true x.row x.col { st with
        runMax := f32 x.runMax, runSum := f32 x.runSum, env := ⟨m.flags, x.rng⟩, restart := { x with valid := false } }
    else d.drain limit false 0 0 st

end Sys2Proof.Machine
end

