-- ==== Sys2Proof/Machine/Sync.lean ====
section
/-! DEFINITION. Synchronisation objects, fences, the team barrier and byte counters (R256 to R263, R269). -/

namespace Sys2Proof.Machine

/-- Has every earlier access of the core's task met the condition of a FENCE scope (R262)? Loads that miss and
multicast stores are the accesses that are outstanding after retirement; a fabric command is placed once it is marked
`moved`. -/
def State.fenceDone (s : State) (core : Nat) (sc : Scope) : Bool :=
  let c := s.ctx core
  let landed := c.stores == 0
  c.pend.isEmpty &&
  (match sc with
  | .task | .team => true
  | .slice | .module => landed
  | .system => landed && (c.queue 3).all (·.moved))

/-- FENCE (R262). -/
def execFence (sc : Scope) (s : State) : Host.Outcome State Fault Refusal :=
  let s := s.breaking
  if s.fenceDone s.turn sc then .next (s.retire 4) else .next s

/-- Has every member arrived at barrier `n` or ended (R263)? -/
def State.barrierMet (s : State) (core n : Nat) : Bool :=
  (s.others core).all (fun k =>
    let c := s.memberCtx k (s.core core).team
    c.exited || decide (n ≤ c.cbar))

/-- CBAR (R263): a slice-scope FENCE, the arrival, which happens once, and the wait for the team. -/
def execCbar (s : State) : Host.Outcome State Fault Refusal :=
  let s := s.breaking
  let core := s.turn
  if !s.fenceDone core .slice then .next s
  else
    let s :=
      if (s.ctx core).cbarPend then s
      else (s.onCtx core (fun c => { c with cbar := c.cbar + 1, cbarPend := true })).wakeAll (s.others core) 1
    if s.barrierMet core (s.ctx core).cbar then
      .next ((s.onCtx core (fun c => { c with cbarPend := false })).retire 4)
    else .next s

/-- The binding entries of an object under a PASID. -/
def Vf.entries (v : Vf) (obj pasid : Nat) : List Binding :=
  v.binds.filter (fun b => b.obj == obj && b.pasid == pasid)

/-- Write back, or write back and invalidate, the issuing core's L1 lines of the entries' regions (R259). -/
def State.walkEntries (s : State) (core pasid : Nat) (inval : Bool) (es : List Binding) : State :=
  es.foldl (fun s b =>
    let lo := b.base / 128
    let hi := (b.base + b.len - 1) / 128
    if inval then s.flushRange core pasid lo hi else s.cleanRange core pasid lo hi) s

/-- ACQ (R259). -/
def execAcq (d a : SReg) (s : State) : Host.Outcome State Fault Refusal :=
  let s := s.breaking
  let core := s.turn
  let team := (s.core core).team
  s.finish (do
    let va ← s.checkMem (s.rs a) 16
    let pa ← s.tr core va false 1
    let pasid := s.pasidOf core true
    let s := s.walkEntries core pasid true ((s.vfOf core).entries va pasid)
    let s := s.flushRange core pasid (va / 128) (va / 128)
    match s.lineErr (s.secureCore core) team (pa / 128) .read with
    | some e => .ok ((s.homeErr core va (pa / 128) 0 e).retire 4)
    | none =>
      let s := s.touchRead pa 16
      .ok ((s.onCtx core (·.setS d (s.rseqView team pa))).retire 4))

/-- REL (R259): write back, fence at module scope, update the object. In immediate mode the node commits first. -/
def execRel (d a b : SReg) (s : State) : Host.Outcome State Fault Refusal :=
  let s := s.breaking
  let core := s.turn
  let team := (s.core core).team
  let v := s.rs b
  s.finish (do
    let va ← s.checkMem (s.rs a) 16
    let pa ← s.tr core va true 2
    let pasid := s.pasidOf core true
    let es := (s.vfOf core).entries va pasid
    let s := s.walkEntries core pasid false es
    if !s.fenceDone core .module then waitE s
    else
      let s := if es.any (·.imm) then s.commitClass core else s
      match s.lineErr (s.secureCore core) team (pa / 128) .read with
      | some e => .ok ((s.homeErr core va (pa / 128) 0 e).retire 4)
      | none =>
        let t := s.team team
        if t.live && !t.committed then
          let new := s.rseqView team pa + 1
          let s := s.onTeam team (fun t => { t with objs := t.objs ++ [(pa, v)] })
          .ok ((s.onCtx core (·.setS d new)).retire 4)
        else
          let s := s.applyRelease pa v
          .ok ((s.onCtx core (·.setS d (BitVec.ofNat 64 (s.peekNat pa 8)))).retire 4))

/-- Does the half-open range [b, b + n) hold an address? -/
def inRange (b n x : Nat) : Bool := decide (b ≤ x) && decide (x < b + n)

/-- The status of an SOBIND and the table after it (R258): an entry found to remove, or an identical one, gives 0;
otherwise the lowest-numbered status whose condition holds. -/
def bindTable (binds : List Binding) (e : Binding) : Nat × List Binding :=
  let mine := binds.filter (fun x => x.pasid == e.pasid)
  let same := fun (x : Binding) => x.obj == e.obj && x.base == e.base && x.pasid == e.pasid
  if e.len = 0 ∧ binds.any same = true then (0, binds.filter (fun x => !same x))
  else if binds.contains e then (0, binds)
  else if 512 ≤ binds.length then (1, binds)
  else if inRange e.base e.len e.obj || mine.any (fun x =>
      rangesMeet e.base e.len x.base x.len || inRange e.base e.len x.obj || inRange x.base x.len e.obj) then
    (2, binds)
  else if mine.any (fun x => x.obj == e.obj && x.imm != e.imm) then (3, binds)
  else if e.len = 0 then (4, binds)
  else (0, binds ++ [e])

/-- SOBIND (R258). -/
def execSobind (d a b : SReg) (s : State) : Host.Outcome State Fault Refusal :=
  let s := s.breaking
  let core := s.turn
  let base := (s.rs b).toNat
  let w := (s.rs (sregAdd b 1)).toNat
  let len := bitsOf w 0 41
  s.finish (do
    let va ← s.checkMem (s.rs a) 16
    if base % 128 ≠ 0 then trapE s (tCommand 0 0 b.toNat 0)
    else if len % 128 ≠ 0 ∨ 2 ^ 40 < len then trapE s (tCommand 0 0 (b.toNat + 1) 0)
    else if bitsOf w 42 22 ≠ 0 then trapE s (tCommand 0 (42 + trailingZerosFrom 22 0 (bitsOf w 42 22)) (b.toNat + 1) 0)
    else if 2 ^ 57 < base + len then trapE s (tCommand 0 0 b.toNat 1)
    else
      let _ ← s.tr core va false 1
      let e : Binding := ⟨va, base, len, s.pasidOf core true, w.testBit 41⟩
      let (st, binds) := bindTable (s.vfOf core).binds e
      let s := s.onVf (s.teamOf core).vf (fun v => { v with binds := binds })
      .ok ((s.onCtx core (·.setS d (BitVec.ofNat 64 st))).retire 4))

/-- BCWAIT (R269). -/
def execBcwait (d a b : SReg) (s : State) : Host.Outcome State Fault Refusal :=
  let s := s.breaking
  let core := s.turn
  let team := (s.core core).team
  s.finish (do
    let va ← s.checkMem (s.rs a) 8
    let pa ← s.tr core va false 1
    match s.lineErr (s.secureCore core) team (pa / 128) .read with
    | some e => .ok ((s.homeErr core va (pa / 128) 0 e).retire 4)
    | none =>
      let s := s.touchRead pa 8
      let c := BitVec.ofNat 64 (leNat (s.view team pa 8))
      if c.ult (s.rs b) then waitE s
      else .ok ((s.onCtx core (·.setS d c)).retire 4))

end Sys2Proof.Machine
end

