-- ==== Sys2Proof/Machine/Matrix.lean ====
section
/-! DEFINITION. Matrix instructions (R206 to R227, R248, R364): the checks at issue, the lease, acceptance, and the
events in which the array executes its queue, with its stops. -/

namespace Sys2Proof.Machine

/-! ### Issue (R206 stage 1) -/

/-- A queued MLD or ACPY of a member leaves its tile this tag (R149, R220, R223). -/
def MxInstr.tags (m : MxInstr) (member tile : Nat) : Option Fmt :=
  if m.member = member ∧ (m.op = some .mld ∨ m.op = some .acpy) ∧ m.word.aTile.toNat = tile then some m.word.af else none

/-- The tag that the task's accepted instructions will leave a tile register, where they set one. -/
def State.queuedTag (s : State) (core tile : Nat) : Option Fmt :=
  ((s.cluster (clusterOf core)).array.queue.reverse).findSome? (·.tags (core % 4) tile)

/-- The tag of a tile register in program order: what the task's accepted instructions will leave (R149). -/
def State.tileTag (s : State) (core tile : Nat) : Fmt :=
  (s.queuedTag core tile).getD ((s.ctx core).regs.mTag tile)

/-- Is the tag that issue checks one that the register gives, in a word that fails its ECC (R148)? -/
def State.tagBad (s : State) (core tile : Nat) : Bool :=
  (s.queuedTag core tile).isNone && (s.ctx core).regs.bad.contains (.m tile 0)

/-- May a queued drain of the member still tag a tile by STT (R149, R242)? -/
def State.sttPending (s : State) (core : Nat) : Bool :=
  let cl := s.cluster (clusterOf core)
  let loading := (s.teamOf core).coreList.any (fun k =>
    ((s.memberCtx k (s.core core).team).queue 0).any (fun c => c.kind == .dload && !c.moved))
  cl.array.queue.any (fun m => m.member == core % 4 && m.word.dmode != 0 &&
    (loading || (match scanDrain cl.store.dcs m.word.cf 64 m.word.entry.toNat none with
      | .ok p => holds p 22
      | .error _ => true)))

/-- The tile sources that are checked at issue: register, format, operand code (R14, R201, R218). -/
def MWord.tileSrcs (op : MOp) (w : MWord) : List (Nat × Fmt × Nat) :=
  let run (t : BitVec 3) (adv : Bool) : List Nat :=
    (List.range (if adv then min 8 (max 1 w.rep.toNat) else 1)).map (fun r => (t.toNat + r) % 8)
  match op with
  | .mma =>
    (if w.aKind = 1 then [] else (run w.aTile w.advA).map (fun t => (t, w.af, 1)))
    ++ (if w.bKind = 1 ∨ w.bKind = 2 then [] else (run w.bTile w.advB).map (fun t => (t, w.bf, 2)))
  | .acpyin => [(w.aTile.toNat, w.af, 1)]
  | _ => []

/-- The tag check of stage 1; ACPY's tile is a destination (R140, R223). -/
def State.issueTags (s : State) (core : Nat) (op : MOp) (w : MWord) : Option TrapInfo :=
  let src := (MWord.tileSrcs op w).findSome? (fun e =>
    let t := s.tileTag core e.1
    if t = e.2.1 then none else some (tFormat e.2.1 t e.2.2))
  if op = .acpy then
    let t := s.tileTag core w.aTile.toNat
    if t = .raw ∨ t = w.af then none else some (tFormat w.af t 0)
  else src

/-- The instruction with what it reads at issue. -/
def State.mxRead (s : State) (core : Nat) (i : Instr) : MxInstr :=
  let x := s.ctx core
  let base : MxInstr := {
    insn := i, core := core, member := core % 4, rowK := 0, colK := 0, a1 := 0, a2 := 0, b1 := 0, b2 := 0, koff := 0
    dparam := 0, waitCp := 0, waitWs := 0, pasid := s.pasidOf core true }
  match i with
  | .msave a b | .mrstr a b => { base with a1 := x.rs a, a2 := x.rs b }
  | i =>
    let w := (i.mparts.map (·.2)).getD MWord.zero
    { base with
      rowK := x.regs.mask w.rowMask.toNat, colK := x.regs.mask w.colMask.toNat
      a1 := x.rs w.aFirst, a2 := x.rs w.aSecond, b1 := x.rs w.bFirst, b2 := x.rs w.bSecond
      koff := x.rs w.koff, dparam := x.rs w.dparam, waitCp := x.rs w.waitCp, waitWs := x.rs w.waitWs }

/-- The bytes of an array image (R362). -/
def imageBytes : Nat := 0x82000

/-- Stage 1 of a matrix instruction other than MSTAT. -/
def State.issueMx (s : State) (core : Nat) (i : Instr) : Except Stop MxInstr :=
  let m := s.mxRead core i
  match i with
  | .msave _ b | .mrstr _ b =>
    let a := m.a1.toNat
    if (s.ctx core).ring = .u then trapE s (tRing 0)
    else if !rangeIn .memory a imageBytes then trapE s (tAddress a)
    else if a % 4096 ≠ 0 then trapE s (tMisaligned a)
    else if bitsOf m.a2.toNat 9 55 ≠ 0 then
      trapE s (tCommand 0 (9 + trailingZerosFrom 55 0 (bitsOf m.a2.toNat 9 55)) b.toNat 0)
    else .ok m
  | i =>
    match i.mparts with
    | none => .ok m
    | some (op, w) =>
      let tiles := (MWord.tileSrcs op w).map (·.1) ++ (if op = .acpy then [w.aTile.toNat] else [])
      if !tiles.isEmpty && s.sttPending core then waitE s
      else if tiles.any (s.tagBad core) then waitE (s.consumeLocal core 0)
      else match s.issueTags core op w with
        | some t => trapE s t
        | none => .ok m

/-! ### The lease (R212 to R217) -/

/-- Request the lease for a member. -/
def State.askLease (s : State) (core : Nat) : State :=
  s.onArray (clusterOf core) (fun a => if a.lease.reqs.contains (core % 4) then a
    else { a with lease := { a.lease with reqs := a.lease.reqs ++ [core % 4] } })

/-- The steps of a run (R214). -/
def runSteps (leaserun : Word) : Nat :=
  let n := bitsOf leaserun.toNat 0 7
  if n = 0 then 16 else min n 64

/-- The first requester after the last holder, in member order. -/
def Lease.next (l : Lease) : Option Nat :=
  ([1, 2, 3, 4].map (fun d => (l.last + d) % 4)).find? (fun m => l.reqs.contains m)

/-- The team state of a cluster as a VF finds it: zeroed where the cluster last held another VF's (R153, R155). DEDUCED
(assumption 47): R155 has its steps done before the lease is granted, and has an incoming team find zero; the model does
them as the team comes in. -/
def Cluster.prepare (c : Cluster) (vf : Nat) : Cluster :=
  if c.owner = some vf then c
  else { c with
    owner := some vf, store := {}
    array := { c.array with shown := [], restart := {}, reading := none, stop := {} } }

/-- The array grants its free lease, after the zeroing of R155 where that is due. -/
def execLeaseGrant (cl : Nat) (s : State) : Host.Outcome State Fault Refusal :=
  let c := s.cluster cl
  let l := c.array.lease
  let vf := (s.team c.team).vf
  match l.holder, l.next with
  | none, some m =>
    if c.team = 0 ∨ c.array.halt = true ∨ (c.owner ≠ some vf ∧ !c.array.queue.isEmpty) then .next s
    else
      let x := s.ctx (4 * cl + m)
      .next ((s.onCluster cl (·.prepare vf)).onArray cl (fun a => { a with lease := { l with
        holder := some m, left := runSteps x.ctl.leaserun, first := true, byLease := x.mx.isNone
        reqs := l.reqs.filter (· ≠ m) } }))
  | _, _ => .next s

/-- The holder has offered nothing for 64 or 2048 cycles while another core requests: the run ends (R213). -/
def execLeaseRunIdleTimeout (cl : Nat) (s : State) : Host.Outcome State Fault Refusal :=
  let l := (s.cluster cl).array.lease
  match l.holder with
  | some m =>
    if l.reqs.isEmpty || (s.ctx (4 * cl + m)).mx.isSome then .next s
    else .next (s.onArray cl (fun a => { a with lease := a.lease.end }))
  | none => .next s

/-- LEASE (R216). -/
def execLease (d : SReg) (s : State) : Host.Outcome State Fault Refusal :=
  let s := s.breaking
  let l := (s.cluster (clusterOf s.turn)).array.lease
  if l.holder = some (s.turn % 4) then s.writeRetire d (BitVec.ofNat 64 l.left)
  else .next (s.askLease s.turn)

/-- UNLEASE (R217). -/
def execUnlease (s : State) : Host.Outcome State Fault Refusal :=
  let s := s.breaking
  .next ((s.onArray (clusterOf s.turn) (fun a =>
    { a with lease := if a.lease.holder = some (s.turn % 4) then a.lease.end else a.lease })).retire 4)

/-! ### Acceptance (R206 stage 3, R144, R219) -/

/-- Check one accumulator against the tags that acceptance shows. -/
def needTag (ok : Fmt → Bool) (cf : Fmt) (tags : Map Fmt) (t : Nat) : Except TrapInfo Unit :=
  let f := Map.get .raw tags t
  if ok f then .ok () else .error (tFormat cf f 3)

/-- The tags after the steps of an MMA, each step's target checked, then its drain's pair. -/
def mmaTags (m : MxInstr) (tags : Map Fmt) : Except TrapInfo (Map Fmt) :=
  let w := m.word
  foldE (fun (tags : Map Fmt) r => do
    needTag (fun f => w.ovw && (r == 0 || !w.accAcross) || f == .raw || f == w.cf) w.cf tags (w.target r)
    let tags := Map.set .raw tags (w.target r) w.cf
    if m.drains r then needTag (· == w.cf) w.cf tags (w.pair r)
    .ok tags) tags (List.range m.nrep)

/-- The accumulator tags that an instruction is checked against and those it leaves. -/
def accTags (m : MxInstr) (tags : Map Fmt) : Except TrapInfo (Map Fmt) :=
  let w := m.word
  let t := w.acc.toNat
  match m.op with
  | some .mma => mmaTags m tags
  | some .acpyin => do
    needTag (fun f => w.ovw || f == .raw || f == w.cf) w.cf tags t
    .ok (Map.set .raw tags t w.cf)
  | some .mzero => .ok (Map.set .raw tags t w.cf)
  | some .drun => do
    needTag (· == w.cf) w.cf tags t
    needTag (· == w.cf) w.cf tags w.acc2.toNat
    .ok tags
  | some .mst | some .acpy => do
    needTag (· == w.cf) w.cf tags t
    .ok tags
  | _ => .ok tags

/-- The array takes the instruction: one step of the task's generator, the next number, the counter, the tags, which
ctl.atag shows from here on (R152; assumption 47), the charge; the instruction retires (R206, R212, R26). -/
def State.takeMx (s : State) (core : Nat) (m : MxInstr) (shown : Map Fmt) : State :=
  let x := s.ctx core
  let rng := rngNext x.ctl.rng
  let (x, n) := Ctx.number { x with ctl := { x.ctl with rng := rng }, tiles := x.tiles + 1 } .mx
  let m := { m with num := n, rng := rng }
  let vf := (s.teamOf core).vf
  ((s.setCtx core x).onArray (clusterOf core) (fun a =>
    let l := { a.lease with left := a.lease.left - m.nrep, first := false }
    { a with
      queue := a.queue ++ [m], shown := shown, seen := shown, lastVf := some vf, lease := if l.left = 0 then l.end else l })).retire 24

/-- Try to accept the instruction that the turn's core waits with. -/
def State.acceptMx (s : State) (core : Nat) (m : MxInstr) : Res :=
  let a := (s.cluster (clusterOf core)).array
  if a.lease.holder ≠ some (core % 4) then waitE (s.askLease core)
  else if 16 ≤ a.queue.length || a.replay != 0 || a.halt || s.mcast.any (fun c => c.core == core)
      || a.queue.any (fun q => match q.insn with | .mrstr _ _ => true | _ => false) then waitE s
  else if a.lease.left < m.nrep && !a.lease.first then
    waitE ((s.onArray (clusterOf core) (fun a => { a with lease := a.lease.end })).askLease core)
  else match accTags m a.shown with
    | .error t => trapE s t
    | .ok shown => match spOperandTrap m.spUses with
      | some t => trapE s t
      | none =>
        let x := s.ctx core
        if (x.timeline .cp).issued < m.waitCp.toNat then trapE s (tAhead m.waitCp)
        else if (x.timeline .ws).issued < m.waitWs.toNat then trapE s (tAhead m.waitWs)
        else .ok (s.takeMx core m shown)

/-- A matrix instruction at its core: stage 1 once, then the wait for acceptance. -/
def matrixOp (i : Instr) (s : State) : Host.Outcome State Fault Refusal :=
  let s := s.breaking
  let core := s.turn
  s.finish (match (s.ctx core).mx with
    | some m =>
      if m.insn = i then s.acceptMx core m
      else do
        let m ← s.issueMx core i
        (s.onCtx core (fun x => { x with mx := some m })).acceptMx core m
    | none => do
      let m ← s.issueMx core i
      (s.onCtx core (fun x => { x with mx := some m })).acceptMx core m)

def execMma (w : MWord) (s : State) := matrixOp (.mma w) s
def execDrun (w : MWord) (s : State) := matrixOp (.drun w) s
def execMld (w : MWord) (s : State) := matrixOp (.mld w) s
def execMst (w : MWord) (s : State) := matrixOp (.mst w) s
def execMzero (w : MWord) (s : State) := matrixOp (.mzero w) s
def execAcpy (w : MWord) (s : State) := matrixOp (.acpy w) s
def execAcpyin (w : MWord) (s : State) := matrixOp (.acpyin w) s
def execMsave (a b : SReg) (s : State) := matrixOp (.msave a b) s
def execMrstr (a b : SReg) (s : State) := matrixOp (.mrstr a b) s

/-- The array looks again at the instruction that a core waits with. -/
def execMatrixAccept (core : Nat) (s : State) : Host.Outcome State Fault Refusal :=
  match (s.ctx core).mx with
  | none => .next s
  | some m =>
    let t := { s with turn := core }
    if (s.teamOf core).consumed || (s.core core).dead || s.atSave core then .next s
    else match t.acceptMx core m with
    | .ok r => .next { r with turn := s.turn }
    | .error (.trap r i) => .next { (r.takeSync core i) with turn := s.turn }
    | .error (.wait r) => .next { r with turn := s.turn }

/-- MSTAT (R224). -/
def execMstat (d : SReg) (s : State) : Host.Outcome State Fault Refusal :=
  let s := s.breaking
  let a := (s.cluster (clusterOf s.turn)).array
  let held := decide (a.lease.holder = some (s.turn % 4))
  let t := a.stop
  .next ((s.onCtx s.turn (·.setS d (BitVec.ofNat 64 (min 16 a.queue.length + 32 * held.toNat + 64 * (t.stop % 4)
    + 256 * (t.rep % 256) + 65536 * (t.kdone % 512) + 2 ^ 25 * (t.acc % 8) + 2 ^ 32 * (t.num % 2 ^ 32))))).retire 24)

/-! ### Execution (R207, R208, R210) -/

/-- The instruction at the head of the queue, where the array may work on it: its team stands on the cluster, has
consumed no error, and its awaited commands are done. -/
def State.mxHead (s : State) (cl : Nat) : Option MxInstr :=
  let c := s.cluster cl
  match c.array.queue with
  | [] => none
  | m :: _ =>
    let x := s.ctx m.core
    if c.team ≠ 0 ∧ (s.core m.core).team = c.team ∧ (s.team c.team).consumed = false
        ∧ m.waitCp.toNat ≤ (x.timeline .cp).done ∧ m.waitWs.toNat ≤ (x.timeline .ws).done then some m
    else none

def State.setHead (s : State) (cl : Nat) (m : MxInstr) : State :=
  s.onArray cl (fun a => { a with queue := m :: a.queue.drop 1, stop := { a.stop with stop := 0 } })

/-- The instruction is complete, with its fault where it ended in one: code, FN and detail (R207, R126, R29). -/
def State.completeMx (s : State) (cl : Nat) (m : MxInstr) (fault : Option (Nat × Nat × Word)) : State :=
  let s := s.onArray cl (fun a => { a with
    queue := a.queue.drop 1, replay := a.replay - 1, stop := { a.stop with stop := 0 } })
  s.onCtx m.core (fun x =>
    let x := match fault with
      | some (code, fn, d) => x.onTimeline .mx (fun t => t.note 3 code fn m.num d)
      | none => x
    ({ (x.orFlags m.flags) with tiles := x.tiles - 1 }).completeNum .mx m.num)

/-- The next repeat, or the end. -/
def State.advanceMx (s : State) (cl : Nat) (m : MxInstr) : State :=
  if m.rep + 1 < m.nrep then
    s.setHead cl { m with rep := m.rep + 1, stepped := false, cycle := m.cycle2, cycle2 := 0 }
  else s.completeMx cl m none

/-- What a step leaves (R205, R219, R227). -/
def State.afterStep (s : State) (cl : Nat) (m : MxInstr) (r : TeamStore × Flags × StepEnd) : State :=
  let (t, fl, e) := r
  let m := { m with flags := fl }
  match e with
  | .consumed => s.consumeLocal m.core 6
  | .fault kdone slot =>
    let s := s.onStore cl (fun _ => t)
    let s := s.completeMx cl m (some (6, 0, BitVec.ofNat 64 (kdone + 512 * (m.rep % 256) + 2 ^ 17 * slot)))
    s.onArray cl (fun a => { a with stop := ⟨2, m.rep, kdone, m.word.target m.rep, m.num⟩ })
  | .done =>
    let s := s.onStore cl (fun _ => t)
    if m.drains m.rep then s.setHead cl { m with stepped := true, cycle := m.word.cls.last }
    else s.advanceMx cl m

/-- May the array begin a step or an instruction: it is not stopped, and its team is not to leave (R215, R225)? -/
def State.begins (s : State) (cl : Nat) : Bool :=
  !(s.cluster cl).array.halt && !s.leaving (s.cluster cl).team

/-- The array streams one tile step. -/
def execTileStep (cl : Nat) (s : State) : Host.Outcome State Fault Refusal :=
  match s.mxHead cl with
  | some m =>
    if m.op = some .mma ∧ m.stepped = false ∧ s.begins cl = true then
      .next (s.afterStep cl m (stepOp m (s.cluster cl).store (s.ctx m.core).regs m.rep m.cycle none false))
    else .next s
  | none => .next s

/-- What a drain leaves (R249). -/
def State.afterDrain (s : State) (cl : Nat) (m : MxInstr) (d : DrainSt) : State :=
  let s := s.onStore cl (fun _ => d.store)
  let s := s.onCtx m.core (fun x => { x with regs := d.regs })
  let s := s.onArray cl (fun a => { a with
    restart := d.restart, reading := if d.ended = some .frozen then d.read else none })
  let m := { m with flags := d.env.flags, rng := d.env.rng }
  match d.ended with
  | some .consumed => (s.completeMx cl m none).consumeLocal m.core 6
  | some .frozen => s.setHead cl m
  | some (.fault code detail) => s.completeMx cl m (some (code, if m.op = some .drun then 1 else 0, detail))
  | none => s.advanceMx cl m

/-- The drain that the head of the queue has come to, stopped after `limit` elements where a freeze stops it. -/
def State.drainHead (s : State) (cl : Nat) (m : MxInstr) (limit : Option Nat) : State :=
  let c := s.cluster cl
  s.afterDrain cl m (runDrainOp m c.store (s.ctx m.core).regs c.array.restart c.array.reading m.rep limit)

/-- Has the head come to a drain: that of a step that has streamed, or a DRUN's own? -/
def MxInstr.drainDue (m : MxInstr) : Bool := m.stepped || m.op == some MOp.drun

/-- May the drain unit go on with the head: a step that has streamed is drained though its team is to leave (R215), and
nothing is drained in a stopped array (R225)? -/
def State.drainsNow (s : State) (cl : Nat) (m : MxInstr) : Bool :=
  m.drainDue && !(s.cluster cl).array.halt && (m.stepped || s.begins cl)

/-- The drain unit drains the tile. -/
def execRunDrain (cl : Nat) (s : State) : Host.Outcome State Fault Refusal :=
  match s.mxHead cl with
  | some m => if s.drainsNow cl m then .next (s.drainHead cl m none) else .next s
  | none => .next s

/-- Rows `m.cycle` to `hi` − 1 of a row instruction (R220 to R223, R225). -/
def State.rowsHead (s : State) (cl : Nat) (m : MxInstr) (hi : Nat) : State :=
  let x := rowsOp m m.cycle hi ⟨(s.cluster cl).store, (s.ctx m.core).regs, ⟨m.flags, m.rng⟩, false⟩
  let s := s.onStore cl (fun _ => x.store)
  let s := s.onCtx m.core (fun c => { c with regs := x.regs })
  let m := { m with flags := x.env.flags, rng := x.env.rng, cycle := hi }
  let s := if x.bad then s.consumeLocal m.core 6 else s
  if x.bad && !m.rowsGoOn then s
  else if hi < m.rowCount then s.setHead cl m
  else s.completeMx cl m none

/-! ### The array image (R362, R364) -/

/-- A restart record as the image holds it. -/
def Restart.bytes (x : Restart) : List Byte :=
  leBytes 1 x.valid.toNat ++ leBytes 1 x.cause.toNat ++ leBytes 4 x.num ++ leBytes 1 x.member ++ leBytes 1 x.tile
    ++ leBytes 1 x.pair ++ leBytes 2 x.entry ++ leBytes 1 x.rep ++ leBytes 1 x.row ++ leBytes 1 x.col
    ++ leBytes 4 x.runMax ++ leBytes 4 x.runSum ++ leBytes 8 x.rng.toNat ++ List.replicate 34 0

def Restart.ofBytes (b : List Byte) : Restart :=
  let f (o n : Nat) : Nat := leNat ((b.drop o).take n)
  ⟨f 0 1 % 2 == 1, f 1 1 % 2 == 1, f 2 4, f 6 1 % 4, f 7 1 % 8, f 8 1 % 8, f 9 2 % 512, f 11 1, f 12 1 % 128, f 13 1 % 128,
    f 14 4, f 18 4, BitVec.ofNat 64 (f 22 8)⟩

/-- The tiles that bits [7:0] of a selection name. -/
def selTiles (sel : Nat) : List Nat := (List.range 8).filter (fun t => sel.testBit t)

/-- A tile's part of the image, in pieces of 512 bytes: 128 rows, then the checksums. -/
def TeamStore.tilePieces (s : TeamStore) (t : Nat) : List (Nat × List Byte) :=
  let base := 0x1000 + t * 0x10200
  ((List.range 128).map (fun i =>
    (base + 512 * i, (List.range 128).flatMap (fun j => leBytes 4 (s.word t i j).toNat))))
  ++ [(base + 0x10000, (List.range 128).flatMap (fun i => leBytes 4 (s.sums.get (t * 128 + i)).toNat))]

/-- The header of an image that MSAVE writes, without its tag. -/
def saveHeader (s : TeamStore) (x : Restart) (sel : Nat) : List Byte :=
  let tiles := selTiles sel
  let withR := sel.testBit 8
  let atag := tiles.foldl (fun n t => n + (s.aTag t).code.toNat * 16 ^ t) 0
  leBytes 4 1 ++ leBytes 1 0 ++ leBytes 1 (sel % 256) ++ leBytes 1 0
    ++ leBytes 1 (if withR && x.valid then 2 else 0) ++ leBytes 4 atag ++ List.replicate (0x100 - 12) 0
    ++ (if withR then x.bytes else List.replicate 64 0) ++ List.replicate (0xFE0 - 0x140) 0

/-- Who accesses the image: the array, for the issuing task, under the address space of the issue. -/
def MxInstr.agent (m : MxInstr) (cl team : Nat) : Agent :=
  ⟨.array cl, sliceOfCluster cl, cl, team, m.member, m.core, m.pasid, 6, true⟩

/-- Write pieces in order. -/
def State.putPieces (s : State) (e : Agent) (base : Nat) (ps : List (Nat × List Byte)) : Except EngErr State :=
  foldE (fun s p => s.engWrite e (base + p.1) p.2) s ps

/-- Read pieces of 512 bytes. -/
def State.getPieces (s : State) (e : Agent) (base off n : Nat) : Except EngErr (State × List Byte) :=
  foldE (fun (x : State × List Byte) k => do
    let (s, bs) ← x.1.engRead e (base + off + 512 * k) 512
    .ok (s, x.2 ++ bs)) (s, []) (List.range n)

/-- A translation that is pending leaves only its request; a fault ends the instruction (R126). -/
def State.imageStop (s0 : State) (cl : Nat) (m : MxInstr) (e : Agent) (fn : Nat) (ps : List (Nat × List Byte))
    (x : EngErr) : State :=
  match x with
  | .park t => { s0 with slices := t.slices }
  | .fault _ code addr line u =>
    -- each granule that was being written holds its old value or its new one
    let s := ((List.range ps.length).zip ps).foldl (fun (s : State) p =>
      if Config.granuleNew (s0.time.tick + p.1) then
        (match s.engWrite e (m.a1.toNat + p.2.1) p.2.2 with
        | .ok s => s
        | .error _ => s)
      else s) s0
    ((s.engMeet e line u).clearRefused e).completeMx cl m (some (code, fn, BitVec.ofNat 64 addr))

/-- MSAVE (R364): the tiles of SEL with their checksums, the header and the tag. A row whose checksum fails is not
written and is a consumed error. -/
def State.msave (s : State) (cl : Nat) (m : MxInstr) : State :=
  let e := m.agent cl (s.cluster cl).team
  let st := (s.cluster cl).store
  let sel := bitsOf m.a2.toNat 0 9
  let tiles := selTiles sel
  let hd := saveHeader st (s.cluster cl).array.restart sel
  let pieces := tiles.flatMap (fun t => st.tilePieces t)
  let good := tiles.flatMap (fun t => ((List.range 129).zip (st.tilePieces t)).flatMap (fun p =>
    if p.1 < 128 then (if st.rowOk t p.1 then [p.2] else [])
    else if (List.range 128).all (st.rowOk t) then [p.2]
    else (List.range 128).filterMap (fun i =>
      if st.rowOk t i then some (p.2.1 + 4 * i, leBytes 4 (st.sums.get (t * 128 + i)).toNat) else none)))
  let tag := leBytes 32 (Config.hmac (hd ++ pieces.flatMap (·.2))).toNat
  let ps := good ++ [(0, hd ++ tag)]
  match s.putPieces e m.a1.toNat ps with
  | .error x => s.imageStop cl m e 2 ps x
  | .ok t =>
    let t := if tiles.all (fun i => (List.range 128).all (st.rowOk i)) then t else t.consumeLocal m.core 6
    t.completeMx cl m none

/-- Load a tile from its part of an image. -/
def TeamStore.loadTile (s : TeamStore) (t : Nat) (tag : Fmt) (bs : List Byte) : TeamStore :=
  let w (k : Nat) : BitVec 32 := BitVec.ofNat 32 (leNat ((bs.drop (4 * k)).take 4))
  { s with
    acc := s.acc.setRange (accKey t 0 0) ((List.range 16384).map w)
    sums := s.sums.setRange (t * 128) ((List.range 128).map (fun i => w (16384 + i)))
    atag := Map.set .raw s.atag t tag }

/-- MRSTR (R364): the tag and the version, then the refusal of stopped or queued work, then the tiles of SEL. -/
def State.mrstr (s : State) (cl : Nat) (m : MxInstr) : State :=
  let e := m.agent cl (s.cluster cl).team
  let base := m.a1.toNat
  let sel := bitsOf m.a2.toNat 0 9
  let r : Except EngErr (State × List Byte × List (Nat × List Byte)) := do
    let (s, hd) ← s.getPieces e base 0 8
    let (s, ts) ← foldE (fun (x : State × List (Nat × List Byte)) t => do
      let (s, bs) ← x.1.getPieces e base (0x1000 + t * 0x10200) 129
      .ok (s, x.2 ++ [(t, bs)])) (s, [])
      ((List.range 8).filter (fun t => sel.testBit t || (hd.getD 5 0).getLsbD t))
    .ok (s, hd, ts)
  match r with
  | .error x => s.imageStop cl m e 3 [] x
  | .ok (s, hd, ts) =>
    let held := ts.filter (fun t => (hd.getD 5 0).getLsbD t.1)
    let tag := leBytes 32 (Config.hmac (hd.take 0xFE0 ++ held.flatMap (·.2))).toNat
    if hd.drop 0xFE0 ≠ tag ∨ leNat (hd.take 4) ≠ 1 then s.completeMx cl m (some (13, 3, m.a1))
    else if hd.getD 4 0 ≠ 0 ∨ hd.getD 6 0 ≠ 0 ∨ (hd.getD 7 0).getLsbD 0 = true then
      s.completeMx cl m (some (14, 3, m.a1))
    else
      let atag := leNat ((hd.drop 8).take 4)
      let want := ts.filter (fun t => sel.testBit t.1)
      let tagOf (t : Nat) : Fmt := (Fmt.ofCode (bitsOf atag (4 * t) 4)).getD .raw
      let s := s.onStore cl (fun st => want.foldl (fun st t => st.loadTile t.1 (tagOf t.1) t.2) st)
      let s := s.onArray cl (fun a => { a with
        shown := want.foldl (fun g t => Map.set .raw g t.1 (tagOf t.1)) a.shown
        seen := want.foldl (fun g t => Map.set .raw g t.1 (tagOf t.1)) a.seen
        restart := if sel.testBit 8 then Restart.ofBytes ((hd.drop 0x100).take 64) else a.restart })
      s.completeMx cl m none

/-- The array executes an instruction that streams no step. -/
def execArrayExecute (cl : Nat) (s : State) : Host.Outcome State Fault Refusal :=
  match s.mxHead cl with
  | some m =>
    if !s.begins cl then .next s
    else match m.insn with
      | .msave _ _ => .next (s.msave cl m)
      | .mrstr _ _ => .next (s.mrstr cl m)
      | .mma _ | .drun _ => .next s
      | _ => .next (s.rowsHead cl m m.rowCount)
  | none => .next s

/-! ### The stops of R225 -/

/-- The last stop that MSTAT shows. DESIGN CHOICE (assumption 51): KDONE, which R224 defines for a drain on fault alone, is for
another stop the number of products of PE (0, 0), or 0 where the head is no MMA; where nothing of the head has begun, STOP
alone changes. -/
def State.noteStop (s : State) (cl code : Nat) : State :=
  s.onArray cl (fun a => { a with
    halt := true
    stop := match a.queue with
      | m :: _ =>
        if m.rep = 0 ∧ m.cycle = 0 ∧ m.stepped = false then { a.stop with stop := code }
        else ⟨code, m.rep, if m.op = some .mma then m.word.formed m.cycle 0 0 else 0, m.word.target m.rep, m.num⟩
      | [] => { a.stop with stop := code } })

/-- Stop at a tile boundary: a step that has streamed finishes its drain; no further step begins (R215). A frozen array
stays as it is. -/
def State.stopArray (s : State) (cl : Nat) : State :=
  if (s.cluster cl).array.halt then s else
  let s := match s.mxHead cl with
    | some m => if m.stepped then s.drainHead cl m none else s
    | none => s
  s.noteStop cl 1

/-- May a younger step into a tile stream while the step of `m` has still to drain (R226, R247)? Its target is not a
tile that the drain reads. DESIGN CHOICE (assumption 51): a younger step into such a tile, as under chain=acc with a drain
after each step, counts as not begun at a freeze, since neither rule says how the values of both would be saved. -/
def MxInstr.overlaps (m : MxInstr) (target : Nat) : Bool :=
  !m.drains m.rep || (target != m.word.target m.rep && target != m.word.pair m.rep)

/-- The younger step that a freeze catches: repeat REP + 1, or the first step of the next instruction (R226). It is
taken as begun only where no weight-buffer error and no consumed error stops it first. -/
def State.freezeYounger (s : State) (cl : Nat) (m : MxInstr) (c2 : Nat) : State :=
  let st := (s.cluster cl).store
  if c2 = 0 then s
  else if m.rep + 1 < m.nrep then
    if !m.overlaps (m.word.target (m.rep + 1)) then s
    else
    match stepOp m st (s.ctx m.core).regs (m.rep + 1) m.cycle2 (some c2) (m.word.target (m.rep + 1) == m.word.target m.rep) with
    | (t, fl, .done) => (s.onStore cl (fun _ => t)).setHead cl { m with flags := fl, cycle2 := max m.cycle2 c2 }
    | _ => s
  else match (s.cluster cl).array.queue with
    | q :: n :: rest =>
      let x := s.ctx n.core
      if n.op = some .mma ∧ m.overlaps (n.word.target 0) = true ∧ n.waitCp.toNat ≤ (x.timeline .cp).done ∧ n.waitWs.toNat ≤ (x.timeline .ws).done then
        match stepOp n st x.regs 0 n.cycle (some c2) (n.word.target 0 == m.word.target m.rep) with
        | (t, fl, .done) => (s.onStore cl (fun _ => t)).onArray cl (fun a =>
            { a with queue := q :: { n with flags := fl, cycle := max n.cycle c2 } :: rest })
        | _ => s
      else s
    | _ => s

/-- Freeze the array, which is then stopped once and for all (R225, R226): `cyc` is how far the instruction in progress had come — ac cycles of a step,
elements of a drain, rows of a row instruction — and `cyc2` the cycles of a younger overlapping step. -/
def State.freezeArray (s : State) (cl cyc cyc2 : Nat) : State :=
  if (s.cluster cl).array.halt then s else
  let s := match s.mxHead cl with
    | none => s
    | some m =>
      if m.drainDue then
        let s := s.drainHead cl m (some cyc)
        match s.mxHead cl with
        | some h => if h.num = m.num ∧ h.member = m.member ∧ h.stepped = true then
            s.freezeYounger cl h (min cyc2 h.word.cls.last) else s
        | none => s
      else if cyc = 0 then s
      else if m.op = some MOp.mma then
        let c := min cyc m.word.cls.last
        match stepOp m (s.cluster cl).store (s.ctx m.core).regs m.rep m.cycle (some c) false with
        | (t, fl, .done) =>
          let m := { m with flags := fl, cycle := max m.cycle c }
          ((s.onStore cl (fun _ => t)).setHead cl m).freezeYounger cl m (min cyc2 (c - 128))
        | r => s.afterStep cl m r
      else match m.op with
        | none => s
        | some _ => s.rowsHead cl m (min m.rowCount (m.cycle + cyc))
  s.noteStop cl 3

end Sys2Proof.Machine
end

