-- ==== Sys2Proof/Machine/SaveBlock.lean ====
section
/-! DEFINITION. The save block of a swapped team, byte for byte (R356 to R360, R362, R363): its parts and their
integrity tags as the burrow engine writes them, and the check of every part before a restore. -/

namespace Sys2Proof.Machine

/-- The bytes of a save block, and the offsets at which its parts begin, with its end (R356). -/
def blockBytes : Nat := 0x9EF000
def blockParts : List Nat := [0, 0x1000, 0x4B000, 0x95000, 0xDF000, 0x129000, 0x1AB000, 0x1ED000, 0x1EE000, 0x9EE000, blockBytes]

/-- Bytes to be written at offsets. -/
abbrev Pieces := List (Nat × List Byte)

def Pieces.shift (base : Nat) (ps : Pieces) : Pieces := ps.map (fun p => (base + p.1, p.2))

/-- The listed cells of a register file or store, each as `n` bytes at the offset that `pos` gives its key. -/
def Sparse.pieces {w : Nat} (m : Sparse w) (n : Nat) (pos : Nat → Nat) : Pieces :=
  m.map (fun e => (pos e.1, leBytes n e.2.toNat))

/-- The image of a range that holds pieces and zeros elsewhere. -/
def Memory.putAll (m : Memory) (ps : Pieces) : Memory := ps.foldl (fun m p => m.setRange p.1 p.2) m

/-- Tags packed two to a byte (R358). -/
def tagBytes (tag : Nat → Fmt) (n : Nat) : List Byte :=
  (List.range n).map (fun i => BitVec.ofNat 8 ((tag (2 * i)).code.toNat + 16 * (tag (2 * i + 1)).code.toNat))

/-! ### A task context (R358) -/

def TrapRegs.bytes (t : TrapRegs) : List Byte :=
  [t.tvec, t.epc, t.cause, t.tval, t.status, t.scratch].flatMap (fun w => leBytes 8 w.toNat)

/-- Offset 0x40. -/
def Ctl.bytes (c : Ctl) : List Byte :=
  [c.fpflags.setWidth 64, c.rng, c.gtag, c.leaserun, c.engfault, c.engfaddr, c.retired, c.dbgctl].flatMap
    (fun (w : Word) => leBytes 8 w.toNat)

/-- Offset 8: ring, COOP, FORCED, a broken region, the PDONE mask, a pending CBAR arrival. -/
def Ctx.saveFlags (c : Ctx) : Nat :=
  c.ring.rank + 0x100 * c.coop.toNat + 0x200 * c.forced.toNat + 0x400 * (c.region.any (·.broken)).toNat
    + 0x800 * c.pdone.toNat + 0x4000 * c.cbarPend.toNat

/-- Offsets 0 to 0xEF. -/
def Ctx.headBytes (c : Ctx) : List Byte :=
  leBytes 8 c.pc.toNat ++ leBytes 8 c.saveFlags ++ c.ctl.d.bytes ++ c.ctl.bytes
    ++ allTLs.flatMap (fun t => leBytes 8 (c.timeline t).issued ++ leBytes 8 (c.timeline t).done)
    ++ [c.loads, c.stores, c.copies, c.tiles].flatMap (fun n => leBytes 2 n.toNat)
    ++ leBytes 4 c.cbar ++ leBytes 1 c.member ++ leBytes 3 0 ++ leBytes 8 c.curStep ++ leBytes 8 c.arrivals

/-- A queue entry of an engine: command group, number, and a progress whose layout R358 leaves open. -/
def EngCmd.bytes (c : EngCmd) : List Byte :=
  [c.g0, c.g1, c.g2, c.g3].flatMap (fun w => leBytes 8 w.toNat) ++ leBytes 8 c.num
    ++ (List.range 24).map (Config.progressByte ([c.kind.fn, c.pasid, c.gtag.toNat, c.step, c.prog, c.off, c.order,
      c.moved.toNat, c.started.toNat, c.edge.1] ++ (c.edge.2 ++ c.umap).map (·.toNat)
      ++ c.held.flatMap (fun e => [e.1, (e.2.map (·.toNat)).getD 0])))

/-- A stream register: the FIFO, its fill count, FMT, and pending bindings whose layout R358 leaves open. -/
def QReg.pieces (q : QReg) (bound : List Nat) (base : Nat) : Pieces :=
  [(base, q.bytes), (base + 1024, leBytes 2 q.bytes.length ++ leBytes 1 q.fmt.code.toNat
    ++ (if q.faults.isEmpty && bound.isEmpty && q.narrow.isEmpty then []
      else (List.range 125).map (Config.progressByte (q.faults ++ bound ++ q.narrow.map (·.toNat)))))]

/-- The numbers of the CPYB commands that are bound to a stream register. -/
def Ctx.boundTo (c : Ctx) (n : Nat) : List Nat :=
  ((c.queue 0).filter (fun x => x.kind == .cpyb && cbQ x == n)).map (·.num)

def Ctx.partPieces (c : Ctx) : Pieces :=
  [(0, c.headBytes), (0x300, leBytes 16 (2 ^ 128 - 1)),
    (0x380, tagBytes c.regs.vTag 16 ++ tagBytes c.regs.mTag 4 ++ tagBytes (fun i => (c.regs.queue i).fmt) 4)]
  ++ Sparse.pieces c.regs.s 8 (fun k => 0x100 + 8 * k)
  ++ Sparse.pieces c.regs.k 16 (fun k => 0x300 + 16 * k)
  ++ (List.range 4).flatMap (fun q => ((List.range 16).zip (c.queue q)).map (fun e => (0x400 + 0x400 * q + 64 * e.1, e.2.bytes)))
  ++ (List.range 8).flatMap (fun n => (c.regs.queue n).pieces (c.boundTo n) (0x1400 + 1152 * n))
  ++ Sparse.pieces c.regs.v 4 (fun k => 0x3800 + 4 * k)
  ++ Sparse.pieces c.regs.m 1 (fun k => 0x7800 + k / 32768 * 33792 + k % 32768)
  ++ Sparse.pieces c.regs.side 1 (fun k => 0x7800 + k / 1024 * 33792 + 32768 + k % 1024)
  ++ ((List.range 5).zip allTLs).map (fun e =>
    let t := c.timeline e.2
    (0x49800 + 24 * e.1, leBytes 8 t.mark ++ leBytes 8 t.fault.toNat ++ leBytes 8 t.addr.toNat))

/-! ### The array image (R362, R363) -/

/-- Has an accepted instruction begun? -/
def MxInstr.begun (m : MxInstr) : Bool := m.rep != 0 || m.cycle != 0 || m.stepped

/-- Is an instruction a DRUN that a freeze caught in its drain, which the restart record alone carries (R225)? -/
def MxInstr.carried (m : MxInstr) (x : Restart) : Bool :=
  m.op == some MOp.drun && x.frozenAt m

/-- A stopped-step record or queue entry (R363). -/
def MxInstr.bytes (m : MxInstr) : List Byte :=
  (encode m.insn).flatMap (fun p => leBytes 4 p.toNat)
    ++ [m.a1, m.a2, m.b1, m.b2, m.koff, m.dparam, m.waitCp, m.waitWs].flatMap (fun w => leBytes 8 w.toNat)
    ++ leBytes 1 m.member ++ leBytes 1 m.rep ++ leBytes 2 (m.word.target m.rep) ++ leBytes 4 m.num
    ++ leBytes 8 m.cycle ++ leBytes 8 m.rng.toNat ++ leBytes 8 m.cycle2

/-- What a stopped array leaves: the image's header without its tag, and the tiles. -/
def imagePieces (st : TeamStore) (queue : List MxInstr) (stop : StopRec) (x : Restart) : Pieces :=
  let queue := if queue.head?.any (·.carried x) then queue.drop 1 else queue
  let ss := (queue.head?).filter (·.begun)
  let rest := if ss.isSome then queue.drop 1 else queue
  let atag := (List.range 8).foldl (fun n t => n + (st.aTag t).code.toNat * 16 ^ t) 0
  [(0, leBytes 4 1 ++ leBytes 1 stop.stop ++ leBytes 1 0xFF ++ leBytes 1 rest.length
      ++ leBytes 1 (ss.isSome.toNat + 2 * x.valid.toNat) ++ leBytes 4 atag),
    (0x80, (ss.map (·.bytes)).getD []), (0x100, x.bytes)]
  ++ ((List.range 16).zip rest).map (fun e => (0x200 + 128 * e.1, e.2.bytes))
  ++ Sparse.pieces st.acc 4 (fun k => 0x1000 + k / 16384 * 0x10200 + 4 * (k % 16384))
  ++ Sparse.pieces st.sums 4 (fun k => 0x1000 + k / 128 * 0x10200 + 0x10000 + 4 * (k % 128))

/-! ### The block (R356, R359) -/

/-- Where the header holds the swap's nonce: its fields follow one another in R356's order, each on a byte. -/
def nonceAt : Nat := 46

/-- The command of a control-store load that is under way, whose progress stands behind the control store. -/
def Saved.dload (b : Saved) : Pieces :=
  match (b.ctxs.flatMap (fun c => c.queue 0)).find? (fun x => x.kind == .dload && !x.moved) with
  | some x => [(0x1ED800, x.bytes)]
  | none => []

/-- The block before its tags. -/
def blockPieces (t : Team) (b : Saved) : Pieces :=
  [(0, t.record ++ leBytes 8 t.dnum ++ leBytes 1 (recSize t.record) ++ leBytes 4 ((b.ctxs.head?.map (·.cbar)).getD 0)
      ++ leBytes 1 (b.overrun.toNat + 2 * b.frozen.toNat) ++ leBytes 8 b.nonce.toNat)]
  ++ ((List.range 4).zip b.ctxs).flatMap (fun e => Pieces.shift (0x1000 + 0x4A000 * e.1) e.2.partPieces)
  ++ Pieces.shift 0x129000 (imagePieces b.store b.queue b.stop b.restart)
  ++ Sparse.pieces b.store.wb 1 (fun k => 0x1AB000 + k / 32768 * 0x8400 + k % 32768)
  ++ Sparse.pieces b.store.wbs 1 (fun k => 0x1AB000 + k / 1024 * 0x8400 + 32768 + k % 1024)
  ++ Sparse.pieces b.store.dcs 4 (fun k => 0x1ED000 + 4 * k) ++ b.dload
  ++ Sparse.pieces b.store.sp 1 (fun k => 0x1EE000 + k)

/-- The integrity tag of a range of the image (R359). -/
def tagOver (m : Memory) (at_ lo n : Nat) : Nat × List Byte := (at_, leBytes 32 (Config.hmac (m.getRange lo n)).toNat)

/-- The tags of the parts that hold their own, and those that the block's last page holds after the block's. -/
def partTags (m : Memory) (members : Nat) : Pieces :=
  (List.range members).map (fun i => tagOver m (0x1000 + 0x4A000 * i + 0x49FE0) (0x1000 + 0x4A000 * i) 0x49FE0)
  ++ [(0x129FE0, leBytes 32 (Config.hmac (m.getRange 0x129000 0xFE0 ++ m.getRange 0x12A000 0x81000)).toNat),
    tagOver m 0x9EE020 0 0x1000, tagOver m 0x9EE040 0x1AB000 0x42000, tagOver m 0x9EE060 0x1ED000 0x1000,
    tagOver m 0x9EE080 0x1EE000 0x800000]

/-- The whole block as the burrow engine leaves it. -/
def blockImage (t : Team) (b : Saved) : Memory :=
  let m := Memory.putAll [] (blockPieces t b)
  let m := m.putAll (partTags m b.ctxs.length)
  m.putAll [tagOver m 0x9EE000 0 0x9EE000]

/-- An image as it lies at a place. -/
def Memory.placed (img : Memory) (base : Nat) : List (Nat × Byte) := img.map (fun e => (base + e.1, e.2))

/-- The listed bytes of a range. -/
def Memory.within (m : Memory) (lo hi : Nat) : List (Nat × Byte) := m.filter (fun e => decide (lo ≤ e.1) && decide (e.1 < hi))

/-- Can a line that is no withheld one refuse a request: is a slice stopped, or a region marked (R387, R397)? -/
def State.guarded (s : State) : Bool :=
  (List.range 8).any (fun n => (s.slice n).stopped) || !s.home.regionLo.isEmpty

/-- The burrow engine writes a save block: every line of it is replaced whole, but those that refuse the write
(R386, R387, R397). -/
def State.putBlock (s : State) (a : Asker) (block : Nat) (img : Memory) : State :=
  if s.guarded then s.devPut a block (img.getRange 0 blockBytes)
  else
  let inside (l : Nat) : Bool := decide (block / 128 ≤ l) && decide (l < (block + blockBytes) / 128)
  s.onHome (fun h => { h with
    mem := (Memory.placed img block).foldl (fun (m : Memory) e => m.set e.1 e.2) (Map.clear h.mem block (block + blockBytes))
    old := Map.clear h.old block (block + blockBytes)
    place := Map.clear h.place (block / 128) ((block + blockBytes) / 128)
    mscBad := h.mscBad.filter (fun l => !inside l)
    dramBad := h.dramBad.filter (fun l => !inside l)
    seen := h.seen.filter (fun l => !inside l)
    withheld := h.withheld.filterMap (fun e =>
      let l := e.2.filter (fun l => !inside l)
      if l.isEmpty then none else some (e.1, l)) })

/-- The first error that a read of the lines from `lo` to before `hi` meets. -/
def State.lineErrIn (s : State) (secure : Bool) (lo hi : Nat) : Option (Nat × HErr) :=
  let lines := if s.guarded then (List.range (hi - lo)).map (· + lo)
    else (s.home.dramBad ++ s.home.mscBad ++ s.home.withheld.flatMap (·.2)).filter
      (fun l => decide (lo ≤ l) && decide (l < hi))
  lines.findSome? (fun l => (s.lineErr secure 0 l .read).map (fun e => (l, e)))

/-- The first part of a save block that meets an uncorrectable error, with the error, or whose tag does not match: whose
bytes are no longer those that the burrow engine wrote (R360). -/
def State.blockBad (s : State) (secure : Bool) (b : Saved) (block : Option Nat) : Option (Nat × Option (Nat × HErr)) :=
  match block with
  | none => none
  | some a =>
    let img : List (Nat × Byte) := Memory.placed b.image a
    (List.range 10).findSome? (fun p =>
      let lo := a + blockParts.getD p 0
      let hi := a + blockParts.getD (p + 1) 0
      match s.lineErrIn secure (lo / 128) (hi / 128) with
      | some e => some (p, some e)
      | none => if Memory.within s.home.mem lo hi != Memory.within img lo hi then some (p, none) else none)

end Sys2Proof.Machine
end

