-- ==== Sys2Proof/Machine/Sched.lean ====
section
/-! DEFINITION. Tasks, teams and the scheduler (R309 to R335, R356 to R360, R371, R372): the launch ring, the
time-triggered table, dispatch, swapping and restore, and the task instructions. -/

namespace Sys2Proof.Machine

/-! ### The dispatcher's reads and writes (R368, R371) -/

/-- Read a VF's memory for the dispatcher, under its driver PASID. On an error, the state and whether the read only
waits for its translation. -/
def State.dispRead (s : State) (vf va n : Nat) : Except (State × Bool) (State × List Byte) :=
  let v := s.vf vf
  foldE (fun (x : State × List Byte) (p : Nat × Nat) =>
    match x.1.translate (.launch vf) v.logSlice v.driverPasid p.1 false with
    | .stall s => .error (s, true)
    | .refused s => .error (s, false)
    | .ok pa => match x.1.readErr (s.secureSlice v.logSlice) 0 pa p.2 with
      | some (l, e) => .error (x.1.reportFor vf 0 l 10 v.driverPasid e, false)
      | none => .ok (x.1.touchRead pa p.2, x.2 ++ x.1.peek pa p.2)) (s, []) (pageSegs va n)

/-- The place where the dispatcher may write bytes of one page. -/
def State.dispPlace (s : State) (vf va : Nat) : Except (State × Bool) Nat :=
  let v := s.vf vf
  match s.translate (.launch vf) v.logSlice v.driverPasid va true with
  | .stall s => .error (s, true)
  | .refused s => .error (s, false)
  | .ok pa => match s.lineErr (s.secureSlice v.logSlice) 0 (pa / 128) .part with
    | some e => .error (s.reportFor vf 0 (pa / 128) 10 v.driverPasid e, false)
    | none => .ok pa

/-- The launch queue parks with RING_INVALID, and the HSC receives its record (R371, R372). -/
def State.ringInvalid (s : State) (vf reason : Nat) : State :=
  let v := s.vf vf
  (s.onVf vf (fun v => { v with lstate := 2, lreason := reason, rung := false })).report {
    kind := 11, vf := vf, slice := v.logSlice, cls := 10, pasid := v.driverPasid }

/-! ### Modes and queues -/

/-- Does the VF hold a running or a queued record (R317)? -/
def State.vfBusy (s : State) (vf : Nat) : Bool :=
  s.teams.any (fun e => e.2.live && e.2.vf == vf)
  || (List.range 8).any (fun n => (s.slice n).queues.any (fun e => e.1 / 16 == vf && !e.2.isEmpty))

/-- MODE takes effect while the VF holds no record (R317). Resident mode has no launch ring, and a doorbell launches
nothing there, later either (R321). -/
def State.settleMode (s : State) (vf : Nat) : State :=
  if s.vfBusy vf then s else s.onVf vf (fun v =>
    let on := (v.word 0).testBit 0
    { v with resident := on, rung := v.rung && !on })

/-- The position of the oldest entry that a cluster may pop: it has not yet popped its copy of a resident record
(R321). -/
def popIndex (cl : Nat) (l : List QEnt) : Option Nat := l.findIdx? (fun e => !(e.resident && e.popped.contains (cl % 8)))

/-- The queue that a cluster of the slice serves next for a VF, at class `lo` or higher: the highest class with an
entry, its queues round-robin after the one that the cluster served last (R315). -/
def State.nextQueue (s : State) (cl vf lo : Nat) : Option (Nat × Nat) :=
  let sl := s.slice (sliceOfCluster cl)
  ([3, 2, 1, 0].filter (fun p => decide (lo ≤ p))).findSome? (fun p =>
    let last := Map.get 3 (s.cluster cl).lastQ (4 * vf + p)
    ([1, 2, 3, 4].map (fun i => (last + i) % 4)).findSome? (fun q =>
      (popIndex cl (sl.queue (qkey vf p q))).map (fun i => (qkey vf p q, i))))

/-- The handle of a swapped entry (R357); none for a team record. -/
def recHandle (r : List Byte) : Option Nat := if recCode r % 4 = 1 then some (recCode r / 4) else none

/-- The queue entry of a swapped record. -/
def handleEntry (h dnum : Nat) : List Byte := leBytes 8 (1 + 4 * h) ++ leBytes 8 dnum ++ List.replicate 16 0

/-! ### Retirement and the end of a team (R334, R383) -/

/-- An entry for the VF's event ring (R383). -/
def State.vfEvent (s : State) (type vf slice cl audit : Nat) (record : List Byte) (dnum : Nat) : State :=
  s.log vf 2 (leBytes 2 type ++ leBytes 2 (slice % 8 + 8 * (cl % 8)) ++ leBytes 4 (recGrid record)
    ++ leBytes 6 (recCoord record) ++ leBytes 2 0 ++ leBytes 8 dnum ++ leBytes 4 audit ++ leBytes 4 0)

/-- The retirement-log entry of a team, where its record asks for one (R334). -/
def State.retireLog (s : State) (team cl status : Nat) : State :=
  let t := s.team team
  if recRetlog t.record then
    s.log t.vf 1 (leBytes 4 (recGrid t.record) ++ leBytes 6 (recCoord t.record) ++ leBytes 1 status
      ++ leBytes 1 (8 * t.slice + cl % 8) ++ leBytes 4 (s.cluster cl).auditSeq)
  else s

/-- The cluster lets its team go: its cores idle, its array holds nothing. -/
def State.vacate (s : State) (cl : Nat) : State :=
  let s := (List.range 4).foldl (fun s m => s.onCore (4 * cl + m) (fun c => { c with
    team := 0, running := false, ctx := {}, shadow := none, budget := none, reqWait := false, preempt := false
    abort := none, abortQ := [], stepped := none, halted := false, l1i := [] })) s
  let s := s.onCluster cl (fun c => { c with team := 0, array := { c.array with
    queue := [], replay := 0, halt := false, lease := { c.array.lease.end with reqs := [] } } })
  let mine (r : Req) : Bool := match r with
    | .core n => clusterOf n == cl
    | .array n => n == cl
    | _ => false
  s.onSlice (sliceOfCluster cl) (fun sl => { sl with
    refused := sl.refused.filter (fun x => !mine x.req)
    ats := sl.ats.map (fun q => { q with waiters := q.waiters.filter (fun r => !mine r) }) })

/-- A record has ended: its time-table entry's BUSY is to be cleared (R320). -/
def State.ttRelease (s : State) (t : Team) : State :=
  match t.tt with
  | some ix => s.onVf t.vf (fun v => { v with ttDone := v.ttDone ++ [ix] })
  | none => s

/-- The team's number and its engines' translation requests are gone. -/
def State.dropTeam (s : State) (team : Nat) : State :=
  let t := s.team team
  let mine (r : Req) : Bool := match r with
    | .engine n _ _ => n == team
    | _ => false
  let s := s.onSlice t.slice (fun sl => { sl with
    refused := sl.refused.filter (fun x => !mine x.req)
    ats := sl.ats.map (fun q => { q with waiters := q.waiters.filter (fun r => !mine r) }) })
  { s with teams := Map.set {} s.teams team {} }

/-! ### The time-triggered table (R319, R320) -/

/-- An entry of the table, as its 32 bytes give it. -/
def ttFlags (e : List Byte) : Nat := (e.getD 24 0).toNat
def ttMiss (e : List Byte) : Nat := leNat ((e.drop 28).take 4)

def ttWith (e : List Byte) (next flags miss : Nat) : List Byte :=
  leBytes 8 next ++ (e.drop 8).take 16 ++ leBytes 1 flags ++ (e.drop 25).take 3 ++ leBytes 4 miss

/-- Copy the record of a table entry, check it and push it; whether it was queued. -/
def State.ttPush (s : State) (vf ix : Nat) (e : List Byte) : Except (State × Bool) (State × Bool) := do
  let a := leNat ((e.drop 16).take 8)
  let slice := bitsOf (e.getD 25 0).toNat 0 3
  let (s, r) ← s.dispRead vf a 32
  match recBad r with
  | some why => .ok (s.dispatchFault vf a why slice 1 (recGrid r), false)
  | none =>
    let full := decide ((s.vf vf).qsize ≤ ((s.slice slice).queue (qkey vf (recPrio r) (recQueue r))).length)
    .ok (s.pushTail vf slice 1 { record := r, addr := a, tt := some ix }, !full)

def ttAddr (v : Vf) (ix : Nat) : Nat := v.word 3 + 32 * ix

/-- A table access that stops: it parks the launch queue, or makes its ring invalid (R369). -/
def State.launchStop (s : State) (vf reason : Nat) (parked : Bool) : State :=
  if parked then s.onVf vf (fun v => { v with lstate := 1, lreason := 0 }) else s.ringInvalid vf reason

/-- Act on one release of an entry: release it, hold it, or count it as missed; then NEXT moves on (R320). -/
def State.ttAct (s : State) (vf ix : Nat) : Except (State × Bool) State := do
  let a := ttAddr (s.vf vf) ix
  let (s, e) ← s.dispRead vf a 32
  let pa ← s.dispPlace vf a
  let f := ttFlags e
  let next := leNat (e.take 8)
  let period := leNat ((e.drop 8).take 8)
  if !f.testBit 0 || decide (s.time.ptpns.toNat < next) then .ok s
  else
    let (s, f, miss) ←
      if !f.testBit 3 then do
        let (s, queued) ← s.ttPush vf ix e
        Except.ok (s, if queued then f ||| 8 else f, ttMiss e)
      else if f.testBit 1 && !f.testBit 2 then Except.ok (s, f ||| 4, ttMiss e)
      else Except.ok (s, f, min (ttMiss e + 1) (2 ^ 32 - 1))
    let f := if period = 0 then f - f % 2 else f
    .ok (s.poke pa (ttWith e ((next + period) % 2 ^ 64) f miss))

/-- BUSY of an entry clears, and a held release is pushed (R320). -/
def State.ttClear (s : State) (vf ix : Nat) : Except (State × Bool) State := do
  let a := ttAddr (s.vf vf) ix
  let (s, e) ← s.dispRead vf a 32
  let pa ← s.dispPlace vf a
  let f := ttFlags e &&& 0xF7
  let next := leNat (e.take 8)
  if f.testBit 2 then do
    let (s, queued) ← s.ttPush vf ix e
    .ok (s.poke pa (ttWith e next ((if queued then f ||| 8 else f) &&& 0xFB) (ttMiss e)))
  else .ok (s.poke pa (ttWith e next f (ttMiss e)))

/-- Does the VF's launch queue wait for a translation (R368, R371)? -/
def State.launchParked (s : State) (vf : Nat) : Bool :=
  (s.slice (s.vf vf).logSlice).ats.any (·.waiters.contains (.launch vf))

/-- Serve an entry whose record has ended, unless the launch queue is parked. -/
def State.ttServe (s : State) (vf ix : Nat) : State :=
  if s.launchParked vf then s
  else
    let done (s : State) : State := s.onVf vf (fun v => { v with ttDone := v.ttDone.erase ix })
    match s.ttClear vf ix with
    | .ok s => done s
    | .error (s, true) => s.launchStop vf 2 true
    | .error (s, false) => (done s).launchStop vf 2 false

/-- Serve the entries whose records have ended (R320). -/
def State.ttSettle (s : State) (vf : Nat) : State := (s.vf vf).ttDone.foldl (fun s ix => s.ttServe vf ix) s

/-- Act on one release, which waits where the launch queue parks. -/
def State.ttRun (s : State) (vf ix : Nat) : State :=
  let wait (s : State) : State := s.onVf vf (fun v =>
    { v with ttDue := if v.ttDue.contains ix then v.ttDue else v.ttDue ++ [ix] })
  let v := s.vf vf
  if v.resident || !v.descOk || v.word 3 == 0 || s.time.ptpns == 0 || decide (256 ≤ ix) || v.lstate == 2 then s
  else if s.launchParked vf then wait s
  else match s.ttAct vf ix with
    | .ok s => s.onVf vf (fun v => { v with lstate := 0, lreason := 0 })
    | .error (s, true) => wait (s.launchStop vf 2 true)
    | .error (s, false) => s.launchStop vf 2 false

/-- The releases that waited for the launch queue. -/
def State.ttRetry (s : State) (vf : Nat) : State :=
  let due := (s.vf vf).ttDue
  due.foldl (fun s ix => s.ttRun vf ix) (s.onVf vf (fun v => { v with ttDue := [] }))

/-- A release of the table is due (R319, R320). -/
def execTimeTableRelease (vf ix : Nat) (s : State) : Host.Outcome State Fault Refusal :=
  .next (((s.settleMode vf).ttSettle vf).ttRun vf ix)

/-! ### The launch ring (R317, R318, R371) -/

/-- The slice that takes the next launch-ring record, and the rotation after it (R317). -/
def Vf.launchSlice (v : Vf) : Option (Nat × Nat) :=
  let on := (List.range 8).filter (fun n => v.lrmask.testBit n && v.allot.getLsbD n)
  match on with
  | [] => ((List.range 8).find? (fun n => v.allot.getLsbD n)).map (fun n => (n, v.rotate))
  | first :: _ =>
    let n := (on.find? (fun n => decide (v.rotate ≤ n))).getD first
    some (n, n + 1)

/-- What became of the ring after one look at it. -/
inductive Ringed where
  | empty (s : State)
  | pushed (s : State)
  | stop (s : State)

/-- Check the ring, and push its next record (R371). -/
def State.ringNext (s : State) (vf : Nat) : Ringed :=
  let v := s.vf vf
  let base := v.word 1
  let size := bitsOf (v.word 2) 0 32
  match s.dispRead vf base 16 with
  | .error (s, p) => .stop (s.launchStop vf 1 p)
  | .ok (s, hd) =>
    let wi := leNat (hd.take 8)
    let ri := leNat (hd.drop 8)
    let n := (wi + 2 ^ 64 - ri) % 2 ^ 64
    if size < n then .stop (s.ringInvalid vf 3)
    else if n = 0 then .empty s
    else match v.launchSlice with
      | none => .stop s
      | some (slice, rot) =>
        let a := base + 128 + ri % size * 32
        match s.dispRead vf a 32 with
        | .error (s, p) => .stop (s.launchStop vf 2 p)
        | .ok (s, r) => match s.dispPlace vf (base + 8) with
          | .error (s, p) => .stop (s.launchStop vf 1 p)
          | .ok pa =>
            let s := s.pushChecked vf slice 0 { record := r, addr := a }
            let s := s.onVf vf (fun v => { v with rotate := rot })
            .pushed (s.pokeNat pa 8 (ri + 1))

/-- Push record after record until the ring is empty or something stops it. -/
def State.ringRun (vf : Nat) : Nat → State → State
  | 0, s => s
  | n + 1, s => match s.ringNext vf with
    | .empty s => s.onVf vf (fun v => { v with rung := false, lstate := 0, lreason := 0 })
    | .stop s => s
    | .pushed s => State.ringRun vf n (s.onVf vf (fun v => { v with lstate := 0, lreason := 0 }))

/-- The dispatcher serves a VF's launch ring, which resident mode does not have, unless the launch queue is parked (R321,
R371). -/
def State.serveRing (s : State) (vf : Nat) : State :=
  let s := (s.settleMode vf).ttSettle vf
  let v := s.vf vf
  if v.resident then s.onVf vf (fun v => { v with rung := false })
  else if !v.descOk || s.launchParked vf then s
  else State.ringRun vf 65537 s

/-- A launch doorbell: the ring is checked again and its new records are pushed (R318, R371). -/
def execLaunchDoorbell (vf : Nat) (s : State) : Host.Outcome State Fault Refusal :=
  .next (((s.wakeVf vf).onVf vf (fun v => { v with rung := true })).serveRing vf)

/-- A write of the dispatch descriptor. An invalid one stops dispatch, with reason 5 (R317, R335, R372). -/
def execDispatchDescriptorWrite (vf : Nat) (ws : List Word) (s : State) : Host.Outcome State Fault Refusal :=
  let old := (s.vf vf).lrmask
  let s := (s.wakeBlock 16).onVf vf (fun v => { v with desc := Sparse.setRange v.desc 0 (ws.take 16) })
  let s := s.onVf vf (fun v => { v with rotate := if v.lrmask = old then v.rotate else 0 })
  let s := s.settleMode vf
  let v := s.vf vf
  if v.descOk then .next (s.onVf vf (fun v => if v.lreason = 4 then { v with lstate := 0, lreason := 0 } else v))
  else
    let s := s.onVf vf (fun v => { v with lstate := 2, lreason := 4 })
    .next (s.dispatchFault vf 0 5 v.logSlice 4 0)

/-! ### Dispatch (R312, R315, R321) -/

/-- Is a cluster idle for a VF (R315, R387, R390)? None is for a VF that has been stopped to move, or whose stream states are
still to come (R398). -/
def State.idleFor (s : State) (cl vf : Nat) : Bool :=
  let c := s.cluster cl
  let sl := sliceOfCluster cl
  c.team == 0 && !c.fenced && !c.auditReq && (s.vf vf).allot.getLsbD sl && !(s.slice sl).stopped && !s.mgmt.held && !s.mgmt.railsOff
  && (s.vf vf).loaded && !(s.vf vf).sg.any (·.held)
  && (List.range 4).all (fun m => !(s.core (4 * cl + m)).dead)

/-- The idle cluster that the dispatcher prefers: one whose array last accepted an instruction of the VF, else the
lowest (R315). -/
def State.pickCluster (s : State) (slice vf : Nat) : Option Nat :=
  let idle := ((List.range 8).map (· + 8 * slice)).filter (fun cl => s.idleFor cl vf && (s.nextQueue cl vf 0).isSome)
  match idle.find? (fun cl => (s.cluster cl).array.lastVf == some vf) with
  | some cl => some cl
  | none => idle.head?

/-- A record with COORD.x replaced (R321). -/
def recWithX (r : List Byte) (x : Nat) : List Byte := r.take 20 ++ leBytes 2 x ++ r.drop 22

/-- A member's coordinate (R310, R312). -/
def recCoordOf (r : List Byte) (m : Nat) : Nat :=
  let c := recCoord r
  if recXspread r then c - c % 65536 + (c % 65536 + m) % 65536 else c

/-- The context in which member `m` of a record begins (R153, R287, R312). -/
def startCtx (r : List Byte) (m step : Nat) : Ctx :=
  let c : Ctx := {
    pc := BitVec.ofNat 64 (recCode r), member := m, curStep := step, ctl := { d := { status := 0 } } }
  (((c.setS 1 (BitVec.ofNat 64 (recFrame r))).setS 2 (BitVec.ofNat 64 (recCoordOf r m))).setS 3
    (BitVec.ofNat 64 (recGrid r))).setS 4 (BitVec.ofNat 64 m)

/-- Put the members' contexts in the shadow banks of their cores. -/
def State.loadShadows (s : State) (cl : Nat) (ctxs : List Ctx) : State :=
  ((List.range ctxs.length).zip ctxs).foldl (fun s e =>
    s.onCore (4 * cl + e.1) (fun c => { c with shadow := some e.2 })) s

/-- The records of a cluster's audit interval, with one that has run there: each stands there once (R389). -/
def Cluster.ran (c : Cluster) (p : Provisional) : List Provisional :=
  if c.provisional.contains p then c.provisional else c.provisional ++ [p]

/-- Start a fresh record on a cluster (R312, R313). -/
def State.startTeam (s : State) (cl vf : Nat) (e : QEnt) : State :=
  let sl := sliceOfCluster cl
  let id := s.nextTeam
  let dnum := (s.slice sl).nextDnum
  let r := if e.resident then recWithX e.record (cl % 8) else e.record
  let t : Team := {
    live := true, record := r, addr := e.addr, vf := vf, slice := sl, cluster := some cl, dnum := dnum
    rolled := e.rolled, resident := e.resident, tt := e.tt }
  let s := { s with nextTeam := id + 1, teams := Map.set {} s.teams id t }
  let s := s.onSlice sl (fun x => { x with nextDnum := dnum + 1 })
  let s := s.onCluster cl (fun c => { c.prepare vf with
    team := id, array := { (c.prepare vf).array with seen := [], stop := {} }, provisional := c.ran ⟨vf, dnum, r⟩ })
  s.loadShadows cl ((List.range t.size).map (fun m => startCtx r m (s.vf vf).stepNo))

/-! ### Swapped teams (R356, R357, R360) -/

/-- Clear VALID of the swap-table entry of a team. -/
def State.freeSwap (s : State) (slice team : Nat) : State :=
  ((s.slice slice).swaps.filter (fun e => e.2 == team)).foldl (fun s e =>
    let a := (s.slice slice).swapAt e.1 + 16
    (s.devPut (s.hscAsker slice) a (leBytes 1 (s.peekNat a 1 % 128))).onSlice slice (fun sl =>
      { sl with swaps := Map.set 0 sl.swaps e.1 0 })) s

/-- A restore fails: the record is killed, the tenant loses its context (R360). -/
def State.loseContext (s : State) (team cl part : Nat) : State :=
  let t := s.team team
  let s := s.report {
    kind := 9, vf := t.vf, slice := t.slice, cluster := cl % 8, cls := 9, pa := ((t.saved.bind (·.block)).getD 0)
    dnum := t.dnum, detail := part }
  let s := s.vfEvent 2 t.vf t.slice cl 0 t.record t.dnum
  let s := s.retireLog team cl 1
  let s := s.ttRelease t
  (s.freeSwap t.slice team).dropTeam team

/-- The burrow engine reads a team's save block at `block`: the part that keeps it from being restored, and the state with
the record of the error that the read met (R360, R382). -/
def State.savedBad (s : State) (team : Nat) (block : Option Nat) : State × Option Nat :=
  let t := s.team team
  match t.saved.bind (fun b => s.blockBad (s.secureSlice t.slice) b block) with
  | none => (s, none)
  | some (p, none) => (s, some p)
  | some (p, some (l, e)) => (s.reportFor t.vf 0 l 9 0 e, some p)

/-- A context as the restore loads it: the destination of the PDONE that ended it reads 0 (R352). -/
def Ctx.restored (c : Ctx) : Ctx :=
  let c := match c.pdoneD with
    | some d => c.setS d 0
    | none => c
  { c with coop := false, forced := false, pdone := 0, pdoneD := none }

/-- Restore a team on a cluster (R360, R365): `bad` is a part of its block that failed its check; the contexts go to
the shadow banks, the team state to the cluster, and the array begins with the saved work. -/
def State.restoreTeam (s : State) (team cl : Nat) (bad : Option Nat) : State :=
  let t := s.team team
  match t.saved with
  | none => s
  | some b =>
    match bad with
    | some part => s.loseContext team cl part
    | none =>
      let s := s.freeSwap t.slice team
      let s := s.onTeam team (fun t => { t with cluster := some cl, saved := none })
      let shown := b.queue.foldl (fun g (m : MxInstr) => (match accTags m g with | .ok g => g | .error _ => g)) b.store.atag
      let s := s.onCluster cl (fun c => { c with
        team := team, owner := some t.vf, store := b.store, provisional := c.ran ⟨t.vf, t.dnum, t.record⟩
        array := { c.array with
          queue := b.queue.map (fun m => { m with core := 4 * cl + m.member }), replay := b.queue.length
          shown := shown, seen := b.seen, stop := {}, restart := b.restart, reading := b.reading, halt := false } })
      s.loadShadows cl (b.ctxs.map Ctx.restored)

/-- Does the handle of a popped swapped entry name a valid entry of the slice's swap table, for this VF and this dispatch
number, whose block carries its nonce (R357)? -/
def State.handleOk (s : State) (slice vf h : Nat) (e : QEnt) : Bool :=
  let x := s.swapEnt slice h
  decide (h < (s.slice slice).swapLen) && x.valid && x.vf == vf && x.dnum == leNat ((e.record.drop 8).take 8)
    && s.peekNat (x.block + nonceAt) 8 == x.nonce

/-- A popped swapped entry that fails those conditions restores nothing (R357). -/
def State.badHandle (s : State) (slice vf : Nat) (e : QEnt) : State :=
  s.dispatchFault vf (recCode e.record) 7 slice 5 0

/-- A valid entry of a slice's swap table whose block no save of this module wrote: none of its tags is right, and its
context is lost under R360, by the record that its header holds. -/
def State.loseForeign (s : State) (slice vf h cl : Nat) : State :=
  let x := s.swapEnt slice h
  let id := s.nextTeam
  let b : Saved := ⟨[], {}, [], [], {}, {}, none, false, false, some x.block, 0, []⟩
  let t : Team := {
    live := true, record := s.peek x.block 32, vf := vf, slice := slice, engCl := cl, dnum := x.dnum, saved := some b }
  let s := { s with nextTeam := id + 1, teams := Map.set {} s.teams id t }
  (s.onSlice slice (fun sl => { sl with swaps := Map.set 0 sl.swaps h id })).loseContext id cl 0

/-- Pop a swapped entry: the dispatcher reads its entry of the swap table, and the burrow engine its block (R357, R360). -/
def State.restoreEntry (s : State) (cl vf : Nat) (h : Nat) (e : QEnt) : State :=
  let sl := sliceOfCluster cl
  let (s, x) := if h < (s.slice sl).swapLen then s.devGet { s.hscAsker sl with cls := 10 } ((s.slice sl).swapAt h) 32
    else (s, none)
  let team := Map.get 0 (s.slice sl).swaps h
  if x.isNone || !s.handleOk sl vf h e then s.badHandle sl vf e
  else if team = 0 then s.loseForeign sl vf h cl
  else
    let (s, bad) := s.savedBad team (some (s.swapEnt sl h).block)
    s.restoreTeam team cl bad

/-- Take an entry out of its queue; a resident record stays until each of the eight clusters has its copy. -/
def State.takeEntry (s : State) (cl k i : Nat) : State :=
  (s.onCluster cl (fun c => { c with lastQ := Map.set 3 c.lastQ (k / 4) (k % 4) })).onSlice (sliceOfCluster cl) (fun sl =>
    let l := sl.queue k
    let l := match l[i]? with
      | some e =>
        if e.resident && decide (e.popped.length < 7) then l.set i { e with popped := e.popped ++ [cl % 8] }
        else l.eraseIdx i
      | none => l
    sl.setQueue k l)

/-- The bytes of a queue's entry: those on chip, or those of its slot of the backing ring, which a write on its way to it
gives (R314, R335, R357). On an error, the state and whether the read only waits for its translation. -/
def State.readEntry (s : State) (vf slice k : Nat) (e : QEnt) : Except (State × Bool) (State × QEnt) :=
  match e.ring with
  | none => .ok (s, e)
  | some n =>
    let a := (s.vf vf).ringAt slice k n
    match ((s.vf vf).logQ.filter (fun w => w.1 == 4 + 8 * a)).getLast? with
    | some w => .ok (s, { e with record := w.2 })
    | none => (s.dispRead vf a 32).map (fun r => (r.1, { e with record := r.2 }))

/-- Run an entry on a cluster. One that the backing ring gives back altered is checked like a new one; one that cannot be
read from it is dropped, with reason 7 (assumption 45). -/
def State.startEntry (s : State) (cl vf k i : Nat) : State :=
  let sl := sliceOfCluster cl
  match ((s.slice sl).queue k)[i]? with
  | none => s
  | some e =>
    match s.readEntry vf sl k e with
    | .error (s, true) => s
    | .error (s, false) => (s.takeEntry cl k i).badHandle sl vf e
    | .ok (s, x) =>
      let s := s.takeEntry cl k i
      match recHandle x.record with
      | some h => s.restoreEntry cl vf h x
      | none =>
        if x.record == e.record then s.startTeam cl vf x
        else match recBad x.record with
          | some r => s.dispatchFault vf x.addr r sl 5 (recGrid x.record)
          | none => s.startTeam cl vf x

/-- An idle cluster of the slice pops a ready or swapped record of a VF (R315). -/
def execDispatch (slice vf : Nat) (s : State) : Host.Outcome State Fault Refusal :=
  let s := s.settleMode vf
  if !(s.vf vf).descOk then .next s
  else match s.pickCluster slice vf with
    | none => .next s
    | some cl => match s.nextQueue cl vf 0 with
      | some (k, i) => .next (s.startEntry cl vf k i)
      | none => .next s

/-- The place of the entry that has waited longest in its class, the first of several. -/
def longestWait (l : List QEnt) : Nat :=
  (l.findIdx? (fun e => l.all (fun x => decide (e.since ≤ x.since)))).getD 0

/-- A record that has waited AGE moves to the tail of its queue one class higher, where that has room (R314, R315). One that
the backing ring gives back altered is checked like a new one (R311). -/
def execRecordAging (slice vf prio queue : Nat) (s : State) : Host.Outcome State Fault Refusal :=
  let sl := s.slice slice
  let k := qkey vf prio queue
  let i := longestWait (sl.queue k)
  match (sl.queue k)[i]? with
  | none => .next s
  | some e =>
    let rest := (sl.queue k).eraseIdx i
    if 3 ≤ prio ∨ 4 ≤ queue ∨ (s.vf vf).qsize ≤ (sl.queue (k + 4)).length then .next s
    else match s.readEntry vf slice k e with
      | .error (s, true) => .next s
      | .error (s, false) => .next ((s.onSlice slice (·.setQueue k rest)).badHandle slice vf e)
      | .ok (s, x) =>
        let s := s.onSlice slice (·.setQueue k rest)
        match (if x.record == e.record || (recHandle x.record).isSome then none else recBad x.record) with
        | some r => .next (s.dispatchFault vf x.addr r slice 5 (recGrid x.record))
        | none => .next (s.enqueue vf slice (k + 4) x)

/-- The banks of a core exchange roles: the incoming context becomes active, with the DATA_ABORTs that its save left it.
Before its first instruction the core writes back and invalidates the lines of the task's PASID (R255). -/
def State.switchBank (s : State) (core : Nat) : State :=
  let c := s.core core
  match c.shadow with
  | none => s
  | some x =>
    let team := (s.cluster (clusterOf core)).team
    if c.running ∨ team = 0 then s
    else
      let pasid := (s.vf (s.team team).vf).taskPasid
      let s := s.onCore core (fun c => { c with
        team := team, running := !x.exited, ctx := { x with aborts := [] }, shadow := none, bankPasid := pasid
        abort := x.aborts.head?, abortQ := x.aborts.tail })
      s.flushPasid core pasid

/-- A bank switch (R354): the members of a team switch in together (R312, R360). -/
def execBankSwitch (core : Nat) (s : State) : Host.Outcome State Fault Refusal :=
  let c := s.core core
  if c.shadow.isNone || c.running then .next s
  else .next ((List.range 4).foldl (fun s m => s.switchBank (4 * clusterOf core + m)) s)

/-! ### Swap-out (R323, R353, R357) -/

/-- Zero the groups that PDONE excused: they are not spilled (R352). -/
def Regs.excuse (r : Regs) (m : BitVec 3) : Regs :=
  let r := if m.getLsbD 0 then { r with v := [], vtag := [] } else r
  let r := if m.getLsbD 1 then { r with m := [], side := [], mtag := [] } else r
  if m.getLsbD 2 then { r with k := [] } else r

/-- A context as its save block holds it. A wait is not part of it; an open line region is broken (R107, R358). A
context that no PDONE recorded is a forced save (R353). -/
def Ctx.save (c : Ctx) : Ctx :=
  { c.breakRegion with wfe := none, mx := none, regs := c.regs.excuse c.pdone, forced := !c.coop }


/-- Write back every dirty byte of a core (R82). -/
def State.cleanAll (s : State) (core : Nat) : State :=
  (s.core core).l1.foldl (fun s l => s.cleanLine core l) s

/-- Has every member of the team executed PDONE or EXIT (R350)? -/
def State.allDone (s : State) (team : Nat) : Bool :=
  (s.team team).coreList.all (fun k => let c := s.memberCtx k team; c.coop || c.exited)

/-- The HSC swaps a team out (R313, R350). -/
def State.hscSwap (s : State) (team : Nat) : State := s.onTeam team (fun t => { t with swap := true, hsc := true })

/-- Is a WSTR of a member in the middle of a unit, whose end it reaches before it stops (R128)? -/
def State.inUnit (s : State) (team m : Nat) : Bool :=
  ((s.member team m).queue 2).any (fun c => !c.moved && c.prog % 128 != 0)

/-- May a team be saved now: every member is in ring U or D, or has ended its part, with no load still to come, no trap of
the last instruction still to be taken (R89, R352, R353, R373), and no WSTR inside a unit (R128)? -/
def State.saveable (s : State) (cl : Nat) : Bool :=
  let id := (s.cluster cl).team
  id != 0 && (s.team id).coreList.all (fun k =>
    let c := s.core k
    c.team != id || (c.ctx.pend.isEmpty && (!c.running || (c.abort.isNone && c.stepped.isNone))
      && (c.ctx.ring == .u || c.ctx.ring == .d)))
  && !(List.range 4).any (s.inUnit id)

/-- Does a row of the accumulators fail its checksum? Its words may not leave the store, whatever its tile's tag (R146). -/
def TeamStore.rowsBad (t : TeamStore) : Bool := (List.range 8).any (fun i => (List.range 128).any (fun r => !t.rowOk i r))

/-- A row found bad while a team's state is taken out: the node has consumed the error, and nothing is saved. -/
def State.spillBad (s : State) (cl : Nat) : State := s.consumeLocal (4 * cl) 6

/-- Save the team of a cluster in a block and free the cluster (R323, R356). A DATA_ABORT that the write-backs of the save
meet waits in the saved context (R69; assumption 29). -/
def State.saveTeam (s : State) (cl : Nat) (frozen overrun : Bool) (block : Option Nat) (nonce : Word) : State :=
  let id := (s.cluster cl).team
  let cores := (s.team id).coreList
  let s := cores.foldl (fun s k => s.cleanAll k) s
  let ctxs := cores.map (fun k =>
    let c := s.core k
    { (s.memberCtx k id).save with aborts := if c.team = id then c.abort.toList ++ c.abortQ else [] })
  let c := s.cluster cl
  let b : Saved := ⟨ctxs, c.store, c.array.queue, c.array.seen, c.array.stop, c.array.restart, c.array.reading,
    overrun, frozen, block, nonce, []⟩
  let img := if block.isSome then blockImage (s.team id) b else []
  let s := (s.onTeam id (fun t => { t with
    cluster := none, engCl := cl, saved := some { b with image := img }, swap := false, hsc := false, overrun := false })).vacate cl
  match block with
  | some a => s.putBlock (s.hscAsker (s.team id).slice) a img
  | none => s

/-- A saved team's record stands SWAPPED: its entry `h` of the slice's swap table becomes VALID with the block's nonce, and
its handle joins the tail of its queue (R313, R357). -/
def State.queueSaved (s : State) (team h : Nat) (nonce : Word) : State :=
  let t := s.team team
  let s := s.devPut (s.hscAsker t.slice) ((s.slice t.slice).swapAt h + 8)
    (leBytes 8 t.dnum ++ leBytes 1 (t.vf % 8 + 128) ++ leBytes 7 0 ++ leBytes 8 nonce.toNat)
  let s := s.onSlice t.slice (fun sl => { sl with swaps := Map.set 0 sl.swaps h team })
  s.pushAt t.vf t.slice 5 (qkey t.vf (recPrio t.record) (recQueue t.record)) {
    record := handleEntry h t.dnum, addr := t.addr, rolled := t.rolled, tt := t.tt }

/-- Save the team of a cluster in the block of entry `h` of the slice's swap table and queue its handle (R323, R357);
not where a row of its accumulators fails its checksum. -/
def State.swapInto (s : State) (cl h : Nat) (frozen overrun : Bool) : State :=
  let id := (s.cluster cl).team
  let t := s.team id
  let x := s.swapEnt t.slice h
  let nonce := Config.nonce s.time.tick
  if (s.cluster cl).store.rowsBad then s.spillBad cl
  else
  (s.saveTeam cl frozen overrun (some x.block) nonce).queueSaved id h nonce

/-- A quantum swap-out with a full table: only where the waiting record is itself SWAPPED, whose entry the outgoing
team then takes (R357). The incoming team is restored on the cluster. An invalid descriptor stops it as it stops all
dispatch (R317). -/
def State.swapExchange (s : State) (cl : Nat) : State :=
  let id := (s.cluster cl).team
  let t := s.team id
  let stay := s.onTeam id (fun t => { t with swap := false })
  match (if (s.vf t.vf).descOk then s.nextQueue cl t.vf (recPrio t.record) else none) with
  | none => stay
  | some (k, i) => match ((s.slice t.slice).queue k)[i]? with
    | none => stay
    | some e0 => match s.readEntry t.vf t.slice k e0 with
    | .error (s, true) => s
    | .error (_, false) => (stay.takeEntry cl k i).badHandle t.slice t.vf e0
    | .ok (_, e) => match recHandle e.record with
      | none => stay
      | some h =>
        let inc := Map.get 0 (s.slice t.slice).swaps h
        if !s.handleOk t.slice t.vf h e then (stay.takeEntry cl k i).badHandle t.slice t.vf e
        else if inc = 0 then (stay.takeEntry cl k i).loseForeign t.slice t.vf h cl
        else
          -- the incoming block is read before the outgoing team takes it
          let (s, bad) := s.savedBad inc (some (s.swapEnt t.slice h).block)
          let s := s.stopArray cl
          if (s.cluster cl).store.rowsBad then s.spillBad cl
          else ((((s.takeEntry cl k i).freeSwap t.slice inc).swapInto cl h false false).restoreTeam inc cl bad)

/-- Does a ready record wait on the team's slice for its VF, at its class or higher (R323, R330)? -/
def State.recordWaits (s : State) (team : Nat) : Bool :=
  let t := s.team team
  match t.cluster with
  | some cl => (s.nextQueue cl t.vf (recPrio t.record)).isSome
  | none => false

/-- A team's quantum ends: it is to be swapped out where a record waits for it, never in resident mode (R321,
R323). -/
def execQuantumExpiry (cl : Nat) (s : State) : Host.Outcome State Fault Refusal :=
  let id := (s.cluster cl).team
  if id = 0 ∨ (s.team id).resident ∨ !s.recordWaits id then .next s
  else .next (s.onTeam id (fun t => { t with swap := true }))

/-- A team that is to leave is swapped out: the array stops at a tile boundary, the members are saved as they stand,
the record stands SWAPPED at the tail of its queue (R323, R357). -/
def execSwapOut (cl : Nat) (s : State) : Host.Outcome State Fault Refusal :=
  let id := (s.cluster cl).team
  let t := s.team id
  if id = 0 ∨ !t.swap ∨ t.consumed ∨ !s.saveable cl then .next s
  else match s.freeHandle t.slice with
    | some h => .next ((s.stopArray cl).swapInto cl h false false)
    | none => if t.hsc then .next s else .next (s.swapExchange cl)

/-- The host rings a VF's mailbox doorbell (R322). -/
def execMailboxDoorbell (vf : Nat) (bits : Word) (s : State) : Host.Outcome State Fault Refusal :=
  let s := (s.wakeVf vf).onVf vf (fun v => { v with doorbell := v.doorbell ||| bits })
  .next (if bits = 0 then s else s.wakeAll (s.vfCores vf) 2)

/-! ### The instructions (R326 to R333) -/

/-- The target slice of SPAWN and JDEC (R326). -/
def State.target (s : State) (core : Nat) (b : SReg) : Except Stop Nat :=
  let w := (s.rs b).toNat
  let r := bitsOf w 4 60
  let n := if w.testBit 3 then w % 8 else sliceOf core
  if r ≠ 0 then trapE s (tCommand 0 (4 + trailingZerosFrom 60 0 r) b.toNat 0)
  else if !(s.vfOf core).allot.getLsbD n then trapE s (tCommand 0 0 b.toNat 0)
  else .ok n

/-- Keep a push of the node, or make it now where the node has committed; one push too many commits the node (R327,
R377, R378). -/
def State.keepPush (s : State) (team : Nat) (p : Push) : State :=
  let spill := s.overflows team none || decide (64 ≤ (s.team team).pushes.length)
  let s := if spill then s.commit team else s
  let t := s.team team
  if t.live && !t.committed then s.onTeam team (fun t => { t with pushes := t.pushes ++ [p] })
  else s.commitPush team t.vf p

/-- SPAWN (R327). -/
def execSpawn (a b : SReg) (s : State) : Host.Outcome State Fault Refusal :=
  let s := s.breaking
  let core := s.turn
  let team := (s.core core).team
  s.finish (do
    let va ← s.checkMem (s.rs a) 32
    let n ← s.target core b
    let pa ← s.tr core va false 1
    let pasid := s.pasidOf core true
    let s := s.cleanRange core pasid (va / 128) (va / 128)
    match s.lineErr (s.secureCore core) team (pa / 128) .read with
    | some e => .ok ((s.homeErr core va (pa / 128) 0 e).retire 4)
    | none =>
      let r := s.view team pa 32
      match recBad r with
      | some why => trapE s (tCommand 0 why a.toNat 2)
      | none => .ok (((s.touchRead pa 32).keepPush team (.spawn n va r)).retire 4))

/-- JDEC (R328). -/
def execJdec (a b : SReg) (s : State) : Host.Outcome State Fault Refusal :=
  let s := s.breaking
  let core := s.turn
  let team := (s.core core).team
  s.finish (do
    let va ← s.checkMem (s.rs a) 32
    let n ← s.target core b
    let pa ← s.tr core va true 3
    match s.lineErr (s.secureCore core) 0 (pa / 128) .part with
    | some .abort => .ok ((s.homeErr core va (pa / 128) 5 .abort).retire 4)
    | _ => .ok ((s.keepPush team (.jdec n va pa)).retire 4))

/-- The timelines in the order in which EXIT reports their faults (R126). -/
def Ctx.firstFault (c : Ctx) : Option TL := allTLs.find? (fun t => (c.timeline t).mark != 0)

/-- Has everything that EXIT waits for come about? -/
def Ctx.quiet (c : Ctx) : Bool :=
  allTLs.all (fun t => (c.timeline t).done == (c.timeline t).issued)
  && c.loads == 0 && c.stores == 0 && c.copies == 0 && c.pend.isEmpty

/-- The last member has ended: the node commits and retires, or waits to be killed where its commit met an error
(R254, R329). -/
def State.endTeam (s : State) (team cl : Nat) : State :=
  let s := s.commit team
  let t := s.team team
  if t.consumed then s
  else
    let s := s.retireLog team cl 0
    let s := (s.ttRelease t).vacate cl
    (s.dropTeam team).ttSettle t.vf

/-- EXIT (R329). -/
def execExit (s : State) : Host.Outcome State Fault Refusal :=
  let s := s.breaking
  let core := s.turn
  let team := (s.core core).team
  let x := s.ctx core
  s.finish (
    match x.firstFault with
    | some t => trapE (s.onCtx core (·.report t)) tEngine
    | none =>
      if 1 < (s.team team).size ∧ x.cbar = 0 then trapE s tBarrier
      else if !x.quiet then waitE s
      else
        let s := s.onCtx core (fun c => { c with region := none, regs := { c.regs with q := [] } })
        let s := s.cleanAll core
        if (s.team team).consumed then .ok s
        else
        let s := s.retire 4
        let s := s.onCore core (fun c => { c with
          running := false, budget := none, reqWait := false, preempt := false, stepped := none, ctx := { c.ctx with exited := true } })
        let s := s.wakeAll (s.others core) 1
        let s := s.dropLease core
        if (s.team team).coreList.all (fun k => (s.memberCtx k team).exited) then
          .ok (s.endTeam team (clusterOf core))
        else .ok (if s.allDone team then s.hscSwap team else s))

/-- YIELD (R330). -/
def execYield (d : SReg) (s : State) : Host.Outcome State Fault Refusal :=
  let s := s.breaking
  let id := (s.core s.turn).team
  let t := s.team id
  if !t.resident && s.recordWaits id then (s.onTeam id (fun t => { t with swap := true })).writeRetire d 1
  else s.writeRetire d 0

/-- TCOORD (R331). -/
def execTcoord (d : SReg) (s : State) : Host.Outcome State Fault Refusal :=
  let s := s.breaking
  let r := (s.teamOf s.turn).record
  let m := (s.ctx s.turn).member
  s.writeRetire d (BitVec.ofNat 64 (recCoordOf r m + 2 ^ 48 * m + 2 ^ 50 * recSize r + 2 ^ 52 * recPrio r))

/-- GRIDID (R331). -/
def execGridid (d : SReg) (s : State) : Host.Outcome State Fault Refusal :=
  let s := s.breaking
  let t := s.teamOf s.turn
  s.writeRetire d (BitVec.ofNat 64 (recGrid t.record + 2 ^ 32 * (t.dnum % 65536)))

/-- The address of a mailbox (R322). -/
def Vf.mailbox (v : Vf) (i : Nat) : Nat := v.word 4 + 256 * i

/-- Translate a mailbox's address under the driver PASID, for a task (R317, R368). -/
def State.mailTr (s : State) (core va : Nat) (write : Bool) : Except Stop Nat :=
  match s.translate (.core core) (sliceOf core) (s.vfOf core).driverPasid va write with
  | .ok pa => .ok pa
  | .stall s => waitE s
  | .refused s => trapE s (tTranslation (if write then 2 else 1) va)

/-- The core's L1 lines of a mailbox. -/
def Core.mailLines (c : Core) (pa : Nat) : List L1Line := c.l1.filter (fun l => l.pline / 2 == pa / 256)

/-- MBWAIT (R332). -/
def execMbwait (d a : SReg) (s : State) : Host.Outcome State Fault Refusal :=
  let s := s.breaking
  let core := s.turn
  let team := (s.core core).team
  let m := s.rs a
  s.finish (
    if m = 0 then trapE s (tCommand 0 0 a.toNat 0)
    else if !(s.vfOf core).resident then trapE s (tCommand 0 0 0 0)
    else
      let hit := (s.vfOf core).doorbell &&& m
      if hit = 0 then waitE s
      else do
        let i := lowestBit hit
        let va := (s.vfOf core).mailbox i
        let pa ← s.mailTr core va false
        let s := s.onVf (s.teamOf core).vf (fun v => { v with doorbell := v.doorbell &&& ~~~(BitVec.ofNat 64 (2 ^ i)) })
        let s := ((s.core core).mailLines pa).foldl (fun s l => s.flushLine core l) s
        match s.lineErr (s.secureCore core) team (pa / 128) .read with
        | some e => .ok ((s.homeErr core va (pa / 128) 0 e).retire 4)
        | none =>
          let s := s.touchRead pa 8
          let v := BitVec.ofNat 64 (i + 2 ^ 32 * leNat (s.view team pa 4))
          .ok ((s.onCtx core (·.setS d v)).retire 4))

/-- MBACK (R333). -/
def execMback (a b : SReg) (s : State) : Host.Outcome State Fault Refusal :=
  let s := s.breaking
  let core := s.turn
  let i := (s.rs a).toNat
  s.finish (
    if 63 < i then trapE s (tCommand 0 0 a.toNat 0)
    else if !(s.vfOf core).resident then trapE s (tCommand 0 0 0 0)
    else do
      let va := (s.vfOf core).mailbox i
      let pa ← s.mailTr core va true
      let s := s.commitClass core
      let s := ((s.core core).mailLines pa).foldl (fun s l => s.cleanLine core l) s
      if !s.fenceDone core .module then waitE s
      else match s.lineErr (s.secureCore core) (s.core core).team (pa / 128) .part with
        | some e => .ok ((s.homeErr core va (pa / 128) 0 e).retire 4)
        | none =>
          let s := s.pokeNat (pa + 8) 8 (s.rs b).toNat
          .ok ((s.signal (.mailbox (s.teamOf core).vf i)).retire 4))

end Sys2Proof.Machine
end

