-- ==== Sys2Proof/Machine/Trap.lean ====
section
/-! DEFINITION. The trap instructions (R344 to R349, R352), and the events of traps and pre-emption (R340, R341, R350,
R353). Taking a cause and the return from one are `State.takeSync`, `State.boundaryTrap` and `State.eretOp`. -/

namespace Sys2Proof.Machine

/-- Does the core's ring fall below an instruction's minimum ring (R344)? -/
def State.below (s : State) (r : Ring) : Bool := decide ((s.ctx s.turn).ring.rank < r.rank)

/-- ERET (R346). -/
def execEret (s : State) : Host.Outcome State Fault Refusal :=
  let s := s.breaking
  let core := s.turn
  s.finish (do
    let ring := (s.ctx core).ring
    let s ← s.eretOp core
    .ok (s.onCtx core (fun c => { c with
      wfe := none, mx := none, steps := c.steps.filter (·.ring ≠ ring)
      ctl := { c.ctl with retired := c.ctl.retired + 1 } })))

/-- BRK (R347): BREAKPOINT at the BRK itself, in the ring that ctl.dbgctl names (R373). -/
def execBrk (s : State) : Host.Outcome State Fault Refusal :=
  let s := s.breaking
  s.finish (trapE s { cause := 0x0E, target := (s.ctx s.turn).ctl.debugRing })

/-- WFE (R348): wait until a reason has been seen since it issued. -/
def execWfe (d a : SReg) (s : State) : Host.Outcome State Fault Refusal :=
  let s := s.breaking
  let core := s.turn
  match (s.ctx core).wfe with
  | none => .next (s.onCtx core (fun c => { c with wfe := some { limit := c.rs a } }))
  | some w => if w.seen = 0 then .next s else s.writeRetire d (w.seen.setWidth 64)

/-- PDONE (R352): with a request pending the mask is recorded and the core is handed over; s[d] is written after the
restore. -/
def execPdone (d a : SReg) (s : State) : Host.Outcome State Fault Refusal :=
  let s := s.breaking
  let core := s.turn
  let c := s.core core
  if s.below .d then s.finish (trapE s (tRing 0))
  else if c.budget.isNone then s.writeRetire d 1
  else if c.ctx.ring ≠ .d then .next s
  else
    let m : BitVec 3 := (s.rs a).setWidth 3
    let s := (s.onCtx core (fun x => { x with coop := true, pdone := m, pdoneD := some d })).retire 4
    let s := s.onCore core (fun c => { c with running := false, budget := none, preempt := false })
    .next (if s.allDone c.team then s.hscSwap c.team else s)

/-- HALT (R349). -/
def execHalt (s : State) : Host.Outcome State Fault Refusal :=
  let s := s.breaking
  if s.below .h then s.finish (trapE s (tRing 0))
  else .next ((s.retire 4).onCore s.turn (fun c => { c with halted := true }))

/-- The ring above another; ring M has none above it. -/
def Ring.above : Ring → Ring
  | .u => .d | .d => .h | .h => .m | .m => .m

/-- The target ring of a TRAP code (R345). -/
def trapTarget (cur : Ring) (code : BitVec 13) : Ring :=
  match bitsOf code.toNat 11 2 with
  | 0 => cur.above
  | 1 => .d
  | 2 => .h
  | _ => .m

/-- TRAP (R345). -/
def execTrap (code : BitVec 13) (s : State) : Host.Outcome State Fault Refusal :=
  let s := s.breaking
  s.finish (trapE s {
    cause := 0x0D, tval := code.setWidth 64, target := trapTarget (s.ctx s.turn).ring code, epcOff := 4 })

/-! ### The events -/

/-- A pending cause is taken at the boundary (R340, R341): not while a WFE waits, which first retires (R348), and not for
a team that has consumed an error (R375) or stands where its save takes it (R353). -/
def execTakeTrap (core : Nat) (s : State) : Host.Outcome State Fault Refusal :=
  let c := s.core core
  if c.running && !c.dead && c.ctx.wfe.isNone && !(s.team c.team).consumed && !s.atSave core then .next ((s.boundaryTrap core).getD s)
  else .next s

/-- A write to the core's interrupt doorbell makes INTERRUPT pending (R339, R406). -/
def execCoreInterrupt (core : Site) (vector : Word) (s : State) : Host.Outcome State Fault Refusal :=
  if s.mayWrite core.m (sliceOf core.n) then
    .next (((s.wakeBlock (sliceOf core.n)).onCore core.n (fun c => { c with intr := some vector })).wake core.n 4)
  else .next s

/-- The limit of a waiting WFE expires (R348). -/
def execWfeLimitExpiry (core : Nat) (s : State) : Host.Outcome State Fault Refusal :=
  match (s.ctx core).wfe with
  | some w => if w.limit = 0 then .next s else .next (s.wake core 5)
  | none => .next s

/-- The cycles of ctl.pbudget (R351). -/
def budgetCycles (p : Word) : Nat :=
  let n := bitsOf p.toNat 0 21
  if n = 0 then 16384 else min n (2 ^ 20)

/-- A pre-emption request reaches a core: the budget loads and PREEMPT becomes pending (R350). -/
def State.request (s : State) (core : Nat) : State :=
  let n := budgetCycles (s.vfOf core).pbudget
  (s.onCore core (fun c => { c with budget := some n, reqWait := false, preempt := true })).wake core 4

/-- Is a request to the core a forced save at once (R351)? -/
def State.forces (s : State) (core : Nat) : Bool :=
  (s.vfOf core).pbudget.getLsbD 21 || (s.ctx core).ctl.d.tvec == 0

/-- Send a request to a core that runs a member: it waits for a halted core (R349), and under FORCE the whole team is
to be saved. -/
def State.preemptCore (s : State) (core : Nat) : State :=
  let c := s.core core
  if !c.running then s
  else if c.halted then s.onCore core (fun c => { c with reqWait := true })
  else if s.forces core then s.hscSwap c.team
  else s.request core

/-- A write of the core's resume register: a write of 1 resumes it (R349, R406, R409). -/
def execCoreResume (core : Site) (v : Word) (s : State) : Host.Outcome State Fault Refusal :=
  if v ≠ 1 ∨ s.mayWrite core.m (sliceOf core.n) = false then .next s else
  let s := s.wakeBlock (sliceOf core.n)
  let c := s.core core.n
  let s := s.onCore core.n (fun c => { c with halted := false, reqWait := false })
  .next (if c.halted && c.reqWait then s.preemptCore core.n else s)

/-- The budget of a member reaches zero before its PDONE: the array is frozen at once, the members stop at their next
boundary in ring U or D, and when all have, the team is saved by force (R350, R353). -/
def execPreemptBudgetExpiry (core cyc cyc2 : Nat) (s : State) : Host.Outcome State Fault Refusal :=
  let cl := clusterOf core
  let id := (s.cluster cl).team
  let t := s.team id
  if id = 0 ∨ t.consumed ∨ ((s.core core).budget.isNone ∧ !t.overrun) then .next s
  else match s.freeHandle t.slice with
    | some h =>
      let s := if t.overrun then s
        else (s.freezeArray cl cyc cyc2).onTeam id (fun t => { t with overrun := true })
      .next (if s.saveable cl then s.swapInto cl h true true else s)
    | none => .next s

/-- The bytes of a VF's queue entries on a slice: those on chip, and those that the backing ring holds, as the VF may have
changed them. One that cannot be read names nothing; one whose translation is pending stands as it was written (R357). -/
def State.queueBytes (s : State) (slice vf : Nat) : List (List Byte) :=
  (s.slice slice).queues.flatMap (fun e =>
    if e.1 / 16 = vf then e.2.filterMap (fun q => match s.readEntry vf slice e.1 q with
      | .ok (_, x) => some x.record
      | .error (_, true) => some q.record
      | .error (_, false) => none)
    else [])

/-- The contexts of a VF whose entries no queue names are lost (R357). -/
def State.checkSwaps (s : State) (slice vf : Nat) : State :=
  let named := s.queueBytes slice vf
  (s.slice slice).swaps.foldl (fun s e =>
    let x := s.swapEnt slice e.1
    if x.valid && x.vf == vf && !named.contains (handleEntry e.1 x.dnum) then s.loseContext e.2 (8 * slice) 0 else s) s

/-- A VF's time slice on a slice ends: a request to every core that runs a task of it there, and the check of the
swap table (R350, R357). -/
def execTimeSliceEnd (slice vf : Nat) (s : State) : Host.Outcome State Fault Refusal :=
  let s := s.checkSwaps slice vf
  let cores := (s.vfCores vf).filter (fun k => sliceOf k == slice)
  .next (cores.foldl (fun s k => s.preemptCore k) s)

end Sys2Proof.Machine
end

