-- ==== Sys2Proof/Machine/Ways.lean ====
section
/-! DEFINITION. The ways of the L2s and the MSCs (R3, R75, R393, R394): what each holds at most, in which ways a VF
allocates, and what gives way. An access puts a line into L2 by its place alone; `State.settle` gives every new line its
way before the next step. -/

namespace Sys2Proof.Machine

/-- SHARE of a VF in a slice; every way at reset, and for a requester of no VF. -/
def Slice.shareOf (sl : Slice) (vf : Nat) : Word := Map.get 0xFFFFFFFF sl.share vf

/-- Put a SHARE value in force. -/
def Slice.setShare (sl : Slice) (vf : Nat) (v : Word) : Slice := { sl with share := Map.set 0xFFFFFFFF sl.share vf v }

/-- The home slice of a line (R67, R68). -/
def Home.sliceOfLine (h : Home) (line : Nat) : Nat := ((decodePA h.wide (line * 128)).map (·.2.2)).getD 8

/-- The ways of L2 and of the MSC in which a VF allocates a line. -/
def State.l2Mask (s : State) (vf line : Nat) : Nat := bitsOf ((s.slice (s.home.sliceOfLine line)).shareOf vf).toNat 0 16
def State.mscMask (s : State) (vf line : Nat) : Nat := bitsOf ((s.slice (s.home.sliceOfLine line)).shareOf vf).toNat 16 16

/-- The key under which a node's pending copy of a line holds its way in L2 (R73). -/
def pendKey (team line : Nat) : Nat := 2 ^ 36 * (team + 1) + line
def keyLine (k : Nat) : Nat := k % 2 ^ 36

/-- Do two lines fall into one set of the L2, or of the MSC? The L2 bank is PA[10:7] (R70); 16 banks of 1024 sets, and the
16384 sets of the MSC, make 32 MiB each of 16 ways (R3, R393). -/
def Home.sameL2 (h : Home) (a b : Nat) : Bool :=
  h.sliceOfLine a == h.sliceOfLine b && a % 16 == b % 16 && Config.l2Set a % 1024 == Config.l2Set b % 1024
def Home.sameMsc (h : Home) (a b : Nat) : Bool :=
  h.sliceOfLine a == h.sliceOfLine b && Config.mscSet a % 16384 == Config.mscSet b % 16384

/-- The entries of a table of ways that stand in the set of a line. -/
def inSet (m : Map Way) (same : Nat → Nat → Bool) (line : Nat) : Map Way := m.filter (fun e => same (keyLine e.1) line)

/-- The lowest way of a mask that no entry holds. -/
def freeWay (mask : Nat) (m : Map Way) : Option Nat :=
  (List.range 16).find? (fun w => mask.testBit w && !m.any (fun e => e.2.way == w))

def Home.setL2way (h : Home) (k : Nat) (w : Way) : Home := { h with l2ways := Map.set ⟨8, 16⟩ h.l2ways k w }
def Home.setMscway (h : Home) (k : Nat) (w : Way) : Home := { h with mscways := Map.set ⟨8, 16⟩ h.mscways k w }
def Home.dropL2way (h : Home) (k : Nat) : Home := { h with l2ways := h.l2ways.filter (fun e => e.1 != k) }
def Home.dropMscway (h : Home) (k : Nat) : Home := { h with mscways := h.mscways.filter (fun e => e.1 != k) }

/-- A line leaves the MSC: a dirty one is written to DRAM, a clean one dropped (R75). -/
def Home.outOfMsc (h : Home) (line : Nat) : Home := (h.setPlace line .dram).dropMscway line

/-- A line that left L2 goes into the MSC ways of its VF, where a victim, a free choice, makes room; with no way there it
goes to DRAM (R75, R393, R394). -/
def State.intoMsc (s : State) (line vf : Nat) (dirty : Bool) : State :=
  let mask := s.mscMask vf line
  let set := (inSet s.home.mscways s.home.sameMsc line).filter (fun e => e.1 != line)
  let victims := set.filter (fun e => mask.testBit e.2.way)
  s.onHome (fun h =>
    match freeWay mask set with
    | some w => (h.setPlace line (.msc dirty)).setMscway line ⟨vf, w⟩
    | none => match victims[Config.mscVictim s.time.tick % victims.length]? with
      | some e => ((h.outOfMsc e.1).setPlace line (.msc dirty)).setMscway line ⟨vf, e.2.way⟩
      | none => h.outOfMsc line)

/-- L2 evicts a committed line of a VF (R75). -/
def State.outOfL2 (s : State) (line vf : Nat) : State :=
  match s.home.placeOf line with
  | .l2 d => (s.onHome (·.dropL2way line)).intoMsc line vf d
  | _ => s.onHome (·.dropL2way line)

/-- The committed lines of a set that may be a victim in the ways of a mask: a node's pending lines never are (R73). -/
def State.l2Victims (s : State) (mask line : Nat) : Map Way :=
  (inSet s.home.l2ways s.home.sameL2 line).filter (fun e =>
    mask.testBit e.2.way && decide (e.1 < 2 ^ 36) && e.1 != line
    && !s.teams.any (fun t => t.2.live && t.2.stages e.1))

/-- Give the copy of a line under a key a way of its VF in L2: a free one, else that of a victim; none where the VF has
no such way. -/
def State.takeL2 (s : State) (key vf : Nat) : Option State :=
  let line := keyLine key
  let mask := s.l2Mask vf line
  match freeWay mask (inSet s.home.l2ways s.home.sameL2 line) with
  | some w => some (s.onHome (·.setL2way key ⟨vf, w⟩))
  | none =>
    let v := s.l2Victims mask line
    match v[Config.l2Victim s.time.tick % v.length]? with
    | some e => some ((s.outOfL2 e.1 e.2.vf).onHome (·.setL2way key ⟨vf, e.2.way⟩))
    | none => none

/-- A line that has come into L2 for a VF takes a way; where the VF allocates nothing the line passes by, to DRAM
(R393). -/
def State.settleL2 (s : State) (vf line : Nat) : State :=
  match s.takeL2 line vf with
  | some s => s
  | none => s.onHome (·.setPlace line .dram)

/-- A pending line takes a way; where its VF has none the node commits (R378, R394). -/
def State.settlePending (s : State) (team line : Nat) : State :=
  match s.takeL2 (pendKey team line) (s.team team).vf with
  | some s => s
  | none => s.commit team

/-- The pending lines, under their keys. -/
def State.pendKeys (s : State) : List Nat :=
  s.teams.flatMap (fun e => if e.2.live then e.2.lines.map (pendKey e.1) else [])

/-- Ways whose line has left are free; a committed line keeps the way it had while its node held it pending. -/
def State.pruneWays (s : State) : State :=
  let live := s.pendKeys
  s.onHome (fun h =>
    let kept := h.l2ways.filter (fun e => if e.1 < 2 ^ 36 then (match h.placeOf e.1 with
      | .l2 _ => true
      | _ => false) else live.contains e.1)
    let left := h.l2ways.filter (fun e => decide (2 ^ 36 ≤ e.1) && !live.contains e.1)
    let h := { h with
      l2ways := kept
      mscways := h.mscways.filter (fun e => match h.placeOf e.1 with
        | .msc _ => true
        | _ => false) }
    left.foldl (fun h e => match h.placeOf (keyLine e.1) with
      | .l2 _ => if h.l2ways.any (fun x => x.1 == keyLine e.1) then h else h.setL2way (keyLine e.1) e.2
      | _ => h) h)

/-- Every line that the step before brought into a cache takes its way there: one that left L2 for the MSC as its VF's,
one that came into L2 as that of the VF whose request it was. -/
def State.settle (s : State) : State :=
  let s := s.home.place.foldl (fun s e => match e.2 with
    | .msc d =>
      if s.home.mscways.any (fun x => x.1 == e.1) then s
      else s.intoMsc e.1 (Map.get ⟨s.actor, 16⟩ s.home.l2ways e.1).vf d
    | _ => s) s
  let s := s.pruneWays
  let s := s.pendKeys.foldl (fun s k =>
    if s.home.l2ways.any (fun x => x.1 == k) then s else s.settlePending (k / 2 ^ 36 - 1) (keyLine k)) s
  s.home.place.foldl (fun s e => match e.2 with
    | .l2 _ => if s.home.l2ways.any (fun x => x.1 == e.1) then s else s.settleL2 s.actor e.1
    | _ => s) s

/-! ### A change of a VF's ways (R394) -/

/-- A VF's lines in the ways it has lost leave them: from L2 into its MSC ways, from the MSC to DRAM; a pending line
moves to a free way of its set, or its node commits and the line is evicted. -/
def State.loseWays (s : State) (slice vf : Nat) : State :=
  let mine (s : State) (m : Map Way) (mask : Nat → Nat) : Map Way := m.filter (fun e =>
    e.2.vf == vf && s.home.sliceOfLine (keyLine e.1) == slice && !(mask (keyLine e.1)).testBit e.2.way)
  let s := (mine s s.home.l2ways (s.l2Mask vf)).foldl (fun s e =>
    if e.1 < 2 ^ 36 then s.outOfL2 e.1 vf
    else
      let s := s.onHome (·.dropL2way e.1)
      match freeWay (s.l2Mask vf (keyLine e.1)) (inSet s.home.l2ways s.home.sameL2 (keyLine e.1)) with
      | some w => s.onHome (·.setL2way e.1 ⟨vf, w⟩)
      | none => (s.commit (e.1 / 2 ^ 36 - 1)).outOfL2 (keyLine e.1) vf) s
  (mine s s.home.mscways (s.mscMask vf)).foldl (fun s e => s.onHome (·.outOfMsc e.1)) s

end Sys2Proof.Machine
end

