-- ==== Sys2Proof/Machine/Integrity.lean ====
section
/-! DEFINITION. Integrity and tenancy (R379 to R395): rollback and kill, the badger pass, the cedar pool, cache shares
and the reset of a stopped slice. -/

namespace Sys2Proof.Machine

/-! ### Rollback and kill -/

/-- The dirty L1 bytes of a team's cores are discarded (R381). -/
def State.discardL1 (s : State) (team : Nat) : State :=
  (s.team team).coreList.foldl (fun s k => s.onCore k (fun c => { c with l1 := c.l1.filter (fun l => l.dirty == 0) })) s

/-- Zero the team state of a cluster, as R155 steps 2 to 5 give. -/
def Cluster.zeroed (c : Cluster) : Cluster :=
  { c with store := {}, array := { c.array with shown := [], seen := [], restart := {}, reading := none, stop := {} } }

/-- Take a team off its cluster with everything it holds there; a swapped team gives up its save block and its queue
entry. -/
def State.evict (s : State) (team : Nat) : State :=
  let t := s.team team
  let s := s.discardL1 team
  match t.cluster with
  | some cl => (s.vacate cl).onCluster cl (·.zeroed)
  | none =>
    let hs := ((s.slice t.slice).swaps.filter (fun e => e.2 == team)).map (fun e => handleEntry e.1 t.dnum)
    (s.freeSwap t.slice team).onSlice t.slice (fun sl => { sl with
      queues := sl.queues.filterMap (fun e =>
        let l := e.2.filter (fun q => !hs.contains q.record)
        if l.isEmpty then none else some (e.1, l)) })

/-- The local number of a team's cluster, as an error record gives it. -/
def Team.where_ (t : Team) : Nat := match t.cluster with | some c => c % 8 | none => 0xFF

/-- The arrivals that a team's members have made at a group's step: they go with the contexts that are discarded, and the
record that runs again makes them anew (R288, R379). -/
def State.arrivalsOf (s : State) (team step : Nat) : Nat :=
  ((List.range (s.team team).size).filter (fun m => (s.member team m).curStep == step + 1)).length

def State.retract (s : State) (team : Nat) : State :=
  s.onGroup (s.team team).vf (fun g =>
    if g.bst = .opened then { g with arrived := g.arrived - s.arrivalsOf team g.step } else g)

/-- The HSC rolls a node back (R379): everything it held is discarded and its record stands READY at the head of its
queue, where, for a copy of resident mode, one cluster pops it again (R321). -/
def execNodeRollback (team : Nat) (s : State) : Host.Outcome State Fault Refusal :=
  let t := s.team team
  if !t.live || !t.consumed || t.kill then .next s
  else
    let s := ((s.retract team).evict team).dropTeam team
    let s := s.report {
      kind := 7, vf := t.vf, slice := t.slice, cluster := t.where_, dnum := t.dnum, detail := t.rolled + 1 }
    let k := qkey t.vf (recPrio t.record) (recQueue t.record)
    let e : QEnt := {
      record := t.record, addr := t.addr, rolled := t.rolled + 1, tt := t.tt, resident := t.resident
      popped := if t.resident then List.replicate 7 8 else [] }
    .next (s.onSlice t.slice (fun sl => sl.setQueue k (e :: sl.queue k)))

/-- The HSC kills a node (R381). What it committed stays. -/
def execNodeKill (team : Nat) (s : State) : Host.Outcome State Fault Refusal :=
  let t := s.team team
  if !t.live || !t.kill then .next s
  else
    let cl := t.cluster.getD (8 * t.slice)
    let s := s.evict team
    let s := s.retireLog team cl 1
    let s := s.vfEvent 1 t.vf t.slice cl 0 t.record t.dnum
    let s := s.report {
      kind := 8, vf := t.vf, slice := t.slice, cluster := t.where_, dnum := t.dnum, detail := t.rolled }
    let s := (List.range 4).foldl (fun s m => s.onCore (4 * cl + m) (fun c =>
      if t.cluster.isSome then { c with dead := false } else c)) s
    .next (((s.ttRelease t).dropTeam team).ttSettle t.vf)

/-! ### The badger pass (R388 to R390) -/

/-- The cluster whose audit is due: one for which an audit waits, else the next that is not fenced. -/
def State.auditCluster (s : State) : Option Nat :=
  match (List.range 64).find? (fun c => (s.cluster c).auditReq) with
  | some c => some c
  | none => ((List.range 64).map (fun i => (s.mgmt.auditNext + i) % 64)).find? (fun c => !(s.cluster c).fenced)

/-- The records of the interval are suspect (R389). -/
def State.suspects (s : State) (cl : Nat) : State :=
  let c := s.cluster cl
  c.provisional.foldl (fun s p => s.vfEvent 3 p.vf (sliceOfCluster cl) cl c.auditSeq p.record p.dnum) s

/-- One audit of the HSC. A running team is swapped out first, and the audit waits for that; then the patterns run,
pass or fail, and the cluster is zeroed. -/
def execBadgerPass (pass : Bool) (pattern : Nat) (s : State) : Host.Outcome State Fault Refusal :=
  match s.auditCluster with
  | none => .next s
  | some cl =>
    let c := s.cluster cl
    if c.team ≠ 0 then .next ((s.onCluster cl (fun c => { c with auditReq := true })).hscSwap c.team)
    else
      -- a fenced cluster is audited on request and is no part of the rotation
      let s := if c.fenced then s else s.onMgmt (fun m => { m with auditNext := (cl + 1) % 64 })
      if pass then
        let clear := c.fenced && decide (1 ≤ c.passes)
        .next (s.onCluster cl (fun c => { c.zeroed with
          auditReq := false, auditSeq := c.auditSeq + 1, provisional := []
          fenced := c.fenced && !clear, passes := if c.fenced && !clear then c.passes + 1 else 0 }))
      else
        let s := s.suspects cl
        let s := s.onCluster cl (fun c => { c.zeroed with auditReq := false, fenced := true, passes := 0 })
        .next (s.report { kind := 10, slice := sliceOfCluster cl, cluster := cl % 8, detail := pattern })

/-- Ring H asks for the audit of a fenced cluster (R390, R406). -/
def execAuditRequest (cl : Site) (s : State) : Host.Outcome State Fault Refusal :=
  if (s.cluster cl.n).fenced && s.mayWrite cl.m (sliceOfCluster cl.n) then
    .next ((s.wakeBlock (sliceOfCluster cl.n)).onCluster cl.n (fun c => { c with auditReq := true }))
  else .next s

/-! ### The cedar pool (R391, R392) -/

/-- The lines of a 4 KiB page. -/
def pageLines (page : Nat) : List Nat := (List.range 32).map (· + page / 128)

/-- Does an uncommitted node hold a pending line in a page? -/
def State.pageHeld (s : State) (page : Nat) : Bool :=
  s.teams.any (fun e => e.2.live && e.2.lines.any (fun l => decide (l / 32 = page / 4096)))

/-- Reach the caller's page list: the translation of one address, under the caller's PASID. -/
def State.listTr (s : State) (c : PoolCmd) (va : Nat) (write : Bool) : Tr :=
  let v := s.vf c.vf
  s.translate (.launch c.vf) v.logSlice (if c.hyp then v.hypPasid else v.driverPasid) va write

/-- The addresses of a page list; none where a translation is pending or refused or a line cannot be accessed, with the
state and whether a translation is pending. -/
def State.listPlaces (s : State) (c : PoolCmd) (write : Bool) : Except (State × Bool) (List Nat) :=
  let v := s.vf c.vf
  foldE (fun (l : List Nat) i => match s.listTr c (64 * c.list + 8 * i) write with
    | .stall s => .error (s, true)
    | .refused s => .error (s, false)
    | .ok pa => match s.lineErr (s.secureSlice v.logSlice) 0 (pa / 128) (if write then .part else .read) with
      | some e => .error (s.reportFor c.vf 0 (pa / 128) 0xFF (if c.hyp then v.hypPasid else v.driverPasid) e, false)
      | none => .ok (l ++ [pa])) [] (List.range c.count)

/-- May the caller return a page: ring H any, ring D one that a TAKE has given to its VF (R391; assumption 35)? -/
def State.mayFree (s : State) (c : PoolCmd) (page : Nat) : Bool := c.hyp || Map.get none s.home.owned page == some c.vf

/-- Pages that a FREE returns go to the scrub queue. -/
def State.freePages (s : State) (aper : Nat) (pages : List Nat) : State :=
  s.onHome (fun h =>
    let h := pages.foldl (fun h p => (pageLines p).foldl (fun h l => h.dropCached l) h) h
    { h with
      scrub := h.scrub ++ pages.map (fun p => (aper, p))
      owned := pages.foldl (fun (m : Map (Option Nat)) p => Map.set none m p none) h.owned })

/-- Serve the command at the head of the queue; false where it has to wait. -/
def State.servePool (s : State) : State × Bool :=
  match s.home.poolQ with
  | [] => (s, false)
  | c :: rest =>
    let done (s : State) : State := s.onHome (fun h => { h with poolQ := rest })
    if c.take then
      let have_ := Map.get [] s.home.pool c.aper
      if have_.length < c.count then (s, false)
      else match s.listPlaces c true with
        | .error (s, true) => (s, false)
        | .error (s, false) => (done s, true)
        | .ok places =>
          let s := ((places.zip have_).foldl (fun s (e : Nat × Nat) => s.pokeNat e.1 8 e.2) s)
          let s := s.onHome (fun h => { h with
            pool := Map.set [] h.pool c.aper (have_.drop c.count), poolDone := c.count
            owned := (have_.take c.count).foldl (fun (m : Map (Option Nat)) p => Map.set none m p (some c.vf)) h.owned })
          (done s, true)
    else match s.listPlaces c false with
      | .error (s, true) => (s, false)
      | .error (s, false) => (done s, true)
      | .ok places =>
        let pages := (places.map (fun pa => s.peekNat pa 8 / 4096 * 4096)).filter (s.mayFree c)
        if pages.any s.pageHeld then (s, false) else (done (s.freePages c.aper pages), true)

/-- Serve commands in order until one has to wait. -/
def State.runPool : Nat → State → State
  | 0, s => s
  | n + 1, s => match s.servePool with
    | (s, true) => State.runPool n s
    | (s, false) => s

/-- COUNT of POOLCMD: 1 to 2²⁰ in 20 bits. -/
def poolCount (n : Nat) : Nat := if n % 2 ^ 20 = 0 then 2 ^ 20 else n % 2 ^ 20

/-- A command of POOLCMD, which wakes the accelerator interface (R391, R406, R412). -/
def State.poolCommand (s : State) (m : Master) (c : PoolCmd) : Host.Outcome State Fault Refusal :=
  let s := s.wakeBlock 16
  if 8 < c.aper ∨ s.mayWrite m 24 = false then .next s
  else
    let s := s.onHome (fun h => { h with poolQ := h.poolQ ++ [c] })
    .next (State.runPool s.home.poolQ.length s)

/-- FREE of POOLCMD (R391). -/
def execPoolFree (vf : Site) (hyp : Bool) (aper count list : Nat) (s : State) : Host.Outcome State Fault Refusal :=
  s.poolCommand vf.m ⟨false, vf.n, hyp, aper, poolCount count, list⟩

/-- TAKE of POOLCMD (R392). -/
def execPoolTake (vf : Site) (hyp : Bool) (aper count list : Nat) (s : State) : Host.Outcome State Fault Refusal :=
  s.poolCommand vf.m ⟨true, vf.n, hyp, aper, poolCount count, list⟩

/-- The HSC's requests for a page: with the world of the slice whose stacks hold it (assumption 36). -/
def State.pageAsker (s : State) (page : Nat) : Asker :=
  s.hscAsker (((decodePA s.home.wide page).map (·.2.2)).getD 0)

/-- Do all lines of a page take a full-line write of the HSC (R386, R387, R397)? -/
def State.pageOpen (s : State) (page : Nat) : Bool :=
  (pageLines page).all (fun l => (s.lineErr (s.pageAsker page).secure 0 l .full).isNone)

/-- The HSC scrubs the next page of an aperture with zero full lines; the page joins the pool (R391). A page with a line
that refuses the write stays in the scrub queue. -/
def execScrubPage (aper : Nat) (s : State) : Host.Outcome State Fault Refusal :=
  let mine := s.home.scrub.filter (fun e => e.1 == aper)
  match (mine.find? (fun e => s.pageOpen e.2)).or mine.head? with
  | none => .next s
  | some e =>
    if !s.pageOpen e.2 then .next (s.devPut (s.pageAsker e.2) e.2 (List.replicate 4096 0))
    else
    let s := s.poke e.2 (List.replicate 4096 0)
    let s := s.onHome (fun h => { h with
      scrub := h.scrub.erase e, pool := Map.set [] h.pool aper (Map.get [] h.pool aper ++ [e.2]) })
    .next (State.runPool s.home.poolQ.length s)

/-! ### Cache shares (R393 to R395) -/

/-- A write to SHARE: in force at once, or queued behind the change in progress. -/
def execShareWrite (slice : Site) (vf : Nat) (v : Word) (s : State) : Host.Outcome State Fault Refusal :=
  let v := v &&& 0xFFFFFFFFFFFF
  if s.mayWrite slice.m slice.n then
    .next ((s.wakeBlock slice.n).onSlice slice.n (fun sl =>
      let sl := if sl.shareQ.isEmpty then sl.setShare vf v else sl
      { sl with shareQ := sl.shareQ ++ [(vf, v)] }))
  else .next s

/-- The actions of the oldest SHARE write of a slice are complete: ctl.shareack shows its SEQ, and the next write
comes into force. -/
def execShareChangeComplete (slice : Nat) (s : State) : Host.Outcome State Fault Refusal :=
  match (s.slice slice).shareQ with
  | [] => .next s
  | (vf, v) :: rest =>
    let s := s.loseWays slice vf
    .next (s.onSlice slice (fun sl =>
      let sl := match rest with
        | (vf, v) :: _ => sl.setShare vf v
        | [] => sl
      { sl with shareQ := rest, ackSeq := bitsOf v.toNat 32 16 }))

/-! ### A stopped slice (R387) -/

/-- Ring H resets a stopped slice: its caches are lost, DRAM and the withheld-line tables stay (R387, R406). -/
def execSliceReset (slice : Site) (s : State) : Host.Outcome State Fault Refusal :=
  if !(s.slice slice.n).stopped || !s.mayWrite slice.m slice.n then .next s
  else
    let s := s.wakeBlock slice.n
    let s := s.onHome (fun h => h.place.foldl (fun h e =>
      if ((decodePA h.wide (e.1 * 128)).map (·.2.2)) = some slice.n then h.dropCached e.1 else h) h)
    .next (s.onSlice slice.n (fun sl => { sl with stopped := false }))

end Sys2Proof.Machine
end

