-- ==== Sys2Proof/Machine/Events.lean ====
section
/-! DEFINITION. The events of translation (R366 to R370) and of the memory system (R66, R75, R79, R82, R83, R99, R270,
R385, R387). -/

namespace Sys2Proof.Machine

/-! ### Translation -/

/-- A translation completion arrives (R366, R369). -/
def execAtsCompletion (slice pasid page : Nat) (write : Bool) (r : AtsReply) (s : State) :
    Host.Outcome State Fault Refusal :=
  match (s.slice slice).ats.find? (fun q => q.same pasid page write && !q.pri) with
  | none => .next s
  | some q => .next (s.onSlice slice (·.complete s.time.tick q r))

/-- A page response arrives (R369). -/
def execPageResponse (slice pasid page : Nat) (write : Bool) (r : PriResp) (s : State) :
    Host.Outcome State Fault Refusal :=
  match (s.slice slice).ats.find? (fun q => q.same pasid page write && q.pri) with
  | none => .next s
  | some q => .next (s.onSlice slice (·.respond q r))

/-- Does a cached translation overlap a range of a PASID? -/
def DtcEnt.meets (e : DtcEnt) (pasid base len : Nat) : Bool := e.pasid == pasid && rangesMeet e.va (2 ^ e.lg) base len

/-- An ATS Invalidate Request (R370): the DTC entries that overlap the range go, every L1 writes back and invalidates
its lines of the range (R83), and the completion is sent. -/
def execAtsInvalidate (pasid base len : Nat) (s : State) : Host.Outcome State Fault Refusal :=
  if len = 0 then .next (s.signal (.invalidateDone pasid))
  else
    let s := (List.range 8).foldl (fun s n => s.onSlice n (fun sl =>
      { sl with dtc := sl.dtc.filter (fun e => !e.meets pasid base len) })) s
    let s := s.cores.foldl (fun s e => s.flushRange e.1 pasid (base / 128) ((base + len - 1) / 128)) s
    .next (s.signal (.invalidateDone pasid))

/-- Ring H lets a slice send page requests for a PASID again (R369, R406). -/
def execPriReenable (slice : Site) (pasid : Nat) (s : State) : Host.Outcome State Fault Refusal :=
  if s.mayWrite slice.m slice.n then
    .next ((s.wakeBlock slice.n).onSlice slice.n (fun sl => { sl with priOff := sl.priOff.filter (· ≠ pasid) }))
  else .next s

/-! ### Lines on their way -/

/-- Kill every node that runs on a slice (R387). -/
def State.killSlice (s : State) (slice : Nat) : State :=
  { s with teams := s.teams.map (fun e =>
      if e.2.live && e.2.slice == slice && e.2.cluster.isSome then (e.1, { e.2 with consumed := true, kill := true }) else e) }

/-- A committed dirty line is found uncorrectable on its way (R385): it enters the table of its stack, or, with the
table full, stops the slice (R387). It is not written to DRAM. -/
def State.withholdLine (s : State) (line : Nat) : State :=
  match decodePA s.home.wide (line * 128) with
  | none => s
  | some (stack, ch, sl) =>
    let l := Map.get [] s.home.withheld stack
    let e : ErrRec := { kind := 2, stack := stack, channel := ch, slice := sl, cls := 8, pa := line * 128 }
    if l.length < 256 then
      (s.onHome (fun h =>
        let h := h.dropCached line
        { h with withheld := Map.set [] h.withheld stack (l.filter (· ≠ line) ++ [line]) })).report e
    else
      let s := s.onHome (fun h => h.dropCached line)
      let s := s.onSlice sl (fun x => { x with stopped := true })
      (s.killSlice sl).report { e with kind := 5 }

/-- The nodes that hold a line pending consume its error (R385). -/
def State.pendingBad (s : State) (line : Nat) : State :=
  s.teams.foldl (fun s e =>
    if e.2.live && e.2.stages line then
      (s.report { kind := 6, vf := e.2.vf, slice := e.2.slice, cls := 8, pa := line * 128, dnum := e.2.dnum }).consume e.1
    else s) s

/-- A channel reads a line (R77, R79): from the MSC where it stands there, else from DRAM. `ue`: its data is
uncorrectable. An error in a clean copy of the MSC is met by the request that the read serves, which drops the copy.
DESIGN CHOICE (assumption 12): a dirty copy is withheld with its record of type 2 (R385), and the request then meets a
withheld line, with a record of type 3 and none of type 1. -/
def execDramRead (pa : Nat) (ue : Bool) (s : State) : Host.Outcome State Fault Refusal :=
  let line := pa / 128
  match decodePA s.home.wide pa with
  | none => .next s
  | some _ =>
    match s.home.placeOf line, ue with
    | .dram, true =>
      .next (s.onHome (fun h => { h with dramBad := if h.dramBad.contains line then h.dramBad else line :: h.dramBad }))
    | .dram, false =>
      .next (s.onHome (fun h => { h with dramBad := h.dramBad.filter (· ≠ line) }.fillL2 line))
    | .msc true, true => .next (s.withholdLine line)
    | .msc false, true =>
      .next (s.onHome (fun h => { h with mscBad := if h.mscBad.contains line then h.mscBad else line :: h.mscBad }))
    | .msc _, false => .next (s.onHome (fun h => { h with mscBad := h.mscBad.filter (· ≠ line) }.fillL2 line))
    | _, _ => .next s

/-- L2 evicts a line into the MSC (R75). A dirty line found uncorrectable is withheld; one that a node holds pending
is that node's error (R385). -/
def execL2Evict (line : Nat) (ue : Bool) (s : State) : Host.Outcome State Fault Refusal :=
  let pending := s.teams.any (fun e => e.2.live && e.2.stages line)
  match s.home.placeOf line, ue with
  | .l2 d, false => if pending then .next s else .next (s.onHome (·.setPlace line (.msc d)))
  | .l2 true, true => if pending then .next (s.pendingBad line) else .next (s.withholdLine line)
  | .l2 false, true => if pending then .next (s.pendingBad line) else .next (s.onHome (·.setPlace line .dram))
  | _, _ => if ue then .next (s.pendingBad line) else .next s

/-- The MSC evicts a line: a dirty one is written to DRAM, a clean one dropped (R75). -/
def execMscEvict (line : Nat) (ue : Bool) (s : State) : Host.Outcome State Fault Refusal :=
  match s.home.placeOf line, ue with
  | .msc true, true => .next (s.withholdLine line)
  | .msc _, _ => .next (s.onHome (·.setPlace line .dram))
  | _, _ => .next s

/-- A write-queue entry writes its line to DRAM (R99). -/
def execWriteQueueFlush (line : Nat) (ue : Bool) (s : State) : Host.Outcome State Fault Refusal :=
  match s.home.placeOf line, ue with
  | .wq, true => .next (s.withholdLine line)
  | .wq, false => .next (s.onHome (·.setPlace line .dram))
  | _, _ => .next s

/-- A byte-masked write-back of an L1 line arrives at its home (R82). -/
def execL1Writeback (core pasid vline : Nat) (s : State) : Host.Outcome State Fault Refusal :=
  match (s.core core).line pasid vline with
  | some l => .next (s.cleanLine core l)
  | none => .next s

/-! ### The host (R72, R270) -/

/-- A host PCIe write, of the host complex or of an endpoint under its PASID: committed at each home line that takes it
(R405). -/
def execHostPcieWrite (a : HostAddr) (data : List Byte) (s : State) : Host.Outcome State Fault Refusal :=
  .next ((cutLines a.pa data).foldl (fun s e => match s.writeLine false 0 e.1 e.2 with
    | .ok s => s
    | .error x => s.reportAt 0 e.1 7 a.pasid x) s)

/-- A host PCIe read: the home values, or a Completer Abort (R79, R405). -/
def execHostPcieRead (a : HostAddr) (n : Nat) (s : State) : Host.Outcome State Fault Refusal :=
  match s.readErr false 0 a.pa n with
  | some (l, e) => .next ((s.reportAt 0 l 7 a.pasid e).signal (.hostReply none))
  | none => .next ((s.touchRead a.pa n).signal (.hostReply (some (s.peek a.pa n))))

/-- A write of MEMSPLIT (R66, R406), which wakes the accelerator interface (R412). -/
def execMemsplitWrite (v : SpaceWord) (s : State) : Host.Outcome State Fault Refusal :=
  let s := s.wakeBlock 16
  if s.home.splitLock || !s.mayWrite v.m 24 then .next s
  else
    let w := bitsOf v.v.toNat 0 6
    .next (s.onHome (fun h => { h.resplit (if w ≤ 36 then w else h.wide) with
      splitLock := h.splitLock || v.v.getLsbD 8 }))

end Sys2Proof.Machine
end

