-- ==== Sys2Proof/Machine/Link.lean ====
section
/-! DEFINITION. The link layer of the optical ports (R299 to R306, R403, R404): sequence and replay, lane changes,
retraining, loss of light, parking. -/

namespace Sys2Proof.Machine

/-! ### Wavelengths -/

/-- The mask of one wavelength. -/
def lam (l : Nat) : BitVec 16 := BitVec.ofNat 16 (2 ^ l)

/-- How many wavelengths a mask holds. -/
def lamCount (m : BitVec 16) : Nat := onesBelow 16 m.toNat

/-- The lowest wavelength of a mask. -/
def lamLow (m : BitVec 16) : Nat := (lams m).headD 0

/-- The block key of a latency-tolerance register: slices, ports, the accelerator interface (R411). -/
def pblockKey : PBlock → Nat
  | .slice n => n
  | .port n => 8 + n
  | .iface => 16

/-- One direction of a port: outbound, where `tx` says so. -/
def Port.lanes (p : Port) (tx : Bool) : Lanes := if tx then p.tx else p.rx
def Port.onLanes (p : Port) (tx : Bool) (f : Lanes → Lanes) : Port :=
  if tx then { p with tx := f p.tx } else { p with rx := f p.rx }

/-- Wavelengths leave every set but the failed ones. -/
def Lanes.drop (x : Lanes) (m : BitVec 16) : Lanes :=
  { x with active := x.active &&& ~~~m, parked := x.parked &&& ~~~m, training := x.training &&& ~~~m, lit := x.lit &&& ~~~m }

/-- An event of a port; `a` and `b` are the active masks before and after (R308). -/
def State.portEvent (s : State) (type port : Nat) (a b : BitVec 16) (detail extra : Nat) : State :=
  s.fabricEvent type port 0xFF a.toNat b.toNat detail 0 extra

/-- Bits are counted up to now on the inbound wavelengths that are active: 200 in a nanosecond (R299, R303). -/
def State.accrue (s : State) (port : Nat) : State :=
  let now := s.time.ptpns.toNat
  s.onPort port (fun p => { p with
    since := now
    bits := (lams p.rx.active).foldl (fun (m : Map Nat) l => Map.modify 0 m l (· + 200 * (now - p.since))) p.bits })

/-- Change the inbound active set. -/
def State.setRx (s : State) (port : Nat) (f : Lanes → Lanes) : State := (s.accrue port).onPort port (·.onLanes false f)

/-- The receiving end sends lane control: the set to use, and the number it expects next, with NAK. It then waits for that
flit under the new set. The change counts as one replay (R404). -/
def State.sendLanes (s : State) (port : Nat) : State :=
  let p := s.port port
  let s := s.emit port { p.word 2 with nak := true, lanes := p.rx.active, laneSeq := p.rxSeq } []
  (s.onPort port (fun p => { p with nakSent := some p.rxSeq, await := some p.rxSeq, replays := p.replays + 1 })).signal
    (.laneControl port p.rx.active p.rxSeq)

/-- Every stream whose current route leaves by a port moves to its next route (R297). -/
def State.failoverPort (s : State) (port : Nat) : State :=
  (List.range 8).foldl (fun s vf =>
    (s.vf vf).outs.foldl (fun s e => if s.routePort vf e.1 = some port then s.failover vf e.1 else s) s) s

/-- Begin to retrain a wavelength, which leaves the active set (R304). -/
def State.train (s : State) (port : Nat) (tx : Bool) (l : Nat) : State :=
  let a := (s.port port).active
  let s := (s.accrue port).onPort port (fun p => { p.onLanes tx (fun x => { x with
    active := x.active &&& ~~~lam l, lit := x.lit &&& ~~~lam l, training := x.training ||| lam l }) with
    retrains := p.retrains + 1 })
  s.portEvent 3 port a (s.port port).active l (if tx then 0 else Map.get 0 (s.port port).berLast l)

/-- A port goes down: its streams fail over, and it retrains every wavelength that has light (R305). -/
def State.portDown (s : State) (port : Nat) : State :=
  let p := s.port port
  if !p.up then s
  else
    let s := (s.accrue port).onPort port (fun p =>
      { p with up := false, await := none, laneOld := none, rx := p.rx.drop 0xFFFF, tx := p.tx.drop 0xFFFF })
    let s := s.portEvent 6 port p.active 0 0 0
    let s := (lams (~~~p.rx.dark)).foldl (fun s l => s.train port false l) s
    let s := (lams (~~~p.tx.dark)).foldl (fun s l => s.train port true l) s
    s.failoverPort port

/-- Does a direction keep fewer than four wavelengths? -/
def Lanes.few (x : Lanes) : Bool := decide (lamCount (x.active ||| x.parked) < 4)

/-- Fewer than four wavelengths take the port down (R305). -/
def State.checkLanes (s : State) (port : Nat) : State :=
  if (s.port port).rx.few || (s.port port).tx.few then s.portDown port else s

/-- Retrain an inbound wavelength if fewer than two are retraining and it has light; one that carries traffic is taken out
by lane control, and only if four wavelengths stay active (R304, R404). -/
def State.tryTrain (s : State) (port l : Nat) : State :=
  let p := s.port port
  let carries := p.rx.active.getLsbD l
  if p.rx.dark.getLsbD l ∨ 2 ≤ lamCount p.rx.training + lamCount p.tx.training ∨ (carries ∧ lamCount p.rx.active ≤ 4) then s
  else
    let s := s.train port false l
    if carries then (s.portEvent 2 port p.active (s.port port).active l 0).sendLanes port else s

/-- Retrain an outbound wavelength that has light again; one that is still active waits until lane control takes it out,
since only the far receiver changes that set (R403, R404). -/
def State.tryTrainTx (s : State) (port l : Nat) : State :=
  let p := s.port port
  if p.tx.active.getLsbD l ∨ p.tx.dark.getLsbD l ∨ 2 ≤ lamCount p.rx.training + lamCount p.tx.training then s
  else s.train port true l

/-- Wavelengths that have light again begin to retrain as places come free (R404). -/
def State.trainLit (s : State) (port : Nat) : State :=
  let s := (lams (s.port port).rx.lit).foldl (fun s l => s.tryTrain port l) s
  (lams (s.port port).tx.lit).foldl (fun s l => s.tryTrainTx port l) s

/-! ### Flits (R302, R404) -/

/-- The oldest link number that is not acknowledged. -/
def Port.txAcked (p : Port) : BitVec 12 := p.txSeq - BitVec.ofNat 12 p.sent.length

/-- Is an acknowledgement within the flits that are out? -/
def Port.ackOk (p : Port) (a : BitVec 12) : Bool := decide ((a - p.txAcked).toNat ≤ p.sent.length)

def Port.takeAck (p : Port) (a : BitVec 12) : Port :=
  if p.ackOk a then { p with sent := p.sent.drop (a - p.txAcked).toNat } else p

/-- Go back to a number: the flits sent since are to be sent again, under their numbers (R302). -/
def Port.goBack (p : Port) (a : BitVec 12) : Port :=
  let p := p.takeAck a
  if p.ackOk a then { p with txSeq := a, queue := p.sent ++ p.queue, sent := [] } else p

/-- NAK for the flit expected, once until that flit has come and failed (R404). -/
def State.sendNak (s : State) (port : Nat) : State :=
  let p := s.port port
  let s := s.emit port { p.word 1 with nak := true } []
  (s.onPort port (fun p => { p with nakSent := some p.rxSeq })).signal (.linkNak port p.rxSeq)

/-- The corrected errors of a flit are counted on the wavelengths that carried its beats (R303). -/
def Port.attribute (p : Port) (f : Flit) : Port :=
  { p with
    corr := f.corr.foldl (fun (m : Map Nat) e =>
      Map.modify 0 m (beatPlace f.lanes (p.rx.beat + e.1 / 16)).1 (· + e.2)) p.corr
    rx := { p.rx with beat := p.rx.beat + 16 } }

/-- A data flit is accepted: the flits of its packet that are to come, from the packet's header or counted down; and whether
the packet is a heartbeat, which does not wake a parked port (R298, R300, R306). -/
def Port.take (p : Port) (f : Flit) : Port :=
  let head := p.rest == 0
  let len := leNat ((f.data.drop 27).take 2) % 2 ^ 13
  let heartbeat := head && (f.data.headD 0).toNat % 16 == 4
  { p with
    rxSeq := p.rxSeq + 1, nakSent := none, inbuf := p.inbuf + 1
    rest := if head then (32 + len + 223) / 224 - 1 else p.rest - 1
    wake := p.wake || (p.parked != 0 && !heartbeat) }

/-- A flit arrives. After a lane change all is discarded until the expected flit comes under the new set. A data flit is
accepted in order and acknowledged, else discarded with one NAK for the number expected (R302, R404). -/
def execLinkFlitReceive (port : Nat) (seq : BitVec 12) (fecOk hold : Bool) (f : Flit) (s : State) :
    Host.Outcome State Fault Refusal :=
  let p := s.port port
  if !p.up || f.lanes != p.rx.active || (match p.await with | some q => f.idle || seq != q | none => false) then .next s
  else
    let s := if p.await.isSome then
        s.onPort port (fun p => { p with await := none, rx := { p.rx with beat := 0 } }) else s
    if fecOk then
      let s := s.onPort port (fun p =>
        let p := match f.ack with
          | some a => p.takeAck a
          | none => p
        { p.attribute f with hold := hold })
      let s := s.pump port
      if f.idle then .next s
      else if seq = p.rxSeq then
        let s := s.onPort port (·.take f)
        .next (s.emit port ((s.port port).word 1) [])
      else if p.nakSent = some p.rxSeq then .next s
      else .next (s.sendNak port)
    else
      let s := s.onPort port (fun p => { p with uncorr := p.uncorr + 1, rx := { p.rx with beat := p.rx.beat + 16 } })
      if p.nakSent = some p.rxSeq ∧ (f.idle = true ∨ seq ≠ p.rxSeq) then .next s else .next (s.sendNak port)

/-- A NAK arrives: the sender replays from its number, going back N; one that comes while all is discarded after the port's
own lane control is lost (R404). -/
def execLinkNakReceive (port : Nat) (seq : BitVec 12) (s : State) : Host.Outcome State Fault Refusal :=
  let p := s.port port
  if !p.up || p.await.isSome || !p.ackOk seq then .next s
  else .next ((s.onPort port (fun p => { p.goBack seq with replays := p.replays + 1 })).pump port)

/-- Lane control arrives: the slot is completed with fill beats, and data goes on from LANESEQ under the new set, which is
one replay; idle flits before it keep to the old set (R301, R404). A dark wavelength does not join (R403). While the port
discards all after its own lane control, the far end's is lost too (R404). -/
def execLaneControl (port : Nat) (lanes : BitVec 16) (seq : BitVec 12) (s : State) : Host.Outcome State Fault Refusal :=
  let p := s.port port
  if !p.up || p.await.isSome then .next s
  else
    let old := p.tx.active
    let fill := fillBeats p.dealt p.tx.beat
    let new := lanes &&& (old ||| ~~~p.tx.dark)
    let s := s.signal (.fillBeats port fill)
    let s := s.onPort port (fun p => { p.goBack seq with
      replays := p.replays + 1, laneOld := some p.dealt
      tx := { p.tx with
        active := new, parked := p.tx.parked &&& ~~~new, training := p.tx.training &&& ~~~new, lit := p.tx.lit &&& ~~~(new &&& ~~~p.tx.dark)
        beat := p.tx.beat + fill } })
    let after := (s.port port).active
    let s := if old &&& ~~~new != 0 then s.portEvent 2 port p.active after (lamLow (old &&& ~~~new)) 0
      else if new &&& ~~~(old ||| p.tx.parked) != 0 then s.portEvent 4 port p.active after (lamLow (new &&& ~~~old)) 0
      else s
    let s := s.pump port
    .next ((s.checkLanes port).trainLit port)

/-! ### Error rate, retraining and light (R303 to R305, R403) -/

/-- Does a wavelength's rate over the window exceed 1 × 10⁻⁵ (R304)? -/
def Port.noisy (p : Port) (l : Nat) : Bool := decide (Map.get 0 p.bits l < 100000 * Map.get 0 p.corr l)

/-- The 1-second window of ctl.ptpns before second `w` closes: the wavelengths over the threshold start retraining. -/
def execBerWindow (port w : Nat) (s : State) : Host.Outcome State Fault Refusal :=
  if w ≠ s.time.ptpns.toNat / 1000000000 ∨ w ≤ (s.port port).window then .next s
  else
    let s := s.accrue port
    let noisy := (lams (s.port port).rx.active).filter (s.port port).noisy
    let s := s.onPort port (fun p => { p with window := w, berLast := p.corr, corr := [], bits := [] })
    .next (noisy.foldl (fun s l => s.tryTrain port l) (s.trainLit port))

/-- A retrain ends: the wavelength is handed back, inbound by lane control, outbound when the far end's lane control comes;
or it retrains again and after three failures is marked failed. A port that is down comes up with four in each direction,
and discards nothing then (R304, R305; assumption 38). -/
def execRetrainComplete (port : Nat) (wave : Wave) (ok : Bool) (s : State) : Host.Outcome State Fault Refusal :=
  let l := wave.l
  let tx := wave.tx
  let p := s.port port
  let x := p.lanes tx
  if !x.training.getLsbD l then .next s
  else if ok then
    let join := !tx || !p.up
    let s := (s.accrue port).onPort port (·.onLanes tx (fun x => { x with
      training := x.training &&& ~~~lam l, active := if join then x.active ||| lam l else x.active
      failed := x.failed &&& ~~~lam l, failedTrains := Map.set 0 x.failedTrains l 0 }))
    let s := if join then s.portEvent 4 port p.active (s.port port).active l 0 else s
    let s := s.trainLit port
    let q := s.port port
    if q.up then .next (if tx then s else s.sendLanes port)
    else if !q.rx.few && !q.tx.few then
      let s := (s.onPort port (fun p => { p with up := true })).pump port
      .next (((s.portEvent 7 port 0 q.active 0 0).sendLanes port).onPort port (fun p => { p with await := none }))
    else .next s
  else
    let n := Map.get 0 x.failedTrains l + 1
    let ber := if tx then 0 else Map.get 0 p.berLast l
    let s := s.portEvent 5 port p.active p.active l ber
    if n < 3 then
      let s := s.onPort port (fun p => { p.onLanes tx (fun x => { x with failedTrains := Map.set 0 x.failedTrains l n }) with
        retrains := p.retrains + 1 })
      .next (s.portEvent 3 port p.active p.active l ber)
    else
      let s := s.onPort port (·.onLanes tx (fun x => { x with
        training := x.training &&& ~~~lam l, failed := x.failed ||| lam l, failedTrains := Map.set 0 x.failedTrains l 0 }))
      .next (s.trainLit port)

/-- One event of type 1 for each wavelength of a mask. -/
def State.darkEvents (s : State) (port : Nat) (m before after : BitVec 16) : State :=
  (lams m).foldl (fun s l => s.portEvent 1 port before after l 0) s

/-- Dark wavelengths of a direction have light again: they are to retrain, on a port that is down at once (R305, R404). -/
def State.relight (s : State) (port : Nat) (tx : Bool) (m : BitVec 16) : State :=
  let back := ((s.port port).lanes tx).dark &&& m
  let s := s.onPort port (·.onLanes tx (fun x => { x with dark := x.dark &&& ~~~back, lit := x.lit ||| back }))
  if (s.port port).up then s.trainLit port
  else (lams back).foldl (fun s l => s.train port tx l) s

/-- The receiver detects loss of light, or light again, on inbound wavelengths, and restripes to the survivors (R305,
R404). -/
def execLossOfLight (port : Nat) (light : Light) (s : State) : Host.Outcome State Fault Refusal :=
  let p := s.port port
  let new := light.lost &&& ~~~p.rx.dark
  let s := if new = 0 then s
    else
      let s := (s.setRx port (fun x => { x.drop new with dark := x.dark ||| new })).onPort port (fun p =>
        { p with losses := p.losses + lamCount new })
      let after := (s.port port).active
      let s := s.darkEvents port new p.active after
      if p.up && p.rx.active &&& new != 0 then
        ((s.portEvent 2 port p.active after (lamLow (p.rx.active &&& new)) 0).sendLanes port).checkLanes port
      else s
  .next (s.relight port false (light.found &&& ~~~light.lost))

/-- The wavelengths that an emitter feeds (R403). -/
def emitterLanes (q : Nat) : BitVec 16 := BitVec.ofNat 16 (15 * 2 ^ (4 * (q % 4)))

/-- An emitter's power falls: its four transmit wavelengths are declared dark; the active mask stays (R403). -/
def execEmitterPowerLoss (port q : Nat) (s : State) : Host.Outcome State Fault Refusal :=
  let p := s.port port
  let m := emitterLanes q &&& ~~~p.tx.dark
  let s := s.onPort port (fun p => { p with
    tx := { p.tx with dark := p.tx.dark ||| m, training := p.tx.training &&& ~~~m, lit := p.tx.lit &&& ~~~m }
    losses := p.losses + lamCount m })
  .next (s.darkEvents port m p.active p.active)

/-- An emitter delivers power again: its dark wavelengths have light, are retrained and rejoin by handback (R403,
R404). -/
def execEmitterPowerReturn (port q : Nat) (s : State) : Host.Outcome State Fault Refusal :=
  .next (s.relight port true (emitterLanes q))

/-- The link makes no progress for 100 µs: the port goes down (R305). -/
def execLinkProgressTimeout (port : Nat) (s : State) : Host.Outcome State Fault Refusal := .next (s.portDown port)

/-- All but λ0 to λ3 of a direction are parked. -/
def Lanes.park (x : Lanes) : Lanes := { x with parked := x.parked ||| (x.active &&& ~~~0xF), active := x.active &&& 0xF }

/-- A port without data flits for 10 µs parks down to λ0 to λ3, where its latency tolerance allows it (R306). -/
def execPortPark (port : Nat) (s : State) : Host.Outcome State Fault Refusal :=
  let p := s.port port
  let tol := bitsOf (Map.get 0x300000000 s.mgmt.tol (pblockKey (.port port))).toNat 0 32
  if p.up && decide (1500 ≤ tol) && p.queue.all (·.2) && p.active &&& 0xF == 0xF then
    .next ((s.accrue port).onPort port (fun p => { p with rx := p.rx.park, tx := p.tx.park, wake := false }))
  else .next s

/-- A data flit has woken the port and the parked wavelengths have relocked: they are restored by lane control, the outbound
ones by that of the far end (R306). -/
def execWavelengthRelockComplete (port : Nat) (s : State) : Host.Outcome State Fault Refusal :=
  let p := s.port port
  if p.up && p.wake && p.rx.parked != 0 then
    let s := s.setRx port (fun x => { x with active := x.active ||| x.parked, parked := 0 })
    .next ((s.onPort port (fun p => { p with wake := p.tx.parked != 0 })).sendLanes port)
  else .next s

end Sys2Proof.Machine
end

