-- ==== Sys2Proof/Machine/Package.lean ====
section
/-! DEFINITION. Package, host complex and management (R405 to R419, R172): the control space and its semaphores, power
states, power warnings, boot, attestation and the clock. -/

namespace Sys2Proof.Machine

/-! ### Semaphores (R407, R408) -/

def masterCode : Master → Nat
  | .host => 1
  | .manager => 2

def State.sem (s : State) (n : Nat) : Nat := Map.get 0 s.mgmt.sems n
def State.setSem (s : State) (n v : Nat) : State := s.onMgmt (fun m => { m with sems := Map.set 0 m.sems n v })

/-- A read of a semaphore claims it if it is free, and returns its prior value. From the non-secure world a semaphore of a
secure management block is read and not claimed (R406). -/
def execSemaphoreRead (m : Master) (n : Nat) (s : State) : Host.Outcome State Fault Refusal :=
  if 32 ≤ n then .next s
  else
    let s := s.wakeBlock 16
    let old := s.sem n
    let s := if old = 0 ∧ s.mayWrite m 24 = true then s.setSem n (masterCode m) else s
    .next (s.signal (.semReply old))

/-- A write of 0 by the owner frees a semaphore. DESIGN CHOICE (assumption 50): the whole word must be 0, so that an owner's
write with OWNER 0 and a reserved bit set is one of the other writes of R407, which are ignored; R10 would ignore the
reserved bits alone. -/
def execSemaphoreWrite (m : Master) (n : Nat) (v : Word) (s : State) : Host.Outcome State Fault Refusal :=
  let s := s.wakeBlock 16
  if n < 32 ∧ v = 0 ∧ s.sem n = masterCode m ∧ s.mayWrite m 24 = true then .next (s.setSem n 0) else .next s

/-- Free every semaphore of a master. -/
def State.freeSems (s : State) (m : Master) : State :=
  s.onMgmt (fun x => { x with sems := x.sems.filter (fun e => e.2 != masterCode m) })

/-- The management port has had no link for 100 ms. -/
def execMgmtLinkTimeout (s : State) : Host.Outcome State Fault Refusal := .next (s.freeSems .manager)

/-- The host complex is reset. -/
def execHostComplexReset (s : State) : Host.Outcome State Fault Refusal := .next (s.freeSems .host)

/-- Does a master hold a guarding semaphore? A write without it is counted and ignored (R408). -/
def State.holds (s : State) (m : Master) (n : Nat) : Bool := s.sem n == masterCode m
def State.refuseWrite (s : State) : State := s.onMgmt (fun m => { m with refusedW := m.refusedW + 1 })

/-! ### Control-space writes (R9, R406, R408) -/

/-- The semaphore that guards a register. -/
def guardOf : CReg → Option Nat
  | .tol _ | .pwrctl => some 0
  | .bootcfg | .staging .. => some 1
  | _ => none

/-- The block of ctl.world that a register belongs to, by its bit: a slice, a port, or the management block (assumption
36). -/
def blockOf : CReg → Option Nat
  | .tol (.slice n) | .swapbase n | .swaplen n | .reserved n _ | .resident _ n _ => some (n % 8)
  | .tol (.port n) => some (16 + n % 8)
  | .tol .iface | .pwrctl | .bootcfg | .staging .. | .fevbase | .fevsize | .errbase | .errsize | .period => some 24
  | _ => none

/-- May a master change a register: the region table only from the secure world (R397), a register of a secure block
likewise (R9, R406)? -/
def State.mayPut (s : State) (m : Master) (r : CReg) : Bool :=
  match r with
  | .regionLo _ | .regionHi _ => s.secureMaster m
  | _ => match blockOf r with
    | some b => s.mayWrite m b
    | none => true

/-- An access to a register wakes the accelerator interface and the register's block (R412). -/
def State.wakeReg (s : State) (r : CReg) : State :=
  let s := s.wakeBlock 16
  match blockOf r with
  | some b => if b < 8 then s.wakeBlock b else if b < 24 then s.wakeBlock (b - 8) else s
  | none => s

/-- Is a count a power of two in a range? A register that holds an entry count keeps its value otherwise. -/
def ringSize (lo : Nat) (old v : Nat) : Nat := if isPow2 v lo 65536 then v else old

/-- System software writes the record of resident mode into queue (3, 0) of an allotted slice (R321). -/
def State.residentWord (s : State) (vf slice word : Nat) (v : Word) : State :=
  let s := s.settleMode vf
  let s := s.onVf vf (fun x => { x with resBuf := x.resBuf.set (4 * slice + word) v })
  let x := s.vf vf
  if word ≠ 3 ∨ !x.resident ∨ !x.allot.getLsbD slice then s
  else
    let r := (Sparse.getRange x.resBuf (4 * slice) 4).flatMap (fun w => leBytes 8 w.toNat)
    match recBad r with
    | some why => s.dispatchFault vf 0 why slice 4 (recGrid r)
    | none => s.pushAt vf slice 4 (qkey vf 3 0) { record := r, resident := true }

/-- As soon as a slice is allotted, a rung launch ring is served (R317). -/
def State.ifRung (s : State) (vf : Nat) : State := if (s.vf vf).rung then s.serveRing vf else s

/-- Entry `k` of a chip's routes: the port it leaves by, or none for a value above 7 (R297). -/
def State.putRoute (s : State) (chip k n : Nat) : State :=
  let l := (Map.get [] s.fab.routes chip).filter (fun r => r.num != k)
  let l := if n < 8 then { num := k, port := n } :: l else l
  { s with fab := { s.fab with routes := Map.set [] s.fab.routes chip l } }

/-- The value that a control-space register takes. -/
def State.putReg (s : State) (r : CReg) (v : Word) : State :=
  let n := v.toNat
  match r with
  | .stq vf => s.onVf vf (fun x => { x with stq := v &&& 0x1FFFFF })
  | .allot vf => (s.onVf vf (fun x => { x with allot := v.setWidth 8 })).ifRung vf
  | .hypPasid vf => s.onVf vf (fun x => { x with hypPasid := n % 2 ^ 20 })
  | .driverPasid vf => s.onVf vf (fun x => { x with driverPasid := n % 2 ^ 20 })
  | .taskPasid vf => s.onVf vf (fun x => { x with taskPasid := n % 2 ^ 20 })
  | .tol b => s.onMgmt (fun m => { m with tol := Map.set 0x300000000 m.tol (pblockKey b) (v &&& 0x3FFFFFFFF) })
  | .pwrctl => s.onMgmt (fun m => { m with pwrctl := (m.pwrctl &&& 0x30000) ||| (v &&& 0xFFFF) })
  | .bootcfg => s.onMgmt (fun m => { m with bootcfg := v &&& 1 })
  | .fevbase => s.onMgmt (fun m => { m with fevbase := n / 4096 * 4096 })
  | .fevsize => s.onMgmt (fun m => { m with fevsize := ringSize 64 m.fevsize n })
  | .errbase => s.onMgmt (fun m => { m with errbase := n })
  | .errsize => s.onMgmt (fun m => { m with errsize := n })
  | .evbase vf => s.onVf vf (fun x => { x with evBase := n })
  | .evsize vf => s.onVf vf (fun x => { x with evSize := ringSize 16 x.evSize n })
  | .swapbase sl => s.onSlice sl (fun x => { x with swapBase := n })
  | .swaplen sl => s.onSlice sl (fun x => { x with swapLen := if 64 ≤ n ∧ n ≤ 65536 then n else x.swapLen })
  | .period => s.onMgmt (fun m => { m with period := if 1 ≤ n ∧ n ≤ 1000 then n else m.period })
  | .regionLo k => s.onHome (fun h => { h with regionLo := h.regionLo.set (k % 64) (v &&& 0x3FFFFFFF003) })
  | .regionHi k => s.onHome (fun h => { h with regionHi := h.regionHi.set (k % 64) (v &&& 0x3FFFFFFF000) })
  | .resident vf sl w => s.residentWord vf sl w v
  | .chip => { s with fab := { s.fab with chip := n % 2 ^ 18 } }
  | .route chip k => s.putRoute chip (k % 4) n
  | .reserved sl cl => s.onSlice sl (fun x => { x with reserved := Map.set 0 x.reserved (cl % 8) n })
  | .staging ix at_ => s.onMgmt (fun m => { m with
      staging := Map.modify [] m.staging (ix % 8) (fun (b : Memory) => b.setRange (at_ / 8 * 8) (leBytes 8 n)) })
  | .other _ => s

/-- A write of a control-space register by a master. -/
def execControlSpaceWrite (m : Master) (r : CReg) (v : Word) (s : State) : Host.Outcome State Fault Refusal :=
  let s := s.wakeReg r
  if !s.mayPut m r then .next s
  else match guardOf r with
    | some n => if s.holds m n then .next (s.putReg r v) else .next s.refuseWrite
    | none => .next (s.putReg r v)

/-! ### Power states (R410 to R412) -/

/-- Is a block's idle condition met (R410)? -/
def State.blockIdle (s : State) (b : PBlock) : Bool :=
  match b with
  | .slice n => !s.sliceBusy n
  | .port n => (s.port n).queue.all (·.2)
  | .iface => true

/-- The arithmetic clock in tenths of a GHz (R8, R414, R415). -/
def Mgmt.acRate (m : Mgmt) : Nat := if m.throttled then 8 else 20 - m.slowdown

/-- The deepest state that a block's idle time, its tolerance and MAXQ allow, at a clock of `rate` tenths of a GHz (R410,
R411). -/
def qFor (rate idleNs : Nat) (tol : Word) : Nat :=
  let lat := bitsOf tol.toNat 0 32
  let top := bitsOf tol.toNat 32 2
  let q := if 1000000 ≤ idleNs ∧ 200000 ≤ lat then 3
    else if 10000 ≤ idleNs ∧ 2000 ≤ lat then 2
    else if 640 ≤ idleNs * rate ∧ 50 ≤ lat then 1
    else 0
  min q top

/-- Is a step group of some VF open? -/
def State.groupOpen (s : State) : Bool := s.vfs.any (fun e => e.2.sg.isSome)

/-- The caches, weight buffers and drain control stores of a slice are not kept in Q2: they are empty afterwards, the lines
of the caches in DRAM (R410). -/
def State.cachesDown (s : State) (n : Nat) : State :=
  let s := (List.range 32).foldl (fun s k =>
    (s.cleanAll (32 * n + k)).onCore (32 * n + k) (fun c => { c with l1 := [], l1i := [] })) s
  let s := (List.range 8).foldl (fun s j => s.onCluster (8 * n + j) (fun c =>
    if c.team = 0 then { c with store := { c.store with wb := [], wbs := [], dcs := [], wbBad := [] } } else c)) s
  let s := s.onSlice n (fun sl => { sl with dtc := [] })
  s.onHome (fun h => { h with place := h.place.filter (fun e => ((decodePA h.wide (e.1 * 128)).map (·.2.2)) != some n) })

/-- Nothing on a slice's die is kept in Q3: the team state of its clusters, none of which holds a team, is gone (R410;
assumption 37). -/
def State.sliceDown (s : State) (n : Nat) : State :=
  (List.range 8).foldl (fun s j => s.onCluster (8 * n + j) (fun c =>
    if c.team = 0 then { c.zeroed with owner := none } else c)) (s.cachesDown n)

/-- An idle block goes to the deepest state allowed; a port with an open step group never below Q1. -/
def execQstateEntry (b : PBlock) (idleNs : Nat) (s : State) : Host.Outcome State Fault Refusal :=
  if !s.blockIdle b then .next s
  else
    let q := qFor s.mgmt.acRate idleNs (Map.get 0x300000000 s.mgmt.tol (pblockKey b))
    let q := match b with
      | .port _ => if s.groupOpen then min q 1 else q
      | _ => q
    let s := s.onMgmt (fun m => { m with pstate := Map.set 0 m.pstate (pblockKey b) q })
    .next (match b with
      | .slice n => if q = 3 then s.sliceDown n else if q = 2 then s.cachesDown n else s
      | _ => s)

/-- The teams that a save outside the swap table took from a slice are restored where they ran, from the blocks reserved
for them (R357, R360, R414). -/
def State.restoreSlice (s : State) (n : Nat) : State :=
  s.teams.foldl (fun s e => match e.2.powerCl with
    | some cl =>
      if sliceOfCluster cl ≠ n then s
      else
        let (s, bad) := s.savedBad e.1 (e.2.saved.bind (·.block))
        (s.onTeam e.1 (fun t => { t with powerCl := none })).restoreTeam e.1 cl bad
    | none => s) s

/-- A wake event brings a block to Q0; a slice that leaves Q3 restores its saved teams (R412). -/
def execQstateWake (b : PBlock) (s : State) : Host.Outcome State Fault Refusal :=
  let s := s.wakeBlock (pblockKey b)
  .next (match b with
    | .slice n => if s.mgmt.railsOff then s else s.restoreSlice n
    | _ => s)

/-! ### Power warnings (R413 to R415) -/

/-- PWRWARN is released: the clock returns unless the rails are off. -/
def execPwrwarnRelease (s : State) : Host.Outcome State Fault Refusal :=
  .next (s.onMgmt (fun m => { m with throttled := m.railsOff && m.throttled, pwrctl := m.pwrctl &&& ~~~0x10000#64 }))

/-- The power-warning save of one cluster whose array is frozen: the forced save, into the block that ring H has reserved for the
cluster apart from the swap table (R357, R414). -/
def State.powerSave (s : State) (cl : Nat) : State :=
  let id := (s.cluster cl).team
  if id = 0 ∨ (s.team id).consumed ∨ !s.saveable cl then s
  else
    let b := Map.get 0 (s.slice (sliceOfCluster cl)).reserved (cl % 8)
    if (s.cluster cl).store.rowsBad then s.spillBad cl
    else
      let s := s.saveTeam cl true false (if b = 0 then none else some b) (Config.nonce s.time.tick)
      s.onTeam id (fun t => { t with powerCl := some cl })

/-- The warning has lasted for HOLD: every array freezes at once (R225), every running team is saved, each as soon as it can
be, and when none is left the core rails go off. -/
def State.railsDown (s : State) (cyc cyc2 : Nat) : State :=
  let s := (List.range 64).foldl (fun s cl => if (s.cluster cl).team = 0 then s else s.freezeArray cl cyc cyc2) s
  let s := (List.range 64).foldl (fun s cl => s.powerSave cl) s
  if (List.range 64).any (fun cl => (s.cluster cl).team != 0) then s.onMgmt (fun m => { m with saveDue := true })
  else
    let s := (List.range 8).foldl (fun s n => s.sliceDown n) s
    s.onMgmt (fun m => { m with saveDue := false, railsOff := true, pwrctl := m.pwrctl ||| 0x20000 })

/-- HOLD of PWRCTL, in microseconds (R413). -/
def Mgmt.hold (m : Mgmt) : Nat := bitsOf m.pwrctl.toNat 1 15

/-- PWRWARN is asserted: with EN the clock falls and the warning is in force; a HOLD of 0 saves at once. -/
def execPwrwarnAssert (s : State) : Host.Outcome State Fault Refusal :=
  if s.mgmt.pwrctl.getLsbD 0 then
    let s := s.onMgmt (fun m => { m with throttled := true, pwrctl := m.pwrctl ||| 0x10000 })
    .next (if s.mgmt.hold = 0 ∧ s.mgmt.railsOff = false then
      s.railsDown (Config.frozenAt s.time.tick) (Config.frozenAt (s.time.tick + 1)) else s)
  else .next s

/-- PWRWARN persists for HOLD. -/
def execPwrwarnHoldExpiry (cyc cyc2 : Nat) (s : State) : Host.Outcome State Fault Refusal :=
  if !(s.mgmt.pwrctl.getLsbD 16 || s.mgmt.saveDue) || s.mgmt.railsOff then .next s else .next (s.railsDown cyc cyc2)

/-- The rails return after PWRWARN has been released: the teams are restored where they ran (R414). -/
def execPowerRailRestore (s : State) : Host.Outcome State Fault Refusal :=
  if !s.mgmt.railsOff || s.mgmt.pwrctl.getLsbD 16 then .next s
  else
    let s := s.onMgmt (fun m => { m with railsOff := false, throttled := false, pwrctl := m.pwrctl &&& ~~~0x20000#64 })
    .next ((List.range 8).foldl (fun s n => (s.wakeBlock n).restoreSlice n) s)

/-- Over 6000 A for 10 µs: the clock falls by 0.1 GHz (R415). -/
def execOvercurrent (s : State) : Host.Outcome State Fault Refusal :=
  if s.mgmt.pwrctl.getLsbD 16 then .next s
  else .next (s.onMgmt (fun m => { m with slowdown := m.slowdown + 1 }))

/-- After 1 ms below 5700 A the clock rises again. -/
def execOvercurrentRecovery (s : State) : Host.Outcome State Fault Refusal :=
  .next (s.onMgmt (fun m => { m with slowdown := 0 }))

/-! ### Reset and boot (R416, R417) -/

/-- An image as it lies in the staging area, as long as its header says. -/
def stagedImage (m : Memory) : List Byte := m.getRange 0 (max 512 (leNat (m.getRange 12 4)))

/-- The boot image of an index: the one that the last update put in its place, else the one the module was made with. -/
def Mgmt.image (m : Mgmt) (ix : Nat) : List Byte :=
  let b := Map.get [] m.images ix
  if b = [] then Config.bootImage ix else stagedImage b

/-- Why the boot ROM rejects an image (R416): 4 its header, 1 its digest, 2 its signature, 3 its version, in that order
(assumption 49). -/
def bootReason (ix : Nat) (img : List Byte) : Option Nat :=
  let f (o n : Nat) : Nat := leNat ((img.drop o).take n)
  if img.length < 512 ∨ f 0 4 ≠ 0x5A4C4D46 ∨ f 4 4 ≠ ix ∨ f 12 4 ≠ img.length ∨ f 432 80 ≠ 0 then some 4
  else if (img.drop 16).take 32 ≠ sha256 (img.drop 512) then some 1
  else if !Config.signatureOk (img.take 48) ((img.drop 48).take 384) then some 2
  else if f 8 4 < Config.fusedMin ix then some 3
  else none

/-- The first image of the chain that fails, with the reason. -/
def Mgmt.bootFailure (m : Mgmt) : Option (Nat × Nat) :=
  [1, 2, 3, 4, 5].findSome? (fun ix => (bootReason ix (m.image ix)).map (fun why => (ix, why)))

/-- What module reset leaves: DRAM without the lines that were dirty in a cache, TRANSPORT, the boot images with the update
that was staged (R416), and what lies outside the module. -/
def State.afterReset (s : State) : State :=
  let h := (s.home.place.foldl (fun h e => h.dropCached e.1) s.home).resplit 36
  { State.reset with
    home := { State.reset.home with mem := h.mem, dramBad := h.dramBad }
    mgmt := { State.reset.mgmt with
      bootcfg := s.mgmt.bootcfg, signals := s.mgmt.signals
      images := s.mgmt.staging.foldl (fun (m : Map Memory) e => Map.set [] m e.1 e.2) s.mgmt.images }
    time := { tick := s.time.tick }
    iommu := s.iommu, agenda := s.agenda }

/-- The transport self-test: stacks that fail stop their slices, clusters that fail are fenced, wavelengths that fail
are marked (R417). -/
def State.selfTest (s : State) (badStacks : BitVec 16) (badClusters : Word) (badRx badTx : List (BitVec 16)) :
    State :=
  let s := s.onHome (fun h => { h with mem := [], dramBad := [] })
  let s := (List.range 8).foldl (fun s n =>
    if badStacks.getLsbD (2 * n) || badStacks.getLsbD (2 * n + 1) then s.onSlice n (fun sl => { sl with stopped := true })
    else s) s
  let s := (List.range 64).foldl (fun s c => s.onCluster c (fun x =>
    if badClusters.getLsbD c then { x with fenced := true } else { x with auditSeq := x.auditSeq + 1 })) s
  let s := (List.range 8).foldl (fun s n =>
    let s := s.onPort n (fun p => { p with
      rx := { p.rx.drop (badRx.getD n 0) with failed := badRx.getD n 0 }
      tx := { p.tx.drop (badTx.getD n 0) with failed := badTx.getD n 0 } })
    if (s.port n).rx.few || (s.port n).tx.few then s.onPort n (fun p => { p with up := false, rx := p.rx.drop 0xFFFF, tx := p.tx.drop 0xFFFF })
    else s) s
  let pass := (List.range 8).any (fun n => !(s.slice n).stopped && (List.range 8).any (fun j => !(s.cluster (8 * n + j)).fenced))
  s.onMgmt (fun m => { m with
    selftest := badStacks.setWidth 64, bootcfg := if pass then 0 else m.bootcfg, held := !pass })

/-- Module reset and boot: a rejected image leaves the accelerator in reset (R416). -/
def execModuleReset (badStacks : BitVec 16) (badClusters : Word) (badRx badTx : List (BitVec 16)) (s : State) :
    Host.Outcome State Fault Refusal :=
  let s := s.afterReset
  match s.mgmt.bootFailure with
  | some (ix, why) =>
    .next (s.onMgmt (fun m => { m with held := true, bootstat := BitVec.ofNat 64 (ix + 8 * why) }))
  | none => if s.mgmt.bootcfg.getLsbD 0 then .next (s.selfTest badStacks badClusters badRx badTx) else .next s

/-! ### Attestation (R418, R419) -/

/-- A master writes ATTREQ; a request while a report is being made is ignored. -/
def execAttestationRequest (m : Master) (pa : Nat) (s : State) : Host.Outcome State Fault Refusal :=
  let s := s.wakeBlock 16
  if !s.mayWrite m 24 then .next s
  else if !s.holds m 2 then .next s.refuseWrite
  else if s.mgmt.attBuf.isSome then .next s
  else .next (s.onMgmt (fun x => { x with attBuf := some pa, attDone := false }))

/-- Bytes of the header of the boot image of an index (R416). -/
def Mgmt.header (m : Mgmt) (ix o n : Nat) : List Byte := (List.range n).map (fun i => (m.image ix).getD (o + i) 0)

/-- The 240 signed bytes of a report: nonce, serial, the digests and the security versions of the five images as their
headers hold them, the fenced clusters, ctl.world and the self-test result (R418). -/
def State.reportBytes (s : State) (nonce : List Byte) : List Byte :=
  let fenced := (List.range 64).foldl (fun (n : Nat) c => if (s.cluster c).fenced then n + 2 ^ c else n) 0
  nonce ++ (List.range 8).map Config.serialByte ++ [1, 2, 3, 4, 5].flatMap (fun ix => s.mgmt.header ix 16 32)
    ++ [1, 2, 3, 4, 5].flatMap (fun ix => s.mgmt.header ix 8 4) ++ leBytes 8 fenced ++ leBytes 8 s.home.world.toNat
    ++ leBytes 4 (s.mgmt.selftest.toNat % 65536 + 65536 * (s.mgmt.bootcfg.toNat % 2))

/-- The management block's own requests, which carry its world (R396). -/
def State.mgmtAsker (s : State) : Asker := ⟨s.home.world.getLsbD 24, 0xFF, 0xFF, 0⟩

/-- The report is written to the buffer, and ATTDONE is 1. Where the nonce cannot be read there is no report, and ATTDONE
stays 0 (assumption 8). -/
def execAttestationComplete (s : State) : Host.Outcome State Fault Refusal :=
  match s.mgmt.attBuf with
  | none => .next s
  | some pa => match s.devGet s.mgmtAsker pa 32 with
    | (s, none) => .next (s.onMgmt (fun m => { m with attBuf := none }))
    | (s, some nonce) =>
      let body := s.reportBytes nonce
      let s := s.devPut s.mgmtAsker pa (body ++ (List.range 384).map (Config.signByte body))
      .next (s.onMgmt (fun m => { m with attBuf := none, attDone := true }))

/-- The PTP clock locks; ctl.ptpns never decreases while it is locked (R172). -/
def execPtpClockLock (ns : Word) (s : State) : Host.Outcome State Fault Refusal :=
  let first := !s.time.locked
  let s : State := { s with time := { s.time with
    locked := true, ptpns := if s.time.locked && ns.ult s.time.ptpns then s.time.ptpns else ns } }
  .next (if first then
    (List.range 8).foldl (fun s n => s.onPort n (fun p =>
      { p with window := ns.toNat / 1000000000, since := ns.toNat })) s
  else s)

end Sys2Proof.Machine
end

