-- ==== Sys2Proof/Machine/Control.lean ====
section
/-! DEFINITION. What reaches the module and has no event row: reads of the control space (R9, R406), requests of endpoints
(R405), corrected errors (R65, R148), packets as bytes (R298), a VF that moves (R398) and bindings of system software
(R256). -/

namespace Sys2Proof.Machine

/-! ### Reads (R9, R406) -/

/-- A control-space access that is not 8 bytes wide and aligned changes nothing and gets an abort, or an error reply
(R406). -/
def State.badAccess (s : State) (m : Master) (off width : Nat) : Option State :=
  if off % 8 = 0 ∧ width = 8 then none else some (s.signal (.spaceAbort m))

/-- The value of a register that software writes. -/
def State.regValue (s : State) (r : CReg) : Word :=
  let w (n : Nat) : Word := BitVec.ofNat 64 n
  match r with
  | .stq vf => (s.vf vf).stq
  | .allot vf => (s.vf vf).allot.setWidth 64
  | .hypPasid vf => w (s.vf vf).hypPasid
  | .driverPasid vf => w (s.vf vf).driverPasid
  | .taskPasid vf => w (s.vf vf).taskPasid
  | .tol b => Map.get 0x300000000 s.mgmt.tol (pblockKey b)
  | .pwrctl => s.mgmt.pwrctl
  | .bootcfg => s.mgmt.bootcfg
  | .fevbase => w s.mgmt.fevbase
  | .fevsize => w s.mgmt.fevsize
  | .errbase => w s.mgmt.errbase
  | .errsize => w s.mgmt.errsize
  | .evbase vf => w (s.vf vf).evBase
  | .evsize vf => w (s.vf vf).evSize
  | .swapbase sl => w (s.slice sl).swapBase
  | .swaplen sl => w (s.slice sl).swapLen
  | .period => w s.mgmt.period
  | .regionLo k => s.home.regionLo.get (k % 64)
  | .regionHi k => s.home.regionHi.get (k % 64)
  | .resident vf sl n => (s.vf vf).resBuf.get (4 * sl + n)
  | .chip => w s.fab.chip
  | .route chip k => w ((((Map.get [] s.fab.routes chip).find? (fun r => r.num == k % 4)).map (·.port)).getD 8)
  | .reserved sl cl => w (Map.get 0 (s.slice sl).reserved (cl % 8))
  | .staging ix at_ => w (leNat (Memory.getRange (Map.get [] s.mgmt.staging (ix % 8)) (at_ / 8 * 8) 8))
  | .other _ => 0

/-- An entry of a withheld-line table (R385): its place is the order of entry. -/
def Home.withheldEntry (h : Home) (stack n : Nat) : Nat :=
  match (Map.get [] h.withheld stack)[n]? with
  | some l => 128 * l + 1
  | none => 0

/-- What a read of a register returns; a register whose fields are written only reads as zero (R9, R391). -/
def State.readReg (s : State) (r : RReg) : Word :=
  let w (n : Nat) : Word := BitVec.ofNat 64 n
  match r with
  | .reg r => s.regValue r
  | .share sl vf => match ((s.slice sl).shareQ.filter (·.1 == vf)).getLast? with
    | some e => e.2
    | none => (s.slice sl).shareOf vf
  | .coreRes _ | .poolCmd => 0
  | .poolDone => w s.home.poolDone
  | .memsplit => w (s.home.wide + 256 * s.home.splitLock.toNat)
  | .launch vf => w ((s.vf vf).lstate + 16 * (s.vf vf).lreason)
  | .desc vf n => (s.vf vf).desc.get n
  | .mailbox vf => (s.vf vf).doorbell
  | .refused => w s.mgmt.refusedW
  | .fatalRec => s.mgmt.fatalrec
  | .bootstat => s.mgmt.bootstat
  | .selftest => s.mgmt.selftest
  | .attReq => w (s.mgmt.attBuf.getD 0)
  | .attDone => w s.mgmt.attDone.toNat
  | .pstate => w ((List.range 17).foldl (fun n b => n + 4 ^ b * Map.get 0 s.mgmt.pstate b) 0)
  | .withheld stack n => w (s.home.withheldEntry stack n)
  | .corrected stack => w (Map.get 0 s.home.corrected stack)
  | .errLost => w s.mgmt.errLost
  | .fevLost => w s.mgmt.fevLost
  | .evDropped vf => w (s.vf vf).evDropped
  | .id n => w (leNat ((List.range 8).map (fun i => Config.idKeyByte (8 * n + i))))

/-- A master reads a register, in either world; the access wakes the register's block (R9, R406, R412). -/
def State.spaceRead (s : State) (m : Master) (off width : Nat) (r : RReg) : State :=
  match s.badAccess m off width with
  | some t => t
  | none =>
    let s := match r with
      | .reg r => s.wakeReg r
      | .share sl _ => (s.wakeBlock 16).wakeBlock sl
      | .coreRes k => (s.wakeBlock 16).wakeBlock (sliceOf k)
      | _ => s.wakeBlock 16
    s.signal (.spaceReply m (s.readReg r))

/-! ### What else comes from outside -/

/-- A packet's bytes come in by a port: one whose CRC fails, that is for another module or whose KIND is reserved is
discarded, and its flits leave the input buffer all the same (R298, R302). -/
def State.packetIn (s : State) (port : Nat) (bs : List Byte) : Host.Outcome State Fault Refusal :=
  let (kind, dst, p) := packetOf port bs
  if !p.crcOk || dst != s.fab.chip || kind == 0 || decide (5 < kind) then .next (s.inbound port bs.length)
  else if kind = 3 then .next ((s.inbound port bs.length).takeMark p.vf p.srcChip p.seq)
  else execFabricPacketReceive p s

/-- May an entry stand in a binding table: region and object aligned, the region of 128 to 2⁴⁰ bytes, both in translated
memory (R256)? -/
def Binding.ok (b : Binding) : Bool :=
  b.base % 128 == 0 && b.len % 128 == 0 && b.len != 0 && decide (b.len ≤ 2 ^ 40) && b.obj % 16 == 0
    && rangeIn .memory b.base b.len && rangeIn .memory b.obj 16

/-- System software enters a binding, under the limits of the table (R256). -/
def State.bindEntry (s : State) (vf : Nat) (b : Binding) : State :=
  if b.ok then s.onVf vf (fun v => { v with binds := (bindTable v.binds b).2 }) else s

/-- A team's save block has come from another module with its record: it stands in the block of entry `h` of a slice's swap
table, SWAPPED, as the other module's burrow engine left it (R398). -/
def State.savedIn (s : State) (slice h : Nat) (t : Team) : State :=
  let block := (s.swapEnt slice h).block
  let id := s.nextTeam
  let b := t.saved.map (fun b => { b with block := some block })
  let t := { t with live := true, slice := slice % 8, cluster := none, engCl := 8 * (slice % 8), saved := b }
  let s := { s with nextTeam := id + 1, teams := Map.set {} s.teams id t }
  let s := match b with
    | some b => s.putBlock (s.hscAsker t.slice) block b.image
    | none => s
  s.queueSaved id h ((b.map (·.nonce)).getD 0)

/-- What the outside world does where no event row names it; a core's turn, an event and a control-space write are the
step's own. -/
def State.outside (s : State) (a : Act) : Host.Outcome State Fault Refusal :=
  match a with
  | .read m off w r => .next (s.spaceRead m off w r)
  | .endpointSpace => .next (s.signal .unsupportedRequest)
  | .corrected stack => .next (s.onHome (fun h => { h with corrected := Map.modify 0 h.corrected stack (· + 1) }))
  | .correctedReg k => .next (s.onCore k (fun c => { c with corrected := c.corrected + 1 }))
  | .packet port bs => s.packetIn port bs
  | .streamsOut vf => .next (s.streamsOut vf)
  | .streamsIn vf x => .next (s.streamsIn vf x)
  | .savedIn slice h t => .next (s.savedIn slice h t)
  | .bind vf b => .next (s.bindEntry vf b)
  | .vfReset vf => .next (s.onVf vf (fun v => { v with binds := [] }))
  | .run _ | .ev _ | .write .. => .next s

end Sys2Proof.Machine
end

