-- ==== Sys2Proof/Machine/Atomics.lean ====
section
/-! DEFINITION. Returning atomics and reductions (R99 to R104), performed at the home. -/

namespace Sys2Proof.Machine

/-- A returning atomic (R103): `fn` is the function of R102. The node commits before the act performs (R376); an
error leaves the destination and the memory unchanged (R79). -/
def State.amo (s : State) (fn : Nat) (d a b : SReg) : Res := do
  let core := s.turn
  let w := amoWidth fn
  let va ← s.checkMem (s.rs a) w
  let pa ← s.tr core va true 3
  let s := s.commitClass core
  match s.lineErr (s.secureCore core) (s.core core).team (pa / 128) .read with
  | some e => .ok ((s.homeErr core va (pa / 128) 5 e).retire 4)
  | none =>
    let old := BitVec.ofNat 64 (s.peekNat pa w)
    let (op, cmp) := if fn = 11 then (s.rs (sregAdd b 1), s.rs b) else (s.rs b, 0)
    let s := s.pokeWq pa w (amoValue fn old op cmp).toNat
    .ok ((s.onCtx core (·.setS d old)).retire 4)

def amoOp (fn : Nat) (d a b : SReg) (s : State) : Host.Outcome State Fault Refusal :=
  s.finish (s.breaking.amo fn d a b)

def execAmoswap (d a b : SReg) (s : State) := amoOp 0 d a b s
def execAmoadd (d a b : SReg) (s : State) := amoOp 1 d a b s
def execAmoand (d a b : SReg) (s : State) := amoOp 2 d a b s
def execAmoor (d a b : SReg) (s : State) := amoOp 3 d a b s
def execAmoxor (d a b : SReg) (s : State) := amoOp 4 d a b s
def execAmomin (d a b : SReg) (s : State) := amoOp 5 d a b s
def execAmomax (d a b : SReg) (s : State) := amoOp 6 d a b s
def execAmominu (d a b : SReg) (s : State) := amoOp 7 d a b s
def execAmomaxu (d a b : SReg) (s : State) := amoOp 8 d a b s
def execAmofadds (d a b : SReg) (s : State) := amoOp 9 d a b s
def execAmofaddd (d a b : SReg) (s : State) := amoOp 10 d a b s
def execAmocas (d a b : SReg) (s : State) := amoOp 11 d a b s

/-- A reduction (R104): held while the node is uncommitted and within its quota (R101, R378), else applied on
arrival. A held one moves its line from L2 or the MSC into the write-queue entry that holds it (R99); it reads the line
only when the commit applies it (R254). -/
def State.red (s : State) (fn : Nat) (a b : SReg) : Res := do
  let core := s.turn
  let team := (s.core core).team
  let w := amoWidth (redFn fn)
  let va ← s.checkMem (s.rs a) w
  let pa ← s.tr core va true 3
  let r : RedOp := ⟨pa, w, fn, s.rs b⟩
  let e := s.lineErr (s.secureCore core) 0 (pa / 128) .read
  if e = some .abort then .ok ((s.homeErr core va (pa / 128) 5 .abort).retire 4)
  else
    let spill := s.overflows team none
    let s := if spill then s.commit team else s
    let t := s.team team
    if t.live && !t.committed then
      .ok (((s.onHome (·.heldAt s.time.tick (pa / 128))).onTeam team (fun t => { t with reds := t.reds ++ [r] })).retire 4)
    else match s.lineErr (s.secureCore core) team (pa / 128) .read with
      | some e => .ok ((s.homeErr core va (pa / 128) 5 e).retire 4)
      | none => .ok ((s.applyRed r).retire 4)

def redOp (fn : Nat) (a b : SReg) (s : State) : Host.Outcome State Fault Refusal :=
  s.finish (s.breaking.red fn a b)

def execRedadd (a b : SReg) (s : State) := redOp 0 a b s
def execRedand (a b : SReg) (s : State) := redOp 1 a b s
def execRedor (a b : SReg) (s : State) := redOp 2 a b s
def execRedxor (a b : SReg) (s : State) := redOp 3 a b s
def execRedmin (a b : SReg) (s : State) := redOp 4 a b s
def execRedmax (a b : SReg) (s : State) := redOp 5 a b s
def execRedminu (a b : SReg) (s : State) := redOp 6 a b s
def execRedmaxu (a b : SReg) (s : State) := redOp 7 a b s
def execRedfadds (a b : SReg) (s : State) := redOp 8 a b s
def execRedfaddd (a b : SReg) (s : State) := redOp 9 a b s

end Sys2Proof.Machine
end

