-- ==== Sys2Proof/Machine/LoadStore.lean ====
section
/-! DEFINITION. Scalar loads and stores (R80 to R94), the accesses a line region records (R107), and the events that
complete a load and land a multicast store (R71, R89, R266). -/

namespace Sys2Proof.Machine

/-- The address of a load or store (R88). -/
def memAddr (s : State) (a : SReg) (imm : BitVec 13) : Word := s.rs a + imm.signExtend 64

/-- Mark a region, where nothing has marked it before (R108). -/
def Region.marked (r : Region) (m : Nat) : Region := if r.mark = 0 then { r with mark := m } else r

/-- Treat one load or store inside a region (R107): recorded, or the region marked TOO_MANY or OUTSIDE. A ninth access
that is also misaligned or off the line falls under two rows of R107, which does not say which mark comes first: the
model marks TOO_MANY (assumption 29). -/
def Region.record (r : Region) (addr : Nat) (o : RegionOp) : Region :=
  let r' := { r with count := r.count + 1 }
  if 8 ≤ r.count then r'.marked 2
  else if addr / 128 = r.vline ∧ addr % o.w = 0 then { r' with ops := r'.ops ++ [o] }
  else r'.marked 3

/-- The state of the turn's core after a recorded access. -/
def State.recordAccess (s : State) (addr : Word) (o : RegionOp) : State :=
  (s.onCtx s.turn (fun c => { c with region := c.region.map (·.record addr.toNat o) })).retire 4

/-- A load that no region records (R92). -/
def State.loadMem (s : State) (w : Nat) (signed : Bool) (d : SReg) (addr : Word) : Res :=
  let core := s.turn
  let a := addr.toNat
  if rangeIn .localSp a w then
    if a % w ≠ 0 then trapE s (tMisaligned a)
    else if s.mcastPending core (spOff a) w then waitE s
    else
      let st := (s.cluster (clusterOf core)).store
      if st.spBadIn (spOff a) w then .ok ((s.consumeLocal core 0).retire 4)
      else .ok ((s.onCtx core (·.setS d (extend signed w (leNat (st.spGet (spOff a) w))))).retire 4)
  else do
    let a ← s.checkMem addr w
    let pa ← s.tr core a false 1
    let pasid := s.pasidOf core true
    match s.l1Read core pasid a w with
    | .hit bs => .ok ((s.onCtx core (·.setS d (extend signed w (leNat bs)))).retire 4)
    | .bad => .ok ((s.consumeLocal core 0).retire 4)
    | .miss =>
      if (s.ctx core).loads = 0xFFFF then waitE s
      else .ok ((s.onCtx core (fun c => { c with
        loads := c.loads + 1
        pend := c.pend ++ [⟨c.pc, a, pa, w, signed, d, pasid, s.gtagOf core, none⟩] })).retire 4)

/-- Does an open region record the accesses of the context (R107)? The handler of a trap taken inside the region is
no part of it, and its own loads and stores perform. -/
def Ctx.recording (c : Ctx) : Bool := c.region.any (fun r => r.ring == c.ring && r.inner == 0)

/-- A load of `w` bytes (R92). -/
def loadOp (w : Nat) (signed : Bool) (d a : SReg) (imm : BitVec 13) (s : State) :
    Host.Outcome State Fault Refusal :=
  let addr := memAddr s a imm
  if (s.ctx s.turn).recording then
    .next (s.recordAccess addr ⟨false, addr.toNat % 128, w, signed, d, 0⟩)
  else s.finish (s.loadMem w signed d addr)

/-- The cluster mask and the offset of a multicast address (R71). -/
def mcastMask (a : Nat) : BitVec 8 := BitVec.ofNat 8 (bitsOf a 23 8)
def mcastOff (a : Nat) : Nat := bitsOf a 0 23

/-- A multicast store on its way. -/
def State.mcastAdd (s : State) (core : Nat) (parts : List (BitVec 8 × Nat × List Byte)) : State :=
  let t := s.teamOf core
  let s := s.onCtx core (fun c => { c with stores := c.stores + 1 })
  { s with mcast := s.mcast ++ [⟨s.time.cycle, core, (s.core core).team, sliceOf core, recGrid t.record, t.vf, parts, false⟩] }

/-- A store that no region records (R94). -/
def State.storeMem (s : State) (w : Nat) (d : SReg) (addr : Word) : Res :=
  let core := s.turn
  let a := addr.toNat
  let bs := leBytes w (s.rs d).toNat
  if rangeIn .localSp a w then
    if a % w ≠ 0 then trapE s (tMisaligned a)
    else if s.mcastOut core then waitE s
    else
      let part := w < 8 && ((s.cluster (clusterOf core)).store).spBadIn (spOff a) w
      if part then .ok ((s.consumeLocal core 0).retire 4)
      else .ok ((s.onStore (clusterOf core) (·.spPut (spOff a) bs)).retire 4)
  else if rangeIn .mcast a w then
    if mcastMask a = 0 then trapE s (tAddress a)
    else if a % w ≠ 0 then trapE s (tMisaligned a)
    else if (s.ctx core).stores = 0xFFFF then waitE s
    else .ok ((s.mcastAdd core [(mcastMask a, mcastOff a, bs)]).retire 4)
  else do
    let a ← s.checkMem addr w
    let pa ← s.tr core a true 2
    if !s.lineRoom core (s.pasidOf core true) (a / 128) then waitE s
    else .ok ((s.storeLine core (s.pasidOf core true) a pa bs).retire 4)

/-- A store of `w` bytes (R94). -/
def storeOp (w : Nat) (d a : SReg) (imm : BitVec 13) (s : State) : Host.Outcome State Fault Refusal :=
  let addr := memAddr s a imm
  if (s.ctx s.turn).recording then
    .next (s.recordAccess addr ⟨true, addr.toNat % 128, w, false, 0, s.rs d⟩)
  else s.finish (s.storeMem w d addr)

def execLdb (d a : SReg) (imm : BitVec 13) (s : State) := loadOp 1 true d a imm s
def execLdbu (d a : SReg) (imm : BitVec 13) (s : State) := loadOp 1 false d a imm s
def execLdh (d a : SReg) (imm : BitVec 13) (s : State) := loadOp 2 true d a imm s
def execLdhu (d a : SReg) (imm : BitVec 13) (s : State) := loadOp 2 false d a imm s
def execLdw (d a : SReg) (imm : BitVec 13) (s : State) := loadOp 4 true d a imm s
def execLdwu (d a : SReg) (imm : BitVec 13) (s : State) := loadOp 4 false d a imm s
def execLdd (d a : SReg) (imm : BitVec 13) (s : State) := loadOp 8 false d a imm s
def execStb (d a : SReg) (imm : BitVec 13) (s : State) := storeOp 1 d a imm s
def execSth (d a : SReg) (imm : BitVec 13) (s : State) := storeOp 2 d a imm s
def execStw (d a : SReg) (imm : BitVec 13) (s : State) := storeOp 4 d a imm s
def execStd (d a : SReg) (imm : BitVec 13) (s : State) := storeOp 8 d a imm s

/-! ### The events -/

/-- Read translated elements under an address space through L1; nothing is delivered where one of them meets an error,
which gives its address. -/
def State.readElems (core pasid w : Nat) : State → List (Nat × Nat × Nat) →
    Except (State × Nat × Option HErr) (State × List (Nat × Nat))
  | s, [] => .ok (s, [])
  | s, (i, a, pa) :: r =>
    match s.readThrough core pasid a pa w with
    | .error (s, e) => .error (s, a, e)
    | .ok (s, bs) => match State.readElems core pasid w s r with
      | .error e => .error e
      | .ok (s, l) => .ok (s, (i, leNat bs) :: l)

/-- The data of a pending vector load: every element, or none (R198). -/
def State.completeVec (s : State) (core : Nat) (p : PendLoad) (v : VPend) : State :=
  match State.readElems core p.pasid p.w s v.els with
  | .ok (s, vals) => s.writeElems core ⟨v.d, v.fmt, v.fmt, v.els.map (·.1), false, 128⟩ vals
  | .error (s, a, e) => s.abortAt core a p.pc e

/-- The data of a pending load arrives (R89): the destination is written, or an error is met and it is not. -/
def execLoadComplete (core ix : Nat) (s : State) : Host.Outcome State Fault Refusal :=
  match (s.ctx core).pend[ix]? with
  | none => .next s
  | some p =>
    let s := s.onCtx core (fun c => { c with pend := c.pend.eraseIdx ix, loads := c.loads - 1 })
    match p.vec with
    | some v => .next (s.completeVec core p v)
    | none => match s.readThrough core p.pasid p.va p.pa p.w with
      | .ok (s, bs) => .next (s.onCtx core (·.setS p.d (extend p.sign p.w (leNat bs))))
      | .error (s, e) => .next (s.abortAt core p.va p.pc e)

/-- The clusters of a slice that hold a team of a grid of a VF (R71). -/
def State.gridHolds (s : State) (cl grid vf : Nat) : Bool :=
  let t := s.team (s.cluster cl).team
  t.live && recGrid t.record == grid && t.vf == vf

/-- One piece of a multicast store lands in one listed cluster. A granule that fails its ECC is repaired only where
all its bytes are written. -/
def State.landPart (s : State) (m : McStore) (p : BitVec 8 × Nat × List Byte) : State :=
  (List.range 8).foldl (fun s j =>
    let cl := 8 * m.slice + j
    if p.1.getLsbD j && s.gridHolds cl m.grid m.vf then s.onStore cl (·.spPut p.2.1 p.2.2) else s) s

/-- Does one multicast store take effect before another: on an earlier cycle, or on the same one, where that of the
lower-numbered core takes effect last (R71)? -/
def McStore.before (m x : McStore) : Bool := m.at_.ult x.at_ || (m.at_ == x.at_ && decide (x.core ≤ m.core))

/-- Has the landing cycle of a multicast store, its issue cycle plus 24, come (R71)? -/
def McStore.due (m : McStore) (cycle : Word) : Bool := decide (24 ≤ (cycle - m.at_).toNat)

/-- The multicast store that takes effect first of those that have not landed. -/
def State.landing (s : State) : Option McStore :=
  let l := s.mcast.filter (fun m => !m.landed)
  l.find? (fun m => l.all m.before)

/-- The bytes of a multicast store go into every listed cluster. -/
def State.landParts (s : State) (m : McStore) : State := m.parts.foldl (fun s p => s.landPart m p) s

/-- A multicast store lands in every listed cluster at once, and no longer counts as outstanding (R71, R86). On its landing
cycle it stands as landed, so that it takes effect after what a core stores to its own bank on that cycle. -/
def State.land (s : State) (m : McStore) : State :=
  let rest := s.mcast.erase m
  let s := { s with mcast := if s.time.cycle = m.at_ + 24 then rest ++ [{ m with landed := true }] else rest }
  let s := s.landParts m
  if (s.team m.team).live then s.onMember m.team (m.core % 4) (fun c => { c with stores := c.stores - 1 }) else s

/-- The multicast stores whose landing cycle has come land, the first first: `n` bounds their number. A load on that cycle
sees them (R266). -/
def State.landDue : Nat → State → State
  | 0, s => s
  | n + 1, s => match s.landing with
    | some m => if m.due s.time.cycle then State.landDue n (s.land m) else s
    | none => s

/-- Of a local store and a multicast store that take effect on one cycle the multicast store's value remains (R71): those
that have landed are written again over what the last step stored. -/
def State.landAgain (s : State) : State := (s.mcast.filter (·.landed)).foldl (·.landParts ·) s

/-- The landing cycle of the multicast stores that have landed is over. -/
def State.dropLanded (s : State) : State :=
  { s with mcast := s.mcast.filter (fun m => !m.landed || m.at_ + 24 == s.time.cycle) }

/-- The landing cycle of the next multicast store has come. -/
def execMulticastLand (s : State) : Host.Outcome State Fault Refusal :=
  match s.landing with
  | some m => .next (if m.due s.time.cycle then s.land m else s)
  | none => .next s

end Sys2Proof.Machine
end

