-- ==== Sys2Proof/Machine/VecArith.lean ====
section
/-! DEFINITION. Element-wise vector arithmetic: floating point (R180, R182), transcendentals (R183), integer and logic
(R184, R185). -/

namespace Sys2Proof.Machine

/-- An element-wise instruction of one format: A, and B and D where they are sources, checked against the word's format
(`bf` for B); the result in that format. `f` receives the patterns of A, B and D. -/
def arith (w : VWord) (useB useD : Bool) (bf : Fmt) (f : Rm → Nat → Nat → Nat → FEnv → Nat × FEnv) (s : State) :
    Host.Outcome State Fault Refusal :=
  let s := s.breaking
  let fm := w.fmt
  let act := (s.ctx s.turn).regs.actives w.k (elemCount fm)
  let srcs : List VSrc := [⟨1, w.a, some fm, fm, .raw, act, false⟩]
    ++ (if useB then [⟨2, w.b, some bf, bf, .raw, act, false⟩] else [])
    ++ (if useD then [⟨0, w.d, some fm, fm, .raw, act, false⟩] else [])
  let rm := Rm.ofCode w.rm
  s.finish (s.vectorOp srcs (some ⟨w.d, fm, fm, act, false, 128⟩)
    (fun v env => mapElems (fun i => f rm (v 0 i) (if useB then v 1 i else 0) (if useD then v (if useB then 2 else 1) i else 0))
      act env)
    (fun s vals => s.writeElems s.turn ⟨w.d, fm, fm, act, false, 128⟩ vals))

/-! ### Floating point (R182) -/

/-- A rounded operation of two sources. -/
def float2 (w : VWord) (f : Fmt → Rm → FVal → FVal → FEnv → Nat × FEnv) (s : State) :=
  arith w true false w.fmt (fun rm a b _ env => f w.fmt rm (decodeF w.fmt a) (decodeF w.fmt b) env) s

/-- A fused operation: ±A × B ± D. -/
def fused (w : VWord) (negP negD : Bool) (s : State) :=
  arith w true true w.fmt (fun rm a b d env =>
    let av := decodeF w.fmt a
    let dv := decodeF w.fmt d
    fmaF w.fmt rm (if negP then av.neg else av) (decodeF w.fmt b) (if negD then dv.neg else dv) env) s

def execVadd (w : VWord) (s : State) := float2 w addF s
def execVsub (w : VWord) (s : State) := float2 w (fun f rm a b env => addF f rm a b.neg env) s
def execVmul (w : VWord) (s : State) := float2 w mulF s
def execVdiv (w : VWord) (s : State) := float2 w divF s
def execVfma (w : VWord) (s : State) := fused w false false s
def execVfms (w : VWord) (s : State) := fused w false true s
def execVfnma (w : VWord) (s : State) := fused w true false s
def execVfnms (w : VWord) (s : State) := fused w true true s
def execVmax (w : VWord) (s : State) := float2 w (fun f _ a b env => (exactBits f (a.max b), env)) s
def execVmin (w : VWord) (s : State) := float2 w (fun f _ a b env => (exactBits f (a.min b), env)) s
def execVsqrt (w : VWord) (s : State) :=
  arith w false false w.fmt (fun rm a _ _ env => sqrtF w.fmt rm (decodeF w.fmt a) env) s

/-- An operation on the sign bit alone; a NaN A gives the canonical NaN (R182). -/
def signOp (w : VWord) (useB : Bool) (f : Bool → Bool → Bool) (s : State) :=
  arith w useB false w.fmt (fun _ a b _ env =>
    let sb := 2 ^ (fmtBits w.fmt - 1)
    (if decodeF w.fmt a = .nan then canonNan w.fmt
      else a % sb + (if f (decide (sb ≤ a)) (decide (sb ≤ b)) then sb else 0), env)) s

def execVabs (w : VWord) (s : State) := signOp w false (fun _ _ => false) s
def execVneg (w : VWord) (s : State) := signOp w false (fun a _ => !a) s
def execVcpsgn (w : VWord) (s : State) := signOp w true (fun _ b => b) s

/-! ### Transcendentals (R183) -/

def transOp (t : TFun) (w : VWord) (s : State) :=
  arith w false false w.fmt (fun _ a _ _ env => transc t w.fmt a env) s

def execVexp2 (w : VWord) (s : State) := transOp .exp2 w s
def execVlog2 (w : VWord) (s : State) := transOp .log2 w s
def execVrcp (w : VWord) (s : State) := transOp .rcp w s
def execVrsq (w : VWord) (s : State) := transOp .rsq w s
def execVsigm (w : VWord) (s : State) := transOp .sigm w s
def execVtanh (w : VWord) (s : State) := transOp .tanh w s

/-! ### Integer and logic (R184) -/

/-- The integer that a pattern of an integer format holds (R17). -/
def intVal (f : Fmt) (x : Nat) : Int :=
  match f with
  | .uint8 => (x % 256 : Nat)
  | .int8 => (BitVec.ofNat 8 x).toInt
  | .int16 => (BitVec.ofNat 16 x).toInt
  | _ => (BitVec.ofNat 32 x).toInt

/-- Wrap modulo 2^(8w), or clamp to the format's range and set SAT. -/
def intRes (f : Fmt) (sat : Bool) (v : Int) (env : FEnv) : Nat × FEnv :=
  let (lo, hi) := intRange f
  if sat && decide (v < lo) then (intBits f lo, env.raise fSAT)
  else if sat && decide (hi < v) then (intBits f hi, env.raise fSAT)
  else (intBits f v, env)

/-- An integer operation: `g` receives A and B as integers, their patterns, and the width in bits. -/
def intOp (w : VWord) (useB : Bool) (g : Int → Int → Nat → Nat → Nat → Int) (s : State) :=
  arith w useB false w.fmt (fun _ a b _ env =>
    intRes w.fmt (w.flags.getLsbD 0) (g (intVal w.fmt a) (intVal w.fmt b) a b (fmtBits w.fmt)) env) s

def execViadd (w : VWord) (s : State) := intOp w true (fun a b _ _ _ => a + b) s
def execVisub (w : VWord) (s : State) := intOp w true (fun a b _ _ _ => a - b) s
def execVimul (w : VWord) (s : State) := intOp w true (fun a b _ _ _ => a * b) s
def execVimulh (w : VWord) (s : State) := intOp w true (fun a b _ _ n => (a * b) / (2 ^ n : Nat)) s
def execVimin (w : VWord) (s : State) := intOp w true (fun a b _ _ _ => if a ≤ b then a else b) s
def execVimax (w : VWord) (s : State) := intOp w true (fun a b _ _ _ => if a ≤ b then b else a) s
def execViminu (w : VWord) (s : State) := intOp w true (fun _ _ a b _ => (min a b : Nat)) s
def execVimaxu (w : VWord) (s : State) := intOp w true (fun _ _ a b _ => (max a b : Nat)) s
def execVand (w : VWord) (s : State) := intOp w true (fun _ _ a b _ => (a &&& b : Nat)) s
def execVor (w : VWord) (s : State) := intOp w true (fun _ _ a b _ => (a ||| b : Nat)) s
def execVxor (w : VWord) (s : State) := intOp w true (fun _ _ a b _ => (a ^^^ b : Nat)) s
def execVshl (w : VWord) (s : State) := intOp w true (fun a _ _ b n => a * (2 ^ (b % n) : Nat)) s
def execVshr (w : VWord) (s : State) := intOp w true (fun _ _ a b n => (a >>> (b % n) : Nat)) s
def execVsra (w : VWord) (s : State) := intOp w true (fun a _ _ b n => a / (2 ^ (b % n) : Nat)) s
def execViabs (w : VWord) (s : State) := intOp w false (fun a _ _ _ _ => (a.natAbs : Int)) s

/-- VIDOT4 (R185): mask bit j governs output j; each output reads four pairs and its own INT32. -/
def execVidot4 (w : VWord) (s : State) : Host.Outcome State Fault Refusal :=
  let s := s.breaking
  let fa := w.fmt
  let fb : Fmt := if w.flags.getLsbD 0 then (if fa = .int8 then .uint8 else .int8) else fa
  let outs := (s.ctx s.turn).regs.actives w.k 32
  let ins := outs.flatMap (fun j => [4 * j, 4 * j + 1, 4 * j + 2, 4 * j + 3])
  let dst : VDst := ⟨w.d, .int32, .int32, outs, false, 128⟩
  s.finish (s.vectorOp
    [⟨1, w.a, some fa, fa, .raw, ins, false⟩, ⟨2, w.b, some fb, fb, .raw, ins, false⟩,
      ⟨0, w.d, some .int32, .int32, .raw, outs, false⟩] (some dst)
    (fun v env => mapElems (fun j env =>
      (intBits .int32 ((List.range 4).foldl (fun t u => t + intVal fa (v 0 (4 * j + u)) * intVal fb (v 1 (4 * j + u)))
        (intVal .int32 (v 2 j))), env)) outs env)
    (fun s vals => s.writeElems s.turn dst vals))

end Sys2Proof.Machine
end

