-- ==== Sys2Proof/Machine/VecMove.lean ====
section
/-! DEFINITION. Compares, selects and masks (R192 to R194), reductions across lanes (R34, R195), and the instructions
that move elements (R193, R196). -/

namespace Sys2Proof.Machine

/-! ### Compares and masks -/

/-- The condition of VCMP on two values (R192). -/
def condHolds (c : BitVec 3) (a b : FVal) : Bool :=
  let un := a == .nan || b == .nan
  let d := a.cmp b
  match c.toNat with
  | 0 => !un && d == 0
  | 1 => un || d != 0
  | 2 => !un && decide (d < 0)
  | 3 => !un && decide (d ≤ 0)
  | 4 => !un && decide (0 < d)
  | 5 => !un && decide (0 ≤ d)
  | 6 => un
  | _ => !un

/-- The bits of a list of positions. -/
def maskOf (l : List Nat) : BitVec 128 := l.foldl (fun m i => m ||| BitVec.ofNat 128 (2 ^ i)) 0

/-- The number of a mask operand. -/
def maskNo : Operand → Nat
  | .k n => n.toNat
  | _ => 0

def State.setMaskOp (s : State) (o : Operand) (v : BitVec 128) : State :=
  s.onCtx s.turn (·.onRegs (fun r => r.setMask (maskNo o) v))

/-- VCMP (R192). -/
def execVcmp (w : VWord) (s : State) : Host.Outcome State Fault Refusal :=
  let s := s.breaking
  let f := w.fmt
  let act := (s.ctx s.turn).regs.actives w.k (elemCount f)
  s.finish (s.vectorOp [⟨1, w.a, some f, f, .raw, act, false⟩, ⟨2, w.b, some f, f, .raw, act, false⟩] none
    (fun v env => (maskOf (act.filter (fun i => condHolds w.rm (decodeF f (v 0 i)) (decodeF f (v 1 i)))), env))
    (fun s m => s.setMaskOp w.d m))

/-- A mask operation of two masks (R194). -/
def maskOp (w : VWord) (f : BitVec 128 → BitVec 128 → BitVec 128) (s : State) : Host.Outcome State Fault Refusal :=
  let s := s.breaking
  let r := (s.ctx s.turn).regs
  .next ((s.setMaskOp w.d (f (r.mask (maskNo w.a)) (r.mask (maskNo w.b)))).retire 12)

def execKand (w : VWord) (s : State) := maskOp w (· &&& ·) s
def execKor (w : VWord) (s : State) := maskOp w (· ||| ·) s
def execKxor (w : VWord) (s : State) := maskOp w (· ^^^ ·) s
def execKnot (w : VWord) (s : State) := maskOp w (fun a _ => ~~~a) s

/-- KMOV (R194): a copy of a mask, or 128 bits from a pair of scalar registers. -/
def execKmov (w : VWord) (s : State) : Host.Outcome State Fault Refusal :=
  let s := s.breaking
  let x := s.ctx s.turn
  let v : BitVec 128 := match w.a with
    | .s n => (x.rs n).setWidth 128 ||| ((x.rs (sregAdd n 1)).setWidth 128 <<< 64)
    | o => x.regs.mask (maskNo o)
  .next ((s.setMaskOp w.d v).retire 12)

/-- KPOP (R194). -/
def execKpop (w : VWord) (s : State) : Host.Outcome State Fault Refusal :=
  let s := s.breaking
  let x := s.ctx s.turn
  let act := x.regs.actives w.k 128
  let dst : VDst := ⟨w.d, .int32, .int32, act, false, 128⟩
  let c := onesBelow 128 (x.regs.mask (maskNo w.a)).toNat
  s.finish (s.vectorOp [] (some dst) (fun _ env => (act.map (fun i => (i, c)), env))
    (fun s vals => s.writeElems s.turn dst vals))

/-! ### Reductions (R34, R195) -/

/-- One level of the tree: pairs combined, a lone child passed on. -/
def treeLevel (f : Nat → Nat → FEnv → Nat × FEnv) : List (Option Nat) → FEnv → List (Option Nat) × FEnv
  | some a :: some b :: r, env =>
    let (v, env) := f a b env
    let (l, env) := treeLevel f r env
    (some v :: l, env)
  | some a :: none :: r, env => let (l, env) := treeLevel f r env; (some a :: l, env)
  | none :: x :: r, env => let (l, env) := treeLevel f r env; (x :: l, env)
  | x, env => (x, env)

/-- The tree of R34: seven levels at most. -/
def treeOf (f : Nat → Nat → FEnv → Nat × FEnv) : Nat → List (Option Nat) → FEnv → Option Nat × FEnv
  | 0, l, env => (l.headD none, env)
  | n + 1, l, env =>
    let (l, env) := treeLevel f l env
    treeOf f n l env

/-- A reduction: `pre` on each element, `f` at each node, the identity where no lane takes part (R34, R195). -/
def reduceOp (w : VWord) (out : Fmt) (pre : Nat → Nat) (f : Nat → Nat → FEnv → Nat × FEnv) (ident : Nat)
    (s : State) : Host.Outcome State Fault Refusal :=
  let s := s.breaking
  let fm := w.fmt
  let n := elemCount fm
  let act := (s.ctx s.turn).regs.actives w.k n
  let dst : VDst := ⟨w.d, out, out, List.range n, false, 128⟩
  s.finish (s.vectorOp [⟨1, w.a, some fm, fm, .raw, act, false⟩] (some dst)
    (fun v env =>
      let lanes := (List.range n).map (fun i => if act.contains i then some (pre (v 0 i)) else none)
      let (r, env) := treeOf f 7 lanes env
      let r := r.getD ident
      let r := if out = fm && !isInt fm && decodeF fm r == .nan then canonNan fm else r
      ((List.range n).map (fun i => (i, r)), env))
    (fun s vals => s.writeElems s.turn dst vals))

def execVrsum (w : VWord) (s : State) :=
  reduceOp w w.fmt id (fun a b env => addF w.fmt (Rm.ofCode w.rm) (decodeF w.fmt a) (decodeF w.fmt b) env) 0 s
def execVrmax (w : VWord) (s : State) :=
  reduceOp w w.fmt id (fun a b env => (exactBits w.fmt ((decodeF w.fmt a).max (decodeF w.fmt b)), env))
    (exactBits w.fmt (.inf true)) s
def execVrmin (w : VWord) (s : State) :=
  reduceOp w w.fmt id (fun a b env => (exactBits w.fmt ((decodeF w.fmt a).min (decodeF w.fmt b)), env))
    (exactBits w.fmt (.inf false)) s
def execVramax (w : VWord) (s : State) :=
  reduceOp w w.fmt (· % 2 ^ (fmtBits w.fmt - 1))
    (fun a b env => (exactBits w.fmt ((decodeF w.fmt a).max (decodeF w.fmt b)), env)) 0 s
def execVriadd (w : VWord) (s : State) :=
  reduceOp w .int32 (fun a => (BitVec.ofInt 32 (intVal w.fmt a)).toNat) (fun a b env => ((a + b) % 2 ^ 32, env)) 0 s

/-! ### Moving elements -/

/-- Where each written element comes from: its position, source 0 (A) or 1 (B), the position there. -/
abbrev Plan := List (Nat × Nat × Nat)

/-- The positions that a plan reads of a source, ascending. -/
def Plan.reads (p : Plan) (j n : Nat) : List Nat :=
  (List.range n).filter (fun i => p.any (fun e => e.2.1 == j && e.2.2 == i))

/-- Move elements under a plan; with RAW the destination takes the tag of the first register source (R14). -/
def moveOp (w : VWord) (useB : Bool) (plan : Ctx → Nat → List Nat → Plan) (s : State) :
    Host.Outcome State Fault Refusal :=
  let s := s.breaking
  let x := s.ctx s.turn
  let f := w.fmt
  let n := elemCount f
  let p := plan x n (x.regs.actives w.k n)
  let want := if f = .raw then none else some f
  let tag := if f = .raw then ((x.regs.tagOf w.a).or (if useB then x.regs.tagOf w.b else none)).getD .raw else f
  let dst : VDst := ⟨w.d, f, tag, p.map (·.1), false, 128⟩
  s.finish (s.vectorOp (⟨1, w.a, want, f, .raw, p.reads 0 n, false⟩
      :: (if useB then [⟨2, w.b, want, f, .raw, p.reads 1 n, false⟩] else [])) (some dst)
    (fun v env => (p.map (fun e => (e.1, v e.2.1 e.2.2)), env))
    (fun s vals => s.writeElems s.turn dst vals))

/-- The scalar that a B operand names. -/
def scalarOf (x : Ctx) : Operand → Nat
  | .s n => (x.rs n).toNat
  | _ => 0

/-- The whole lane `i` that a B operand of kind v names. -/
def laneOf (x : Ctx) (o : Operand) (i : Nat) : Nat :=
  match o with
  | .v n => (x.regs.lane n.toNat i).toNat
  | _ => 0

def enumerate (l : List Nat) : List (Nat × Nat) := (List.range l.length).zip l

def execVsel (w : VWord) (s : State) :=
  moveOp w true (fun _ n act => (List.range n).map (fun i => (i, if act.contains i then 0 else 1, i))) s
def execVmov (w : VWord) (s : State) := moveOp w false (fun _ _ act => act.map (fun i => (i, 0, i))) s
def execVbcast (w : VWord) (s : State) :=
  moveOp w false (fun x n act => act.map (fun i => (i, 0, scalarOf x w.b % n))) s
def execVperm (w : VWord) (s : State) :=
  moveOp w false (fun x n act => act.map (fun i => (i, 0, laneOf x w.b i % n))) s
def execVrot (w : VWord) (s : State) :=
  moveOp w false (fun x n act => act.map (fun i => (i, 0, (i + scalarOf x w.b) % n))) s
def execVcomp (w : VWord) (s : State) :=
  moveOp w false (fun _ _ act => (enumerate act).map (fun e => (e.1, 0, e.2))) s
def execVexpd (w : VWord) (s : State) :=
  moveOp w false (fun _ _ act => (enumerate act).map (fun e => (e.2, 0, e.1))) s
def execVzip (w : VWord) (s : State) :=
  moveOp w true (fun _ n act => act.map (fun i => (i, i % 2, w.flags.toNat % 2 * (n / 2) + i / 2))) s
def execVuzp (w : VWord) (s : State) :=
  moveOp w true (fun _ n act => act.map (fun i =>
    let o := w.flags.toNat % 2
    if i < n / 2 then (i, 0, 2 * i + o) else (i, 1, 2 * (i - n / 2) + o))) s

/-- VIOTA (R196). -/
def execViota (w : VWord) (s : State) : Host.Outcome State Fault Refusal :=
  let s := s.breaking
  let f := w.fmt
  let act := (s.ctx s.turn).regs.actives w.k (elemCount f)
  let dst : VDst := ⟨w.d, f, f, act, false, 128⟩
  s.finish (s.vectorOp [] (some dst) (fun _ env => (act.map (fun i => (i, exactBits f (FVal.ofNat i))), env))
    (fun s vals => s.writeElems s.turn dst vals))

end Sys2Proof.Machine
end

