-- ==== Sys2Proof/Machine/VecMem.lean ====
section
/-! DEFINITION. Vector memory access: VLD, VST, VLDX and VSTX (R197, R198). -/

namespace Sys2Proof.Machine

/-- The elements of a vector memory instruction: position and address. -/
abbrev Elems := List (Nat × Nat)

/-- The base register of an address, pair or base operand. -/
def baseReg : Operand → SReg
  | .s n => n
  | _ => 0

/-- Addresses of VLD and VST: base plus a signed byte stride, 0 meaning the element width (R197). -/
def strided (x : Ctx) (o : Operand) (w : Nat) (act : List Nat) : Elems :=
  let b := x.rs (baseReg o)
  let st := x.rs (sregAdd (baseReg o) 1)
  let st := if st = 0 then BitVec.ofNat 64 w else st
  act.map (fun i => (i, (b + BitVec.ofNat 64 i * st).toNat))

/-- Addresses of VLDX and VSTX: base plus a signed 32-bit index times the element width. -/
def indexed (x : Ctx) (base idx : Operand) (w : Nat) (act : List Nat) : Elems :=
  let b := x.rs (baseReg base)
  act.map (fun i => (i, (b + (BitVec.ofNat 32 (laneOf x idx i)).signExtend 64 * BitVec.ofNat 64 w).toNat))

/-- May the instruction access these bytes (R70, R198)? -/
def vecSpaceOk (mcast : Bool) (a w : Nat) : Bool :=
  rangeIn .memory a w || rangeIn .localSp a w || (mcast && rangeIn .mcast a w && mcastMask a != 0)

/-- Steps 1 to 3 of R198: spaces, alignment, one space. -/
def vecAddrTrap (mcast : Bool) (w : Nat) (els : Elems) : Option TrapInfo :=
  match els.find? (fun e => !vecSpaceOk mcast e.2 w) with
  | some e => some (tAddress e.2)
  | none => match els.find? (fun e => e.2 % w ≠ 0) with
    | some e => some (tMisaligned e.2)
    | none => match els with
      | [] => none
      | e :: r => (r.find? (fun f => spaceOf f.2 ≠ spaceOf e.2)).map (fun f => tAddress f.2)

/-- Translate every element before any is accessed (R198 step 4): position, virtual and physical address. -/
def State.trElems (s : State) (core : Nat) (write : Bool) : Elems → Except Stop (List (Nat × Nat × Nat))
  | [] => .ok []
  | (i, a) :: r => do
    let pa ← s.tr core a write (if write then 2 else 1)
    let rest ← s.trElems core write r
    .ok ((i, a, pa) :: rest)

/-- Do all the elements hit bytes of L1 without an error? -/
def State.elemsHit (s : State) (core w : Nat) (els : List (Nat × Nat × Nat)) : Bool :=
  els.all (fun e => match s.l1Read core (s.pasidOf core true) e.2.1 w with
    | .hit _ => true
    | _ => false)

/-- VLD and VLDX, once the addresses are known. With an element that misses L1 the load retires, counts as outstanding
and delivers nothing until all of its data has returned (R89, R90, R198). -/
def State.vecLoad (s : State) (w : VWord) (els : Elems) : Res :=
  let core := s.turn
  let x := s.ctx core
  let wd := fmtBytes w.fmt
  let dst : VDst := ⟨w.d, w.fmt, w.fmt, els.map (·.1), false, 128⟩
  if x.regs.reads dst.words [] then .ok ((s.consumeLocal core 0).retire 12)
  else match x.regs.checkDst w.d w.fmt with
  | some t => trapE s t
  | none => match vecAddrTrap false wd els with
    | some t => trapE s t
    | none =>
      if els.all (fun e => rangeIn .localSp e.2 wd) then
        let st := (s.cluster (clusterOf core)).store
        if els.any (fun e => s.mcastPending core (spOff e.2) wd) then waitE s
        else if els.any (fun e => st.spBadIn (spOff e.2) wd) then .ok ((s.consumeLocal core 0).retire 12)
        else .ok ((s.writeElems core dst (els.map (fun e => (e.1, leNat (st.spGet (spOff e.2) wd))))).retire 12)
      else do
        let tr ← s.trElems core false els
        let p : PendLoad := ⟨x.pc, 0, 0, wd, false, 0, s.pasidOf core true, s.gtagOf core, some ⟨w.d, w.fmt, tr⟩⟩
        if s.elemsHit core wd tr then .ok ((s.completeVec core p ⟨w.d, w.fmt, tr⟩).retire 12)
        else if x.loads = 0xFFFF then waitE s
        else .ok ((s.onCtx core (fun c => { c with loads := c.loads + 1, pend := c.pend ++ [p] })).retire 12)

/-- VST and VSTX, once the addresses are known. DEDUCED (assumption 27): their checks (R198) come before those of a data
operand in scratchpad (R179), and its tag before both. -/
def State.vecStore (s : State) (w : VWord) (mcast : Bool) (els : Elems) : Res :=
  let core := s.turn
  let x := s.ctx core
  let f := w.fmt
  let wd := fmtBytes f
  let src : VSrc := ⟨1, w.a, if f = .raw then none else some f, f, .raw, els.map (·.1), false⟩
  let uses := x.spUses w.a wd false src.pos
  if x.regs.reads (tagWords w.a) [] then .ok ((s.consumeLocal core 0).retire 12)
  else match src.want.bind (x.regs.checkSrc 1 w.a) with
  | some t => trapE s t
  | none => match (vecAddrTrap mcast wd els).or ((spCheck false uses).or (spCheck true uses)) with
    | some t => trapE s t
    | none => do
      let inMemory := els.any (fun e => rangeIn .memory e.2 wd)
      let inMcast := els.any (fun e => rangeIn .mcast e.2 wd)
      let tr ← if inMemory then s.trElems core true els else .ok []
      if uses.any (fun u => s.mcastPending core (spOff u.1) u.2)
          || (inMemory && !x.pend.isEmpty) || (!inMemory && !inMcast && !els.isEmpty && s.mcastOut core) then waitE s
      else match (streamNeeds [src]).findSome? (fun e => s.streamStop core e.1 e.2) with
        | some stop => .error stop
        | none =>
          let st := (s.cluster (clusterOf core)).store
          let bad := uses.any (fun u => st.spBadIn (spOff u.1) u.2)
            || (!inMemory && !inMcast && decide (wd < 8) && els.any (fun e => st.spBadIn (spOff e.2) wd))
            || x.regs.reads (src.words x) (streamNeeds [src])
          if bad then .ok ((s.consumeLocal core 0).retire 12)
          else if inMcast && (s.ctx core).stores == 0xFFFF then waitE s
          else
            let (s1, popped) := s.popAll core [src]
            let bytes (i : Nat) : List Byte := leBytes wd (s.srcValue core x [src] popped 0 i)
            let s2 :=
              if inMemory then
                tr.foldl (fun s e => s.storeLine core (s.pasidOf core true) e.2.1 e.2.2 (bytes e.1)) s1
              else if inMcast then
                s1.mcastAdd core (els.map (fun e => (mcastMask e.2, mcastOff e.2, bytes e.1)))
              else els.foldl (fun s e => s.onStore (clusterOf core) (·.spPut (spOff e.2) (bytes e.1))) s1
            .ok (s2.retire 12)

/-- The active elements of a vector memory word. -/
def State.vecActive (s : State) (w : VWord) : List Nat := (s.ctx s.turn).regs.actives w.k (elemCount w.fmt)

def execVld (w : VWord) (s : State) : Host.Outcome State Fault Refusal :=
  let s := s.breaking
  s.finish (s.vecLoad w (strided (s.ctx s.turn) w.a (fmtBytes w.fmt) (s.vecActive w)))

def execVldx (w : VWord) (s : State) : Host.Outcome State Fault Refusal :=
  let s := s.breaking
  s.finish (s.vecLoad w (indexed (s.ctx s.turn) w.a w.b (fmtBytes w.fmt) (s.vecActive w)))

def execVst (w : VWord) (s : State) : Host.Outcome State Fault Refusal :=
  let s := s.breaking
  s.finish (s.vecStore w true (strided (s.ctx s.turn) w.b (fmtBytes w.fmt) (s.vecActive w)))

def execVstx (w : VWord) (s : State) : Host.Outcome State Fault Refusal :=
  let s := s.breaking
  s.finish (s.vecStore w false (indexed (s.ctx s.turn) w.b w.d (fmtBytes w.fmt) (s.vecActive w)))

end Sys2Proof.Machine
end

