-- ==== Sys2Proof/Machine/Issue.lean ====
section
/-! DEFINITION. What stands between a fetched word and its execution: the registers that each instruction reads and
writes, the interlocks of R149 and R157, the register errors of R148, and the fetch of a word (R37 to R40, R166). -/

namespace Sys2Proof.Machine

/-! ### Registers -/

/-- The scalar registers that an instruction word reads, and those that it writes. A vector or matrix word's are its
index, base, address and value registers. -/
def operandSRegs : Operand → List SReg
  | .row _ ix | .col _ ix | .diag _ ix => [ix]
  | .sp base _ => [base]
  | .s n => [n]
  | _ => []

def group4 (a : SReg) : List SReg := [a, sregAdd a 1, sregAdd a 2, sregAdd a 3]

/-- The scalar source registers of a scalar word. -/
def scalarReads : Instr → List SReg
  | .add _ a b | .sub _ a b | .and _ a b | .or _ a b | .xor _ a b | .andn _ a b | .sll _ a b | .srl _ a b
  | .sra _ a b | .slt _ a b | .sltu _ a b | .min _ a b | .max _ a b | .minu _ a b | .maxu _ a b | .mul _ a b
  | .mulh _ a b | .mulhu _ a b | .div _ a b | .divu _ a b | .rem _ a b | .remu _ a b => [a, b]
  | .clz _ a | .ctz _ a | .popc _ a | .bswap _ a | .sextb _ a | .sexth _ a | .sextw _ a => [a]
  | .addi _ a _ | .andi _ a _ | .ori _ a _ | .xori _ a _ | .slti _ a _ | .sltiu _ a _ | .slli _ a _ | .srli _ a _
  | .srai _ a _ | .jalr _ a _ => [a]
  | .beq a b _ | .bne a b _ | .blt a b _ | .bge a b _ | .bltu a b _ | .bgeu a b _ => [a, b]
  | .ldb _ a _ | .ldbu _ a _ | .ldh _ a _ | .ldhu _ a _ | .ldw _ a _ | .ldwu _ a _ | .ldd _ a _ => [a]
  | .stb d a _ | .sth d a _ | .stw d a _ | .std d a _ => [d, a]
  | .pref a | .alb a => [a]
  | .cflush a b | .cinv a b | .czero a b => [a, b]
  | .amoswap _ a b | .amoadd _ a b | .amoand _ a b | .amoor _ a b | .amoxor _ a b | .amomin _ a b | .amomax _ a b
  | .amominu _ a b | .amomaxu _ a b | .amofadds _ a b | .amofaddd _ a b => [a, b]
  | .amocas _ a b | .sobind _ a b => [a, b, sregAdd b 1]
  | .redadd a b | .redand a b | .redor a b | .redxor a b | .redmin a b | .redmax a b | .redminu a b | .redmaxu a b
  | .redfadds a b | .redfaddd a b => [a, b]
  | .acq _ a | .mbwait _ a => [a]
  | .rel _ a b | .bcwait _ a b => [a, b]
  | .mback a b | .spawn a b | .jdec a b => [a, b]
  | .waittl _ b => [b]
  | .cpy _ a | .cpyb _ a | .gath _ a | .scat _ a | .wstr _ a | .dload _ a | .fxput _ a | .fxred _ a => group4 a
  | .stepwt _ a | .fxstat _ a | .wfe _ a | .pdone _ a => [a]
  | .csrw _ a _ | .csrs _ a _ | .csrc _ a _ => [a]
  | .msave a b | .mrstr a b => [a, b]
  | _ => []

/-- The scalar destination of the words that may issue while a load is still to arrive. -/
def scalarWrites : Instr → List SReg
  | .add d _ _ | .sub d _ _ | .and d _ _ | .or d _ _ | .xor d _ _ | .andn d _ _ | .sll d _ _ | .srl d _ _
  | .sra d _ _ | .slt d _ _ | .sltu d _ _ | .min d _ _ | .max d _ _ | .minu d _ _ | .maxu d _ _ | .mul d _ _
  | .mulh d _ _ | .mulhu d _ _ | .div d _ _ | .divu d _ _ | .rem d _ _ | .remu d _ _ => [d]
  | .clz d _ | .ctz d _ | .popc d _ | .bswap d _ | .sextb d _ | .sexth d _ | .sextw d _ => [d]
  | .addi d _ _ | .andi d _ _ | .ori d _ _ | .xori d _ _ | .slti d _ _ | .sltiu d _ _ | .slli d _ _ | .srli d _ _
  | .srai d _ _ | .jalr d _ _ => [d]
  | .lui d _ | .aupc d _ | .jal d _ => [d]
  | .ldb d _ _ | .ldbu d _ _ | .ldh d _ _ | .ldhu d _ _ | .ldw d _ _ | .ldwu d _ _ | .ldd d _ _ => [d]
  | .csrr d _ | .csrw d _ _ | .csrs d _ _ | .csrc d _ _ => [d]
  | .tlrd d _ _ | .mstat d | .fxstat d _ | .tcoord d | .gridid d => [d]
  | _ => []

/-- May the word issue while a load of the task is still to arrive: is it of majors 0x00 to 0x0C, a load, or a word that a
rule says does not wait (R130, R224, R307, R331)? -/
def passesLoads : Instr → Bool
  | .add .. | .sub .. | .and .. | .or .. | .xor .. | .andn .. | .sll .. | .srl .. | .sra .. | .slt .. | .sltu ..
  | .min .. | .max .. | .minu .. | .maxu .. | .mul .. | .mulh .. | .mulhu .. | .div .. | .divu .. | .rem .. | .remu ..
  | .clz .. | .ctz .. | .popc .. | .bswap .. | .sextb .. | .sexth .. | .sextw ..
  | .addi .. | .andi .. | .ori .. | .xori .. | .slti .. | .sltiu .. | .slli .. | .srli .. | .srai .. | .lui ..
  | .aupc .. | .beq .. | .bne .. | .blt .. | .bge .. | .bltu .. | .bgeu .. | .jal .. | .jalr ..
  | .ldb .. | .ldbu .. | .ldh .. | .ldhu .. | .ldw .. | .ldwu .. | .ldd ..
  | .tlrd .. | .mstat .. | .fxstat .. | .tcoord .. | .gridid .. => true
  | _ => false

/-- The four words of a mask register. -/
def maskWords (n : Nat) : List BadReg := (List.range 4).map (.k n)

/-- The lanes that an index operand gives. -/
def indexWords (x : Ctx) (w : VWord) : Operand → List BadReg
  | .v n => (x.regs.actives w.k 128).map (.v n.toNat)
  | _ => []

/-- The words with the tags that a CSR shows (R148, R152). -/
def csrTagWords : Csr → List BadReg
  | .vtaglo => (List.range 16).map (.v · 0)
  | .vtaghi => (List.range 16).map (fun n => .v (16 + n) 0)
  | .mtag => (List.range 8).flatMap (fun n => .m n 0 :: (List.range 4).map (.q n))
  | _ => []

/-- The CSR of a CSR word. No read of one waits for an engine, the array or a load (R174). -/
def csrOf : Instr → Option Csr
  | .csrr _ r | .csrw _ _ r | .csrs _ _ r | .csrc _ _ r => some r
  | _ => none

/-- The register words that an instruction reads at its core before its sources' elements, which `State.vectorOp` looks
at (R148): scalar registers, masks, indexes and the tags that a CSR shows. A matrix word's tiles are read by the array. -/
def readRegs (x : Ctx) (i : Instr) : List BadReg :=
  let s (l : List SReg) : List BadReg := l.flatMap (fun n => [.s n.toNat 0, .s n.toNat 1])
  match i.vparts, i.mparts with
  | some (op, w), _ =>
    let masks : List BadReg := [w.a, w.b].flatMap (fun o => match o with
      | .k n => maskWords n.toNat
      | _ => [])
    let ix := match op with
      | .perm | .ldx => indexWords x w w.b
      | .stx => indexWords x w w.d
      | _ => []
    let pair : List SReg := match op with
      | .ld => [sregAdd (baseReg w.a) 1]
      | .st => [sregAdd (baseReg w.b) 1]
      | _ => []
    let dIx : List SReg := match w.d with
      | .s _ => []
      | o => operandSRegs o
    maskWords w.k.toNat ++ masks ++ ix ++ s (operandSRegs w.a ++ operandSRegs w.b ++ dIx ++ pair)
  | none, some (_, w) =>
    maskWords w.rowMask.toNat ++ maskWords w.colMask.toNat
      ++ s [w.aFirst, w.aSecond, w.bFirst, w.bSecond, w.koff, w.dparam, w.waitCp, w.waitWs]
  | none, none => s (scalarReads i) ++ ((csrOf i).map csrTagWords).getD []

/-! ### Interlocks (R149, R157) -/

/-- The tile registers that a matrix instruction in the queue reads or writes. -/
def MxInstr.tilesUsed (m : MxInstr) : List Nat :=
  match m.op with
  | some .mma => (MWord.tileSrcs .mma m.word).map (·.1)
  | some .mld | some .acpy | some .acpyin => [m.word.aTile.toNat]
  | _ => []

/-- Does the queue of the core's array hold an instruction of the core's member that uses a tile register, or that may
write one by STT? -/
def State.tileBusy (s : State) (core tile : Nat) : Bool :=
  s.sttPending core
    || (s.cluster (clusterOf core)).array.queue.any (fun m => m.member == core % 4 && m.tilesUsed.contains tile)

/-- Must a vector word wait for the array (R149)? -/
def State.tileHazard (s : State) (core : Nat) (i : Instr) : Bool :=
  match i.vparts with
  | some (_, w) => [w.d, w.a, w.b].any (fun o => match tileForm o with
      | some (m, _, _) => s.tileBusy core m
      | none => false)
  | none => false

/-- Does a CSR show the tag of a vector load's destination, which the load is to set (R149)? -/
def showsTag (r : Csr) (d : Operand) : Bool :=
  match r, d with
  | .vtaglo, .v n => decide (n.toNat < 16)
  | .vtaghi, .v n => decide (16 ≤ n.toNat)
  | .mtag, o => isTile o
  | _, _ => false

/-- May the word issue while these loads are still to arrive: is it of majors 0x00 to 0x0C, a load or a CSR word, and
does it touch none of their scalar registers (R89, R157, R174)? -/
def passes (pend : List PendLoad) (i : Instr) : Bool :=
  (passesLoads i || (match csrOf i with
    | some r => !pend.any (fun p => p.vec.any (fun v => showsTag r v.d))
    | none => false))
  && (scalarReads i ++ scalarWrites i).all (fun r => r == 0 || !pend.any (fun p => (match p.vec with
    | some v => operandSRegs v.d
    | none => [p.d]).contains r))

/-- What the interlocks say of an instruction: it issues, it waits, or it reads a register that fails its ECC. -/
inductive Guard where
  | go | wait | bad
  deriving DecidableEq, Repr

/-- The interlocks of a core for a decoded instruction. -/
def State.guard (s : State) (core : Nat) (i : Instr) : Guard :=
  let x := s.ctx core
  if !x.pend.isEmpty && !passes x.pend i then .wait
  else if s.tileHazard core i then .wait
  else if !x.regs.bad.isEmpty && (readRegs x i).any (fun r => x.regs.bad.contains r) then .bad
  else .go

/-! ### Fetch (R37 to R40, R166, R368) -/

/-- The parcel from a core's instruction cache, where that holds the line and the copy is taken (R3; DESIGN CHOICE,
assumption 44). -/
def State.codeCopy (s : State) (core pa : Nat) : Option Parcel :=
  match (s.core core).l1i.find? (fun e => e.1 == pa / 128) with
  | some e =>
    if Config.codeFromCache s.time.tick then some (BitVec.ofNat 32 (leNat ((e.2.drop (pa % 128)).take 4))) else none
  | none => none

/-- A fetched line joins the 512 of the instruction cache's 64 KiB (R3). -/
def Core.putCode (c : Core) (tick line : Nat) (bs : List Byte) : Core :=
  let rest := c.l1i.filter (fun e => e.1 != line)
  let rest := if rest.length < 512 then rest else rest.eraseIdx (Config.l1iVictim tick % 512)
  { c with l1i := (line, bs) :: rest }

/-- One parcel of the instruction stream, at a 64-bit address. -/
def State.fetchParcel (s : State) (core : Nat) (va : Nat) : Except Stop (State × Parcel) :=
  if !rangeIn .memory va 4 then trapE s (tAddress va)
  else
    let pasid := s.pasidOf core false
    match s.translate (.core core) (sliceOf core) pasid va false with
    | .stall s => waitE s
    | .refused s => trapE s (tTranslation 0 va)
    | .ok pa =>
      let team := (s.core core).team
      match s.lineErr (s.secureCore core) team (pa / 128) .read, s.codeCopy core pa with
      | some .abort, _ => trapE s { cause := 0x07, tval := BitVec.ofNat 64 va }
      | _, some p => .ok (s, p)
      | some e, none => waitE (s.meet team (pa / 128) 0 pasid e)
      | none, none =>
        .ok ((s.touchRead pa 4).onCore core (·.putCode s.time.tick (pa / 128) (s.view team (pa / 128 * 128) 128)),
          BitVec.ofNat 32 (leNat (s.view team pa 4)))

/-- The parcels of the word from `va` on: `n` of them. -/
def State.fetchParcels (core : Nat) : Nat → State → Nat → Except Stop (State × List Parcel)
  | 0, s, _ => .ok (s, [])
  | n + 1, s, va => do
    let (s, p) ← s.fetchParcel core va
    let (s, ps) ← State.fetchParcels core n s ((va + 4) % 2 ^ 64)
    .ok (s, p :: ps)

/-- The whole word at the pc: its first parcel gives its length, and every parcel is fetched before it is decoded. -/
def State.fetchWord (s : State) (core : Nat) : Except Stop (State × List Parcel) := do
  let pc := (s.ctx core).pc.toNat
  let (s, p) ← s.fetchParcel core pc
  let (s, ps) ← State.fetchParcels core (wordParcels p.toNat - 1) s ((pc + 4) % 2 ^ 64)
  .ok (s, p :: ps)

/-! ### The boundary (R340, R341, R348) -/

/-- May the core begin an instruction: it runs a member that does not stop for its save, is neither halted nor stopped,
its node has consumed no error (R375), and the module has power and is out of reset? -/
def State.issues (s : State) (core : Nat) : Bool :=
  let c := s.core core
  c.running && c.team != 0 && !s.atSave core && !c.halted && !c.dead && !(s.team c.team).consumed && !s.mgmt.railsOff && !s.mgmt.held

/-- The cause that is taken before the next instruction. During a WFE nothing is: an asynchronous cause first ends the
wait. -/
def State.boundary (s : State) (core : Nat) : Option State :=
  if (s.ctx core).wfe.isSome then none else s.boundaryTrap core

/-- A register that the instruction reads fails its ECC: the node consumes the error, and nothing is written (R148). -/
def State.badRegister (s : State) (core : Nat) : State := s.consumeLocal core 0

/-- The trap that a word which does not decode raises: the failing step and the first parcel (R40, R338, R339). -/
def tUndecoded (step : Nat) (ps : List Parcel) : TrapInfo := tIllegal step ((ps.headD 0).setWidth 64)

end Sys2Proof.Machine
end

