-- ==== Sys2Proof/Machine/Auto.lean ====
section
/-! DEFINITION. What the module does of itself between instructions, in one fixed order: the next event that is ready
and that no clock and no outside choice decides, the retries that no event row names, the passing of time. The events
that a clock, an error or the outside world decides come from the agenda of the state. -/

namespace Sys2Proof.Machine

/-- The first answer over the entries of a table. -/
def Map.first {α β : Type} (m : Map α) (f : Nat → α → Option β) : Option β := m.findSome? (fun e => f e.1 e.2)

/-- What an event of the module's own leaves. -/
abbrev Own := Option (Host.Outcome State Fault Refusal)

/-- Does a translation hold a requester of a slice up? -/
def State.waiting (s : State) (slice : Nat) (r : Req) : Bool := (s.slice slice).ats.any (·.waiters.contains r)

/-! ### For whom -/

/-- The requests of a step are made for a VF; 8 stands for none. What they bring into a cache is allocated in its ways
(R393). -/
def State.as (s : State) (vf : Nat) : State := { s with actor := vf }

/-- The VF of a team, of a cluster's team, of a core's team. -/
def State.vfOfTeam (s : State) (team : Nat) : Nat := if (s.team team).live then (s.team team).vf else 8
def State.vfOfCluster (s : State) (cl : Nat) : Nat := s.vfOfTeam (s.cluster cl).team
def State.vfOfCore (s : State) (core : Nat) : Nat := s.vfOfTeam (s.core core).team

/-- The VF for which an event's requests are made. -/
def State.eventVf (s : State) (i : Instr) : Nat :=
  match i with
  | .matrixAccept k | .loadComplete k _ | .l1Writeback k _ _ | .bankSwitch k | .preemptBudgetExpiry k _ _
  | .takeTrap k => s.vfOfCore k
  | .leaseGrant cl | .tileStep cl | .arrayExecute cl | .runDrain cl | .swapOut cl => s.vfOfCluster cl
  | .engineBurst t _ _ _ | .commandComplete t _ _ _ | .fabricPacketSend t _ | .nodeRollback t | .nodeKill t =>
    s.vfOfTeam t
  | .launchDoorbell vf | .timeTableRelease vf _ | .dispatch _ vf | .recordAging _ vf _ _ | .boundaryMessage vf _
  | .stepApplyComplete vf => vf
  | _ => 8

/-! ### Translation: the host complex answers from its own tables (R366, R369) -/

def State.nextAts (s : State) : Own :=
  Map.first s.slices (fun n sl => sl.ats.head?.map (fun q =>
    let granted := match s.iommuReply q.secure q.pasid q.page with
      | .granted _ _ r w => if q.write then w else r
      | _ => false
    if q.pri then execPageResponse n q.pasid q.page q.write (if granted then .success else .invalid) s
    else execAtsCompletion n q.pasid q.page q.write (s.iommuReply q.secure q.pasid q.page) s))

/-! ### Nodes and cores -/

def State.nextTeamEvent (s : State) : Own :=
  Map.first s.teams (fun n t =>
    if !t.live then none
    else if t.kill then some (execNodeKill n (s.as t.vf))
    else if t.consumed then some (execNodeRollback n (s.as t.vf))
    else match t.cluster with
      | some cl => if t.swap && (s.cluster cl).team == n && s.saveable cl
          && (!t.hsc || (s.freeHandle t.slice).isSome) then some (execSwapOut cl (s.as t.vf)) else none
      | none => none)

/-- A core whose banks are to be exchanged, whose budget or limit is used up, or whose oldest load can complete. -/
def State.nextCoreEvent (s : State) : Own :=
  Map.first s.cores (fun n c =>
    let cl := clusterOf n
    let t := s.team (s.cluster cl).team
    let s := s.as (s.vfOfCore n)
    if c.shadow.isSome && !c.running && (s.cluster cl).team != 0 then some (execBankSwitch n s)
    else if !c.ctx.pend.isEmpty then some (execLoadComplete n 0 s)
    else if (c.budget == some 0 || t.overrun) && !t.consumed && (s.saveable cl || !t.overrun)
        && (s.freeHandle t.slice).isSome then
      some (execPreemptBudgetExpiry n (Config.frozenAt s.time.tick) (Config.frozenAt (s.time.tick + 1)) s)
    else match c.ctx.wfe with
      | some w => if w.limit == 1 && !w.seen.getLsbD 5 then some (execWfeLimitExpiry n s) else none
      | none => none)

/-! ### Engines and fabric commands (R110, R118, R125, R280) -/

def engOf (q : Nat) : Eng := match q with | 0 => .copy | 1 => .gather | _ => .weight

/-- A command of a member's engine queues that can complete. -/
def State.nextComplete (s : State) (team m : Nat) : Own :=
  [0, 1, 2].findSome? (fun q => ((s.member team m).queue q).findSome? (fun c =>
    if c.moved then some (execCommandComplete team m c.kind.tl (BitVec.ofNat 64 c.num) s) else none))

/-- The burst that an engine of a cluster serves next. -/
def State.nextBurst (s : State) (cl : Nat) : Own :=
  let s := s.as (s.vfOfCluster cl)
  [0, 1, 2].findSome? (fun q =>
    (s.engineTurn cl q).bind (fun k =>
      (s.burstIx (k / 4) (k % 4) q).map (fun ix => execEngineBurst (k / 4) (k % 4) (engOf q) ix s)))

def State.nextEngineEvent (s : State) : Own :=
  let live := s.teams.filter (fun e => e.2.live && !e.2.consumed)
  (live.findSome? (fun e => (List.range 4).findSome? (s.nextComplete e.1)))
  |>.or (live.findSome? (fun e => s.nextBurst (s.engineOf e.1)))
  |>.or (s.fabricTurn.map (fun k => execFabricPacketSend (k / 4) (k % 4) (s.as (s.vfOfTeam (k / 4)))))

/-! ### The array (R207, R212) -/

def State.nextArrayEvent (s : State) : Own :=
  Map.first s.clusters (fun n c =>
    let l := c.array.lease
    let s := s.as (s.vfOfCluster n)
    if l.holder.isNone && l.next.isSome && c.team != 0 && !c.array.halt
        && (c.owner == some (s.team c.team).vf || c.array.queue.isEmpty) then some (execLeaseGrant n s)
    else if s.waiting (sliceOfCluster n) (.array n) then none
    else match s.mxHead n with
      | none => none
      | some m =>
        if s.drainsNow n m then some (execRunDrain n s)
        else if !s.begins n || m.stepped then none
        else if m.op = some .mma then some (execTileStep n s)
        else some (execArrayExecute n s))

/-! ### Dispatchers, boundaries, the HSC -/

/-- A slice with a queued record of a VF and a cluster for it. -/
def State.nextDispatch (s : State) : Own :=
  Map.first s.slices (fun n sl =>
    (sl.queues.findSome? (fun e =>
      let vf := e.1 / 16
      if (s.vf vf).descOk && (s.pickCluster n vf).isSome then some (execDispatch n vf (s.as vf)) else none))
    |>.or (if !sl.shareQ.isEmpty then some (execShareChangeComplete n s) else none))

/-- A launch ring to be looked at again, and the messages that the root of a tree gives itself, once all below it have told
it (R291). -/
def State.nextVfEvent (s : State) : Own :=
  Map.first s.vfs (fun n v =>
    let s := s.as n
    if v.rung && v.lstate != 2 && !v.resident && v.descOk && v.launchSlice.isSome
        && !s.waiting v.logSlice (.launch n) then
      some (execLaunchDoorbell n s)
    else match v.sg with
      | none => none
      | some g =>
        if s.waiting v.logSlice (.apply n) then none
        else match g.bst with
          | .sync => if g.heard || (g.isRoot && g.gathered) then some (execBoundaryMessage n .allDrained s) else none
          | .vote => if g.isRoot && g.gathered then some (execBoundaryMessage n (.decision g.combined) s) else none
          | .applying => some (execStepApplyComplete n s)
          | _ => none)

def State.nextModuleEvent (s : State) : Own :=
  ((s.home.scrub.find? (fun e => s.pageOpen e.2)).map (fun e => execScrubPage e.1 s))
  |>.or (if s.mgmt.attBuf.isSome then some (execAttestationComplete s) else none)
  |>.or (if s.mgmt.saveDue && (List.range 64).any (fun cl => s.saveable cl) then
      some (execPwrwarnHoldExpiry (Config.frozenAt s.time.tick) (Config.frozenAt (s.time.tick + 1)) s) else none)

/-- What the next event of the module's own leaves, where one is ready. -/
def State.nextEvent (s : State) : Own :=
  if s.mgmt.railsOff || s.mgmt.held then none
  else let s := s.as 8; s.nextAts.or (s.nextTeamEvent.or (s.nextCoreEvent.or (s.nextEngineEvent.or (s.nextArrayEvent.or
    (s.nextDispatch.or (s.nextVfEvent.or s.nextModuleEvent))))))

/-! ### Retries -/

/-- A VF's log entry, a time-table entry or a pool command that a translation held up is tried again. -/
def State.nextRetry (s : State) : Option State :=
  (Map.first s.vfs (fun n v =>
    let s := s.as n
    let t := if s.waiting v.logSlice (.log n) then s else s.flushLog n
    if (t.vf n).logQ.length < v.logQ.length || t.slices != s.slices then some t
    else if s.waiting v.logSlice (.launch n) || v.lstate == 2 then none
    else if !v.ttDone.isEmpty then some (s.ttSettle n)
    else if !v.ttDue.isEmpty then some (s.ttRetry n)
    else none))
  |>.or (match s.servePool with
    | (t, true) => some t
    | (t, false) => if t.slices = s.slices then none else some t)

/-! ### Time -/

/-- A core's counters after `n` ac cycles: the pre-emption budget, and the limit of a WFE that waits, which has expired
at 1 (R348, R350). -/
def Core.pass (n : Nat) (c : Core) : Core :=
  let c := { c with budget := c.budget.map (· - n) }
  match c.ctx.wfe with
  | some w =>
    if w.limit = 0 then c
    else { c with ctx := { c.ctx with wfe := some { w with limit := BitVec.ofNat 64 (max 1 (w.limit.toNat - n)) } } }
  | none => c

/-- A step takes some ac cycles, and nanoseconds of a clock that has locked (R172). What the step before put into a cache
takes its way there (R393), and the multicast stores whose landing cycle has come land (R71). -/
def State.passTime (s : State) : State :=
  let s := s.settle.landAgain
  let t := s.time
  let n := Config.elapsed t.tick
  let s : State := { s with
    cores := s.cores.map (fun e => (e.1, e.2.pass n))
    time := { t with
      tick := t.tick + 1, cycle := t.cycle + BitVec.ofNat 64 n
      ptpns := if t.locked then BitVec.ofNat 64 (min (2 ^ 64 - 1) (t.ptpns.toNat + Config.nsElapsed t.tick)) else t.ptpns } }
  State.landDue s.mcast.length s.dropLanded

/-- The next core after the turn's, in a circle, that can issue. -/
def State.nextCore (s : State) : Option Nat :=
  let able := s.cores.filterMap (fun e => if s.issues e.1 then some e.1 else none)
  (able.find? (fun n => decide (s.turn < n))).or able.head?

end Sys2Proof.Machine
end

