-- ==== Sys2Proof/Machine/LineOps.lean ====
section
/-! DEFINITION. The line operations PREF, CFLUSH, CINV and CZERO (R95 to R98). -/

namespace Sys2Proof.Machine

/-- PREF (R96): fill the line of a translated address as a load would; a line whose bytes are all valid needs nothing,
and every obstacle cancels the prefetch silently. -/
def execPref (a : SReg) (s : State) : Host.Outcome State Fault Refusal :=
  let s := s.breaking
  let core := s.turn
  let va := (s.rs a).toNat
  s.finish (
    match spaceOf va with
    | .localSp => .ok (s.retire 4)
    | .memory =>
      let pasid := s.pasidOf core true
      let pa := if pasid = physPasid then some va else s.dtcHit (sliceOf core) pasid va false
      match pa with
      | none => .ok (s.retire 4)
      | some pa =>
        if ((s.core core).line pasid (va / 128)).any (·.has 0 128) || !s.lineRoom core pasid (va / 128) then
          .ok (s.retire 4)
        else match s.fillLine core pasid (va / 128) (pa / 128) with
        | .ok s => .ok (s.retire 4)
        | .error e => .ok ((s.reportAt (s.core core).team (pa / 128) 0 pasid e).retire 4)
    | _ => trapE s (tAddress va))

/-- The first and the last line of a range operation; none where it leaves translated memory (R95, R97). -/
def lineRange (a n : Nat) : Option (Nat × Nat) :=
  let last := a + n - 1
  if n = 0 then (if spaceOf a = .memory then some (a / 128, a / 128) else none)
  else if rangeIn .memory a n then some (a / 128, last / 128) else none

/-- CFLUSH (R97): write back the dirty bytes of the lines; they stay valid and clean. -/
def execCflush (a b : SReg) (s : State) : Host.Outcome State Fault Refusal :=
  let s := s.breaking
  s.finish (
    match lineRange (s.rs a).toNat (s.rs b).toNat with
    | none => trapE s (tAddress (s.rs a).toNat)
    | some (lo, hi) => .ok ((s.cleanRange s.turn (s.pasidOf s.turn true) lo hi).retire 4))

/-- CINV (R97): write back the dirty bytes of the lines, then invalidate them. -/
def execCinv (a b : SReg) (s : State) : Host.Outcome State Fault Refusal :=
  let s := s.breaking
  s.finish (
    match lineRange (s.rs a).toNat (s.rs b).toNat with
    | none => trapE s (tAddress (s.rs a).toNat)
    | some (lo, hi) => .ok ((s.flushRange s.turn (s.pasidOf s.turn true) lo hi).retire 4))

/-- Zero one line (R98): translate, drop the L1 copy, write a full zero line. A line whose write meets an abort ends the
CZERO with its pc at the CZERO and the DATA_ABORT pending; so does an error, with the team stopped. -/
def State.zeroLine (s : State) (core va : Nat) : Res := do
  let pa ← s.tr core va true 2
  let pasid := s.pasidOf core true
  let s := s.onCore core (·.dropLine pasid (va / 128))
  match s.writeNode (s.secureCore core) (s.core core).team (pa / 128 * 128) (List.replicate 128 0) with
  | .ok s => .ok s
  | .error (s, l, e) => waitE (s.homeErr core va l 0 e)

/-- CZERO (R98). -/
def execCzero (a b : SReg) (s : State) : Host.Outcome State Fault Refusal :=
  let s := s.breaking
  let core := s.turn
  let va := (s.rs a).toNat
  let n := if s.rs b = 0 then 128 else (s.rs b).toNat
  s.finish (
    if spaceOf va ≠ .memory then trapE s (tAddress va)
    else if va % 128 ≠ 0 then trapE s (tMisaligned va)
    else if n % 128 ≠ 0 ∨ 65536 < n ∨ !rangeIn .memory va n then trapE s (tAddress va)
    else do
      let s ← foldE (fun s i => s.zeroLine core (va + 128 * i)) s (List.range (n / 128))
      .ok (s.retire 4))

end Sys2Proof.Machine
end

