-- ==== Sys2Proof/Machine/Region.lean ====
section
/-! DEFINITION. Line regions: ALB and ALE (R105 to R108). -/

namespace Sys2Proof.Machine

/-- ALB (R106): opens a region on the line; an open one is closed without any report. -/
def execAlb (a : SReg) (s : State) : Host.Outcome State Fault Refusal :=
  let s := s.breaking
  let core := s.turn
  let va := (s.rs a).toNat
  s.finish (
    if spaceOf va ≠ .memory then trapE s (tAddress va)
    else do
      let pa ← s.tr core va true 3
      let s := s.cleanRange core (s.pasidOf core true) (va / 128) (va / 128)
      .ok ((s.onCtx core (fun c => { c with region := some { vline := va / 128, pline := pa / 128, ring := c.ring } })).retire 4))

/-- The status of a region (R108). -/
def Region.status (r : Region) : Nat := if r.broken then 4 else r.mark

/-- Perform the recorded accesses on the line in program order; each load's destination and value in the first
component. -/
def Region.run (r : Region) (s : State) : List (SReg × Word) × State :=
  r.ops.foldl (fun x o =>
    let pa := r.pline * 128 + o.off
    if o.store then (x.1, x.2.poke pa (leBytes o.w o.data.toNat))
    else (x.1 ++ [(o.d, extend o.signed o.w (x.2.peekNat pa o.w))], x.2)) ([], s)

/-- ALE (R108). Where its own destination is also that of a recorded load, the rule does not say which value remains:
the model writes the status last (assumption 29). -/
def execAle (d : SReg) (s : State) : Host.Outcome State Fault Refusal :=
  let core := s.turn
  let done (s : State) (n : Nat) : State := (s.onCtx core (·.setS d (BitVec.ofNat 64 n))).retire 4
  match (s.ctx core).region with
  | none => .next (done s 1)
  | some r =>
    let s := s.onCtx core (fun c => { c with region := none })
    if r.status ≠ 0 then .next (done s r.status)
    else match s.lineErr (s.secureCore core) (s.core core).team r.pline .read with
      | some e => .next ((s.homeErr core (r.vline * 128) r.pline 0 e).retire 4)
      | none =>
        let s := (s.commitClass core).touchRead (r.pline * 128) 128
        let (loads, s) := r.run s
        let s := s.onCore core (·.dropLine (s.pasidOf core true) r.vline)
        let s := s.onCtx core (fun c => loads.foldl (fun c x => c.setS x.1 x.2) c)
        .next (done s 0)

end Sys2Proof.Machine
end

