-- ==== Sys2Proof/Machine/Scalar.lean ====
section
/-! DEFINITION. The scalar instructions (R156 to R166). -/

namespace Sys2Proof.Machine

/-- Division under R160. -/
def divS (a b : Word) : Word := if b = 0 then BitVec.allOnes 64 else a.sdiv b
def divU (a b : Word) : Word := if b = 0 then BitVec.allOnes 64 else a / b
def remS (a b : Word) : Word := if b = 0 then a else a.srem b
def remU (a b : Word) : Word := if b = 0 then a else a % b

def boolWord (b : Bool) : Word := if b then 1 else 0
def shamt (b : Word) : Nat := b.toNat % 64
def imm64 (imm : BitVec 13) : Word := imm.signExtend 64

/-- High half of a product (R159). -/
def mulHigh (a b : Word) : Word := BitVec.ofInt 64 ((a.toInt * b.toInt) / 18446744073709551616)
def mulHighU (a b : Word) : Word := BitVec.ofNat 64 ((a.toNat * b.toNat) / 18446744073709551616)

/-! ### Register–register operations (R159, R160) -/

def execAdd (d a b : SReg) (s : State) := s.writeRetire d (s.rs a + s.rs b)
def execSub (d a b : SReg) (s : State) := s.writeRetire d (s.rs a - s.rs b)
def execAnd (d a b : SReg) (s : State) := s.writeRetire d (s.rs a &&& s.rs b)
def execOr (d a b : SReg) (s : State) := s.writeRetire d (s.rs a ||| s.rs b)
def execXor (d a b : SReg) (s : State) := s.writeRetire d (s.rs a ^^^ s.rs b)
def execAndn (d a b : SReg) (s : State) := s.writeRetire d (s.rs a &&& ~~~(s.rs b))
def execSll (d a b : SReg) (s : State) := s.writeRetire d (s.rs a <<< shamt (s.rs b))
def execSrl (d a b : SReg) (s : State) := s.writeRetire d (s.rs a >>> shamt (s.rs b))
def execSra (d a b : SReg) (s : State) := s.writeRetire d ((s.rs a).sshiftRight (shamt (s.rs b)))
def execSlt (d a b : SReg) (s : State) := s.writeRetire d (boolWord ((s.rs a).slt (s.rs b)))
def execSltu (d a b : SReg) (s : State) := s.writeRetire d (boolWord ((s.rs a).ult (s.rs b)))
def execMin (d a b : SReg) (s : State) :=
  s.writeRetire d (if (s.rs b).slt (s.rs a) then s.rs b else s.rs a)
def execMax (d a b : SReg) (s : State) :=
  s.writeRetire d (if (s.rs a).slt (s.rs b) then s.rs b else s.rs a)
def execMinu (d a b : SReg) (s : State) :=
  s.writeRetire d (if (s.rs b).ult (s.rs a) then s.rs b else s.rs a)
def execMaxu (d a b : SReg) (s : State) :=
  s.writeRetire d (if (s.rs a).ult (s.rs b) then s.rs b else s.rs a)
def execMul (d a b : SReg) (s : State) := s.writeRetire d (s.rs a * s.rs b)
def execMulh (d a b : SReg) (s : State) := s.writeRetire d (mulHigh (s.rs a) (s.rs b))
def execMulhu (d a b : SReg) (s : State) := s.writeRetire d (mulHighU (s.rs a) (s.rs b))
def execDiv (d a b : SReg) (s : State) := s.writeRetire d (divS (s.rs a) (s.rs b))
def execDivu (d a b : SReg) (s : State) := s.writeRetire d (divU (s.rs a) (s.rs b))
def execRem (d a b : SReg) (s : State) := s.writeRetire d (remS (s.rs a) (s.rs b))
def execRemu (d a b : SReg) (s : State) := s.writeRetire d (remU (s.rs a) (s.rs b))
def execClz (d a : SReg) (s : State) := s.writeRetire d (BitVec.ofNat 64 (leadingZeros 64 (s.rs a).toNat))
def execCtz (d a : SReg) (s : State) := s.writeRetire d (BitVec.ofNat 64 (lowestBit (s.rs a)))
def execPopc (d a : SReg) (s : State) := s.writeRetire d (BitVec.ofNat 64 (onesBelow 64 (s.rs a).toNat))
def execBswap (d a : SReg) (s : State) := s.writeRetire d (byteSwap64 (s.rs a))
def execSextb (d a : SReg) (s : State) := s.writeRetire d (((s.rs a).setWidth 8).signExtend 64)
def execSexth (d a : SReg) (s : State) := s.writeRetire d (((s.rs a).setWidth 16).signExtend 64)
def execSextw (d a : SReg) (s : State) := s.writeRetire d (((s.rs a).setWidth 32).signExtend 64)

/-! ### Immediate operations (R161, R162) and upper immediates (R163) -/

def execAddi (d a : SReg) (imm : BitVec 13) (s : State) := s.writeRetire d (s.rs a + imm64 imm)
def execAndi (d a : SReg) (imm : BitVec 13) (s : State) := s.writeRetire d (s.rs a &&& imm64 imm)
def execOri (d a : SReg) (imm : BitVec 13) (s : State) := s.writeRetire d (s.rs a ||| imm64 imm)
def execXori (d a : SReg) (imm : BitVec 13) (s : State) := s.writeRetire d (s.rs a ^^^ imm64 imm)
def execSlti (d a : SReg) (imm : BitVec 13) (s : State) := s.writeRetire d (boolWord ((s.rs a).slt (imm64 imm)))
def execSltiu (d a : SReg) (imm : BitVec 13) (s : State) := s.writeRetire d (boolWord ((s.rs a).ult (imm64 imm)))
def execSlli (d a : SReg) (sh : BitVec 6) (s : State) := s.writeRetire d (s.rs a <<< sh.toNat)
def execSrli (d a : SReg) (sh : BitVec 6) (s : State) := s.writeRetire d (s.rs a >>> sh.toNat)
def execSrai (d a : SReg) (sh : BitVec 6) (s : State) := s.writeRetire d ((s.rs a).sshiftRight sh.toNat)
def execLui (d : SReg) (imm : BitVec 19) (s : State) := s.writeRetire d (imm.signExtend 64 <<< 13)
def execAupc (d : SReg) (imm : BitVec 19) (s : State) :=
  s.writeRetire d ((s.ctx s.turn).pc + (imm.signExtend 64 <<< 13))

/-! ### Branches and jumps (R164, R165) -/

/-- The target of a branch of `n` signed parcels. -/
def branchTarget {n : Nat} (pc : Word) (off : BitVec n) : Word := pc + 4 * off.signExtend 64

/-- A conditional branch: it breaks an open line region (R107, R166), writes no register and retires at its target or
at the next parcel. -/
def branchOp (off : BitVec 10) (taken : Bool) (s : State) : Host.Outcome State Fault Refusal :=
  let c := s.ctx s.turn
  .next (s.breaking.retireTo (if taken then branchTarget c.pc off else c.pc + 4) c.ring c.pc)

def execBeq (a b : SReg) (off : BitVec 10) (s : State) := branchOp off (s.rs a == s.rs b) s
def execBne (a b : SReg) (off : BitVec 10) (s : State) := branchOp off (s.rs a != s.rs b) s
def execBlt (a b : SReg) (off : BitVec 10) (s : State) := branchOp off ((s.rs a).slt (s.rs b)) s
def execBge (a b : SReg) (off : BitVec 10) (s : State) := branchOp off (!(s.rs a).slt (s.rs b)) s
def execBltu (a b : SReg) (off : BitVec 10) (s : State) := branchOp off ((s.rs a).ult (s.rs b)) s
def execBgeu (a b : SReg) (off : BitVec 10) (s : State) := branchOp off (!(s.rs a).ult (s.rs b)) s

/-- A jump with a link: the target is computed from the old registers (R165). -/
def jumpOp (d : SReg) (target : Word) (s : State) : Host.Outcome State Fault Refusal :=
  let c := s.ctx s.turn
  .next ((s.breaking.onCtx s.turn (·.setS d (c.pc + 4))).retireTo target c.ring c.pc)

def execJal (d : SReg) (off : BitVec 19) (s : State) := jumpOp d (branchTarget (s.ctx s.turn).pc off) s
def execJalr (d a : SReg) (imm : BitVec 13) (s : State) := jumpOp d ((s.rs a + imm64 imm) &&& ~~~3#64) s

end Sys2Proof.Machine
end

