-- ==== Sys2Proof/Machine/VecConv.lean ====
section
/-! DEFINITION. Conversions, tags, block scales and classes (R186 to R191). -/

namespace Sys2Proof.Machine

/-- The source format that the flags field names for an untagged A (R186). -/
def flagFmt (fl : BitVec 2) : Fmt :=
  match fl.toNat with
  | 0 => .fp32
  | 1 => .int32
  | 2 => .bf16
  | _ => .fp64

/-- The source format of a converter (R16, R186). -/
def Regs.sourceFmt (r : Regs) (w : VWord) : Fmt := (r.tagOf w.a).getD (flagFmt w.flags)

/-- A value scaled by 2^(e − 127). -/
def FVal.scaled (v : FVal) (e : Nat) : FVal :=
  match v with
  | .fin n m x st => .fin n m (x + e - 127) st
  | v => v

/-- A value under an E8 scale, rounded into a format; a scale of 0xFF gives the canonical NaN, and the draw is made
(R25, R187, R190). -/
def scaleInto (f : Fmt) (rm : Rm) (v : FVal) (e : Nat) (env : FEnv) : Nat × FEnv :=
  if e % 256 = 255 then (canonNan f, (env.draw rm).2)
  else encodeF f rm false (v.scaled (e % 256)) env

/-- The positions from the element count to the end of a destination, which a converter writes as zero (R176). -/
def tailOf (n cap : Nat) : List Nat := (List.range (cap - n)).map (· + n)

/-- VCVT (R186, R187). Between vector registers RAW moves whole 32-bit lanes: R16 and R136 do not say what becomes of
the lane bits that a narrower format leaves unoccupied, and the model passes them on (assumption 27). The positions past
the last element, which a p destination too gets as zero (R176), have their addresses checked like those of active elements
(DEDUCED, assumption 27). -/
def execVcvt (w : VWord) (s : State) : Host.Outcome State Fault Refusal :=
  let s := s.breaking
  let x := s.ctx s.turn
  let src := x.regs.sourceFmt w
  let raw := src == .raw || w.fmt == .raw
  let wide := src == .fp64 || w.fmt == .fp64
  let raw64 := raw && wide
  let lanes := raw && !raw64 && w.a.kind == .v && w.d.kind == .v
  let n := if wide then 64 else 128
  let cap := if w.fmt = .fp64 || raw64 then 64 else 128
  let act := x.regs.actives w.k n
  let rd : Fmt := if raw64 then .fp64 else if lanes then .raw else src
  let wr : Fmt := if raw64 then .fp64 else if lanes then .raw else w.fmt
  let dst : VDst := ⟨w.d, wr, w.fmt, act ++ tailOf n cap, false, 128⟩
  s.finish (s.vectorOp [⟨1, w.a, none, rd, w.fmt, act, false⟩] (some dst)
    (fun v env =>
      let (l, env) := mapElems (fun i => convertF src w.fmt (Rm.ofCode w.rm) (v 0 i)) act env
      (l ++ (tailOf n cap).map (fun i => (i, 0)), env))
    (fun s vals => s.writeElems s.turn dst vals))

/-- VSCALE (R187). -/
def execVscale (w : VWord) (s : State) : Host.Outcome State Fault Refusal :=
  arith w true false .e8 (fun rm a b _ env => scaleInto w.fmt rm (decodeF w.fmt a) b env) s

/-- VTAG (R140, R148, R188): the tag alone changes; between two layouts the geometry must stay, which takes the old tag of a
tile register. -/
def execVtag (w : VWord) (s : State) : Host.Outcome State Fault Refusal :=
  let s := s.breaking
  let r := (s.ctx s.turn).regs
  s.finish (match w.d with
    | .v n => .ok ((s.onCtx s.turn (·.onRegs (fun r => { r with vtag := Map.set .raw r.vtag n.toNat w.fmt }))).retire 12)
    | o => match tileForm o with
      | none => .ok (s.retire 12)
      | some (m, _, _) =>
        let old := r.mTag m
        if r.reads (tagWords o) [] then .ok ((s.consumeLocal s.turn 0).retire 12)
        else if old = .raw ∨ w.fmt = .raw ∨ layoutOf old = layoutOf w.fmt then
          .ok ((s.onCtx s.turn (·.onRegs (fun r => { r with mtag := Map.set .raw r.mtag m w.fmt }))).retire 12)
        else trapE s (tFormat w.fmt old 0))

/-- The exponent of a target's largest finite value (R189). -/
def emaxOf : Fmt → Int
  | .mk8 => 0 | .e2m3 => 2 | .e3m2 => 4 | .int8 => 6 | .uint8 => 7 | .e4m3 => 8 | _ => 15

def FVal.isFin : FVal → Bool
  | .fin _ _ _ _ => true
  | _ => false

/-- Floor(Log2 |v|) of a non-zero finite value. -/
def FVal.lead : FVal → Option Int
  | .fin _ m e _ => if m = 0 then none else some (leadOf m e)
  | _ => none

/-- The scale of a block from its active elements (R189). -/
def blockScale (t : Fmt) (vs : List FVal) : Nat :=
  if vs.any (fun v => !v.isFin) then 255
  else match (vs.filterMap FVal.lead).foldl (fun (a : Option Int) l => some (match a with
      | none => l
      | some b => if b < l then l else b)) none with
    | none => 127
    | some l => let e := l - emaxOf t + 127; if e < 0 then 0 else if 254 < e then 254 else e.toNat

/-- Quantise one block's active elements: the elements, the scale, the environment. An element of an integer source that
is clamped into INT8 or UINT8 sets NV and SAT: R28's table says so and its sentence on integer-to-integer clamps excepts
NV, and the scaled value is here taken as no integer (assumption 28). -/
def quantBlock (src t : Fmt) (rm : Rm) (v : Nat → Nat) (act : List Nat) (env : FEnv) :
    List (Nat × Nat) × Nat × FEnv :=
  if src = .raw then (act.map (fun i => (i, v i)), 127, env)
  else
    let e := blockScale t (act.map (fun i => decodeF src (v i)))
    if e = 255 then
      let (l, env) := mapElems (fun _ env => (0, (env.draw rm).2)) act env
      (l, 255, env.raise fNV)
    else
      let (l, env) := mapElems (fun i => encodeF t rm false ((decodeF src (v i)).scaled (254 - e))) act env
      (l, e, env)

/-- Quantise every block that holds an active element. -/
def quantAll (src t : Fmt) (rm : Rm) (v : Nat → Nat) (act : List Nat) :
    List Nat → FEnv → (List (Nat × Nat) × List (Nat × Nat)) × FEnv
  | [], env => (([], []), env)
  | b :: r, env =>
    let mine := act.filter (fun i => i / 32 == b)
    if mine.isEmpty then quantAll src t rm v act r env
    else
      let (l, e, env) := quantBlock src t rm v mine env
      let ((ls, es), env) := quantAll src t rm v act r env
      ((l ++ ls, (b, e) :: es), env)

/-- Put the scales of VQBLK where its destination's kind says (R189). They are put after the elements: where B names the
register of D, which R189 does not order, the scales and the tag E8 stand over the elements (assumption 27). -/
def State.putScales (s : State) (core : Nat) (w : VWord) (scales : List (Nat × Nat)) : State :=
  let x := s.ctx core
  match w.d, w.b with
  | .v _, .v m => s.onCtx core (·.onRegs (fun r =>
      scales.foldl (fun r e => r.setVElem m.toNat .e8 e.1 e.2) (r.setTag w.b .e8)))
  | .row m ix, _ =>
    let i := (x.rs ix).toNat % 256
    s.onCtx core (·.onRegs (fun r => scales.foldl (fun r e =>
      { r with side := r.side.set (m.toNat * 1024 + i / 2 * 8 + 4 * (i % 2) + e.1) (BitVec.ofNat 8 e.2) }) r))
  | .sp base _, _ => s.onStore (clusterOf core) (fun t => scales.foldl (fun t e =>
      t.spPut (spOff (x.rs base + BitVec.ofNat 64 (33 * e.1 + 32)).toNat) [BitVec.ofNat 8 e.2]) t)
  | _, _ => s

/-- VQBLK (R189). -/
def execVqblk (w : VWord) (s : State) : Host.Outcome State Fault Refusal :=
  let s := s.breaking
  let x := s.ctx s.turn
  let src := x.regs.sourceFmt w
  let n := elemCount src
  let act := x.regs.actives w.k n
  let grp := w.d.kind == .p
  let wr : Fmt := if src = .raw ∧ w.d.kind = .v then .raw else w.fmt
  let dst : VDst := ⟨w.d, wr, w.fmt, act ++ tailOf n 128, grp, n⟩
  s.finish (s.vectorOp [⟨1, w.a, none, src, w.fmt, act, false⟩] (some dst)
    (fun v env =>
      let ((l, es), env) := quantAll src w.fmt (Rm.ofCode w.rm) (v 0) act (List.range (n / 32)) env
      ((l ++ (tailOf n 128).map (fun i => (i, 0)), es), env))
    (fun s r => (s.writeElems s.turn dst r.1).putScales s.turn w r.2))

/-- The scale of block `b` that VDQBLK reads (R190). -/
def State.dqScale (s : State) (core : Nat) (x : Ctx) (w : VWord) (b : Nat) : Nat :=
  match w.a, w.b with
  | .v _, .v m => x.regs.vElem m.toNat .e8 b
  | .v _, .s n => (x.rs n).toNat % 256
  | .row m ix, _ =>
    let i := (x.rs ix).toNat % 256
    (x.regs.side.get (m.toNat * 1024 + i / 2 * 8 + 4 * (i % 2) + b)).toNat
  | .sp base _, _ =>
    leNat (((s.cluster (clusterOf core)).store).spGet (spOff (x.rs base + BitVec.ofNat 64 (33 * b + 32)).toNat) 1)
  | _, _ => 127

/-- The register words of the scales that VDQBLK reads for its active elements (R148). -/
def dqWords (x : Ctx) (w : VWord) (act : List Nat) : List BadReg :=
  let blocks := (List.range 4).filter (fun b => act.any (fun i => i / 32 == b))
  match w.a, w.b with
  | .v _, .v m => blocks.map (.v m.toNat)
  | .v _, .s n => [.s n.toNat 0, .s n.toNat 1]
  | .row m ix, _ => if blocks.isEmpty then [] else [.side m.toNat ((x.rs ix).toNat % 256)]
  | _, _ => []

/-- VDQBLK (R190). -/
def execVdqblk (w : VWord) (s : State) : Host.Outcome State Fault Refusal :=
  let s := s.breaking
  let core := s.turn
  let x := s.ctx core
  let act := x.regs.actives w.k 128
  let dst : VDst := ⟨w.d, .fp32, .fp32, act, false, 128⟩
  let scales : List VSrc := match w.a.kind, w.b with
    | .v, .v _ => [⟨2, w.b, some .e8, .e8, .raw, [], false⟩]
    | _, _ => []
  s.finish (s.vectorOp (⟨1, w.a, some w.fmt, w.fmt, .raw, act, w.a.kind == .p⟩ :: scales) (some dst)
    (fun v env => mapElems (fun i env =>
      scaleInto .fp32 (Rm.ofCode w.rm) (decodeF w.fmt (v 0 i)) (s.dqScale core x w (i / 32)) env) act env)
    (fun s vals => s.writeElems s.turn dst vals) (dqWords x w act))

/-- VCLASS (R191). The positions past the last element are checked as VCVT's (assumption 27). -/
def execVclass (w : VWord) (s : State) : Host.Outcome State Fault Refusal :=
  let s := s.breaking
  let n := elemCount w.fmt
  let act := (s.ctx s.turn).regs.actives w.k n
  let dst : VDst := ⟨w.d, .int32, .int32, act ++ tailOf n 128, false, 128⟩
  s.finish (s.vectorOp [⟨1, w.a, some w.fmt, w.fmt, .raw, act, false⟩] (some dst)
    (fun v env =>
      let (l, env) := mapElems (fun i env => (2 ^ classOf w.fmt (decodeF w.fmt (v 0 i)), env)) act env
      (l ++ (tailOf n 128).map (fun i => (i, 0)), env))
    (fun s vals => s.writeElems s.turn dst vals))

end Sys2Proof.Machine
end

