-- ==== Sys2Proof/Machine/Dispatch.lean ====
section
/-! DEFINITION. One arm per instruction: each calls the instruction's meaning. -/

namespace Sys2Proof.Machine

/-- The execution of one instruction, or one event, in a state; an instruction word runs on the core of the turn. -/
def exec (i : Instr) (s : State) : Host.Outcome State Fault Refusal :=
  match i with
  | .add d a b => Sys2Proof.Machine.execAdd d a b s
  | .sub d a b => Sys2Proof.Machine.execSub d a b s
  | .and d a b => Sys2Proof.Machine.execAnd d a b s
  | .or d a b => Sys2Proof.Machine.execOr d a b s
  | .xor d a b => Sys2Proof.Machine.execXor d a b s
  | .andn d a b => Sys2Proof.Machine.execAndn d a b s
  | .sll d a b => Sys2Proof.Machine.execSll d a b s
  | .srl d a b => Sys2Proof.Machine.execSrl d a b s
  | .sra d a b => Sys2Proof.Machine.execSra d a b s
  | .slt d a b => Sys2Proof.Machine.execSlt d a b s
  | .sltu d a b => Sys2Proof.Machine.execSltu d a b s
  | .min d a b => Sys2Proof.Machine.execMin d a b s
  | .max d a b => Sys2Proof.Machine.execMax d a b s
  | .minu d a b => Sys2Proof.Machine.execMinu d a b s
  | .maxu d a b => Sys2Proof.Machine.execMaxu d a b s
  | .mul d a b => Sys2Proof.Machine.execMul d a b s
  | .mulh d a b => Sys2Proof.Machine.execMulh d a b s
  | .mulhu d a b => Sys2Proof.Machine.execMulhu d a b s
  | .div d a b => Sys2Proof.Machine.execDiv d a b s
  | .divu d a b => Sys2Proof.Machine.execDivu d a b s
  | .rem d a b => Sys2Proof.Machine.execRem d a b s
  | .remu d a b => Sys2Proof.Machine.execRemu d a b s
  | .clz d a => Sys2Proof.Machine.execClz d a s
  | .ctz d a => Sys2Proof.Machine.execCtz d a s
  | .popc d a => Sys2Proof.Machine.execPopc d a s
  | .bswap d a => Sys2Proof.Machine.execBswap d a s
  | .sextb d a => Sys2Proof.Machine.execSextb d a s
  | .sexth d a => Sys2Proof.Machine.execSexth d a s
  | .sextw d a => Sys2Proof.Machine.execSextw d a s
  | .addi d a imm => Sys2Proof.Machine.execAddi d a imm s
  | .andi d a imm => Sys2Proof.Machine.execAndi d a imm s
  | .ori d a imm => Sys2Proof.Machine.execOri d a imm s
  | .xori d a imm => Sys2Proof.Machine.execXori d a imm s
  | .slti d a imm => Sys2Proof.Machine.execSlti d a imm s
  | .sltiu d a imm => Sys2Proof.Machine.execSltiu d a imm s
  | .slli d a sh => Sys2Proof.Machine.execSlli d a sh s
  | .srli d a sh => Sys2Proof.Machine.execSrli d a sh s
  | .srai d a sh => Sys2Proof.Machine.execSrai d a sh s
  | .lui d imm => Sys2Proof.Machine.execLui d imm s
  | .aupc d imm => Sys2Proof.Machine.execAupc d imm s
  | .beq a b off => Sys2Proof.Machine.execBeq a b off s
  | .bne a b off => Sys2Proof.Machine.execBne a b off s
  | .blt a b off => Sys2Proof.Machine.execBlt a b off s
  | .bge a b off => Sys2Proof.Machine.execBge a b off s
  | .bltu a b off => Sys2Proof.Machine.execBltu a b off s
  | .bgeu a b off => Sys2Proof.Machine.execBgeu a b off s
  | .jal d off => Sys2Proof.Machine.execJal d off s
  | .jalr d a imm => Sys2Proof.Machine.execJalr d a imm s
  | .ldb d a imm => Sys2Proof.Machine.execLdb d a imm s
  | .ldbu d a imm => Sys2Proof.Machine.execLdbu d a imm s
  | .ldh d a imm => Sys2Proof.Machine.execLdh d a imm s
  | .ldhu d a imm => Sys2Proof.Machine.execLdhu d a imm s
  | .ldw d a imm => Sys2Proof.Machine.execLdw d a imm s
  | .ldwu d a imm => Sys2Proof.Machine.execLdwu d a imm s
  | .ldd d a imm => Sys2Proof.Machine.execLdd d a imm s
  | .qpop d q => Sys2Proof.Machine.execQpop d q s
  | .stb d a imm => Sys2Proof.Machine.execStb d a imm s
  | .sth d a imm => Sys2Proof.Machine.execSth d a imm s
  | .stw d a imm => Sys2Proof.Machine.execStw d a imm s
  | .std d a imm => Sys2Proof.Machine.execStd d a imm s
  | .pref a => Sys2Proof.Machine.execPref a s
  | .cflush a b => Sys2Proof.Machine.execCflush a b s
  | .cinv a b => Sys2Proof.Machine.execCinv a b s
  | .czero a b => Sys2Proof.Machine.execCzero a b s
  | .amoswap d a b => Sys2Proof.Machine.execAmoswap d a b s
  | .amoadd d a b => Sys2Proof.Machine.execAmoadd d a b s
  | .amoand d a b => Sys2Proof.Machine.execAmoand d a b s
  | .amoor d a b => Sys2Proof.Machine.execAmoor d a b s
  | .amoxor d a b => Sys2Proof.Machine.execAmoxor d a b s
  | .amomin d a b => Sys2Proof.Machine.execAmomin d a b s
  | .amomax d a b => Sys2Proof.Machine.execAmomax d a b s
  | .amominu d a b => Sys2Proof.Machine.execAmominu d a b s
  | .amomaxu d a b => Sys2Proof.Machine.execAmomaxu d a b s
  | .amofadds d a b => Sys2Proof.Machine.execAmofadds d a b s
  | .amofaddd d a b => Sys2Proof.Machine.execAmofaddd d a b s
  | .amocas d a b => Sys2Proof.Machine.execAmocas d a b s
  | .redadd a b => Sys2Proof.Machine.execRedadd a b s
  | .redand a b => Sys2Proof.Machine.execRedand a b s
  | .redor a b => Sys2Proof.Machine.execRedor a b s
  | .redxor a b => Sys2Proof.Machine.execRedxor a b s
  | .redmin a b => Sys2Proof.Machine.execRedmin a b s
  | .redmax a b => Sys2Proof.Machine.execRedmax a b s
  | .redminu a b => Sys2Proof.Machine.execRedminu a b s
  | .redmaxu a b => Sys2Proof.Machine.execRedmaxu a b s
  | .redfadds a b => Sys2Proof.Machine.execRedfadds a b s
  | .redfaddd a b => Sys2Proof.Machine.execRedfaddd a b s
  | .alb a => Sys2Proof.Machine.execAlb a s
  | .ale d => Sys2Proof.Machine.execAle d s
  | .acq d a => Sys2Proof.Machine.execAcq d a s
  | .rel d a b => Sys2Proof.Machine.execRel d a b s
  | .fence sc => Sys2Proof.Machine.execFence sc s
  | .cbar => Sys2Proof.Machine.execCbar s
  | .sobind d a b => Sys2Proof.Machine.execSobind d a b s
  | .bcwait d a b => Sys2Proof.Machine.execBcwait d a b s
  | .waittl t b => Sys2Proof.Machine.execWaittl t b s
  | .tlrd d t issued => Sys2Proof.Machine.execTlrd d t issued s
  | .mbwait d a => Sys2Proof.Machine.execMbwait d a s
  | .mback a b => Sys2Proof.Machine.execMback a b s
  | .waitc ld st cp tile => Sys2Proof.Machine.execWaitc ld st cp tile s
  | .cpy d a => Sys2Proof.Machine.execCpy d a s
  | .cpyb d a => Sys2Proof.Machine.execCpyb d a s
  | .gath d a => Sys2Proof.Machine.execGath d a s
  | .scat d a => Sys2Proof.Machine.execScat d a s
  | .wstr d a => Sys2Proof.Machine.execWstr d a s
  | .lease d => Sys2Proof.Machine.execLease d s
  | .unlease => Sys2Proof.Machine.execUnlease s
  | .dload d a => Sys2Proof.Machine.execDload d a s
  | .fxput d a => Sys2Proof.Machine.execFxput d a s
  | .fxred d a => Sys2Proof.Machine.execFxred d a s
  | .step d => Sys2Proof.Machine.execStep d s
  | .stepnb d => Sys2Proof.Machine.execStepnb d s
  | .stepwt d a => Sys2Proof.Machine.execStepwt d a s
  | .fxstat d a => Sys2Proof.Machine.execFxstat d a s
  | .spawn a b => Sys2Proof.Machine.execSpawn a b s
  | .jdec a b => Sys2Proof.Machine.execJdec a b s
  | .exit => Sys2Proof.Machine.execExit s
  | .yield d => Sys2Proof.Machine.execYield d s
  | .tcoord d => Sys2Proof.Machine.execTcoord d s
  | .gridid d => Sys2Proof.Machine.execGridid d s
  | .eret => Sys2Proof.Machine.execEret s
  | .brk => Sys2Proof.Machine.execBrk s
  | .wfe d a => Sys2Proof.Machine.execWfe d a s
  | .pdone d a => Sys2Proof.Machine.execPdone d a s
  | .halt => Sys2Proof.Machine.execHalt s
  | .csrr d c => Sys2Proof.Machine.execCsrr d c s
  | .csrw d a c => Sys2Proof.Machine.execCsrw d a c s
  | .csrs d a c => Sys2Proof.Machine.execCsrs d a c s
  | .csrc d a c => Sys2Proof.Machine.execCsrc d a c s
  | .trap code => Sys2Proof.Machine.execTrap code s
  | .vadd w => Sys2Proof.Machine.execVadd w s
  | .vsub w => Sys2Proof.Machine.execVsub w s
  | .vmul w => Sys2Proof.Machine.execVmul w s
  | .vdiv w => Sys2Proof.Machine.execVdiv w s
  | .vfma w => Sys2Proof.Machine.execVfma w s
  | .vfms w => Sys2Proof.Machine.execVfms w s
  | .vfnma w => Sys2Proof.Machine.execVfnma w s
  | .vfnms w => Sys2Proof.Machine.execVfnms w s
  | .vmax w => Sys2Proof.Machine.execVmax w s
  | .vmin w => Sys2Proof.Machine.execVmin w s
  | .vabs w => Sys2Proof.Machine.execVabs w s
  | .vneg w => Sys2Proof.Machine.execVneg w s
  | .vsqrt w => Sys2Proof.Machine.execVsqrt w s
  | .vcpsgn w => Sys2Proof.Machine.execVcpsgn w s
  | .vexp2 w => Sys2Proof.Machine.execVexp2 w s
  | .vlog2 w => Sys2Proof.Machine.execVlog2 w s
  | .vrcp w => Sys2Proof.Machine.execVrcp w s
  | .vrsq w => Sys2Proof.Machine.execVrsq w s
  | .vsigm w => Sys2Proof.Machine.execVsigm w s
  | .vtanh w => Sys2Proof.Machine.execVtanh w s
  | .viadd w => Sys2Proof.Machine.execViadd w s
  | .visub w => Sys2Proof.Machine.execVisub w s
  | .vimul w => Sys2Proof.Machine.execVimul w s
  | .vimulh w => Sys2Proof.Machine.execVimulh w s
  | .vimin w => Sys2Proof.Machine.execVimin w s
  | .vimax w => Sys2Proof.Machine.execVimax w s
  | .viminu w => Sys2Proof.Machine.execViminu w s
  | .vimaxu w => Sys2Proof.Machine.execVimaxu w s
  | .vand w => Sys2Proof.Machine.execVand w s
  | .vor w => Sys2Proof.Machine.execVor w s
  | .vxor w => Sys2Proof.Machine.execVxor w s
  | .vshl w => Sys2Proof.Machine.execVshl w s
  | .vshr w => Sys2Proof.Machine.execVshr w s
  | .vsra w => Sys2Proof.Machine.execVsra w s
  | .viabs w => Sys2Proof.Machine.execViabs w s
  | .vidot4 w => Sys2Proof.Machine.execVidot4 w s
  | .vcvt w => Sys2Proof.Machine.execVcvt w s
  | .vscale w => Sys2Proof.Machine.execVscale w s
  | .vtag w => Sys2Proof.Machine.execVtag w s
  | .vqblk w => Sys2Proof.Machine.execVqblk w s
  | .vdqblk w => Sys2Proof.Machine.execVdqblk w s
  | .vclass w => Sys2Proof.Machine.execVclass w s
  | .vcmp w => Sys2Proof.Machine.execVcmp w s
  | .vsel w => Sys2Proof.Machine.execVsel w s
  | .kand w => Sys2Proof.Machine.execKand w s
  | .kor w => Sys2Proof.Machine.execKor w s
  | .kxor w => Sys2Proof.Machine.execKxor w s
  | .knot w => Sys2Proof.Machine.execKnot w s
  | .kpop w => Sys2Proof.Machine.execKpop w s
  | .kmov w => Sys2Proof.Machine.execKmov w s
  | .vrsum w => Sys2Proof.Machine.execVrsum w s
  | .vrmax w => Sys2Proof.Machine.execVrmax w s
  | .vrmin w => Sys2Proof.Machine.execVrmin w s
  | .vramax w => Sys2Proof.Machine.execVramax w s
  | .vriadd w => Sys2Proof.Machine.execVriadd w s
  | .vmov w => Sys2Proof.Machine.execVmov w s
  | .vbcast w => Sys2Proof.Machine.execVbcast w s
  | .vperm w => Sys2Proof.Machine.execVperm w s
  | .vrot w => Sys2Proof.Machine.execVrot w s
  | .vcomp w => Sys2Proof.Machine.execVcomp w s
  | .vexpd w => Sys2Proof.Machine.execVexpd w s
  | .viota w => Sys2Proof.Machine.execViota w s
  | .vzip w => Sys2Proof.Machine.execVzip w s
  | .vuzp w => Sys2Proof.Machine.execVuzp w s
  | .vld w => Sys2Proof.Machine.execVld w s
  | .vst w => Sys2Proof.Machine.execVst w s
  | .vldx w => Sys2Proof.Machine.execVldx w s
  | .vstx w => Sys2Proof.Machine.execVstx w s
  | .mma w => Sys2Proof.Machine.execMma w s
  | .drun w => Sys2Proof.Machine.execDrun w s
  | .mld w => Sys2Proof.Machine.execMld w s
  | .mst w => Sys2Proof.Machine.execMst w s
  | .mzero w => Sys2Proof.Machine.execMzero w s
  | .acpy w => Sys2Proof.Machine.execAcpy w s
  | .acpyin w => Sys2Proof.Machine.execAcpyin w s
  | .msave a b => Sys2Proof.Machine.execMsave a b s
  | .mrstr a b => Sys2Proof.Machine.execMrstr a b s
  | .mstat d => Sys2Proof.Machine.execMstat d s
  | .leaseGrant cl => Sys2Proof.Machine.execLeaseGrant cl s
  | .leaseRunIdleTimeout cl => Sys2Proof.Machine.execLeaseRunIdleTimeout cl s
  | .matrixAccept core => Sys2Proof.Machine.execMatrixAccept core s
  | .tileStep cl => Sys2Proof.Machine.execTileStep cl s
  | .arrayExecute cl => Sys2Proof.Machine.execArrayExecute cl s
  | .runDrain cl => Sys2Proof.Machine.execRunDrain cl s
  | .engineBurst team member e ix => Sys2Proof.Machine.execEngineBurst team member e ix s
  | .commandComplete team member t num => Sys2Proof.Machine.execCommandComplete team member t num s
  | .atsCompletion slice pasid page write r => Sys2Proof.Machine.execAtsCompletion slice pasid page write r s
  | .pageResponse slice pasid page write r => Sys2Proof.Machine.execPageResponse slice pasid page write r s
  | .atsInvalidate pasid base len => Sys2Proof.Machine.execAtsInvalidate pasid base len s
  | .priReenable slice pasid => Sys2Proof.Machine.execPriReenable slice pasid s
  | .loadComplete core ix => Sys2Proof.Machine.execLoadComplete core ix s
  | .multicastLand => Sys2Proof.Machine.execMulticastLand s
  | .l1Writeback core pasid vline => Sys2Proof.Machine.execL1Writeback core pasid vline s
  | .dramRead pa ue => Sys2Proof.Machine.execDramRead pa ue s
  | .l2Evict line ue => Sys2Proof.Machine.execL2Evict line ue s
  | .mscEvict line ue => Sys2Proof.Machine.execMscEvict line ue s
  | .writeQueueFlush line ue => Sys2Proof.Machine.execWriteQueueFlush line ue s
  | .hostPcieWrite pa data => Sys2Proof.Machine.execHostPcieWrite pa data s
  | .hostPcieRead pa n => Sys2Proof.Machine.execHostPcieRead pa n s
  | .memsplitWrite v => Sys2Proof.Machine.execMemsplitWrite v s
  | .launchDoorbell vf => Sys2Proof.Machine.execLaunchDoorbell vf s
  | .timeTableRelease vf ix => Sys2Proof.Machine.execTimeTableRelease vf ix s
  | .dispatch slice vf => Sys2Proof.Machine.execDispatch slice vf s
  | .recordAging slice vf prio queue => Sys2Proof.Machine.execRecordAging slice vf prio queue s
  | .quantumExpiry cl => Sys2Proof.Machine.execQuantumExpiry cl s
  | .swapOut cl => Sys2Proof.Machine.execSwapOut cl s
  | .bankSwitch core => Sys2Proof.Machine.execBankSwitch core s
  | .dispatchDescriptorWrite vf ws => Sys2Proof.Machine.execDispatchDescriptorWrite vf ws s
  | .mailboxDoorbell vf bits => Sys2Proof.Machine.execMailboxDoorbell vf bits s
  | .timeSliceEnd slice vf => Sys2Proof.Machine.execTimeSliceEnd slice vf s
  | .preemptBudgetExpiry core cyc cyc2 => Sys2Proof.Machine.execPreemptBudgetExpiry core cyc cyc2 s
  | .takeTrap core => Sys2Proof.Machine.execTakeTrap core s
  | .coreInterrupt core vector => Sys2Proof.Machine.execCoreInterrupt core vector s
  | .wfeLimitExpiry core => Sys2Proof.Machine.execWfeLimitExpiry core s
  | .coreResume core v => Sys2Proof.Machine.execCoreResume core v s
  | .nodeRollback team => Sys2Proof.Machine.execNodeRollback team s
  | .nodeKill team => Sys2Proof.Machine.execNodeKill team s
  | .badgerPass pass pattern => Sys2Proof.Machine.execBadgerPass pass pattern s
  | .auditRequest cl => Sys2Proof.Machine.execAuditRequest cl s
  | .poolFree vf hyp aper count list => Sys2Proof.Machine.execPoolFree vf hyp aper count list s
  | .poolTake vf hyp aper count list => Sys2Proof.Machine.execPoolTake vf hyp aper count list s
  | .scrubPage aper => Sys2Proof.Machine.execScrubPage aper s
  | .shareWrite slice vf v => Sys2Proof.Machine.execShareWrite slice vf v s
  | .shareChangeComplete slice => Sys2Proof.Machine.execShareChangeComplete slice s
  | .sliceReset slice => Sys2Proof.Machine.execSliceReset slice s
  | .migrationStage vf rank chip bound withdraw => Sys2Proof.Machine.execMigrationStage vf rank chip bound withdraw s
  | .fabricPacketSend team member => Sys2Proof.Machine.execFabricPacketSend team member s
  | .fabricPacketReceive p => Sys2Proof.Machine.execFabricPacketReceive p s
  | .fabricAckReceive vf chip mark => Sys2Proof.Machine.execFabricAckReceive vf chip mark s
  | .heartbeatSend => Sys2Proof.Machine.execHeartbeatSend s
  | .peerLost vf rank => Sys2Proof.Machine.execPeerLost vf rank s
  | .boundaryMessage vf m => Sys2Proof.Machine.execBoundaryMessage vf m s
  | .stepApplyComplete vf => Sys2Proof.Machine.execStepApplyComplete vf s
  | .routeFailover vf chip why => Sys2Proof.Machine.execRouteFailover vf chip why s
  | .linkFlitReceive port seq fecOk hold f => Sys2Proof.Machine.execLinkFlitReceive port seq fecOk hold f s
  | .linkNakReceive port seq => Sys2Proof.Machine.execLinkNakReceive port seq s
  | .laneControl port lanes seq => Sys2Proof.Machine.execLaneControl port lanes seq s
  | .berWindow port sec => Sys2Proof.Machine.execBerWindow port sec s
  | .retrainComplete port lam ok => Sys2Proof.Machine.execRetrainComplete port lam ok s
  | .lossOfLight port light => Sys2Proof.Machine.execLossOfLight port light s
  | .emitterPowerLoss port q => Sys2Proof.Machine.execEmitterPowerLoss port q s
  | .linkProgressTimeout port => Sys2Proof.Machine.execLinkProgressTimeout port s
  | .portPark port => Sys2Proof.Machine.execPortPark port s
  | .wavelengthRelockComplete port => Sys2Proof.Machine.execWavelengthRelockComplete port s
  | .stepGroupDescriptorWrite vf pa => Sys2Proof.Machine.execStepGroupDescriptorWrite vf pa s
  | .controlSpaceWrite m r v => Sys2Proof.Machine.execControlSpaceWrite m r v s
  | .semaphoreRead m n => Sys2Proof.Machine.execSemaphoreRead m n s
  | .semaphoreWrite m n v => Sys2Proof.Machine.execSemaphoreWrite m n v s
  | .mgmtLinkTimeout => Sys2Proof.Machine.execMgmtLinkTimeout s
  | .hostComplexReset => Sys2Proof.Machine.execHostComplexReset s
  | .qstateEntry b idleNs => Sys2Proof.Machine.execQstateEntry b idleNs s
  | .qstateWake b => Sys2Proof.Machine.execQstateWake b s
  | .pwrwarnAssert => Sys2Proof.Machine.execPwrwarnAssert s
  | .pwrwarnHoldExpiry cyc cyc2 => Sys2Proof.Machine.execPwrwarnHoldExpiry cyc cyc2 s
  | .pwrwarnRelease => Sys2Proof.Machine.execPwrwarnRelease s
  | .powerRailRestore => Sys2Proof.Machine.execPowerRailRestore s
  | .overcurrent => Sys2Proof.Machine.execOvercurrent s
  | .overcurrentRecovery => Sys2Proof.Machine.execOvercurrentRecovery s
  | .moduleReset badStacks badClusters badRx badTx => Sys2Proof.Machine.execModuleReset badStacks badClusters badRx badTx s
  | .attestationRequest m pa => Sys2Proof.Machine.execAttestationRequest m pa s
  | .attestationComplete => Sys2Proof.Machine.execAttestationComplete s
  | .emitterPowerReturn port q => Sys2Proof.Machine.execEmitterPowerReturn port q s
  | .ptpClockLock ns => Sys2Proof.Machine.execPtpClockLock ns s

end Sys2Proof.Machine
end

