-- ==== Sys2Proof/Machine/Step.lean ====
section
/-! DEFINITION. One step of the module: what the agenda puts next; else an event of the module's own that is ready;
else a retry; else an instruction of the next core in a circle. -/

namespace Sys2Proof.Machine

/-- One instruction boundary of the turn's core: the cause that is pending, or the next word, fetched, decoded, held by
its interlocks or executed (R39, R40, R149, R340). -/
def State.coreStep (s : State) : Host.Outcome State Fault Refusal :=
  let core := s.turn
  let s := s.as (s.vfOfCore core)
  if !s.issues core then .next s
  else match s.boundary core with
    | some t => .next t
    | none => match s.fetchWord core with
      | .error (.trap t i) => .next (t.takeSync core i)
      | .error (.wait t) => .next t
      | .ok (t, ps) => match decode ps with
        | .error n => .next (t.takeSync core (tUndecoded n ps))
        | .ok i => match t.guard core i with
          | .wait => .next t
          | .bad => .next (t.badRegister core)
          | .go => exec i t

/-- One step. A control-space write is performed as its event where it is 8 bytes wide and aligned (R406). -/
def step (s : State) : Host.Outcome State Fault Refusal :=
  match s.agenda with
  | .ev i :: r =>
    let s := ({ s with agenda := r } : State).passTime
    if i.isEvent then exec i (s.as (s.eventVf i)) else .next s
  | .run k :: r =>
    if k < 256 then ({ s with agenda := r, turn := k } : State).passTime.coreStep else .fault .noCore
  | .write m off w i :: r =>
    let s := (({ s with agenda := r } : State).passTime).as 8
    match s.badAccess m off w with
    | some t => .next t
    | none => if i.isEvent then exec i s else .next s
  | a :: r => (({ s with agenda := r } : State).passTime.as 8).outside a
  | [] =>
    let s := s.passTime
    match s.nextEvent with
    | some o => o
    | none => match s.nextRetry with
      | some t => .next t
      | none => match s.nextCore with
        | some k => ({ s with turn := k } : State).coreStep
        | none => .next s

/-- The state in which the next step runs a given word: a task of one member of VF 0 in ring U on core 0, at address 0
of an address space whose first page stands at PA 0, with the word's bytes there; and the core's turn next. The
registers of the core's context stay. -/
def State.withFetchWord (s : State) (nbits w : Nat) : State :=
  let id := s.nextTeam
  let pasid := (s.vf 0).taskPasid
  let s := s.poke 0 (leBytes 24 (w % 2 ^ nbits))
  let s := { s with nextTeam := id + 1, agenda := .run 0 :: s.agenda }
  let s := s.onTeam id (fun _ => { live := true, record := List.replicate 32 0, cluster := some 0 })
  let s := s.onCluster 0 (fun c => { c with team := id, array := {} })
  let s := s.onSlice 0 (fun sl => { sl with
    dtc := ⟨pasid, 0, 12, 0, true, true⟩ :: sl.dtc, refused := [], ats := [], stopped := false })
  let s := s.onMgmt (fun m => { m with railsOff := false, held := false })
  s.onCore 0 (fun c => { c with
    team := id, running := true, halted := false, dead := false, abort := none, abortQ := [], stepped := none, preempt := false
    intr := none, bankPasid := pasid, l1i := []
    ctx := { regs := { c.ctx.regs with bad := [] }, ctl := c.ctx.ctl } })

end Sys2Proof.Machine
end

