-- ==== Sys2Proof/Safety.lean ====
section
/-! DEFINITION. The terms that claims use: what a safe run is, what an instruction leaves unchanged, and how an
instruction ends. -/

namespace Sys2Proof.Machine

/-- Every core that the agenda names is one that the module has (R4). -/
def State.agendaOk (s : State) : Bool :=
  s.agenda.all (fun a => match a with
    | .run k => decide (k < 256)
    | _ => true)

/-- The memory is in its canonical form. -/
def State.memOk (s : State) : Bool := Memory.wf s.home.mem

/-- A step that answers a next state. -/
def Steps (s t : State) : Prop := step s = .next t

/-- The states that a run passes through. -/
inductive Reaches (s : State) : State → Prop where
  | here : Reaches s s
  | more {t u : State} : Reaches s t → Steps t u → Reaches s u

/-- A run from a state is safe: no step of it faults or refuses. -/
def SafeFrom (s : State) : Prop := ∀ t, Reaches s t → ∃ u, Steps t u

/-! ### Frames -/

/-- Every byte of memory, as each node sees it, and every byte of scratchpad reads as before. -/
def SameBytes (s t : State) : Prop :=
  (∀ team a, t.viewByte team a = s.viewByte team a)
  ∧ ∀ cl off n, (t.cluster cl).store.spGet off n = (s.cluster cl).store.spGet off n

/-- Nothing but the cores differs, and of the cores nothing but the turn's. -/
def OnlyTurn (s t : State) : Prop :=
  t = { s with cores := t.cores } ∧ ∀ n, n ≠ s.turn → t.core n = s.core n

/-- Of a core nothing but its context and its pending step trap differs: its banks' other state, its trap registers of
rings H and M, its L1 lines and its pending causes stay. -/
def SameCore (c c' : Core) : Prop := c' = { c with ctx := c'.ctx, stepped := c'.stepped }

/-- Of a context nothing but the pc, the scalar registers, the count of retired instructions, an open line region and
what an instruction of its ring waits in differs: every tag, vector, tile, mask and stream register, the flags, the
generator, the trap registers, timelines, queues and counters stay. -/
def SameCtx (x x' : Ctx) : Prop :=
  x' = { x with
    pc := x'.pc, regs := x'.regs, ctl := x'.ctl, region := x'.region, wfe := none, mx := none
    steps := x.steps.filter (·.ring ≠ x.ring) }
  ∧ x'.ctl = { x.ctl with retired := x'.ctl.retired }
  ∧ x'.regs = { x.regs with s := x'.regs.s, bad := x'.regs.bad }

/-- The frame of a register instruction: nothing but the listed scalar registers and the pc. -/
def RegFrame (s t : State) (dests : List SReg) : Prop :=
  OnlyTurn s t ∧ SameCore (s.core s.turn) (t.core s.turn) ∧ SameCtx (s.ctx s.turn) (t.ctx s.turn)
  ∧ (∀ r, r ∉ dests → (t.ctx s.turn).rs r = (s.ctx s.turn).rs r) ∧ SameBytes s t

/-! ### How an instruction ends -/

/-- The region after a word that breaks an open one (R107). -/
def brokenRegion (x : Ctx) : Option Region := x.region.map (fun r => { r with broken := true })

/-- The instruction answers a next state in which the scalar destination holds the value (s0 stays 0), the pc is the
given one, one more instruction counts as retired, and nothing else differs. -/
def Retires (i : Instr) (s : State) (d : SReg) (v pc : Word) (breaks : Bool) : Prop :=
  ∃ t, exec i s = .next t ∧ RegFrame s t [d]
    ∧ (t.ctx s.turn).rs d = (if d = 0 then 0 else v)
    ∧ (t.ctx s.turn).pc = pc
    ∧ (t.ctx s.turn).ctl.retired = (s.ctx s.turn).ctl.retired + 1
    ∧ (t.ctx s.turn).region = (if breaks then brokenRegion (s.ctx s.turn) else (s.ctx s.turn).region)

/-- A word of the plain arithmetic majors writes its destination and goes on; a line region stays open (R107). -/
def Writes (i : Instr) (s : State) (d : SReg) (v : Word) : Prop :=
  Retires i s d v ((s.ctx s.turn).pc + 4) false

/-- A word of another major writes its destination and goes on; an open line region is broken. -/
def WritesBreaking (i : Instr) (s : State) (d : SReg) (v : Word) : Prop :=
  Retires i s d v ((s.ctx s.turn).pc + 4) true

/-- The word takes a synchronous exception in a state: what `State.takeSync` makes of the cause is the next state. -/
def Traps (i : Instr) (s s0 : State) (t : TrapInfo) : Prop := exec i s = .next (s0.takeSync s0.turn t)

/-- The word waits: the next state keeps the pc and the count of retired instructions. -/
def Waits (i : Instr) (s : State) : Prop :=
  ∃ t, exec i s = .next t ∧ (t.ctx s.turn).pc = (s.ctx s.turn).pc
    ∧ (t.ctx s.turn).ctl.retired = (s.ctx s.turn).ctl.retired

end Sys2Proof.Machine
end

