-- ==== Sys2Proof/Certificates/Slice0/Obligations.lean ====
section
/-! DEFINITION. The statements for the provers: what the instructions and the machine do, by the rules of the
specification. -/

open Sys2Proof
open Sys2Proof.Machine

/-! ### Encoding -/

/-- R37, R41, R44 to R52: words written out from the encoding tables decode to the instructions they stand for. ADDI
s3, s4, −5; BGEU s1, s2, +12 parcels; JAL s1, −1 parcel; STD s5, 16(s6); AMOCAS s2, s3, s4; CPY s7, s8; CSRS s1, s2 of
ctl.dbgctl; VADD.FP32 v1, v2, v3 under mask k1; MZERO a2 to FP32 under masks k3 and k4. -/
def Obligations.SpecWordsDecode : Prop :=
  decode [0b1111111111011_000100_000011_000001_0#32] = .ok (.addi 3 4 (-5))
  ∧ decode [0b0000001100_101_000010_000001_001010_0#32] = .ok (.bgeu 1 2 12)
  ∧ decode [0b1111111111111111111_000001_001011_0#32] = .ok (.jal 1 (-1))
  ∧ decode [0b0000000010000_000110_000101_011011_0#32] = .ok (.std 5 6 16)
  ∧ decode [0b0001011_000100_000011_000010_100000_0#32] = .ok (.amocas 2 3 4)
  ∧ decode [0b0000000_000000_001000_000111_101000_0#32] = .ok (.cpy 7 8)
  ∧ decode [0b0000100010000_000010_000001_110100_0#32] = .ok (.csrs 1 2 .dbgctl)
  ∧ decode [0b00001000_00_000_0100_001_0000000000_01#32, 0b0000000000010000_0000000000000000#32,
      0b000000000000000000011000_00000000#32]
    = .ok (.vadd ⟨1, .fp32, 0, 0, .v 1, .v 2, .v 3⟩)
  ∧ decode [0b0_0100_0000_0000_100_011_010_00000101_11#32, 0#32, 0#32, 0#32, 0#32, 0#32]
    = .ok (.mzero { MWord.zero with acc := 2, rowMask := 3, colMask := 4, cf := .fp32 })

/-- Every well-formed instruction of the whole table, with every operand at every value its encoding admits, decodes
back from the words that the encoder writes for it: no bit of an encoding is dropped. -/
def Obligations.DecodeEncodeRoundTrip : Prop := ∀ i : Instr, i.wf = true → decode (encode i) = .ok i

/-- R40: a word that decodes has no other meaning and no bit without one: the parcels of its length are those that the
encoder writes for the instruction, and the instruction is well formed. -/
def Obligations.DecodedWordReencodes : Prop :=
  ∀ (p : Parcel) (ps : List Parcel) (i : Instr), (p :: ps).length = wordParcels p.toNat →
    decode (p :: ps) = .ok i → i.wf = true ∧ encode i = p :: ps

/-! ### The step -/

/-- The state in which a core that the agenda names begins its turn: time has passed, and the requests of the step are
made for the VF of the core's team. -/
def Sys2Proof.Machine.turnState (s : State) (r : List Act) (k : Nat) : State :=
  (({ s with agenda := r, turn := k } : State).passTime).as
    ((({ s with agenda := r, turn := k } : State).passTime).vfOfCore k)

/-- A step runs the decoded instruction. Where the agenda gives the turn to core `k`, time passes; where the core may
begin an instruction and takes no cause at the boundary, it reads every parcel of the word at its pc; where these
decode to `i` and no interlock holds `i` back, the step is `exec i`. The first parcel is the four bytes that the node
sees at the pc's translation, or those of the copy of its line in the core's instruction cache, where the copy is
taken: the model's choice (log entries 19 and 44). The fetch changes nothing but where lines stand in the memory
system, what DRAM holds of them, and what that cache holds. -/
def Obligations.StepRunsDecodedInstruction : Prop :=
  ∀ (s t u : State) (k : Nat) (r : List Act) (ps : List Parcel) (i : Instr),
    s.agenda = .run k :: r → k < 256 → u = turnState s r k →
    u.issues k = true → u.boundary k = none → u.fetchWord k = .ok (t, ps) →
    decode ps = .ok i → t.guard k i = .go →
    step s = exec i t ∧ t.turn = k
    ∧ t = { u with home := t.home, cores := t.cores }
    ∧ (∃ pl o b, t.home = { u.home with place := pl, old := o, mscBad := b })
    ∧ (∃ l, t.core k = { u.core k with l1i := l }) ∧ (∀ n, n ≠ k → t.core n = u.core n)
    ∧ ∃ pa, u.translate (.core k) (sliceOf k) (u.pasidOf k false) (u.ctx k).pc.toNat false = .ok pa
        ∧ ps.head? = some ((u.codeCopy k pa).getD (BitVec.ofNat 32 (leNat (u.view (u.core k).team pa 4))))

/-- Model's choice (log entry 15): with an empty agenda and no event or retry of the module's own that is ready, the
turn goes to the next core in a circle, and the step runs its decoded instruction; an event on the agenda runs as the
event, for the VF that it names. R9, R406: a control-space access that is not 8 bytes wide and aligned is answered
with an abort and changes no register; an aligned write runs as its event, and an aligned read answers the register's
value. -/
def Obligations.StepTurnsAndEvents : Prop :=
  (∀ (s t u : State) (k : Nat) (ps : List Parcel) (i : Instr),
    s.agenda = [] → s.passTime.nextEvent = none → s.passTime.nextRetry = none → s.passTime.nextCore = some k →
    u = ({ s.passTime with turn := k } : State).as (s.passTime.vfOfCore k) →
    u.issues k = true → u.boundary k = none → u.fetchWord k = .ok (t, ps) → decode ps = .ok i → t.guard k i = .go →
    step s = exec i t)
  ∧ (∀ (s u : State) (i : Instr) (r : List Act), s.agenda = .ev i :: r → i.isEvent = true →
    u = ({ s with agenda := r } : State).passTime → step s = exec i (u.as (u.eventVf i)))
  ∧ (∀ (s u : State) (m : Master) (off w : Nat) (i : Instr) (r : List Act), s.agenda = .write m off w i :: r →
    u = ({ s with agenda := r } : State).passTime.as 8 →
    (¬ (off % 8 = 0 ∧ w = 8) → step s = .next (u.signal (.spaceAbort m)))
    ∧ (off % 8 = 0 → w = 8 → i.isEvent = true → step s = exec i u))
  ∧ ∀ (s u : State) (m : Master) (off w : Nat) (x : RReg) (r : List Act), s.agenda = .read m off w x :: r →
    u = ({ s with agenda := r } : State).passTime.as 8 →
    (¬ (off % 8 = 0 ∧ w = 8) → step s = .next (u.signal (.spaceAbort m)))
    ∧ (off % 8 = 0 → w = 8 → ∃ t, step s = .next t
      ∧ t.mgmt.signals = .spaceReply m (u.readReg x) :: u.mgmt.signals
      ∧ t.cores = u.cores ∧ t.vfs = u.vfs ∧ t.home = u.home ∧ t.mgmt.pwrctl = u.mgmt.pwrctl)

/-- R40, R338, R339: a word that does not decode raises ILLEGAL_INSTRUCTION (cause 0x01) with the failing step in
cause[10:8] and the word's first parcel in the detail register, and executes nothing. Stated for a core in ring U: the
trap is taken in ring D with EPC the word's own address. -/
def Obligations.UndecodedWordTraps : Prop :=
  ∀ (s t : State) (k : Nat) (r : List Act) (p : Parcel) (ps : List Parcel) (n : Nat),
    s.agenda = .run k :: r → k < 256 →
    (turnState s r k).issues k = true → (turnState s r k).boundary k = none →
    (turnState s r k).fetchWord k = .ok (t, p :: ps) →
    decode (p :: ps) = .error n → (t.ctx k).ring = .u →
    ∃ u, step s = .next u
      ∧ (u.ctx k).ring = .d ∧ (u.ctx k).pc = (t.ctx k).ctl.d.tvec &&& ~~~3#64
      ∧ (u.ctx k).ctl.d.epc = (t.ctx k).pc
      ∧ (u.ctx k).ctl.d.cause = BitVec.ofNat 64 (0x01 + 256 * n)
      ∧ (u.ctx k).ctl.d.tval = p.setWidth 64
      ∧ ∀ q, (u.ctx k).rs q = (t.ctx k).rs q

/-! ### Reset and invariants -/

/-- What reset leaves. By the rules that give a value: MEMSPLIT reads WIDE = 36 and LOCK = 0 (R66); the status word of
every ring has IE = 1, and the trap registers are zero but for it (R338); ctl.world is 0 (R396) and no entry of the
region table applies (R397). By the model's choice (log entry 14): no team is there, nothing is queued, no translation
is cached, and no core runs. The model's own form of memory (log entry 1): at reset it lists nothing, and so stands in
the canonical form. -/
def Obligations.ResetState : Prop :=
  ((∀ k, (State.reset.core k).running = false) ∧ (∀ n, (State.reset.team n).live = false)
   ∧ (∀ n, (State.reset.slice n).dtc = [] ∧ (State.reset.slice n).queues = [])
   ∧ State.reset.home.wide = 36 ∧ State.reset.home.splitLock = false
   ∧ State.reset.home.world = 0 ∧ (∀ n, State.reset.home.regionLo.get n = 0)
   ∧ (∀ k q, (State.reset.core k).trapRegs q = { status := 4 }))
  ∧ (State.reset.memOk = true ∧ State.reset.home.mem = [])

/-! ### Number formats -/

/-- The exponent width, fraction width and bias of the floating-point formats (R18). -/
def Sys2Proof.Machine.floatFields : Fmt → Option (Nat × Nat × Nat)
  | .fp64 => some (11, 52, 1023) | .fp32 => some (8, 23, 127) | .bf16 => some (8, 7, 127) | .fp16 => some (5, 10, 15)
  | .e4m3 => some (4, 3, 7) | .e5m2 => some (5, 2, 15) | .e3m2 => some (3, 2, 3) | .e2m3 => some (2, 3, 1)
  | _ => none

/-- The formats with infinities (R19). -/
def Sys2Proof.Machine.infFormats : List Fmt := [.fp64, .fp32, .bf16, .fp16, .e5m2]

/-- The sign of a floating-point pattern, and its pattern of an infinity (R18, R19). -/
def Sys2Proof.Machine.patSign (f : Fmt) (x : Nat) : Bool := x.testBit (fmtBits f - 1)
def Sys2Proof.Machine.infPat (f : Fmt) (neg : Bool) : Nat :=
  match floatFields f with
  | some (e, w, _) => (2 ^ e - 1) * 2 ^ w + neg.toNat * 2 ^ (w + e)
  | none => 0

/-- The number that a pattern stands for; none for an infinity and a NaN (R17 to R19, R21, R23). -/
def Sys2Proof.Machine.patNum (f : Fmt) (x : Nat) : Option ℚ :=
  match f, floatFields f with
  | f, some (e, w, b) =>
    let fr := x % 2 ^ w
    let ex := x / 2 ^ w % 2 ^ e
    let sg : ℚ := if patSign f x then -1 else 1
    if (ex = 2 ^ e - 1 ∧ f ∈ infFormats) ∨ (f = .e4m3 ∧ ex = 15 ∧ fr = 7) then none
    else if ex = 0 then some (sg * 2 ^ (1 - b : ℤ) * (fr / 2 ^ w))
    else some (sg * 2 ^ (ex - b : ℤ) * (1 + fr / 2 ^ w))
  | .int8, none => some (BitVec.ofNat 8 x).toInt
  | .uint8, none => some (x % 256 : Nat)
  | .int16, none => some (BitVec.ofNat 16 x).toInt
  | .int32, none => some (BitVec.ofNat 32 x).toInt
  | .mk8, none => if x % 256 = 128 then none else some ((if x.testBit 7 then -1 else 1) * (x % 128 : Nat) / 64)
  | .e8, none => if x % 256 = 255 then none else some (2 ^ ((x % 256 : Nat) - 127 : ℤ))
  | _, none => some (x % 2 ^ 32 : Nat)

/-- The number that an exact value stands for. -/
def Sys2Proof.Machine.valNum : FVal → Option ℚ
  | .fin n m e false => some ((if n then -1 else 1) * m * 2 ^ e)
  | _ => none

/-- A number that the format holds. -/
def Sys2Proof.Machine.Holds (f : Fmt) (z : ℚ) : Prop := ∃ x, x < 2 ^ fmtBits f ∧ patNum f x = some z

/-- R24, R25: pattern `x` is the rounding of the real number `y`, which lies between two numbers of the format, under a
mode with a draw `u`. -/
def Sys2Proof.Machine.RoundsTo (f : Fmt) (rm : Rm) (u : Nat) (y : ℝ) (x : Nat) : Prop :=
  ∃ r : ℚ, x < 2 ^ fmtBits f ∧ patNum f x = some r ∧
    match rm with
    | .rz => |(r : ℝ)| ≤ |y| ∧ 0 ≤ r * y ∧ ∀ z, Holds f z → |(z : ℝ)| ≤ |y| → |z| ≤ |r|
    | .ru => y ≤ r ∧ ∀ z, Holds f z → y ≤ z → r ≤ z
    | .rd => (r : ℝ) ≤ y ∧ ∀ z, Holds f z → (z : ℝ) ≤ y → z ≤ r
    | .rne => ∀ z, Holds f z → z = r ∨ |r - y| < |z - y| ∨ (|r - y| = |z - y| ∧ x % 2 = 0)
    | .rna => ∀ z, Holds f z → z = r ∨ |r - y| < |z - y| ∨ (|r - y| = |z - y| ∧ |z| < |r|)
    | .rs => (∀ z, Holds f z → (z : ℝ) = y → r = z)
      ∧ ∀ lo hi, Holds f lo → Holds f hi → (lo : ℝ) < y → y < hi → (∀ z, Holds f z → z ≤ lo ∨ hi ≤ z) →
        r = if 1 ≤ (y - lo) / (hi - lo) + u / 2 ^ 24 then hi else lo

/-- R24 to R28: the pattern and the environment that rounding a real number between two numbers of the format gives: the
rounded pattern with the sign asked for, NX where it is inexact, UF where it is tiny and inexact, the draw of RS, and no
other flag. -/
def Sys2Proof.Machine.Rounded (f : Fmt) (rm : Rm) (y : ℝ) (neg : Bool) (env : FEnv) (out : Nat × FEnv) : Prop :=
  RoundsTo f rm (bitsOf (rngNext env.rng).toNat 40 24) y out.1
  ∧ ((floatFields f).isSome = true → patSign f out.1 = neg)
  ∧ out.2.rng = (if rm = .rs then rngNext env.rng else env.rng)
  ∧ (∀ n ∈ [0, 1, 2, 5, 6], out.2.flags.getLsbD n = env.flags.getLsbD n)
  ∧ (out.2.flags.getLsbD 4 = true ↔ (env.flags.getLsbD 4 = true ∨ ∀ z : ℚ, (z : ℝ) = y → patNum f out.1 ≠ some z))
  ∧ (∀ e w b, floatFields f = some (e, w, b) →
      ((2 : ℝ) ^ (1 - b : ℤ) ≤ |y| → out.2.flags.getLsbD 3 = env.flags.getLsbD 3)
      ∧ (|y| ≤ (2 : ℝ) ^ (1 - b : ℤ) * (1 - 1 / 2 ^ (w + 1)) →
        (out.2.flags.getLsbD 3 = true ↔ (env.flags.getLsbD 3 = true ∨ ∀ z : ℚ, (z : ℝ) = y → patNum f out.1 ≠ some z))))
  ∧ (floatFields f = none → (out.2.flags.getLsbD 3 = true ↔ (env.flags.getLsbD 3 = true ∨ (f = .mk8 ∧ out.1 = 0
      ∧ y ≠ 0))))

/-- R17 to R28: every pattern of every format decodes to its number, infinity or NaN, with its sign. Encoding an exact
value that lies between two numbers of the target rounds it correctly under each of the six modes, with one draw under
RS, NX where the result is inexact and UF where it is tiny (tininess is stated up to half a unit below the smallest
normal magnitude). A magnitude of twice the largest or more overflows, an integer target's out of range by one or more
clamps, and infinities and NaNs encode, as the table of R28 says. An E8 target takes the floor of the binary
logarithm, clamped. -/
def Obligations.RoundingIntoFormats : Prop :=
  (∀ (f : Fmt) (x : Nat), x < 2 ^ fmtBits f →
    (∀ q, patNum f x = some q → valNum (decodeF f x) = some q)
    ∧ (patNum f x = none → decodeF f x
      = if f ∈ infFormats ∧ x % 2 ^ (fmtBits f - 1) = infPat f false then .inf (patSign f x) else .nan)
    ∧ ((floatFields f).isSome = true → decodeF f x ≠ .nan → (decodeF f x).sign = patSign f x))
  ∧ (∀ (f : Fmt) (rm : Rm) (int : Bool) (v : FVal) (env : FEnv) (y lo hi : ℚ), f ≠ .raw → f ≠ .e8 → valNum v = some y →
    Holds f lo → Holds f hi → lo ≤ y → y ≤ hi → Rounded f rm y v.sign env (encodeF f rm int v env))
  ∧ (∀ (f : Fmt) (rm : Rm) (int : Bool) (v : FVal) (env : FEnv) (y top : ℚ) (x : Nat) (neg : Bool), valNum v = some y →
    neg = decide (y < 0) → x < 2 ^ (fmtBits f - 1) → patNum f x = some top → (∀ z, Holds f z → z ≤ top) →
        2 * top ≤ |y| →
    ((floatFields f).isSome = true →
      (encodeF f rm int v env).1
        = (if f ∈ [Fmt.fp64, .fp32, .bf16, .fp16] ∧ rm ≠ .rz ∧ (rm = .ru → neg = false) ∧ (rm = .rd → neg = true)
          then infPat f neg else x + neg.toNat * 2 ^ (fmtBits f - 1))
      ∧ (encodeF f rm int v env).2.flags
        = env.flags ||| (if f ∈ [Fmt.fp64, .fp32, .bf16, .fp16] then 0b0010100 else 0b0110100))
    ∧ (f = .mk8 → (encodeF f rm int v env).1 = (if neg then 0xFF else 0x7F)
      ∧ (encodeF f rm int v env).2.flags = env.flags ||| 0b0110100))
  ∧ (∀ (f : Fmt) (rm : Rm) (int neg : Bool) (v : FVal) (env : FEnv) (y lim : ℚ) (x : Nat), f ∈ [Fmt.int8, .uint8, .int16, .int32] →
    valNum v = some y → x < 2 ^ fmtBits f → patNum f x = some lim →
    (if neg then (∀ z, Holds f z → lim ≤ z) ∧ y ≤ lim - 1 else (∀ z, Holds f z → z ≤ lim) ∧ lim + 1 ≤ y) →
    (encodeF f rm int v env).1 = x
    ∧ (encodeF f rm int v env).2.flags = env.flags ||| (if int then 0b0100000 else 0b0100001) ||| (if y.den = 1 then 0 else 0b0010000))
  ∧ (∀ (f : Fmt) (rm : Rm) (int neg : Bool) (env : FEnv) (x : Nat) (top : ℚ),
    ((floatFields f).isSome = true → x < 2 ^ (fmtBits f - 1) → patNum f x = some top → (∀ z, Holds f z → z ≤ top) →
      (encodeF f rm int (.inf neg) env).1 = (if f ∈ infFormats then infPat f neg else x + neg.toNat * 2 ^ (fmtBits f - 1))
      ∧ (encodeF f rm int (.inf neg) env).2.flags = env.flags ||| (if f ∈ infFormats then 0 else 0b0100100))
    ∧ (f = .mk8 → (encodeF f rm int (.inf neg) env).1 = (if neg then 0xFF else 0x7F)
      ∧ (encodeF f rm int (.inf neg) env).2.flags = env.flags ||| 0b0100100)
    ∧ (f ≠ .raw → f ≠ .e8 → ((encodeF f rm int .nan env).1 = (match f with
        | .fp64 => 0x7FF8000000000000 | .fp32 => 0x7FC00000 | .bf16 => 0x7FC0 | .fp16 => 0x7E00 | .e4m3 => 0x7F
        | .e5m2 => 0x7E | .mk8 => 0x80 | _ => 0)
      ∧ (encodeF f rm int .nan env).2.flags
        = env.flags ||| (if f ∈ [Fmt.fp64, .fp32, .bf16, .fp16, .e4m3, .e5m2, .mk8] then 0 else 1))))
  ∧ ∀ (rm : Rm) (v : FVal) (env : FEnv) (y : ℚ), valNum v = some y →
    (∀ c : Nat, c < 255 → (2 : ℚ) ^ (c - 127 : ℤ) ≤ y → y < (2 : ℚ) ^ (c - 126 : ℤ) →
      encodeF .e8 rm false v env = (c, env.raise (if y = (2 : ℚ) ^ (c - 127 : ℤ) then 0 else 0b0010000)))
    ∧ (y ≤ 0 → encodeF .e8 rm false v env = (0xFF, env.raise 1))
    ∧ (0 < y → y < (2 : ℚ) ^ (-127 : ℤ) → (encodeF .e8 rm false v env).1 = 0
      ∧ (encodeF .e8 rm false v env).2.flags.getLsbD 5 = true)
    ∧ ((2 : ℚ) ^ (128 : ℤ) ≤ y → (encodeF .e8 rm false v env).1 = 254
      ∧ (encodeF .e8 rm false v env).2.flags.getLsbD 5 = true)
    ∧ (∀ n, encodeF .e8 rm false (.inf n) env = (0xFF, env.raise 1)) ∧ encodeF .e8 rm false .nan env = (0xFF, env)

/-! ### The step's invariant -/

/-- The model's own form of memory (log entry 1): every step, of every instruction and every event, keeps the memory
in its one canonical form (addresses strictly rising, no listed byte equal to what an unlisted address reads as), so
that equal memories are equal data. -/
def Obligations.StepKeepsMemoryCanonical : Prop :=
  ∀ s t : State, s.memOk = true → step s = .next t → t.memOk = true

/-! ### Scalar registers -/

/-- R159, R160: the register–register operations, by their fn numbers, value by value: sums, differences and products
wrap modulo 2^64, shifts use the low six bits, comparisons give 1 or 0, MULH and MULHU the high half of the exact
product, division by zero all ones and the dividend, quotients truncate toward zero. Each writes its destination,
moves on by one parcel and leaves everything else unchanged; s0 stays zero. R159: counting leading and trailing zeros
(64 where there is no one bit), counting ones, reversing bytes, and extending the sign of the low 8, 16 or 32 bits.
R161 to R163: the immediate operations take the sign-extended 13-bit immediate, also SLTIU, which compares it unsigned
after extension; the immediate shifts take a 6-bit amount; LUI and AUPC place the sign-extended 19-bit immediate at
bit 13. -/
def Obligations.RegisterOperations : Prop :=
  (∀ (s : State) (d a b : SReg) (x y : Word), s.rs a = x → s.rs b = y →
     Writes (.add d a b) s d (BitVec.ofNat 64 (x.toNat + y.toNat))
     ∧ Writes (.sub d a b) s d (BitVec.ofInt 64 (x.toInt - y.toInt))
     ∧ Writes (.and d a b) s d (x &&& y)
     ∧ Writes (.or d a b) s d (x ||| y)
     ∧ Writes (.xor d a b) s d (x ^^^ y)
     ∧ Writes (.andn d a b) s d (x &&& ~~~y)
     ∧ Writes (.sll d a b) s d (BitVec.ofNat 64 (x.toNat * 2 ^ (y.toNat % 64)))
     ∧ Writes (.srl d a b) s d (BitVec.ofNat 64 (x.toNat / 2 ^ (y.toNat % 64)))
     ∧ Writes (.sra d a b) s d (BitVec.ofInt 64 (x.toInt / 2 ^ (y.toNat % 64)))
     ∧ Writes (.slt d a b) s d (if x.toInt < y.toInt then 1 else 0)
     ∧ Writes (.sltu d a b) s d (if x.toNat < y.toNat then 1 else 0)
     ∧ Writes (.min d a b) s d (if x.toInt ≤ y.toInt then x else y)
     ∧ Writes (.max d a b) s d (if x.toInt ≤ y.toInt then y else x)
     ∧ Writes (.minu d a b) s d (if x.toNat ≤ y.toNat then x else y)
     ∧ Writes (.maxu d a b) s d (if x.toNat ≤ y.toNat then y else x)
     ∧ Writes (.mul d a b) s d (BitVec.ofInt 64 (x.toInt * y.toInt))
     ∧ Writes (.mulh d a b) s d (BitVec.ofInt 64 (x.toInt * y.toInt / 2 ^ 64))
     ∧ Writes (.mulhu d a b) s d (BitVec.ofNat 64 (x.toNat * y.toNat / 2 ^ 64))
     ∧ Writes (.div d a b) s d (if y = 0 then BitVec.allOnes 64 else BitVec.ofInt 64 (x.toInt.tdiv y.toInt))
     ∧ Writes (.divu d a b) s d (if y = 0 then BitVec.allOnes 64 else BitVec.ofNat 64 (x.toNat / y.toNat))
     ∧ Writes (.rem d a b) s d (if y = 0 then x else BitVec.ofInt 64 (x.toInt.tmod y.toInt))
     ∧ Writes (.remu d a b) s d (if y = 0 then x else BitVec.ofNat 64 (x.toNat % y.toNat))
     ∧ ∀ e ∈ [(0, Instr.add d a b), (1, .sub d a b), (2, .and d a b), (3, .or d a b), (4, .xor d a b), (5, .andn d a b),
         (6, .sll d a b), (7, .srl d a b), (8, .sra d a b), (9, .slt d a b), (10, .sltu d a b), (11, .min d a b),
         (12, .max d a b), (13, .minu d a b), (14, .maxu d a b), (15, .mul d a b), (16, .mulh d a b), (17, .mulhu d a b),
         (18, .div d a b), (19, .divu d a b), (20, .rem d a b), (21, .remu d a b)],
       decode [BitVec.ofNat 7 e.1 ++ b ++ a ++ d ++ 0#6 ++ 0#1] = .ok e.2)
  ∧ (∀ (s : State) (d a : SReg) (x : Word), s.rs a = x →
       (∃ n, n ≤ 64 ∧ Writes (.clz d a) s d (BitVec.ofNat 64 n) ∧ (∀ i, 64 - n ≤ i → x.getLsbD i = false)
         ∧ (n < 64 → x.getLsbD (63 - n) = true))
       ∧ (∃ n, n ≤ 64 ∧ Writes (.ctz d a) s d (BitVec.ofNat 64 n) ∧ (∀ i, i < n → x.getLsbD i = false)
         ∧ (n < 64 → x.getLsbD n = true))
       ∧ Writes (.popc d a) s d (BitVec.ofNat 64 ((List.range 64).filter (fun i => x.getLsbD i)).length)
       ∧ (∃ v : Word, Writes (.bswap d a) s d v
         ∧ ∀ n, n < 8 → v.extractLsb' (8 * n) 8 = x.extractLsb' (8 * (7 - n)) 8)
       ∧ Writes (.sextb d a) s d ((x.extractLsb' 0 8).signExtend 64)
       ∧ Writes (.sexth d a) s d ((x.extractLsb' 0 16).signExtend 64)
       ∧ Writes (.sextw d a) s d ((x.extractLsb' 0 32).signExtend 64)
       ∧ ∀ e ∈ [(22, Instr.clz d a), (23, .ctz d a), (24, .popc d a), (25, .bswap d a), (26, .sextb d a), (27, .sexth d a),
           (28, .sextw d a)], decode [BitVec.ofNat 7 e.1 ++ 0#6 ++ a ++ d ++ 0#6 ++ 0#1] = .ok e.2)
  ∧ (∀ (s : State) (d a : SReg) (imm : BitVec 13) (sh : BitVec 6) (up : BitVec 19) (x : Word), s.rs a = x →
       Writes (.addi d a imm) s d (BitVec.ofInt 64 (x.toInt + imm.toInt))
       ∧ Writes (.andi d a imm) s d (x &&& BitVec.ofInt 64 imm.toInt)
       ∧ Writes (.ori d a imm) s d (x ||| BitVec.ofInt 64 imm.toInt)
       ∧ Writes (.xori d a imm) s d (x ^^^ BitVec.ofInt 64 imm.toInt)
       ∧ Writes (.slti d a imm) s d (if x.toInt < imm.toInt then 1 else 0)
       ∧ Writes (.sltiu d a imm) s d (if x.toNat < (BitVec.ofInt 64 imm.toInt).toNat then 1 else 0)
       ∧ Writes (.slli d a sh) s d (BitVec.ofNat 64 (x.toNat * 2 ^ sh.toNat))
       ∧ Writes (.srli d a sh) s d (BitVec.ofNat 64 (x.toNat / 2 ^ sh.toNat))
       ∧ Writes (.srai d a sh) s d (BitVec.ofInt 64 (x.toInt / 2 ^ sh.toNat))
       ∧ Writes (.lui d up) s d (BitVec.ofInt 64 (up.toInt * 8192))
       ∧ Writes (.aupc d up) s d (BitVec.ofInt 64 ((s.ctx s.turn).pc.toNat + up.toInt * 8192)))

/-! ### Exact arithmetic -/

/-- The formats that arithmetic rounds into. -/
def Sys2Proof.Machine.arithFormats : List Fmt := [.fp64, .fp32, .bf16, .fp16]

/-- FP32 round to nearest even of a real number (R35). -/
def Sys2Proof.Machine.Rne32 (y : ℝ) (q : ℚ) : Prop := ∃ x, RoundsTo .fp32 .rne 0 y x ∧ patNum .fp32 x = some q

/-- What a transcendental answers with no flag: a pattern of FP32 that stands for a number. -/
def Sys2Proof.Machine.Gives (t : TFun) (x : Nat) (q : ℚ) : Prop :=
  ∃ y, transc t .fp32 x ⟨0, 0⟩ = (y, ⟨0, 0⟩) ∧ patNum .fp32 y = some q

/-- The patterns of FP32 that R36's table of special sources gives, from NaN to +∞, with their flags (1 NV, 2 DZ). -/
def Sys2Proof.Machine.specialRows : List (TFun × List (Nat × Flags)) :=
  let nan := 0x7FC00000
  let inf := 0x7F800000
  let ninf := 0xFF800000
  let one := 0x3F800000
  [(.exp2, [(nan, 0), (0, 0), (one, 0), (one, 0), (inf, 0)]), (.log2, [(nan, 0), (nan, 1), (ninf, 2), (ninf, 2), (inf, 0)]),
    (.rcp, [(nan, 0), (0x80000000, 0), (ninf, 2), (inf, 2), (0, 0)]), (.rsq, [(nan, 0), (nan, 1), (ninf, 2), (inf, 2), (0, 0)]),
    (.sigm, [(nan, 0), (0, 0), (0x3F000000, 0), (0x3F000000, 0), (one, 0)]),
    (.tanh, [(nan, 0), (0xBF800000, 0), (0, 0), (0, 0), (one, 0)])]

/-- R20, R32, R33, R35, R36, R180 (and R103, R104, R195, R238 by use): sums, differences, products and fused
multiply-adds round the exact result once; so do quotients and roots. A zero sum of opposite signs is +0 but under RD;
a NaN source gives NaN without a flag; ∞ − ∞, 0 × ∞, 0 / 0, ∞ / ∞ and the root of a negative number give NaN with NV,
and a number over zero ±∞ with DZ. MAX and MIN order −0 below +0. RCP and RSQ round correctly, EXP2, LOG2, SIGM and
TANH take the steps of R36, the special sources give its table, and a result below 2^−126 becomes zero with FZ; log2(1
+ i/128) is pinned to 2^−9 only. BF16 and FP16 sources go through FP32. -/
def Obligations.ArithmeticRoundsOnce : Prop :=
  (∀ (f : Fmt) (rm : Rm) (env : FEnv) (p q r : Nat) (a b c lo hi : ℚ), f ∈ arithFormats → patNum f p = some a →
    patNum f q = some b → patNum f r = some c → Holds f lo → Holds f hi →
    (a + b ≠ 0 → lo ≤ a + b → a + b ≤ hi →
      Rounded f rm (a + b : ℚ) (decide (a + b < 0)) env (addF f rm (decodeF f p) (decodeF f q) env))
    ∧ (a - b ≠ 0 → lo ≤ a - b → a - b ≤ hi →
      Rounded f rm (a - b : ℚ) (decide (a - b < 0)) env (addF f rm (decodeF f p) (decodeF f q).neg env))
    ∧ (a + b = 0 → Rounded f rm 0 (if patSign f p = patSign f q then patSign f p else rm == .rd) env
      (addF f rm (decodeF f p) (decodeF f q) env))
    ∧ (lo ≤ a * b → a * b ≤ hi →
      Rounded f rm (a * b : ℚ) (patSign f p != patSign f q) env (mulF f rm (decodeF f p) (decodeF f q) env))
    ∧ (a * b + c ≠ 0 → lo ≤ a * b + c → a * b + c ≤ hi →
      Rounded f rm (a * b + c : ℚ) (decide (a * b + c < 0)) env (fmaF f rm (decodeF f p) (decodeF f q) (decodeF f r) env))
    ∧ (b ≠ 0 → lo ≤ a / b → a / b ≤ hi →
      Rounded f rm (a / b : ℚ) (patSign f p != patSign f q) env (divF f rm (decodeF f p) (decodeF f q) env))
    ∧ (0 < a → Rounded f rm (Real.sqrt a) false env (sqrtF f rm (decodeF f p) env))
    ∧ (b = 0 → (divF f rm (decodeF f p) (decodeF f q) env).2.flags = env.flags ||| (if a = 0 then 1 else 2))
    ∧ (b = 0 → a ≠ 0 → (divF f rm (decodeF f p) (decodeF f q) env).1 = infPat f (patSign f p != patSign f q))
    ∧ (a < 0 → sqrtF f rm (decodeF f p) env = encodeF f rm false .nan (env.raise 1))
    ∧ (a ≠ b → exactBits f ((decodeF f p).max (decodeF f q)) = (if a < b then q else p) % 2 ^ fmtBits f
      ∧ exactBits f ((decodeF f p).min (decodeF f q)) = (if a < b then p else q) % 2 ^ fmtBits f))
  ∧ (∀ (f : Fmt) (rm : Rm) (env : FEnv) (v w : FVal) (s t : Bool) (m : Nat) (e : Int), f ∈ arithFormats →
    addF f rm .nan v env = encodeF f rm false .nan env ∧ addF f rm v .nan env = encodeF f rm false .nan env
    ∧ mulF f rm .nan v env = encodeF f rm false .nan env ∧ mulF f rm v .nan env = encodeF f rm false .nan env
    ∧ divF f rm .nan v env = encodeF f rm false .nan env ∧ sqrtF f rm .nan env = encodeF f rm false .nan env
    ∧ fmaF f rm .nan v w env = encodeF f rm false .nan env ∧ fmaF f rm v w .nan env = encodeF f rm false .nan env
    ∧ addF f rm (.inf s) (.inf !s) env = encodeF f rm false .nan (env.raise 1)
    ∧ addF f rm (.inf s) (.inf s) env = encodeF f rm false (.inf s) env
    ∧ mulF f rm (.inf s) (.fin t 0 e false) env = encodeF f rm false .nan (env.raise 1)
    ∧ divF f rm (.inf s) (.inf t) env = encodeF f rm false .nan (env.raise 1)
    ∧ (m ≠ 0 → mulF f rm (.inf s) (.fin t m e false) env = encodeF f rm false (.inf (s != t)) env)
    ∧ FVal.max .nan v = .nan ∧ FVal.max v .nan = .nan ∧ FVal.min .nan v = .nan ∧ FVal.min v .nan = .nan
    ∧ exactBits f (FVal.max (.zero true) (.zero false)) = 0
        ∧ exactBits f (FVal.min (.zero false) (.zero true)) = 2 ^ (fmtBits f - 1))
  ∧ (∀ (t : TFun) (l : List (Nat × Flags)) (env : FEnv) (n x : Nat), (t, l) ∈ specialRows → n < 5 →
    x = [0x7FC00000, 0xFF800000, 0x80000000, 0, 0x7F800000].getD n 0 →
    transc t .fp32 x env = ((l.getD n (0, 0)).1, env.raise (l.getD n (0, 0)).2))
  ∧ (∀ (x : Nat) (a : ℚ), x < 2 ^ 32 → patNum .fp32 x = some a →
    (a ≠ 0 → 1 / 2 ^ 126 ≤ |1 / a| → |1 / a| < 2 ^ 128 - 2 ^ 103 → ∃ q, Rne32 (1 / a : ℚ) q ∧ Gives .rcp x q)
    ∧ (a ≠ 0 → |1 / a| < 1 / 2 ^ 126 * (1 - 1 / 2 ^ 24) →
      ∀ env, transc .rcp .fp32 x env = (if a < 0 then 2 ^ 31 else 0, env.raise 0b1000000))
    ∧ (0 < a → ∃ q, Rne32 (1 / Real.sqrt a) q ∧ Gives .rsq x q)
    ∧ (a < 0 → ∀ env, transc .rsq .fp32 x env = (0x7FC00000, env.raise 1)
        ∧ transc .log2 .fp32 x env = (0x7FC00000, env.raise 1))
    ∧ (128 ≤ a → ∀ env, transc .exp2 .fp32 x env = (0x7F800000, env.raise 0))
    ∧ (a < -150 → ∀ env, transc .exp2 .fp32 x env = (0, env.raise 0))
    ∧ (-126 ≤ a → a < 128 → ∃ (n : ℤ) (i : Nat) (g c1 c2 u v t y : ℚ), a = n + i / 128 + g ∧ i < 128 ∧ 0 ≤ g
        ∧ g < 1 / 128
      ∧ Rne32 (Real.log 2) c1 ∧ Rne32 (Real.log 2 ^ 2 / 2) c2 ∧ Rne32 ((2 : ℝ) ^ (i / 128 : ℝ)) t
      ∧ Rne32 (c2 * g + c1 : ℚ) u ∧ Rne32 (u * g : ℚ) v ∧ Rne32 (t * v + t : ℚ) y ∧ Gives .exp2 x (y * 2 ^ n))
    ∧ (0 < a → ∃ (n : ℤ) (i : Nat) (g r d1 d2 w u p h t y : ℚ), a = (1 + i / 128 + g) * 2 ^ n ∧ i < 128 ∧ 0 ≤ g
        ∧ g < 1 / 128
      ∧ Rne32 (1 / (1 + i / 128)) r ∧ Rne32 (1 / Real.log 2) d1 ∧ Rne32 (-1 / (2 * Real.log 2)) d2
      ∧ |(t : ℝ) - Real.logb 2 (1 + i / 128)| ≤ 1 / 2 ^ 9 ∧ Rne32 (g * r : ℚ) w ∧ Rne32 (d2 * w + d1 : ℚ) u
          ∧ Rne32 (u * w : ℚ) p
      ∧ Rne32 (n + t : ℚ) h ∧ Rne32 (h + p : ℚ) y ∧ (y = 0 ∨ 1 / 2 ^ 126 ≤ |y| → Gives .log2 x y))
    ∧ (∀ (l : ℚ) (z e d : Nat), Rne32 (1 / Real.log 2) l → |a * l| < 2 ^ 128 - 2 ^ 103 →
        RoundsTo .fp32 .rne 0 (a * l : ℚ) z →
      (transc .exp2 .fp32 (if patSign .fp32 z then z - 2 ^ 31 else z + 2 ^ 31) ⟨0, 0⟩).1 = e →
      (addF .fp32 .rne (decodeF .fp32 0x3F800000) (decodeF .fp32 e) ⟨0, 0⟩).1 = d →
      (transc .sigm .fp32 x ⟨0, 0⟩).1 = (transc .rcp .fp32 d ⟨0, 0⟩).1)
    ∧ (∀ (z : Nat) (q : ℚ), |2 * a| < 2 ^ 128 - 2 ^ 103 → RoundsTo .fp32 .rne 0 (2 * a : ℚ) z →
        patNum .fp32 (transc .sigm .fp32 z ⟨0, 0⟩).1 = some q →
      ∃ y, Rne32 (2 * q - 1 : ℚ) y ∧ (y = 0 ∨ 1 / 2 ^ 126 ≤ |y| → Gives .tanh x y)))
  ∧ ∀ (t : TFun) (f : Fmt) (x z : Nat) (a : ℚ), f ∈ [Fmt.bf16, .fp16] → patNum f x = some a → patNum .fp32 z = some a →
    patSign f x = patSign .fp32 z → z < 2 ^ 32 → ∀ env, transc t f x env =
      ((encodeF f .rne false (decodeF .fp32 (transc t .fp32 z ⟨0, 0⟩).1) ⟨0, 0⟩).1,
        env.raise ((transc t .fp32 z ⟨0, 0⟩).2.flags
          ||| (encodeF f .rne false (decodeF .fp32 (transc t .fp32 z ⟨0, 0⟩).1) ⟨0, 0⟩).2.flags))

/-! ### Branches -/

/-- R164, R165: the words of the branches and jumps are those of their field tables, and a condition of 6 or 7 is no
instruction; a taken branch adds four times its signed offset to its own address, one not taken goes to the next
parcel, and no register is written (the destination s0 of the frame is no register); a jump writes the address of the
next parcel and goes to a target computed from the registers before the write, JALR with the low two bits cleared.
Each breaks an open line region. -/
def Obligations.BranchesAndJumps : Prop :=
  ∀ (s : State) (d a b : SReg) (off : BitVec 10) (far : BitVec 19) (imm : BitVec 13) (x y pc : Word),
    s.rs a = x → s.rs b = y → (s.ctx s.turn).pc = pc →
    Retires (.beq a b off) s 0 0 (if x = y then pc + BitVec.ofInt 64 (4 * off.toInt) else pc + 4) true
    ∧ Retires (.bne a b off) s 0 0 (if x = y then pc + 4 else pc + BitVec.ofInt 64 (4 * off.toInt)) true
    ∧ Retires (.blt a b off) s 0 0 (if x.toInt < y.toInt then pc + BitVec.ofInt 64 (4 * off.toInt) else pc + 4) true
    ∧ Retires (.bge a b off) s 0 0 (if x.toInt < y.toInt then pc + 4 else pc + BitVec.ofInt 64 (4 * off.toInt)) true
    ∧ Retires (.bltu a b off) s 0 0 (if x.toNat < y.toNat then pc + BitVec.ofInt 64 (4 * off.toInt) else pc + 4) true
    ∧ Retires (.bgeu a b off) s 0 0 (if x.toNat < y.toNat then pc + 4 else pc + BitVec.ofInt 64 (4 * off.toInt)) true
    ∧ Retires (.jal d far) s d (pc + 4) (pc + BitVec.ofInt 64 (4 * far.toInt)) true
    ∧ Retires (.jalr d a imm) s d (pc + 4) ((x + BitVec.ofInt 64 imm.toInt) &&& ~~~3#64) true
    ∧ decode [off ++ 0#3 ++ b ++ a ++ 0x0A#6 ++ 0#1] = .ok (.beq a b off)
    ∧ decode [off ++ 1#3 ++ b ++ a ++ 0x0A#6 ++ 0#1] = .ok (.bne a b off)
    ∧ decode [off ++ 2#3 ++ b ++ a ++ 0x0A#6 ++ 0#1] = .ok (.blt a b off)
    ∧ decode [off ++ 3#3 ++ b ++ a ++ 0x0A#6 ++ 0#1] = .ok (.bge a b off)
    ∧ decode [off ++ 4#3 ++ b ++ a ++ 0x0A#6 ++ 0#1] = .ok (.bltu a b off)
    ∧ decode [off ++ 5#3 ++ b ++ a ++ 0x0A#6 ++ 0#1] = .ok (.bgeu a b off)
    ∧ (∀ c : BitVec 3, 6 ≤ c.toNat → ∃ n, decode [off ++ c ++ b ++ a ++ 0x0A#6 ++ 0#1] = .error n)
    ∧ decode [far ++ d ++ 0x0B#6 ++ 0#1] = .ok (.jal d far)
    ∧ decode [imm ++ a ++ d ++ 0x0C#6 ++ 0#1] = .ok (.jalr d a imm)

/-! ### Loads and stores -/

/-- The loads of R91 with their widths and whether they extend the sign. -/
def Sys2Proof.Machine.loadRows (d a : SReg) (imm : BitVec 13) : List (Instr × Nat × Bool) :=
  [(.ldb d a imm, 1, true), (.ldbu d a imm, 1, false), (.ldh d a imm, 2, true), (.ldhu d a imm, 2, false),
    (.ldw d a imm, 4, true), (.ldwu d a imm, 4, false), (.ldd d a imm, 8, false)]

/-- The stores of R93 with their widths. -/
def Sys2Proof.Machine.storeRows (d a : SReg) (imm : BitVec 13) : List (Instr × Nat) :=
  [(.stb d a imm, 1), (.sth d a imm, 2), (.stw d a imm, 4), (.std d a imm, 8)]

/-- R87, R92, R94: outside a line region, an aligned load from the local scratchpad window writes the little-endian
value of its bytes, extended by its sign or by zero, and an aligned store puts its low bytes there and leaves every
other byte of every scratchpad, every register and all of memory as they are. The bytes have no multicast store on its
way to them and no granule that fails its ECC. R87: a store waits while a multicast store of its own task is on its
way, and a load while one of its own core is on its way to its bytes. -/
def Obligations.ScratchpadLoadsAndStores : Prop :=
  (∀ (s : State) (d a : SReg) (imm : BitVec 13) (e : Instr × Nat × Bool), e ∈ loadRows d a imm →
    (s.ctx s.turn).recording = false → rangeIn .localSp (memAddr s a imm).toNat e.2.1 = true →
    (memAddr s a imm).toNat % e.2.1 = 0 →
    s.mcastPending s.turn (spOff (memAddr s a imm).toNat) e.2.1 = false →
    (s.cluster (clusterOf s.turn)).store.spBadIn (spOff (memAddr s a imm).toNat) e.2.1 = false →
    Writes e.1 s d
      (if e.2.2 then (BitVec.ofNat (8 * e.2.1) (leNat ((s.cluster (clusterOf s.turn)).store.spGet
          (spOff (memAddr s a imm).toNat) e.2.1))).signExtend 64
        else BitVec.ofNat 64 (leNat ((s.cluster (clusterOf s.turn)).store.spGet
          (spOff (memAddr s a imm).toNat) e.2.1))))
  ∧ (∀ (s : State) (d a : SReg) (imm : BitVec 13) (e : Instr × Nat × Bool), e ∈ loadRows d a imm →
    (s.ctx s.turn).recording = false → rangeIn .localSp (memAddr s a imm).toNat e.2.1 = true →
    (memAddr s a imm).toNat % e.2.1 = 0 →
    s.mcastPending s.turn (spOff (memAddr s a imm).toNat) e.2.1 = true → Waits e.1 s)
  ∧ (∀ (s : State) (d a : SReg) (imm : BitVec 13) (e : Instr × Nat), e ∈ storeRows d a imm →
    (s.ctx s.turn).recording = false → rangeIn .localSp (memAddr s a imm).toNat e.2 = true →
    (memAddr s a imm).toNat % e.2 = 0 → s.mcastOut s.turn = true → Waits e.1 s)
  ∧ ∀ (s : State) (d a : SReg) (imm : BitVec 13) (e : Instr × Nat), e ∈ storeRows d a imm →
    (s.ctx s.turn).recording = false → rangeIn .localSp (memAddr s a imm).toNat e.2 = true →
    (memAddr s a imm).toNat % e.2 = 0 → s.mcastOut s.turn = false →
    (s.cluster (clusterOf s.turn)).store.spBadIn (spOff (memAddr s a imm).toNat) e.2 = false →
    ∃ t, exec e.1 s = .next t
      ∧ (t.cluster (clusterOf s.turn)).store.spGet (spOff (memAddr s a imm).toNat) e.2 = leBytes e.2 (s.rs d).toNat
      ∧ (∀ cl off, (cl ≠ clusterOf s.turn ∨ off < spOff (memAddr s a imm).toNat
          ∨ spOff (memAddr s a imm).toNat + e.2 ≤ off) →
          (t.cluster cl).store.spGet off 1 = (s.cluster cl).store.spGet off 1)
      ∧ (∀ team pa, t.viewByte team pa = s.viewByte team pa)
      ∧ (t.ctx s.turn).pc = (s.ctx s.turn).pc + 4 ∧ (t.ctx s.turn).regs = (s.ctx s.turn).regs
      ∧ (t.ctx s.turn).ctl = { (s.ctx s.turn).ctl with retired := (s.ctx s.turn).ctl.retired + 1 }
      ∧ (t.ctx s.turn).tl = (s.ctx s.turn).tl ∧ (t.ctx s.turn).stores = (s.ctx s.turn).stores
      ∧ (t.ctx s.turn).loads = (s.ctx s.turn).loads
      ∧ ∀ n, n ≠ s.turn → t.core n = s.core n

/-- R82, R89, R92: outside a line region, an aligned load from translated memory whose translation is there writes the
value at once where its bytes are valid in L1. Where they are not, it retires with its destination unwritten and the
load pending, or waits while 65,535 loads are outstanding. R76: its DRAM request carries the group tag in force. R82,
R89: when the data of a pending load arrives, its destination receives the bytes of its node's view of the home,
extended; the load no longer counts as outstanding, and no other scalar register and no byte of memory changes. Stated
for a core whose L1 holds no line and bytes that no error meets. -/
def Obligations.MemoryLoads : Prop :=
  (∀ (s : State) (d a : SReg) (imm : BitVec 13) (e : Instr × Nat × Bool) (pa : Nat), e ∈ loadRows d a imm →
     (s.ctx s.turn).recording = false → rangeIn .memory (memAddr s a imm).toNat e.2.1 = true →
     (memAddr s a imm).toNat % e.2.1 = 0 → s.tr s.turn (memAddr s a imm).toNat false 1 = .ok pa →
     (∀ bs, s.l1Read s.turn (s.pasidOf s.turn true) (memAddr s a imm).toNat e.2.1 = .hit bs →
       Writes e.1 s d (if e.2.2 then (BitVec.ofNat (8 * e.2.1) (leNat bs)).signExtend 64 else BitVec.ofNat 64 (leNat bs)))
     ∧ (s.l1Read s.turn (s.pasidOf s.turn true) (memAddr s a imm).toNat e.2.1 = .miss →
       (s.ctx s.turn).loads ≠ 0xFFFF →
       ∃ t, exec e.1 s = .next t ∧ OnlyTurn s t ∧ SameBytes s t
         ∧ (t.ctx s.turn).pend = (s.ctx s.turn).pend ++ [⟨(s.ctx s.turn).pc, (memAddr s a imm).toNat, pa, e.2.1, e.2.2, d,
             s.pasidOf s.turn true, s.gtagOf s.turn, none⟩]
         ∧ (t.ctx s.turn).loads = (s.ctx s.turn).loads + 1
         ∧ (t.ctx s.turn).pc = (s.ctx s.turn).pc + 4 ∧ (t.ctx s.turn).regs = (s.ctx s.turn).regs)
     ∧ (s.l1Read s.turn (s.pasidOf s.turn true) (memAddr s a imm).toNat e.2.1 = .miss →
       (s.ctx s.turn).loads = 0xFFFF → Waits e.1 s))
  ∧ (∀ (s : State) (k ix : Nat) (p : PendLoad),
       (s.ctx k).pend[ix]? = some p → p.vec = none → (s.core k).l1 = [] → p.va % 128 + p.w ≤ 128 →
           p.pa % 128 = p.va % 128 →
       s.lineErr (s.secureCore k) (s.core k).team (p.pa / 128) .read = none →
       ∃ t, exec (.loadComplete k ix) s = .next t
         ∧ (t.ctx k).rs p.d = (if p.d = 0 then 0
             else if p.sign then (BitVec.ofNat (8 * p.w) (leNat (s.view (s.core k).team p.pa p.w))).signExtend 64
             else BitVec.ofNat 64 (leNat (s.view (s.core k).team p.pa p.w)))
         ∧ (∀ q, q ≠ p.d → (t.ctx k).rs q = (s.ctx k).rs q)
         ∧ (t.ctx k).loads = (s.ctx k).loads - 1 ∧ (t.ctx k).pend = (s.ctx k).pend.eraseIdx ix
         ∧ (t.ctx k).pc = (s.ctx k).pc ∧ SameBytes s t ∧ ∀ n, n ≠ k → t.core n = s.core n)

/-- R81, R82, R94: outside a line region, an aligned store to translated memory whose translation is there puts its
low bytes into the core's L1 line, where a load of them hits; every other byte reads from L1 as it did, memory itself
is unchanged until the line is written back, and no register changes. Stated for an L1 without failing granules that
has room in the line's set. -/
def Obligations.MemoryStoresGoToL1 : Prop :=
  ∀ (s : State) (d a : SReg) (imm : BitVec 13) (e : Instr × Nat) (pa : Nat), e ∈ storeRows d a imm →
    (s.ctx s.turn).recording = false → rangeIn .memory (memAddr s a imm).toNat e.2 = true →
    (memAddr s a imm).toNat % e.2 = 0 → s.tr s.turn (memAddr s a imm).toNat true 2 = .ok pa →
    (∀ l ∈ (s.core s.turn).l1, l.bad = 0) →
    ((s.core s.turn).l1.filter (fun l => l.vline % 1024 == (memAddr s a imm).toNat / 128 % 1024)).length < 12 →
    ∃ t, exec e.1 s = .next t ∧ OnlyTurn s t ∧ SameBytes s t
      ∧ (t.l1Read s.turn (s.pasidOf s.turn true) (memAddr s a imm).toNat e.2) = .hit (leBytes e.2 (s.rs d).toNat)
      ∧ (∀ pasid va, (pasid ≠ s.pasidOf s.turn true ∨ va < (memAddr s a imm).toNat
          ∨ (memAddr s a imm).toNat + e.2 ≤ va) →
          t.l1Read s.turn pasid va 1 = s.l1Read s.turn pasid va 1)
      ∧ (t.ctx s.turn).regs = (s.ctx s.turn).regs ∧ (t.ctx s.turn).pc = (s.ctx s.turn).pc + 4

/-- R71, R86: a store to the multicast window is on its way to the clusters of its mask with its offset and its bytes
and counts as outstanding. The one that lands next is of the earliest issue cycle, and of the highest-numbered core of
those; before its landing cycle, its issue cycle plus 24, nothing lands. When it lands, each listed cluster of the
slice that holds a team of the grid takes its last piece, no other byte of it and no other cluster changes, and its
task's count of outstanding stores falls. R71, R266: it lands as soon as the cycle has come, before any load of that
cycle, and one that has landed on the present cycle is written again over what the step before stored. -/
def Obligations.MulticastStoreLands : Prop :=
  (∀ (s : State) (d a : SReg) (imm : BitVec 13) (e : Instr × Nat), e ∈ storeRows d a imm →
    (s.ctx s.turn).recording = false → rangeIn .mcast (memAddr s a imm).toNat e.2 = true →
    mcastMask (memAddr s a imm).toNat ≠ 0 → (memAddr s a imm).toNat % e.2 = 0 → (s.ctx s.turn).stores ≠ 0xFFFF →
    ∃ t, exec e.1 s = .next t
      ∧ t.mcast = s.mcast ++ [⟨s.time.cycle, s.turn, (s.core s.turn).team, sliceOf s.turn,
          recGrid (s.teamOf s.turn).record, (s.teamOf s.turn).vf,
          [(mcastMask (memAddr s a imm).toNat, mcastOff (memAddr s a imm).toNat, leBytes e.2 (s.rs d).toNat)], false⟩]
      ∧ (t.ctx s.turn).stores = (s.ctx s.turn).stores + 1 ∧ (t.ctx s.turn).pc = (s.ctx s.turn).pc + 4 ∧ SameBytes s t)
  ∧ (∀ (s : State) (m : McStore), s.landing = some m → m ∈ s.mcast ∧ m.landed = false
    ∧ ∀ x ∈ s.mcast, x.landed = false → m.at_.toNat < x.at_.toNat ∨ (m.at_ = x.at_ ∧ x.core ≤ m.core))
  ∧ (∀ s : State, (∀ m, s.landing = some m → (s.time.cycle - m.at_).toNat < 24) → exec .multicastLand s = .next s)
  ∧ (∀ (s : State) (m : McStore) (pre : List (BitVec 8 × Nat × List Byte)) (mask : BitVec 8) (off : Nat) (bs : List Byte) (j : Nat),
    s.mcast = [m] → m.parts = pre ++ [(mask, off, bs)] →
    (m.landed = true ∨ 24 ≤ (s.time.cycle + BitVec.ofNat 64 (Config.elapsed s.time.tick) - m.at_).toNat) →
    j < 8 → mask.getLsbD j = true → s.gridHolds (8 * m.slice + j) m.grid m.vf = true →
    (s.passTime.cluster (8 * m.slice + j)).store.spGet off bs.length = bs)
  ∧ ∀ (s : State) (m : McStore) (pre : List (BitVec 8 × Nat × List Byte)) (mask : BitVec 8) (off : Nat) (bs : List Byte),
    s.landing = some m → 24 ≤ (s.time.cycle - m.at_).toNat → m.parts = pre ++ [(mask, off, bs)] →
    ∃ t, exec .multicastLand s = .next t
      ∧ t.mcast = s.mcast.erase m ++ (if s.time.cycle = m.at_ + 24 then [{ m with landed := true }] else [])
      ∧ (∀ j, j < 8 → mask.getLsbD j = true → s.gridHolds (8 * m.slice + j) m.grid m.vf = true →
          (t.cluster (8 * m.slice + j)).store.spGet off bs.length = bs)
      ∧ (∀ j o, j < 8 → (∀ p ∈ m.parts, p.1.getLsbD j = true → o < p.2.1 ∨ p.2.1 + p.2.2.length ≤ o) →
          (t.cluster (8 * m.slice + j)).store.spGet o 1 = (s.cluster (8 * m.slice + j)).store.spGet o 1)
      ∧ (∀ cl, ¬ (∃ j, j < 8 ∧ cl = 8 * m.slice + j ∧ s.gridHolds cl m.grid m.vf = true
            ∧ ∃ p ∈ m.parts, p.1.getLsbD j = true) →
          (t.cluster cl).store = (s.cluster cl).store)
      ∧ (∀ cl, (s.team m.team).live = true → (s.team m.team).cluster = some cl →
          (s.core (4 * cl + m.core % 4)).team = m.team →
          (t.ctx (4 * cl + m.core % 4)).stores = (s.ctx (4 * cl + m.core % 4)).stores - 1
          ∧ (t.ctx (4 * cl + m.core % 4)).regs = (s.ctx (4 * cl + m.core % 4)).regs)
      ∧ (∀ team pa, t.viewByte team pa = s.viewByte team pa)

/-- R107: inside a line region that is open in its ring, and not in a handler of a trap taken inside it, a load or
store is recorded in program order and nothing else happens: no register and no memory changes; one that is misaligned
or off the line marks the region OUTSIDE, and one after eight marks it TOO_MANY, unless an earlier one marked it. The
model's reading (log entry 29): a ninth that is also misaligned or off the line marks TOO_MANY, and a broken region
goes on recording. -/
def Obligations.RegionRecordsAccesses : Prop :=
  (∀ (s : State) (d a : SReg) (imm : BitVec 13) (e : Instr × Nat × Bool) (r : Region), e ∈ loadRows d a imm →
    (s.ctx s.turn).region = some r → r.ring = (s.ctx s.turn).ring → r.inner = 0 →
    ∃ t r', exec e.1 s = .next t ∧ (t.ctx s.turn).region = some r' ∧ r'.count = r.count + 1
      ∧ (r.count < 8 → (memAddr s a imm).toNat / 128 = r.vline → (memAddr s a imm).toNat % e.2.1 = 0 →
          r'.mark = r.mark ∧ r'.ops = r.ops ++ [⟨false, (memAddr s a imm).toNat % 128, e.2.1, e.2.2, d, 0⟩])
      ∧ (r.count < 8 → ((memAddr s a imm).toNat / 128 ≠ r.vline ∨ (memAddr s a imm).toNat % e.2.1 ≠ 0) →
          r'.ops = r.ops ∧ r'.mark = (if r.mark = 0 then 3 else r.mark))
      ∧ (8 ≤ r.count → r'.ops = r.ops ∧ r'.mark = (if r.mark = 0 then 2 else r.mark))
      ∧ (t.ctx s.turn).regs = (s.ctx s.turn).regs ∧ (t.ctx s.turn).pc = (s.ctx s.turn).pc + 4 ∧ SameBytes s t
      ∧ OnlyTurn s t)
  ∧ ∀ (s : State) (d a : SReg) (imm : BitVec 13) (e : Instr × Nat) (r : Region), e ∈ storeRows d a imm →
    (s.ctx s.turn).region = some r → r.ring = (s.ctx s.turn).ring → r.inner = 0 →
    ∃ t r', exec e.1 s = .next t ∧ (t.ctx s.turn).region = some r' ∧ r'.count = r.count + 1
      ∧ (r.count < 8 → (memAddr s a imm).toNat / 128 = r.vline → (memAddr s a imm).toNat % e.2 = 0 →
          r'.mark = r.mark ∧ r'.ops = r.ops ++ [⟨true, (memAddr s a imm).toNat % 128, e.2, false, 0, s.rs d⟩])
      ∧ (r.count < 8 → ((memAddr s a imm).toNat / 128 ≠ r.vline ∨ (memAddr s a imm).toNat % e.2 ≠ 0) →
          r'.ops = r.ops ∧ r'.mark = (if r.mark = 0 then 3 else r.mark))
      ∧ (8 ≤ r.count → r'.ops = r.ops ∧ r'.mark = (if r.mark = 0 then 2 else r.mark))
      ∧ (t.ctx s.turn).regs = (s.ctx s.turn).regs ∧ (t.ctx s.turn).pc = (s.ctx s.turn).pc + 4 ∧ SameBytes s t
      ∧ OnlyTurn s t

/-! ### Lines -/

/-- R81, R82: the write-back of a dirty line whose granules all read puts its dirty bytes at their home addresses and
no other byte changes, where its node is committed or none runs and no error meets the line; the core keeps the line,
clean. It is what the event L1_WRITEBACK does. -/
def Obligations.WriteBackReachesHome : Prop :=
  ∀ (s : State) (k pasid vline : Nat) (l : L1Line),
    (s.core k).line pasid vline = some l → l.bad = 0 → l.dirty ≠ 0 →
    ((s.team (s.core k).team).live = false ∨ (s.team (s.core k).team).committed = true) →
    s.lineErr (s.secureCore k) (s.core k).team l.pline .part = none →
    s.lineErr (s.secureCore k) (s.core k).team l.pline .full = none →
    ∃ t, exec (.l1Writeback k pasid vline) s = .next t
      ∧ (∀ i, i < 128 → l.dirty.getLsbD i = true → t.home.mem.get (l.pline * 128 + i) = l.data.get i)
      ∧ (∀ pa, ¬ (∃ i, i < 128 ∧ l.dirty.getLsbD i = true ∧ pa = l.pline * 128 + i) →
          t.home.mem.get pa = s.home.mem.get pa)
      ∧ ((t.core k).line pasid vline).map (fun x => (x.dirty, x.valid, x.data)) = some (0, l.valid, l.data)
      ∧ (t.core k).ctx = (s.core k).ctx ∧ ∀ n, n ≠ k → t.core n = s.core n

/-- R96: PREF in the scratchpad window has no effect; in translated memory a missing or refused translation cancels it
silently, and so does a set of the L1 whose lines are all in use (R81); where the line can be read it leaves every
byte of the line valid in L1. It never writes a register. R82, R97: CFLUSH leaves no dirty line of the range under the
address space in force, and CINV leaves no line of it; no register changes. Where the lines' granules all read, no two
of them are of one physical line, no error meets them and the node has committed or none runs, both put every dirty
byte of them at its home and change no other byte of memory: no store is lost. A range that leaves translated memory
takes ADDRESS_FAULT and nothing is done. -/
def Obligations.CacheInstructions : Prop :=
  (∀ (s : State) (a : SReg),
     (spaceOf (s.rs a).toNat = .localSp → WritesBreaking (.pref a) s 0 0)
     ∧ (spaceOf (s.rs a).toNat = .memory → s.pasidOf s.turn true ≠ physPasid →
       s.dtcHit (sliceOf s.turn) (s.pasidOf s.turn true) (s.rs a).toNat false = none → WritesBreaking (.pref a) s 0 0)
     ∧ (∀ pa, spaceOf (s.rs a).toNat = .memory → s.pasidOf s.turn true ≠ physPasid →
       s.dtcHit (sliceOf s.turn) (s.pasidOf s.turn true) (s.rs a).toNat false = some pa →
       s.lineErr (s.secureCore s.turn) (s.core s.turn).team (pa / 128) .read = none →
       (s.lineRoom s.turn (s.pasidOf s.turn true) ((s.rs a).toNat / 128) = false → WritesBreaking (.pref a) s 0 0)
       ∧ (s.lineRoom s.turn (s.pasidOf s.turn true) ((s.rs a).toNat / 128) = true → ∃ t, exec (.pref a) s = .next t
         ∧ ((t.core s.turn).line (s.pasidOf s.turn true) ((s.rs a).toNat / 128)).map (·.valid)
             = some (BitVec.allOnes 128)
         ∧ (t.ctx s.turn).regs = (s.ctx s.turn).regs ∧ (t.ctx s.turn).pc = (s.ctx s.turn).pc + 4))
     ∧ (spaceOf (s.rs a).toNat ≠ .memory → spaceOf (s.rs a).toNat ≠ .localSp →
       Traps (.pref a) s s.breaking { cause := 0x04, tval := s.rs a }))
  ∧ (∀ (s : State) (a b : SReg),
       (∀ lo hi, lineRange (s.rs a).toNat (s.rs b).toNat = some (lo, hi) →
         (∃ t, exec (.cflush a b) s = .next t
           ∧ (∀ l ∈ (t.core s.turn).linesIn (s.pasidOf s.turn true) lo hi, l.dirty = 0)
           ∧ (t.ctx s.turn).regs = (s.ctx s.turn).regs ∧ (t.ctx s.turn).pc = (s.ctx s.turn).pc + 4)
         ∧ ∃ t, exec (.cinv a b) s = .next t
           ∧ (t.core s.turn).linesIn (s.pasidOf s.turn true) lo hi = []
           ∧ (t.ctx s.turn).regs = (s.ctx s.turn).regs ∧ (t.ctx s.turn).pc = (s.ctx s.turn).pc + 4)
       ∧ (∀ lo hi ls i, lineRange (s.rs a).toNat (s.rs b).toNat = some (lo, hi) →
         ls = (s.core s.turn).linesIn (s.pasidOf s.turn true) lo hi → i ∈ [Instr.cflush a b, .cinv a b] →
         ((s.team (s.core s.turn).team).live = false ∨ (s.team (s.core s.turn).team).committed = true) →
         (∀ l ∈ ls, l.bad = 0 ∧ s.lineErr (s.secureCore s.turn) (s.core s.turn).team l.pline .part = none
           ∧ s.lineErr (s.secureCore s.turn) (s.core s.turn).team l.pline .full = none) →
         (∀ l ∈ ls, ∀ m ∈ ls, l.pline = m.pline → l = m) →
         ∃ t, exec i s = .next t
           ∧ (∀ l ∈ ls, ∀ j, j < 128 → l.dirty.getLsbD j = true → t.home.mem.get (l.pline * 128 + j) = l.data.get j)
           ∧ (∀ pa, ¬ (∃ l ∈ ls, ∃ j, j < 128 ∧ l.dirty.getLsbD j = true ∧ pa = l.pline * 128 + j) →
               t.home.mem.get pa = s.home.mem.get pa)
           ∧ ∀ n, n ≠ s.turn → t.core n = s.core n)
       ∧ (lineRange (s.rs a).toNat (s.rs b).toNat = none →
         Traps (.cflush a b) s s.breaking { cause := 0x04, tval := s.rs a }
         ∧ Traps (.cinv a b) s s.breaking { cause := 0x04, tval := s.rs a }))

/-- R98: CZERO of `n` whole lines of translated memory whose translations are there and that no error meets leaves
every byte of them zero at home, every other byte of memory as it was, and no copy of them in the core's L1, where the
node has committed or none runs. A line whose write meets an abort ends it there, with the lines before it zeroed, its
pc at the CZERO, and a DATA_ABORT of that line pending. The address and length checks come first, in the order of R98.
-/
def Obligations.CzeroZeroesLines : Prop :=
  ∀ (s : State) (a b : SReg) (n : Nat) (pa : Nat → Nat),
    n = (if s.rs b = 0 then 128 else (s.rs b).toNat) →
    (spaceOf (s.rs a).toNat ≠ .memory → Traps (.czero a b) s s.breaking { cause := 0x04, tval := s.rs a })
    ∧ (spaceOf (s.rs a).toNat = .memory → (s.rs a).toNat % 128 ≠ 0 →
      Traps (.czero a b) s s.breaking { cause := 0x05, tval := s.rs a })
    ∧ (spaceOf (s.rs a).toNat = .memory → (s.rs a).toNat % 128 = 0 →
      (n % 128 ≠ 0 ∨ 65536 < n ∨ rangeIn .memory (s.rs a).toNat n = false) →
      Traps (.czero a b) s s.breaking { cause := 0x04, tval := s.rs a })
    ∧ (rangeIn .memory (s.rs a).toNat n = true → (s.rs a).toNat % 128 = 0 → n % 128 = 0 → n ≤ 65536 →
      ((s.team (s.core s.turn).team).live = false ∨ (s.team (s.core s.turn).team).committed = true) →
      (∀ i, i < n / 128 → s.tr s.turn ((s.rs a).toNat + 128 * i) true 2 = .ok (pa i) ∧ pa i % 128 = 0
        ∧ s.lineErr (s.secureCore s.turn) (s.core s.turn).team (pa i / 128) .full = none) →
      ∃ t, exec (.czero a b) s = .next t
        ∧ (∀ i o, i < n / 128 → o < 128 → t.home.mem.get (pa i + o) = 0)
        ∧ (∀ x, ¬ (∃ i o, i < n / 128 ∧ o < 128 ∧ x = pa i + o) → t.home.mem.get x = s.home.mem.get x)
        ∧ (∀ i, i < n / 128 → (t.core s.turn).line (s.pasidOf s.turn true) ((s.rs a).toNat / 128 + i) = none)
        ∧ (t.ctx s.turn).regs = (s.ctx s.turn).regs ∧ (t.ctx s.turn).pc = (s.ctx s.turn).pc + 4)
    ∧ (∀ j, rangeIn .memory (s.rs a).toNat n = true → (s.rs a).toNat % 128 = 0 → n % 128 = 0 → n ≤ 65536 → j < n / 128 →
      ((s.team (s.core s.turn).team).live = false ∨ (s.team (s.core s.turn).team).committed = true) →
      (∀ i, i ≤ j → s.tr s.turn ((s.rs a).toNat + 128 * i) true 2 = .ok (pa i) ∧ pa i % 128 = 0) →
      (∀ i, i < j → s.lineErr (s.secureCore s.turn) (s.core s.turn).team (pa i / 128) .full = none) →
      s.lineErr (s.secureCore s.turn) (s.core s.turn).team (pa j / 128) .full = some .abort →
      (s.core s.turn).abort = none →
      ∃ t, exec (.czero a b) s = .next t
        ∧ (t.core s.turn).abort = some ⟨BitVec.ofNat 64 ((s.rs a).toNat + 128 * j), (s.ctx s.turn).pc⟩
        ∧ (∀ i o, i < j → o < 128 → t.home.mem.get (pa i + o) = 0)
        ∧ (∀ x, ¬ (∃ i o, i < j ∧ o < 128 ∧ x = pa i + o) → t.home.mem.get x = s.home.mem.get x)
        ∧ (t.ctx s.turn).regs = (s.ctx s.turn).regs ∧ (t.ctx s.turn).pc = (s.ctx s.turn).pc)

/-! ### Atomics, reductions, line regions -/

/-- The atomics of R102 with their width and the value that replaces the old one; `y` and `z` are the registers b and
b + 1. -/
def Sys2Proof.Machine.amoRows (d a b : SReg) (old y z : Word) : List (Instr × Nat × Word) :=
  [(.amoswap d a b, 8, y), (.amoadd d a b, 8, old + y), (.amoand d a b, 8, old &&& y), (.amoor d a b, 8, old ||| y),
    (.amoxor d a b, 8, old ^^^ y), (.amomin d a b, 8, if old.toInt ≤ y.toInt then old else y),
    (.amomax d a b, 8, if old.toInt ≤ y.toInt then y else old), (.amominu d a b, 8, if old.toNat ≤ y.toNat then old else y),
    (.amomaxu d a b, 8, if old.toNat ≤ y.toNat then y else old),
    (.amofadds d a b, 4, BitVec.ofNat 64 (addF .fp32 .rne (decodeF .fp32 (old.toNat % 2 ^ 32)) (decodeF .fp32 (y.toNat % 2 ^ 32)) ⟨0, 0⟩).1),
    (.amofaddd d a b, 8, BitVec.ofNat 64 (addF .fp64 .rne (decodeF .fp64 old.toNat) (decodeF .fp64 y.toNat) ⟨0, 0⟩).1),
    (.amocas d a b, 8, if old = y then z else old)]

/-- R99, R102, R103, R376: an aligned atomic on translated memory whose translation is there first commits its node,
then returns the old value, zero-extended, to its destination and leaves the new value at the home, in one act; no
other byte, no other register and no flag changes from the committed state. AMOFADD's sum is RoundingIntoFormats' and
ArithmeticRoundsOnce's. R99: the line then stands in a write-queue entry. -/
def Obligations.AtomicsReturnOldValue : Prop :=
  ∀ (s u : State) (d a b : SReg) (pa : Nat) (e : Instr × Nat × Word),
    u = s.breaking.commitClass s.turn →
    e ∈ amoRows d a b (BitVec.ofNat 64 (u.peekNat pa e.2.1)) (s.rs b) (s.rs (sregAdd b 1)) →
    rangeIn .memory (s.rs a).toNat e.2.1 = true → (s.rs a).toNat % e.2.1 = 0 →
    s.breaking.tr s.turn (s.rs a).toNat true 3 = .ok pa →
    u.lineErr (u.secureCore s.turn) (u.core s.turn).team (pa / 128) .read = none →
    ∃ t, exec e.1 s = .next t
      ∧ (t.ctx s.turn).rs d = (if d = 0 then 0 else BitVec.ofNat 64 (u.peekNat pa e.2.1))
      ∧ t.peek pa e.2.1 = leBytes e.2.1 e.2.2.toNat
      ∧ (∀ x, (x < pa ∨ pa + e.2.1 ≤ x) → t.home.mem.get x = u.home.mem.get x)
      ∧ (∀ q, q ≠ d → (t.ctx s.turn).rs q = (s.ctx s.turn).rs q)
      ∧ (t.ctx s.turn).ctl.fpflags = (s.ctx s.turn).ctl.fpflags ∧ (t.ctx s.turn).pc = (s.ctx s.turn).pc + 4
      ∧ (t.team (s.core s.turn).team).committed = (u.team (s.core s.turn).team).committed
      ∧ t.home.placeOf (pa / 128) = .wq

/-- The scalar accesses to translated memory: address, width, whether it needs store permission, its ACCESS field (R338), and
whether the word breaks an open line region. -/
def Sys2Proof.Machine.accessRows (s : State) (d a b : SReg) (imm : BitVec 13) : List (Instr × Word × Nat × Bool × Nat × Bool) :=
  (loadRows d a imm).map (fun e => (e.1, memAddr s a imm, e.2.1, false, 1, false))
  ++ (storeRows d a imm).map (fun e => (e.1, memAddr s a imm, e.2, true, 2, false))
  ++ (amoRows d a b 0 0 0).map (fun e => (e.1, s.rs a, e.2.1, true, 3, true))
  ++ [(Instr.redadd a b, 8), (.redand a b, 8), (.redor a b, 8), (.redxor a b, 8), (.redmin a b, 8), (.redmax a b, 8),
      (.redminu a b, 8), (.redmaxu a b, 8), (.redfadds a b, 4), (.redfaddd a b, 8)].map
    (fun e => (e.1, s.rs a, e.2, true, 3, true))

/-- R70, R88, R92, R94: outside a line region, a load or store whose bytes lie wholly in no one space that it may
reach takes ADDRESS_FAULT, and one that lies in such a space and is not aligned to its width takes MISALIGNED, each
with the address as its detail, from the unchanged state. R103, R104: an atomic or a reduction whose bytes leave
translated memory takes ADDRESS_FAULT, and one that is not aligned to its width takes MISALIGNED, with the address as
the detail and nothing done. R89, R367 to R369: a load, store, atomic or reduction whose page has no translation that
grants the access waits with nothing done: its core stands among the waiters of a request for its PASID, page and
permission, shared with those that want the same, unless 1024 others are outstanding. One whose translation was
refused takes TRANSLATION_FAULT with its address and its kind in ACCESS; from ring U in ring D, with EPC at the
instruction. -/
def Obligations.AddressChecks : Prop :=
  ((∀ (s : State) (d a : SReg) (imm : BitVec 13) (e : Instr × Nat × Bool), e ∈ loadRows d a imm →
     (s.ctx s.turn).recording = false →
     (rangeIn .localSp (memAddr s a imm).toNat e.2.1 = false → rangeIn .memory (memAddr s a imm).toNat e.2.1 = false →
       Traps e.1 s s { cause := 0x04, tval := memAddr s a imm })
     ∧ (rangeIn .localSp (memAddr s a imm).toNat e.2.1 = true ∨ rangeIn .memory (memAddr s a imm).toNat e.2.1 = true →
       (memAddr s a imm).toNat % e.2.1 ≠ 0 → Traps e.1 s s { cause := 0x05, tval := memAddr s a imm }))
   ∧ ∀ (s : State) (d a : SReg) (imm : BitVec 13) (e : Instr × Nat), e ∈ storeRows d a imm →
     (s.ctx s.turn).recording = false →
     (rangeIn .localSp (memAddr s a imm).toNat e.2 = false → rangeIn .memory (memAddr s a imm).toNat e.2 = false →
       rangeIn .mcast (memAddr s a imm).toNat e.2 = false → Traps e.1 s s { cause := 0x04, tval := memAddr s a imm })
     ∧ (rangeIn .localSp (memAddr s a imm).toNat e.2 = true ∨ rangeIn .memory (memAddr s a imm).toNat e.2 = true →
       (memAddr s a imm).toNat % e.2 ≠ 0 → Traps e.1 s s { cause := 0x05, tval := memAddr s a imm }))
  ∧ (∀ (s : State) (d a b : SReg) (w : Nat) (i : Instr),
       ((i, w) ∈ (amoRows d a b 0 0 0).map (fun e => (e.1, e.2.1))
         ∨ (i, w) ∈ [(.redadd a b, 8), (.redand a b, 8), (.redor a b, 8), (.redxor a b, 8), (.redmin a b, 8),
             (.redmax a b, 8), (.redminu a b, 8), (.redmaxu a b, 8), (.redfadds a b, 4), (.redfaddd a b, 8)]) →
       (rangeIn .memory (s.rs a).toNat w = false → Traps i s s.breaking { cause := 0x04, tval := s.rs a })
       ∧ (rangeIn .memory (s.rs a).toNat w = true → (s.rs a).toNat % w ≠ 0 →
         Traps i s s.breaking { cause := 0x05, tval := s.rs a }))
  ∧ (∀ (s s0 : State) (d a b : SReg) (imm : BitVec 13) (e : Instr × Word × Nat × Bool × Nat × Bool) (p sl : Nat),
       e ∈ accessRows s d a b imm → s0 = (if e.2.2.2.2.2 then s.breaking else s) →
       (e.2.2.2.2.2 = false → (s.ctx s.turn).recording = false) →
       rangeIn .memory e.2.1.toNat e.2.2.1 = true → e.2.1.toNat % e.2.2.1 = 0 →
       p = s.pasidOf s.turn true → p ≠ physPasid → sl = sliceOf s.turn →
       (s.dtcHit sl p e.2.1.toNat e.2.2.2.1 = none →
           ⟨.core s.turn, p, e.2.1.toNat / 4096, e.2.2.2.1⟩ ∉ (s.slice sl).refused →
         ∃ t l, exec e.1 s = .next t ∧ t = { s0 with slices := t.slices } ∧ (∀ n, n ≠ sl → t.slice n = s.slice n)
           ∧ t.slice sl = { s.slice sl with ats := l }
           ∧ ((s.slice sl).ats.length < 1024 → ∃ q ∈ l, q.pasid = p ∧ q.page = e.2.1.toNat / 4096 ∧ q.write = e.2.2.2.1
             ∧ Req.core s.turn ∈ q.waiters)
           ∧ ∀ q ∈ (s.slice sl).ats, q.pasid = p → q.page = e.2.1.toNat / 4096 → q.write = e.2.2.2.1 →
             l.length = (s.slice sl).ats.length ∧ ∃ r ∈ l, r.pasid = p ∧ r.page = e.2.1.toNat / 4096
                 ∧ r.write = e.2.2.2.1
               ∧ Req.core s.turn ∈ r.waiters ∧ ∀ w ∈ q.waiters, w ∈ r.waiters)
       ∧ (⟨.core s.turn, p, e.2.1.toNat / 4096, e.2.2.2.1⟩ ∈ (s.slice sl).refused →
         ∃ u : State, exec e.1 s = .next (u.takeSync s.turn { cause := 0x06, tval := e.2.1, access := e.2.2.2.2.1 })
           ∧ u = { s0 with slices := u.slices }
           ∧ ((s.ctx s.turn).ring = .u → ∃ t, exec e.1 s = .next t ∧ (t.ctx s.turn).ring = .d
             ∧ (t.ctx s.turn).ctl.d.epc = (s.ctx s.turn).pc ∧ (t.ctx s.turn).ctl.d.tval = e.2.1
             ∧ (t.ctx s.turn).ctl.d.cause = BitVec.ofNat 64 (0x06 + 16384 * e.2.2.2.2.1)
             ∧ (t.ctx s.turn).regs = (s.ctx s.turn).regs ∧ t.home = s.home)))

/-- The reductions of R104 with their fn, width and applied value. -/
def Sys2Proof.Machine.redRows (a b : SReg) (old y : Word) : List (Instr × Nat × Nat × Word) :=
  [(.redadd a b, 0, 8, old + y), (.redand a b, 1, 8, old &&& y), (.redor a b, 2, 8, old ||| y),
    (.redxor a b, 3, 8, old ^^^ y), (.redmin a b, 4, 8, if old.toInt ≤ y.toInt then old else y),
    (.redmax a b, 5, 8, if old.toInt ≤ y.toInt then y else old),
    (.redminu a b, 6, 8, if old.toNat ≤ y.toNat then old else y),
    (.redmaxu a b, 7, 8, if old.toNat ≤ y.toNat then y else old),
    (.redfadds a b, 8, 4, BitVec.ofNat 64 (addF .fp32 .rne (decodeF .fp32 (old.toNat % 2 ^ 32)) (decodeF .fp32 (y.toNat % 2 ^ 32)) ⟨0, 0⟩).1),
    (.redfaddd a b, 9, 8, BitVec.ofNat 64 (addF .fp64 .rne (decodeF .fp64 old.toNat) (decodeF .fp64 y.toNat) ⟨0, 0⟩).1)]

/-- R99, R101, R104: a reduction of an uncommitted node that is within its quota is held with the node and changes no
memory, its line moving from L2 or the MSC into a write-queue entry; one of a committed node replaces the value at the
home with the applied one and changes no other byte. Neither writes a register. A commit-class act of a node that
holds one applies it. REDFADD's sum is RoundingIntoFormats' and ArithmeticRoundsOnce's. -/
def Obligations.ReductionsHeldOrApplied : Prop :=
  ∀ (s : State) (a b : SReg) (pa : Nat) (e : Instr × Nat × Nat × Word),
    e ∈ redRows a b (BitVec.ofNat 64 (s.peekNat pa e.2.2.1)) (s.rs b) →
    rangeIn .memory (s.rs a).toNat e.2.2.1 = true → (s.rs a).toNat % e.2.2.1 = 0 →
    s.breaking.tr s.turn (s.rs a).toNat true 3 = .ok pa →
    s.lineErr (s.secureCore s.turn) 0 (pa / 128) .read = none →
    s.lineErr (s.secureCore s.turn) (s.core s.turn).team (pa / 128) .read = none →
    ((s.team (s.core s.turn).team).live = true → (s.team (s.core s.turn).team).committed = false →
      s.overflows (s.core s.turn).team none = false →
      ∃ t, exec e.1 s = .next t
        ∧ (t.team (s.core s.turn).team).reds = (s.team (s.core s.turn).team).reds ++ [⟨pa, e.2.2.1, e.2.1, s.rs b⟩]
        ∧ t.home.mem = s.home.mem ∧ (s.home.placeOf (pa / 128) ≠ .dram → t.home.placeOf (pa / 128) = .wq)
        ∧ (t.ctx s.turn).regs = (s.ctx s.turn).regs ∧ (t.ctx s.turn).pc = (s.ctx s.turn).pc + 4)
    ∧ ((s.team (s.core s.turn).team).live = true → (s.team (s.core s.turn).team).committed = true →
      ∃ t, exec e.1 s = .next t
        ∧ t.peek pa e.2.2.1 = leBytes e.2.2.1 e.2.2.2.toNat
        ∧ t.home.placeOf (pa / 128) = .wq
        ∧ (∀ x, (x < pa ∨ pa + e.2.2.1 ≤ x) → t.home.mem.get x = s.home.mem.get x)
        ∧ (t.ctx s.turn).regs = (s.ctx s.turn).regs ∧ (t.ctx s.turn).pc = (s.ctx s.turn).pc + 4)
    ∧ ∀ k n, n = (s.core k).team → (s.team n).live = true → (s.team n).committed = false → (s.team n).consumed = false →
      (s.team n).staged = [] → (s.team n).objs = [] → (s.team n).pushes = [] →
      (s.team n).reds = [⟨pa, e.2.2.1, e.2.1, s.rs b⟩] → s.lineErr true 0 (pa / 128) .read = none →
      (s.commitClass k).peek pa e.2.2.1 = leBytes e.2.2.1 e.2.2.2.toNat
        ∧ ((s.commitClass k).team n).reds = [] ∧ ((s.commitClass k).team n).committed = true

/-- The recorded accesses of a region in their order over the bytes of its line: what each load returns, and the bytes that
remain. -/
def Sys2Proof.Machine.lineRun : List RegionOp → (Nat → Byte) → List (SReg × Word) × (Nat → Byte)
  | [], m => ([], m)
  | o :: r, m =>
    if o.store then
      lineRun r (fun i => if o.off ≤ i
          ∧ i < o.off + o.w then BitVec.ofNat 8 (o.data.toNat / 256 ^ (i - o.off)) else m i)
    else
      let v := leNat ((List.range o.w).map (fun i => m (o.off + i)))
      ((o.d, if o.signed then (BitVec.ofNat (8 * o.w) v).signExtend 64 else BitVec.ofNat 64 v) :: (lineRun r m).1,
        (lineRun r m).2)

/-- R106, R108: ALB of translated memory whose translation is there opens an empty region on the line, and writes back
the core's dirty bytes of it, where their granules read, no error meets them and the node has committed or none runs.
ALE without one writes 1, and with one that is broken or marked writes 4 or the mark, closes it, and performs nothing.
R105, R108, R254, R376: ALE of an unmarked region on a line that no error meets first commits its node, then performs
the recorded accesses in their order: their stores' bytes are in memory and no other byte changes, each load's
destination receives what the line then held, the status is 0, the core has no L1 copy of the line, and the region is
closed. The commit of a node that holds staged bytes and nothing else makes exactly these visible. -/
def Obligations.LineRegions : Prop :=
  ((∀ (s : State) (a : SReg) (pa : Nat), spaceOf (s.rs a).toNat = .memory →
     s.breaking.tr s.turn (s.rs a).toNat true 3 = .ok pa →
     ∃ t, exec (.alb a) s = .next t
       ∧ (t.ctx s.turn).region = some { vline := (s.rs a).toNat / 128, pline := pa / 128, ring := (s.ctx s.turn).ring }
       ∧ (t.ctx s.turn).regs = (s.ctx s.turn).regs ∧ (t.ctx s.turn).pc = (s.ctx s.turn).pc + 4
       ∧ ∀ l, (s.core s.turn).linesIn (s.pasidOf s.turn true) ((s.rs a).toNat / 128) ((s.rs a).toNat / 128) = [l] →
         ((s.team (s.core s.turn).team).live = false ∨ (s.team (s.core s.turn).team).committed = true) → l.bad = 0 →
         s.lineErr (s.secureCore s.turn) (s.core s.turn).team l.pline .part = none →
         s.lineErr (s.secureCore s.turn) (s.core s.turn).team l.pline .full = none →
         (∀ j, j < 128 → l.dirty.getLsbD j = true → t.home.mem.get (l.pline * 128 + j) = l.data.get j)
         ∧ (∀ y, ¬ (∃ j, j < 128 ∧ l.dirty.getLsbD j = true ∧ y = l.pline * 128 + j) →
             t.home.mem.get y = s.home.mem.get y)
         ∧ ((t.core s.turn).line (s.pasidOf s.turn true) ((s.rs a).toNat / 128)).map (·.dirty) = some 0)
   ∧ (∀ (s : State) (d : SReg), (s.ctx s.turn).region = none → Writes (.ale d) s d 1)
   ∧ ∀ (s : State) (d : SReg) (r : Region), (s.ctx s.turn).region = some r → (r.broken = true ∨ r.mark ≠ 0) →
     ∃ t, exec (.ale d) s = .next t ∧ (t.ctx s.turn).region = none
       ∧ (t.ctx s.turn).rs d = (if d = 0 then 0 else if r.broken then 4 else BitVec.ofNat 64 r.mark)
       ∧ (∀ q, q ≠ d → (t.ctx s.turn).rs q = (s.ctx s.turn).rs q) ∧ SameBytes s t
       ∧ (t.ctx s.turn).pc = (s.ctx s.turn).pc + 4)
  ∧ ((∀ (s u : State) (d : SReg) (r : Region) (x : List (SReg × Word) × (Nat → Byte)),
       (s.ctx s.turn).region = some r → r.broken = false → r.mark = 0 → (∀ o ∈ r.ops, o.off + o.w ≤ 128) →
       s.lineErr (s.secureCore s.turn) (s.core s.turn).team r.pline .read = none →
       u = (s.onCtx s.turn (fun c => { c with region := none })).commitClass s.turn →
       x = lineRun r.ops (fun i => u.home.mem.get (r.pline * 128 + i)) →
       ∃ t, exec (.ale d) s = .next t ∧ (t.ctx s.turn).region = none ∧ (t.ctx s.turn).rs d = 0
         ∧ (∀ q, q ≠ d → q ≠ 0 →
           (t.ctx s.turn).rs q = ((x.1.filter (fun e => e.1 == q)).getLast?.map (·.2)).getD ((s.ctx s.turn).rs q))
         ∧ (∀ i, i < 128 → t.home.mem.get (r.pline * 128 + i) = x.2 i)
         ∧ (∀ y, y / 128 ≠ r.pline → t.home.mem.get y = u.home.mem.get y)
         ∧ (t.core s.turn).line (s.pasidOf s.turn true) r.vline = none ∧ (t.ctx s.turn).pc = (s.ctx s.turn).pc + 4
         ∧ (t.team (s.core s.turn).team).committed = (u.team (s.core s.turn).team).committed)
     ∧ ∀ (s : State) (k n : Nat), n = (s.core k).team → (s.team n).live = true → (s.team n).committed = false →
       (s.team n).consumed = false → (s.team n).reds = [] → (s.team n).objs = [] → (s.team n).pushes = [] →
       Map.wf none (s.team n).staged = true →
       ((s.commitClass k).team n).committed = true ∧ ((s.commitClass k).team n).staged = []
       ∧ ∀ pa, (s.commitClass k).home.mem.get pa = (Map.get none (s.team n).staged pa).getD (s.home.mem.get pa))

/-! ### Synchronisation -/

/-- R259: an ACQ of an aligned object in translated memory whose translation is there writes the object's RSEQ as its
node sees it, after the core's L1 lines of the object's bound regions and of its own line have been written back and
invalidated: no such line is left. -/
def Obligations.AcquireReadsSequence : Prop :=
  ∀ (s u : State) (d a : SReg) (pa : Nat),
    rangeIn .memory (s.rs a).toNat 16 = true → (s.rs a).toNat % 16 = 0 →
    s.breaking.tr s.turn (s.rs a).toNat false 1 = .ok pa → pa % 16 = 0 →
    u = (s.breaking.walkEntries s.turn (s.pasidOf s.turn true) true
        ((s.vfOf s.turn).entries (s.rs a).toNat (s.pasidOf s.turn true))).flushRange s.turn (s.pasidOf s.turn true)
        ((s.rs a).toNat / 128) ((s.rs a).toNat / 128) →
    u.lineErr (u.secureCore s.turn) (u.core s.turn).team (pa / 128) .read = none →
    ∃ t, exec (.acq d a) s = .next t
      ∧ (t.ctx s.turn).rs d = (if d = 0 then 0 else BitVec.ofNat 64 (leNat (u.view (s.core s.turn).team pa 8)))
      ∧ (t.core s.turn).linesIn (s.pasidOf s.turn true) ((s.rs a).toNat / 128) ((s.rs a).toNat / 128) = []
      ∧ (∀ b ∈ (s.vfOf s.turn).entries (s.rs a).toNat (s.pasidOf s.turn true),
          (t.core s.turn).linesIn (s.pasidOf s.turn true) (b.base / 128) ((b.base + b.len - 1) / 128) = [])
      ∧ (∀ q, q ≠ d → (t.ctx s.turn).rs q = (s.ctx s.turn).rs q) ∧ (t.ctx s.turn).pc = (s.ctx s.turn).pc + 4
      ∧ t.home.mem = u.home.mem

/-- R254, R259, R376: a REL of an aligned object writes back the core's L1 lines of the object's bound regions, then
waits while accesses of module scope are outstanding; where a binding is in immediate mode, its node then commits. By
a node that has committed, or none, it adds one to RSEQ and sets VALUE at the home and returns the new RSEQ; by an
uncommitted node it is held with the node, no memory changes, and the value returned counts the node's own held
releases. No line of a bound region stays dirty. -/
def Obligations.ReleaseUpdatesSequence : Prop :=
  ∀ (s u w : State) (d a b : SReg) (pa : Nat) (es : List Binding),
    rangeIn .memory (s.rs a).toNat 16 = true → (s.rs a).toNat % 16 = 0 →
    s.breaking.tr s.turn (s.rs a).toNat true 2 = .ok pa → pa % 16 = 0 →
    es = (s.vfOf s.turn).entries (s.rs a).toNat (s.pasidOf s.turn true) →
    u = s.breaking.walkEntries s.turn (s.pasidOf s.turn true) false es →
    w = (if es.any (·.imm) then u.commitClass s.turn else u) →
    (es = [] → u = s.breaking ∧ w = s.breaking)
    ∧ ((s.team (s.core s.turn).team).live = true → (s.team (s.core s.turn).team).committed = false →
        (u.team (s.core s.turn).team).consumed = false → es.any (·.imm) = true →
        (w.team (s.core s.turn).team).committed = true)
    ∧ (u.fenceDone s.turn .module = false → Waits (.rel d a b) s)
    ∧ (u.fenceDone s.turn .module = true →
      w.lineErr (w.secureCore s.turn) (w.core s.turn).team (pa / 128) .read = none →
      (((w.team (s.core s.turn).team).live = false ∨ (w.team (s.core s.turn).team).committed = true) →
        ∃ t, exec (.rel d a b) s = .next t
          ∧ t.peekNat pa 8 = (w.peekNat pa 8 + 1) % 2 ^ 64 ∧ t.peekNat (pa + 8) 8 = (s.rs b).toNat
          ∧ (t.ctx s.turn).rs d = (if d = 0 then 0 else BitVec.ofNat 64 (w.peekNat pa 8 + 1))
          ∧ (∀ x, (x < pa ∨ pa + 16 ≤ x) → t.home.mem.get x = w.home.mem.get x)
          ∧ (∀ e ∈ es, ∀ l ∈ (t.core s.turn).linesIn (s.pasidOf s.turn true) (e.base / 128) ((e.base + e.len - 1) / 128),
              l.dirty = 0)
          ∧ (∀ q, q ≠ d → (t.ctx s.turn).rs q = (s.ctx s.turn).rs q) ∧ (t.ctx s.turn).pc = (s.ctx s.turn).pc + 4)
      ∧ ((w.team (s.core s.turn).team).live = true → (w.team (s.core s.turn).team).committed = false →
        ∃ t, exec (.rel d a b) s = .next t
          ∧ (t.team (s.core s.turn).team).objs = (w.team (s.core s.turn).team).objs ++ [(pa, s.rs b)]
          ∧ t.home.mem = w.home.mem
          ∧ (t.ctx s.turn).rs d = (if d = 0 then 0 else w.rseqView (s.core s.turn).team pa + 1)
          ∧ (∀ e ∈ es, ∀ l ∈ (t.core s.turn).linesIn (s.pasidOf s.turn true) (e.base / 128) ((e.base + e.len - 1) / 128),
              l.dirty = 0)
          ∧ (∀ q, q ≠ d → (t.ctx s.turn).rs q = (s.ctx s.turn).rs q) ∧ (t.ctx s.turn).pc = (s.ctx s.turn).pc + 4))

/-- R262, R263: a FENCE whose scope's condition is met only moves on, and one whose condition is not met waits. The
condition: no load whose data is still to come; from slice scope up no multicast store outstanding; at system scope
every fabric command of the task placed. CBAR of a member whose team's other members have all arrived or ended counts
its arrival and passes; while one has not, it counts the arrival once and waits. Executed again after such a wait it
counts nothing more, and passes as soon as they have. -/
def Obligations.FencesAndBarrier : Prop :=
  (∀ (s : State) (sc : Scope),
    (((s.ctx s.turn).pend = [] ∧ (sc = .task ∨ sc = .team ∨ (s.ctx s.turn).stores = 0)
        ∧ (sc = .system → ∀ c ∈ (s.ctx s.turn).queue 3, c.moved = true)) → WritesBreaking (.fence sc) s 0 0)
    ∧ (¬ ((s.ctx s.turn).pend = [] ∧ (sc = .task ∨ sc = .team ∨ (s.ctx s.turn).stores = 0)
        ∧ (sc = .system → ∀ c ∈ (s.ctx s.turn).queue 3, c.moved = true)) → Waits (.fence sc) s))
  ∧ ∀ (s : State), (s.fenceDone s.turn .slice = false → Waits .cbar s)
    ∧ (s.fenceDone s.turn .slice = true → (s.ctx s.turn).cbarPend = false →
      ((∀ k ∈ s.others s.turn, (s.memberCtx k (s.core s.turn).team).exited = true
          ∨ (s.ctx s.turn).cbar + 1 ≤ (s.memberCtx k (s.core s.turn).team).cbar) →
        ∃ t, exec .cbar s = .next t ∧ (t.ctx s.turn).cbar = (s.ctx s.turn).cbar + 1 ∧ (t.ctx s.turn).cbarPend = false
          ∧ (t.ctx s.turn).pc = (s.ctx s.turn).pc + 4 ∧ (t.ctx s.turn).regs = (s.ctx s.turn).regs ∧ SameBytes s t)
      ∧ ((∃ k ∈ s.others s.turn, (s.memberCtx k (s.core s.turn).team).exited = false
          ∧ (s.memberCtx k (s.core s.turn).team).cbar < (s.ctx s.turn).cbar + 1) →
        ∃ t, exec .cbar s = .next t ∧ (t.ctx s.turn).cbar = (s.ctx s.turn).cbar + 1 ∧ (t.ctx s.turn).cbarPend = true
          ∧ (t.ctx s.turn).pc = (s.ctx s.turn).pc))
    ∧ (s.fenceDone s.turn .slice = true → (s.ctx s.turn).cbarPend = true →
      ((∀ k ∈ s.others s.turn, (s.memberCtx k (s.core s.turn).team).exited = true
          ∨ (s.ctx s.turn).cbar ≤ (s.memberCtx k (s.core s.turn).team).cbar) →
        ∃ t, exec .cbar s = .next t ∧ (t.ctx s.turn).cbar = (s.ctx s.turn).cbar ∧ (t.ctx s.turn).cbarPend = false
          ∧ (t.ctx s.turn).pc = (s.ctx s.turn).pc + 4 ∧ (t.ctx s.turn).regs = (s.ctx s.turn).regs ∧ SameBytes s t)
      ∧ ((∃ k ∈ s.others s.turn, (s.memberCtx k (s.core s.turn).team).exited = false
          ∧ (s.memberCtx k (s.core s.turn).team).cbar < (s.ctx s.turn).cbar) →
        ∃ t, exec .cbar s = .next t ∧ (t.ctx s.turn).cbar = (s.ctx s.turn).cbar ∧ (t.ctx s.turn).cbarPend = true
          ∧ (t.ctx s.turn).pc = (s.ctx s.turn).pc))

/-- Does a binding give the object, base and PASID of another? -/
def Sys2Proof.Machine.sameBinding (x e : Binding) : Prop := x.obj = e.obj ∧ x.base = e.base ∧ x.pasid = e.pasid

/-- R258, status 0: an entry that an SOBIND of length 0 removes, or one that is there already. -/
def Sys2Proof.Machine.bindFound (tab : List Binding) (e : Binding) : Prop :=
  (e.len = 0 ∧ ∃ x ∈ tab, sameBinding x e) ∨ e ∈ tab

/-- R258, status 2: the region holds its own object, or meets another region of the PASID, or holds an object bound under
it, or the object lies in a region bound under it. -/
def Sys2Proof.Machine.bindOverlaps (tab : List Binding) (e : Binding) : Prop :=
  (e.base ≤ e.obj ∧ e.obj < e.base + e.len)
  ∨ ∃ x ∈ tab, x.pasid = e.pasid
    ∧ ((∃ y, e.base ≤ y ∧ y < e.base + e.len ∧ x.base ≤ y ∧ y < x.base + x.len)
      ∨ (e.base ≤ x.obj ∧ x.obj < e.base + e.len) ∨ (x.base ≤ e.obj ∧ e.obj < x.base + x.len))

/-- R258, status 3: the object is bound under the PASID with the other mode. -/
def Sys2Proof.Machine.bindOtherMode (tab : List Binding) (e : Binding) : Prop :=
  ∃ x ∈ tab, x.pasid = e.pasid ∧ x.obj = e.obj ∧ x.imm ≠ e.imm

/-- R256, R258: an SOBIND with well-formed operands completes, and writes 0 where its entry is found, else the
lowest-numbered status whose condition holds: 1 for a full table, 2 for an overlap, 3 for the other mode, 4 for a
length of 0, else 0 and the entry joins the table. A length of 0 takes the found entries out; every other status
leaves the table. No other register and no memory changes. R420: a base or length that is not a multiple of 128, a
length above 2^40, a reserved bit and a region that wraps take COMMAND_INVALID with the field, and the table stays;
the order of these checks is the model's (log entry 52). -/
def Obligations.SobindKeepsTable : Prop :=
  (∀ (s : State) (d a b : SReg) (pa : Nat) (e : Binding) (tab : List Binding) (full overlaps other : Prop),
    rangeIn .memory (s.rs a).toNat 16 = true → (s.rs a).toNat % 16 = 0 → (s.rs b).toNat % 128 = 0 →
    bitsOf (s.rs (sregAdd b 1)).toNat 0 41 % 128 = 0 → bitsOf (s.rs (sregAdd b 1)).toNat 0 41 ≤ 2 ^ 40 →
    bitsOf (s.rs (sregAdd b 1)).toNat 42 22 = 0 →
    (s.rs b).toNat + bitsOf (s.rs (sregAdd b 1)).toNat 0 41 ≤ 2 ^ 57 →
    s.breaking.tr s.turn (s.rs a).toNat false 1 = .ok pa →
    e = ⟨(s.rs a).toNat, (s.rs b).toNat, bitsOf (s.rs (sregAdd b 1)).toNat 0 41, s.pasidOf s.turn true,
      (s.rs (sregAdd b 1)).toNat.testBit 41⟩ →
    tab = (s.vfOf s.turn).binds → full = (512 ≤ tab.length) → overlaps = bindOverlaps tab e →
    other = bindOtherMode tab e →
    ∃ t, exec (.sobind d a b) s = .next t
      ∧ (∃ st, (t.ctx s.turn).rs d = (if d = 0 then 0 else BitVec.ofNat 64 st)
        ∧ (bindFound tab e → st = 0)
        ∧ (¬ bindFound tab e → full → st = 1)
        ∧ (¬ bindFound tab e → ¬ full → overlaps → st = 2)
        ∧ (¬ bindFound tab e → ¬ full → ¬ overlaps → other → st = 3)
        ∧ (¬ bindFound tab e → ¬ full → ¬ overlaps → ¬ other → e.len = 0 → st = 4)
        ∧ (¬ bindFound tab e → ¬ full → ¬ overlaps → ¬ other → e.len ≠ 0 → st = 0)
        ∧ (st ≠ 0 → (t.vf (s.teamOf s.turn).vf).binds = tab))
      ∧ (bindFound tab e → e.len ≠ 0 → (t.vf (s.teamOf s.turn).vf).binds = tab)
      ∧ (bindFound tab e → e.len = 0 →
          ∀ x, x ∈ (t.vf (s.teamOf s.turn).vf).binds ↔ (x ∈ tab ∧ ¬ sameBinding x e))
      ∧ (¬ bindFound tab e → ¬ full → ¬ overlaps → ¬ other → e.len ≠ 0 →
          (t.vf (s.teamOf s.turn).vf).binds = tab ++ [e])
      ∧ (∀ q, q ≠ d → (t.ctx s.turn).rs q = (s.ctx s.turn).rs q) ∧ (t.ctx s.turn).pc = (s.ctx s.turn).pc + 4
      ∧ SameBytes s t)
  ∧ ∀ (s : State) (d a b : SReg) (base w len : Nat), base = (s.rs b).toNat → w = (s.rs (sregAdd b 1)).toNat →
    len = bitsOf w 0 41 → rangeIn .memory (s.rs a).toNat 16 = true → (s.rs a).toNat % 16 = 0 →
    (base % 128 ≠ 0 → Traps (.sobind d a b) s s.breaking { cause := 0x08, tval := BitVec.ofNat 64 (256 * b.toNat) })
    ∧ (base % 128 = 0 → (len % 128 ≠ 0 ∨ 2 ^ 40 < len) →
      Traps (.sobind d a b) s s.breaking { cause := 0x08, tval := BitVec.ofNat 64 (256 * (b.toNat + 1)) })
    ∧ (∀ i, base % 128 = 0 → len % 128 = 0 → len ≤ 2 ^ 40 → 42 ≤ i → i < 64 → w.testBit i = true →
      (∀ j, 42 ≤ j → j < i → w.testBit j = false) →
      Traps (.sobind d a b) s s.breaking { cause := 0x08, tval := BitVec.ofNat 64 (4 * i + 256 * (b.toNat + 1)) })
    ∧ (base % 128 = 0 → len % 128 = 0 → len ≤ 2 ^ 40 → bitsOf w 42 22 = 0 → 2 ^ 57 < base + len →
      Traps (.sobind d a b) s s.breaking { cause := 0x08, tval := BitVec.ofNat 64 (256 * b.toNat + 16384) })

/-! ### Timelines, counters, streams -/

/-- R269: BCWAIT on a readable byte counter writes the count as soon as it has reached the limit, and waits before.
R127, R129, R130, R132: WAITTL passes where the number is done and no unreported fault stands at or below it, waits
where it is not done, traps TIMELINE_AHEAD with the number where it was never issued, and ENGINE_FAULT, which reports
and clears the mark, where a fault stands; TLRD reads one of the two values; WAITC passes exactly while each counter
is at or below its limit, 7 being no limit. -/
def Obligations.WaitInstructions : Prop :=
  (∀ (s : State) (d a b : SReg) (pa : Nat) (c : Word),
     rangeIn .memory (s.rs a).toNat 8 = true → (s.rs a).toNat % 8 = 0 →
     s.breaking.tr s.turn (s.rs a).toNat false 1 = .ok pa →
     s.lineErr (s.secureCore s.turn) (s.core s.turn).team (pa / 128) .read = none →
     c = BitVec.ofNat 64 (leNat (s.view (s.core s.turn).team pa 8)) →
     ((s.rs b).toNat ≤ c.toNat → ∃ t, exec (.bcwait d a b) s = .next t
       ∧ (t.ctx s.turn).rs d = (if d = 0 then 0 else c) ∧ (∀ q, q ≠ d → (t.ctx s.turn).rs q = (s.ctx s.turn).rs q)
       ∧ (t.ctx s.turn).pc = (s.ctx s.turn).pc + 4 ∧ SameBytes s t)
     ∧ (c.toNat < (s.rs b).toNat → Waits (.bcwait d a b) s))
  ∧ ((∀ (s : State) (t : TL) (b : SReg),
       (((s.ctx s.turn).timeline t).issued < (s.rs b).toNat →
         Traps (.waittl t b) s s.breaking { cause := 0x0B, tval := s.rs b })
       ∧ ((s.rs b).toNat ≤ ((s.ctx s.turn).timeline t).issued → ((s.ctx s.turn).timeline t).done < (s.rs b).toNat →
         Waits (.waittl t b) s)
       ∧ ((s.rs b).toNat ≤ ((s.ctx s.turn).timeline t).issued → (s.rs b).toNat ≤ ((s.ctx s.turn).timeline t).done →
         (((s.ctx s.turn).timeline t).mark = 0 ∨ (s.rs b).toNat < ((s.ctx s.turn).timeline t).mark) →
         WritesBreaking (.waittl t b) s 0 0)
       ∧ ((s.rs b).toNat ≤ ((s.ctx s.turn).timeline t).issued → (s.rs b).toNat ≤ ((s.ctx s.turn).timeline t).done →
         ((s.ctx s.turn).timeline t).mark ≠ 0 → ((s.ctx s.turn).timeline t).mark ≤ (s.rs b).toNat →
         ∃ u, Traps (.waittl t b) s u { cause := 0x0A }
           ∧ (u.ctx s.turn).ctl.engfault = ((s.ctx s.turn).timeline t).fault
           ∧ (u.ctx s.turn).ctl.engfaddr = ((s.ctx s.turn).timeline t).addr
           ∧ ((u.ctx s.turn).timeline t).mark = 0 ∧ u.turn = s.turn))
     ∧ (∀ (s : State) (d : SReg) (t : TL),
       WritesBreaking (.tlrd d t true) s d (BitVec.ofNat 64 ((s.ctx s.turn).timeline t).issued)
       ∧ WritesBreaking (.tlrd d t false) s d (BitVec.ofNat 64 ((s.ctx s.turn).timeline t).done))
     ∧ ∀ (s : State) (ld st cp tile : BitVec 3),
       (((ld = 7 ∨ (s.ctx s.turn).loads.toNat ≤ ld.toNat) ∧ (st = 7 ∨ (s.ctx s.turn).stores.toNat ≤ st.toNat)
           ∧ (cp = 7 ∨ (s.ctx s.turn).copies.toNat ≤ cp.toNat) ∧ (tile = 7 ∨ (s.ctx s.turn).tiles.toNat ≤ tile.toNat)) →
         WritesBreaking (.waitc ld st cp tile) s 0 0)
       ∧ (¬ ((ld = 7 ∨ (s.ctx s.turn).loads.toNat ≤ ld.toNat) ∧ (st = 7 ∨ (s.ctx s.turn).stores.toNat ≤ st.toNat)
           ∧ (cp = 7 ∨ (s.ctx s.turn).copies.toNat ≤ cp.toNat) ∧ (tile = 7 ∨ (s.ctx s.turn).tiles.toNat ≤ tile.toNat)) →
         Waits (.waitc ld st cp tile) s))

/-- R118 to R120: QPOP of a stream register that holds an element whose words pass their ECC, with no fault mark on
tl.cp, removes its first element and writes it, zero-extended (R117: one byte where it is a byte of a padded group);
of an empty register with no command bound to it it traps STREAM_EMPTY with the register's number; with one bound it
waits. -/
def Obligations.StreamPop : Prop :=
  ∀ (s : State) (d : SReg) (q : BitVec 3),
    ((s.ctx s.turn).timeline .cp).mark = 0 →
    (∀ bs rest, ((s.ctx s.turn).regs.queue q.toNat).bytes = bs ++ rest →
      bs.length = (if ((s.ctx s.turn).regs.queue q.toNat).narrow.headD false then 1
        else fmtBytes ((s.ctx s.turn).regs.queue q.toNat).fmt) → 0 < bs.length →
      (s.ctx s.turn).regs.streamBad q.toNat 1 = false →
      ∃ t, exec (.qpop d q) s = .next t
        ∧ (t.ctx s.turn).rs d = (if d = 0 then 0 else BitVec.ofNat 64 (leNat bs))
        ∧ ((t.ctx s.turn).regs.queue q.toNat).bytes = rest
        ∧ ((t.ctx s.turn).regs.queue q.toNat).narrow = ((s.ctx s.turn).regs.queue q.toNat).narrow.tail
        ∧ ((t.ctx s.turn).regs.queue q.toNat).fmt = ((s.ctx s.turn).regs.queue q.toNat).fmt
        ∧ (∀ n, n ≠ q.toNat → (t.ctx s.turn).regs.queue n = (s.ctx s.turn).regs.queue n)
        ∧ (∀ r, r ≠ d → (t.ctx s.turn).rs r = (s.ctx s.turn).rs r)
        ∧ (t.ctx s.turn).pc = (s.ctx s.turn).pc + 4 ∧ SameBytes s t)
    ∧ (((s.ctx s.turn).regs.queue q.toNat).bytes = [] → ((s.ctx s.turn).regs.queue q.toNat).narrow = [] →
      (s.ctx s.turn).bound q.toNat = [] → Traps (.qpop d q) s s.breaking { cause := 0x09, tval := q.setWidth 64 })
    ∧ (((s.ctx s.turn).regs.queue q.toNat).bytes = [] → ((s.ctx s.turn).regs.queue q.toNat).narrow = [] →
      (s.ctx s.turn).bound q.toNat ≠ [] → Waits (.qpop d q) s)

/-! ### Engine commands -/

/-- The engine commands of R112 and R229 with their kind. -/
def Sys2Proof.Machine.engineRows (d a : SReg) : List (Instr × EKind) :=
  [(.cpy d a, .cpy), (.cpyb d a, .cpyb), (.gath d a, .gath), (.scat d a, .scat), (.wstr d a, .wstr),
    (.dload d a, .dload)]

/-- A range that an engine may use lies wholly in translated memory or in the local scratchpad window (R111). -/
def Sys2Proof.Machine.engineMayUse (a n : Nat) : Prop := rangeIn .memory a n = true ∨ rangeIn .localSp a n = true

/-- The bytes of a row of a command at its destination, and from its first byte to the last byte of its last row. -/
def Sys2Proof.Machine.rowOut (xf len : Nat) : Nat := if xf = 1 then len / 25 * 33 else if xf = 2 then len / 33 * 25 else len
def Sys2Proof.Machine.spanOf (pitch rows len : Nat) : Nat := if len = 0 then 0 else (max 1 rows - 1) * pitch + len

/-- What R115 to R117, R121, R123 and R229 ask of the fields of a command group, without the ranges: values, then
reserved bits, then what one field asks of another. -/
def Sys2Proof.Machine.fieldsOk (x : Ctx) (c : EngCmd) : Prop :=
  let f (g : Word) (lo n : Nat) : Nat := (g.extractLsb' lo n).toNat
  let len := f c.g3 0 24
  let rows := f c.g3 24 16
  let xf := f c.g3 40 2
  let src := c.g1.toNat
  let dst := c.g0.toNat
  let sn := spanOf (f c.g2 0 32) rows len
  let dn := spanOf (f c.g2 32 32) rows (rowOut xf len)
  match c.kind with
  | .cpy => xf ≠ 3 ∧ f c.g3 42 22 = 0
    ∧ (xf = 1 → len % 25 = 0 ∧ spaceOf src ≠ .localSp ∧ spaceOf dst ≠ .memory)
    ∧ (xf = 2 → len % 33 = 0 ∧ spaceOf src ≠ .memory ∧ spaceOf dst ≠ .localSp)
    ∧ ¬ (len ≠ 0 ∧ (∃ y, src ≤ y ∧ y < src + sn ∧ dst ≤ y ∧ y < dst + dn)
      ∧ ((rangeIn .memory src sn = true ∧ rangeIn .memory dst dn = true)
        ∨ (rangeIn .localSp src sn = true ∧ rangeIn .localSp dst dn = true)))
  | .cpyb => f c.g0 3 5 = 0 ∧ f c.g0 12 52 = 0 ∧ xf < 2 ∧ f c.g3 42 22 = 0 ∧ (xf = 1 → len % 25 = 0)
    ∧ ∃ t, Fmt.ofCode (f c.g0 8 4) = some t ∧ t ≠ .raw ∧ len % fmtBytes t = 0
      ∧ (t = (x.regs.queue (f c.g0 0 3)).fmt
        ∨ ((x.regs.queue (f c.g0 0 3)).bytes = [] ∧ x.bound (f c.g0 0 3) = []))
  | .gath | .scat => f c.g3 21 43 = 0 ∧ c.g2.toNat % (if c.g3.getLsbD 19 then 8 else 4) = 0
  | .wstr => f c.g0 3 61 = 0 ∧ f c.g2 0 32 ≠ 0 ∧ f c.g2 32 32 = 0 ∧ f c.g3 7 57 = 0
    ∧ ∃ t, Fmt.ofCode (f c.g3 0 4) = some t ∧ t ≠ .raw ∧ t ≠ .int32 ∧ t ≠ .e8
      ∧ (c.g3.getLsbD 4 = true → scalable t = true) ∧ (c.g3.getLsbD 6 = true → is6bit t = true ∧ c.g3.getLsbD 4 = true)
  | .dload => f c.g0 9 55 = 0 ∧ f c.g2 10 54 = 0 ∧ c.g3 = 0 ∧ f c.g0 0 9 + f c.g2 0 10 ≤ 512 ∧ c.g1.toNat % 4 = 0
  | .fxput | .fxred => True

/-- What R111, R115, R117, R121, R123 and R229 ask of the ranges of a command group. -/
def Sys2Proof.Machine.rangesOk (c : EngCmd) : Prop :=
  let f (g : Word) (lo n : Nat) : Nat := (g.extractLsb' lo n).toNat
  let len := f c.g3 0 24
  let rows := f c.g3 24 16
  let n := f c.g3 0 16
  let z := 2 ^ f c.g3 16 3
  match c.kind with
  | .cpy => len = 0 ∨ (engineMayUse c.g1.toNat (spanOf (f c.g2 0 32) rows len)
      ∧ engineMayUse c.g0.toNat (spanOf (f c.g2 32 32) rows (rowOut (f c.g3 40 2) len)))
  | .cpyb => len = 0 ∨ engineMayUse c.g1.toNat (spanOf (f c.g2 0 32) rows len)
  | .gath => (n = 0 ∨ engineMayUse c.g0.toNat (n * z)) ∧ spaceOf c.g2.toNat = .localSp
      ∧ (n = 0 ∨ rangeIn .localSp c.g2.toNat (n * (if c.g3.getLsbD 19 then 8 else 4)) = true)
  | .scat => (n = 0 ∨ engineMayUse c.g1.toNat (n * z)) ∧ spaceOf c.g2.toNat = .localSp
      ∧ (n = 0 ∨ rangeIn .localSp c.g2.toNat (n * (if c.g3.getLsbD 19 then 8 else 4)) = true)
  | .wstr => rangeIn .memory c.g1.toNat (f c.g2 0 32) = true
  | .dload => f c.g2 0 10 = 0 ∨ engineMayUse c.g1.toNat (4 * f c.g2 0 10)
  | .fxput | .fxred => True

/-- R113, R114, R131: an engine command whose group passes the checks of its kind and for which its queue and the
copies counter have room takes the next number of its timeline and writes it to its destination. One that moves
something is queued, with the four registers and the address space of the issue, and counts as outstanding; one that
moves nothing completes at once. No other scalar register and no memory changes. While its queue holds 16 commands, or
the copies counter is full, it waits. R113, R115 to R117, R121, R123, R229, R420: the checks of an engine command,
field by field. A group whose fields and ranges are in order passes; one whose fields are not takes COMMAND_INVALID
with the field that fails; one whose fields are in order and whose ranges are not takes ADDRESS_FAULT with the address
of one of them. Nothing is issued then. The model's reading (log entry 26): a transform with an end in neither space
goes to the range check, and LEN = 0 skips the overlap and the ranges. -/
def Obligations.EngineCommands : Prop :=
  (∀ (s : State) (d a : SReg) (e : Instr × EKind) (c : EngCmd) (n : Nat), e ∈ engineRows d a →
     c.kind = e.2 → c.g0 = s.rs (sregAdd a 0) → c.g1 = s.rs (sregAdd a 1) → c.g2 = s.rs (sregAdd a 2) →
     c.g3 = s.rs (sregAdd a 3) → n = ((s.ctx s.turn).timeline e.2.tl).issued + 1 →
     checkCmd (s.breaking.ctx s.turn) c = .ok () →
     ((16 ≤ ((s.ctx s.turn).queue e.2.queue).length ∨ (s.ctx s.turn).copies = 0xFFFF) → Waits e.1 s)
     ∧ (((s.ctx s.turn).queue e.2.queue).length < 16 → (s.ctx s.turn).copies ≠ 0xFFFF →
     ∃ t, exec e.1 s = .next t
       ∧ (t.ctx s.turn).rs d = (if d = 0 then 0 else BitVec.ofNat 64 n)
       ∧ ((t.ctx s.turn).timeline e.2.tl).issued = n
       ∧ (c.isEmpty = false → (t.ctx s.turn).copies = (s.ctx s.turn).copies + 1
           ∧ ∃ q, (t.ctx s.turn).queue e.2.queue = (s.ctx s.turn).queue e.2.queue ++ [q]
             ∧ q.num = n ∧ q.kind = e.2 ∧ q.g0 = c.g0 ∧ q.g1 = c.g1 ∧ q.g2 = c.g2 ∧ q.g3 = c.g3
             ∧ q.pasid = s.pasidOf s.turn true ∧ q.prog = 0 ∧ q.moved = false)
       ∧ (c.isEmpty = true → (t.ctx s.turn).copies = (s.ctx s.turn).copies
           ∧ (t.ctx s.turn).queues = (s.ctx s.turn).queues)
       ∧ (∀ q, q ≠ d → (t.ctx s.turn).rs q = (s.ctx s.turn).rs q)
       ∧ (t.ctx s.turn).pc = (s.ctx s.turn).pc + 4 ∧ SameBytes s t ∧ ∀ k, k ≠ s.turn → t.core k = s.core k))
  ∧ (∀ (s : State) (d a : SReg) (e : Instr × EKind) (c : EngCmd), e ∈ engineRows d a →
       c.kind = e.2 → c.g0 = s.rs (sregAdd a 0) → c.g1 = s.rs (sregAdd a 1) → c.g2 = s.rs (sregAdd a 2) →
       c.g3 = s.rs (sregAdd a 3) →
       (fieldsOk (s.breaking.ctx s.turn) c → rangesOk c → checkCmd (s.breaking.ctx s.turn) c = .ok ())
       ∧ (¬ fieldsOk (s.breaking.ctx s.turn) c →
         ∃ reg bit k, checkCmd (s.breaking.ctx s.turn) c = .error (.invalid reg bit k) ∧ reg < 4 ∧ bit < 64 ∧ k < 2)
       ∧ (fieldsOk (s.breaking.ctx s.turn) c → ¬ rangesOk c →
         ∃ n, checkCmd (s.breaking.ctx s.turn) c = .error (.address n) ∧ n ∈ [c.g0.toNat, c.g1.toNat, c.g2.toNat])
       ∧ (∀ reg bit k, checkCmd (s.breaking.ctx s.turn) c = .error (.invalid reg bit k) →
         Traps e.1 s s.breaking { cause := 0x08, tval := BitVec.ofNat 64 (reg + 4 * bit + 256 * (sregAdd a reg).toNat + 16384 * k) })
       ∧ (∀ n, checkCmd (s.breaking.ctx s.turn) c = .error (.address n) →
         Traps e.1 s s.breaking { cause := 0x04, tval := BitVec.ofNat 64 n }))

/-- One byte of a group under a transform (R31, R115): its own, byte `i` of a padded group from a tight one, or of a tight group
from a padded one. -/
def Sys2Proof.Machine.groupOut (xf : Nat) (g : Nat → Byte) (i : Nat) : Byte :=
  match xf with
  | 1 => if i = 32 then g 24 else BitVec.ofNat 8 (leNat ((List.range 24).map g) / 64 ^ i % 64)
  | 2 => if i = 24 then g 32
    else BitVec.ofNat 8 (((List.range 32).map (fun k => (g k).toNat % 64 * 64 ^ k)).sum / 256 ^ i)
  | _ => g i

/-- An engine can read a range, by its whole granules: it lies in the scratchpad window, or in translated memory that stands
at the same addresses displaced by `off`, with no error. -/
def Sys2Proof.Machine.engGets (s : State) (e : Agent) (off a n : Nat) : Prop :=
  rangeIn .localSp a n = true ∨ (rangeIn .memory a n = true ∧ off % 128 = 0 ∧ ∀ i, i < n + 16 →
    s.translate e.req e.slice e.pasid (a / 8 * 8 + i) false = .ok (a / 8 * 8 + i + off)
    ∧ s.lineErr (e.secure s) e.team ((a / 8 * 8 + i + off) / 128) .read = none)

/-- An engine can write a range, which in memory becomes visible at once as its node has committed. -/
def Sys2Proof.Machine.engPuts (s : State) (e : Agent) (off a n : Nat) : Prop :=
  rangeIn .localSp a n = true ∨ (rangeIn .memory a n = true ∧ off % 128 = 0 ∧ (s.team e.team).committed = true
      ∧ ∀ i, i < n →
    s.translate e.req e.slice e.pasid (a + i) true = .ok (a + i + off)
    ∧ s.lineErr (e.secure s) e.team ((a + i + off) / 128) .part = none
    ∧ s.lineErr (e.secure s) e.team ((a + i + off) / 128) .full = none)

/-- The byte that an engine reads at an address, and the one that stands there for everyone. -/
def Sys2Proof.Machine.engByte (s : State) (e : Agent) (off a : Nat) : Byte :=
  if rangeIn .localSp a 1 then (s.cluster e.cl).store.sp.get (spOff a) else s.viewByte e.team (a + off)
def Sys2Proof.Machine.engHome (s : State) (cl off a : Nat) : Byte :=
  if rangeIn .localSp a 1 then (s.cluster cl).store.sp.get (spOff a) else s.home.mem.get (a + off)

/-- A command that an engine of its cluster can serve first, and that has not begun: nothing of it is moved, and no
translation, no error in scratchpad and no save holds it up. -/
def Sys2Proof.Machine.freshCmd (s : State) (team m cl : Nat) (eng : Eng) (c : EngCmd) : Prop :=
  ((s.member team m).queue (engQueue eng))[0]? = some c ∧ c.kind.queue = engQueue eng ∧ m < 4 ∧ c.moved = false
  ∧ c.prog = 0 ∧ c.off = 0 ∧ c.held = [] ∧ c.edge = (0, []) ∧ c.umap = [] ∧ (s.team team).cluster = some cl
  ∧ (s.cluster cl).store.spBad = [] ∧ s.parked team m (engQueue eng) = false ∧ s.leaving team = false

/-- What a burst leaves beside the bytes it moves: the engine's turn has passed to its queue, and no other cluster's store and
no other register of the member has changed but a stream register. -/
def Sys2Proof.Machine.burstFrame (s t : State) (team m cl : Nat) (eng : Eng) : Prop :=
  Map.get 0 (t.cluster cl).served (engQueue eng) = 4 * team + m
  ∧ (∀ n, n ≠ cl → (t.cluster n).store = (s.cluster n).store)
  ∧ (t.member team m).regs = { (s.member team m).regs with q := (t.member team m).regs.q }

/-- R110, R115: one burst of a CPY that its engine serves next and whose destination bytes fit in 4 KiB, of any number
of rows, between scratchpad and translated memory in any pairing, under each transform, puts every destination byte of
every row where the pitches say, changes no other byte of scratchpad or memory, and has then moved; a burst out of
turn does nothing. A larger one has moved 4 KiB then. Stated where the rows' destinations do not meet. R110, R121,
R122: one burst of a GATH or SCAT of up to 32 elements that its engine serves next moves each element whose index does
not skip it between the place that its sign-extended index names and its place in the contiguous range; where two
targets share a byte the later element's stands; no other byte changes. R117, R118: one burst of a CPYB that is the
first command bound to its stream register, and whose bytes all find room there, adds them in source order after those
that stand there, those of each padded group where it expands tight ones, and counts as many elements as it carries;
the tag, every other stream register and memory stay. R110, R123, R124: the first burst of a WSTR that its engine
serves next writes whole blocks of its slot from the begin of the slot on: a stored block's elements and scale, tight
groups expanded, zeros with a scale of 1 for a block that the map leaves out, and a scale of 1 everywhere without
scales. The stream's place is after the blocks it has taken; the rest of the buffer and memory stay. R229: one burst
of a DLOAD that its engine serves next puts every word of its source into the control store from its place on, and no
other. R126, R368: a CPY whose source has no translation has its queue parked with nothing moved. R127, R131: the
completion of a command whose bytes are moved takes it out of its queue, counts its number as completed and lowers the
copies counter. -/
def Obligations.EngineBursts : Prop :=
  (∀ (s : State) (team m cl so d xf len rows sp dp dl gi go : Nat) (c : EngCmd) (e : Agent),
     freshCmd s team m cl .copy c → e = s.agent team m 0 c → c.kind = .cpy →
     len = (c.g3.extractLsb' 0 24).toNat → rows = max 1 (c.g3.extractLsb' 24 16).toNat →
         xf = (c.g3.extractLsb' 40 2).toNat →
     sp = (c.g2.extractLsb' 0 32).toNat → dp = (c.g2.extractLsb' 32 32).toNat → dl = rowOut xf len → xf < 3 →
     gi = [1, 25, 33].getD xf 1 → go = [1, 33, 25].getD xf 1 → len % gi = 0 → 0 < len → (rows = 1 ∨ dl ≤ dp) →
     engGets s e so c.g1.toNat (spanOf sp rows len) → engPuts s e d c.g0.toNat (spanOf dp rows dl) →
     (s.engineTurn cl 0 ≠ some (4 * team + m) → exec (.engineBurst team m .copy 0) s = .next s)
     ∧ (s.engineTurn cl 0 = some (4 * team + m) → ∃ t, exec (.engineBurst team m .copy 0) s = .next t
       ∧ burstFrame s t team m cl .copy
       ∧ (rows * dl ≤ 4096 →
         (∀ r j, r < rows → j < dl → engHome t cl d (c.g0.toNat + r * dp + j)
           = groupOut xf (fun i => engByte s e so (c.g1.toNat + r * sp + j / go * gi + i)) (j % go))
         ∧ (∀ a, rangeIn .localSp a 1 = true → (∀ r j, r < rows → j < dl → a ≠ c.g0.toNat + r * dp + j) →
           (t.cluster cl).store.sp.get (spOff a) = (s.cluster cl).store.sp.get (spOff a))
         ∧ (∀ x, (rangeIn .memory c.g0.toNat 1 = true → ∀ r j, r < rows → j < dl → x ≠ c.g0.toNat + r * dp + j + d) →
           t.home.mem.get x = s.home.mem.get x)
         ∧ ((t.member team m).queue 0)[0]?.map (·.moved) = some true)
       ∧ (4096 < rows * dl → xf = 0 →
         ((t.member team m).queue 0)[0]?.map (fun x => (x.prog, x.moved)) = some (4096, false))))
  ∧ (∀ (s : State) (team m cl so d n z iw : Nat) (c : EngCmd) (e : Agent) (ix : Nat → Word) (src dst : Nat →
      Nat) (moves : Nat → Prop),
       freshCmd s team m cl .gather c → e = s.agent team m 1 c → (c.kind = .gath ∨ c.kind = .scat) →
       n = (c.g3.extractLsb' 0 16).toNat → z = 2 ^ (c.g3.extractLsb' 16 3).toNat →
           iw = (if c.g3.getLsbD 19 then 8 else 4) →
       0 < n → n ≤ 32 → rangeIn .localSp c.g2.toNat (n * iw) = true →
       ix = (fun i => (BitVec.ofNat (8 * iw) (leNat ((s.cluster cl).store.spGet (spOff c.g2.toNat + i * iw) iw))).signExtend 64) →
       moves = (fun i => i < n ∧ ¬ (c.g3.getLsbD 20 = true ∧ ix i = BitVec.allOnes 64)) →
       src = (fun i => if c.kind = .gath then (c.g1.toNat + (ix i).toNat * z) % 2 ^ 64 else c.g1.toNat + i * z) →
       dst = (fun i => if c.kind = .gath then c.g0.toNat + i * z else (c.g0.toNat + (ix i).toNat * z) % 2 ^ 64) →
       (∀ i, moves i → engGets s e so (src i) z ∧ engPuts s e d (dst i) z) →
       s.engineTurn cl 1 = some (4 * team + m) → ∃ t, exec (.engineBurst team m .gather 0) s = .next t
         ∧ burstFrame s t team m cl .gather
         ∧ (∀ i b, moves i → b < z → (∀ k, i < k → moves k → dst i + b < dst k ∨ dst k + z ≤ dst i + b) →
           engHome t cl d (dst i + b) = engByte s e so (src i + b))
         ∧ (∀ a, rangeIn .localSp a 1 = true → (∀ i b, moves i → b < z → a ≠ dst i + b) →
           (t.cluster cl).store.sp.get (spOff a) = (s.cluster cl).store.sp.get (spOff a))
         ∧ (∀ x, (∀ i b, moves i → b < z → rangeIn .memory (dst i) z = true → x ≠ dst i + b + d) →
           t.home.mem.get x = s.home.mem.get x)
         ∧ ((t.member team m).queue 1)[0]?.map (·.moved) = some true)
  ∧ (∀ (s : State) (team m cl so xf len rows sp dl gi go q w : Nat) (c : EngCmd) (e : Agent) (r u : QReg),
       freshCmd s team m cl .copy c → e = s.agent team m 0 c → c.kind = .cpyb →
       len = (c.g3.extractLsb' 0 24).toNat → rows = max 1 (c.g3.extractLsb' 24 16).toNat →
           xf = (c.g3.extractLsb' 40 2).toNat →
       sp = (c.g2.extractLsb' 0 32).toNat → dl = rowOut xf len → xf < 2 → gi = [1, 25].getD xf 1 →
           go = [1, 33].getD xf 1 →
       len % gi = 0 → 0 < len → q = (c.g0.extractLsb' 0 3).toNat → r = (s.member team m).regs.queue q →
       w = (if xf = 0 then fmtBytes r.fmt else 1) → dl % w = 0 → r.bytes.length + rows * dl ≤ 1024 →
       engGets s e so c.g1.toNat (spanOf sp rows len) →
       s.engineTurn cl 0 = some (4 * team + m) → ∃ t, exec (.engineBurst team m .copy 0) s = .next t
         ∧ burstFrame s t team m cl .copy
         ∧ (u = (t.member team m).regs.queue q →
           u.bytes = r.bytes ++ (List.range (rows * dl)).map (fun p =>
             groupOut xf (fun i => engByte s e so (c.g1.toNat + p / dl * sp + p % dl / go * gi + i)) (p % dl % go))
           ∧ u.fmt = r.fmt ∧ u.faults = r.faults
           ∧ (r.narrow = [] → r.bytes.length % fmtBytes r.fmt = 0 →
               u.count = r.bytes.length / fmtBytes r.fmt + rows * dl / w))
         ∧ (∀ k, k ≠ q → (t.member team m).regs.queue k = (s.member team m).regs.queue k)
         ∧ t.home.mem = s.home.mem ∧ (t.cluster cl).store = (s.cluster cl).store
         ∧ ((t.member team m).queue 0)[0]?.map (·.moved) = some true)
  ∧ (∀ (s : State) (team m cl so slot w bl nb side : Nat) (f : Fmt) (scl elide tight : Bool) (c : EngCmd) (e : Agent)
       (str : Nat → Byte) (stored : Nat → Bool) (at_ : Nat → Nat) (blk : Nat → Nat → Byte),
       freshCmd s team m cl .weight c → e = s.agent team m 2 c → c.kind = .wstr → s.wstrHeld e c = false →
       slot = (c.g0.extractLsb' 0 3).toNat → Fmt.ofCode (c.g3.extractLsb' 0 4).toNat = some f → f ≠ .raw → f ≠ .int32 →
       scl = c.g3.getLsbD 4 → elide = c.g3.getLsbD 5 → tight = c.g3.getLsbD 6 → w = fmtBytes f → (scl = true → w = 1) →
       (tight = true → scl = true) → bl = (if tight then 25 else if scl then 33 else 32 * w) → nb = 120 / w →
       side = [1, 1, 2, 8, 8, 8, 8, 8, 8].getD w 8 → 16 + bl * nb ≤ (c.g2.extractLsb' 0 32).toNat →
       engGets s e so c.g1.toNat (16 + bl * nb) → str = (fun i => engByte s e so (c.g1.toNat + i)) →
       stored = (fun b => !elide || (str (b / 8)).getLsbD (b % 8)) →
       at_ = (fun b => (if elide then 16 else 0) + bl * ((List.range b).filter stored).length) →
       blk = (fun b i => groupOut (if tight then 1 else 0) (fun k => str (at_ b + k)) i) →
       s.engineTurn cl 2 = some (4 * team + m) → ∃ t, exec (.engineBurst team m .weight 0) s = .next t
         ∧ burstFrame s t team m cl .weight
         ∧ (∀ b i, b < nb → i < 32 * w →
           (t.cluster cl).store.wb.get (slot * 32768 + b * 32 * w + i) = (if stored b then blk b i else 0))
         ∧ (∀ b i, b < nb → i < side →
           (t.cluster cl).store.wbs.get (slot * 1024 + b * side + i) = (if scl && stored b then blk b 32 else 0x7F))
         ∧ (∀ x, (x < slot * 32768 ∨ slot * 32768 + nb * 32 * w ≤ x) →
             (t.cluster cl).store.wb.get x = (s.cluster cl).store.wb.get x)
         ∧ (∀ x, (x < slot * 1024 ∨ slot * 1024 + nb * side ≤ x) →
             (t.cluster cl).store.wbs.get x = (s.cluster cl).store.wbs.get x)
         ∧ t.home.mem = s.home.mem
         ∧ ((t.member team m).queue 2)[0]?.map (fun x => (x.prog, x.off, x.moved)) = some (nb, at_ nb, false))
  ∧ (∀ (s : State) (team m cl so n dst : Nat) (c : EngCmd) (e : Agent),
       freshCmd s team m cl .copy c → e = s.agent team m 0 c → c.kind = .dload → dst = (c.g0.extractLsb' 0 9).toNat →
       n = (c.g2.extractLsb' 0 10).toNat → engGets s e so c.g1.toNat (4 * n) →
       s.engineTurn cl 0 = some (4 * team + m) → ∃ t, exec (.engineBurst team m .copy 0) s = .next t
         ∧ burstFrame s t team m cl .copy
         ∧ (∀ i, i < n → (t.cluster cl).store.dcs.get (dst + i)
           = BitVec.ofNat 32 (leNat ((List.range 4).map (fun b => engByte s e so (c.g1.toNat + 4 * i + b)))))
         ∧ (∀ x, (x < dst ∨ dst + n ≤ x) → (t.cluster cl).store.dcs.get x = (s.cluster cl).store.dcs.get x)
         ∧ t.home.mem = s.home.mem ∧ (t.cluster cl).store.sp = (s.cluster cl).store.sp
         ∧ ((t.member team m).queue 0)[0]?.map (·.moved) = some true)
  ∧ ((∀ (s : State) (team m cl : Nat) (c : EngCmd) (e : Agent), freshCmd s team m cl .copy c →
      e = s.agent team m 0 c → c.kind = .cpy →
       0 < (c.g3.extractLsb' 0 24).toNat → (c.g3.extractLsb' 40 2).toNat = 0 → spaceOf c.g1.toNat = .memory →
           c.pasid ≠ physPasid →
       (∀ x ∈ (s.slice e.slice).refused, x.req ≠ e.req) → (s.slice e.slice).ats.length < 1024 →
       (∀ i, i < 8 → s.dtcHit e.slice e.pasid (c.g1.toNat / 8 * 8 + i) false = none) →
       s.engineTurn cl 0 = some (4 * team + m) → ∃ t, exec (.engineBurst team m .copy 0) s = .next t
         ∧ t.parked team m 0 = true ∧ t.home = s.home ∧ (t.cluster cl).store = (s.cluster cl).store
         ∧ ((t.member team m).queue 0)[0]?.map (fun x => (x.num, x.prog, x.moved)) = some (c.num, 0, false))
     ∧ ∀ (s : State) (team m cl : Nat) (c : EngCmd) (rest : List EngCmd),
       (s.team team).cluster = some cl → (s.core (4 * cl + m)).team = team →
       (s.ctx (4 * cl + m)).queue 0 = c :: rest → c.moved = true → c.kind = .cpy → (∀ o ∈ rest, o.num ≠ c.num) →
       c.num < 2 ^ 64 → c.num = ((s.ctx (4 * cl + m)).timeline .cp).done + 1 →
       ((s.ctx (4 * cl + m)).timeline .cp).finished = [] →
       ∃ t, exec (.commandComplete team m .cp (BitVec.ofNat 64 c.num)) s = .next t
         ∧ (t.ctx (4 * cl + m)).queue 0 = rest
         ∧ ((t.ctx (4 * cl + m)).timeline .cp).done = c.num
         ∧ (t.ctx (4 * cl + m)).copies = (s.ctx (4 * cl + m)).copies - 1
         ∧ (t.ctx (4 * cl + m)).regs = (s.ctx (4 * cl + m)).regs)

/-! ### Exceptions -/

/-- R338, R341, R342, R107, R213: taking a synchronous cause whose target ring is above the ring in force saves the
instruction's address in EPC, the cause word, the detail, and in the status word the ring that ran in PRING and the
old IE in PIE with IE clear; it changes the ring, goes to the vector with its low two bits clear, breaks an open line
region, which counts a handler that runs in its own ring, and ends a run of the lease. A cause that targets the ring
in force or a lower one goes to the next ring up with ESC set and its target in ORIG; raised in ring M it stops the
core. No other register of the core changes. -/
def Obligations.TakingAnException : Prop :=
  ∀ (s : State) (k : Nat) (i : TrapInfo) (r : HRing) (esc : Bool),
    (escalate (s.ctx k).ring i.target = some (r, esc) →
      ((s.takeSync k i).ctx k).ring = toRing r
      ∧ ((s.takeSync k i).ctx k).pc = ((s.core k).trapRegs r).tvec &&& ~~~3#64
      ∧ ((s.takeSync k i).core k).trapRegs r = { (s.core k).trapRegs r with
          epc := (s.ctx k).pc + BitVec.ofNat 64 i.epcOff,
          cause := BitVec.ofNat 64 (i.cause + 256 * i.step + 2048 * esc.toNat
            + 4096 * (if esc then i.target.rank else 0) + 16384 * i.access),
          tval := i.tval,
          status := BitVec.ofNat 64 ((s.ctx k).ring.rank + 8 * (((s.core k).trapRegs r).status.getLsbD 2).toNat) }
      ∧ (∀ q, q ≠ r → ((s.takeSync k i).core k).trapRegs q = (s.core k).trapRegs q)
      ∧ ((s.takeSync k i).ctx k).regs = (s.ctx k).regs
      ∧ ((s.takeSync k i).ctx k).ctl.fpflags = (s.ctx k).ctl.fpflags
      ∧ ((s.takeSync k i).ctx k).ctl.retired = (s.ctx k).ctl.retired
      ∧ ((s.takeSync k i).ctx k).region = (s.ctx k).region.map (fun g => { g with
          broken := true, inner := if g.ring = (s.ctx k).ring ∧ g.ring = toRing r then g.inner + 1 else g.inner })
      ∧ ((s.takeSync k i).cluster (clusterOf k)).array.lease.holder ≠ some (k % 4)
      ∧ SameBytes s (s.takeSync k i) ∧ ∀ n, n ≠ k → (s.takeSync k i).core n = s.core n)
    ∧ ((s.ctx k).ring.rank < i.target.rank → ∃ g, escalate (s.ctx k).ring i.target = some (g, false)
        ∧ toRing g = i.target)
    ∧ (i.target.rank ≤ (s.ctx k).ring.rank → (s.ctx k).ring ≠ .m →
      ∃ g, escalate (s.ctx k).ring i.target = some (g, true) ∧ (toRing g).rank = (s.ctx k).ring.rank + 1)
    ∧ ((s.ctx k).ring = .m →
      ((s.takeSync k i).core k).dead = true ∧ ((s.takeSync k i).core k).ctx = (s.core k).ctx
      ∧ ((s.takeSync k i).core k).m = (s.core k).m ∧ (s.takeSync k i).issues k = false
      ∧ Signal.moduleError ∈ (s.takeSync k i).mgmt.signals)

/-- R345, R347: TRAP takes SYSCALL (cause 0x0D) with its code as the detail and EPC at the next parcel, in the ring
above, or in the ring that bits [12:11] of its code name, escalated where R342 says so; `trap 0x1001` is the parcel
0x8008006C. BRK takes BREAKPOINT (0x0E) with EPC its own address, in ring D, or in ring H where ctl.dbgctl says so. -/
def Obligations.TrapInstructions : Prop :=
  ∀ (s : State) (code : BitVec 13),
    (code.toNat / 2048 = 0 →
      Traps (.trap code) s s.breaking { cause := 0x0D, tval := code.setWidth 64, epcOff := 4, target := (s.ctx s.turn).ring.above })
    ∧ (code.toNat / 2048 ≠ 0 →
      ∃ g, g = (if code.toNat / 2048 = 1 then Ring.d else if code.toNat / 2048 = 2 then .h else .m)
        ∧ Traps (.trap code) s s.breaking { cause := 0x0D, tval := code.setWidth 64, epcOff := 4, target := g })
    ∧ Traps .brk s s.breaking { cause := 0x0E, target := (if (s.ctx s.turn).ctl.dbgctl.getLsbD 1 then .h else .d) }
    ∧ decode [0x8008006C#32] = .ok (.trap 0x1001)

/-- R346: ERET in a ring above U whose PRING is not above it returns to the ring of PRING at EPC with the low two bits
clear, and restores IE from PIE; the other saved registers, the scalar registers and memory keep their values. In ring
U, and where PRING is above the ring, it takes RING_VIOLATION. A line region stays broken, and its handler is left. -/
def Obligations.ExceptionReturn : Prop :=
  ∀ (s : State) (r : HRing) (p : Ring),
    ((s.ctx s.turn).ring = toRing r → p.rank = (((s.core s.turn).trapRegs r).status.toNat) % 4 →
      p.rank ≤ (toRing r).rank →
      ∃ t, exec .eret s = .next t ∧ (t.ctx s.turn).ring = p
        ∧ (t.ctx s.turn).pc = ((s.core s.turn).trapRegs r).epc &&& ~~~3#64
        ∧ ((t.core s.turn).trapRegs r).status.getLsbD 2 = ((s.core s.turn).trapRegs r).status.getLsbD 3
        ∧ (∀ b, b ≠ 2 → ((t.core s.turn).trapRegs r).status.getLsbD b = ((s.core s.turn).trapRegs r).status.getLsbD b)
        ∧ (t.core s.turn).trapRegs r = { (s.core s.turn).trapRegs r with status := ((t.core s.turn).trapRegs r).status }
        ∧ (∀ q, q ≠ r → (t.core s.turn).trapRegs q = (s.core s.turn).trapRegs q)
        ∧ (t.ctx s.turn).region = (s.ctx s.turn).region.map (fun g => { g with
            broken := true, inner := if g.ring = toRing r ∧ g.ring = p then g.inner - 1 else g.inner })
        ∧ (t.ctx s.turn).regs = (s.ctx s.turn).regs ∧ SameBytes s t)
    ∧ ((s.ctx s.turn).ring = .u → Traps .eret s s.breaking { cause := 0x02 })
    ∧ ((s.ctx s.turn).ring = toRing r → (toRing r).rank < (((s.core s.turn).trapRegs r).status.toNat) % 4 →
      Traps .eret s s.breaking { cause := 0x02 })

/-- R340: between two instructions at most one cause is taken, in this order: a DATA_ABORT that waits, behind which
the next one then stands (log entry 29), the step trap, a pre-emption request, an interrupt; the last two only in ring
U, or in ring D with IE set, and each is cleared as it is taken. -/
def Obligations.BoundaryTakesCausesInOrder : Prop :=
  ∀ (s : State) (k : Nat) (c : Core), c = s.core k →
    (∀ a, c.abort = some a → ∃ t, s.boundaryTrap k = some t ∧ (t.core k).abort = c.abortQ.head?
      ∧ (t.core k).abortQ = c.abortQ.tail ∧ (t.core k).stepped = c.stepped
      ∧ (t.core k).preempt = c.preempt ∧ (t.core k).intr = c.intr)
    ∧ (∀ a, c.abort = none → c.stepped = some a → ∃ t, s.boundaryTrap k = some t ∧ (t.core k).stepped = none
      ∧ (t.core k).preempt = c.preempt ∧ (t.core k).intr = c.intr)
    ∧ (c.abort = none → c.stepped = none → (c.ctx.ring = .u ∨ (c.ctx.ring = .d ∧ c.ctx.ctl.d.status.getLsbD 2 = true)) →
      c.preempt = true → ∃ t, s.boundaryTrap k = some t ∧ (t.core k).preempt = false ∧ (t.core k).intr = c.intr
        ∧ (t.ctx k).ring = .d ∧ (t.ctx k).ctl.d.epc = c.ctx.pc ∧ (t.ctx k).ctl.d.cause = 0x10010)
    ∧ (∀ v, c.abort = none → c.stepped = none →
      (c.ctx.ring = .u ∨ (c.ctx.ring = .d ∧ c.ctx.ctl.d.status.getLsbD 2 = true)) → c.preempt = false →
      c.intr = some v → ∃ t, s.boundaryTrap k = some t ∧ (t.core k).intr = none
        ∧ (t.ctx k).ring = .d ∧ (t.ctx k).ctl.d.epc = c.ctx.pc ∧ (t.ctx k).ctl.d.cause = 0x10011
        ∧ (t.ctx k).ctl.d.tval = v)
    ∧ (c.abort = none → c.stepped = none → c.ctx.ring ≠ .u →
      (c.ctx.ring = .d → c.ctx.ctl.d.status.getLsbD 2 = false) → s.boundaryTrap k = none)

/-- R348, R349, R350, R352: WFE begins to wait with its limit and later writes the reasons seen since, once there is
one; HALT in ring H or M halts the core past itself; PDONE without a request writes 1, and with one in ring D records
its mask, moves on, and hands the core over, with its destination to be written after the restore, and the team is
swapped out once no member is left; HALT below ring H and PDONE in ring U take RING_VIOLATION. R339 to R341, R348,
R349: the events of one core: the doorbell makes an interrupt with its vector pending and wakes a WFE; a pending cause
is taken at the boundary, but not by a member that has stopped for its save (R353); the limit of a waiting WFE sets
reason bit 5; a resume of a halted core with 1 lets it issue again. R9, R406: in a secure slice a doorbell or a resume
by a non-secure master does nothing; which registers belong to which block, and which master is secure, is the model's
(log entry 36). -/
def Obligations.WaitHaltAndCoreEvents : Prop :=
  (∀ (s : State) (d a : SReg),
     ((s.ctx s.turn).wfe = none → ∃ t, exec (.wfe d a) s = .next t
       ∧ (t.ctx s.turn).wfe = some { seen := 0, limit := s.rs a } ∧ (t.ctx s.turn).pc = (s.ctx s.turn).pc
       ∧ (t.ctx s.turn).regs = (s.ctx s.turn).regs)
     ∧ (∀ w, (s.ctx s.turn).wfe = some w → w.seen ≠ 0 → WritesBreaking (.wfe d a) s d (w.seen.setWidth 64))
     ∧ (∀ w, (s.ctx s.turn).wfe = some w → w.seen = 0 → Waits (.wfe d a) s)
     ∧ ((s.ctx s.turn).ring.rank < 2 → Traps .halt s s.breaking { cause := 0x02 })
     ∧ (2 ≤ (s.ctx s.turn).ring.rank → ∃ t, exec .halt s = .next t ∧ (t.core s.turn).halted = true
       ∧ (t.ctx s.turn).pc = (s.ctx s.turn).pc + 4 ∧ (t.ctx s.turn).regs = (s.ctx s.turn).regs
           ∧ t.issues s.turn = false)
     ∧ ((s.ctx s.turn).ring = .u → Traps (.pdone d a) s s.breaking { cause := 0x02 })
     ∧ ((s.ctx s.turn).ring ≠ .u → (s.core s.turn).budget = none → WritesBreaking (.pdone d a) s d 1)
     ∧ (∀ n, (s.ctx s.turn).ring = .d → (s.core s.turn).budget = some n →
       ∃ t, exec (.pdone d a) s = .next t ∧ (t.ctx s.turn).coop = true ∧ (t.ctx s.turn).pdone = (s.rs a).setWidth 3
         ∧ (t.core s.turn).running = false ∧ (t.core s.turn).budget = none
         ∧ (t.ctx s.turn).pdoneD = some d ∧ (∀ q, (t.ctx s.turn).rs q = (s.ctx s.turn).rs q)
         ∧ (t.ctx s.turn).pc = (s.ctx s.turn).pc + 4
         ∧ ((∀ k ∈ (s.teamOf s.turn).coreList, k = s.turn ∨ (s.memberCtx k (s.core s.turn).team).coop = true
             ∨ (s.memberCtx k (s.core s.turn).team).exited = true) → (t.team (s.core s.turn).team).swap = true)))
  ∧ ((∀ (s : State) (m : Master) (k : Nat) (v : Word), (s.mayWrite m (sliceOf k) = false →
      exec (.coreInterrupt ⟨m, k⟩ v) s = .next s)
       ∧ (s.mayWrite m (sliceOf k) = true → ∃ t, exec (.coreInterrupt ⟨m, k⟩ v) s = .next t ∧ (t.core k).intr = some v
       ∧ (t.ctx k).pc = (s.ctx k).pc ∧ (t.ctx k).regs = (s.ctx k).regs
       ∧ (∀ w, (s.ctx k).wfe = some w → (t.ctx k).wfe = some { w with seen := w.seen ||| 0b010000 })
       ∧ ∀ n, n ≠ k → t.core n = s.core n))
     ∧ (∀ (s u : State) (k : Nat), (s.core k).running = true → (s.core k).dead = false → s.boundaryTrap k = some u →
       (s.team (s.core k).team).consumed = false →
       ((s.ctx k).wfe = none → s.atSave k = false → exec (.takeTrap k) s = .next u)
       ∧ (s.atSave k = true → exec (.takeTrap k) s = .next s)
       ∧ ((s.ctx k).wfe ≠ none → exec (.takeTrap k) s = .next s))
     ∧ (∀ (s : State) (k : Nat) (w : Wfe), (s.ctx k).wfe = some w → w.limit ≠ 0 →
         ∃ t, exec (.wfeLimitExpiry k) s = .next t
       ∧ (t.ctx k).wfe = some { w with seen := w.seen ||| 0b100000 } ∧ (t.ctx k).pc = (s.ctx k).pc
       ∧ (t.ctx k).regs = (s.ctx k).regs)
     ∧ ∀ (s : State) (m : Master) (k : Nat), (s.core k).halted = true → (s.core k).reqWait = false →
       (s.mayWrite m (sliceOf k) = true →
         ∃ t, exec (.coreResume ⟨m, k⟩ 1) s = .next t ∧ t.core k = { s.core k with halted := false, reqWait := false }
           ∧ ∀ n, n ≠ k → t.core n = s.core n)
       ∧ (s.mayWrite m (sliceOf k) = false → exec (.coreResume ⟨m, k⟩ 1) s = .next s))

/-! ### Control and status registers -/

/-- R168, R169, R170: a CSR instruction of a ring that may access the register writes its old value to the
destination. CSRR, and CSRS and CSRC of s0, change no register. CSRW writes each writable field, CSRS sets and CSRC
clears the bits of a; in a field whose bits are cleared by a written one, CSRW and CSRC clear the bits of a and CSRS
none; every other bit keeps its value. In a lower ring the access takes RING_VIOLATION with the register's number and
does nothing. R29, R151, R171, R172, R337, R351, R396: a value written to a register reads back: the flags, the
generator, the gather tag, the trap registers of each ring, the pre-emption budget word of the VF; ctl.world keeps its
value while it is locked. -/
def Obligations.CsrInstructions : Prop :=
  (∀ (s : State) (d a : SReg) (c : Csr) (old v rw w1c : Word),
     old = s.breaking.csrRead c → v = s.rs a → (rw, w1c) = csrFields c →
     ((csrRing c).rank ≤ (s.ctx s.turn).ring.rank →
       WritesBreaking (.csrr d c) s d old
       ∧ (a = 0 → WritesBreaking (.csrs d a c) s d old ∧ WritesBreaking (.csrc d a c) s d old)
       ∧ (∃ t, exec (.csrw d a c) s = .next t ∧ (t.ctx s.turn).rs d = (if d = 0 then 0 else old)
         ∧ (t.ctx s.turn).pc = (s.ctx s.turn).pc + 4 ∧ (∀ q, q ≠ d → (t.ctx s.turn).rs q = (s.ctx s.turn).rs q)
         ∧ SameBytes s t
         ∧ ∃ u, t = ((s.breaking.csrWrite c u).onCtx s.turn (·.setS d old)).retireTo ((s.ctx s.turn).pc + 4)
               (s.ctx s.turn).ring (s.ctx s.turn).pc
             ∧ u &&& rw = v &&& rw ∧ u &&& w1c = old &&& ~~~v &&& w1c
             ∧ u &&& ~~~(rw ||| w1c) = old &&& ~~~(rw ||| w1c))
       ∧ (a ≠ 0 → ∃ t u, exec (.csrs d a c) s = .next t
         ∧ t = ((s.breaking.csrWrite c u).onCtx s.turn (·.setS d old)).retireTo ((s.ctx s.turn).pc + 4)
             (s.ctx s.turn).ring (s.ctx s.turn).pc
         ∧ u &&& rw = (old ||| v) &&& rw ∧ u &&& ~~~rw = old &&& ~~~rw)
       ∧ (a ≠ 0 → ∃ t u, exec (.csrc d a c) s = .next t
         ∧ t = ((s.breaking.csrWrite c u).onCtx s.turn (·.setS d old)).retireTo ((s.ctx s.turn).pc + 4)
             (s.ctx s.turn).ring (s.ctx s.turn).pc
         ∧ u = old &&& ~~~(v &&& (rw ||| w1c))))
     ∧ ((s.ctx s.turn).ring.rank < (csrRing c).rank →
       Traps (.csrr d c) s s.breaking { cause := 0x02, tval := BitVec.ofNat 64 c.number }
       ∧ Traps (.csrw d a c) s s.breaking { cause := 0x02, tval := BitVec.ofNat 64 c.number }
       ∧ Traps (.csrs d a c) s s.breaking { cause := 0x02, tval := BitVec.ofNat 64 c.number }
       ∧ Traps (.csrc d a c) s s.breaking { cause := 0x02, tval := BitVec.ofNat 64 c.number }))
  ∧ (∀ (s : State) (v : Word),
       ((s.csrWrite .fpflags v).csrRead .fpflags = v &&& 0x7F)
       ∧ (∀ c ∈ [Csr.rng, .gtag, .leaserun, .engfault, .dbgctl, .pbudget], (s.csrWrite c v).csrRead c = v)
       ∧ (∀ r t, (s.csrWrite (.trapReg r t) v).csrRead (.trapReg r t) = v
         ∧ (∀ r' t', (r', t') ≠ (r, t) →
             (s.csrWrite (.trapReg r t) v).csrRead (.trapReg r' t') = s.csrRead (.trapReg r' t')))
       ∧ (s.home.world.getLsbD 63 = true → (s.csrWrite .world v).csrRead .world = s.csrRead .world))

/-! ### Vector words -/

/-- R14, R15, R87, R119, R140, R148, R179: nothing stops a vector instruction with these sources and destination. Every
tag fits; every scratchpad element lies in the window, aligned to its width outside the grouped forms; no multicast store
is on its way to a byte that is read, nor one of the task where scratchpad is written; no granule that is read, or written
in part, and no register word that is read fails its ECC; each stream holds the elements that it is to give. `more` are
register words that are read besides the sources'. -/
def Sys2Proof.Machine.vecReady (s : State) (srcs : List VSrc) (dst : Option VDst) (more : List BadReg := []) : Prop :=
  (∀ v ∈ srcs, ∀ f, v.want = some f → (s.ctx s.turn).regs.checkSrc v.code v.o f = none)
  ∧ (∀ d, dst = some d → (s.ctx s.turn).regs.checkDst d.o d.tag = none)
  ∧ (∀ v ∈ srcs, ∀ u ∈ (s.ctx s.turn).spUses v.o (fmtBytes v.f) v.grp v.pos,
      rangeIn .localSp u.1 u.2 = true ∧ (v.grp = false → u.1 % u.2 = 0)
      ∧ s.mcastPending s.turn (spOff u.1) u.2 = false
      ∧ (s.cluster (clusterOf s.turn)).store.spBadIn (spOff u.1) u.2 = false)
  ∧ (∀ d, dst = some d → ∀ u ∈ (s.ctx s.turn).spUses d.o (fmtBytes d.f) d.grp d.pos d.top,
      rangeIn .localSp u.1 u.2 = true ∧ (d.grp = false → u.1 % u.2 = 0) ∧ s.mcastOut s.turn = false
      ∧ (u.2 < 8 → (s.cluster (clusterOf s.turn)).store.spBadIn (spOff u.1) u.2 = false))
  ∧ (s.ctx s.turn).regs.reads (srcs.flatMap (·.words (s.ctx s.turn)) ++ ((dst.map VDst.words).getD []) ++ more)
      (streamNeeds srcs) = false
  ∧ ∀ e ∈ streamNeeds srcs, s.streamStop s.turn e.1 e.2 = none

/-- R29, R178: the instruction answers a next state. It pops its streams, computes from what its sources hold, from the
flags and from the generator, writes by `fin`, and moves on by three parcels. -/
def Sys2Proof.Machine.VecDone {α : Type} (i : Instr) (s : State) (srcs : List VSrc)
    (comp : (Nat → Nat → Nat) → FEnv → α × FEnv) (fin : State → α → State) : Prop :=
  ∃ u popped r env, s.breaking.popAll s.turn srcs = (u, popped)
    ∧ comp (s.breaking.srcValue s.turn (s.breaking.ctx s.turn) srcs popped) ⟨(s.ctx s.turn).ctl.fpflags, (s.ctx s.turn).ctl.rng⟩
        = (r, env)
    ∧ exec i s = .next ((fin (u.setEnv s.turn env) r).retire 12)

/-- The frame of a vector instruction that writes elements: no scalar register, no mask, no byte of memory and nothing
of another core changes; of the control registers the flags, the generator and the count of retired instructions may. -/
def Sys2Proof.Machine.VecFrame (i : Instr) (s : State) : Prop :=
  ∃ t, exec i s = .next t ∧ t.home = s.home ∧ t.teams = s.teams ∧ (∀ k, k ≠ s.turn → t.core k = s.core k)
    ∧ (∀ q, (t.ctx s.turn).rs q = (s.ctx s.turn).rs q) ∧ (∀ n, (t.ctx s.turn).regs.mask n = (s.ctx s.turn).regs.mask n)
    ∧ (t.ctx s.turn).pc = (s.ctx s.turn).pc + 12 ∧ (t.ctx s.turn).ctl.retired = (s.ctx s.turn).ctl.retired + 1
    ∧ (t.ctx s.turn).ctl.d = (s.ctx s.turn).ctl.d ∧ (t.ctx s.turn).tl = (s.ctx s.turn).tl

/-- The element-wise arithmetic of R182 to R184 and VSCALE (R187): the instruction, the format that B is checked against
where it is a source, whether D is one, and the result of an element from the patterns of A, B and D. -/
def Sys2Proof.Machine.arithRows (w : VWord) :
    List (Instr × Option Fmt × Bool × (Nat → Nat → Nat → FEnv → Nat × FEnv)) :=
  let f := w.fmt
  let rm := Rm.ofCode w.rm
  let n := fmtBits f
  let v (x : Nat) : FVal := decodeF f x
  let z (x : Nat) : Int := intVal f x
  let int (r : Int) (env : FEnv) : Nat × FEnv := intRes f (w.flags.getLsbD 0) r env
  [(.vadd w, some f, false, fun a b _ env => addF f rm (v a) (v b) env),
    (.vsub w, some f, false, fun a b _ env => addF f rm (v a) (v b).neg env),
    (.vmul w, some f, false, fun a b _ env => mulF f rm (v a) (v b) env),
    (.vdiv w, some f, false, fun a b _ env => divF f rm (v a) (v b) env),
    (.vfma w, some f, true, fun a b d env => fmaF f rm (v a) (v b) (v d) env),
    (.vfms w, some f, true, fun a b d env => fmaF f rm (v a) (v b) (v d).neg env),
    (.vfnma w, some f, true, fun a b d env => fmaF f rm (v a).neg (v b) (v d) env),
    (.vfnms w, some f, true, fun a b d env => fmaF f rm (v a).neg (v b) (v d).neg env),
    (.vmax w, some f, false, fun a b _ env => (exactBits f ((v a).max (v b)), env)),
    (.vmin w, some f, false, fun a b _ env => (exactBits f ((v a).min (v b)), env)),
    (.vabs w, none, false, fun a _ _ env => (if v a = .nan then canonNan f else a % 2 ^ (n - 1), env)),
    (.vneg w, none, false, fun a _ _ env => (if v a = .nan then canonNan f
      else if 2 ^ (n - 1) ≤ a then a % 2 ^ (n - 1) else a % 2 ^ (n - 1) + 2 ^ (n - 1), env)),
    (.vsqrt w, none, false, fun a _ _ env => sqrtF f rm (v a) env),
    (.vcpsgn w, some f, false, fun a b _ env => (if v a = .nan then canonNan f
      else a % 2 ^ (n - 1) + (if 2 ^ (n - 1) ≤ b then 2 ^ (n - 1) else 0), env)),
    (.vexp2 w, none, false, fun a _ _ env => transc .exp2 f a env),
    (.vlog2 w, none, false, fun a _ _ env => transc .log2 f a env),
    (.vrcp w, none, false, fun a _ _ env => transc .rcp f a env),
    (.vrsq w, none, false, fun a _ _ env => transc .rsq f a env),
    (.vsigm w, none, false, fun a _ _ env => transc .sigm f a env),
    (.vtanh w, none, false, fun a _ _ env => transc .tanh f a env),
    (.viadd w, some f, false, fun a b _ env => int (z a + z b) env),
    (.visub w, some f, false, fun a b _ env => int (z a - z b) env),
    (.vimul w, some f, false, fun a b _ env => int (z a * z b) env),
    (.vimulh w, some f, false, fun a b _ env => int (z a * z b / (2 ^ n : Nat)) env),
    (.vimin w, some f, false, fun a b _ env => int (min (z a) (z b)) env),
    (.vimax w, some f, false, fun a b _ env => int (max (z a) (z b)) env),
    (.viminu w, some f, false, fun a b _ env => int (min a b : Nat) env),
    (.vimaxu w, some f, false, fun a b _ env => int (max a b : Nat) env),
    (.vand w, some f, false, fun a b _ env => int (a &&& b : Nat) env),
    (.vor w, some f, false, fun a b _ env => int (a ||| b : Nat) env),
    (.vxor w, some f, false, fun a b _ env => int (a ^^^ b : Nat) env),
    (.vshl w, some f, false, fun a b _ env => int (z a * (2 ^ (b % n) : Nat)) env),
    (.vshr w, some f, false, fun a b _ env => int (a / 2 ^ (b % n) : Nat) env),
    (.vsra w, some f, false, fun a b _ env => int (z a / (2 ^ (b % n) : Nat)) env),
    (.viabs w, none, false, fun a _ _ env => int ((z a).natAbs : Int) env),
    (.vscale w, some .e8, false, fun a b _ env => scaleInto f rm (v a) b env)]

/-- The sources of such a word. -/
def Sys2Proof.Machine.arithSrcs (s : State) (w : VWord) (b : Option Fmt) (useD : Bool) : List VSrc :=
  let act := (s.ctx s.turn).regs.actives w.k (elemCount w.fmt)
  [⟨1, w.a, some w.fmt, w.fmt, .raw, act, false⟩]
    ++ (match b with
      | some f => [⟨2, w.b, some f, f, .raw, act, false⟩]
      | none => [])
    ++ (if useD then [⟨0, w.d, some w.fmt, w.fmt, .raw, act, false⟩] else [])

/-- R176, R178, R180 to R184, R187: every element-wise arithmetic word, with operands of any kind that nothing stops,
writes to each active element of D the result of that element of its sources, in ascending order, in the word's
format, and changes neither a scalar register, a mask nor memory. What the arithmetic functions answer is
RoundingIntoFormats' and ArithmeticRoundsOnce's. R184: VIADD of two INT8 registers. Without flags[22] an active
element is the sum modulo 2^8; with it, the sum is clamped to −128 … 127 and SAT is set where some active element was
clamped. No other flag changes, the inactive lanes keep their bits, and D takes the tag INT8. R17, R29, R30, R178,
R184, R187: what the element-wise words compute with, from the rules: the integer of a pattern; an integer result
modulo 2^(8w), or clamped with SAT; a value times 2^(e − 127) before it is rounded; the elements in ascending order,
each after the one before. -/
def Obligations.VectorArithmetic : Prop :=
  (∀ (s : State) (w : VWord) (e : Instr × Option Fmt × Bool × (Nat → Nat → Nat → FEnv → Nat × FEnv)) (dst : VDst),
     e ∈ arithRows w →
     dst = ⟨w.d, w.fmt, w.fmt, (s.ctx s.turn).regs.actives w.k (elemCount w.fmt), false, 128⟩ →
     vecReady s (arithSrcs s w e.2.1 e.2.2.1) (some dst) →
     VecDone e.1 s (arithSrcs s w e.2.1 e.2.2.1)
       (fun v env => mapElems (fun i => e.2.2.2 (v 0 i) (v 1 i) (v 2 i)) dst.pos env)
       (fun s vals => s.writeElems s.turn dst vals)
     ∧ VecFrame e.1 s)
  ∧ (∀ (s : State) (w : VWord) (d a b : BitVec 5), w.fmt = .int8 → w.d = .v d → w.a = .v a → w.b = .v b →
       (s.ctx s.turn).regs.vTag a.toNat = .int8 → (s.ctx s.turn).regs.vTag b.toNat = .int8 →
           (s.ctx s.turn).regs.bad = [] →
       ∃ (t : State) (x y : Nat → BitVec 8), exec (.viadd w) s = .next t
         ∧ (∀ i, (x i).toNat = (s.ctx s.turn).regs.vElem a.toNat .int8 i
             ∧ (y i).toNat = (s.ctx s.turn).regs.vElem b.toNat .int8 i)
         ∧ (∀ i, i < 128 → ((s.ctx s.turn).regs.mask w.k.toNat).getLsbD i = true →
             (w.flags.getLsbD 0 = false → (t.ctx s.turn).regs.vElem d.toNat .int8 i = (x i + y i).toNat)
             ∧ (w.flags.getLsbD 0 = true → (t.ctx s.turn).regs.vElem d.toNat .int8 i
                 = (BitVec.ofInt 8 (max (-128) (min 127 ((x i).toInt + (y i).toInt)))).toNat))
         ∧ (∀ i, i < 128 → ((s.ctx s.turn).regs.mask w.k.toNat).getLsbD i = false →
             (t.ctx s.turn).regs.lane d.toNat i = (s.ctx s.turn).regs.lane d.toNat i)
         ∧ ((t.ctx s.turn).ctl.fpflags.getLsbD 5 = true ↔ ((s.ctx s.turn).ctl.fpflags.getLsbD 5 = true
             ∨ (w.flags.getLsbD 0 = true ∧ ∃ i, i < 128 ∧ ((s.ctx s.turn).regs.mask w.k.toNat).getLsbD i = true
               ∧ ((x i).toInt + (y i).toInt < -128 ∨ 127 < (x i).toInt + (y i).toInt))))
         ∧ (∀ n, n ≠ 5 → (t.ctx s.turn).ctl.fpflags.getLsbD n = (s.ctx s.turn).ctl.fpflags.getLsbD n)
         ∧ (t.ctx s.turn).regs.vTag d.toNat = .int8)
  ∧ ((∀ (f : Fmt) (x : Nat), f ∈ [Fmt.int8, .uint8, .int16, .int32] → patNum f x = some (intVal f x : ℚ))
     ∧ (∀ (f : Fmt) (sat : Bool) (r : Int) (env : FEnv), f ∈ [Fmt.int8, .uint8, .int16, .int32] →
       ((sat = false ∨ Holds f r) → intRes f sat r env = ((r % (2 ^ fmtBits f : Nat)).toNat, env))
       ∧ ∀ (x : Nat) (y : ℚ), sat = true → ¬ Holds f r → x < 2 ^ fmtBits f → patNum f x = some y →
         (∀ z, Holds f z → if r < 0 then y ≤ z else z ≤ y) → intRes f sat r env = (x, env.raise 0b0100000))
     ∧ (∀ (f : Fmt) (rm : Rm) (v : FVal) (e : Nat) (env : FEnv), e % 256 ≠ 255 →
       ∃ u, scaleInto f rm v e env = encodeF f rm false u env
           ∧ valNum u = (valNum v).map (· * 2 ^ ((e % 256 : Nat) - 127 : ℤ))
         ∧ ((v = .nan ∨ v = .inf true ∨ v = .inf false) → u = v))
     ∧ (∀ (f : Fmt) (rm : Rm) (v : FVal) (e : Nat) (env : FEnv), e % 256 = 255 → f ∈ arithFormats →
       (scaleInto f rm v e env).1 = (encodeF f rm false .nan env).1 ∧ (scaleInto f rm v e env).2.flags = env.flags)
     ∧ ∀ (g : Nat → FEnv → Nat × FEnv) (i : Nat) (l : List Nat) (env : FEnv),
       mapElems g [] env = ([], env)
       ∧ mapElems g (i :: l) env = ((i, (g i env).1) :: (mapElems g l (g i env).2).1, (mapElems g l (g i env).2).2))

/-- R136, R137, R140, R176: writing elements of a vector register leaves each at its place, keeps the unwritten ones
and every other register, and sets the register's tag; writing to a tile changes no other tile; writing to scratchpad
changes no byte outside the elements. -/
def Obligations.VectorElementsWritten : Prop :=
  ∀ (s : State) (k : Nat) (d : VDst) (vals : List (Nat × Nat)),
    (vals.map (·.1)).Nodup → (∀ e ∈ vals, e.1 < elemCount d.f) → (∀ e ∈ vals, e.1 < elemCount d.tag) →
    Map.wf 0#8 (s.ctx k).regs.m = true →
    (∀ n, d.o = .v n →
      (∀ e ∈ vals, ((s.writeElems k d vals).ctx k).regs.vElem n.toNat d.f e.1 = e.2 % 2 ^ fmtBits d.f)
      ∧ (∀ i, i < elemCount d.f → i ∉ vals.map (·.1) →
          ((s.writeElems k d vals).ctx k).regs.vElem n.toNat d.f i = (s.ctx k).regs.vElem n.toNat d.f i)
      ∧ (∀ m i, m ≠ n.toNat → i < 128 → ((s.writeElems k d vals).ctx k).regs.lane m i = (s.ctx k).regs.lane m i)
      ∧ ((s.writeElems k d vals).ctx k).regs.vTag n.toNat = d.tag
      ∧ (∀ m, m ≠ n.toNat → ((s.writeElems k d vals).ctx k).regs.vTag m = (s.ctx k).regs.vTag m)
      ∧ SameBytes s (s.writeElems k d vals))
    ∧ (∀ m t ix, tileForm d.o = some (m, t, ix) →
      (∀ a, (a < m * 32768 ∨ (m + 1) * 32768 ≤ a) →
          ((s.writeElems k d vals).ctx k).regs.m.get a = (s.ctx k).regs.m.get a)
      ∧ (∀ n, n ≠ m → ((s.writeElems k d vals).ctx k).regs.mTag n = (s.ctx k).regs.mTag n)
      ∧ (d.tag ≠ .e8 → ((s.writeElems k d vals).ctx k).regs.mTag m = d.tag)
      ∧ ((s.writeElems k d vals).ctx k).regs.v = (s.ctx k).regs.v ∧ SameBytes s (s.writeElems k d vals))
    ∧ ∀ base stride, d.o = .sp base stride →
      (∀ a, (∀ e ∈ vals, a < spOff ((s.ctx k).spAddr base stride (fmtBytes d.f) d.grp e.1)
          ∨ spOff ((s.ctx k).spAddr base stride (fmtBytes d.f) d.grp e.1) + fmtBytes d.f ≤ a) →
        ((s.writeElems k d vals).cluster (clusterOf k)).store.spGet a 1 = (s.cluster (clusterOf k)).store.spGet a 1)
      ∧ (s.writeElems k d vals).cores = s.cores ∧ (s.writeElems k d vals).home = s.home

/-! ### Conversions, masks, reductions and moves -/

/-- The words that classify, count or make elements, and VIDOT4 (R185, R191, R194, R196): the instruction, its sources,
its destination, and the elements it writes. -/
def Sys2Proof.Machine.convRows (s : State) (w : VWord) :
    List (Instr × List VSrc × VDst × ((Nat → Nat → Nat) → FEnv → List (Nat × Nat) × FEnv)) :=
  let r := (s.ctx s.turn).regs
  let f := w.fmt
  let act := r.actives w.k (elemCount f)
  let all := r.actives w.k 128
  let outs := r.actives w.k 32
  let ins := outs.flatMap (fun j => [4 * j, 4 * j + 1, 4 * j + 2, 4 * j + 3])
  let fb : Fmt := if w.flags.getLsbD 0 then (if f = .int8 then .uint8 else .int8) else f
  let zeros := (List.range (128 - elemCount f)).map (· + elemCount f)
  [(.vidot4 w, [⟨1, w.a, some f, f, .raw, ins, false⟩, ⟨2, w.b, some fb, fb, .raw, ins, false⟩,
        ⟨0, w.d, some .int32, .int32, .raw, outs, false⟩], ⟨w.d, .int32, .int32, outs, false, 128⟩,
      fun v env => (outs.map (fun j => (j, intBits .int32 (intVal .int32 (v 2 j)
        + intVal f (v 0 (4 * j)) * intVal fb (v 1 (4 * j)) + intVal f (v 0 (4 * j + 1)) * intVal fb (v 1 (4 * j + 1))
        + intVal f (v 0 (4 * j + 2)) * intVal fb (v 1 (4 * j + 2))
        + intVal f (v 0 (4 * j + 3)) * intVal fb (v 1 (4 * j + 3))))), env)),
    (.vclass w, [⟨1, w.a, some f, f, .raw, act, false⟩], ⟨w.d, .int32, .int32, act ++ zeros, false, 128⟩,
      fun v env => (act.map (fun i => (i, 2 ^ classOf f (decodeF f (v 0 i)))) ++ zeros.map (fun i => (i, 0)), env)),
    (.viota w, [], ⟨w.d, f, f, act, false, 128⟩, fun _ env => (act.map (fun i => (i, exactBits f (FVal.ofNat i))), env)),
    (.kpop w, [], ⟨w.d, .int32, .int32, all, false, 128⟩,
      fun _ env => (all.map (fun i => (i, ((List.range 128).filter (fun j => (r.mask (maskNo w.a)).getLsbD j)).length)), env))]

/-- R16, R27, R28, R176, R185 to R187, R189 to R191, R194, R196: VCVT converts each active element of its source
format (A's tag, or what flags names for an untagged A) and zeroes the elements from its count up, and passes the bits
where one side is RAW, whole lanes between vector registers; VIDOT4 adds four products; VCLASS writes a one-hot class;
VIOTA the element's number; KPOP the number of ones. VQBLK quantises block by block and puts the scales where its
destination's kind says; VDQBLK scales each element by its block's. Values are decoded and encoded as
RoundingIntoFormats says; what becomes of zeroed positions past the last element is log entry 27. R189: the scale of a
block: 0xFF where an active element is not finite, 127 where all are zero, else Floor(Log2 max) − Emax + 127 clamped
to 0 … 254; with emax the exponent of the largest magnitude. R191: the classes. R34: the reduction tree of 2^(n+1)
lanes combines the trees of its two halves, an absent one passing the other on; of no taking-part lane it is empty, of
one that lane, and of two their combination. -/
def Obligations.VectorConversions : Prop :=
  ((∀ (s : State) (w : VWord) (e : Instr × List VSrc × VDst × ((Nat → Nat → Nat) → FEnv → List (Nat × Nat) × FEnv)),
     e ∈ convRows s w → vecReady s e.2.1 (some e.2.2.1) →
     VecDone e.1 s e.2.1 e.2.2.2 (fun s vals => s.writeElems s.turn e.2.2.1 vals) ∧ VecFrame e.1 s)
   ∧ (∀ (s : State) (w : VWord) (src : Fmt) (n cap : Nat) (act tail : List Nat) (a : VSrc) (d : VDst),
     src = (s.ctx s.turn).regs.sourceFmt w → src ≠ .raw → w.fmt ≠ .raw →
     n = (if src = .fp64 ∨ w.fmt = .fp64 then 64 else 128) → cap = (if w.fmt = .fp64 then 64 else 128) →
     act = (s.ctx s.turn).regs.actives w.k n → tail = (List.range (cap - n)).map (· + n) →
     a = ⟨1, w.a, none, src, w.fmt, act, false⟩ → d = ⟨w.d, w.fmt, w.fmt, act ++ tail, false, 128⟩ →
         vecReady s [a] (some d) →
     VecDone (.vcvt w) s [a]
       (fun v env => mapElems (fun i => encodeF w.fmt (Rm.ofCode w.rm) (isInt src) (decodeF src (v 0 i))) act env)
       (fun s vals => s.writeElems s.turn d (vals ++ tail.map (fun i => (i, 0))))
     ∧ VecFrame (.vcvt w) s)
   ∧ (∀ (s : State) (w : VWord) (src f g : Fmt) (n cap : Nat) (act tail : List Nat) (a : VSrc) (d : VDst),
     src = (s.ctx s.turn).regs.sourceFmt w → (src = .raw ∨ w.fmt = .raw) →
     n = (if src = .fp64 ∨ w.fmt = .fp64 then 64 else 128) → cap = n →
     f = (if n = 64 then .fp64 else if w.a.kind = .v ∧ w.d.kind = .v then .raw else src) →
     g = (if n = 64 then .fp64 else if w.a.kind = .v ∧ w.d.kind = .v then .raw else w.fmt) →
     act = (s.ctx s.turn).regs.actives w.k n → tail = (List.range (cap - n)).map (· + n) →
     a = ⟨1, w.a, none, f, w.fmt, act, false⟩ → d = ⟨w.d, g, w.fmt, act ++ tail, false, 128⟩ → vecReady s [a] (some d) →
     VecDone (.vcvt w) s [a] (fun v env => (act.map (fun i => (i, v 0 i)), env)) (fun s vals => s.writeElems s.turn d vals)
     ∧ VecFrame (.vcvt w) s)
   ∧ (∀ (s : State) (w : VWord) (src f : Fmt) (act tail : List Nat) (a : VSrc) (d : VDst),
     src = (s.ctx s.turn).regs.sourceFmt w → f = (if src = .raw ∧ w.d.kind = .v then .raw else w.fmt) →
         act = (s.ctx s.turn).regs.actives w.k (elemCount src) →
     tail = (List.range (128 - elemCount src)).map (· + elemCount src) → a = ⟨1, w.a, none, src, w.fmt, act, false⟩ →
     d = ⟨w.d, f, w.fmt, act ++ tail, w.d.kind == .p, elemCount src⟩ → vecReady s [a] (some d) →
     VecDone (.vqblk w) s [a]
       (fun v env => quantAll src w.fmt (Rm.ofCode w.rm) (v 0) act (List.range (elemCount src / 32)) env)
       (fun s r => (s.writeElems s.turn d (r.1 ++ tail.map (fun i => (i, 0)))).putScales s.turn w r.2)
     ∧ VecFrame (.vqblk w) s)
   ∧ ∀ (s : State) (w : VWord) (act : List Nat) (a : VSrc) (scales : List VSrc) (d : VDst),
     act = (s.ctx s.turn).regs.actives w.k 128 → a = ⟨1, w.a, some w.fmt, w.fmt, .raw, act, w.a.kind == .p⟩ →
     scales = (match w.a, w.b with
       | .v _, .v _ => [⟨2, w.b, some .e8, .e8, .raw, [], false⟩]
       | _, _ => []) →
     d = ⟨w.d, .fp32, .fp32, act, false, 128⟩ → vecReady s (a :: scales) (some d) (dqWords (s.ctx s.turn) w act) →
     VecDone (.vdqblk w) s (a :: scales)
       (fun v env => mapElems (fun i => scaleInto .fp32 (Rm.ofCode w.rm) (decodeF w.fmt (v 0 i))
         (s.dqScale s.turn (s.ctx s.turn) w (i / 32))) act env)
       (fun s vals => s.writeElems s.turn d vals)
     ∧ VecFrame (.vdqblk w) s)
  ∧ ((∀ (t : Fmt) (vs : List FVal), (∃ v ∈ vs, v.isFin = false) → blockScale t vs = 255)
     ∧ (∀ (t : Fmt) (vs : List FVal), (∀ v ∈ vs, v.isFin = true ∧ v.lead = none) → blockScale t vs = 127)
     ∧ (∀ (t : Fmt) (vs : List FVal) (l : Int), (∀ v ∈ vs, v.isFin = true) → (∃ v ∈ vs, v.lead = some l) →
         (∀ v ∈ vs, ∀ k, v.lead = some k → k ≤ l) →
         blockScale t vs = (max 0 (min 254 (l - emaxOf t + 127))).toNat)
     ∧ (∀ (f : Fmt) (e w b x : Nat) (env : FEnv), floatFields f = some (e, w, b) → x < 2 ^ fmtBits f →
         classOf f (decodeF f x) =
           (let neg := patSign f x
           if x / 2 ^ w % 2 ^ e = 2 ^ e - 1 ∧ f ∈ infFormats then (if x % 2 ^ w = 0 then (if neg then 0 else 7) else 8)
           else if f = .e4m3 ∧ x % 128 = 127 then 8
           else if x / 2 ^ w % 2 ^ e ≠ 0 then (if neg then 1 else 6)
           else if x % 2 ^ w ≠ 0 then (if neg then 2 else 5)
           else if neg then 3 else 4))
     ∧ (∀ (g : Nat → Nat → Nat) (n : Nat) (l r : List (Option Nat)) (env : FEnv), l.length = 2 ^ n → r.length = 2 ^ n →
         treeOf (fun a b env => (g a b, env)) (n + 1) (l ++ r) env
           = (match (treeOf (fun a b env => (g a b, env)) n l env).1, (treeOf (fun a b env => (g a b, env)) n r env).1 with
             | some a, some b => some (g a b)
             | some a, none => some a
             | none, x => x, env))
     ∧ (∀ (f : Nat → Nat → FEnv → Nat × FEnv) (lanes : List (Option Nat)) (env : FEnv), lanes.length ≤ 128 →
         (∀ x ∈ lanes, x = none) → treeOf f 7 lanes env = (none, env))
     ∧ (∀ (f : Nat → Nat → FEnv → Nat × FEnv) (lanes : List (Option Nat)) (env : FEnv) (i a : Nat), lanes.length ≤ 128 →
         lanes[i]? = some (some a) → (∀ j, j ≠ i → lanes[j]?.join = none) → treeOf f 7 lanes env = (some a, env))
     ∧ (∀ (f : Nat → Nat → FEnv →
         Nat × FEnv) (lanes : List (Option Nat)) (env : FEnv) (i j a b : Nat), lanes.length ≤ 128 →
         i < j → lanes[i]? = some (some a) → lanes[j]? = some (some b) → (∀ k, k ≠ i → k ≠ j → lanes[k]?.join = none) →
         treeOf f 7 lanes env = (some (f a b env).1, (f a b env).2)))

/-- The mask instructions of R194 with the mask they write. -/
def Sys2Proof.Machine.maskRows (s : State) (w : VWord) : List (Instr × BitVec 128) :=
  let k (o : Operand) : BitVec 128 := (s.ctx s.turn).regs.mask (maskNo o)
  [(.kand w, k w.a &&& k w.b), (.kor w, k w.a ||| k w.b), (.kxor w, k w.a ^^^ k w.b), (.knot w, ~~~k w.a),
    (.kmov w, match w.a with
      | .s n => (s.rs (sregAdd n 1)) ++ (s.rs n)
      | o => k o)]

/-- R14, R192, R194: VCMP puts the condition of each active element into its mask and 0 into every other bit,
comparing the numbers of the patterns, a NaN being ordered with none; the mask instructions write their result. No
other mask, no vector register, no flag and no byte changes. -/
def Obligations.ComparesAndMasks : Prop :=
  (∀ (s : State) (w : VWord) (d : BitVec 3) (e : Instr × BitVec 128), w.d = .k d → d ≠ 0 → e ∈ maskRows s w →
    ∃ t, exec e.1 s = .next t ∧ (t.ctx s.turn).regs.mask d.toNat = e.2
      ∧ (∀ n, n ≠ d.toNat → (t.ctx s.turn).regs.mask n = (s.ctx s.turn).regs.mask n)
      ∧ (t.ctx s.turn).regs.v = (s.ctx s.turn).regs.v ∧ (∀ q, (t.ctx s.turn).rs q = (s.ctx s.turn).rs q)
      ∧ (t.ctx s.turn).ctl.fpflags = (s.ctx s.turn).ctl.fpflags ∧ (t.ctx s.turn).pc = (s.ctx s.turn).pc + 12
      ∧ SameBytes s t)
  ∧ (∀ (f : Fmt) (c : BitVec 3) (p q : Nat), f ≠ .raw → p < 2 ^ fmtBits f → q < 2 ^ fmtBits f →
    (∀ a b, patNum f p = some a → patNum f q = some b → condHolds c (decodeF f p) (decodeF f q)
      = [decide (a = b), decide (a ≠ b), decide (a < b), decide (a ≤ b), decide (b < a), decide (b ≤ a), false, true].getD
        c.toNat false)
    ∧ ((decodeF f p = .nan ∨ decodeF f q = .nan) → condHolds c (decodeF f p) (decodeF f q) = (c == 1 || c == 6)))
  ∧ ∀ (s : State) (w : VWord) (d : BitVec 3) (act : List Nat) (a b : VSrc), w.d = .k d → d ≠ 0 →
    act = (s.ctx s.turn).regs.actives w.k (elemCount w.fmt) → a = ⟨1, w.a, some w.fmt, w.fmt, .raw, act, false⟩ →
    b = ⟨2, w.b, some w.fmt, w.fmt, .raw, act, false⟩ → vecReady s [a, b] none →
    ∃ t u popped v, s.breaking.popAll s.turn [a, b] = (u, popped)
      ∧ v = s.breaking.srcValue s.turn (s.breaking.ctx s.turn) [a, b] popped
      ∧ exec (.vcmp w) s = .next t
      ∧ (∀ i, i < 128 → ((t.ctx s.turn).regs.mask d.toNat).getLsbD i
          = (decide (i ∈ act) && condHolds w.rm (decodeF w.fmt (v 0 i)) (decodeF w.fmt (v 1 i))))
      ∧ (∀ n, n ≠ d.toNat → (t.ctx s.turn).regs.mask n = (s.ctx s.turn).regs.mask n)
      ∧ (t.ctx s.turn).regs.v = (s.ctx s.turn).regs.v ∧ (∀ q, (t.ctx s.turn).rs q = (s.ctx s.turn).rs q)
      ∧ (t.ctx s.turn).ctl.fpflags = (s.ctx s.turn).ctl.fpflags ∧ (t.ctx s.turn).pc = (s.ctx s.turn).pc + 12
      ∧ SameBytes s t

/-- The instructions of R193 and R196 that move elements: whether B is a source, and for each written element its
position, source (0 A, 1 B) and the position there. -/
def Sys2Proof.Machine.moveRows (s : State) (w : VWord) (sc : SReg) (ix : BitVec 5) : List (Instr × Bool × Operand × Plan) :=
  let n := elemCount w.fmt
  let act := (s.ctx s.turn).regs.actives w.k n
  let b := s.rs sc
  let h := w.flags.toNat % 2
  let count (i : Nat) : Nat := (act.filter (fun j => decide (j < i))).length
  [(.vsel w, true, w.b, (List.range n).map (fun i => (i, if act.contains i then 0 else 1, i))),
    (.vmov w, false, w.b, act.map (fun i => (i, 0, i))),
    (.vbcast w, false, .s sc, act.map (fun i => (i, 0, b.toNat % n))),
    (.vperm w, false, .v ix, act.map (fun i => (i, 0, ((s.ctx s.turn).regs.lane ix.toNat i).toNat % n))),
    (.vrot w, false, .s sc, act.map (fun i => (i, 0, (i + b.toNat) % n))),
    (.vcomp w, false, w.b, act.map (fun i => (count i, 0, i))),
    (.vexpd w, false, w.b, act.map (fun i => (i, 0, count i))),
    (.vzip w, true, w.b, act.map (fun i => (i, i % 2, h * (n / 2) + i / 2))),
    (.vuzp w, true, w.b, act.map (fun i => if i < n / 2 then (i, 0, 2 * i + h) else (i, 1, 2 * (i - n / 2) + h)))]

/-- R14, R193, R196: an instruction that moves elements reads of each source only the elements it moves, and writes
each where its table says; under RAW no tag is checked and the destination takes the tag of the first register source.
-/
def Obligations.ElementMoves : Prop :=
  ∀ (s : State) (w : VWord) (sc : SReg) (ix : BitVec 5) (e : Instr × Bool × Operand × Plan) (want : Option Fmt)
    (srcs : List VSrc) (d : VDst), e ∈ moveRows s w sc ix → w.b = e.2.2.1 →
    want = (if w.fmt = .raw then none else some w.fmt) →
    srcs = ⟨1, w.a, want, w.fmt, .raw, e.2.2.2.reads 0 (elemCount w.fmt), false⟩ ::
      (if e.2.1 then [⟨2, w.b, want, w.fmt, .raw, e.2.2.2.reads 1 (elemCount w.fmt), false⟩] else []) →
    d = ⟨w.d, w.fmt, if w.fmt = .raw then (((s.ctx s.turn).regs.tagOf w.a).or
      (if e.2.1 then (s.ctx s.turn).regs.tagOf w.b else none)).getD .raw else w.fmt, e.2.2.2.map (·.1), false, 128⟩ →
    vecReady s srcs (some d) →
    VecDone e.1 s srcs (fun v env => (e.2.2.2.map (fun m => (m.1, v m.2.1 m.2.2)), env))
      (fun s vals => s.writeElems s.turn d vals)
    ∧ VecFrame e.1 s

/-- The reductions of R195: the destination's format, what is done to an element first, the combination of two, and the
result where no lane takes part. -/
def Sys2Proof.Machine.reduceRows (w : VWord) :
    List (Instr × Fmt × (Nat → Nat) × (Nat → Nat → FEnv → Nat × FEnv) × Nat) :=
  let f := w.fmt
  let v (x : Nat) : FVal := decodeF f x
  [(.vrsum w, f, fun a => a, fun a b env => addF f (Rm.ofCode w.rm) (v a) (v b) env, 0),
    (.vrmax w, f, fun a => a, fun a b env => (exactBits f ((v a).max (v b)), env), exactBits f (.inf true)),
    (.vrmin w, f, fun a => a, fun a b env => (exactBits f ((v a).min (v b)), env), exactBits f (.inf false)),
    (.vramax w, f, fun a => a % 2 ^ (fmtBits f - 1), fun a b env => (exactBits f ((v a).max (v b)), env), 0),
    (.vriadd w, .int32, fun a => (BitVec.ofInt 32 (intVal f a)).toNat, fun a b env => ((a + b) % 2 ^ 32, env), 0)]

/-- R34, R140, R188, R195: a reduction combines the active elements through the tree and writes the result to every
element of D, whatever the mask; a NaN result is the canonical one; VRSUM's sums are ArithmeticRoundsOnce's. VTAG sets
the tag of a vector register, or of a tile where no layout is lost; between two different geometries it takes
FORMAT_MISMATCH. R148: a tile's old tag that fails its ECC is consumed, and the tag stays. -/
def Obligations.ReductionsAndTags : Prop :=
  (∀ (s : State) (w : VWord) (e : Instr × Fmt × (Nat → Nat) × (Nat → Nat → FEnv → Nat × FEnv) × Nat) (act : List Nat)
    (a : VSrc) (d : VDst), e ∈ reduceRows w → act = (s.ctx s.turn).regs.actives w.k (elemCount w.fmt) →
    a = ⟨1, w.a, some w.fmt, w.fmt, .raw, act, false⟩ →
        d = ⟨w.d, e.2.1, e.2.1, List.range (elemCount w.fmt), false, 128⟩ →
    vecReady s [a] (some d) →
    VecDone e.1 s [a]
      (fun v env => treeOf e.2.2.2.1 7
        ((List.range (elemCount w.fmt)).map (fun i => if act.contains i then some (e.2.2.1 (v 0 i)) else none)) env)
      (fun s r => s.writeElems s.turn d ((List.range (elemCount w.fmt)).map (fun i =>
        (i, if e.2.1 = w.fmt ∧ isInt w.fmt = false ∧ decodeF w.fmt (r.getD e.2.2.2.2) = .nan then canonNan w.fmt
          else r.getD e.2.2.2.2))))
    ∧ VecFrame e.1 s)
  ∧ (∀ (s : State) (w : VWord) (n : BitVec 5), w.d = .v n → ∃ t, exec (.vtag w) s = .next t
      ∧ (t.ctx s.turn).regs.vTag n.toNat = w.fmt
      ∧ (∀ m, m ≠ n.toNat → (t.ctx s.turn).regs.vTag m = (s.ctx s.turn).regs.vTag m)
      ∧ (t.ctx s.turn).regs.v = (s.ctx s.turn).regs.v ∧ (t.ctx s.turn).pc = (s.ctx s.turn).pc + 12 ∧ SameBytes s t)
  ∧ ∀ (s : State) (w : VWord) (m : Nat) (f : TForm) (ix : SReg) (old : Fmt), tileForm w.d = some (m, f, ix) →
    old = (s.ctx s.turn).regs.mTag m →
    (.m m 0 ∈ (s.ctx s.turn).regs.bad → exec (.vtag w) s = .next ((s.breaking.consumeLocal s.turn 0).retire 12))
    ∧ (.m m 0 ∉ (s.ctx s.turn).regs.bad → (old = .raw ∨ w.fmt = .raw ∨ layoutOf old = layoutOf w.fmt) →
        ∃ t, exec (.vtag w) s = .next t
      ∧ (t.ctx s.turn).regs.mTag m = w.fmt
      ∧ (∀ n, n ≠ m → (t.ctx s.turn).regs.mTag n = (s.ctx s.turn).regs.mTag n)
      ∧ (t.ctx s.turn).regs.m = (s.ctx s.turn).regs.m ∧ (t.ctx s.turn).regs.side = (s.ctx s.turn).regs.side
      ∧ (t.ctx s.turn).pc = (s.ctx s.turn).pc + 12 ∧ SameBytes s t)
    ∧ (.m m 0 ∉ (s.ctx s.turn).regs.bad → old ≠ .raw → w.fmt ≠ .raw → layoutOf old ≠ layoutOf w.fmt →
      Traps (.vtag w) s s.breaking { cause := 0x03, tval := BitVec.ofNat 64 (w.fmt.code.toNat + 16 * old.code.toNat) })

/-! ### Vector memory -/

/-- The address of element `i` of VLD and VST: base plus a signed byte stride, 0 meaning the element width (R197). -/
def Sys2Proof.Machine.stridedAddr (s : State) (a : SReg) (w i : Nat) : Nat :=
  (s.rs a + BitVec.ofNat 64 i * (if s.rs (sregAdd a 1) = 0 then BitVec.ofNat 64 w else s.rs (sregAdd a 1))).toNat

/-- The address of element `i` of VLDX and VSTX: base plus a signed 32-bit index times the element width (R197). -/
def Sys2Proof.Machine.indexedAddr (s : State) (a : SReg) (n : BitVec 5) (w i : Nat) : Nat :=
  (s.rs a + ((s.ctx s.turn).regs.lane n.toNat i).signExtend 64 * BitVec.ofNat 64 w).toNat

/-- The elements before the first for which a property fails. -/
def Sys2Proof.Machine.firstFailing (p : Nat → Prop) (act : List Nat) (e : Nat) : Prop :=
  ∃ pre post, act = pre ++ e :: post ∧ (∀ f ∈ pre, p f) ∧ ¬ p e

/-- R198, steps 1 to 3, in their order: the first active element, ascending, that lies in no space the word may reach takes
ADDRESS_FAULT; else the first that is not aligned to its width takes MISALIGNED; else the first in another space than the
first element takes ADDRESS_FAULT; each with its address, and nothing is accessed. -/
def Sys2Proof.Machine.vecTraps (i : Instr) (s : State) (act : List Nat) (at_ : Nat → Nat) (w : Nat) (reach : Nat →
    Prop) :
    Prop :=
  (∀ e, firstFailing reach act e → Traps i s s.breaking { cause := 0x04, tval := BitVec.ofNat 64 (at_ e) })
  ∧ (∀ e, (∀ f ∈ act, reach f) → firstFailing (fun f => at_ f % w = 0) act e →
      Traps i s s.breaking { cause := 0x05, tval := BitVec.ofNat 64 (at_ e) })
  ∧ ∀ e0 rest e, act = e0 :: rest → (∀ f ∈ act, reach f) → (∀ f ∈ act, at_ f % w = 0) →
      firstFailing (fun f => spaceOf (at_ f) = spaceOf (at_ e0)) rest e →
      Traps i s s.breaking { cause := 0x04, tval := BitVec.ofNat 64 (at_ e) }

/-- R76, R89, R90, R140, R179, R197, R198: VLD and VLDX of aligned active elements. All in the scratchpad window, they
write each element its little-endian value. All in translated memory with their translations there, they write what L1
holds where every element hits; where one misses, the word retires with its destination unwritten and the load pending
and counted, or waits while 65,535 loads are outstanding; when its data has come, each element gets its value of the
node's view of the home (stated for a core whose L1 holds no line and for lines that no error meets). An element
outside the spaces, misaligned, or in another space than the first stops the whole instruction, and so does a tile of
another tag. R148: a tile's tag that fails its ECC is consumed before. -/
def Obligations.VectorLoads : Prop :=
  (∀ (s : State) (w : VWord) (ar : SReg) (n : BitVec 5) (i : Instr) (at_ : Nat → Nat) (act : List Nat) (d : VDst),
    w.a = .s ar → ((i = .vld w ∧ at_ = stridedAddr s ar (fmtBytes w.fmt))
      ∨ (i = .vldx w ∧ w.b = .v n ∧ at_ = indexedAddr s ar n (fmtBytes w.fmt))) →
    act = (s.ctx s.turn).regs.actives w.k (elemCount w.fmt) → d = ⟨w.d, w.fmt, w.fmt, act, false, 128⟩ →
    ((s.ctx s.turn).regs.reads d.words [] = true → exec i s = .next ((s.breaking.consumeLocal s.turn 0).retire 12))
    ∧ (∀ t, (s.ctx s.turn).regs.reads d.words [] = false → (s.ctx s.turn).regs.checkDst w.d w.fmt = some t →
      Traps i s s.breaking t)
    ∧ ((s.ctx s.turn).regs.reads d.words [] = false → (s.ctx s.turn).regs.checkDst w.d w.fmt = none →
      ((∀ e ∈ act, at_ e % fmtBytes w.fmt = 0) →
        (∀ e ∈ act, rangeIn .localSp (at_ e) (fmtBytes w.fmt) = true
          ∧ s.mcastPending s.turn (spOff (at_ e)) (fmtBytes w.fmt) = false
          ∧ (s.cluster (clusterOf s.turn)).store.spBadIn (spOff (at_ e)) (fmtBytes w.fmt) = false) →
        exec i s = .next ((s.breaking.writeElems s.turn d (act.map (fun e =>
          (e, leNat ((s.cluster (clusterOf s.turn)).store.spGet (spOff (at_ e)) (fmtBytes w.fmt)))))).retire 12)
        ∧ VecFrame i s)
      ∧ (∀ (pa : Nat → Nat) (bs : Nat → List Byte), (∀ e ∈ act, at_ e % fmtBytes w.fmt = 0) →
        (∀ e ∈ act, rangeIn .memory (at_ e) (fmtBytes w.fmt) = true
            ∧ s.breaking.tr s.turn (at_ e) false 1 = .ok (pa e)) →
        ((∀ e ∈ act, s.l1Read s.turn (s.pasidOf s.turn true) (at_ e) (fmtBytes w.fmt) = .hit (bs e)) →
          exec i s = .next ((s.breaking.writeElems s.turn d (act.map (fun e => (e, leNat (bs e))))).retire 12)
          ∧ VecFrame i s)
        ∧ ((∃ e ∈ act, ∀ b, s.l1Read s.turn (s.pasidOf s.turn true) (at_ e) (fmtBytes w.fmt) ≠ .hit b) →
          ((s.ctx s.turn).loads ≠ 0xFFFF → ∃ t, exec i s = .next t ∧ OnlyTurn s t ∧ SameBytes s t
            ∧ (t.ctx s.turn).pend = (s.ctx s.turn).pend ++ [⟨(s.ctx s.turn).pc, 0, 0, fmtBytes w.fmt, false, 0,
                s.pasidOf s.turn true, s.gtagOf s.turn, some ⟨w.d, w.fmt, act.map (fun e => (e, at_ e, pa e))⟩⟩]
            ∧ (t.ctx s.turn).loads = (s.ctx s.turn).loads + 1
            ∧ (t.ctx s.turn).pc = (s.ctx s.turn).pc + 12 ∧ (t.ctx s.turn).regs = (s.ctx s.turn).regs)
          ∧ ((s.ctx s.turn).loads = 0xFFFF → Waits i s)))
      ∧ vecTraps i s act at_ (fmtBytes w.fmt) (fun e => rangeIn .memory (at_ e) (fmtBytes w.fmt) = true
          ∨ rangeIn .localSp (at_ e) (fmtBytes w.fmt) = true)))
  ∧ ∀ (s : State) (k ix : Nat) (p : PendLoad) (v : VPend),
    (s.ctx k).pend[ix]? = some p → p.vec = some v → (s.core k).l1 = [] →
    (∀ e ∈ v.els, e.2.1 % 128 + p.w ≤ 128 ∧ e.2.2 % 128 = e.2.1 % 128
      ∧ s.lineErr (s.secureCore k) (s.core k).team (e.2.2 / 128) .read = none) →
    (∀ e ∈ v.els, ∀ f ∈ v.els, e.2.1 / 128 = f.2.1 / 128 → e.2.2 / 128 = f.2.2 / 128) →
    ∃ u, exec (.loadComplete k ix) s = .next (u.writeElems k ⟨v.d, v.fmt, v.fmt, v.els.map (·.1), false, 128⟩
        (v.els.map (fun e => (e.1, leNat (s.view (s.core k).team e.2.2 p.w)))))
      ∧ (u.ctx k).regs = (s.ctx k).regs ∧ (u.ctx k).loads = (s.ctx k).loads - 1
      ∧ (u.ctx k).pend = (s.ctx k).pend.eraseIdx ix ∧ (u.ctx k).pc = (s.ctx k).pc ∧ SameBytes s u
      ∧ ∀ n, n ≠ k → u.core n = s.core n

/-- R71, R82, R87, R197, R198: VST and VSTX of aligned active elements, all in one space, whose sources nothing stops:
to the scratchpad window, with no multicast store of the task on its way, they put each element's bytes at its
address, in ascending order; to translated memory, with no load pending, they store each as a scalar store does; VST
to the multicast window launches one multicast store of all elements and counts it. An element outside the spaces,
misaligned, or in another space than the first stops the whole instruction. That no address of the data operand fails
is stated first (log entry 27 orders the two). -/
def Obligations.VectorStores : Prop :=
  ∀ (s u : State) (popped : List (List (Nat × Nat))) (w : VWord) (ar : SReg) (n : BitVec 5) (i : Instr) (at_ : Nat →
      Nat)
    (act : List Nat) (src : VSrc) (bytes : Nat → List Byte), w.b = .s ar →
    ((i = .vst w ∧ at_ = stridedAddr s ar (fmtBytes w.fmt))
      ∨ (i = .vstx w ∧ w.d = .v n ∧ at_ = indexedAddr s ar n (fmtBytes w.fmt))) →
    act = (s.ctx s.turn).regs.actives w.k (elemCount w.fmt) →
    src = ⟨1, w.a, if w.fmt = .raw then none else some w.fmt, w.fmt, .raw, act, false⟩ → vecReady s [src] none →
    s.breaking.popAll s.turn [src] = (u, popped) →
    bytes = (fun e => leBytes (fmtBytes w.fmt)
      (s.breaking.srcValue s.turn (s.breaking.ctx s.turn) [src] popped 0 e)) →
    ((∀ e ∈ act, at_ e % fmtBytes w.fmt = 0) → s.mcastOut s.turn = false →
      (∀ e ∈ act, rangeIn .localSp (at_ e) (fmtBytes w.fmt) = true
        ∧ (s.cluster (clusterOf s.turn)).store.spBadIn (spOff (at_ e)) (fmtBytes w.fmt) = false) →
      exec i s = .next ((act.foldl (fun s e =>
        s.onStore (clusterOf s.turn) (·.spPut (spOff (at_ e)) (bytes e))) u).retire 12) ∧ VecFrame i s)
    ∧ (∀ pa : Nat → Nat, (∀ e ∈ act, at_ e % fmtBytes w.fmt = 0) → (s.ctx s.turn).pend = [] →
      (∀ e ∈ act, rangeIn .memory (at_ e) (fmtBytes w.fmt) = true
        ∧ s.breaking.tr s.turn (at_ e) true 2 = .ok (pa e)) →
      exec i s = .next ((act.foldl (fun s e =>
        s.storeLine s.turn (s.pasidOf s.turn true) (at_ e) (pa e) (bytes e)) u).retire 12))
    ∧ (act ≠ [] → i = .vst w → (s.ctx s.turn).stores ≠ 0xFFFF → (∀ e ∈ act, at_ e % fmtBytes w.fmt = 0) →
      (∀ e ∈ act, rangeIn .mcast (at_ e) (fmtBytes w.fmt) = true ∧ mcastMask (at_ e) ≠ 0) →
      exec i s = .next ((u.mcastAdd s.turn (act.map (fun e => (mcastMask (at_ e), mcastOff (at_ e), bytes e)))).retire 12)
      ∧ ∃ t, exec i s = .next t ∧ (t.ctx s.turn).stores = (s.ctx s.turn).stores + 1 ∧ t.home = s.home
        ∧ t.mcast.length = s.mcast.length + 1)
    ∧ vecTraps i s act at_ (fmtBytes w.fmt) (fun e => rangeIn .memory (at_ e) (fmtBytes w.fmt) = true
        ∨ rangeIn .localSp (at_ e) (fmtBytes w.fmt) = true
        ∨ (i = .vst w ∧ rangeIn .mcast (at_ e) (fmtBytes w.fmt) = true ∧ mcastMask (at_ e) ≠ 0))

/-! ### The matrix array -/

/-- R206, R212, R219, R129: the array of a core's cluster can accept an instruction now. The core's member holds the
lease with enough steps left, or none of the run accepted yet; fewer than 16 are queued, none of them an MRSTR, none to be replayed; the
array is not halted; no multicast store of the core is on its way; the accumulator tags and the scratchpad operands pass
their checks; the commands it waits for have been issued. -/
def Sys2Proof.Machine.mxReady (s : State) (k : Nat) (m : MxInstr) (shown : Map Fmt) : Prop :=
  (s.cluster (clusterOf k)).array.lease.holder = some (k % 4)
  ∧ (m.nrep ≤ (s.cluster (clusterOf k)).array.lease.left ∨ (s.cluster (clusterOf k)).array.lease.first = true)
  ∧ (s.cluster (clusterOf k)).array.queue.length < 16 ∧ (s.cluster (clusterOf k)).array.replay = 0
  ∧ (s.cluster (clusterOf k)).array.halt = false
  ∧ (∀ q ∈ (s.cluster (clusterOf k)).array.queue, ∀ a b, q.insn ≠ .mrstr a b)
  ∧ (∀ c ∈ s.mcast, c.core ≠ k)
  ∧ accTags m (s.cluster (clusterOf k)).array.shown = .ok shown ∧ spOperandTrap m.spUses = none
  ∧ m.waitCp.toNat ≤ ((s.ctx k).timeline .cp).issued ∧ m.waitWs.toNat ≤ ((s.ctx k).timeline .ws).issued

/-- R26, R131, R206, R212: what acceptance leaves. The instruction stands at the tail of the queue with the next number
of tl.mx and the next state of the generator; the tiles counter, the pc and the count of retired instructions move on;
its steps are charged to the lease, which ends with none left; ctl.atag shows the tags of the accumulators that it
targets. No register, no other core and no byte changes. -/
def Sys2Proof.Machine.MxTaken (s t : State) (k : Nat) (m : MxInstr) (shown : Map Fmt) : Prop :=
  (t.cluster (clusterOf k)).array.queue = (s.cluster (clusterOf k)).array.queue
      ++ [{ m with num := ((s.ctx k).timeline .mx).issued + 1, rng := rngNext (s.ctx k).ctl.rng }]
  ∧ ((t.ctx k).timeline .mx).issued = ((s.ctx k).timeline .mx).issued + 1
  ∧ (t.ctx k).ctl.rng = rngNext (s.ctx k).ctl.rng ∧ (t.ctx k).tiles = (s.ctx k).tiles + 1
  ∧ (t.ctx k).pc = (s.ctx k).pc + 24 ∧ (t.ctx k).ctl.retired = (s.ctx k).ctl.retired + 1 ∧ (t.ctx k).mx = none
  ∧ (t.cluster (clusterOf k)).array.shown = shown
  ∧ (t.cluster (clusterOf k)).array.seen = shown
  ∧ (t.cluster (clusterOf k)).array.lastVf = some (s.teamOf k).vf
  ∧ ((s.cluster (clusterOf k)).array.lease.left ≤ m.nrep → (t.cluster (clusterOf k)).array.lease.holder = none)
  ∧ (m.nrep < (s.cluster (clusterOf k)).array.lease.left → (t.cluster (clusterOf k)).array.lease.holder = some (k % 4)
      ∧ (t.cluster (clusterOf k)).array.lease.left = (s.cluster (clusterOf k)).array.lease.left - m.nrep
      ∧ (t.cluster (clusterOf k)).array.lease.first = false)
  ∧ (t.cluster (clusterOf k)).store = (s.cluster (clusterOf k)).store
  ∧ (t.ctx k).regs = (s.ctx k).regs ∧ (t.ctx k).ctl.fpflags = (s.ctx k).ctl.fpflags
  ∧ (∀ n, n ≠ k → t.core n = s.core n) ∧ SameBytes s t

/-- What R144, R206 and R219 check an instruction's accumulators for, in order: the tile, and whether its tag must be CF (0),
CF or RAW (1), or nothing (2). Each entry but the first kind gives its tile the tag CF. -/
def Sys2Proof.Machine.accUses (m : MxInstr) : List (Nat × Nat) :=
  let w := m.word
  let tile (a : BitVec 3) (r : Nat) : Nat := if w.accAcross then a.toNat else (a.toNat + r) % 8
  match m.insn with
  | .mma _ => (List.range m.nrep).flatMap (fun r =>
      (tile w.acc r, if w.ovw && (r == 0 || !w.accAcross) then 2 else 1)
        :: (if w.dmode = 1 ∧ (w.drainLast = false ∨ r + 1 = m.nrep) then [(tile w.acc2 r, 0)] else []))
  | .acpyin _ => [(w.acc.toNat, if w.ovw then 2 else 1)]
  | .mzero _ => [(w.acc.toNat, 2)]
  | .drun _ => [(w.acc.toNat, 0), (w.acc2.toNat, 0)]
  | .mst _ | .acpy _ => [(w.acc.toNat, 0)]
  | _ => []

/-- The tag that the `n`-th of these checks finds, and whether it fails. -/
def Sys2Proof.Machine.accFinds (m : MxInstr) (tags : Map Fmt) (n : Nat) : Fmt :=
  let t := ((accUses m).getD n (0, 2)).1
  if ((accUses m).take n).any (fun e => e.1 == t && e.2 != 0) then m.word.cf else Map.get .raw tags t
def Sys2Proof.Machine.accFails (m : MxInstr) (tags : Map Fmt) (n : Nat) : Prop :=
  n < (accUses m).length ∧ accFinds m tags n ≠ m.word.cf
  ∧ (((accUses m).getD n (0, 2)).2 = 0 ∨ (((accUses m).getD n (0, 2)).2 = 1 ∧ accFinds m tags n ≠ .raw))

/-- R202: the physical offset of byte `b` of row `r` of a scratchpad operand in repeat `rep`, from its two registers. -/
def Sys2Proof.Machine.spPlace (x y : Word) (rep r b : Nat) : Nat :=
  let o := (x.extractLsb' 0 32).toNat + rep * (x.extractLsb' 32 32).toNat + r * (y.extractLsb' 0 32).toNat + b
  o - o % 4096 + (o / 128 + r * (y.extractLsb' 32 4).toNat) % 32 * 128 + o % 128

/-- R202, R203: a scratchpad operand with a reserved bit set, the lowest being `b`; with a first failing byte at `o`, in the
order repeat, row, byte; misaligned, at `o`. -/
def Sys2Proof.Machine.spReserved (u : SpUse) (b : Nat) : Prop :=
  36 ≤ b ∧ u.second.getLsbD b = true ∧ ∀ i, 36 ≤ i → i < b → u.second.getLsbD i = false
def Sys2Proof.Machine.spOutside (u : SpUse) (o : Nat) : Prop :=
  ∃ rep i k r b : Nat, rep < u.reps ∧ u.rows[i]? = some r ∧ u.bytes[k]? = some b ∧ o = spPlace u.first u.second rep r b
    ∧ 0x800000 ≤ o
    ∧ ∀ rep' i' k' r' b' : Nat, (rep' < rep ∨ (rep' = rep ∧ (i' < i ∨ (i' = i ∧ k' < k)))) → u.rows[i']? = some r' →
      u.bytes[k']? = some b' → spPlace u.first u.second rep' r' b' < 0x800000
def Sys2Proof.Machine.spMisaligned (u : SpUse) (o : Nat) : Prop :=
  let base := (u.first.extractLsb' 0 32).toNat
  let rp := (u.second.extractLsb' 0 32).toNat
  let tp := (u.first.extractLsb' 32 32).toNat
  u.scaled = false ∧ u.rows ≠ [] ∧ u.bytes ≠ []
  ∧ ((base % u.w ≠ 0 ∧ o = base) ∨ (base % u.w = 0 ∧ rp % u.w ≠ 0 ∧ o = base + rp)
    ∨ (base % u.w = 0 ∧ rp % u.w = 0 ∧ tp % u.w ≠ 0 ∧ o = base + tp))

/-- The first member of a list that has a property. -/
def Sys2Proof.Machine.firstIs {α : Type} (l : List α) (p : α → Prop) (u : α) : Prop :=
  ∃ n : Nat, l[n]? = some u ∧ p u ∧ ∀ (i : Nat) (v : α), i < n → l[i]? = some v → ¬ p v

/-- The array can look at a core's instruction: the lease, room in the queue and in the run, and nothing that holds it up. -/
def Sys2Proof.Machine.mxTurn (s : State) (k : Nat) (m : MxInstr) : Prop :=
  (s.cluster (clusterOf k)).array.lease.holder = some (k % 4)
  ∧ (m.nrep ≤ (s.cluster (clusterOf k)).array.lease.left ∨ (s.cluster (clusterOf k)).array.lease.first = true)
  ∧ (s.cluster (clusterOf k)).array.queue.length < 16 ∧ (s.cluster (clusterOf k)).array.replay = 0
  ∧ (s.cluster (clusterOf k)).array.halt = false
  ∧ (∀ q ∈ (s.cluster (clusterOf k)).array.queue, ∀ a b, q.insn ≠ .mrstr a b) ∧ ∀ c ∈ s.mcast, c.core ≠ k

/-- R144, R202, R203, R206: the trap of an instruction that fails a check at acceptance: FORMAT_MISMATCH of the first accumulator
that fails, then COMMAND_INVALID of a reserved bit, ADDRESS_FAULT, MISALIGNED, and TIMELINE_AHEAD of a wait field. -/
def Sys2Proof.Machine.mxRefused (s : State) (k : Nat) (m : MxInstr) (i : TrapInfo) : Prop :=
  let tags := (s.cluster (clusterOf k)).array.shown
  (∃ n, accFails m tags n ∧ (∀ j, j < n → ¬ accFails m tags j)
    ∧ i = { cause := 0x03, tval := BitVec.ofNat 64 (m.word.cf.code.toNat + 16 * (accFinds m tags n).code.toNat + 768) })
  ∨ (∀ n, ¬ accFails m tags n) ∧
    ((∃ u b, firstIs m.spUses (fun u => ∃ b, b < 64 ∧ spReserved u b) u ∧ b < 64 ∧ spReserved u b
      ∧ i = { cause := 0x08, tval := BitVec.ofNat 64 (4 * b + 256 * u.sreg) })
    ∨ (∀ u ∈ m.spUses, ∀ b, ¬ (b < 64 ∧ spReserved u b)) ∧
      ((∃ u o, firstIs m.spUses (fun u => ∃ o, spOutside u o) u ∧ spOutside u o
        ∧ i = { cause := 0x04, tval := BitVec.ofNat 64 (0xFFFFFFF000000000 + o) })
      ∨ (∀ u ∈ m.spUses, ∀ o, ¬ spOutside u o) ∧
        ((∃ u o, firstIs m.spUses (fun u => ∃ o, spMisaligned u o) u ∧ spMisaligned u o
          ∧ i = { cause := 0x05, tval := BitVec.ofNat 64 (0xFFFFFFF000000000 + o) })
        ∨ (∀ u ∈ m.spUses, ∀ o, ¬ spMisaligned u o) ∧
          ((((s.ctx k).timeline .cp).issued < m.waitCp.toNat ∧ i = { cause := 0x0B, tval := m.waitCp })
          ∨ (m.waitCp.toNat ≤ ((s.ctx k).timeline .cp).issued ∧ ((s.ctx k).timeline .ws).issued < m.waitWs.toNat
            ∧ i = { cause := 0x0B, tval := m.waitWs })))))

/-- R144, R202, R203, R206, R207, R212, R219: every matrix instruction other than MSTAT that passes its checks at
issue and that the array can accept is accepted, at the word itself or, after a wait, at the event of acceptance; one
that fails a check there takes the trap of the first that fails; without the lease it waits and its member requests
the lease. The array accepts nothing of a team that has consumed an error or that is stopped for its save. At issue, a
tile source whose tag is not the word's takes FORMAT_MISMATCH. MSAVE and MRSTR of ring U take RING_VIOLATION; above it
an image outside translated memory takes ADDRESS_FAULT, one that is not page-aligned MISALIGNED, and a SEL of 512 or
more COMMAND_INVALID (the order of these and the range of the whole image are the model's reading, log entry 25). -/
def Obligations.MatrixAcceptance : Prop :=
  (∀ (s : State) (i : Instr) (w : MWord) (a b : SReg) (m : MxInstr) (shown : Map Fmt),
    i ∈ [Instr.mma w, .drun w, .mld w, .mst w, .mzero w, .acpy w, .acpyin w, .msave a b, .mrstr a b] →
    (s.ctx s.turn).mx = none → s.breaking.issueMx s.turn i = .ok m →
    (mxReady s s.turn m shown → ∃ t, exec i s = .next t ∧ MxTaken s t s.turn m shown)
    ∧ ((s.cluster (clusterOf s.turn)).array.lease.holder ≠ some (s.turn % 4) →
      Waits i s ∧ ∃ t, exec i s = .next t ∧ s.turn % 4 ∈ (t.cluster (clusterOf s.turn)).array.lease.reqs
        ∧ (t.ctx s.turn).mx = some m))
  ∧ (∀ (s : State) (i : Instr) (w : MWord) (a b : SReg) (m : MxInstr) (x : TrapInfo),
    i ∈ [Instr.mma w, .drun w, .mld w, .mst w, .mzero w, .acpy w, .acpyin w, .msave a b, .mrstr a b] →
    (s.ctx s.turn).mx = none → s.breaking.issueMx s.turn i = .ok m → mxTurn s s.turn m → mxRefused s s.turn m x →
    ∃ u, Traps i s u x ∧ u.turn = s.turn ∧ (u.ctx s.turn).pc = (s.ctx s.turn).pc ∧ u.clusters = s.clusters)
  ∧ (∀ (s : State) (k : Nat) (m : MxInstr) (shown : Map Fmt) (x : TrapInfo), (s.ctx k).mx = some m →
    ((s.teamOf k).consumed = false → (s.core k).dead = false → s.atSave k = false → mxReady s k m shown →
      ∃ t, exec (.matrixAccept k) s = .next t ∧ MxTaken s t k m shown ∧ t.turn = s.turn)
    ∧ ((s.teamOf k).consumed = false → (s.core k).dead = false → s.atSave k = false → mxTurn s k m → mxRefused s k m x →
      exec (.matrixAccept k) s = .next { (State.takeSync { s with turn := k } k x) with turn := s.turn })
    ∧ (((s.teamOf k).consumed = true ∨ s.atSave k = true) → exec (.matrixAccept k) s = .next s))
  ∧ (∀ (s : State) (w : MWord) (i : Instr), i ∈ [Instr.drun w, .mld w, .mst w, .mzero w] →
    s.issueMx s.turn i = .ok (s.mxRead s.turn i))
  ∧ (∀ (s : State) (w : MWord) (i : Instr) (op : MOp), (i, op) ∈ [(Instr.mma w, MOp.mma), (.acpyin w, .acpyin)] →
    (s.ctx s.turn).mx = none → s.sttPending s.turn = false → (s.ctx s.turn).regs.bad = [] →
    ((∀ e ∈ MWord.tileSrcs op w, s.tileTag s.turn e.1 = e.2.1) → s.breaking.issueMx s.turn i = .ok (s.mxRead s.turn i))
    ∧ ∀ e, firstIs (MWord.tileSrcs op w) (fun e => s.tileTag s.turn e.1 ≠ e.2.1) e →
      Traps i s s.breaking
        { cause := 0x03, tval := BitVec.ofNat 64 (e.2.1.code.toNat + 16 * (s.tileTag s.turn e.1).code.toNat + 256 * e.2.2) })
  ∧ ∀ (s : State) (a b : SReg) (i : Instr), i ∈ [Instr.msave a b, .mrstr a b] → (s.ctx s.turn).mx = none →
    ((s.ctx s.turn).ring = .u → Traps i s s.breaking { cause := 0x02 })
    ∧ ((s.ctx s.turn).ring ≠ .u → rangeIn .memory (s.rs a).toNat 0x82000 = false →
      Traps i s s.breaking { cause := 0x04, tval := s.rs a })
    ∧ ((s.ctx s.turn).ring ≠ .u → rangeIn .memory (s.rs a).toNat 0x82000 = true → (s.rs a).toNat % 4096 ≠ 0 →
      Traps i s s.breaking { cause := 0x05, tval := s.rs a })
    ∧ ((s.ctx s.turn).ring ≠ .u → rangeIn .memory (s.rs a).toNat 0x82000 = true → (s.rs a).toNat % 4096 = 0 →
      (s.rs b).toNat < 512 → s.breaking.issueMx s.turn i = .ok (s.mxRead s.turn i))
    ∧ (∀ n, (s.ctx s.turn).ring ≠ .u → rangeIn .memory (s.rs a).toNat 0x82000 = true → (s.rs a).toNat % 4096 = 0 →
      9 ≤ n → (s.rs b).getLsbD n = true → (∀ j, 9 ≤ j → j < n → (s.rs b).getLsbD j = false) →
      Traps i s s.breaking { cause := 0x08, tval := BitVec.ofNat 64 (4 * n + 256 * b.toNat) })

/-- R212 to R217, R224 (with log entry 47 for the two clauses that R155 and R224 leave open): LEASE of the holder
writes the steps left, of another member it requests and waits; UNLEASE ends the core's own run only. A free array
whose team's VF owns it grants the first requester after the last holder a run of ctl.leaserun steps, at most 64, 16
where the field is 0; where another VF's team state stands there and nothing is queued, the team state is zeroed first
(that the model goes by the VF of the last team that stood there, not by the last accepted instruction, is log entry
47). A holder that offers nothing while another core requests loses the run. MSTAT writes the queue's length, whether
the core holds the lease, and the last stop (log entries 47, 51), and its destination alone. -/
def Obligations.LeaseProtocol : Prop :=
  (∀ (s : State) (d : SReg),
    ((s.cluster (clusterOf s.turn)).array.lease.holder = some (s.turn % 4) →
      WritesBreaking (.lease d) s d (BitVec.ofNat 64 (s.cluster (clusterOf s.turn)).array.lease.left))
    ∧ ((s.cluster (clusterOf s.turn)).array.lease.holder ≠ some (s.turn % 4) →
      Waits (.lease d) s ∧ ∃ t, exec (.lease d) s = .next t
        ∧ s.turn % 4 ∈ (t.cluster (clusterOf s.turn)).array.lease.reqs))
  ∧ (∀ s : State, ∃ t, exec .unlease s = .next t ∧ (t.ctx s.turn).pc = (s.ctx s.turn).pc + 4
    ∧ (t.ctx s.turn).regs = (s.ctx s.turn).regs ∧ SameBytes s t
    ∧ (t.cluster (clusterOf s.turn)).array.lease.holder ≠ some (s.turn % 4)
    ∧ ((s.cluster (clusterOf s.turn)).array.lease.holder ≠ some (s.turn % 4) →
        (t.cluster (clusterOf s.turn)).array.lease = (s.cluster (clusterOf s.turn)).array.lease)
    ∧ (t.cluster (clusterOf s.turn)).array.queue = (s.cluster (clusterOf s.turn)).array.queue)
  ∧ (∀ (s : State) (cl j n : Nat) (l : Lease), l = (s.cluster cl).array.lease → l.holder = none → 1 ≤ j → j ≤ 4 →
    (l.last + j) % 4 ∈ l.reqs → (∀ i, 1 ≤ i → i < j → (l.last + i) % 4 ∉ l.reqs) → (s.cluster cl).team ≠ 0 →
    (s.cluster cl).array.halt = false → n = (s.ctx (4 * cl + (l.last + j) % 4)).ctl.leaserun.toNat % 128 →
    ((s.cluster cl).owner = some (s.team (s.cluster cl).team).vf ∨ (s.cluster cl).array.queue = []) →
    ∃ t, exec (.leaseGrant cl) s = .next t ∧ (t.cluster cl).array.lease.holder = some ((l.last + j) % 4)
      ∧ (t.cluster cl).array.lease.left = (if n = 0 then 16 else min n 64) ∧ (t.cluster cl).array.lease.first = true
      ∧ (l.last + j) % 4 ∉ (t.cluster cl).array.lease.reqs ∧ (t.cluster cl).array.queue = (s.cluster cl).array.queue
      ∧ ((s.cluster cl).owner = some (s.team (s.cluster cl).team).vf → (t.cluster cl).store = (s.cluster cl).store)
      ∧ ((s.cluster cl).owner ≠ some (s.team (s.cluster cl).team).vf → (t.cluster cl).store = {}
        ∧ (t.cluster cl).owner = some (s.team (s.cluster cl).team).vf) ∧ t.cores = s.cores ∧ t.home = s.home)
  ∧ (∀ (s : State) (cl m : Nat), (s.cluster cl).array.lease.holder = some m → (s.cluster cl).array.lease.reqs ≠ [] →
    (s.ctx (4 * cl + m)).mx = none →
    ∃ t, exec (.leaseRunIdleTimeout cl) s = .next t ∧ (t.cluster cl).array.lease.holder = none
      ∧ (t.cluster cl).array.lease.last = m ∧ (t.cluster cl).array.lease.reqs = (s.cluster cl).array.lease.reqs
      ∧ t.cores = s.cores)
  ∧ ∀ (s : State) (d : SReg) (v : Nat) (p : StopRec), p = (s.cluster (clusterOf s.turn)).array.stop →
    v = min 16 (s.cluster (clusterOf s.turn)).array.queue.length
      + 32 * (if (s.cluster (clusterOf s.turn)).array.lease.holder = some (s.turn % 4) then 1 else 0)
      + 64 * (p.stop % 4) + 256 * (p.rep % 256) + 65536 * (p.kdone % 512) + 2 ^ 25 * (p.acc % 8) + 2 ^ 32 * (p.num % 2 ^ 32) →
    Retires (.mstat d) s d (BitVec.ofNat 64 v) ((s.ctx s.turn).pc + 24) true

/-- What the completion of an instruction at the head of an array's queue leaves (R126, R127, R131, R207): it is gone
from the queue, its flags are in its task's, the tiles counter is one lower, and, where its number is the next and none
completed before it, the timeline has counted it. -/
def Sys2Proof.Machine.MxCompleted (s t : State) (cl : Nat) (m : MxInstr) (flags : Flags) : Prop :=
  (t.cluster cl).array.queue = (s.cluster cl).array.queue.drop 1
  ∧ (t.ctx m.core).tiles = (s.ctx m.core).tiles - 1
  ∧ (t.ctx m.core).ctl.fpflags = (s.ctx m.core).ctl.fpflags ||| flags
  ∧ (((s.ctx m.core).timeline .mx).done + 1 = m.num → ((s.ctx m.core).timeline .mx).finished = [] →
      ((t.ctx m.core).timeline .mx).done = m.num)
  ∧ (t.ctx m.core).pc = (s.ctx m.core).pc

/-- R33: one product added to an accumulator element of FP32 or FP64: the exact sum rounded once to nearest even; NaN for a
NaN. -/
def Sys2Proof.Machine.FmaStep (cf : Fmt) (a b : FVal) (old new : Nat) : Prop :=
  (∀ x y z lo hi : ℚ, valNum a = some x → valNum b = some y → patNum cf old = some z → Holds cf lo → Holds cf hi →
    lo ≤ x * y + z → x * y + z ≤ hi → RoundsTo cf .rne 0 (x * y + z : ℚ) new)
  ∧ ((a = .nan ∨ b = .nan ∨ decodeF cf old = .nan) → new = (if cf = .fp64 then 0x7FF8000000000000 else 0x7FC00000))

/-- What an operand of a step reads for element `k` of its line `i` (R30, R137, R201, R202): its bits, times its block's scale
where it is scaled. -/
def Sys2Proof.Machine.opndReads (o : MOpnd) (f : Fmt) (scaled : Bool) (st : TeamStore) (r : Regs) (i k bits scale : Nat) : Prop :=
  o.bits st r i k = bits
  ∧ (scaled = false → o.value st r i k = decodeF f bits)
  ∧ (scaled = true → scale = 255 → o.value st r i k = .nan)
  ∧ (scaled = true → scale < 255 →
    valNum (o.value st r i k) = (valNum (decodeF f bits)).map (· * 2 ^ ((scale : ℤ) - 127))
    ∧ (decodeF f bits = .nan → o.value st r i k = .nan))

/-- The active elements of a row instruction that lie in a layout of so many rows and columns, row by row (R142, R223). -/
def Sys2Proof.Machine.activeIn (m : MxInstr) (rows cols : Nat) : List (Nat × Nat) :=
  ((List.range rows).filter (fun i => m.rowK.getLsbD i)).flatMap (fun i =>
    ((List.range cols).filter (fun j => m.colK.getLsbD j)).map (fun j => (i, j)))

/-- R238 to R240: the FP32 pattern that an operation of a drain program puts into its x register for the first element of a
row. -/
def Sys2Proof.Machine.drainGives (op imm : Nat) (rm : Rm) (a b c : FVal) (env : FEnv) (v : Nat) : Prop :=
  let p (x : FVal) : Nat := (encodeF .fp32 .rne false x ⟨0, 0⟩).1
  match op with
  | 0 => v = p a
  | 1 => v = (addF .fp32 rm a b env).1
  | 2 => v = (addF .fp32 rm a b.neg env).1
  | 3 => v = (mulF .fp32 rm a b env).1
  | 4 => v = (fmaF .fp32 rm a b c env).1
  | 5 => v = p (a.max b)
  | 6 => v = p (a.min b)
  | 7 => v = if a = .nan then 0x7FC00000 else p a % 2 ^ 31
  | 8 => v = if a = .nan then 0x7FC00000 else (p a + 2 ^ 31) % 2 ^ 32
  | 9 => v = p ((a.max b).min c)
  | 10 => v = (transc .exp2 .fp32 (p a) env).1
  | 11 => v = (transc .log2 .fp32 (p a) env).1
  | 12 => v = (transc .rcp .fp32 (p a) env).1
  | 13 => v = (transc .rsq .fp32 (p a) env).1
  | 14 => v = (transc .sigm .fp32 (p a) env).1
  | 15 => v = (transc .tanh .fp32 (p a) env).1
  | 16 => (valNum a = none → v = p a) ∧ ∀ x, valNum a = some x →
      ∃ u, valNum u = some (x * 2 ^ ((BitVec.ofNat 8 imm).toInt))
      ∧ u.sign = a.sign ∧ v = (encodeF .fp32 rm false u env).1
  | 17 => (((∃ x, valNum a = some x ∧ x < 0) ∨ a = .inf true) → v = p b)
      ∧ (¬ ((∃ x, valNum a = some x ∧ x < 0) ∨ a = .inf true) → v = p c)
  | 18 => v = p a
  | 19 => v = (addF .fp32 rm (.zero false) a env).1
  | 20 => ∀ f, Fmt.ofCode (imm % 16) = some f →
      v = p (decodeF f (encodeF f (Rm.ofCode (BitVec.ofNat 3 (imm / 16))) false a env).1)
  | _ => False

/-- R33, R142, R145, R146, R199, R201, R202, R205, R207, R210, R215, R218, R222, R227, R231, R249: what the array
executes. A step adds to each active element its products, from KOFF in the first repeat to the K count, from 0 where
OVW clears it: modulo 2^32 into INT32, else one by one in k order, each rounded once; other elements and tiles keep
their words. Operands are read as R201 and R202 say. A step that drains leaves the instruction at its drain; else the
next repeat follows, or it completes. A drain that ends completes likewise, one that faults with its fault code noted.
A stopped array begins nothing. MZERO zeroes the active elements. A written word keeps its row's checksum right. R220,
R221, R223: MLD writes every element of the tile's layout and its scales from scratchpad, zero elsewhere, and its tag.
MST writes each active element of the rows whose checksum passes, converted in row-major order, and no other byte;
ACPY likewise into a tile, with scales of 1 for a written row of bytes; both consume an error where a row fails.
ACPYIN overwrites each active element with the tile's, or adds it as one more product. R229 to R245: a DRUN over one
active element that runs one operation on x0 from the sources that R235 names, and then stores x0 as FP32: by STO at
OBASE + i × ORPITCH + j × OESTEP, by STT into the tile TTILE (where the layout has the element), or by STA back into
the accumulator; with RREN the row's running maximum and sum follow. Accumulators other than FP32 are converted first.
Nothing else changes. R362 to R364: MSAVE writes the image of the tiles that SEL names, with their checksums, the
header, the restart record where bit 8 asks for it, and the tag over them; MRSTR of such an image, whose tag and
version are right and which holds no stopped or queued work, gives the tiles of SEL their words, checksums and tags
and, with bit 8, the restart record; another image is refused with code 13 or 14 and changes nothing. -/
def Obligations.ArrayExecution : Prop :=
  ((∀ (s : State) (cl : Nat) (m : MxInstr), s.mxHead cl = some m → m.op = some .mma → m.stepped = false → m.cycle = 0 →
     s.begins cl = true → m.word.cf = .int32 → (s.cluster cl).store.spBad = [] →
     (s.cluster cl).store.wbBad = [] → (s.ctx m.core).regs.bad = [] →
     ∃ t, exec (.tileStep cl) s = .next t
       ∧ (∀ i j, i < 128 → j < 128 → (t.cluster cl).store.word (m.word.target m.rep) i j
         = (if m.rowK.getLsbD i && m.colK.getLsbD j then
             (if m.word.ovw && (m.rep == 0 || !m.word.accAcross) then 0
               else (s.cluster cl).store.word (m.word.target m.rep) i j)
             + BitVec.ofInt 32 (((List.range (m.word.kc - (if m.rep = 0 then m.koff.toNat else 0))).map (fun n =>
               ((m.opndA m.rep).value (s.cluster cl).store (s.ctx m.core).regs i ((if m.rep = 0 then m.koff.toNat else 0) + n)).toInt
               * ((m.opndB m.rep).value (s.cluster cl).store (s.ctx m.core).regs j ((if m.rep = 0 then m.koff.toNat else 0) + n)).toInt)).sum)
           else (s.cluster cl).store.word (m.word.target m.rep) i j))
       ∧ (∀ a i j, a ≠ m.word.target m.rep → i < 128 → j < 128 →
           (t.cluster cl).store.word a i j = (s.cluster cl).store.word a i j)
       ∧ (t.cluster cl).store.aTag (m.word.target m.rep) = .int32)
   ∧ (∀ (s : State) (cl : Nat) (m : MxInstr), s.mxHead cl = some m → m.op = some .mma → m.stepped = false →
       m.cycle = 0 →
     s.begins cl = true → (m.word.cf = .fp32 ∨ m.word.cf = .fp64) → (s.cluster cl).store.spBad = [] →
     (s.cluster cl).store.wbBad = [] → (s.ctx m.core).regs.bad = [] →
     ∃ (t : State) (c : Nat → Nat → Nat → Nat) (k0 tt : Nat), exec (.tileStep cl) s = .next t
       ∧ k0 = (if m.rep = 0 then m.koff.toNat else 0) ∧ tt = m.word.target m.rep
       ∧ (∀ i j, i < accSide m.word.cf → j < accSide m.word.cf → (t.cluster cl).store.accElem m.word.cf tt i j
         = (if m.rowK.getLsbD i && m.colK.getLsbD j then c i j (m.word.kc - k0) else (s.cluster cl).store.accElem m.word.cf tt i j))
       ∧ (∀ i j, c i j 0 = (if m.word.ovw && (m.rep == 0 || !m.word.accAcross) then 0 else (s.cluster cl).store.accElem m.word.cf tt i j))
       ∧ (∀ i j n, i < accSide m.word.cf → j < accSide m.word.cf → m.rowK.getLsbD i = true → m.colK.getLsbD j = true →
         n < m.word.kc - k0 → FmaStep m.word.cf
           ((m.opndA m.rep).value (s.cluster cl).store (s.ctx m.core).regs i (k0 + n))
           ((m.opndB m.rep).value (s.cluster cl).store (s.ctx m.core).regs j (k0 + n)) (c i j n) (c i j (n + 1)))
       ∧ (∀ a i j, a ≠ tt → i < 128 → j < 128 → (t.cluster cl).store.word a i j = (s.cluster cl).store.word a i j)
       ∧ (t.cluster cl).store.aTag tt = m.word.cf)
   ∧ (∀ (m : MxInstr) (w : MWord) (l : Layout) (st : TeamStore) (r : Regs) (rep ra rb i k : Nat), m.insn = .mma w →
     ra = (if w.advA then rep else 0) → rb = (if w.advB then rep else 0) →
     (w.aKind ≠ 1 → layoutOf w.af = some l → ∀ tm p, tm = (w.aTile.toNat + ra) % 8 →
       p = (if w.aKind = 2 then k * l.pitch + i * l.width else i * l.pitch + k * l.width) →
       opndReads (m.opndA rep) w.af w.aScaled st r i k (leNat (r.m.getRange (tm * 32768 + p) l.width))
         (r.side.get (tm * 1024 + 8 * i + k / 32)).toNat)
     ∧ (w.aKind = 1 → opndReads (m.opndA rep) w.af w.aScaled st r i k
         (leNat (st.sp.getRange (spPlace m.a1 m.a2 ra i (if w.aScaled then 33 * (k / 32) + k % 32 else k * fmtBytes w.af)) (fmtBytes w.af)))
         (st.sp.get (spPlace m.a1 m.a2 ra i (33 * (k / 32) + 32))).toNat)
     ∧ ((w.bKind = 0 ∨ w.bKind = 3) → layoutOf w.bf = some l → ∀ tm p, tm = (w.bTile.toNat + rb) % 8 →
       p = (if w.bKind = 3 then k * l.pitch + i * l.width else i * l.pitch + k * l.width) →
       opndReads (m.opndB rep) w.bf w.bScaled st r i k (leNat (r.m.getRange (tm * 32768 + p) l.width))
         (r.side.get (tm * 1024 + 8 * i + k / 32)).toNat)
     ∧ (w.bKind = 1 → opndReads (m.opndB rep) w.bf w.bScaled st r i k
         (leNat (st.sp.getRange (spPlace m.b1 m.b2 rb i (if w.bScaled then 33 * (k / 32) + k % 32 else k * fmtBytes w.bf)) (fmtBytes w.bf)))
         (st.sp.get (spPlace m.b1 m.b2 rb i (33 * (k / 32) + 32))).toNat)
     ∧ (w.bKind = 2 → ∀ sl, sl = (4 * (w.bTile.toNat % 2) + w.slot.toNat + rb) % 8 →
       opndReads (m.opndB rep) w.bf w.bScaled st r i k
         (leNat (st.wb.getRange (sl * 32768 + (i * w.cls.kt + k) * fmtBytes w.bf) (fmtBytes w.bf)))
         (st.wbs.get (sl * 1024 + 8 * i + k / 32)).toNat))
   ∧ (∀ (s : State) (cl : Nat), (s.cluster cl).array.halt = true →
     exec (.tileStep cl) s = .next s ∧ exec (.runDrain cl) s = .next s ∧ exec (.arrayExecute cl) s = .next s)
   ∧ (∀ (s : State) (cl : Nat) (m : MxInstr) (st : TeamStore) (fl : Flags), s.mxHead cl = some m → m.op = some .mma →
     m.stepped = false → s.begins cl = true →
     stepOp m (s.cluster cl).store (s.ctx m.core).regs m.rep m.cycle none false = (st, fl, .done) →
     ∃ t, exec (.tileStep cl) s = .next t ∧ (t.cluster cl).store = st
       ∧ (m.drains m.rep = true → ∃ q, (t.cluster cl).array.queue = q :: (s.cluster cl).array.queue.drop 1
           ∧ q = { m with flags := fl, stepped := true, cycle := if m.word.cls = .fp64 then 253 else 381 }
               ∧ t.cores = s.cores)
       ∧ (m.drains m.rep = false → m.rep + 1 < m.nrep →
           ∃ q, (t.cluster cl).array.queue = q :: (s.cluster cl).array.queue.drop 1 ∧ q.rep = m.rep + 1 ∧ q.flags = fl
             ∧ q.stepped = false ∧ t.cores = s.cores)
       ∧ (m.drains m.rep = false → m.nrep ≤ m.rep + 1 → MxCompleted s t cl m fl
           ∧ (t.ctx m.core).regs = (s.ctx m.core).regs))
   ∧ (∀ (s : State) (cl : Nat) (m : MxInstr) (d : DrainSt), s.mxHead cl = some m →
     s.drainsNow cl m = true →
     runDrainOp m (s.cluster cl).store (s.ctx m.core).regs (s.cluster cl).array.restart (s.cluster cl).array.reading m.rep none = d →
     (d.ended = none → m.nrep ≤ m.rep + 1 →
       ∃ t, exec (.runDrain cl) s = .next t ∧ (t.cluster cl).store = d.store ∧ (t.ctx m.core).regs = d.regs
         ∧ MxCompleted s t cl m d.env.flags)
     ∧ (∀ code detail, d.ended = some (.fault code detail) →
       ((s.ctx m.core).timeline .mx).mark = 0 →
       ∃ t, exec (.runDrain cl) s = .next t ∧ MxCompleted s t cl m d.env.flags
         ∧ ((t.ctx m.core).timeline .mx).mark = m.num ∧ ((t.ctx m.core).timeline .mx).addr = detail))
   ∧ (∀ (s : State) (cl : Nat) (m : MxInstr) (w : MWord), s.mxHead cl = some m → m.insn = .mzero w → m.cycle = 0 →
     s.begins cl = true →
     ∃ t, exec (.arrayExecute cl) s = .next t ∧ MxCompleted s t cl m m.flags
       ∧ (t.ctx m.core).regs = (s.ctx m.core).regs
       ∧ (∀ i j, i < accSide w.cf → j < accSide w.cf → (t.cluster cl).store.accElem w.cf w.acc.toNat i j
         = (if m.rowK.getLsbD i && m.colK.getLsbD j then 0 else (s.cluster cl).store.accElem w.cf w.acc.toNat i j))
       ∧ (∀ a i j, a ≠ w.acc.toNat → i < 128 → j < 128 →
           (t.cluster cl).store.word a i j = (s.cluster cl).store.word a i j)
       ∧ (t.cluster cl).store.aTag w.acc.toNat = w.cf ∧ (t.cluster cl).store.sp = (s.cluster cl).store.sp)
   ∧ ∀ (st : TeamStore) (a i j : Nat) (w : Parcel), j < 128 → st.rowOk a i = true →
       (st.putWord a i j w).rowOk a i = true)
  ∧ ((∀ (s : State) (cl : Nat) (m : MxInstr) (w : MWord) (l : Layout) (tm : Nat), s.mxHead cl = some m →
      m.insn = .mld w →
       m.cycle = 0 → s.begins cl = true → layoutOf w.af = some l → (s.cluster cl).store.spBad = [] →
           tm = w.aTile.toNat →
       ∃ t, exec (.arrayExecute cl) s = .next t ∧ MxCompleted s t cl m m.flags
           ∧ (t.cluster cl).store = (s.cluster cl).store
         ∧ (∀ r c, r < l.rows → c < l.cols →
             (t.ctx m.core).regs.m.getRange (tm * 32768 + r * l.pitch + c * l.width) l.width
           = (s.cluster cl).store.sp.getRange (spPlace m.a1 m.a2 0 r (if w.aScaled then 33 * (c / 32) + c % 32 else c * l.width)) l.width)
         ∧ (∀ b, b < 32768 → (∀ r c x, r < l.rows → c < l.cols → x < l.width → b ≠ r * l.pitch + c * l.width + x) →
           (t.ctx m.core).regs.m.get (tm * 32768 + b) = 0)
         ∧ (l = .l8 → ∀ r b, r < 128 → b < 8 → (t.ctx m.core).regs.side.get (tm * 1024 + 8 * r + b)
           = (if w.aScaled then (s.cluster cl).store.sp.get (spPlace m.a1 m.a2 0 r (33 * b + 32)) else 0x7F))
         ∧ (∀ x, (x < tm * 32768 ∨ tm * 32768 + 32768 ≤ x) → (t.ctx m.core).regs.m.get x = (s.ctx m.core).regs.m.get x)
         ∧ (∀ x, (x < tm * 1024 ∨ tm * 1024 + 1024 ≤ x) →
             (t.ctx m.core).regs.side.get x = (s.ctx m.core).regs.side.get x)
         ∧ (t.ctx m.core).regs.mTag tm = w.af ∧ (∀ x, x ≠ tm → (t.ctx m.core).regs.mTag x = (s.ctx m.core).regs.mTag x)
         ∧ (t.ctx m.core).regs.s = (s.ctx m.core).regs.s ∧ (t.ctx m.core).regs.v = (s.ctx m.core).regs.v)
     ∧ (∀ (s : State) (cl : Nat) (m : MxInstr) (w : MWord) (side acc n : Nat) (l : List (Nat × Nat)) (r : List (Nat × Nat) × FEnv)
       (st : TeamStore) (place : Nat → Nat → Nat), s.mxHead cl = some m → m.insn = .mst w → m.cycle = 0 →
           s.begins cl = true →
       st = (s.cluster cl).store → side = (if w.cf = .fp64 then 64 else 128) → acc = w.acc.toNat → n = fmtBytes w.af →
           w.af ≠ .raw →
       w.cf ∈ [Fmt.int32, .fp32, .fp64] → l = (activeIn m side side).filter (fun e => st.rowOk acc e.1) →
       place = (fun i j => spPlace m.a1 m.a2 0 i (j * n)) →
       (∀ e ∈ l, ∀ f ∈ l, e ≠ f → place e.1 e.2 + n ≤ place f.1 f.2 ∨ place f.1 f.2 + n ≤ place e.1 e.2) →
       r = mapElems (fun k env => encodeF w.af (Rm.ofCode w.rm) (w.cf == .int32)
         (decodeF w.cf (st.accElem w.cf acc (l.getD k (0, 0)).1 (l.getD k (0, 0)).2)) env) (List.range l.length) ⟨m.flags, m.rng⟩ →
       ∃ t, exec (.arrayExecute cl) s = .next t ∧ MxCompleted s t cl m r.2.flags
           ∧ (t.ctx m.core).regs = (s.ctx m.core).regs
         ∧ (∀ k v, (k, v) ∈ r.1 →
             (t.cluster cl).store.sp.getRange (place (l.getD k (0, 0)).1 (l.getD k (0, 0)).2) n = leBytes n v)
         ∧ (∀ x, (∀ e ∈ l, x < place e.1 e.2 ∨ place e.1 e.2 + n ≤ x) → (t.cluster cl).store.sp.get x = st.sp.get x)
         ∧ (t.cluster cl).store.acc = st.acc ∧ (t.cluster cl).store.sums = st.sums ∧ (t.cluster cl).store.atag = st.atag
         ∧ ((∃ e ∈ activeIn m side side, st.rowOk acc e.1 = false) → (s.teamOf m.core).live = true →
           (t.teamOf m.core).consumed = true))
     ∧ (∀ (s : State) (cl : Nat) (m : MxInstr) (w : MWord) (y : Layout) (side acc tm : Nat) (l : List (Nat × Nat))
       (r : List (Nat × Nat) × FEnv) (st : TeamStore) (g : Regs), s.mxHead cl = some m → m.insn = .acpy w →
           m.cycle = 0 →
       s.begins cl = true → st = (s.cluster cl).store → g = (s.ctx m.core).regs →
           side = (if w.cf = .fp64 then 64 else 128) →
       acc = w.acc.toNat → tm = w.aTile.toNat → layoutOf w.af = some y →
       w.cf ∈ [Fmt.int32, .fp32, .fp64] →
       l = (activeIn m (min side y.rows) (min side y.cols)).filter (fun e => st.rowOk acc e.1) →
       r = mapElems (fun k env => encodeF w.af (Rm.ofCode w.rm) (w.cf == .int32)
         (decodeF w.cf (st.accElem w.cf acc (l.getD k (0, 0)).1 (l.getD k (0, 0)).2)) env) (List.range l.length) ⟨m.flags, m.rng⟩ →
       ∃ t u, exec (.arrayExecute cl) s = .next t ∧ MxCompleted s t cl m r.2.flags ∧ (t.cluster cl).store = st
         ∧ u = (t.ctx m.core).regs
         ∧ (∀ k v, (k, v) ∈ r.1 →
             u.m.getRange (tm * 32768 + (l.getD k (0, 0)).1 * y.pitch + (l.getD k (0, 0)).2 * y.width) y.width
           = leBytes y.width v)
         ∧ (∀ b, b < 32768 → (∀ e ∈ l, b < e.1 * y.pitch + e.2 * y.width ∨ e.1 * y.pitch + (e.2 + 1) * y.width ≤ b) →
           u.m.get (tm * 32768 + b) = (if g.mTag tm = w.af then g.m.get (tm * 32768 + b) else 0))
         ∧ (∀ i b, y = .l8 → i < 128 → b < 8 → u.side.get (tm * 1024 + 8 * i + b)
           = (if b < 4
               ∧ (∃ e ∈ l, e.1 = i) then 0x7F else if g.mTag tm = w.af then g.side.get (tm * 1024 + 8 * i + b) else 0))
         ∧ (∀ x, (x < tm * 32768 ∨ tm * 32768 + 32768 ≤ x) → u.m.get x = g.m.get x)
         ∧ u.mTag tm = w.af ∧ (∀ x, x ≠ tm → u.mTag x = g.mTag x) ∧ u.s = g.s ∧ u.v = g.v
         ∧ ((∃ e ∈ activeIn m (min side y.rows) (min side y.cols), st.rowOk acc e.1 = false) →
             (s.teamOf m.core).live = true →
           (t.teamOf m.core).consumed = true))
     ∧ ∀ (s : State) (cl : Nat) (m : MxInstr) (w : MWord) (y : Layout) (side acc : Nat) (st : TeamStore) (v : Nat →
         Nat → FVal),
       s.mxHead cl = some m → m.insn = .acpyin w → m.cycle = 0 → s.begins cl = true → st = (s.cluster cl).store →
       (s.ctx m.core).regs.bad = [] → side = (if w.cf = .fp64 then 64 else 128) → acc = w.acc.toNat →
           layoutOf w.af = some y →
       w.cf ∈ [Fmt.int32, .fp32, .fp64] → v = (fun i j => decodeF w.af (leNat ((s.ctx m.core).regs.m.getRange
         (w.aTile.toNat * 32768 + i * y.pitch + j * y.width) y.width))) →
       ∃ t fl, exec (.arrayExecute cl) s = .next t ∧ MxCompleted s t cl m fl ∧ (t.ctx m.core).regs = (s.ctx m.core).regs
         ∧ (∀ i j old new, i < side → j < side → old = st.accElem w.cf acc i j →
             new = (t.cluster cl).store.accElem w.cf acc i j →
           ((i, j) ∉ activeIn m (min side y.rows) (min side y.cols) → new = old)
           ∧ ((i, j) ∈ activeIn m (min side y.rows) (min side y.cols) →
             (w.cf = .int32 → (new : ℤ) = ((if w.ovw then 0 else (old : ℤ)) + (v i j).toInt) % 2 ^ 32)
             ∧ (w.cf ≠ .int32 → w.ovw = true → new = (encodeF w.cf .rne false (v i j) ⟨0, 0⟩).1)
             ∧ (w.cf ≠ .int32 → w.ovw = false → FmaStep w.cf (v i j) (.ofNat 1) old new)))
         ∧ (∀ a i j, a ≠ acc → i < 128 → j < 128 → (t.cluster cl).store.word a i j = st.word a i j)
         ∧ (t.cluster cl).store.aTag acc = w.cf ∧ (t.cluster cl).store.sp = st.sp)
  ∧ (∀ (s : State) (cl : Nat) (m : MxInstr) (w : MWord) (st : TeamStore) (g : Regs) (off i j k op tt : Nat) (mw : Parcel) (rren : Bool)
       (blk : Nat → Nat) (o : Int) (accv : BitVec 3 → FVal) (src : Nat → FVal) (imm : Nat),
       s.mxHead cl = some m → m.insn = .drun w → s.begins cl = true → (s.cluster cl).array.restart.valid = false →
           m.rep = 0 →
       st = (s.cluster cl).store → g = (s.ctx m.core).regs → st.spBad = [] → g.bad = [] →
       w.cf ∈ [Fmt.fp32, .fp64, .int32] → (w.cf = .fp32 ∨ Rm.ofCode w.rm ≠ .rs) → m.rows = [i] → m.cols = [j] →
       st.rowOk w.acc.toNat i = true → st.rowOk w.acc2.toNat i = true →
       -- the program: one word, a store of x0 in FP32, END
       mw = st.dcs.get w.entry.toNat → w.entry.toNat + 2 < 512 → op = mw.toNat % 64 → op ≤ 20 → mw.toNat / 64 % 8 = 0 →
       imm = mw.toNat / 2 ^ 24 → (micro mw).ok w.cf = true → k ∈ [21, 22, 23] → (k = 23 → w.cf = .fp32) →
       st.dcs.get (w.entry.toNat + 1) = BitVec.ofNat 32 (k + 4 * 2 ^ 24) → st.dcs.get (w.entry.toNat + 2) = 24 →
       -- the block
       off = m.dparam.toNat % 2 ^ 32 → off % 16 = 0 → off + 128 ≤ 0x800000 →
           blk = (fun n => leNat (st.spGet (off + 4 * n) 4)) →
       tt < 8 → blk 27 = (if k = 21 then 4 else 0) + 16 * tt + 512 * rren.toNat → blk 30 = 0 → blk 31 = 0 →
       (k = 22 → g.mTag tt = .raw ∨ g.mTag tt = .fp32) →
       (rren = true → blk 28 % 4 = 0 ∧ blk 28 + 1024 ≤ 0x800000) →
       (∀ x, 10 ≤ x → x < 18 → x ∈ [mw.toNat / 2 ^ 9 % 32, mw.toNat / 2 ^ 14 % 32, mw.toNat / 2 ^ 19 % 32] →
         blk (x - 10) % 4 = 0 ∧ blk (x - 10) + 512 ≤ 0x800000) →
       o = (blk 24 + i * blk 25 : Nat) + (j : Int) * (BitVec.ofNat 32 (blk 26)).toInt →
       (k = 21 → 0 ≤ o ∧ o + 4 ≤ 0x800000 ∧ o % 4 = 0 ∧ (rren = true → o + 4 ≤ blk 28 + 8 * i
           ∨ (blk 28 + 8 * i + 8 : Nat) ≤ o)) →
       -- the sources
       accv = (fun a => if w.cf = .fp32 then decodeF .fp32 (st.accElem .fp32 a.toNat i j)
         else decodeF .fp32 (encodeF .fp32 (Rm.ofCode w.rm) (w.cf == .int32) (decodeF w.cf (st.accElem w.cf a.toNat i j)) ⟨0, 0⟩).1) →
       src = (fun x => if x = 8 then accv w.acc else if x = 9 then accv w.acc2
         else if 10 ≤ x ∧ x < 18 then decodeF .fp32 (leNat (st.spGet (blk (x - 10) + 4 * (if x < 14 then i else j)) 4))
         else if x = 18 then .ofNat i else if x = 19 then .ofNat j else if x = 21 then .ofNat 1
         else if x = 22 then decodeF .fp32 (blk (8 + imm % 16)) else .zero false) →
       ∃ t v rmax rsum fl, exec (.runDrain cl) s = .next t ∧ MxCompleted s t cl m fl
         ∧ drainGives op imm (Rm.ofCode w.rm) (src (mw.toNat / 2 ^ 9 % 32)) (src (mw.toNat / 2 ^ 14 % 32))
           (src (mw.toNat / 2 ^ 19 % 32)) ⟨0, m.rng⟩ v
         ∧ rmax = (if op = 18 then v else 0xFF800000) ∧ rsum = (if op = 19 then v else 0)
         ∧ (k = 21 → (t.cluster cl).store.spGet o.toNat 4 = leBytes 4 v)
         ∧ (rren = true → (t.cluster cl).store.spGet (blk 28 + 8 * i) 8 = leBytes 4 rmax ++ leBytes 4 rsum)
         ∧ (∀ x : Nat, (k = 21 → (x : Int) < o ∨ o + 4 ≤ x) → (rren = true → x < blk 28 + 8 * i
             ∨ blk 28 + 8 * i + 8 ≤ x) →
           (t.cluster cl).store.sp.get x = st.sp.get x)
         ∧ (∀ a y x, y < 128 → x < 128 → (t.cluster cl).store.word a y x
           = if k = 23 ∧ a = w.acc.toNat ∧ y = i ∧ x = j then BitVec.ofNat 32 v else st.word a y x)
         ∧ (k ≠ 22 → (t.ctx m.core).regs = g)
         ∧ (k = 22 → (t.ctx m.core).regs.mTag tt = .fp32
           ∧ (j < 32 → (t.ctx m.core).regs.m.getRange (tt * 32768 + i * 128 + j * 4) 4 = leBytes 4 v)
           ∧ (∀ b, b < 32768 → (j < 32 → b < i * 128 + j * 4 ∨ i * 128 + j * 4 + 4 ≤ b) →
             (t.ctx m.core).regs.m.get (tt * 32768 + b) = (if g.mTag tt = .raw then 0 else g.m.get (tt * 32768 + b)))))
  ∧ ((∀ (s : State) (cl d sel : Nat) (m : MxInstr) (a b : SReg) (e : Agent) (st : TeamStore) (r : Restart), s.mxHead cl = some m →
       m.insn = .msave a b → s.begins cl = true → e = m.agent cl (s.cluster cl).team → st = (s.cluster cl).store →
       r = (s.cluster cl).array.restart → sel = m.a2.toNat % 512 → engPuts s e d m.a1.toNat 0x82000 →
           rangeIn .memory m.a1.toNat 0x82000 = true →
       (∀ t i, t < 8 → sel.testBit t = true → i < 128 → st.rowOk t i = true) →
       ∃ t hb, exec (.arrayExecute cl) s = .next t ∧ MxCompleted s t cl m m.flags ∧ (t.cluster cl).store = st
         ∧ (t.ctx m.core).regs = (s.ctx m.core).regs ∧ hb = (fun k => t.home.mem.get (m.a1.toNat + d + k))
         ∧ leNat ((List.range 4).map hb) = 1 ∧ hb 4 = 0 ∧ (hb 5).toNat = sel % 256 ∧ hb 6 = 0
         ∧ hb 7 = (if sel.testBit 8 && r.valid then 2 else 0)
         ∧ (∀ n, n < 8 → leNat ((List.range 4).map (fun k => hb (8 + k))) / 16 ^ n % 16
           = (if sel.testBit n then (st.aTag n).code.toNat else 0))
         ∧ (∀ k, (12 ≤ k ∧ k < 0x100) ∨ (0x140 ≤ k ∧ k < 0xFE0) ∨ (0x100 ≤ k ∧ k < 0x140 ∧ sel.testBit 8 = false) →
             hb k = 0)
         ∧ (sel.testBit 8 = true →
             ∀ x ∈ [(0, 1, r.valid.toNat), (1, 1, r.cause.toNat), (2, 4, r.num), (6, 1, r.member), (7, 1, r.tile),
             (8, 1, r.pair), (9, 2, r.entry), (11, 1, r.rep), (12, 1, r.row), (13, 1, r.col), (14, 4, r.runMax), (18, 4, r.runSum),
             (22, 8, r.rng.toNat)],
           leNat ((List.range x.2.1).map (fun k => hb (0x100 + x.1 + k))) = x.2.2 % 2 ^ (8 * x.2.1))
         ∧ (∀ n i j, n < 8 → sel.testBit n = true → i < 128 → j < 128 →
           leNat ((List.range 4).map (fun k => hb (0x1000 + n * 0x10200 + 512 * i + 4 * j + k))) = (st.word n i j).toNat
           ∧ leNat ((List.range 4).map (fun k => hb (0x1000 + n * 0x10200 + 0x10000 + 4 * i + k))) = (st.sums.get (n * 128 + i)).toNat)
         ∧ leNat ((List.range 32).map (fun k => hb (0xFE0 + k))) = (Config.hmac ((List.range 0xFE0).map hb
           ++ ((List.range 8).filter sel.testBit).flatMap (fun n => (List.range 0x10200).map (fun k => hb (0x1000 + n * 0x10200 + k))))).toNat
         ∧ ∀ x, (x < m.a1.toNat + d ∨ m.a1.toNat + d + 0x82000 ≤ x) → t.home.mem.get x = s.home.mem.get x)
     ∧ ∀ (s : State) (cl so sel : Nat) (m : MxInstr) (a b : SReg) (e : Agent) (st : TeamStore) (ib : Nat →
         Byte) (good clean : Prop),
       s.mxHead cl = some m → m.insn = .mrstr a b → s.begins cl = true → e = m.agent cl (s.cluster cl).team →
       st = (s.cluster cl).store → sel = m.a2.toNat % 512 → engGets s e so m.a1.toNat 0x82000 →
       rangeIn .memory m.a1.toNat 0x82000 = true → ib = (fun k => engByte s e so (m.a1.toNat + k)) →
       (good ↔ (leNat ((List.range 32).map (fun k => ib (0xFE0 + k))) = (Config.hmac ((List.range 0xFE0).map ib
           ++ ((List.range 8).filter (ib 5).getLsbD).flatMap (fun n => (List.range 0x10200).map (fun k => ib (0x1000 + n * 0x10200 + k))))).toNat
         ∧ leNat ((List.range 4).map ib) = 1)) →
       (clean ↔ (ib 4 = 0 ∧ ib 6 = 0 ∧ (ib 7).getLsbD 0 = false)) →
       ∃ t, exec (.arrayExecute cl) s = .next t ∧ MxCompleted s t cl m m.flags ∧ t.home.mem = s.home.mem
         ∧ (t.ctx m.core).regs = (s.ctx m.core).regs
         ∧ (¬ (good ∧ clean) → (t.cluster cl).store = st ∧ (t.cluster cl).array.restart = (s.cluster cl).array.restart
           ∧ (((s.ctx m.core).timeline .mx).mark = 0 → ((t.ctx m.core).timeline .mx).mark = m.num
             ∧ ((t.ctx m.core).timeline .mx).addr = m.a1
             ∧ ∀ c, (good ↔ c = 14) → (¬ good ↔ c = 13) → ((t.ctx m.core).timeline .mx).fault.toNat
               = 1 + 4 * 3 + 16 * c + 256 * 3 + 2 ^ 32 * (m.num % 2 ^ 32)))
         ∧ (good → clean →
           (∀ n i j, n < 8 → i < 128 → j < 128 → (t.cluster cl).store.word n i j = (if sel.testBit n
             then BitVec.ofNat 32 (leNat ((List.range 4).map (fun k => ib (0x1000 + n * 0x10200 + 512 * i + 4 * j + k)))) else st.word n i j))
           ∧ (∀ n i, n < 8 → i < 128 → (t.cluster cl).store.sums.get (n * 128 + i) = (if sel.testBit n
             then BitVec.ofNat 32 (leNat ((List.range 4).map (fun k => ib (0x1000 + n * 0x10200 + 0x10000 + 4 * i + k))))
             else st.sums.get (n * 128 + i)))
           ∧ (∀ n f, n < 8 → Fmt.ofCode (leNat ((List.range 4).map (fun k => ib (8 + k))) / 16 ^ n % 16) = some f →
             (t.cluster cl).store.aTag n = if sel.testBit n then f else st.aTag n)
           ∧ (t.cluster cl).store.sp = st.sp ∧ (t.cluster cl).store.wb = st.wb
           ∧ (sel.testBit 8 = false → (t.cluster cl).array.restart = (s.cluster cl).array.restart)
           ∧ (sel.testBit 8 = true → ∀ r, r = (t.cluster cl).array.restart → r.valid = (ib 0x100).getLsbD 0
             ∧ r.num = leNat ((List.range 4).map (fun k => ib (0x102 + k))) ∧ r.row = (ib 0x10C).toNat % 128
             ∧ r.col = (ib 0x10D).toNat % 128 ∧ r.runMax = leNat ((List.range 4).map (fun k => ib (0x10E + k)))
             ∧ r.rng.toNat = leNat ((List.range 8).map (fun k => ib (0x116 + k))))))

/-! ### Tasks -/

/-- R310, R312, R314, R317, R327, R328, R330, R331: TCOORD and GRIDID write the fields of the record; YIELD asks for a
swap where a record waits and the team is not resident; SPAWN and JDEC of an uncommitted node within its quota are
held with it; a committed node's SPAWN stands at the tail of its queue, and in its slot of the queue's backing ring
where that is translated (that a slot is the next of the ring for every entry, also those on chip, is log entry 45;
that it is reached through the DTC of the VF's lowest slice is log entry 39), and its JDEC has counted JOIN down. No
register but the destination changes. -/
def Obligations.TaskInstructions : Prop :=
  (∀ (s : State) (d : SReg) (r : List Byte) (x : Nat), r = (s.teamOf s.turn).record →
    x = (if recXspread r then recCoord r - recCoord r % 65536 + (recCoord r % 65536 + (s.ctx s.turn).member) % 65536
      else recCoord r) →
    WritesBreaking (.tcoord d) s d (BitVec.ofNat 64
      (x + 2 ^ 48 * (s.ctx s.turn).member + 2 ^ 50 * recSize r + 2 ^ 52 * recPrio r))
    ∧ WritesBreaking (.gridid d) s d (BitVec.ofNat 64 (recGrid r + 2 ^ 32 * ((s.teamOf s.turn).dnum % 65536)))
    ∧ (((s.teamOf s.turn).resident = true ∨ s.recordWaits (s.core s.turn).team = false) →
        WritesBreaking (.yield d) s d 0)
    ∧ ((s.teamOf s.turn).resident = false → s.recordWaits (s.core s.turn).team = true →
      ∃ t, exec (.yield d) s = .next t ∧ (t.ctx s.turn).rs d = (if d = 0 then 0 else 1)
        ∧ (t.team (s.core s.turn).team).swap = true ∧ (∀ q, q ≠ d → (t.ctx s.turn).rs q = (s.ctx s.turn).rs q)
        ∧ (t.ctx s.turn).pc = (s.ctx s.turn).pc + 4 ∧ t.home = s.home))
  ∧ (∀ (s : State) (a b : SReg) (n pa : Nat) (r : List Byte), rangeIn .memory (s.rs a).toNat 32 = true →
    (s.rs a).toNat % 32 = 0 → (s.rs b).toNat < 16 →
    n = (if (s.rs b).toNat.testBit 3 then (s.rs b).toNat % 8 else sliceOf s.turn) →
    (s.vfOf s.turn).allot.getLsbD n = true → s.breaking.tr s.turn (s.rs a).toNat false 1 = .ok pa →
    (s.core s.turn).linesIn (s.pasidOf s.turn true) ((s.rs a).toNat / 128) ((s.rs a).toNat / 128) = [] →
    s.lineErr (s.secureCore s.turn) (s.core s.turn).team (pa / 128) .read = none →
    r = s.view (s.core s.turn).team pa 32 → recBad r = none →
    ((s.team (s.core s.turn).team).live = true → (s.team (s.core s.turn).team).committed = false →
      s.overflows (s.core s.turn).team none = false → (s.team (s.core s.turn).team).pushes.length < 64 →
      ∃ t, exec (.spawn a b) s = .next t
        ∧ (t.team (s.core s.turn).team).pushes = (s.team (s.core s.turn).team).pushes ++ [.spawn n (s.rs a).toNat r]
        ∧ (t.ctx s.turn).regs = (s.ctx s.turn).regs ∧ (t.ctx s.turn).pc = (s.ctx s.turn).pc + 4
        ∧ t.home.mem = s.home.mem ∧ t.slices = s.slices)
    ∧ ((s.team (s.core s.turn).team).live = true → (s.team (s.core s.turn).team).committed = true →
      ∀ k l sl, k = qkey (s.teamOf s.turn).vf (recPrio r) (recQueue r) → l = (s.slice n).queue k →
      sl = Map.get 0 (s.slice n).qtail k → l.length < (s.vfOf s.turn).qsize →
      ∃ t, exec (.spawn a b) s = .next t
        ∧ (t.slice n).queue k
          = l ++ [{ record := r, addr := (s.rs a).toNat, ring := if l.length < 64 then none else some sl, since := s.time.tick }]
        ∧ Map.get 0 (t.slice n).qtail k = sl + 1
        ∧ (t.ctx s.turn).regs = (s.ctx s.turn).regs ∧ (t.ctx s.turn).pc = (s.ctx s.turn).pc + 4
        ∧ (∀ at_, (s.vfOf s.turn).logQ = [] → (s.vfOf s.turn).ringAt n k sl % 4096 + 32 ≤ 4096 →
          s.translate (.log (s.teamOf s.turn).vf) (s.vfOf s.turn).logSlice
            (s.vfOf s.turn).driverPasid ((s.vfOf s.turn).ringAt n k sl) true = .ok at_ →
          (∀ i, i < 32 → s.lineErr (s.secureSlice (s.vfOf s.turn).logSlice) 0 ((at_ + i) / 128) .part = none) →
          t.peek at_ 32 = r ∧ ∀ x, (x < at_ ∨ at_ + 32 ≤ x) → t.home.mem.get x = s.home.mem.get x)))
  ∧ ∀ (s : State) (a b : SReg) (n pa : Nat), rangeIn .memory (s.rs a).toNat 32 = true →
    (s.rs a).toNat % 32 = 0 → (s.rs b).toNat < 16 →
    n = (if (s.rs b).toNat.testBit 3 then (s.rs b).toNat % 8 else sliceOf s.turn) →
    (s.vfOf s.turn).allot.getLsbD n = true → s.breaking.tr s.turn (s.rs a).toNat true 3 = .ok pa →
    s.lineErr (s.secureCore s.turn) 0 (pa / 128) .part ≠ some .abort →
    ((s.team (s.core s.turn).team).live = true → (s.team (s.core s.turn).team).committed = false →
      s.overflows (s.core s.turn).team none = false → (s.team (s.core s.turn).team).pushes.length < 64 →
      ∃ t, exec (.jdec a b) s = .next t
        ∧ (t.team (s.core s.turn).team).pushes = (s.team (s.core s.turn).team).pushes ++ [.jdec n (s.rs a).toNat pa]
        ∧ (t.ctx s.turn).regs = (s.ctx s.turn).regs ∧ (t.ctx s.turn).pc = (s.ctx s.turn).pc + 4 ∧ t.home = s.home)
    ∧ ((s.team (s.core s.turn).team).live = true → (s.team (s.core s.turn).team).committed = true →
      s.lineErr true 0 ((pa + 16) / 128) .read = none → 1 < s.peekNat (pa + 16) 4 →
      ∃ t, exec (.jdec a b) s = .next t ∧ t.peekNat (pa + 16) 4 = s.peekNat (pa + 16) 4 - 1
        ∧ (∀ x, (x < pa + 16 ∨ pa + 20 ≤ x) → t.home.mem.get x = s.home.mem.get x)
        ∧ (t.ctx s.turn).regs = (s.ctx s.turn).regs ∧ (t.ctx s.turn).pc = (s.ctx s.turn).pc + 4)

/-- R126, R254, R313, R322, R329, R332 to R334, R420: EXIT takes ENGINE_FAULT and reports where a fault mark stands,
BARRIER in a team of several without a CBAR, and waits for what is outstanding. Else the member has ended, and with
the last member of a committed team the team and its hold on the cluster are gone; where the others have executed EXIT
or PDONE, one of them PDONE, the team is to be swapped out. MBWAIT of a resident VF writes the number of the lowest
doorbell bit in its mask and the mailbox's command word, and clears the bit, or waits; MBACK writes the
acknowledgement and signals the host; both take COMMAND_INVALID elsewhere, with the detail 0 outside resident mode and
after their operand's own check (log entry 32). -/
def Obligations.ExitAndMailboxes : Prop :=
  (∀ (s : State) (id : Nat), id = (s.core s.turn).team →
    (∀ tl, (s.ctx s.turn).firstFault = some tl → ∃ u, Traps .exit s u { cause := 0x0A } ∧ u.turn = s.turn
      ∧ (u.ctx s.turn).ctl.engfault = ((s.ctx s.turn).timeline tl).fault ∧ ((u.ctx s.turn).timeline tl).mark = 0)
    ∧ ((s.ctx s.turn).firstFault = none → 1 < (s.team id).size → (s.ctx s.turn).cbar = 0 →
      Traps .exit s s.breaking { cause := 0x0C })
    ∧ ((s.ctx s.turn).firstFault = none → ((s.team id).size ≤ 1 ∨ (s.ctx s.turn).cbar ≠ 0) →
      (s.ctx s.turn).quiet = false → Waits .exit s)
    ∧ ((s.ctx s.turn).firstFault = none → ((s.team id).size ≤ 1 ∨ (s.ctx s.turn).cbar ≠ 0) →
      (s.ctx s.turn).quiet = true → (s.core s.turn).l1 = [] → (s.team id).consumed = false →
      (∃ k ∈ (s.team id).coreList, k ≠ s.turn ∧ (s.memberCtx k id).exited = false) →
      ∃ t, exec .exit s = .next t ∧ (t.core s.turn).running = false ∧ (t.ctx s.turn).exited = true
        ∧ t.team id = (if (s.team id).coreList.all (fun k =>
            k == s.turn || (s.memberCtx k id).coop || (s.memberCtx k id).exited)
          then { s.team id with swap := true, hsc := true } else s.team id)
              ∧ (t.cluster (clusterOf s.turn)).array.lease.holder ≠ some (s.turn % 4)
        ∧ (∀ q, (t.ctx s.turn).rs q = (s.ctx s.turn).rs q) ∧ t.home = s.home)
    ∧ ((s.ctx s.turn).firstFault = none → (s.ctx s.turn).quiet = true → (s.core s.turn).l1 = [] →
      (s.team id).size = 1 → (s.team id).cluster = some (clusterOf s.turn) → s.turn = 4 * clusterOf s.turn →
      (s.team id).live = true → (s.team id).committed = true → (s.team id).consumed = false →
      recRetlog (s.team id).record = false → (s.team id).tt = none → (s.vf (s.team id).vf).ttDone = [] →
      ∃ t, exec .exit s = .next t ∧ t.team id = {} ∧ (t.cluster (clusterOf s.turn)).team = 0
        ∧ (t.cluster (clusterOf s.turn)).array.queue = [] ∧ (t.core s.turn).running = false
        ∧ (t.core s.turn).team = 0 ∧ t.home = s.home))
  ∧ (∀ (s : State) (d a : SReg),
    (s.rs a = 0 → Traps (.mbwait d a) s s.breaking { cause := 0x08, tval := BitVec.ofNat 64 (256 * a.toNat) })
    ∧ (s.rs a ≠ 0 → (s.vfOf s.turn).resident = false → Traps (.mbwait d a) s s.breaking { cause := 0x08 })
    ∧ (s.rs a ≠ 0 → (s.vfOf s.turn).resident = true → (s.vfOf s.turn).doorbell &&& s.rs a = 0 → Waits (.mbwait d a) s)
    ∧ (∀ i pa, (s.vfOf s.turn).resident = true → i < 64 → ((s.vfOf s.turn).doorbell &&& s.rs a).getLsbD i = true →
      (∀ j, j < i → ((s.vfOf s.turn).doorbell &&& s.rs a).getLsbD j = false) →
      s.breaking.mailTr s.turn ((s.vfOf s.turn).word 4 + 256 * i) false = .ok pa → (s.core s.turn).mailLines pa = [] →
      s.lineErr (s.secureCore s.turn) (s.core s.turn).team (pa / 128) .read = none →
      ∃ t, exec (.mbwait d a) s = .next t
        ∧ (t.ctx s.turn).rs d = (if d = 0 then 0
            else BitVec.ofNat 64 (i + 2 ^ 32 * leNat (s.view (s.core s.turn).team pa 4)))
        ∧ (t.vf (s.teamOf s.turn).vf).doorbell = (s.vfOf s.turn).doorbell &&& ~~~(BitVec.ofNat 64 (2 ^ i))
        ∧ (∀ q, q ≠ d → (t.ctx s.turn).rs q = (s.ctx s.turn).rs q) ∧ (t.ctx s.turn).pc = (s.ctx s.turn).pc + 4
        ∧ SameBytes s t))
  ∧ ∀ (s : State) (a b : SReg),
    (64 ≤ (s.rs a).toNat → Traps (.mback a b) s s.breaking { cause := 0x08, tval := BitVec.ofNat 64 (256 * a.toNat) })
    ∧ ((s.rs a).toNat < 64 → (s.vfOf s.turn).resident = false → Traps (.mback a b) s s.breaking { cause := 0x08 })
    ∧ (∀ pa, (s.rs a).toNat < 64 → (s.vfOf s.turn).resident = true →
      s.breaking.mailTr s.turn ((s.vfOf s.turn).word 4 + 256 * (s.rs a).toNat) true = .ok pa →
      ((s.team (s.core s.turn).team).live = false ∨ (s.team (s.core s.turn).team).committed = true) →
      (s.core s.turn).mailLines pa = [] → s.fenceDone s.turn .module = true →
      s.lineErr (s.secureCore s.turn) (s.core s.turn).team (pa / 128) .part = none →
      ∃ t, exec (.mback a b) s = .next t ∧ t.peekNat (pa + 8) 8 = (s.rs b).toNat
        ∧ (∀ x, (x < pa + 8 ∨ pa + 16 ≤ x) → t.home.mem.get x = s.home.mem.get x)
        ∧ t.mgmt.signals = .mailbox (s.teamOf s.turn).vf (s.rs a).toNat :: s.mgmt.signals
        ∧ (t.ctx s.turn).regs = (s.ctx s.turn).regs ∧ (t.ctx s.turn).pc = (s.ctx s.turn).pc + 4)

/-! ### Supersteps -/

/-- What R278 asks of a fabric command of a group: its rank, its window with the range, the rule and the elements, its
operation, its counter, and its reserved bits. -/
def Sys2Proof.Machine.fxFieldsOk (g : StepGroup) (red : Bool) (c : EngCmd) : Prop :=
  let f (g : Word) (lo n : Nat) : Nat := (g.extractLsb' lo n).toNat
  let off := f c.g0 0 38
  let len := f c.g2 0 32
  let op := f c.g2 41 4
  f c.g0 46 18 < g.nrank ∧ (g.chipOf (f c.g0 46 18)).isSome = true
  ∧ (∃ w, g.window (f c.g0 38 8) = some w ∧ off + len ≤ w.size
    ∧ (red = true → w.rule ≠ 5 ∧ w.rule ≠ 6)
    ∧ (red = false → w.rule = 6 → off = 0 ∧ len = 2 ^ w.slotsz)
    ∧ (w.rule = 1 ∨ w.rule = 3 ∨ w.rule = 4 → off % (if w.elem then 8 else 4) = 0 ∧ len % (if w.elem then 8 else 4) = 0)
    ∧ (w.rule = 2 → off % 4 = 0 ∧ len % 4 = 0))
  ∧ (red = true → op ≤ 8 ∧ off % (if op = 1 ∨ op = 2 then 4 else 8) = 0 ∧ len % (if op = 1 ∨ op = 2 then 4 else 8) = 0)
  ∧ (red = false → op = 0)
  ∧ (c.g2.getLsbD 40 = true → ∃ x, g.window (f c.g2 32 8) = some x ∧ f c.g3 0 38 % 8 = 0 ∧ f c.g3 0 38 + 8 ≤ x.size)
  ∧ (c.g2.getLsbD 40 = false → f c.g2 32 8 = 0 ∧ f c.g3 0 38 = 0)
  ∧ f c.g2 45 19 = 0 ∧ f c.g3 38 26 = 0

/-- R113, R277 to R279, R287 to R290, R307, R420: a fabric command whose fields are those R278 asks for, and whose
source is one range that an engine may use, takes the next number of tl.fx and is queued with the task's step; one
with another field takes COMMAND_INVALID, with another source ADDRESS_FAULT. STEPNB arrives and writes the step
arrived at, STEPWT writes the status of a boundary that has passed, takes TIMELINE_AHEAD for a step not arrived at,
and waits otherwise; STEP does both: it arrives once, and then waits for its own step, whatever step the task has come
to since. Without a step group they answer NOT_MEMBER. FXSTAT writes what its selector names; a reserved selector
takes COMMAND_INVALID, a port's in ring U RING_VIOLATION. The model's choice (log entries 31, 38): LEN = 0 skips the
source range; a port's masks join both directions; selectors 1 to 4 without a group, and 2 before a first boundary,
read 0. -/
def Obligations.SuperstepInstructions : Prop :=
  (∀ (s : State) (d a : SReg) (i : Instr) (k : EKind) (c : EngCmd) (n : Nat),
    (i, k) ∈ [(Instr.fxput d a, EKind.fxput), (.fxred d a, .fxred)] → c.kind = k → c.g0 = s.rs (sregAdd a 0) →
    c.g1 = s.rs (sregAdd a 1) → c.g2 = s.rs (sregAdd a 2) → c.g3 = s.rs (sregAdd a 3) →
    n = ((s.ctx s.turn).timeline .fx).issued + 1 →
    ((s.vfOf s.turn).sg = none → Traps i s s.breaking { cause := 0x08, tval := 0x8000 })
    ∧ ∀ g len, (s.vfOf s.turn).sg = some g → len = (c.g2.extractLsb' 0 32).toNat →
      (fxFieldsOk g (k == .fxred) c → (len = 0 ∨ engineMayUse c.g1.toNat len) → ((s.ctx s.turn).queue 3).length < 16 →
        ((s.team (s.core s.turn).team).live = false ∨ (s.team (s.core s.turn).team).committed = true) →
        ∃ t q, exec i s = .next t ∧ (t.ctx s.turn).rs d = (if d = 0 then 0 else BitVec.ofNat 64 n)
          ∧ ((t.ctx s.turn).timeline .fx).issued = n ∧ (t.ctx s.turn).queue 3 = (s.ctx s.turn).queue 3 ++ [q]
          ∧ q.num = n ∧ q.kind = k ∧ q.g0 = c.g0 ∧ q.g1 = c.g1 ∧ q.g2 = c.g2 ∧ q.g3 = c.g3
          ∧ q.step = (s.ctx s.turn).curStep ∧ q.pasid = s.pasidOf s.turn true
          ∧ q.gtag = BitVec.ofNat 64 (s.gtagOf s.turn) ∧ q.prog = 0 ∧ q.moved = false
          ∧ (∀ r, r ≠ d → (t.ctx s.turn).rs r = (s.ctx s.turn).rs r) ∧ (t.ctx s.turn).pc = (s.ctx s.turn).pc + 4
          ∧ SameBytes s t)
      ∧ (¬ fxFieldsOk g (k == .fxred) c → ∃ reg bit e, checkFx (some g) (k == .fxred) c = .error (.invalid reg bit e)
        ∧ Traps i s s.breaking
          { cause := 0x08, tval := BitVec.ofNat 64 (reg + 4 * bit + 256 * (sregAdd a reg).toNat + 16384 * e) })
      ∧ (fxFieldsOk g (k == .fxred) c → ¬ (len = 0 ∨ engineMayUse c.g1.toNat len) →
        Traps i s s.breaking { cause := 0x04, tval := c.g1 }))
  ∧ (∀ (s : State) (d : SReg), (s.vfOf s.turn).sg = none →
    WritesBreaking (.stepnb d) s d (BitVec.allOnes 64)
    ∧ ((s.ctx s.turn).stepWait = none → ∃ t, exec (.step d) s = .next t
      ∧ (t.ctx s.turn).rs d = (if d = 0 then 0 else BitVec.ofNat 64 (256 * (s.ctx s.turn).curStep + 4))
      ∧ (t.ctx s.turn).curStep = (s.ctx s.turn).curStep ∧ (t.ctx s.turn).pc = (s.ctx s.turn).pc + 4
      ∧ (∀ q, q ≠ d → (t.ctx s.turn).rs q = (s.ctx s.turn).rs q)))
  ∧ (∀ (s : State) (d : SReg) (g : StepGroup) (n : Nat), (s.vfOf s.turn).sg = some g → n = (s.ctx s.turn).curStep →
    (n < g.step → g.held = false → ∃ t, exec (.stepnb d) s = .next t
      ∧ (t.ctx s.turn).rs d = (if d = 0 then 0 else BitVec.ofNat 64 n) ∧ (t.ctx s.turn).curStep = n + 1
      ∧ (t.ctx s.turn).arrivals = (s.ctx s.turn).arrivals + 1 ∧ t.vfs = s.vfs ∧ SameBytes s t
      ∧ (∀ q, q ≠ d → (t.ctx s.turn).rs q = (s.ctx s.turn).rs q) ∧ (t.ctx s.turn).pc = (s.ctx s.turn).pc + 4)
    ∧ (n = g.step → g.held = false → g.bst = .opened → g.arrived + 1 < g.quorum →
      (∃ t, exec (.stepnb d) s = .next t
        ∧ (t.ctx s.turn).rs d = (if d = 0 then 0 else BitVec.ofNat 64 n) ∧ (t.ctx s.turn).curStep = n + 1
        ∧ (t.vf (s.teamOf s.turn).vf).sg = some { g with arrived := g.arrived + 1 } ∧ SameBytes s t
        ∧ (t.ctx s.turn).pc = (s.ctx s.turn).pc + 4)
      ∧ ((s.ctx s.turn).stepWait = none → ∃ t, exec (.step d) s = .next t
        ∧ (t.vf (s.teamOf s.turn).vf).sg = some { g with arrived := g.arrived + 1 } ∧ (t.ctx s.turn).curStep = n + 1
        ∧ (t.ctx s.turn).stepWait = some n ∧ (t.ctx s.turn).regs = (s.ctx s.turn).regs
        ∧ (t.ctx s.turn).pc = (s.ctx s.turn).pc ∧ SameBytes s t))
    ∧ ((g.step < n ∨ g.held = true) →
      Waits (.stepnb d) s ∧ ((s.ctx s.turn).stepWait = none → Waits (.step d) s))
    ∧ ∀ m, (s.ctx s.turn).stepWait = some m →
      (m < g.step → ∃ t, exec (.step d) s = .next t
        ∧ (t.ctx s.turn).rs d = (if d = 0 then 0
            else BitVec.ofNat 64 (256 * m + ((g.codes.find? (·.1 == m)).map (·.2)).getD 5))
        ∧ (∀ w ∈ (t.ctx s.turn).steps, w.ring ≠ (s.ctx s.turn).ring) ∧ (t.ctx s.turn).curStep = n
        ∧ (∀ q, q ≠ d → (t.ctx s.turn).rs q = (s.ctx s.turn).rs q) ∧ (t.ctx s.turn).pc = (s.ctx s.turn).pc + 4)
      ∧ (g.step ≤ m → Waits (.step d) s))
  ∧ (∀ (s : State) (d a : SReg),
    ((s.ctx s.turn).curStep ≤ (s.rs a).toNat → Traps (.stepwt d a) s s.breaking { cause := 0x0B, tval := s.rs a })
    ∧ (∀ g, (s.vfOf s.turn).sg = some g → (s.rs a).toNat < (s.ctx s.turn).curStep → (s.rs a).toNat < g.step →
      WritesBreaking (.stepwt d a) s d (BitVec.ofNat 64
        (256 * (s.rs a).toNat + ((g.codes.find? (·.1 == (s.rs a).toNat)).map (·.2)).getD 5)))
    ∧ (∀ g, (s.vfOf s.turn).sg = some g → (s.rs a).toNat < (s.ctx s.turn).curStep → g.step ≤ (s.rs a).toNat →
      Waits (.stepwt d a) s)
    ∧ ((s.vfOf s.turn).sg = none → (s.rs a).toNat < (s.ctx s.turn).curStep →
      WritesBreaking (.stepwt d a) s d (BitVec.ofNat 64 (256 * (s.rs a).toNat + 4))))
  ∧ ∀ (s : State) (d a : SReg) (g : StepGroup),
    (s.rs a = 0 → WritesBreaking (.fxstat d a) s d (BitVec.ofNat 64 (s.ctx s.turn).curStep))
    ∧ (s.rs a = 1 → (s.vfOf s.turn).sg = some g →
      WritesBreaking (.fxstat d a) s d (BitVec.ofNat 64 (256 * g.step + g.bst.code)))
    ∧ (s.rs a = 2 → (s.vfOf s.turn).sg = some g → WritesBreaking (.fxstat d a) s d (if g.step = 0 then 0
      else BitVec.ofNat 64 (256 * (g.step - 1) + ((g.codes.find? (·.1 == g.step - 1)).map (·.2)).getD 5)))
    ∧ (s.rs a = 3 → (s.vfOf s.turn).sg = some g → WritesBreaking (.fxstat d a) s d (BitVec.ofNat 64 g.rank))
    ∧ (s.rs a = 4 → (s.vfOf s.turn).sg = some g → WritesBreaking (.fxstat d a) s d (BitVec.ofNat 64 g.nrank))
    ∧ ((s.rs a).toNat ∈ [1, 2, 3, 4] → (s.vfOf s.turn).sg = none → WritesBreaking (.fxstat d a) s d 0)
    ∧ (∀ n v, (n, v) ∈ [(5, s.retryBytes), (6, ((s.vfOf s.turn).outs.map (·.2.unacked.length)).sum),
        (7, (s.vfOf s.turn).failovers), (8, (s.vfOf s.turn).withheldW)] → (s.rs a).toNat = n →
      WritesBreaking (.fxstat d a) s d (BitVec.ofNat 64 (min v (2 ^ 64 - 1))))
    ∧ (∀ p c x, p < 8 → c < 16 → x = s.port p →
      ((s.rs a).toNat = 0x100 + 16 * p + c → (s.ctx s.turn).ring ≠ .u →
        (c = 0 → ∃ v : Word, WritesBreaking (.fxstat d a) s d v ∧ ∀ l, l < 16 →
          v.getLsbD l = (x.rx.active.getLsbD l && x.tx.active.getLsbD l)
          ∧ v.getLsbD (16 + l) = (x.rx.parked.getLsbD l || x.tx.parked.getLsbD l)
          ∧ v.getLsbD (32 + l) = (x.rx.training.getLsbD l || x.tx.training.getLsbD l)
          ∧ v.getLsbD (48 + l) = (x.rx.failed.getLsbD l || x.rx.dark.getLsbD l || x.tx.failed.getLsbD l || x.tx.dark.getLsbD l))
        ∧ (∀ v, (c, v) ∈ [(1, x.uncorr), (2, x.replays), (3, x.retrains), (4, x.losses)] →
          WritesBreaking (.fxstat d a) s d (BitVec.ofNat 64 (min v (2 ^ 64 - 1))))
        ∧ (c = 5 → WritesBreaking (.fxstat d a) s d (if x.up then 1 else 0)))
      ∧ ((s.rs a).toNat = 0x200 + 16 * p + c → (s.ctx s.turn).ring ≠ .u →
        WritesBreaking (.fxstat d a) s d (BitVec.ofNat 64 (min (Map.get 0 x.berLast c) (2 ^ 64 - 1))))
      ∧ (((s.rs a).toNat = 0x200 + 16 * p + c ∨ (c ≤ 5 ∧ (s.rs a).toNat = 0x100 + 16 * p + c)) →
          (s.ctx s.turn).ring = .u →
        Traps (.fxstat d a) s s.breaking { cause := 0x02 })
      ∧ (6 ≤ c → (s.rs a).toNat = 0x100 + 16 * p + c →
        Traps (.fxstat d a) s s.breaking { cause := 0x08, tval := BitVec.ofNat 64 (256 * a.toNat) }))
    ∧ ((9 ≤ (s.rs a).toNat ∧ (s.rs a).toNat < 0x100) ∨ (0x180 ≤ (s.rs a).toNat ∧ (s.rs a).toNat < 0x200)
        ∨ 0x280 ≤ (s.rs a).toNat →
      Traps (.fxstat d a) s s.breaking { cause := 0x08, tval := BitVec.ofNat 64 (256 * a.toNat) })

/-! ### Events: translation and memory -/

/-- R366, R367, R369, R370: a translation completion that grants what its request asked for is cached under the
returned range and ends the request; one without a grant brings a page request, or refuses every waiter where the page
was asked for before or the PASID may not ask; an error completion refuses every waiter. A page response of success
has the translation asked for again, any other refuses, and a failure also stops the PASID's page requests until ring
H allows them again, in a secure slice by a secure master (R9, R396, R406; that this register belongs to the slice's
block, and which master is secure, is log entry 36). An invalidation leaves no cached translation that overlaps its
range, and answers. -/
def Obligations.TranslationEvents : Prop :=
  (∀ (s : State) (n pasid page lg pa : Nat) (write rd wr : Bool) (q : AtsReq),
    (s.slice n).ats.find? (fun q => q.same pasid page write && !q.pri) = some q →
    ((if write then wr else rd) = true →
        ∃ t, exec (.atsCompletion n pasid page write (.granted lg pa rd wr)) s = .next t
      ∧ t.dtcHit n pasid (page * 4096) write = some (pa + page * 4096 % 2 ^ max lg 12)
      ∧ (t.slice n).ats.any (·.same pasid page write) = false ∧ (t.slice n).refused = (s.slice n).refused
      ∧ t.home = s.home ∧ t.cores = s.cores)
    ∧ ((if write then wr else rd) = false → q.again = false → (s.slice n).priOff.contains pasid = false →
      ∃ t, exec (.atsCompletion n pasid page write (.granted lg pa rd wr)) s = .next t
        ∧ { q with pri := true } ∈ (t.slice n).ats ∧ (t.slice n).refused = (s.slice n).refused ∧ t.home = s.home)
    ∧ ((if write then wr else rd) = false → (q.again = true ∨ (s.slice n).priOff.contains pasid = true) →
      ∃ t, exec (.atsCompletion n pasid page write (.granted lg pa rd wr)) s = .next t
        ∧ (t.slice n).refused = (s.slice n).refused ++ q.waiters.map (fun r => ⟨r, pasid, page, write⟩)
        ∧ (t.slice n).ats.any (·.same pasid page write) = false)
    ∧ (∀ r ∈ [AtsReply.unsupported, .completerAbort], ∃ t, exec (.atsCompletion n pasid page write r) s = .next t
        ∧ (t.slice n).refused = (s.slice n).refused ++ q.waiters.map (fun r => ⟨r, pasid, page, write⟩)
        ∧ (t.slice n).ats.any (·.same pasid page write) = false ∧ (t.slice n).dtc = (s.slice n).dtc ∧ t.home = s.home))
  ∧ (∀ (s : State) (n pasid page : Nat) (write : Bool) (q : AtsReq),
    (s.slice n).ats.find? (fun q => q.same pasid page write && q.pri) = some q →
    (∃ t, exec (.pageResponse n pasid page write .success) s = .next t
      ∧ { q with pri := false, again := true } ∈ (t.slice n).ats ∧ (t.slice n).refused = (s.slice n).refused)
    ∧ (∀ r ∈ [PriResp.invalid, .failure], ∃ t, exec (.pageResponse n pasid page write r) s = .next t
      ∧ (t.slice n).refused = (s.slice n).refused ++ q.waiters.map (fun r => ⟨r, pasid, page, write⟩)
      ∧ (t.slice n).ats.any (·.same pasid page write) = false
      ∧ (r = .failure → pasid ∈ (t.slice n).priOff) ∧ (r = .invalid → (t.slice n).priOff = (s.slice n).priOff)))
  ∧ (∀ (s : State) (pasid base len : Nat), ∃ t, exec (.atsInvalidate pasid base len) s = .next t
    ∧ t.mgmt.signals.head? = some (.invalidateDone pasid)
    ∧ ((∀ k, (s.core k).l1 = []) → 0 < len → ∀ n, n < 8 →
        (t.slice n).dtc = (s.slice n).dtc.filter (fun e => !(e.pasid == pasid && rangesMeet e.va (2 ^ e.lg) base len)))
    ∧ ((∀ k, (s.core k).l1 = []) → t.home = s.home))
  ∧ ∀ (s : State) (m : Master) (n pasid : Nat),
    (s.mayWrite m n = true → ∃ t, exec (.priReenable ⟨m, n⟩ pasid) s = .next t
      ∧ pasid ∉ (t.slice n).priOff ∧ (∀ p, p ≠ pasid → (p ∈ (t.slice n).priOff ↔ p ∈ (s.slice n).priOff))
      ∧ (t.slice n).dtc = (s.slice n).dtc)
    ∧ (s.mayWrite m n = false → exec (.priReenable ⟨m, n⟩ pasid) s = .next s)

/-- R66, R74, R75, R79, R99, R270, R385, R386: a line read from DRAM or the MSC stands in L2 with its dirty state, but
a withheld one is not filled; evicted from L2 it stands in the MSC, from the MSC or the write queue in DRAM, and its
bytes stay. A dirty line found uncorrectable enters its stack's table of withheld lines, with the error interrupt, and
DRAM keeps what it held. A host write inside a line is committed at once, one of a whole withheld line in DRAM; a host
read returns committed bytes; an address that answers neither changes nothing. MEMSPLIT takes a width of at most 36
until it is locked, and every byte then stands at the address of its cell of its stack. Log entry 37: a width of 37 to
63 leaves WIDE alone and its LOCK acts, and bytes keep their cells; log entry 36: MEMSPLIT belongs to the management
block. -/
def Obligations.MemoryEvents : Prop :=
  (∀ (s : State) (pa : Nat) (d : Bool), (decodePA s.home.wide pa).isSome = true →
    (s.home.placeOf (pa / 128) = .dram → ∃ t, exec (.dramRead pa false) s = .next t
      ∧ t.home.placeOf (pa / 128) = (if s.home.isWithheld (pa / 128) = true then .dram else .l2 false)
      ∧ pa / 128 ∉ t.home.dramBad ∧ t.home.mem = s.home.mem)
    ∧ (s.home.placeOf (pa / 128) = .dram → ∃ t, exec (.dramRead pa true) s = .next t
      ∧ pa / 128 ∈ t.home.dramBad ∧ t.home.placeOf (pa / 128) = .dram ∧ t.home.mem = s.home.mem)
    ∧ (s.home.placeOf (pa / 128) = .msc d → ∃ t, exec (.dramRead pa false) s = .next t
      ∧ t.home.placeOf (pa / 128) = (if s.home.isWithheld (pa / 128) = true then .msc d else .l2 d)
          ∧ t.home.mem = s.home.mem)
    ∧ (s.home.placeOf (pa / 128) = .msc false → ∃ t, exec (.dramRead pa true) s = .next t
      ∧ pa / 128 ∈ t.home.mscBad ∧ t.home.mem = s.home.mem))
  ∧ (∀ (s : State) (line : Nat) (d : Bool),
    (s.home.placeOf line = .l2 d → (s.teams.any (fun e => e.2.live && e.2.stages line)) = false →
      ∃ t, exec (.l2Evict line false) s = .next t ∧ t.home.placeOf line = .msc d ∧ t.home.mem = s.home.mem)
    ∧ (s.home.placeOf line = .msc d → ∃ t, exec (.mscEvict line false) s = .next t
      ∧ t.home.placeOf line = .dram ∧ t.home.mem = s.home.mem)
    ∧ (s.home.placeOf line = .wq → ∃ t, exec (.writeQueueFlush line false) s = .next t
      ∧ t.home.placeOf line = .dram ∧ t.home.mem = s.home.mem))
  ∧ (∀ (s : State) (line st ch sl : Nat) (i : Instr), decodePA s.home.wide (line * 128) = some (st, ch, sl) →
    (Map.get [] s.home.withheld st).length < 256 → s.mgmt.errbase = 0 →
    ((s.home.placeOf line = .msc true ∧ (decodePA s.home.wide (128 * line)).isSome = true
        ∧ i ∈ [Instr.mscEvict line true, .dramRead (128 * line) true])
      ∨ (s.home.placeOf line = .wq ∧ i = .writeQueueFlush line true)
      ∨ (s.home.placeOf line = .l2 true ∧ (s.teams.any (fun e => e.2.live && e.2.stages line)) = false
        ∧ i = .l2Evict line true)) →
    ∃ t, exec i s = .next t ∧ line ∈ Map.get [] t.home.withheld st ∧ t.mgmt.signals = .errorIrq sl :: s.mgmt.signals
      ∧ (∀ x, x / 128 ≠ line → t.home.mem.get x = s.home.mem.get x)
      ∧ (∀ x, x / 128 = line → t.home.mem.get x = s.home.old.get x) ∧ t.home.placeOf line = .dram)
  ∧ (∀ (s : State) (pasid pa : Nat) (data : List Byte), data ≠ [] → (pa + data.length - 1) / 128 = pa / 128 →
    (s.team 0).live = false →
    (s.lineErr false 0 (pa / 128) (if 128 ≤ data.length then .full else .part) = none →
      ∃ t, exec (.hostPcieWrite ⟨pasid, pa⟩ data) s = .next t
        ∧ (∀ i, i < data.length → t.home.mem.get (pa + i) = data.getD i 0)
        ∧ (∀ x, (x < pa ∨ pa + data.length ≤ x) → t.home.mem.get x = s.home.mem.get x)
        ∧ t.home.placeOf (pa / 128) = (if 128 ≤ data.length ∧ s.home.isWithheld (pa / 128) = true then .dram
          else if s.home.placeOf (pa / 128) = .wq then .wq else .l2 true) ∧ t.cores = s.cores)
    ∧ (s.lineErr false 0 (pa / 128) (if 128 ≤ data.length then .full else .part) = some .abort →
      exec (.hostPcieWrite ⟨pasid, pa⟩ data) s = .next s))
  ∧ (∀ (s : State) (pasid pa n l : Nat),
    (s.readErr false 0 pa n = none → ∃ t, exec (.hostPcieRead ⟨pasid, pa⟩ n) s = .next t
      ∧ t.mgmt.signals = .hostReply (some (s.peek pa n)) :: s.mgmt.signals ∧ t.home.mem = s.home.mem)
    ∧ (s.readErr false 0 pa n = some (l, .abort) → ∃ t, exec (.hostPcieRead ⟨pasid, pa⟩ n) s = .next t
      ∧ t.mgmt.signals = .hostReply none :: s.mgmt.signals ∧ t.home = s.home))
  ∧ ∀ (s : State) (m : Master) (v : Word),
    ((s.home.splitLock = true ∨ s.mayWrite m 24 = false) → ∃ t, exec (.memsplitWrite ⟨m, v⟩) s = .next t
        ∧ t.home = s.home)
    ∧ (s.home.splitLock = false → s.mayWrite m 24 = true → ∃ t, exec (.memsplitWrite ⟨m, v⟩) s = .next t
      ∧ t.home.wide = (if v.toNat % 64 ≤ 36 then v.toNat % 64 else s.home.wide) ∧ t.home.splitLock = v.getLsbD 8
      ∧ (t.home.wide = s.home.wide → t.home.mem = s.home.mem)
      ∧ (s.memOk = true → s.home.wide ≤ 36 → (∀ e ∈ s.home.mem, (cellOf s.home.wide e.1).isSome = true) →
        ∀ a c, cellOf s.home.wide a = some c → t.home.mem.get (paOfCell t.home.wide c) = s.home.mem.get a))

/-! ### Events: the dispatcher -/

/-- The step of a record of the launch ring, of the time-triggered table, and of a queue to a cluster. R312, R313,
R315, R317 to R320, R323, R354, R357, R371: the ring's oldest record joins the tail of its queue and RI rises; a
doorbell serves the ring until it is empty; a due table entry that is not busy pushes its record and moves NEXT on by
its period. Dispatch gives an idle cluster the record of the queue that comes next, a new node with its number, and
every member a context that begins at CODE with s1 to s4 from the record; a swapped record's contexts and array work
come back from its save block, and so does the 0 of the PDONE that ended it. The banks of a cluster's idle cores
exchange roles together. The record of a queue that has waited longest moves one class up where that queue has room. A
team whose quantum ends leaves where a record waits, and is saved in a free entry of the swap table, as soon as its
members may be saved and no row of its accumulators fails its checksum (R146). The model's choices here are those of
log entry 45: the slot of an entry's backing ring, the tick that an entry's wait counts from, and that an entry its
ring gives back altered is checked like a new one; and of log entry 47: what a cluster keeps for its next team. -/
def Obligations.DispatchEvents : Prop :=
  (∀ (u u1 u2 : State) (vf sl rot pa k : Nat) (hd r : List Byte),
    u.dispRead vf ((u.vf vf).word 1) 16 = .ok (u1, hd) →
    (leNat (hd.take 8) + 2 ^ 64 - leNat (hd.drop 8)) % 2 ^ 64 ≠ 0 →
    (leNat (hd.take 8) + 2 ^ 64 - leNat (hd.drop 8)) % 2 ^ 64 ≤ (u.vf vf).word 2 % 2 ^ 32 →
    (u.vf vf).launchSlice = some (sl, rot) →
    u1.dispRead vf ((u.vf vf).word 1 + 128 + leNat (hd.drop 8) % ((u.vf vf).word 2 % 2 ^ 32) * 32) 32 = .ok (u2, r) →
    u2.dispPlace vf ((u.vf vf).word 1 + 8) = .ok pa → recBad r = none → k = qkey vf (recPrio r) (recQueue r) →
    ((u.slice sl).queue k).length < (u.vf vf).qsize →
    ∃ w, u.ringNext vf = .pushed w
      ∧ (w.slice sl).queue k = (u.slice sl).queue k ++ [{
          record := r
          addr := (u.vf vf).word 1 + 128 + leNat (hd.drop 8) % ((u.vf vf).word 2 % 2 ^ 32) * 32
          ring := if ((u.slice sl).queue k).length < 64 then none else some (Map.get 0 (u.slice sl).qtail k)
          since := u2.time.tick }]
      ∧ w.peekNat pa 8 = (leNat (hd.drop 8) + 1) % 2 ^ 64 ∧ (w.vf vf).rotate = rot)
  ∧ (∀ (s u : State) (vf : Nat), u = (((s.wakeVf vf).onVf vf (fun v => { v with rung := true })).settleMode vf).ttSettle vf →
    ((u.vf vf).resident = true →
      exec (.launchDoorbell vf) s = .next (u.onVf vf (fun v => { v with rung := false })))
    ∧ ((u.vf vf).resident = false → (u.vf vf).descOk = false ∨ u.launchParked vf = true →
      exec (.launchDoorbell vf) s = .next u)
    ∧ (∀ w, (u.vf vf).resident = false → (u.vf vf).descOk = true → u.launchParked vf = false →
        u.ringNext vf = .empty w →
      ∃ t, exec (.launchDoorbell vf) s = .next t ∧ (t.vf vf).rung = false ∧ (t.vf vf).lstate = 0 ∧ t.home = w.home
        ∧ t.slices = w.slices)
    ∧ (∀ w x, (u.vf vf).resident = false → (u.vf vf).descOk = true → u.launchParked vf = false →
        u.ringNext vf = .pushed w →
      (w.onVf vf (fun v => { v with lstate := 0, lreason := 0 })).ringNext vf = .empty x →
      ∃ t, exec (.launchDoorbell vf) s = .next t ∧ (t.vf vf).rung = false ∧ t.home = x.home ∧ t.slices = x.slices))
  ∧ (∀ (s u u1 u2 : State) (vf ix pa k f : Nat) (e r : List Byte), u = (s.settleMode vf).ttSettle vf →
    (u.vf vf).resident = false → (u.vf vf).descOk = true → (u.vf vf).word 3 ≠ 0 → u.time.ptpns ≠ 0 → ix < 256 →
    (u.vf vf).lstate ≠ 2 → u.launchParked vf = false → u.dispRead vf ((u.vf vf).word 3 + 32 * ix) 32 = .ok (u1, e) →
    u1.dispPlace vf ((u.vf vf).word 3 + 32 * ix) = .ok pa → f = ttFlags e → e.length = 32 →
    ((f.testBit 0 = false ∨ u.time.ptpns.toNat < leNat (e.take 8)) → ∃ t, exec (.timeTableRelease vf ix) s = .next t
      ∧ t.home = u1.home ∧ t.slices = u1.slices)
    ∧ (f.testBit 0 = true → leNat (e.take 8) ≤ u.time.ptpns.toNat → f.testBit 3 = false →
      u1.dispRead vf (leNat ((e.drop 16).take 8)) 32 = .ok (u2, r) → recBad r = none →
      k = qkey vf (recPrio r) (recQueue r) →
      ((u.slice ((e.getD 25 0).toNat % 8)).queue k).length < (u.vf vf).qsize →
      ∃ t, exec (.timeTableRelease vf ix) s = .next t
        ∧ (t.slice ((e.getD 25 0).toNat % 8)).queue k = (u.slice ((e.getD 25 0).toNat % 8)).queue k
          ++ [{ record := r, addr := leNat ((e.drop 16).take 8), tt := some ix
                ring := if ((u.slice ((e.getD 25 0).toNat % 8)).queue k).length < 64 then none
                  else some (Map.get 0 (u.slice ((e.getD 25 0).toNat % 8)).qtail k)
                since := u2.time.tick }]
        ∧ (t.vf vf).lstate = 0
        ∧ leNat (t.peek pa 8) = (leNat (e.take 8) + leNat ((e.drop 8).take 8)) % 2 ^ 64
        ∧ (t.home.mem.get (pa + 24)).toNat = (if leNat ((e.drop 8).take 8) = 0 then (f ||| 8) - (f ||| 8) % 2 else f ||| 8)))
  ∧ (∀ (s r u : State) (slice vf cl k i : Nat) (e : QEnt), r = s.settleMode vf → (r.vf vf).descOk = true →
    r.pickCluster slice vf = some cl → r.nextQueue cl vf 0 = some (k, i) →
    ((r.slice (sliceOfCluster cl)).queue k)[i]? = some e → e.resident = false →
    (∀ (x : QEnt) n, r.readEntry vf (sliceOfCluster cl) k e = .ok (u, x) → x.record ≠ e.record →
        recHandle x.record = none →
      recBad x.record = some n → exec (.dispatch slice vf) s = .next
        ((u.takeEntry cl k i).dispatchFault vf x.addr n (sliceOfCluster cl) 5 (recGrid x.record)))
    ∧ (r.readEntry vf (sliceOfCluster cl) k e = .ok (u, e) → recHandle e.record = none →
      ∃ t, exec (.dispatch slice vf) s = .next t
      ∧ (t.cluster cl).team = u.nextTeam ∧ t.nextTeam = u.nextTeam + 1
      ∧ (t.slice (sliceOfCluster cl)).queue k = ((r.slice (sliceOfCluster cl)).queue k).eraseIdx i
      ∧ (t.team u.nextTeam).live = true ∧ (t.team u.nextTeam).record = e.record ∧ (t.team u.nextTeam).vf = vf
      ∧ (t.team u.nextTeam).cluster = some cl ∧ (t.team u.nextTeam).committed = false
      ∧ (t.team u.nextTeam).dnum = (u.slice (sliceOfCluster cl)).nextDnum
      ∧ (t.slice (sliceOfCluster cl)).nextDnum = (u.slice (sliceOfCluster cl)).nextDnum + 1
      ∧ ∀ m, m ≤ recSize e.record → ∃ c, (t.core (4 * cl + m)).shadow = some c ∧ c.ring = .u ∧ c.member = m
          ∧ c.ctl.d.status = 0
        ∧ c.pc = BitVec.ofNat 64 (recCode e.record) ∧ c.rs 1 = BitVec.ofNat 64 (recFrame e.record)
        ∧ c.rs 2 = BitVec.ofNat 64 (recCoordOf e.record m) ∧ c.rs 3 = BitVec.ofNat 64 (recGrid e.record)
        ∧ c.rs 4 = BitVec.ofNat 64 m)
    ∧ (∀ h b v w x, r.readEntry vf (sliceOfCluster cl) k e = .ok (v, e) → recHandle e.record = some h →
      h < (v.slice (sliceOfCluster cl)).swapLen →
      (v.takeEntry cl k i).devGet ⟨v.secureSlice (sliceOfCluster cl), 0xFF, 10, 0⟩
        ((v.slice (sliceOfCluster cl)).swapAt h) 32 = (u, some x) →
      (u.swapEnt (sliceOfCluster cl) h).valid = true → (u.swapEnt (sliceOfCluster cl) h).vf = vf →
      (u.swapEnt (sliceOfCluster cl) h).dnum = leNat ((e.record.drop 8).take 8) →
      Map.get 0 (u.slice (sliceOfCluster cl)).swaps h ≠ 0 →
      (u.team (Map.get 0 (u.slice (sliceOfCluster cl)).swaps h)).saved = some b →
      u.peekNat ((u.swapEnt (sliceOfCluster cl) h).block + nonceAt) 8 = (u.swapEnt (sliceOfCluster cl) h).nonce →
      u.savedBad (Map.get 0 (u.slice (sliceOfCluster cl)).swaps h) (some (u.swapEnt (sliceOfCluster cl) h).block)
        = (w, none) →
      ∃ t, exec (.dispatch slice vf) s = .next t
        ∧ (t.cluster cl).team = Map.get 0 (u.slice (sliceOfCluster cl)).swaps h
        ∧ (t.team (Map.get 0 (u.slice (sliceOfCluster cl)).swaps h)).cluster = some cl
        ∧ (t.team (Map.get 0 (u.slice (sliceOfCluster cl)).swaps h)).saved = none
        ∧ (t.cluster cl).store = b.store
            ∧ (t.cluster cl).array.queue = b.queue.map (fun m => { m with core := 4 * cl + m.member })
        ∧ (t.cluster cl).array.seen = b.seen ∧ (t.cluster cl).array.replay = b.queue.length
            ∧ (t.cluster cl).array.restart = b.restart
        ∧ (t.cluster cl).array.reading = b.reading ∧ (t.cluster cl).array.halt = false
        ∧ ∀ m c, b.ctxs[m]? = some c →
          (t.core (4 * cl + m)).shadow = some { (match c.pdoneD with | some d => c.setS d 0 | none => c) with
            coop := false, forced := false, pdone := 0, pdoneD := none }))
  ∧ (∀ (s : State) (core : Nat) (x : Ctx), (s.core core).shadow = some x → (s.core core).running = false →
    (s.cluster (clusterOf core)).team ≠ 0 → (∀ k, (s.core k).l1 = []) →
    ∃ t, exec (.bankSwitch core) s = .next t ∧ t.home = s.home
      ∧ (∀ k y, clusterOf k = clusterOf core → (s.core k).shadow = some y → (s.core k).running = false →
        t.ctx k = { y with aborts := [] } ∧ (t.core k).shadow = none ∧ (t.core k).running = !y.exited
        ∧ (t.core k).abort = y.aborts.head? ∧ (t.core k).team = (s.cluster (clusterOf core)).team)
      ∧ ∀ k, clusterOf k ≠ clusterOf core → t.core k = s.core k)
  ∧ (∀ (s u : State) (slice vf prio queue i : Nat) (e : QEnt), prio < 3 → queue < 4 →
    ((s.slice slice).queue (qkey vf prio queue))[i]? = some e →
    (∀ x ∈ (s.slice slice).queue (qkey vf prio queue), e.since ≤ x.since) →
    (∀ j x, j < i → ((s.slice slice).queue (qkey vf prio queue))[j]? = some x → e.since < x.since) →
    ((s.slice slice).queue (qkey vf (prio + 1) queue)).length < (s.vf vf).qsize →
    s.readEntry vf slice (qkey vf prio queue) e = .ok (u, e) →
    ∃ t, exec (.recordAging slice vf prio queue) s = .next t
      ∧ (t.slice slice).queue (qkey vf prio queue) = ((s.slice slice).queue (qkey vf prio queue)).eraseIdx i
      ∧ (t.slice slice).queue (qkey vf (prio + 1) queue) = (s.slice slice).queue (qkey vf (prio + 1) queue)
        ++ [{ e with ring := if ((s.slice slice).queue (qkey vf (prio + 1) queue)).length < 64 then none
                else some (Map.get 0 (s.slice slice).qtail (qkey vf (prio + 1) queue)), since := u.time.tick }])
  ∧ (∀ (s : State) (cl : Nat), (s.cluster cl).team ≠ 0 →
    ((s.team (s.cluster cl).team).resident = false → s.recordWaits (s.cluster cl).team = true →
      ∃ t, exec (.quantumExpiry cl) s = .next t ∧ (t.team (s.cluster cl).team).swap = true ∧ t.cores = s.cores)
    ∧ ((s.team (s.cluster cl).team).resident = true ∨ s.recordWaits (s.cluster cl).team = false →
      exec (.quantumExpiry cl) s = .next s))
  ∧ ∀ (s : State) (cl id h : Nat), id = (s.cluster cl).team → id ≠ 0 → (s.team id).swap = true →
    (s.team id).consumed = false → s.saveable cl = true → (∀ k, (s.core k).l1 = []) →
    s.freeHandle (s.team id).slice = some h → ((s.stopArray cl).cluster cl).store.rowsBad = false →
    ∃ t b, exec (.swapOut cl) s = .next t ∧ (t.cluster cl).team = 0 ∧ (t.team id).cluster = none
      ∧ (t.team id).saved = some b ∧ b.overrun = false ∧ b.frozen = false
      ∧ ((s.cluster cl).array.queue = [] → b.block = some (s.swapEnt (s.team id).slice h).block)
      ∧ b.ctxs.length = (s.team id).coreList.length
      ∧ (∀ m, m < 4 → (t.core (4 * cl + m)).running = false ∧ (t.core (4 * cl + m)).team = 0)

/-- R317, R322, R335, R349 to R353, R372: at the end of a time slice every core of the slice that runs the VF receives
its request, with the budget of ctl.pbudget and PREEMPT pending; a halted one keeps it for its resumption, and a VF
that forces has the team swapped. A budget that runs out freezes the array at once and saves the team by force as soon
as every member has stopped where it may be saved. A mailbox doorbell sets its bits and shows in every waiting WFE of
the VF. A dispatch descriptor takes the words written; an invalid one stops dispatch with LSTATE 2 and reason 4, a
valid one ends that stop (LSTATE 2 there is the model's reading, log entry 32; that the write wakes the interface is
log entry 37's). -/
def Obligations.PreemptionAndHost : Prop :=
  (∀ (s : State) (slice vf k : Nat), (s.slice slice).swaps = [] → k ∈ s.vfCores vf → sliceOf k = slice →
    (s.core k).running = true →
    ((s.core k).halted = false → s.forces k = false → ∃ t, exec (.timeSliceEnd slice vf) s = .next t
      ∧ (t.core k).budget = some (budgetCycles (s.vfOf k).pbudget) ∧ (t.core k).preempt = true
      ∧ (t.ctx k).regs = (s.ctx k).regs ∧ (t.ctx k).pc = (s.ctx k).pc ∧ t.home = s.home)
    ∧ ((s.core k).halted = true → ∃ t, exec (.timeSliceEnd slice vf) s = .next t
      ∧ (t.core k).reqWait = true ∧ (t.core k).budget = (s.core k).budget)
    ∧ ((s.core k).halted = false → s.forces k = true → ∃ t, exec (.timeSliceEnd slice vf) s = .next t
      ∧ (t.team (s.core k).team).swap = true ∧ (t.team (s.core k).team).hsc = true))
  ∧ (∀ (s u : State) (core cyc cyc2 cl id h : Nat), cl = clusterOf core → id = (s.cluster cl).team → id ≠ 0 →
    (s.team id).consumed = false → s.freeHandle (s.team id).slice = some h →
    ((s.team id).overrun = false ∧ (s.core core).budget.isSome = true
        ∧ u = (s.freezeArray cl cyc cyc2).onTeam id (fun t => { t with overrun := true })
      ∨ (s.team id).overrun = true ∧ u = s) →
    (u.saveable cl = false → exec (.preemptBudgetExpiry core cyc cyc2) s = .next u ∧ (u.cluster cl).team = id)
    ∧ (u.saveable cl = true → (∀ k, (s.core k).l1 = []) → (u.cluster cl).store.rowsBad = false →
      ∃ t b, exec (.preemptBudgetExpiry core cyc cyc2) s = .next t ∧ (t.cluster cl).team = 0
        ∧ (t.team id).cluster = none ∧ (t.team id).saved = some b ∧ b.overrun = true ∧ b.frozen = true
        ∧ ((s.cluster cl).array.queue = [] → b.block = some (s.swapEnt (s.team id).slice h).block)))
  ∧ (∀ (s : State) (vf : Nat) (bits : Word), ∃ t, exec (.mailboxDoorbell vf bits) s = .next t
    ∧ (t.vf vf).doorbell = (s.vf vf).doorbell ||| bits
    ∧ (bits ≠ 0 → ∀ k ∈ s.vfCores vf, ∀ w, (s.ctx k).wfe = some w →
        (t.ctx k).wfe = some { w with seen := w.seen ||| 4 })
    ∧ t.home = s.home)
  ∧ ∀ (s : State) (vf : Nat) (ws : List Word) (v : Vf),
    v = { s.vf vf with desc := Sparse.setRange (s.vf vf).desc 0 (ws.take 16) } →
    ∃ t, exec (.dispatchDescriptorWrite vf ws) s = .next t ∧ (t.vf vf).desc = v.desc
      ∧ (v.descOk = true → (t.vf vf).lstate = (if (s.vf vf).lreason = 4 then 0 else (s.vf vf).lstate))
      ∧ (v.descOk = false → (t.vf vf).lstate = 2 ∧ (t.vf vf).lreason = 4)

/-! ### Events: integrity -/

/-- R375, R379 to R381, R387 to R395: a consumed node is rolled back (everything it held is gone, its record stands at
the head of its queue, and the arrivals that its members made at the open step are taken back: the last is log entry
31's reading of R288) or killed, and its cluster is free. An audit waits for the running team, and ends in a pass,
which zeroes the cluster and counts, or in a fence; that the audit of a fenced cluster does not move the rotation is
the model's choice (log entry 53). Pages that their VF or ring H frees are to be scrubbed, and what their lines held
in a cache is lost, DRAM's bytes remaining; a scrubbed page reads zero and joins its pool, from which TAKE hands out;
a page with a line that refuses the write waits. COUNT 0 as 2^20 pages, and the VF to which a page belongs, are log
entry 35's readings. A share comes into force in its order, and once it is acknowledged no line of its VF stands in a
way outside it. A stopped slice is reset with its caches lost and its withheld lines kept. A register of a secure
block takes writes from a secure master only; which registers belong to which block, and which master is secure, is
log entry 36's presumption. -/
def Obligations.IntegrityEvents : Prop :=
  (∀ (s : State) (id cl : Nat) (t0 : Team), t0 = s.team id → t0.live = true → t0.cluster = some cl →
      s.mgmt.errbase = 0 →
    (t0.consumed = true → t0.kill = false → ∃ t e, exec (.nodeRollback id) s = .next t ∧ t.team id = {}
      ∧ (t.cluster cl).team = 0 ∧ (t.cluster cl).store = {} ∧ (t.cluster cl).array.queue = []
      ∧ (t.slice t0.slice).queue (qkey t0.vf (recPrio t0.record) (recQueue t0.record))
        = e :: (s.slice t0.slice).queue (qkey t0.vf (recPrio t0.record) (recQueue t0.record))
      ∧ e.record = t0.record ∧ e.addr = t0.addr ∧ e.rolled = t0.rolled + 1 ∧ t.home.mem = s.home.mem
      ∧ ∀ g, (s.vf t0.vf).sg = some g → g.bst = .opened → ∃ g', (t.vf t0.vf).sg = some g' ∧ g'.arrived
        = g.arrived - ((List.range t0.size).filter (fun m => decide ((s.member id m).curStep = g.step + 1))).length)
    ∧ (t0.consumed = false → t0.kill = false → exec (.nodeRollback id) s = .next s ∧ exec (.nodeKill id) s = .next s)
    ∧ (t0.kill = true → ∃ t, exec (.nodeKill id) s = .next t ∧ t.team id = {} ∧ (t.cluster cl).team = 0
      ∧ (t.cluster cl).store = {} ∧ (t.cluster cl).array.queue = []))
  ∧ (∀ (s : State) (cl pattern : Nat) (c : Cluster), s.auditCluster = some cl → c = s.cluster cl →
    (c.team ≠ 0 → ∀ p, ∃ t, exec (.badgerPass p pattern) s = .next t ∧ (t.cluster cl).auditReq = true
      ∧ (t.team c.team).swap = true ∧ (t.cluster cl).team = c.team ∧ (t.cluster cl).auditSeq = c.auditSeq)
    ∧ (c.team = 0 → ∃ t, exec (.badgerPass true pattern) s = .next t ∧ (t.cluster cl).auditSeq = c.auditSeq + 1
      ∧ (t.cluster cl).store = {} ∧ (t.cluster cl).provisional = [] ∧ (t.cluster cl).auditReq = false
      ∧ (t.cluster cl).fenced = (c.fenced && decide (c.passes = 0))
      ∧ t.mgmt.auditNext = (if c.fenced = true then s.mgmt.auditNext else (cl + 1) % 64))
    ∧ (c.team = 0 → ∃ t, exec (.badgerPass false pattern) s = .next t ∧ (t.cluster cl).fenced = true
      ∧ (t.cluster cl).passes = 0 ∧ (t.cluster cl).store = {} ∧ (t.cluster cl).auditSeq = c.auditSeq))
  ∧ (∀ (s : State) (m : Master) (cl : Nat),
    ((s.cluster cl).fenced = true → s.mayWrite m (sliceOfCluster cl) = true →
      ∃ t, exec (.auditRequest ⟨m, cl⟩) s = .next t ∧ (t.cluster cl).auditReq = true ∧ (t.cluster cl).fenced = true)
    ∧ ((s.cluster cl).fenced = false ∨ s.mayWrite m (sliceOfCluster cl) = false →
      exec (.auditRequest ⟨m, cl⟩) s = .next s))
  ∧ (∀ (s : State) (m : Master) (vf aper count list : Nat) (hyp : Bool), (8 < aper ∨ s.mayWrite m 24 = false) →
    ∃ t, t.home = s.home ∧ t.cores = s.cores ∧ exec (.poolTake ⟨m, vf⟩ hyp aper count list) s = .next t
      ∧ exec (.poolFree ⟨m, vf⟩ hyp aper count list) s = .next t)
  ∧ (∀ (s : State) (m : Master) (vf aper count list n : Nat) (hyp take : Bool) (places : List Nat) (c : PoolCmd),
    aper ≤ 8 → s.mayWrite m 24 = true →
    s.home.poolQ = [] → n = (if count % 2 ^ 20 = 0 then 2 ^ 20 else count % 2 ^ 20) →
        c = ⟨take, vf, hyp, aper, n, list⟩ →
    ((s.wakeBlock 16).onHome (fun h => { h with poolQ := [c] })).listPlaces c take = .ok places →
    (take = true → n ≤ (Map.get [] s.home.pool aper).length →
        ∃ t, exec (.poolTake ⟨m, vf⟩ hyp aper count list) s = .next t
      ∧ Map.get [] t.home.pool aper = (Map.get [] s.home.pool aper).drop n ∧ t.home.poolDone = n ∧ t.home.poolQ = []
      ∧ (∀ pg ∈ (Map.get [] s.home.pool aper).take n, Map.get none t.home.owned pg = some vf)
      ∧ (∀ pa pg, places = [pa] → (Map.get [] s.home.pool aper).head? = some pg → t.peekNat pa 8 = pg % 2 ^ 64))
    ∧ (take = true → (Map.get [] s.home.pool aper).length < n →
        ∃ t, exec (.poolTake ⟨m, vf⟩ hyp aper count list) s = .next t
      ∧ t.home.poolQ = [c] ∧ t.home.pool = s.home.pool)
    ∧ (∀ pages, take = false → pages = (places.map (fun pa => s.peekNat pa 8 / 4096 * 4096)).filter
        (fun pg => hyp || Map.get none s.home.owned pg == some vf) → pages.any s.pageHeld = false →
      ∃ t, exec (.poolFree ⟨m, vf⟩ hyp aper count list) s = .next t
        ∧ t.home.scrub = s.home.scrub ++ pages.map (fun pg => (aper, pg)) ∧ t.home.poolQ = []
        ∧ (∀ pg ∈ pages, Map.get none t.home.owned pg = none)
        ∧ (∀ x, ((s.home.placeOf (x / 128)).dirty = false ∨ ∀ pg ∈ pages, x / 4096 ≠ pg / 4096) →
          t.home.mem.get x = s.home.mem.get x)
        ∧ (∀ x pg, pg ∈ pages → x / 4096 = pg / 4096 → t.home.placeOf (x / 128) = .dram
          ∧ ((s.home.placeOf (x / 128)).dirty = true → t.home.mem.get x = s.home.old.get x))))
  ∧ (∀ (s : State) (aper : Nat) (l : List (Nat × Nat)), l = s.home.scrub.filter (fun e => e.1 == aper) →
    (∀ e, l.find? (fun e => (List.range 32).all (fun i => (s.lineErr (s.pageAsker e.2).secure 0 (i + e.2 / 128) .full).isNone))
        = some e → s.home.poolQ = [] →
      ∃ t, exec (.scrubPage aper) s = .next t ∧ t.home.scrub = s.home.scrub.erase e
        ∧ Map.get [] t.home.pool aper = Map.get [] s.home.pool aper ++ [e.2]
        ∧ (∀ i, i < 4096 → t.home.mem.get (e.2 + i) = 0)
        ∧ (∀ x, (x < e.2 ∨ e.2 + 4096 ≤ x) → t.home.mem.get x = s.home.mem.get x))
    ∧ ((∀ e ∈ l, ∃ i x, i < 32 ∧ s.lineErr (s.pageAsker e.2).secure 0 (i + e.2 / 128) .full = some x) →
      ∃ t, exec (.scrubPage aper) s = .next t ∧ t.home.scrub = s.home.scrub ∧ t.home.pool = s.home.pool))
  ∧ (∀ (s : State) (m : Master) (n vf : Nat) (v : Word) (rest : List (Nat × Word)),
    (s.mayWrite m n = false → exec (.shareWrite ⟨m, n⟩ vf v) s = .next s)
    ∧ (s.mayWrite m n = true → ∃ t, exec (.shareWrite ⟨m, n⟩ vf v) s = .next t
      ∧ (t.slice n).shareQ = (s.slice n).shareQ ++ [(vf, v &&& 0xFFFFFFFFFFFF)]
      ∧ ((s.slice n).shareQ = [] → (t.slice n).shareOf vf = v &&& 0xFFFFFFFFFFFF)
      ∧ ((s.slice n).shareQ ≠ [] → (t.slice n).share = (s.slice n).share))
    ∧ ((s.slice n).shareQ = (vf, v) :: rest → ∃ t, exec (.shareChangeComplete n) s = .next t
      ∧ (t.slice n).shareQ = rest ∧ (t.slice n).ackSeq = v.toNat / 2 ^ 32 % 2 ^ 16
      ∧ (∀ e ∈ t.home.l2ways, e.2.vf = vf → s.home.sliceOfLine (keyLine e.1) = n →
        (s.l2Mask vf (keyLine e.1)).testBit e.2.way = true)
      ∧ (∀ e ∈ t.home.mscways, e.2.vf = vf → s.home.sliceOfLine (keyLine e.1) = n →
        (s.mscMask vf (keyLine e.1)).testBit e.2.way = true)
      ∧ ∀ vf' v', rest.head? = some (vf', v') → (t.slice n).shareOf vf' = v'))
  ∧ ∀ (s : State) (m : Master) (n : Nat),
    ((s.slice n).stopped = true → s.mayWrite m n = true → ∃ t, exec (.sliceReset ⟨m, n⟩) s = .next t
        ∧ (t.slice n).stopped = false
      ∧ t.home.withheld = s.home.withheld
      ∧ (∀ line, (decodePA s.home.wide (line * 128)).map (·.2.2) = some n → t.home.placeOf line = .dram)
      ∧ (∀ x, ((s.home.placeOf (x / 128)).dirty = false ∨ (decodePA s.home.wide (x / 128 * 128)).map (·.2.2) ≠ some n) →
        t.home.mem.get x = s.home.mem.get x)
      ∧ (∀ x, (s.home.placeOf (x / 128)).dirty = true → (decodePA s.home.wide (x / 128 * 128)).map (·.2.2) = some n →
        t.home.mem.get x = s.home.old.get x))
    ∧ ((s.slice n).stopped = false ∨ s.mayWrite m n = false → exec (.sliceReset ⟨m, n⟩) s = .next s)

/-! ### Events: the fabric -/

/-- R272, R275, R287, R398, R400: a descriptor written for a VF without a group begins a group at step 0 with the
tables copied; for one with a group it waits for the boundary. A rank's change is staged for its boundary, or
withdrawn. R280, R295: the engine's next packet is numbered, kept until it is acknowledged, and carries the source's
bytes; the command is done with its last one. A packet that arrives in its window is stored once in its step's bank
(one of a step that is over is not; one without room makes STEP_OVERFLOW) and acknowledged at the contiguous mark, and
a boundary message in it counts; a duplicate is acknowledged again, one beyond the window, damaged, or for a VF whose
streams are not here is not answered; an acknowledgement frees what lies below its mark, and the first from a migrated
rank ends that mark. R293: a heartbeat goes to every peer, and a lost peer makes the verdict of the step PEER_LOST, or
frees a step that is past its arrivals, and frees its stream. R284, R291: a module gathers what its children tell it,
votes, applies on DONE, opens the next step once all is applied, and drops the bank on a failure. R297: a stream moves
to the next valid route, or stops. R256, R398: a moving VF's streams and bindings leave and come as they stand. The
model's choices: the re-validated group's step, staged changes, numbered control packets, a moving VF's streams and
lines that cannot be read (log entry 31), the tree's parents and children (11), a boundary message's form (48), the
worlds of the fabric die's requests (36). -/
def Obligations.FabricEvents : Prop :=
  (∀ (s : State) (vf pa : Nat) (sec : Bool), sec = s.secureSlice (s.vf vf).logSlice →
    (∀ g, (s.vf vf).sg = none → s.readErr sec 0 pa 64 = none → groupOf (s.peek pa 64) = some g →
      s.readErr sec 0 g.rtbase (4 * g.nrank) = none → s.readErr sec 0 g.wtbase 8192 = none →
      ∃ t g', exec (.stepGroupDescriptorWrite vf pa) s = .next t ∧ (t.vf vf).sg = some g' ∧ g'.step = 0
        ∧ g'.rank = g.rank ∧ g'.nrank = g.nrank ∧ g'.quorum = g.quorum ∧ g'.bst = .opened
        ∧ (∀ r, r < g.nrank → Map.get 0 g'.ranks r = s.peekNat (g.rtbase + 4 * r) 4)
        ∧ g'.wins = s.peek g.wtbase 8192 ∧ (t.vf vf).sgPa = some pa)
    ∧ ((s.vf vf).sg = none → (s.readErr sec 0 pa 64 ≠ none ∨ groupOf (s.peek pa 64) = none) →
      ∃ t, exec (.stepGroupDescriptorWrite vf pa) s = .next t ∧ (t.vf vf).sg = none ∧ (t.vf vf).sgPa = some pa)
    ∧ (∀ g, (s.vf vf).sg = some g → ∃ t, exec (.stepGroupDescriptorWrite vf pa) s = .next t
        ∧ (t.vf vf).sg = some g ∧ (t.vf vf).sgPa = some pa))
  ∧ (∀ (s : State) (vf rank chip bound : Nat) (g : StepGroup), (s.vf vf).sg = some g →
    (rank < g.nrank → g.step ≤ bound → ∃ t g', exec (.migrationStage vf rank chip bound false) s = .next t
      ∧ (t.vf vf).sg = some g' ∧ ⟨rank, chip % 2 ^ 18, bound⟩ ∈ g'.staged ∧ rank ∈ g'.migrating ∧ g'.ranks = g.ranks
      ∧ (s.arrives vf rank chip = true → (t.vf vf).loaded = false))
    ∧ (g.held = false → g.step ≠ bound → ∃ t g', exec (.migrationStage vf rank chip bound true) s = .next t
      ∧ (t.vf vf).sg = some g' ∧ (∀ c ∈ g'.staged, c.rank ≠ rank) ∧ rank ∉ g'.migrating ∧ g'.ranks = g.ranks)
    ∧ (g.held = true → s.arrives vf rank chip = false →
      exec (.migrationStage vf rank chip bound true) s = .next (s.wakeBlock 16)))
  ∧ (∀ (s u : State) (team m vf chip n : Nat) (g : StepGroup) (c : EngCmd) (bs : List Byte) (eg : Nat × List Byte),
    vf = (s.team team).vf →
    s.canSend team m = true → s.fabricTurn = some (4 * team + m) → ((s.member team m).queue 3).head? = some c →
        s.group vf = some g →
    g.lost.contains (fxRank c) = false → g.chipOf (fxRank c) = some chip → n = min 4096 (fxLen c - c.prog) →
    g.step ≤ c.step →
    Map.get 0 g.sent (2 * fxRank c + c.step % 2) + (32 + (n + 31) / 32 * 32) ≤ g.quota →
    (n = 0 ∧ u = { s with fab := { s.fab with served := 4 * team + m } } ∧ bs = []
      ∨ 0 < n ∧ State.srcRead { s with fab := { s.fab with served := 4 * team + m } } (s.agent team m 3 c) c.edge
        (c.g1.toNat + c.prog) n = .ok (u, eg, bs)) → u.group vf = some g → chip ≠ u.fab.chip →
    u.mustHold vf g (fxRank c) (u.fxPacket vf g c bs) = false →
    ∃ t p, exec (.fabricPacketSend team m) s = .next t ∧ (((u.vf vf).out chip).next, p) ∈ ((t.vf vf).out chip).unacked
      ∧ t.fab.served = 4 * team + m ∧ p.seq = BitVec.ofNat 32 ((u.vf vf).out chip).next ∧ p.data = bs
          ∧ p.win = fxWin c ∧ p.off = fxOff c + c.prog ∧ p.step = c.step % 256 ∧ p.srcRank = g.rank
      ∧ p.reduce = (c.kind == .fxred) ∧ p.control = false ∧ p.last = decide (fxLen c ≤ c.prog + bs.length)
      ∧ (fxLen c ≤ c.prog + n → ∀ q ∈ (t.member team m).queue 3, q.num ≠ c.num))
  ∧ (∀ (s u : State) (p : Packet) (g : StepGroup) (n : Nat), s.group p.vf = some g →
    u = (if p.port < 8 then (s.drainPort p.port ((pktSize p + 223) / 224)).wakeBlock (8 + p.port) else s) →
    n = unwrap ((s.vf p.vf).inp p.srcChip).mark p.seq →
    (p.crcOk = true → (s.vf p.vf).loaded = true → ((s.vf p.vf).inp p.srcChip).mark ≤ n →
      n < ((s.vf p.vf).inp p.srcChip).mark + 4096 → ((s.vf p.vf).inp p.srcChip).got.contains n = false →
      ∃ w, (n < ((w.vf p.vf).inp p.srcChip).mark ∨ n ∈ ((w.vf p.vf).inp p.srcChip).got)
        ∧ w.mgmt.signals.head? = some (.fabricAck p.vf p.srcChip ((w.vf p.vf).inp p.srcChip).mark)
        ∧ (p.control = false → p.step ∈ [g.step % 256, (g.step + 1) % 256] →
          ((g.bank p.step).map (fun e => pktSpace e.2)).sum + pktSpace p ≤ g.sbsize / 2 →
          exec (.fabricPacketReceive p) s = .next w
          ∧ ∃ g', (w.vf p.vf).sg = some g' ∧ g'.bank p.step = g.bank p.step ++ [(n, p)] ∧ g'.verdict = g.verdict)
        ∧ (p.control = false → p.step = g.step % 256 →
          g.sbsize / 2 < ((g.bank p.step).map (fun e => pktSpace e.2)).sum + pktSpace p →
          exec (.fabricPacketReceive p) s = .next w
          ∧ ∃ g', (w.vf p.vf).sg = some g' ∧ g'.bank p.step = g.bank p.step ∧ g'.verdict = worse g.verdict 1)
        ∧ (p.control = false → p.step ∉ [g.step % 256, (g.step + 1) % 256] →
          exec (.fabricPacketReceive p) s = .next w ∧ (w.vf p.vf).sg = some g)
        ∧ (p.control = true → (w.vf p.vf).sg = some g
          ∧ (g.message p = none → exec (.fabricPacketReceive p) s = .next w)
          ∧ ∀ m, g.message p = some m → exec (.fabricPacketReceive p) s = exec (.boundaryMessage p.vf m) w))
    ∧ (p.crcOk = true → (s.vf p.vf).loaded = true → n < ((s.vf p.vf).inp p.srcChip).mark + 4096 →
      (n < ((s.vf p.vf).inp p.srcChip).mark ∨ ((s.vf p.vf).inp p.srcChip).got.contains n = true) →
      ∃ t, exec (.fabricPacketReceive p) s = .next t ∧ t.vfs = s.vfs
        ∧ t.mgmt.signals.head? = some (.fabricAck p.vf p.srcChip ((s.vf p.vf).inp p.srcChip).mark))
    ∧ ((p.crcOk = false ∨ (s.vf p.vf).loaded = false ∨ ((s.vf p.vf).inp p.srcChip).mark + 4096 ≤ n) →
      exec (.fabricPacketReceive p) s = .next u ∧ u.vfs = s.vfs))
  ∧ (∀ (s u : State) (vf chip n : Nat) (mark : BitVec 32), n = unwrap ((s.vf vf).out chip).acked mark →
    u = (match s.routePort vf chip with
      | some k => if k < 8 then (s.drainPort k 1).wakeBlock (8 + k) else s
      | none => s) →
    (((s.vf vf).out chip).acked < n → n ≤ ((s.vf vf).out chip).next →
      (∀ g, s.group vf = some g → g.pend = [] ∧ g.bst = .opened ∧ g.arrived < g.quorum) →
      ∃ t, exec (.fabricAckReceive vf chip mark) s = .next t ∧ ((t.vf vf).out chip).acked = n
        ∧ ((t.vf vf).out chip).unacked = ((s.vf vf).out chip).unacked.filter (fun p => decide (n ≤ p.1))
        ∧ ((t.vf vf).out chip).next = ((s.vf vf).out chip).next)
    ∧ (∀ g, n = ((s.vf vf).out chip).acked → n ≤ ((s.vf vf).out chip).next → s.group vf = some g → g.pend = [] →
      g.bst = .opened → g.arrived < g.quorum → (∃ r ∈ g.migrating, g.arriving chip r = true) →
      ∃ t g', exec (.fabricAckReceive vf chip mark) s = .next t ∧ ((t.vf vf).out chip).acked = n
        ∧ ((t.vf vf).out chip).unacked = ((s.vf vf).out chip).unacked.filter (fun p => decide (n ≤ p.1))
        ∧ (t.vf vf).sg = some g' ∧ ∀ r, r ∈ g'.migrating ↔ r ∈ g.migrating ∧ g.arriving chip r = false)
    ∧ ((n < ((s.vf vf).out chip).acked ∨ ((s.vf vf).out chip).next < n ∨ (n = ((s.vf vf).out chip).acked
        ∧ ∀ g, s.group vf = some g → ∀ r ∈ g.migrating, g.arriving chip r = false)) →
      exec (.fabricAckReceive vf chip mark) s = .next u ∧ u.vfs = s.vfs))
  ∧ (∀ (s : State) (vf r chip : Nat) (g : StepGroup), vf < 8 → s.group vf = some g → r ∈ g.peers →
    g.chipOf r = some chip → chip ≠ s.fab.chip →
    ∃ t p, exec .heartbeatSend s = .next t ∧ p.control = true ∧ p.data = [] ∧ p.srcRank = g.rank ∧ p.vf = vf
      ∧ ((∃ n, (n, p) ∈ ((t.vf vf).out chip).unacked) ∨ ∃ g', (t.vf vf).sg = some g' ∧ (r, p) ∈ g'.pend))
  ∧ (∀ (s : State) (vf rank : Nat) (g : StepGroup), s.group vf = some g →
    (rank ∈ g.peers → g.bst = .opened → g.arrived < g.quorum → ∃ t g', exec (.peerLost vf rank) s = .next t
      ∧ (t.vf vf).sg = some g' ∧ g'.lost = rank :: g.lost ∧ g'.due = rank :: g.due ∧ g'.verdict = 2 ∧ g'.step = g.step
      ∧ ((t.vf vf).out ((g.chipOf rank).getD 0)).unacked = [])
    ∧ (rank ∈ g.peers → g.bst = .applying → ∃ t g', exec (.peerLost vf rank) s = .next t
      ∧ (t.vf vf).sg = some g' ∧ g'.lost = rank :: g.lost ∧ g'.due = g.due ∧ g'.next = 2 ∧ g'.verdict = g.verdict
          ∧ g'.bst = .applying)
    ∧ (∀ pa d, rank ∈ g.peers → g.bst ∈ [.drain, .sync, .vote] → g.due = [] → g.staged = [] → g.pend = [] →
      s.mgmt.fevbase = 0 → s.mgmt.errbase = 0 → (s.vf vf).sgPa = some pa →
      s.readErr (s.secureSlice (s.vf vf).logSlice) 0 pa 64 = none → groupOf (s.peek pa 64) = some d →
      (pa + 64 ≤ g.rtbase + 4 * rank + 3 ∨ g.rtbase + 4 * rank + 3 < pa) →
      ∃ t g', exec (.peerLost vf rank) s = .next t ∧ (t.vf vf).sg = some g' ∧ g'.step = g.step + 1 ∧ g'.bst = .opened
        ∧ g'.codes = ((g.step, 2) :: g.codes).take 16 ∧ g'.bank g.step = [] ∧ g'.bank (g.step + 1) = g.bank (g.step + 1)
        ∧ ((t.vf vf).out ((g.chipOf rank).getD 0)).unacked = [])
    ∧ (rank ∉ g.peers → exec (.peerLost vf rank) s = .next s))
  ∧ (∀ (s : State) (vf pa code : Nat) (g d : StepGroup), s.group vf = some g → g.verdict ≤ 3 →
    (∀ r n, g.drains.contains (r, n) = false → g.step ≤ n →
        ∃ t g', exec (.boundaryMessage vf (.drained r n)) s = .next t
      ∧ (t.vf vf).sg = some g' ∧ g'.drains = (r, n) :: g.drains ∧ g'.bst = g.bst
      ∧ (g.isRoot = false → g.told = false → { g with drains := (r, n) :: g.drains }.gathered = true → g'.told = true))
    ∧ (∀ r n, ∃ t g', exec (.boundaryMessage vf (.verdict r n)) s = .next t ∧ (t.vf vf).sg = some g'
      ∧ g'.verdicts = (r, n) :: g.verdicts.filter (·.1 ≠ r) ∧ g'.bst = g.bst ∧ g'.verdict = g.verdict)
    ∧ (g.bst = .sync → (g.isRoot = false ∨ g.heard = true ∨ g.gathered = true) → g.bank g.step = [] →
        ∃ t g', exec (.boundaryMessage vf .allDrained) s = .next t
      ∧ (t.vf vf).sg = some g' ∧ g'.bst = .vote ∧ g'.verdict = g.verdict ∧ g'.step = g.step)
    ∧ (g.bst = .sync → g.isRoot = true → g.heard = false → g.gathered = false →
      exec (.boundaryMessage vf .allDrained) s = .next s)
    ∧ (g.bst = .vote → g.verdict = 0 → (g.isRoot = false ∨ (g.gathered = true ∧ g.combined = 0)) →
        g.bank g.step = [] → ∃ t g', exec (.boundaryMessage vf (.decision 0)) s = .next t
      ∧ (t.vf vf).sg = some g' ∧ g'.bst = .applying ∧ g'.todo = [] ∧ g'.step = g.step)
    ∧ (g.bst = .vote → code ∈ [1, 2, 3] → worse code g.verdict = code → (g.isRoot = false ∨ (g.gathered = true
        ∧ g.combined = code)) → g.due = [] → g.staged = [] →
      s.mgmt.fevbase = 0 → s.mgmt.errbase = 0 → (s.vf vf).sgPa = some pa →
      s.readErr (s.secureSlice (s.vf vf).logSlice) 0 pa 64 = none → groupOf (s.peek pa 64) = some d →
      ∃ t g', exec (.boundaryMessage vf (.decision code)) s = .next t ∧ (t.vf vf).sg = some g' ∧ g'.step = g.step + 1
        ∧ g'.bst = .opened ∧ g'.arrived = 0 ∧ g'.codes = ((g.step, code) :: g.codes).take 16 ∧ g'.quorum = d.quorum
        ∧ t.home.mem = s.home.mem))
  ∧ (∀ (s : State) (vf pa : Nat) (g d : StepGroup), s.group vf = some g → g.bst = .applying → g.due = [] →
    g.staged = [] → g.apps = [] → s.mgmt.errbase = 0 →
    (g.todo = [] → (s.vf vf).sgPa = some pa → s.readErr (s.secureSlice (s.vf vf).logSlice) 0 pa 64 = none →
        groupOf (s.peek pa 64) = some d →
      ∃ t g', exec (.stepApplyComplete vf) s = .next t ∧ (t.vf vf).sg = some g' ∧ g'.step = g.step + 1
        ∧ g'.bst = .opened ∧ g'.codes = ((g.step, 0) :: g.codes).take 16 ∧ t.home.mem = s.home.mem)
    ∧ (∀ n p w x, g.todo = [(n, p)] → g.window p.win = some w → w.rule = 0 → p.reduce = false → p.ctrEn = false →
      s.applyPages vf (w.base + p.off) p.data.length = .ok [(x, p.data.length)] →
      s.bufferErr g (n, p) = none → s.applyErr (s.portSecure vf p) true x p.data.length = none →
      ∃ t, exec (.stepApplyComplete vf) s = .next t
        ∧ (∀ i, i < p.data.length → t.home.mem.get (x + i) = p.data.getD i 0)
        ∧ (∀ y, (y < x ∨ x + p.data.length ≤ y) → t.home.mem.get y = s.home.mem.get y)))
  ∧ (∀ (s w : State) (vf : Nat) (x : VfMove) (r : List Act), w = (({ s with agenda := r } : State).passTime.as 8) →
    (s.agenda = .streamsOut vf :: r → ∃ t, step s = .next t ∧ (t.vf vf).outs = [] ∧ (t.vf vf).ins = []
      ∧ (t.vf vf).binds = [] ∧ (t.vf vf).loaded = false ∧ (∀ g, (t.vf vf).sg = some g → g.pend = [])
      ∧ .streamStates vf ⟨((w.vf vf).sg.map (·.step)).getD 0, (w.vf vf).outs, (w.vf vf).ins,
          ((w.vf vf).sg.map (·.pend)).getD [], (w.vf vf).binds⟩ ∈ t.mgmt.signals)
    ∧ (s.agenda = .streamsIn vf x :: r → x.pend = [] →
      (∀ g, (w.vf vf).sg = some g → g.pend = [] ∧ g.bst = .opened ∧ g.arrived < g.quorum) →
      ∃ t, step s = .next t ∧ (t.vf vf).outs = x.outs ∧ (t.vf vf).ins = x.ins ∧ (t.vf vf).binds = x.binds
        ∧ (t.vf vf).loaded = true ∧ ∀ g, (t.vf vf).sg = some g → g.step = x.step))
  ∧ ∀ (s : State) (vf chip : Nat) (o : OutStream), o = (s.vf vf).out chip →
    (o.unacked ≠ [] → (∀ g, s.group vf = some g → g.migratingChip chip = false) →
      (∀ n, s.nextRoute chip o.route = some n → ∃ t, exec (.routeFailover vf chip .noProgress) s = .next t
        ∧ ((t.vf vf).out chip).route = n ∧ ((t.vf vf).out chip).dead = false
        ∧ ((t.vf vf).out chip).unacked = o.unacked ∧ (t.vf vf).failovers = (s.vf vf).failovers + 1)
      ∧ (s.nextRoute chip o.route = none → ∃ t, exec (.routeFailover vf chip .noProgress) s = .next t
        ∧ ((t.vf vf).out chip).dead = true ∧ ((t.vf vf).out chip).unacked = o.unacked))
    ∧ (∀ n, (Map.get [] s.fab.routes chip).any (fun r => r.num == o.route && !(s.port r.port).up) = true →
      s.nextRoute chip o.route = some n → ∃ t, exec (.routeFailover vf chip .portDown) s = .next t
        ∧ ((t.vf vf).out chip).route = n ∧ ((t.vf vf).out chip).unacked = o.unacked)
    ∧ ∃ t, exec (.routeFailover vf chip .reported) s = .next t
      ∧ (∀ r ∈ Map.get [] t.fab.routes chip, r.num = o.route → r.failed = true)
          ∧ ((t.vf vf).out chip).unacked = o.unacked

/-! ### Events: the links -/

/-- The corrected errors of a wavelength exceed 10⁻⁵ of the bits that it has received in its window, those up to now
included (R303, R304). -/
def Sys2Proof.Machine.overRate (s : State) (p : Port) (l : Nat) : Prop :=
  Map.get 0 p.bits l + 200 * (s.time.ptpns.toNat - p.since) < 100000 * Map.get 0 p.corr l

/-- R302 to R306, R403, R404: a good flit in sequence is accepted and acknowledged, one out of sequence or
uncorrectable is discarded with one NAK for the number expected (a second one only where that flit itself comes and
fails); after a lane change all but the flit expected under the new set is discarded, a NAK and lane control too. A
NAK replays from its number; lane control sets the wavelengths in use and counts as a replay, and idle flits before
its number keep to the old set. At the end of a window a wavelength over the error threshold leaves for retraining
while four stay active; it is handed back, or failed after three failures. Light that is lost, an emitter that loses
power, and a link without progress take their wavelengths or the port out; fewer than four in a direction take the
port down; power that returns leaves the wavelengths to be retrained. A port with nothing but heartbeats queued parks
down to four wavelengths, and takes the others back when a data flit that is no heartbeat's has come. Wavelength masks
by direction, the window that BER_WINDOW names, the active sets that records show and the failed state that a
wavelength keeps are the readings of log entry 38. -/
def Obligations.LinkEvents : Prop :=
  (∀ (s : State) (n : Nat) (seq : BitVec 12) (ok hold : Bool) (f : Flit) (p : Port), p = s.port n → p.up = true →
      f.lanes = p.rx.active →
    (p.await = none → ok = true → f.idle = false → seq = p.rxSeq →
      ∃ t w b, exec (.linkFlitReceive n seq ok hold f) s = .next t ∧ (t.port n).rxSeq = p.rxSeq + 1
        ∧ (t.port n).nakSent = none ∧ (t.port n).hold = hold ∧ (t.port n).inbuf = p.inbuf + 1
        ∧ (p.rest = 0 → (f.data.headD 0).toNat % 16 = 4 → (t.port n).wake = p.wake)
        ∧ ((p.rest ≠ 0 ∨ (f.data.headD 0).toNat % 16 ≠ 4) → p.rx.parked ||| p.tx.parked ≠ 0 → (t.port n).wake = true)
        ∧ (∀ a, f.ack = some a → p.ackOk a = true → (t.port n).txAcked = a)
        ∧ t.mgmt.signals.head? = some (.flit n (flitBytes w []) b) ∧ w.ack = some (p.rxSeq + 1) ∧ w.nak = false)
    ∧ (p.await = none → ok = true → f.idle = false → seq ≠ p.rxSeq → p.nakSent ≠ some p.rxSeq →
      ∃ t, exec (.linkFlitReceive n seq ok hold f) s = .next t ∧ (t.port n).rxSeq = p.rxSeq ∧ (t.port n).inbuf = p.inbuf
        ∧ t.mgmt.signals.head? = some (.linkNak n p.rxSeq) ∧ (t.port n).nakSent = some p.rxSeq)
    ∧ (p.await = none → ok = false → ∃ t, exec (.linkFlitReceive n seq ok hold f) s = .next t
        ∧ (t.port n).rxSeq = p.rxSeq
      ∧ (t.port n).uncorr = p.uncorr + 1
      ∧ (p.nakSent ≠ some p.rxSeq ∨ (f.idle = false ∧ seq = p.rxSeq) →
        t.mgmt.signals.head? = some (.linkNak n p.rxSeq))
      ∧ (p.nakSent = some p.rxSeq → (f.idle = true ∨ seq ≠ p.rxSeq) → t.mgmt.signals = s.mgmt.signals))
    ∧ (∀ q, p.await = some q → (f.idle = true ∨ seq ≠ q) → exec (.linkFlitReceive n seq ok hold f) s = .next s)
    ∧ (p.await = some p.rxSeq → ok = true → f.idle = false → seq = p.rxSeq →
      ∃ t, exec (.linkFlitReceive n seq ok hold f) s = .next t ∧ (t.port n).rxSeq = p.rxSeq + 1
          ∧ (t.port n).await = none))
  ∧ (∀ (s : State) (n : Nat) (seq : BitVec 12) (ok hold : Bool) (f : Flit), ((s.port n).up = false
      ∨ f.lanes ≠ (s.port n).rx.active) →
    exec (.linkFlitReceive n seq ok hold f) s = .next s)
  ∧ (∀ (s : State) (n : Nat) (seq : BitVec 12) (p : Port), p = s.port n → p.up = true →
    (p.await ≠ none → ∀ lanes, exec (.linkNakReceive n seq) s = .next s ∧ exec (.laneControl n lanes seq) s = .next s)
    ∧ (p.await = none → p.ackOk seq = true → ∃ t, exec (.linkNakReceive n seq) s = .next t ∧ (t.port n).txAcked = seq
      ∧ (t.port n).sent ++ (t.port n).queue = p.sent.drop (seq - p.txAcked).toNat ++ p.queue
      ∧ (t.port n).replays = p.replays + 1 ∧ (t.port n).rxSeq = p.rxSeq)
    ∧ (∀ (lanes new : BitVec 16) (park : BitVec 16), new = lanes &&& (p.tx.active ||| ~~~p.tx.dark) →
      park = p.tx.parked &&& ~~~new → p.rx.lit = 0 → p.await = none →
      (4 ≤ lamCount (new ||| park) → 4 ≤ lamCount (p.rx.active ||| p.rx.parked) →
        ∃ t, exec (.laneControl n lanes seq) s = .next t
          ∧ (t.port n).tx.active = new ∧ (t.port n).rx.active = p.rx.active ∧ (t.port n).replays = p.replays + 1
          ∧ (t.port n).up = true
          ∧ (p.sent = [] → p.queue = [] → (t.port n).laneOld = some (p.laneOld.getD p.tx.active)))
      ∧ ((lamCount (new ||| park) < 4 ∨ lamCount (p.rx.active ||| p.rx.parked) < 4) →
        ∃ t, exec (.laneControl n lanes seq) s = .next t
          ∧ (t.port n).up = false ∧ (t.port n).rx.active = 0 ∧ (t.port n).tx.active = 0))
    ∧ (∃ t, exec (.linkProgressTimeout n) s = .next t ∧ (t.port n).up = false ∧ (t.port n).rx.active = 0
      ∧ (t.port n).tx.active = 0 ∧ (t.port n).rx.training = ~~~p.rx.dark ∧ (t.port n).tx.training = ~~~p.tx.dark)
    ∧ (1500 ≤ (Map.get 0x300000000 s.mgmt.tol (8 + n)).toNat % 2 ^ 32 → (∀ e ∈ p.queue, e.2 = true) →
      p.rx.active &&& p.tx.active &&& 0xF = 0xF →
      ∃ t, exec (.portPark n) s = .next t ∧ (t.port n).rx.active = 0xF ∧ (t.port n).tx.active = 0xF
        ∧ (t.port n).rx.parked = p.rx.parked ||| (p.rx.active &&& ~~~0xF)
        ∧ (t.port n).tx.parked = p.tx.parked ||| (p.tx.active &&& ~~~0xF) ∧ (t.port n).wake = false)
    ∧ (p.rx.parked ≠ 0 → p.wake = true → ∃ t, exec (.wavelengthRelockComplete n) s = .next t ∧ (t.port n).rx.parked = 0
      ∧ (t.port n).rx.active = p.rx.active ||| p.rx.parked
      ∧ t.mgmt.signals.head? = some (.laneControl n (p.rx.active ||| p.rx.parked) p.rxSeq))
    ∧ (p.wake = false → exec (.wavelengthRelockComplete n) s = .next s))
  ∧ (∀ (s : State) (n l : Nat) (p : Port), p = s.port n → p.rx.lit = 0 → p.tx.lit = 0 →
    (∀ w, w ≠ s.time.ptpns.toNat / 1000000000 ∨ w ≤ p.window → exec (.berWindow n w) s = .next s)
    ∧ (p.window < s.time.ptpns.toNat / 1000000000 →
      (∀ j, j < 16 → p.rx.active.getLsbD j = true → ¬ overRate s p j) →
          ∃ t, exec (.berWindow n (s.time.ptpns.toNat / 1000000000)) s = .next t
        ∧ (t.port n).rx = p.rx ∧ (t.port n).berLast = p.corr ∧ (t.port n).corr = [] ∧ (t.port n).bits = []
        ∧ (t.port n).window = s.time.ptpns.toNat / 1000000000)
    ∧ (p.window < s.time.ptpns.toNat / 1000000000 → p.rx.active.getLsbD l = true → overRate s p l →
      (∀ j, j ≠ l → p.rx.active.getLsbD j = true → ¬ overRate s p j) → p.rx.dark.getLsbD l = false →
      (4 < lamCount p.rx.active → lamCount p.rx.training + lamCount p.tx.training < 2 →
        ∃ t, exec (.berWindow n (s.time.ptpns.toNat / 1000000000)) s = .next t
          ∧ (t.port n).rx.active = p.rx.active &&& ~~~BitVec.ofNat 16 (2 ^ l)
          ∧ (t.port n).rx.training = p.rx.training ||| BitVec.ofNat 16 (2 ^ l)
          ∧ (t.port n).retrains = p.retrains + 1
          ∧ t.mgmt.signals.head? = some (.laneControl n (p.rx.active &&& ~~~BitVec.ofNat 16 (2 ^ l)) p.rxSeq))
      ∧ (lamCount p.rx.active ≤ 4 ∨ 2 ≤ lamCount p.rx.training + lamCount p.tx.training →
        ∃ t, exec (.berWindow n (s.time.ptpns.toNat / 1000000000)) s = .next t ∧ (t.port n).rx = p.rx))
    ∧ (∀ (tx : Bool) (x : Lanes), x = (if tx then p.tx else p.rx) → x.training.getLsbD l = true →
      (∀ q y, q = (if tx then (p.rx, { x with active := x.active ||| BitVec.ofNat 16 (2 ^ l) })
          else ({ x with active := x.active ||| BitVec.ofNat 16 (2 ^ l) }, p.tx)) → y = (tx && p.up) →
        ∃ t, exec (.retrainComplete n ⟨l, tx⟩ true) s = .next t
          ∧ ((t.port n).lanes tx).training.getLsbD l = false ∧ ((t.port n).lanes tx).failed.getLsbD l = false
          ∧ ((t.port n).lanes tx).active = (if y then x.active else x.active ||| BitVec.ofNat 16 (2 ^ l))
          ∧ (t.port n).up = (p.up || (!q.1.few && !q.2.few))
          ∧ (p.up = true → tx = false →
            t.mgmt.signals.head? = some (.laneControl n (x.active ||| BitVec.ofNat 16 (2 ^ l)) p.rxSeq)))
      ∧ (Map.get 0 x.failedTrains l < 2 → ∃ t, exec (.retrainComplete n ⟨l, tx⟩ false) s = .next t
        ∧ ((t.port n).lanes tx).training = x.training ∧ (t.port n).retrains = p.retrains + 1
        ∧ Map.get 0 ((t.port n).lanes tx).failedTrains l = Map.get 0 x.failedTrains l + 1)
      ∧ (2 ≤ Map.get 0 x.failedTrains l → ∃ t, exec (.retrainComplete n ⟨l, tx⟩ false) s = .next t
        ∧ ((t.port n).lanes tx).training.getLsbD l = false ∧ ((t.port n).lanes tx).failed.getLsbD l = true)))
  ∧ (∀ (s : State) (n : Nat) (lost new left : BitVec 16) (p : Port), p = s.port n → p.rx.lit = 0 → p.tx.lit = 0 →
    new = lost &&& ~~~p.rx.dark → left = (p.rx.active ||| p.rx.parked) &&& ~~~new →
    (∃ t, exec (.lossOfLight n ⟨lost, 0⟩) s = .next t ∧ (t.port n).rx.dark = p.rx.dark ||| lost
      ∧ (t.port n).losses = p.losses + lamCount new
      ∧ (4 ≤ lamCount left → p.tx.few = false → (t.port n).rx.active = p.rx.active &&& ~~~new)
      ∧ (p.up = true → p.rx.active &&& new ≠ 0 → (lamCount left < 4 ∨ p.tx.few = true) →
        (t.port n).up = false ∧ (t.port n).rx.active = 0 ∧ (t.port n).tx.active = 0))
    ∧ ∃ t, exec (.lossOfLight n ⟨0, lost⟩) s = .next t ∧ (t.port n).rx.dark = p.rx.dark &&& ~~~lost)
  ∧ ∀ (s : State) (n q : Nat) (p : Port) (m : BitVec 16), p = s.port n → m = BitVec.ofNat 16 (15 * 2 ^ (4 * (q % 4))) →
    (∃ t, exec (.emitterPowerLoss n q) s = .next t ∧ (t.port n).tx.dark = p.tx.dark ||| m
      ∧ (t.port n).losses = p.losses + lamCount (m &&& ~~~p.tx.dark)
      ∧ (t.port n).tx.active = p.tx.active ∧ (t.port n).tx.training = p.tx.training &&& ~~~(m &&& ~~~p.tx.dark))
    ∧ ∃ t, exec (.emitterPowerReturn n q) s = .next t ∧ (t.port n).tx.dark = p.tx.dark &&& ~~~m
      ∧ (p.up = false → (t.port n).tx.training = p.tx.training ||| (p.tx.dark &&& m))
      ∧ (p.up = true → p.rx.lit = 0 → 2 ≤ lamCount p.rx.training + lamCount p.tx.training →
        (t.port n).tx.lit = p.tx.lit ||| (p.tx.dark &&& m) ∧ (t.port n).tx.training = p.tx.training)

/-! ### Events: the package -/

/-- R9, R172, R396, R397, R406 to R419: a control-space write takes effect with its guarding semaphore held, else it
is counted and ignored; one to a register of a secure block by a master that is not secure is ignored. A semaphore is
claimed by a read that finds it free, freed by its owner or with its owner's reset. A block goes to the deepest power
state its idle time and tolerance allow and wakes to Q0; a slice loses its caches, weight buffers and drain control
stores in Q2 and its team state in Q3. A power warning slows the clock, saves every running team and drops the rails
when it persists, or at once with HOLD 0; the teams come back where they ran, but for one whose block fails its
checks. Overcurrent slows the clock by one step. Module reset keeps what DRAM holds, under the addresses of MEMSPLIT's
reset value, and TRANSPORT, and takes the images that were staged; a rejected image holds the accelerator in reset;
the transport self-test empties memory and fences what fails. An attestation report carries the caller's nonce, the
images' digests and versions, the fence map, the world register and the self-test's result. The clock locks and does
not step back. Blocks, their bits and the secure manager are log entry 36's presumption; what Q2, Q3, the transport
test and module reset leave is log entry 37's reading, the reserved save blocks 46's, staging and the order of the
boot's checks 49's, the free serial and signature 8's, and a semaphore write with reserved bits set 50's choice. -/
def Obligations.PackageEvents : Prop :=
  (∀ (s : State) (m : Master) (v : Word) (vf n : Nat),
    (∃ t, exec (.controlSpaceWrite m (.stq vf) v) s = .next t ∧ (t.vf vf).stq = v &&& 0x1FFFFF)
    ∧ (∃ t, exec (.controlSpaceWrite m (.taskPasid vf) v) s = .next t ∧ (t.vf vf).taskPasid = v.toNat % 2 ^ 20)
    ∧ (s.holds m 0 = true → s.mayWrite m 24 = true → ∃ t, exec (.controlSpaceWrite m .pwrctl v) s = .next t
      ∧ t.mgmt.pwrctl = (s.mgmt.pwrctl &&& 0x30000) ||| (v &&& 0xFFFF))
    ∧ (s.holds m 1 = true → s.mayWrite m 24 = true → n < 8 → ∀ a, ∃ t,
      exec (.controlSpaceWrite m (.staging n (8 * a)) v) s = .next t
      ∧ (∀ i, i < 8 → Memory.get (Map.get [] t.mgmt.staging n) (8 * a + i) = v.extractLsb' (8 * i) 8)
      ∧ ∀ j, j ≠ n → Map.get [] t.mgmt.staging j = Map.get [] s.mgmt.staging j)
    ∧ (∀ e ∈ [(CReg.pwrctl, 0), (.tol .iface, 0), (.bootcfg, 1), (.staging n vf, 1)], s.holds m e.2 = false →
      s.mayWrite m 24 = true → ∃ t, exec (.controlSpaceWrite m e.1 v) s = .next t
        ∧ t.mgmt.refusedW = s.mgmt.refusedW + 1 ∧ t.mgmt.pwrctl = s.mgmt.pwrctl ∧ t.mgmt.tol = s.mgmt.tol
        ∧ t.mgmt.bootcfg = s.mgmt.bootcfg ∧ t.mgmt.staging = s.mgmt.staging)
    ∧ (∀ r ∈ [CReg.pwrctl, .tol .iface, .bootcfg, .errbase, .period], s.mayWrite m 24 = false →
      ∃ t, exec (.controlSpaceWrite m r v) s = .next t ∧ t.mgmt = { s.mgmt with pstate := t.mgmt.pstate }
        ∧ t = { s with mgmt := t.mgmt })
    ∧ (m = .manager → s.home.world.getLsbD 24 = true → n < 64 →
        ∃ t, exec (.controlSpaceWrite m (.regionLo n) v) s = .next t
      ∧ t.home.regionLo.get n = v &&& 0x3FFFFFFF003 ∧ t.home.mem = s.home.mem)
    ∧ ((m = .host ∨ s.home.world.getLsbD 24 = false) → ∃ t, exec (.controlSpaceWrite m (.regionLo n) v) s = .next t
      ∧ t.home = s.home))
  ∧ (∀ (s : State) (m : Master) (n : Nat) (v : Word), n < 32 →
    (∃ t, exec (.semaphoreRead m n) s = .next t ∧ t.mgmt.signals = .semReply (s.sem n) :: s.mgmt.signals
      ∧ t.sem n = (if s.sem n = 0 ∧ s.mayWrite m 24 = true then masterCode m else s.sem n)
      ∧ (∀ j, j ≠ n → t.sem j = s.sem j))
    ∧ (v = 0 → s.sem n = masterCode m → s.mayWrite m 24 = true → ∃ t, exec (.semaphoreWrite m n v) s = .next t
      ∧ t.sem n = 0 ∧ ∀ j, j ≠ n → t.sem j = s.sem j)
    ∧ ((v ≠ 0 ∨ s.sem n ≠ masterCode m ∨ s.mayWrite m 24 = false) → ∃ t, exec (.semaphoreWrite m n v) s = .next t
      ∧ ∀ j, t.sem j = s.sem j))
  ∧ (∀ (s : State) (i : Instr) (m : Master), (i, m) ∈ [(Instr.mgmtLinkTimeout, Master.manager), (.hostComplexReset, .host)] →
    ∃ t, exec i s = .next t ∧ (∀ n, t.sem n ≠ masterCode m)
      ∧ (Map.wf 0 s.mgmt.sems = true → ∀ n, s.sem n ≠ masterCode m → t.sem n = s.sem n))
  ∧ (∀ (s : State) (b : PBlock) (ns : Nat) (tol : Word), tol = Map.get 0x300000000 s.mgmt.tol (pblockKey b) →
    (s.blockIdle b = false → exec (.qstateEntry b ns) s = .next s)
    ∧ (s.blockIdle b = true → (∀ n, b ≠ .slice n) → ∃ t, exec (.qstateEntry b ns) s = .next t
      ∧ Map.get 0 t.mgmt.pstate (pblockKey b) = (if b ≠ .iface
          ∧ s.groupOpen = true then min (qFor s.mgmt.acRate ns tol) 1 else qFor s.mgmt.acRate ns tol)
      ∧ t.home = s.home)
    ∧ (∀ n, b = .slice n → s.blockIdle b = true → qFor s.mgmt.acRate ns tol < 2 →
        ∃ t, exec (.qstateEntry b ns) s = .next t
      ∧ Map.get 0 t.mgmt.pstate (pblockKey b) = qFor s.mgmt.acRate ns tol ∧ t.home = s.home)
    ∧ (∀ n q, b = .slice n → s.blockIdle b = true → qFor s.mgmt.acRate ns tol = q → 2 ≤ q →
      ∃ t, exec (.qstateEntry b ns) s = .next t
        ∧ Map.get 0 t.mgmt.pstate (pblockKey b) = q ∧ (t.slice n).dtc = []
        ∧ (∀ k, k < 32 → (t.core (32 * n + k)).l1 = [])
        ∧ (∀ line, (decodePA s.home.wide (line * 128)).map (·.2.2) = some n → t.home.placeOf line = .dram)
        ∧ ∀ j, j < 8 → (s.cluster (8 * n + j)).team = 0 →
          (t.cluster (8 * n + j)).store = (if q = 3 then {}
            else { (s.cluster (8 * n + j)).store with wb := [], wbs := [], dcs := [], wbBad := [] }))
    ∧ (∃ t, exec (.qstateWake b) s = .next t ∧ Map.get 0 t.mgmt.pstate (pblockKey b) = 0
      ∧ ((∀ e ∈ s.teams, e.2.powerCl = none) → t.home = s.home ∧ t.teams = s.teams)))
  ∧ (∀ s : State,
    (s.mgmt.pwrctl.getLsbD 0 = true → s.mgmt.pwrctl.extractLsb' 1 15 ≠ 0 →
      ∃ t, exec .pwrwarnAssert s = .next t ∧ t.mgmt.throttled = true ∧ t.mgmt.pwrctl = s.mgmt.pwrctl ||| 0x10000
        ∧ t.mgmt.railsOff = s.mgmt.railsOff ∧ t.teams = s.teams)
    ∧ (s.mgmt.pwrctl.getLsbD 0 = true → s.mgmt.pwrctl.extractLsb' 1 15 = 0 → s.mgmt.railsOff = false →
      (∀ k, (s.core k).l1 = []) → (∀ cl, cl < 64 → (s.cluster cl).team = 0) →
      ∃ t, exec .pwrwarnAssert s = .next t ∧ t.mgmt.railsOff = true ∧ t.home.mem = s.home.mem)
    ∧ (s.mgmt.pwrctl.getLsbD 0 = false → exec .pwrwarnAssert s = .next s)
    ∧ (∃ t, exec .pwrwarnRelease s = .next t ∧ t.mgmt.pwrctl.getLsbD 16 = false
      ∧ t.mgmt.throttled = (s.mgmt.railsOff && s.mgmt.throttled))
    ∧ (s.mgmt.pwrctl.getLsbD 16 = true → s.mgmt.railsOff = false → (∀ k, (s.core k).l1 = []) →
      (∀ cl, cl < 64 → (s.cluster cl).team = 0) → ∀ a b, ∃ t, exec (.pwrwarnHoldExpiry a b) s = .next t
        ∧ t.mgmt.railsOff = true ∧ t.mgmt.pwrctl.getLsbD 17 = true ∧ t.home.mem = s.home.mem)
    ∧ (∀ cl id a b, s.mgmt.pwrctl.getLsbD 16 = true → s.mgmt.railsOff = false → (∀ k, (s.core k).l1 = []) → cl < 64 →
      (∀ c, c < 64 → c ≠ cl → (s.cluster c).team = 0) → id = (s.cluster cl).team → id ≠ 0 →
          (s.team id).consumed = false →
      s.saveable cl = true → ((s.freezeArray cl a b).cluster cl).store.rowsBad = false →
      ∃ t w, exec (.pwrwarnHoldExpiry a b) s = .next t ∧ t.mgmt.railsOff = true
        ∧ (t.team id).powerCl = some cl ∧ (t.team id).cluster = none ∧ (t.team id).saved = some w ∧ w.frozen = true
        ∧ ∀ r, Map.get 0 (s.slice (sliceOfCluster cl)).reserved (cl % 8) = r →
            w.block = (if r = 0 then none else some r))
    ∧ (s.mgmt.railsOff = true → s.mgmt.pwrctl.getLsbD 16 = false → ∃ t, exec .powerRailRestore s = .next t
      ∧ t.mgmt.railsOff = false ∧ t.mgmt.throttled = false ∧ t.mgmt.pwrctl.getLsbD 17 = false)
    ∧ (∀ id cl b, s.mgmt.railsOff = true → s.mgmt.pwrctl.getLsbD 16 = false → Map.wf {} s.teams = true → cl < 64 →
      (s.team id).powerCl = some cl → (∀ j, j ≠ id → (s.team j).powerCl = none) → (s.team id).saved = some b →
      (∀ w, s.savedBad id b.block = (w, none) → ∃ t, exec .powerRailRestore s = .next t ∧ (t.team id).cluster = some cl
        ∧ (t.team id).saved = none ∧ (t.cluster cl).store = b.store)
      ∧ (∀ w part, s.savedBad id b.block = (w, some part) → ∃ t, exec .powerRailRestore s = .next t ∧ t.team id = {}))
    ∧ (s.mgmt.pwrctl.getLsbD 16 = false → ∃ t, exec .overcurrent s = .next t ∧ t.mgmt.slowdown = s.mgmt.slowdown + 1)
    ∧ (s.mgmt.pwrctl.getLsbD 16 = true → exec .overcurrent s = .next s)
    ∧ ∃ t, exec .overcurrentRecovery s = .next t ∧ t.mgmt.slowdown = 0)
  ∧ (∀ (s : State) (st : BitVec 16) (cls : Word) (ws vs : List (BitVec 16)),
    (∃ t, exec (.moduleReset st cls ws vs) s = .next t
      ∧ t.cores = [] ∧ t.vfs = [] ∧ t.teams = [] ∧ t.mgmt.pwrctl = 0xC9 ∧ t.home.wide = 36 ∧ t.home.splitLock = false
      ∧ (s.mgmt.bootcfg.getLsbD 0 = false ∨ s.afterReset.mgmt.bootFailure ≠ none →
        t.clusters = [] ∧ t.slices = [] ∧ t.ports = [] ∧ t.mgmt.bootcfg = s.mgmt.bootcfg
        ∧ (s.home.wide = 36 → ∀ x, t.home.mem.get x
          = (if (s.home.placeOf (x / 128)).dirty = true then s.home.old.get x else s.home.mem.get x))
        ∧ (s.memOk = true → s.home.wide ≤ 36 → (∀ e ∈ s.home.mem, (cellOf s.home.wide e.1).isSome = true) →
          (∀ e ∈ s.home.place, (cellOf s.home.wide (128 * e.1)).isSome = true) →
          ∀ a c, cellOf s.home.wide a = some c → t.home.mem.get (paOfCell 36 c)
            = (if (s.home.placeOf (a / 128)).dirty = true then s.home.old.get a else s.home.mem.get a)))
      ∧ (s.mgmt.bootcfg.getLsbD 0 = true ∧ s.afterReset.mgmt.bootFailure = none →
        t.home.mem = [] ∧ (∀ n, n < 8 → (t.slice n).stopped = (st.getLsbD (2 * n) || st.getLsbD (2 * n + 1)))
        ∧ (∀ c, c < 64 → (t.cluster c).fenced = cls.getLsbD c)
        ∧ (∀ n, n < 8 → (t.port n).rx.failed = ws.getD n 0 ∧ (t.port n).tx.failed = vs.getD n 0)
        ∧ t.mgmt.selftest = st.setWidth 64))
    ∧ (∀ ix why, s.afterReset.mgmt.bootFailure = some (ix, why) → ∃ t, exec (.moduleReset st cls ws vs) s = .next t
      ∧ t.mgmt.held = true ∧ t.mgmt.bootstat = BitVec.ofNat 64 (ix + 8 * why) ∧ t.teams = [])
    ∧ (∀ ix, Map.get [] s.mgmt.staging ix ≠ [] → Map.wf [] s.mgmt.staging = true →
      Map.get [] s.afterReset.mgmt.images ix = Map.get [] s.mgmt.staging ix)
    ∧ (∀ ix, Map.get [] s.mgmt.staging ix = [] → Map.wf [] s.mgmt.staging = true →
      Map.get [] s.afterReset.mgmt.images ix = Map.get [] s.mgmt.images ix))
  ∧ (∀ (s : State) (m : Master) (pa : Nat), s.mayWrite m 24 = true →
    (s.holds m 2 = true → s.mgmt.attBuf = none → ∃ t, exec (.attestationRequest m pa) s = .next t
      ∧ t.mgmt.attBuf = some pa ∧ t.mgmt.attDone = false)
    ∧ (s.holds m 2 = true → s.mgmt.attBuf ≠ none → ∃ t, exec (.attestationRequest m pa) s = .next t
      ∧ t.mgmt.attBuf = s.mgmt.attBuf ∧ t.mgmt.attDone = s.mgmt.attDone)
    ∧ (s.holds m 2 = false → ∃ t, exec (.attestationRequest m pa) s = .next t
      ∧ t.mgmt.refusedW = s.mgmt.refusedW + 1 ∧ t.mgmt.attBuf = s.mgmt.attBuf)
    ∧ (∀ l e, s.mgmt.attBuf = some pa → s.readErr (s.home.world.getLsbD 24) 0 pa 32 = some (l, e) → s.mgmt.errbase = 0 →
      ∃ t, exec .attestationComplete s = .next t ∧ t.mgmt.attBuf = none ∧ t.mgmt.attDone = s.mgmt.attDone
        ∧ t.home.mem = s.home.mem)
    ∧ (s.mgmt.attBuf = some pa → s.readErr (s.home.world.getLsbD 24) 0 pa 32 = none →
      (∀ l, pa / 128 ≤ l → l ≤ (pa + 623) / 128 → s.lineErr (s.home.world.getLsbD 24) 0 l .part = none) →
      ∃ t, exec .attestationComplete s = .next t ∧ t.mgmt.attBuf = none ∧ t.mgmt.attDone = true
      ∧ t.peek pa 32 = s.peek pa 32 ∧ t.peekNat (pa + 228) 8 = s.home.world.toNat
      ∧ (∀ ix i, ix < 5 → i < 32 → t.home.mem.get (pa + 40 + 32 * ix + i) = (s.mgmt.image (ix + 1)).getD (16 + i) 0)
      ∧ (∀ ix i, ix < 5 → i < 4 → t.home.mem.get (pa + 200 + 4 * ix + i) = (s.mgmt.image (ix + 1)).getD (8 + i) 0)
      ∧ t.peekNat (pa + 236) 4 = s.mgmt.selftest.toNat % 65536 + 65536 * (s.mgmt.bootcfg.toNat % 2)
      ∧ (∀ c, c < 64 → (t.peekNat (pa + 220) 8).testBit c = (s.cluster c).fenced)
      ∧ ∀ x, (x < pa ∨ pa + 624 ≤ x) → t.home.mem.get x = s.home.mem.get x))
  ∧ ∀ (s : State) (ns : Word), ∃ t, exec (.ptpClockLock ns) s = .next t ∧ t.time.locked = true
    ∧ t.time.ptpns = (if s.time.locked = true ∧ ns.ult s.time.ptpns = true then s.time.ptpns else ns) ∧ t.home = s.home
end

