-- ==== Sys2Proof/Laws/Map.lean ====
section
/-! SUPPORT. The laws of the finite map: a read after a write, a write leaves every other key alone, and the canonical
form is kept. -/

namespace Sys2Proof.Machine

section Reads

variable {α : Type} (d : α)

@[simp] theorem Map.get_nil (a : Nat) : Map.get d ([] : Map α) a = d := rfl

/-- What `above` drops cannot be read above the bound. -/
theorem Map.get_above_gt (m : Map α) (a b : Nat) (h : a < b) : Map.get d (Map.above m a) b = Map.get d m b := by
  induction m with
  | nil => rfl
  | cons e r ih =>
    obtain ⟨k, v⟩ := e
    by_cases hk : k ≤ a
    · have h1 : ¬ b < k := by omega
      have h2 : ¬ b = k := by omega
      simp [Map.above, Map.get, hk, h1, h2, ih]
    · simp [Map.above, hk]

theorem Map.get_above_le (m : Map α) (a b : Nat) (h : b ≤ a) : Map.get d (Map.above m a) b = d := by
  induction m with
  | nil => rfl
  | cons e r ih =>
    obtain ⟨k, v⟩ := e
    by_cases hk : k ≤ a
    · simpa [Map.above, hk] using ih
    · have h1 : b < k := by omega
      simp [Map.above, Map.get, hk, h1]

theorem Map.getRange_congr (m m' : Map α) (n : Nat) : ∀ a : Nat,
    (∀ b, a ≤ b → b < a + n → Map.get d m b = Map.get d m' b) → Map.getRange d m a n = Map.getRange d m' a n := by
  induction n with
  | zero => intro a _; rfl
  | succ n ih =>
    intro a h
    simp only [Map.getRange]
    rw [h a (by omega) (by omega), ih (a + 1) (fun b h1 h2 => h b (by omega) (by omega))]

@[simp] theorem Map.length_getRange (m : Map α) (n : Nat) : ∀ a, (Map.getRange d m a n).length = n := by
  induction n with
  | zero => intro a; rfl
  | succ n ih => intro a; simp [Map.getRange, ih]

end Reads

section Writes

variable {α : Type} [DecidableEq α] (d : α)

/-- A read after a write. -/
theorem Map.get_set (m : Map α) (a b : Nat) (x : α) :
    Map.get d (Map.set d m a x) b = if b = a then x else Map.get d m b := by
  induction m with
  | nil =>
    unfold Map.set
    split
    · subst_vars; simp [Map.get]
    · by_cases h : b = a
      · simp [Map.get, h]
      · by_cases h' : b < a <;> simp [Map.get, h, h']
  | cons e r ih =>
    obtain ⟨k, v⟩ := e
    unfold Map.set
    by_cases h1 : a < k
    · by_cases hx : x = d
      · by_cases h : b = a
        · have h' : a < k := h1
          simp [h1, hx, h, Map.get]
        · simp [h1, hx, h]
      · by_cases h : b = a
        · simp [h1, hx, h, Map.get]
        · by_cases h' : b < a
          · have : b < k := by omega
            simp [h1, hx, h, h', this, Map.get]
          · simp [h1, hx, h, h', Map.get]
    · by_cases h2 : a = k
      · subst h2
        by_cases hx : x = d
        · rcases Nat.lt_trichotomy b a with h | h | h
          · have h' : ¬ b = a := by omega
            simp [hx, h', Map.get, h, Map.get_above_le d r a b (by omega)]
          · subst h; simp [hx, Map.get_above_le d r b b (by omega)]
          · have h' : ¬ b = a := by omega
            have h'' : ¬ b < a := by omega
            simp [hx, h', h'', Map.get, Map.get_above_gt d r a b h]
        · by_cases h : b = a <;> by_cases h' : b < a <;> simp_all [Map.get]
      · by_cases h : b = a
        · subst h; simpa [h1, h2, Map.get] using ih
        · simp only [h1, h2, if_false, Map.get]
          split
          · simp [h]
          · split
            · simp [h]
            · simpa [h] using ih

@[simp] theorem Map.get_set_same (m : Map α) (a : Nat) (x : α) : Map.get d (Map.set d m a x) a = x := by
  simp [Map.get_set]

theorem Map.get_set_other (m : Map α) {a b : Nat} (x : α) (h : b ≠ a) :
    Map.get d (Map.set d m a x) b = Map.get d m b := by simp [Map.get_set, h]

/-- A read after a write of a run of keys. -/
theorem Map.get_setRange (xs : List α) : ∀ (m : Map α) (a b : Nat),
    Map.get d (Map.setRange d m a xs) b = if h : a ≤ b ∧ b - a < xs.length then xs[b - a] else Map.get d m b := by
  induction xs with
  | nil => intro m a b; simp [Map.setRange]
  | cons x xs ih =>
    intro m a b
    rw [Map.setRange, ih, Map.get_set]
    by_cases h1 : a + 1 ≤ b ∧ b - (a + 1) < xs.length
    · have h2 : a ≤ b ∧ b - a < (x :: xs).length := by simp; omega
      have h3 : b - a = (b - (a + 1)) + 1 := by omega
      simp only [h1, h2, dif_pos, and_self]
      simp [h3]
    · rw [dif_neg h1]
      by_cases h : b = a
      · subst h; simp
      · have h2 : ¬ (a ≤ b ∧ b - a < (x :: xs).length) := by simp; omega
        rw [dif_neg h2, if_neg h]

theorem Map.get_setRange_out (m : Map α) (a b : Nat) (xs : List α) (h : b < a ∨ a + xs.length ≤ b) :
    Map.get d (Map.setRange d m a xs) b = Map.get d m b := by
  rw [Map.get_setRange, dif_neg (by omega)]

/-- Reading back what was written. -/
theorem Map.getRange_setRange (xs : List α) : ∀ (m : Map α) (a : Nat),
    Map.getRange d (Map.setRange d m a xs) a xs.length = xs := by
  induction xs with
  | nil => intro m a; rfl
  | cons x xs ih =>
    intro m a
    simp only [Map.setRange, List.length_cons, Map.getRange]
    rw [ih, Map.get_setRange_out d _ _ _ _ (by omega), Map.get_set_same]

/-! ### The canonical form -/

theorem Map.wfFrom_mono {m : Map α} {lo lo' : Nat} (h : lo' ≤ lo) (hm : Map.wfFrom d lo m = true) :
    Map.wfFrom d lo' m = true := by
  cases m with
  | nil => rfl
  | cons e r =>
    simp only [Map.wfFrom, Bool.and_eq_true, decide_eq_true_eq] at *
    exact ⟨⟨by omega, hm.1.2⟩, hm.2⟩

theorem Map.wfFrom_above (a : Nat) : ∀ (m : Map α) (lo : Nat), Map.wfFrom d lo m = true →
    Map.wfFrom d (max lo (a + 1)) (Map.above m a) = true := by
  intro m
  induction m with
  | nil => intro lo _; rfl
  | cons e r ih =>
    intro lo h
    obtain ⟨k, v⟩ := e
    simp only [Map.wfFrom, Bool.and_eq_true, decide_eq_true_eq] at h
    unfold Map.above
    split
    · exact Map.wfFrom_mono d (by omega) (ih (k + 1) h.2)
    · simp only [Map.wfFrom, Bool.and_eq_true, decide_eq_true_eq]
      exact ⟨⟨by omega, h.1.2⟩, h.2⟩

theorem Map.wfFrom_set (a : Nat) (x : α) : ∀ (m : Map α) (lo : Nat), Map.wfFrom d lo m = true →
    Map.wfFrom d (min lo a) (Map.set d m a x) = true := by
  intro m
  induction m with
  | nil =>
    intro lo _
    unfold Map.set
    split
    · rfl
    · simp [Map.wfFrom, *] <;> omega
  | cons e r ih =>
    intro lo h
    obtain ⟨k, v⟩ := e
    simp only [Map.wfFrom, Bool.and_eq_true, decide_eq_true_eq] at h
    obtain ⟨⟨h1, h2⟩, h3⟩ := h
    unfold Map.set
    split
    · split
      · simp only [Map.wfFrom, Bool.and_eq_true, decide_eq_true_eq]; exact ⟨⟨by omega, h2⟩, h3⟩
      · rename_i hk hx
        simp only [Map.wfFrom, Bool.and_eq_true, decide_eq_true_eq]
        exact ⟨⟨by omega, hx⟩, ⟨by omega, h2⟩, h3⟩
    · split
      · split
        · exact Map.wfFrom_mono d (by omega) (Map.wfFrom_above d a r (k + 1) h3)
        · rename_i hk hx
          simp only [Map.wfFrom, Bool.and_eq_true, decide_eq_true_eq]
          subst hk
          exact ⟨⟨by omega, hx⟩, h3⟩
      · simp only [Map.wfFrom, Bool.and_eq_true, decide_eq_true_eq]
        exact ⟨⟨by omega, h2⟩, Map.wfFrom_mono d (by omega) (ih (k + 1) h3)⟩

/-- A write keeps the canonical form. -/
theorem Map.wf_set {m : Map α} (a : Nat) (x : α) (h : Map.wf d m = true) : Map.wf d (Map.set d m a x) = true := by
  simpa [Map.wf] using Map.wfFrom_set d a x m 0 h

/-- A write of a run of keys keeps the canonical form. -/
theorem Map.wf_setRange (xs : List α) : ∀ (m : Map α) (a : Nat), Map.wf d m = true →
    Map.wf d (Map.setRange d m a xs) = true := by
  induction xs with
  | nil => intro m a h; exact h
  | cons x xs ih => intro m a h; exact ih _ _ (Map.wf_set d a x h)

theorem Map.wfFrom_filter (p : Nat × α → Bool) : ∀ (m : Map α) (lo : Nat), Map.wfFrom d lo m = true →
    Map.wfFrom d lo (m.filter p) = true := by
  intro m
  induction m with
  | nil => intro lo h; exact h
  | cons e r ih =>
    intro lo h
    obtain ⟨k, v⟩ := e
    simp only [Map.wfFrom, Bool.and_eq_true, decide_eq_true_eq] at h
    rw [List.filter_cons]
    split
    · simp only [Map.wfFrom, Bool.and_eq_true, decide_eq_true_eq]; exact ⟨h.1, ih _ h.2⟩
    · exact Map.wfFrom_mono d (by omega) (ih _ h.2)

/-- After a clearing, the keys of the range read as unlisted and every other key as before. -/
theorem Map.get_clear (lo hi : Nat) : ∀ (m : Map α) (a : Nat),
    Map.get d (m.clear lo hi) a = if lo ≤ a ∧ a < hi then d else Map.get d m a := by
  intro m
  induction m with
  | nil => intro a; simp [Map.clear]
  | cons e r ih =>
    intro a
    obtain ⟨k, v⟩ := e
    unfold Map.clear
    split
    · simp only [Map.get, ih]
      split
      · simp
      · split
        · rw [if_neg]; omega
        · rfl
    · rcases Nat.lt_or_ge k a with h | h
      · rw [Map.get_above_gt d _ _ _ h, ih, Map.get]
        have h1 : ¬ a < k := by omega
        have h2 : ¬ a = k := by omega
        simp [h1, h2]
      · rw [Map.get_above_le d _ _ _ h, Map.get]
        rcases Nat.lt_or_ge a k with h1 | h1
        · simp [h1]
        · rw [if_pos]; omega

theorem Map.wfFrom_clear (lo hi : Nat) : ∀ (m : Map α) (n : Nat), Map.wfFrom d n m = true →
    Map.wfFrom d n (m.clear lo hi) = true := by
  intro m
  induction m with
  | nil => intro n h; exact h
  | cons e r ih =>
    intro n h
    obtain ⟨k, v⟩ := e
    simp only [Map.wfFrom, Bool.and_eq_true, decide_eq_true_eq] at h
    unfold Map.clear
    split
    · simp only [Map.wfFrom, Bool.and_eq_true, decide_eq_true_eq]; exact ⟨h.1, ih _ h.2⟩
    · exact Map.wfFrom_mono d (by omega) (Map.wfFrom_above d k _ _ (ih _ h.2))

/-- Clearing a range keeps the canonical form. -/
theorem Map.wf_clear {m : Map α} (lo hi : Nat) (h : Map.wf d m = true) : Map.wf d (m.clear lo hi) = true :=
  Map.wfFrom_clear d lo hi m 0 h

theorem Map.get_eq_of_wfFrom : ∀ (m : Map α) (lo a : Nat), Map.wfFrom d lo m = true → a < lo → Map.get d m a = d := by
  intro m
  cases m with
  | nil => intros; rfl
  | cons e r =>
    intro lo a h ha
    obtain ⟨k, v⟩ := e
    simp only [Map.wfFrom, Bool.and_eq_true, decide_eq_true_eq] at h
    have : a < k := by omega
    simp [Map.get, this]

/-- Equal reads make equal maps: the canonical form is one form. -/
theorem Map.ext_of_wf : ∀ (m m' : Map α) (lo lo' : Nat), Map.wfFrom d lo m = true → Map.wfFrom d lo' m' = true →
    (∀ a, Map.get d m a = Map.get d m' a) → m = m' := by
  intro m
  induction m with
  | nil =>
    intro m' lo lo' _ h' he
    cases m' with
    | nil => rfl
    | cons e r =>
      obtain ⟨k, v⟩ := e
      simp only [Map.wfFrom, Bool.and_eq_true, decide_eq_true_eq] at h'
      have := he k
      simp [Map.get] at this
      exact absurd this.symm h'.1.2
  | cons e r ih =>
    intro m' lo lo' h h' he
    obtain ⟨k, v⟩ := e
    simp only [Map.wfFrom, Bool.and_eq_true, decide_eq_true_eq] at h
    cases m' with
    | nil =>
      have := he k
      simp [Map.get] at this
      exact absurd this h.1.2
    | cons e' r' =>
      obtain ⟨k', v'⟩ := e'
      simp only [Map.wfFrom, Bool.and_eq_true, decide_eq_true_eq] at h'
      have hk : k = k' := by
        rcases Nat.lt_trichotomy k k' with hlt | heq | hgt
        · have := he k; simp [Map.get, hlt] at this; exact absurd this h.1.2
        · exact heq
        · have := he k'; simp [Map.get, hgt] at this; exact absurd this.symm h'.1.2
      subst hk
      have hv : v = v' := by have := he k; simpa [Map.get] using this
      subst hv
      have hr : r = r' := by
        refine ih r' (k + 1) (k + 1) h.2 h'.2 (fun a => ?_)
        by_cases ha : a ≤ k
        · rw [Map.get_eq_of_wfFrom d r (k + 1) a h.2 (by omega), Map.get_eq_of_wfFrom d r' (k + 1) a h'.2 (by omega)]
        · have := he a
          have h1 : ¬ a < k := by omega
          have h2 : ¬ a = k := by omega
          simpa [Map.get, h1, h2] using this
      rw [hr]

end Writes

/-! ### The two maps of bit patterns -/

theorem Sparse.get_set {w : Nat} (m : Sparse w) (a b : Nat) (x : BitVec w) :
    (Sparse.set m a x).get b = if b = a then x else m.get b := Map.get_set 0#w m a b x

@[simp] theorem Sparse.get_nil {w : Nat} (a : Nat) : Sparse.get ([] : Sparse w) a = 0#w := rfl

theorem Memory.get_set (m : Memory) (a b : Nat) (x : Byte) :
    (m.set a x).get b = if b = a then x else m.get b := Map.get_set 0#8 m a b x

theorem Memory.get_setRange_out (m : Memory) (a b : Nat) (xs : List Byte) (h : b < a ∨ a + xs.length ≤ b) :
    (m.setRange a xs).get b = m.get b := Map.get_setRange_out 0#8 m a b xs h

theorem Memory.getRange_setRange (m : Memory) (a : Nat) (xs : List Byte) :
    (m.setRange a xs).getRange a xs.length = xs := Map.getRange_setRange 0#8 xs m a

theorem Memory.wf_set {m : Memory} (a : Nat) (x : Byte) (h : m.wf = true) : (m.set a x).wf = true :=
  Map.wf_set 0#8 a x h

theorem Memory.wf_setRange {m : Memory} (a : Nat) (xs : List Byte) (h : m.wf = true) : (m.setRange a xs).wf = true :=
  Map.wf_setRange 0#8 xs m a h

theorem Memory.wf_foldl_set (bs : List (Nat × Byte)) : ∀ {m : Memory}, m.wf = true →
    (bs.foldl (fun (m : Memory) (b : Nat × Byte) => m.set b.1 b.2) m).wf = true := by
  induction bs with
  | nil => intro m h; exact h
  | cons b r ih => intro m h; exact ih (Memory.wf_set _ _ h)

end Sys2Proof.Machine
end

