-- ==== Sys2Proof/Laws/State.lean ====
section
/-! SUPPORT. What each named update of the state leaves unchanged, field by field, and what it makes a read of the
field that it writes. -/

namespace Sys2Proof.Machine

/-! ### `setCore` writes `cores` and nothing else -/

@[simp] theorem State.setCore_clusters (s : State) (n : Nat) (c : Core) : (s.setCore n c).clusters = s.clusters := rfl
@[simp] theorem State.setCore_slices (s : State) (n : Nat) (c : Core) : (s.setCore n c).slices = s.slices := rfl
@[simp] theorem State.setCore_vfs (s : State) (n : Nat) (c : Core) : (s.setCore n c).vfs = s.vfs := rfl
@[simp] theorem State.setCore_teams (s : State) (n : Nat) (c : Core) : (s.setCore n c).teams = s.teams := rfl
@[simp] theorem State.setCore_home (s : State) (n : Nat) (c : Core) : (s.setCore n c).home = s.home := rfl
@[simp] theorem State.setCore_mcast (s : State) (n : Nat) (c : Core) : (s.setCore n c).mcast = s.mcast := rfl
@[simp] theorem State.setCore_ports (s : State) (n : Nat) (c : Core) : (s.setCore n c).ports = s.ports := rfl
@[simp] theorem State.setCore_fab (s : State) (n : Nat) (c : Core) : (s.setCore n c).fab = s.fab := rfl
@[simp] theorem State.setCore_mgmt (s : State) (n : Nat) (c : Core) : (s.setCore n c).mgmt = s.mgmt := rfl
@[simp] theorem State.setCore_time (s : State) (n : Nat) (c : Core) : (s.setCore n c).time = s.time := rfl
@[simp] theorem State.setCore_turn (s : State) (n : Nat) (c : Core) : (s.setCore n c).turn = s.turn := rfl
@[simp] theorem State.setCore_actor (s : State) (n : Nat) (c : Core) : (s.setCore n c).actor = s.actor := rfl
@[simp] theorem State.setCore_nextTeam (s : State) (n : Nat) (c : Core) : (s.setCore n c).nextTeam = s.nextTeam := rfl
@[simp] theorem State.setCore_iommu (s : State) (n : Nat) (c : Core) : (s.setCore n c).iommu = s.iommu := rfl
@[simp] theorem State.setCore_agenda (s : State) (n : Nat) (c : Core) : (s.setCore n c).agenda = s.agenda := rfl

/-! ### `onCore` writes `cores` and nothing else -/

@[simp] theorem State.onCore_clusters (s : State) (n : Nat) (f : Core → Core) : (s.onCore n f).clusters = s.clusters := rfl
@[simp] theorem State.onCore_slices (s : State) (n : Nat) (f : Core → Core) : (s.onCore n f).slices = s.slices := rfl
@[simp] theorem State.onCore_vfs (s : State) (n : Nat) (f : Core → Core) : (s.onCore n f).vfs = s.vfs := rfl
@[simp] theorem State.onCore_teams (s : State) (n : Nat) (f : Core → Core) : (s.onCore n f).teams = s.teams := rfl
@[simp] theorem State.onCore_home (s : State) (n : Nat) (f : Core → Core) : (s.onCore n f).home = s.home := rfl
@[simp] theorem State.onCore_mcast (s : State) (n : Nat) (f : Core → Core) : (s.onCore n f).mcast = s.mcast := rfl
@[simp] theorem State.onCore_ports (s : State) (n : Nat) (f : Core → Core) : (s.onCore n f).ports = s.ports := rfl
@[simp] theorem State.onCore_fab (s : State) (n : Nat) (f : Core → Core) : (s.onCore n f).fab = s.fab := rfl
@[simp] theorem State.onCore_mgmt (s : State) (n : Nat) (f : Core → Core) : (s.onCore n f).mgmt = s.mgmt := rfl
@[simp] theorem State.onCore_time (s : State) (n : Nat) (f : Core → Core) : (s.onCore n f).time = s.time := rfl
@[simp] theorem State.onCore_turn (s : State) (n : Nat) (f : Core → Core) : (s.onCore n f).turn = s.turn := rfl
@[simp] theorem State.onCore_actor (s : State) (n : Nat) (f : Core → Core) : (s.onCore n f).actor = s.actor := rfl
@[simp] theorem State.onCore_nextTeam (s : State) (n : Nat) (f : Core → Core) : (s.onCore n f).nextTeam = s.nextTeam := rfl
@[simp] theorem State.onCore_iommu (s : State) (n : Nat) (f : Core → Core) : (s.onCore n f).iommu = s.iommu := rfl
@[simp] theorem State.onCore_agenda (s : State) (n : Nat) (f : Core → Core) : (s.onCore n f).agenda = s.agenda := rfl

/-! ### `setCtx` writes `cores` and nothing else -/

@[simp] theorem State.setCtx_clusters (s : State) (n : Nat) (c : Ctx) : (s.setCtx n c).clusters = s.clusters := rfl
@[simp] theorem State.setCtx_slices (s : State) (n : Nat) (c : Ctx) : (s.setCtx n c).slices = s.slices := rfl
@[simp] theorem State.setCtx_vfs (s : State) (n : Nat) (c : Ctx) : (s.setCtx n c).vfs = s.vfs := rfl
@[simp] theorem State.setCtx_teams (s : State) (n : Nat) (c : Ctx) : (s.setCtx n c).teams = s.teams := rfl
@[simp] theorem State.setCtx_home (s : State) (n : Nat) (c : Ctx) : (s.setCtx n c).home = s.home := rfl
@[simp] theorem State.setCtx_mcast (s : State) (n : Nat) (c : Ctx) : (s.setCtx n c).mcast = s.mcast := rfl
@[simp] theorem State.setCtx_ports (s : State) (n : Nat) (c : Ctx) : (s.setCtx n c).ports = s.ports := rfl
@[simp] theorem State.setCtx_fab (s : State) (n : Nat) (c : Ctx) : (s.setCtx n c).fab = s.fab := rfl
@[simp] theorem State.setCtx_mgmt (s : State) (n : Nat) (c : Ctx) : (s.setCtx n c).mgmt = s.mgmt := rfl
@[simp] theorem State.setCtx_time (s : State) (n : Nat) (c : Ctx) : (s.setCtx n c).time = s.time := rfl
@[simp] theorem State.setCtx_turn (s : State) (n : Nat) (c : Ctx) : (s.setCtx n c).turn = s.turn := rfl
@[simp] theorem State.setCtx_actor (s : State) (n : Nat) (c : Ctx) : (s.setCtx n c).actor = s.actor := rfl
@[simp] theorem State.setCtx_nextTeam (s : State) (n : Nat) (c : Ctx) : (s.setCtx n c).nextTeam = s.nextTeam := rfl
@[simp] theorem State.setCtx_iommu (s : State) (n : Nat) (c : Ctx) : (s.setCtx n c).iommu = s.iommu := rfl
@[simp] theorem State.setCtx_agenda (s : State) (n : Nat) (c : Ctx) : (s.setCtx n c).agenda = s.agenda := rfl

/-! ### `onCtx` writes `cores` and nothing else -/

@[simp] theorem State.onCtx_clusters (s : State) (n : Nat) (f : Ctx → Ctx) : (s.onCtx n f).clusters = s.clusters := rfl
@[simp] theorem State.onCtx_slices (s : State) (n : Nat) (f : Ctx → Ctx) : (s.onCtx n f).slices = s.slices := rfl
@[simp] theorem State.onCtx_vfs (s : State) (n : Nat) (f : Ctx → Ctx) : (s.onCtx n f).vfs = s.vfs := rfl
@[simp] theorem State.onCtx_teams (s : State) (n : Nat) (f : Ctx → Ctx) : (s.onCtx n f).teams = s.teams := rfl
@[simp] theorem State.onCtx_home (s : State) (n : Nat) (f : Ctx → Ctx) : (s.onCtx n f).home = s.home := rfl
@[simp] theorem State.onCtx_mcast (s : State) (n : Nat) (f : Ctx → Ctx) : (s.onCtx n f).mcast = s.mcast := rfl
@[simp] theorem State.onCtx_ports (s : State) (n : Nat) (f : Ctx → Ctx) : (s.onCtx n f).ports = s.ports := rfl
@[simp] theorem State.onCtx_fab (s : State) (n : Nat) (f : Ctx → Ctx) : (s.onCtx n f).fab = s.fab := rfl
@[simp] theorem State.onCtx_mgmt (s : State) (n : Nat) (f : Ctx → Ctx) : (s.onCtx n f).mgmt = s.mgmt := rfl
@[simp] theorem State.onCtx_time (s : State) (n : Nat) (f : Ctx → Ctx) : (s.onCtx n f).time = s.time := rfl
@[simp] theorem State.onCtx_turn (s : State) (n : Nat) (f : Ctx → Ctx) : (s.onCtx n f).turn = s.turn := rfl
@[simp] theorem State.onCtx_actor (s : State) (n : Nat) (f : Ctx → Ctx) : (s.onCtx n f).actor = s.actor := rfl
@[simp] theorem State.onCtx_nextTeam (s : State) (n : Nat) (f : Ctx → Ctx) : (s.onCtx n f).nextTeam = s.nextTeam := rfl
@[simp] theorem State.onCtx_iommu (s : State) (n : Nat) (f : Ctx → Ctx) : (s.onCtx n f).iommu = s.iommu := rfl
@[simp] theorem State.onCtx_agenda (s : State) (n : Nat) (f : Ctx → Ctx) : (s.onCtx n f).agenda = s.agenda := rfl

/-! ### `setCluster` writes `clusters` and nothing else -/

@[simp] theorem State.setCluster_cores (s : State) (n : Nat) (c : Cluster) : (s.setCluster n c).cores = s.cores := rfl
@[simp] theorem State.setCluster_slices (s : State) (n : Nat) (c : Cluster) : (s.setCluster n c).slices = s.slices := rfl
@[simp] theorem State.setCluster_vfs (s : State) (n : Nat) (c : Cluster) : (s.setCluster n c).vfs = s.vfs := rfl
@[simp] theorem State.setCluster_teams (s : State) (n : Nat) (c : Cluster) : (s.setCluster n c).teams = s.teams := rfl
@[simp] theorem State.setCluster_home (s : State) (n : Nat) (c : Cluster) : (s.setCluster n c).home = s.home := rfl
@[simp] theorem State.setCluster_mcast (s : State) (n : Nat) (c : Cluster) : (s.setCluster n c).mcast = s.mcast := rfl
@[simp] theorem State.setCluster_ports (s : State) (n : Nat) (c : Cluster) : (s.setCluster n c).ports = s.ports := rfl
@[simp] theorem State.setCluster_fab (s : State) (n : Nat) (c : Cluster) : (s.setCluster n c).fab = s.fab := rfl
@[simp] theorem State.setCluster_mgmt (s : State) (n : Nat) (c : Cluster) : (s.setCluster n c).mgmt = s.mgmt := rfl
@[simp] theorem State.setCluster_time (s : State) (n : Nat) (c : Cluster) : (s.setCluster n c).time = s.time := rfl
@[simp] theorem State.setCluster_turn (s : State) (n : Nat) (c : Cluster) : (s.setCluster n c).turn = s.turn := rfl
@[simp] theorem State.setCluster_actor (s : State) (n : Nat) (c : Cluster) : (s.setCluster n c).actor = s.actor := rfl
@[simp] theorem State.setCluster_nextTeam (s : State) (n : Nat) (c : Cluster) : (s.setCluster n c).nextTeam = s.nextTeam := rfl
@[simp] theorem State.setCluster_iommu (s : State) (n : Nat) (c : Cluster) : (s.setCluster n c).iommu = s.iommu := rfl
@[simp] theorem State.setCluster_agenda (s : State) (n : Nat) (c : Cluster) : (s.setCluster n c).agenda = s.agenda := rfl

/-! ### `onCluster` writes `clusters` and nothing else -/

@[simp] theorem State.onCluster_cores (s : State) (n : Nat) (f : Cluster → Cluster) : (s.onCluster n f).cores = s.cores := rfl
@[simp] theorem State.onCluster_slices (s : State) (n : Nat) (f : Cluster → Cluster) : (s.onCluster n f).slices = s.slices := rfl
@[simp] theorem State.onCluster_vfs (s : State) (n : Nat) (f : Cluster → Cluster) : (s.onCluster n f).vfs = s.vfs := rfl
@[simp] theorem State.onCluster_teams (s : State) (n : Nat) (f : Cluster → Cluster) : (s.onCluster n f).teams = s.teams := rfl
@[simp] theorem State.onCluster_home (s : State) (n : Nat) (f : Cluster → Cluster) : (s.onCluster n f).home = s.home := rfl
@[simp] theorem State.onCluster_mcast (s : State) (n : Nat) (f : Cluster → Cluster) : (s.onCluster n f).mcast = s.mcast := rfl
@[simp] theorem State.onCluster_ports (s : State) (n : Nat) (f : Cluster → Cluster) : (s.onCluster n f).ports = s.ports := rfl
@[simp] theorem State.onCluster_fab (s : State) (n : Nat) (f : Cluster → Cluster) : (s.onCluster n f).fab = s.fab := rfl
@[simp] theorem State.onCluster_mgmt (s : State) (n : Nat) (f : Cluster → Cluster) : (s.onCluster n f).mgmt = s.mgmt := rfl
@[simp] theorem State.onCluster_time (s : State) (n : Nat) (f : Cluster → Cluster) : (s.onCluster n f).time = s.time := rfl
@[simp] theorem State.onCluster_turn (s : State) (n : Nat) (f : Cluster → Cluster) : (s.onCluster n f).turn = s.turn := rfl
@[simp] theorem State.onCluster_actor (s : State) (n : Nat) (f : Cluster → Cluster) : (s.onCluster n f).actor = s.actor := rfl
@[simp] theorem State.onCluster_nextTeam (s : State) (n : Nat) (f : Cluster → Cluster) : (s.onCluster n f).nextTeam = s.nextTeam := rfl
@[simp] theorem State.onCluster_iommu (s : State) (n : Nat) (f : Cluster → Cluster) : (s.onCluster n f).iommu = s.iommu := rfl
@[simp] theorem State.onCluster_agenda (s : State) (n : Nat) (f : Cluster → Cluster) : (s.onCluster n f).agenda = s.agenda := rfl

/-! ### `onStore` writes `clusters` and nothing else -/

@[simp] theorem State.onStore_cores (s : State) (n : Nat) (f : TeamStore → TeamStore) : (s.onStore n f).cores = s.cores := rfl
@[simp] theorem State.onStore_slices (s : State) (n : Nat) (f : TeamStore → TeamStore) : (s.onStore n f).slices = s.slices := rfl
@[simp] theorem State.onStore_vfs (s : State) (n : Nat) (f : TeamStore → TeamStore) : (s.onStore n f).vfs = s.vfs := rfl
@[simp] theorem State.onStore_teams (s : State) (n : Nat) (f : TeamStore → TeamStore) : (s.onStore n f).teams = s.teams := rfl
@[simp] theorem State.onStore_home (s : State) (n : Nat) (f : TeamStore → TeamStore) : (s.onStore n f).home = s.home := rfl
@[simp] theorem State.onStore_mcast (s : State) (n : Nat) (f : TeamStore → TeamStore) : (s.onStore n f).mcast = s.mcast := rfl
@[simp] theorem State.onStore_ports (s : State) (n : Nat) (f : TeamStore → TeamStore) : (s.onStore n f).ports = s.ports := rfl
@[simp] theorem State.onStore_fab (s : State) (n : Nat) (f : TeamStore → TeamStore) : (s.onStore n f).fab = s.fab := rfl
@[simp] theorem State.onStore_mgmt (s : State) (n : Nat) (f : TeamStore → TeamStore) : (s.onStore n f).mgmt = s.mgmt := rfl
@[simp] theorem State.onStore_time (s : State) (n : Nat) (f : TeamStore → TeamStore) : (s.onStore n f).time = s.time := rfl
@[simp] theorem State.onStore_turn (s : State) (n : Nat) (f : TeamStore → TeamStore) : (s.onStore n f).turn = s.turn := rfl
@[simp] theorem State.onStore_actor (s : State) (n : Nat) (f : TeamStore → TeamStore) : (s.onStore n f).actor = s.actor := rfl
@[simp] theorem State.onStore_nextTeam (s : State) (n : Nat) (f : TeamStore → TeamStore) : (s.onStore n f).nextTeam = s.nextTeam := rfl
@[simp] theorem State.onStore_iommu (s : State) (n : Nat) (f : TeamStore → TeamStore) : (s.onStore n f).iommu = s.iommu := rfl
@[simp] theorem State.onStore_agenda (s : State) (n : Nat) (f : TeamStore → TeamStore) : (s.onStore n f).agenda = s.agenda := rfl

/-! ### `onArray` writes `clusters` and nothing else -/

@[simp] theorem State.onArray_cores (s : State) (n : Nat) (f : MxArray → MxArray) : (s.onArray n f).cores = s.cores := rfl
@[simp] theorem State.onArray_slices (s : State) (n : Nat) (f : MxArray → MxArray) : (s.onArray n f).slices = s.slices := rfl
@[simp] theorem State.onArray_vfs (s : State) (n : Nat) (f : MxArray → MxArray) : (s.onArray n f).vfs = s.vfs := rfl
@[simp] theorem State.onArray_teams (s : State) (n : Nat) (f : MxArray → MxArray) : (s.onArray n f).teams = s.teams := rfl
@[simp] theorem State.onArray_home (s : State) (n : Nat) (f : MxArray → MxArray) : (s.onArray n f).home = s.home := rfl
@[simp] theorem State.onArray_mcast (s : State) (n : Nat) (f : MxArray → MxArray) : (s.onArray n f).mcast = s.mcast := rfl
@[simp] theorem State.onArray_ports (s : State) (n : Nat) (f : MxArray → MxArray) : (s.onArray n f).ports = s.ports := rfl
@[simp] theorem State.onArray_fab (s : State) (n : Nat) (f : MxArray → MxArray) : (s.onArray n f).fab = s.fab := rfl
@[simp] theorem State.onArray_mgmt (s : State) (n : Nat) (f : MxArray → MxArray) : (s.onArray n f).mgmt = s.mgmt := rfl
@[simp] theorem State.onArray_time (s : State) (n : Nat) (f : MxArray → MxArray) : (s.onArray n f).time = s.time := rfl
@[simp] theorem State.onArray_turn (s : State) (n : Nat) (f : MxArray → MxArray) : (s.onArray n f).turn = s.turn := rfl
@[simp] theorem State.onArray_actor (s : State) (n : Nat) (f : MxArray → MxArray) : (s.onArray n f).actor = s.actor := rfl
@[simp] theorem State.onArray_nextTeam (s : State) (n : Nat) (f : MxArray → MxArray) : (s.onArray n f).nextTeam = s.nextTeam := rfl
@[simp] theorem State.onArray_iommu (s : State) (n : Nat) (f : MxArray → MxArray) : (s.onArray n f).iommu = s.iommu := rfl
@[simp] theorem State.onArray_agenda (s : State) (n : Nat) (f : MxArray → MxArray) : (s.onArray n f).agenda = s.agenda := rfl

/-! ### `onSlice` writes `slices` and nothing else -/

@[simp] theorem State.onSlice_cores (s : State) (n : Nat) (f : Slice → Slice) : (s.onSlice n f).cores = s.cores := rfl
@[simp] theorem State.onSlice_clusters (s : State) (n : Nat) (f : Slice → Slice) : (s.onSlice n f).clusters = s.clusters := rfl
@[simp] theorem State.onSlice_vfs (s : State) (n : Nat) (f : Slice → Slice) : (s.onSlice n f).vfs = s.vfs := rfl
@[simp] theorem State.onSlice_teams (s : State) (n : Nat) (f : Slice → Slice) : (s.onSlice n f).teams = s.teams := rfl
@[simp] theorem State.onSlice_home (s : State) (n : Nat) (f : Slice → Slice) : (s.onSlice n f).home = s.home := rfl
@[simp] theorem State.onSlice_mcast (s : State) (n : Nat) (f : Slice → Slice) : (s.onSlice n f).mcast = s.mcast := rfl
@[simp] theorem State.onSlice_ports (s : State) (n : Nat) (f : Slice → Slice) : (s.onSlice n f).ports = s.ports := rfl
@[simp] theorem State.onSlice_fab (s : State) (n : Nat) (f : Slice → Slice) : (s.onSlice n f).fab = s.fab := rfl
@[simp] theorem State.onSlice_mgmt (s : State) (n : Nat) (f : Slice → Slice) : (s.onSlice n f).mgmt = s.mgmt := rfl
@[simp] theorem State.onSlice_time (s : State) (n : Nat) (f : Slice → Slice) : (s.onSlice n f).time = s.time := rfl
@[simp] theorem State.onSlice_turn (s : State) (n : Nat) (f : Slice → Slice) : (s.onSlice n f).turn = s.turn := rfl
@[simp] theorem State.onSlice_actor (s : State) (n : Nat) (f : Slice → Slice) : (s.onSlice n f).actor = s.actor := rfl
@[simp] theorem State.onSlice_nextTeam (s : State) (n : Nat) (f : Slice → Slice) : (s.onSlice n f).nextTeam = s.nextTeam := rfl
@[simp] theorem State.onSlice_iommu (s : State) (n : Nat) (f : Slice → Slice) : (s.onSlice n f).iommu = s.iommu := rfl
@[simp] theorem State.onSlice_agenda (s : State) (n : Nat) (f : Slice → Slice) : (s.onSlice n f).agenda = s.agenda := rfl

/-! ### `onVf` writes `vfs` and nothing else -/

@[simp] theorem State.onVf_cores (s : State) (n : Nat) (f : Vf → Vf) : (s.onVf n f).cores = s.cores := rfl
@[simp] theorem State.onVf_clusters (s : State) (n : Nat) (f : Vf → Vf) : (s.onVf n f).clusters = s.clusters := rfl
@[simp] theorem State.onVf_slices (s : State) (n : Nat) (f : Vf → Vf) : (s.onVf n f).slices = s.slices := rfl
@[simp] theorem State.onVf_teams (s : State) (n : Nat) (f : Vf → Vf) : (s.onVf n f).teams = s.teams := rfl
@[simp] theorem State.onVf_home (s : State) (n : Nat) (f : Vf → Vf) : (s.onVf n f).home = s.home := rfl
@[simp] theorem State.onVf_mcast (s : State) (n : Nat) (f : Vf → Vf) : (s.onVf n f).mcast = s.mcast := rfl
@[simp] theorem State.onVf_ports (s : State) (n : Nat) (f : Vf → Vf) : (s.onVf n f).ports = s.ports := rfl
@[simp] theorem State.onVf_fab (s : State) (n : Nat) (f : Vf → Vf) : (s.onVf n f).fab = s.fab := rfl
@[simp] theorem State.onVf_mgmt (s : State) (n : Nat) (f : Vf → Vf) : (s.onVf n f).mgmt = s.mgmt := rfl
@[simp] theorem State.onVf_time (s : State) (n : Nat) (f : Vf → Vf) : (s.onVf n f).time = s.time := rfl
@[simp] theorem State.onVf_turn (s : State) (n : Nat) (f : Vf → Vf) : (s.onVf n f).turn = s.turn := rfl
@[simp] theorem State.onVf_actor (s : State) (n : Nat) (f : Vf → Vf) : (s.onVf n f).actor = s.actor := rfl
@[simp] theorem State.onVf_nextTeam (s : State) (n : Nat) (f : Vf → Vf) : (s.onVf n f).nextTeam = s.nextTeam := rfl
@[simp] theorem State.onVf_iommu (s : State) (n : Nat) (f : Vf → Vf) : (s.onVf n f).iommu = s.iommu := rfl
@[simp] theorem State.onVf_agenda (s : State) (n : Nat) (f : Vf → Vf) : (s.onVf n f).agenda = s.agenda := rfl

/-! ### `onTeam` writes `teams` and nothing else -/

@[simp] theorem State.onTeam_cores (s : State) (n : Nat) (f : Team → Team) : (s.onTeam n f).cores = s.cores := rfl
@[simp] theorem State.onTeam_clusters (s : State) (n : Nat) (f : Team → Team) : (s.onTeam n f).clusters = s.clusters := rfl
@[simp] theorem State.onTeam_slices (s : State) (n : Nat) (f : Team → Team) : (s.onTeam n f).slices = s.slices := rfl
@[simp] theorem State.onTeam_vfs (s : State) (n : Nat) (f : Team → Team) : (s.onTeam n f).vfs = s.vfs := rfl
@[simp] theorem State.onTeam_home (s : State) (n : Nat) (f : Team → Team) : (s.onTeam n f).home = s.home := rfl
@[simp] theorem State.onTeam_mcast (s : State) (n : Nat) (f : Team → Team) : (s.onTeam n f).mcast = s.mcast := rfl
@[simp] theorem State.onTeam_ports (s : State) (n : Nat) (f : Team → Team) : (s.onTeam n f).ports = s.ports := rfl
@[simp] theorem State.onTeam_fab (s : State) (n : Nat) (f : Team → Team) : (s.onTeam n f).fab = s.fab := rfl
@[simp] theorem State.onTeam_mgmt (s : State) (n : Nat) (f : Team → Team) : (s.onTeam n f).mgmt = s.mgmt := rfl
@[simp] theorem State.onTeam_time (s : State) (n : Nat) (f : Team → Team) : (s.onTeam n f).time = s.time := rfl
@[simp] theorem State.onTeam_turn (s : State) (n : Nat) (f : Team → Team) : (s.onTeam n f).turn = s.turn := rfl
@[simp] theorem State.onTeam_actor (s : State) (n : Nat) (f : Team → Team) : (s.onTeam n f).actor = s.actor := rfl
@[simp] theorem State.onTeam_nextTeam (s : State) (n : Nat) (f : Team → Team) : (s.onTeam n f).nextTeam = s.nextTeam := rfl
@[simp] theorem State.onTeam_iommu (s : State) (n : Nat) (f : Team → Team) : (s.onTeam n f).iommu = s.iommu := rfl
@[simp] theorem State.onTeam_agenda (s : State) (n : Nat) (f : Team → Team) : (s.onTeam n f).agenda = s.agenda := rfl

/-! ### `onPort` writes `ports` and nothing else -/

@[simp] theorem State.onPort_cores (s : State) (n : Nat) (f : Port → Port) : (s.onPort n f).cores = s.cores := rfl
@[simp] theorem State.onPort_clusters (s : State) (n : Nat) (f : Port → Port) : (s.onPort n f).clusters = s.clusters := rfl
@[simp] theorem State.onPort_slices (s : State) (n : Nat) (f : Port → Port) : (s.onPort n f).slices = s.slices := rfl
@[simp] theorem State.onPort_vfs (s : State) (n : Nat) (f : Port → Port) : (s.onPort n f).vfs = s.vfs := rfl
@[simp] theorem State.onPort_teams (s : State) (n : Nat) (f : Port → Port) : (s.onPort n f).teams = s.teams := rfl
@[simp] theorem State.onPort_home (s : State) (n : Nat) (f : Port → Port) : (s.onPort n f).home = s.home := rfl
@[simp] theorem State.onPort_mcast (s : State) (n : Nat) (f : Port → Port) : (s.onPort n f).mcast = s.mcast := rfl
@[simp] theorem State.onPort_fab (s : State) (n : Nat) (f : Port → Port) : (s.onPort n f).fab = s.fab := rfl
@[simp] theorem State.onPort_mgmt (s : State) (n : Nat) (f : Port → Port) : (s.onPort n f).mgmt = s.mgmt := rfl
@[simp] theorem State.onPort_time (s : State) (n : Nat) (f : Port → Port) : (s.onPort n f).time = s.time := rfl
@[simp] theorem State.onPort_turn (s : State) (n : Nat) (f : Port → Port) : (s.onPort n f).turn = s.turn := rfl
@[simp] theorem State.onPort_actor (s : State) (n : Nat) (f : Port → Port) : (s.onPort n f).actor = s.actor := rfl
@[simp] theorem State.onPort_nextTeam (s : State) (n : Nat) (f : Port → Port) : (s.onPort n f).nextTeam = s.nextTeam := rfl
@[simp] theorem State.onPort_iommu (s : State) (n : Nat) (f : Port → Port) : (s.onPort n f).iommu = s.iommu := rfl
@[simp] theorem State.onPort_agenda (s : State) (n : Nat) (f : Port → Port) : (s.onPort n f).agenda = s.agenda := rfl

/-! ### `onHome` writes `home` and nothing else -/

@[simp] theorem State.onHome_cores (s : State) (f : Home → Home) : (s.onHome f).cores = s.cores := rfl
@[simp] theorem State.onHome_clusters (s : State) (f : Home → Home) : (s.onHome f).clusters = s.clusters := rfl
@[simp] theorem State.onHome_slices (s : State) (f : Home → Home) : (s.onHome f).slices = s.slices := rfl
@[simp] theorem State.onHome_vfs (s : State) (f : Home → Home) : (s.onHome f).vfs = s.vfs := rfl
@[simp] theorem State.onHome_teams (s : State) (f : Home → Home) : (s.onHome f).teams = s.teams := rfl
@[simp] theorem State.onHome_mcast (s : State) (f : Home → Home) : (s.onHome f).mcast = s.mcast := rfl
@[simp] theorem State.onHome_ports (s : State) (f : Home → Home) : (s.onHome f).ports = s.ports := rfl
@[simp] theorem State.onHome_fab (s : State) (f : Home → Home) : (s.onHome f).fab = s.fab := rfl
@[simp] theorem State.onHome_mgmt (s : State) (f : Home → Home) : (s.onHome f).mgmt = s.mgmt := rfl
@[simp] theorem State.onHome_time (s : State) (f : Home → Home) : (s.onHome f).time = s.time := rfl
@[simp] theorem State.onHome_turn (s : State) (f : Home → Home) : (s.onHome f).turn = s.turn := rfl
@[simp] theorem State.onHome_actor (s : State) (f : Home → Home) : (s.onHome f).actor = s.actor := rfl
@[simp] theorem State.onHome_nextTeam (s : State) (f : Home → Home) : (s.onHome f).nextTeam = s.nextTeam := rfl
@[simp] theorem State.onHome_iommu (s : State) (f : Home → Home) : (s.onHome f).iommu = s.iommu := rfl
@[simp] theorem State.onHome_agenda (s : State) (f : Home → Home) : (s.onHome f).agenda = s.agenda := rfl

/-! ### `onMgmt` writes `mgmt` and nothing else -/

@[simp] theorem State.onMgmt_cores (s : State) (f : Mgmt → Mgmt) : (s.onMgmt f).cores = s.cores := rfl
@[simp] theorem State.onMgmt_clusters (s : State) (f : Mgmt → Mgmt) : (s.onMgmt f).clusters = s.clusters := rfl
@[simp] theorem State.onMgmt_slices (s : State) (f : Mgmt → Mgmt) : (s.onMgmt f).slices = s.slices := rfl
@[simp] theorem State.onMgmt_vfs (s : State) (f : Mgmt → Mgmt) : (s.onMgmt f).vfs = s.vfs := rfl
@[simp] theorem State.onMgmt_teams (s : State) (f : Mgmt → Mgmt) : (s.onMgmt f).teams = s.teams := rfl
@[simp] theorem State.onMgmt_home (s : State) (f : Mgmt → Mgmt) : (s.onMgmt f).home = s.home := rfl
@[simp] theorem State.onMgmt_mcast (s : State) (f : Mgmt → Mgmt) : (s.onMgmt f).mcast = s.mcast := rfl
@[simp] theorem State.onMgmt_ports (s : State) (f : Mgmt → Mgmt) : (s.onMgmt f).ports = s.ports := rfl
@[simp] theorem State.onMgmt_fab (s : State) (f : Mgmt → Mgmt) : (s.onMgmt f).fab = s.fab := rfl
@[simp] theorem State.onMgmt_time (s : State) (f : Mgmt → Mgmt) : (s.onMgmt f).time = s.time := rfl
@[simp] theorem State.onMgmt_turn (s : State) (f : Mgmt → Mgmt) : (s.onMgmt f).turn = s.turn := rfl
@[simp] theorem State.onMgmt_actor (s : State) (f : Mgmt → Mgmt) : (s.onMgmt f).actor = s.actor := rfl
@[simp] theorem State.onMgmt_nextTeam (s : State) (f : Mgmt → Mgmt) : (s.onMgmt f).nextTeam = s.nextTeam := rfl
@[simp] theorem State.onMgmt_iommu (s : State) (f : Mgmt → Mgmt) : (s.onMgmt f).iommu = s.iommu := rfl
@[simp] theorem State.onMgmt_agenda (s : State) (f : Mgmt → Mgmt) : (s.onMgmt f).agenda = s.agenda := rfl

/-! ### `signal` writes `mgmt` and nothing else -/

@[simp] theorem State.signal_cores (s : State) (x : Signal) : (s.signal x).cores = s.cores := rfl
@[simp] theorem State.signal_clusters (s : State) (x : Signal) : (s.signal x).clusters = s.clusters := rfl
@[simp] theorem State.signal_slices (s : State) (x : Signal) : (s.signal x).slices = s.slices := rfl
@[simp] theorem State.signal_vfs (s : State) (x : Signal) : (s.signal x).vfs = s.vfs := rfl
@[simp] theorem State.signal_teams (s : State) (x : Signal) : (s.signal x).teams = s.teams := rfl
@[simp] theorem State.signal_home (s : State) (x : Signal) : (s.signal x).home = s.home := rfl
@[simp] theorem State.signal_mcast (s : State) (x : Signal) : (s.signal x).mcast = s.mcast := rfl
@[simp] theorem State.signal_ports (s : State) (x : Signal) : (s.signal x).ports = s.ports := rfl
@[simp] theorem State.signal_fab (s : State) (x : Signal) : (s.signal x).fab = s.fab := rfl
@[simp] theorem State.signal_time (s : State) (x : Signal) : (s.signal x).time = s.time := rfl
@[simp] theorem State.signal_turn (s : State) (x : Signal) : (s.signal x).turn = s.turn := rfl
@[simp] theorem State.signal_actor (s : State) (x : Signal) : (s.signal x).actor = s.actor := rfl
@[simp] theorem State.signal_nextTeam (s : State) (x : Signal) : (s.signal x).nextTeam = s.nextTeam := rfl
@[simp] theorem State.signal_iommu (s : State) (x : Signal) : (s.signal x).iommu = s.iommu := rfl
@[simp] theorem State.signal_agenda (s : State) (x : Signal) : (s.signal x).agenda = s.agenda := rfl

/-! ### `retireTo` writes `cores` and nothing else -/

@[simp] theorem State.retireTo_clusters (s : State) (p : Word) (r : Ring) (a : Word) : (s.retireTo p r a).clusters = s.clusters := rfl
@[simp] theorem State.retireTo_slices (s : State) (p : Word) (r : Ring) (a : Word) : (s.retireTo p r a).slices = s.slices := rfl
@[simp] theorem State.retireTo_vfs (s : State) (p : Word) (r : Ring) (a : Word) : (s.retireTo p r a).vfs = s.vfs := rfl
@[simp] theorem State.retireTo_teams (s : State) (p : Word) (r : Ring) (a : Word) : (s.retireTo p r a).teams = s.teams := rfl
@[simp] theorem State.retireTo_home (s : State) (p : Word) (r : Ring) (a : Word) : (s.retireTo p r a).home = s.home := rfl
@[simp] theorem State.retireTo_mcast (s : State) (p : Word) (r : Ring) (a : Word) : (s.retireTo p r a).mcast = s.mcast := rfl
@[simp] theorem State.retireTo_ports (s : State) (p : Word) (r : Ring) (a : Word) : (s.retireTo p r a).ports = s.ports := rfl
@[simp] theorem State.retireTo_fab (s : State) (p : Word) (r : Ring) (a : Word) : (s.retireTo p r a).fab = s.fab := rfl
@[simp] theorem State.retireTo_mgmt (s : State) (p : Word) (r : Ring) (a : Word) : (s.retireTo p r a).mgmt = s.mgmt := rfl
@[simp] theorem State.retireTo_time (s : State) (p : Word) (r : Ring) (a : Word) : (s.retireTo p r a).time = s.time := rfl
@[simp] theorem State.retireTo_turn (s : State) (p : Word) (r : Ring) (a : Word) : (s.retireTo p r a).turn = s.turn := rfl
@[simp] theorem State.retireTo_actor (s : State) (p : Word) (r : Ring) (a : Word) : (s.retireTo p r a).actor = s.actor := rfl
@[simp] theorem State.retireTo_nextTeam (s : State) (p : Word) (r : Ring) (a : Word) : (s.retireTo p r a).nextTeam = s.nextTeam := rfl
@[simp] theorem State.retireTo_iommu (s : State) (p : Word) (r : Ring) (a : Word) : (s.retireTo p r a).iommu = s.iommu := rfl
@[simp] theorem State.retireTo_agenda (s : State) (p : Word) (r : Ring) (a : Word) : (s.retireTo p r a).agenda = s.agenda := rfl

/-! ### `retire` writes `cores` and nothing else -/

@[simp] theorem State.retire_clusters (s : State) (n : Nat) : (s.retire n).clusters = s.clusters := rfl
@[simp] theorem State.retire_slices (s : State) (n : Nat) : (s.retire n).slices = s.slices := rfl
@[simp] theorem State.retire_vfs (s : State) (n : Nat) : (s.retire n).vfs = s.vfs := rfl
@[simp] theorem State.retire_teams (s : State) (n : Nat) : (s.retire n).teams = s.teams := rfl
@[simp] theorem State.retire_home (s : State) (n : Nat) : (s.retire n).home = s.home := rfl
@[simp] theorem State.retire_mcast (s : State) (n : Nat) : (s.retire n).mcast = s.mcast := rfl
@[simp] theorem State.retire_ports (s : State) (n : Nat) : (s.retire n).ports = s.ports := rfl
@[simp] theorem State.retire_fab (s : State) (n : Nat) : (s.retire n).fab = s.fab := rfl
@[simp] theorem State.retire_mgmt (s : State) (n : Nat) : (s.retire n).mgmt = s.mgmt := rfl
@[simp] theorem State.retire_time (s : State) (n : Nat) : (s.retire n).time = s.time := rfl
@[simp] theorem State.retire_turn (s : State) (n : Nat) : (s.retire n).turn = s.turn := rfl
@[simp] theorem State.retire_actor (s : State) (n : Nat) : (s.retire n).actor = s.actor := rfl
@[simp] theorem State.retire_nextTeam (s : State) (n : Nat) : (s.retire n).nextTeam = s.nextTeam := rfl
@[simp] theorem State.retire_iommu (s : State) (n : Nat) : (s.retire n).iommu = s.iommu := rfl
@[simp] theorem State.retire_agenda (s : State) (n : Nat) : (s.retire n).agenda = s.agenda := rfl

/-! ### `setEnv` writes `cores` and nothing else -/

@[simp] theorem State.setEnv_clusters (s : State) (n : Nat) (e : FEnv) : (s.setEnv n e).clusters = s.clusters := rfl
@[simp] theorem State.setEnv_slices (s : State) (n : Nat) (e : FEnv) : (s.setEnv n e).slices = s.slices := rfl
@[simp] theorem State.setEnv_vfs (s : State) (n : Nat) (e : FEnv) : (s.setEnv n e).vfs = s.vfs := rfl
@[simp] theorem State.setEnv_teams (s : State) (n : Nat) (e : FEnv) : (s.setEnv n e).teams = s.teams := rfl
@[simp] theorem State.setEnv_home (s : State) (n : Nat) (e : FEnv) : (s.setEnv n e).home = s.home := rfl
@[simp] theorem State.setEnv_mcast (s : State) (n : Nat) (e : FEnv) : (s.setEnv n e).mcast = s.mcast := rfl
@[simp] theorem State.setEnv_ports (s : State) (n : Nat) (e : FEnv) : (s.setEnv n e).ports = s.ports := rfl
@[simp] theorem State.setEnv_fab (s : State) (n : Nat) (e : FEnv) : (s.setEnv n e).fab = s.fab := rfl
@[simp] theorem State.setEnv_mgmt (s : State) (n : Nat) (e : FEnv) : (s.setEnv n e).mgmt = s.mgmt := rfl
@[simp] theorem State.setEnv_time (s : State) (n : Nat) (e : FEnv) : (s.setEnv n e).time = s.time := rfl
@[simp] theorem State.setEnv_turn (s : State) (n : Nat) (e : FEnv) : (s.setEnv n e).turn = s.turn := rfl
@[simp] theorem State.setEnv_actor (s : State) (n : Nat) (e : FEnv) : (s.setEnv n e).actor = s.actor := rfl
@[simp] theorem State.setEnv_nextTeam (s : State) (n : Nat) (e : FEnv) : (s.setEnv n e).nextTeam = s.nextTeam := rfl
@[simp] theorem State.setEnv_iommu (s : State) (n : Nat) (e : FEnv) : (s.setEnv n e).iommu = s.iommu := rfl
@[simp] theorem State.setEnv_agenda (s : State) (n : Nat) (e : FEnv) : (s.setEnv n e).agenda = s.agenda := rfl

/-! ### `wakeBlock` writes `mgmt` and nothing else -/

@[simp] theorem State.wakeBlock_cores (s : State) (b : Nat) : (s.wakeBlock b).cores = s.cores := rfl
@[simp] theorem State.wakeBlock_clusters (s : State) (b : Nat) : (s.wakeBlock b).clusters = s.clusters := rfl
@[simp] theorem State.wakeBlock_slices (s : State) (b : Nat) : (s.wakeBlock b).slices = s.slices := rfl
@[simp] theorem State.wakeBlock_vfs (s : State) (b : Nat) : (s.wakeBlock b).vfs = s.vfs := rfl
@[simp] theorem State.wakeBlock_teams (s : State) (b : Nat) : (s.wakeBlock b).teams = s.teams := rfl
@[simp] theorem State.wakeBlock_home (s : State) (b : Nat) : (s.wakeBlock b).home = s.home := rfl
@[simp] theorem State.wakeBlock_mcast (s : State) (b : Nat) : (s.wakeBlock b).mcast = s.mcast := rfl
@[simp] theorem State.wakeBlock_ports (s : State) (b : Nat) : (s.wakeBlock b).ports = s.ports := rfl
@[simp] theorem State.wakeBlock_fab (s : State) (b : Nat) : (s.wakeBlock b).fab = s.fab := rfl
@[simp] theorem State.wakeBlock_time (s : State) (b : Nat) : (s.wakeBlock b).time = s.time := rfl
@[simp] theorem State.wakeBlock_turn (s : State) (b : Nat) : (s.wakeBlock b).turn = s.turn := rfl
@[simp] theorem State.wakeBlock_actor (s : State) (b : Nat) : (s.wakeBlock b).actor = s.actor := rfl
@[simp] theorem State.wakeBlock_nextTeam (s : State) (b : Nat) : (s.wakeBlock b).nextTeam = s.nextTeam := rfl
@[simp] theorem State.wakeBlock_iommu (s : State) (b : Nat) : (s.wakeBlock b).iommu = s.iommu := rfl
@[simp] theorem State.wakeBlock_agenda (s : State) (b : Nat) : (s.wakeBlock b).agenda = s.agenda := rfl

/-! ### `as` writes `actor` and nothing else -/

@[simp] theorem State.as_cores (s : State) (vf : Nat) : (s.as vf).cores = s.cores := rfl
@[simp] theorem State.as_clusters (s : State) (vf : Nat) : (s.as vf).clusters = s.clusters := rfl
@[simp] theorem State.as_slices (s : State) (vf : Nat) : (s.as vf).slices = s.slices := rfl
@[simp] theorem State.as_vfs (s : State) (vf : Nat) : (s.as vf).vfs = s.vfs := rfl
@[simp] theorem State.as_teams (s : State) (vf : Nat) : (s.as vf).teams = s.teams := rfl
@[simp] theorem State.as_home (s : State) (vf : Nat) : (s.as vf).home = s.home := rfl
@[simp] theorem State.as_mcast (s : State) (vf : Nat) : (s.as vf).mcast = s.mcast := rfl
@[simp] theorem State.as_ports (s : State) (vf : Nat) : (s.as vf).ports = s.ports := rfl
@[simp] theorem State.as_fab (s : State) (vf : Nat) : (s.as vf).fab = s.fab := rfl
@[simp] theorem State.as_mgmt (s : State) (vf : Nat) : (s.as vf).mgmt = s.mgmt := rfl
@[simp] theorem State.as_time (s : State) (vf : Nat) : (s.as vf).time = s.time := rfl
@[simp] theorem State.as_turn (s : State) (vf : Nat) : (s.as vf).turn = s.turn := rfl
@[simp] theorem State.as_nextTeam (s : State) (vf : Nat) : (s.as vf).nextTeam = s.nextTeam := rfl
@[simp] theorem State.as_iommu (s : State) (vf : Nat) : (s.as vf).iommu = s.iommu := rfl
@[simp] theorem State.as_agenda (s : State) (vf : Nat) : (s.as vf).agenda = s.agenda := rfl

/-! ### Reads of what an update writes -/

section Reads

variable (s : State)

theorem State.core_setCore (n m : Nat) (c : Core) : (s.setCore n c).core m = if m = n then c else s.core m :=
  Map.get_set _ _ _ _ _

theorem State.core_onCore (n m : Nat) (f : Core → Core) :
    (s.onCore n f).core m = if m = n then f (s.core n) else s.core m := Map.get_set _ _ _ _ _

@[simp] theorem State.core_onCore_same (n : Nat) (f : Core → Core) : (s.onCore n f).core n = f (s.core n) :=
  Map.get_set_same _ _ _ _

theorem State.core_onCtx (n m : Nat) (f : Ctx → Ctx) :
    (s.onCtx n f).core m = if m = n then { s.core n with ctx := f (s.ctx n) } else s.core m :=
  Map.get_set _ _ _ _ _

theorem State.ctx_onCtx (n m : Nat) (f : Ctx → Ctx) : (s.onCtx n f).ctx m = if m = n then f (s.ctx n) else s.ctx m := by
  simp only [State.ctx, State.core_onCtx]; split <;> rfl

@[simp] theorem State.ctx_onCtx_same (n : Nat) (f : Ctx → Ctx) : (s.onCtx n f).ctx n = f (s.ctx n) := by
  simp [State.ctx_onCtx]

theorem State.ctx_onCore (n m : Nat) (f : Core → Core) :
    (s.onCore n f).ctx m = if m = n then (f (s.core n)).ctx else s.ctx m := by
  simp only [State.ctx, State.core_onCore]; split <;> rfl

theorem State.cluster_onCluster (n m : Nat) (f : Cluster → Cluster) :
    (s.onCluster n f).cluster m = if m = n then f (s.cluster n) else s.cluster m := Map.get_set _ _ _ _ _

theorem State.slice_onSlice (n m : Nat) (f : Slice → Slice) :
    (s.onSlice n f).slice m = if m = n then f (s.slice n) else s.slice m := Map.get_set _ _ _ _ _

theorem State.vf_onVf (n m : Nat) (f : Vf → Vf) :
    (s.onVf n f).vf m = if m = n then f (s.vf n) else s.vf m := Map.get_set _ _ _ _ _

theorem State.team_onTeam (n m : Nat) (f : Team → Team) :
    (s.onTeam n f).team m = if m = n then f (s.team n) else s.team m := Map.get_set _ _ _ _ _

theorem State.port_onPort (n m : Nat) (f : Port → Port) :
    (s.onPort n f).port m = if m = n then f (s.port n) else s.port m := Map.get_set _ _ _ _ _

@[simp] theorem State.home_onHome (f : Home → Home) : (s.onHome f).home = f s.home := rfl
@[simp] theorem State.mgmt_onMgmt (f : Mgmt → Mgmt) : (s.onMgmt f).mgmt = f s.mgmt := rfl

end Reads

/-! ### Scalar registers -/

/-- s0 reads zero in every state. -/
@[simp] theorem Ctx.rs_zero (c : Ctx) : c.rs 0 = 0 := rfl

/-- A scalar write: the destination reads the value unless it is s0, and every other register keeps its own. -/
theorem Ctx.rs_setS (c : Ctx) (d r : SReg) (v : Word) :
    (c.setS d v).rs r = if d = 0 then c.rs r else if r = d then v else c.rs r := by
  unfold Ctx.setS
  split
  · rfl
  · rename_i hd
    unfold Ctx.rs
    by_cases h0 : r = 0
    · subst h0
      have : ¬ (0 : SReg) = d := fun h => hd h.symm
      rw [if_pos rfl, if_neg this, if_pos rfl]
    · rw [if_neg h0, if_neg h0]
      by_cases hr : r = d
      · subst hr; rw [if_pos rfl]; exact Map.get_set_same _ _ _ _
      · have h : r.toNat ≠ d.toNat := fun h => hr (BitVec.eq_of_toNat_eq h)
        rw [if_neg hr]; exact Map.get_set_other _ _ _ h

@[simp] theorem Ctx.setS_pc (c : Ctx) (d : SReg) (v : Word) : (c.setS d v).pc = c.pc := by unfold Ctx.setS; split <;> rfl
@[simp] theorem Ctx.setS_ring (c : Ctx) (d : SReg) (v : Word) : (c.setS d v).ring = c.ring := by
  unfold Ctx.setS; split <;> rfl
@[simp] theorem Ctx.setS_ctl (c : Ctx) (d : SReg) (v : Word) : (c.setS d v).ctl = c.ctl := by
  unfold Ctx.setS; split <;> rfl
@[simp] theorem Ctx.setS_region (c : Ctx) (d : SReg) (v : Word) : (c.setS d v).region = c.region := by
  unfold Ctx.setS; split <;> rfl

end Sys2Proof.Machine
end

