-- ==== Sys2Proof/Laws/Home.lean ====
section
/-! SUPPORT. What the shared operations of the home memory system do: writes read back, a commit leaves its node
committed with nothing staged, and every one of them keeps the memory canonical. -/

namespace Sys2Proof.Machine

/-! ### Committed bytes -/

@[simp] theorem Home.setPlace_mem (h : Home) (l : Nat) (p : Place) : (h.setPlace l p).mem = h.mem := rfl

@[simp] theorem Home.keepOld_mem (h : Home) (l : Nat) : (h.keepOld l).mem = h.mem := by
  unfold Home.keepOld; split <;> rfl

/-- A write's new place of a line moves no byte. -/
@[simp] theorem Home.wrote_mem (h : Home) (l : Nat) : (h.wrote l).mem = h.mem := by unfold Home.wrote; split <;> rfl

@[simp] theorem Home.replaced_mem (h : Home) (l : Nat) : (h.replaced l).mem = h.mem := by
  unfold Home.replaced
  split
  · rfl
  · exact Home.wrote_mem _ _

@[simp] theorem Home.toWq_mem (h : Home) (tick l : Nat) : (h.toWq tick l).mem = h.mem := by
  unfold Home.toWq
  dsimp only
  split
  · rfl
  · rw [Home.setPlace_mem, Home.keepOld_mem]
    split <;> rfl

@[simp] theorem Home.heldAt_mem (h : Home) (tick l : Nat) : (h.heldAt tick l).mem = h.mem := by
  unfold Home.heldAt
  split
  · rfl
  · exact Home.toWq_mem _ _ _

@[simp] theorem Home.dropMscBad_mem (h : Home) (l : Nat) : (h.dropMscBad l).mem = h.mem := by
  unfold Home.dropMscBad
  dsimp only
  split
  · split <;> rfl
  · rfl

/-- Updates that move no byte one by one move none together. -/
theorem Home.foldl_mem {β : Type} {f : Home → β → Home} (hf : ∀ h b, (f h b).mem = h.mem) :
    ∀ (l : List β) (h : Home), (l.foldl f h).mem = h.mem
  | [], _ => rfl
  | b :: r, h => (Home.foldl_mem hf r (f h b)).trans (hf h b)

/-- The lines that a write touches change their places and error marks, and nothing else of the home but the bytes. -/
theorem State.poke_mem (s : State) (pa : Nat) (bs : List Byte) : (s.poke pa bs).home.mem = s.home.mem.setRange pa bs := by
  unfold State.poke State.onHome
  dsimp only
  rw [Home.foldl_mem (fun h l => by
    split
    · exact Home.replaced_mem _ _
    · exact Home.wrote_mem _ _)]
  dsimp only
  rw [Home.foldl_mem (f := fun x1 x2 => x1.keepOld x2) (fun h l => Home.keepOld_mem h l)]

theorem State.poke_other (s : State) (pa : Nat) (bs : List Byte) :
    s.poke pa bs = { s with home := (s.poke pa bs).home } := rfl

/-- Bytes that were written read back. -/
theorem State.peek_poke (s : State) (pa : Nat) (bs : List Byte) : (s.poke pa bs).peek pa bs.length = bs := by
  unfold State.peek
  rw [State.poke_mem]
  exact Memory.getRange_setRange _ _ _

/-- Bytes outside a write stay. -/
theorem State.get_poke_out (s : State) (pa a : Nat) (bs : List Byte) (h : a < pa ∨ pa + bs.length ≤ a) :
    (s.poke pa bs).home.mem.get a = s.home.mem.get a := by
  rw [State.poke_mem]
  exact Memory.get_setRange_out _ _ _ _ h

/-- The canonical form of the home's memory. -/
def State.MemWf (s : State) : Prop := Memory.wf s.home.mem = true

theorem State.MemWf.of_home {s t : State} (h : s.MemWf) (e : t.home = s.home) : t.MemWf := by
  unfold State.MemWf; rw [e]; exact h

theorem State.MemWf.of_mem {s t : State} (h : s.MemWf) (e : t.home.mem = s.home.mem) : t.MemWf := by
  unfold State.MemWf; rw [e]; exact h

theorem State.MemWf.poke {s : State} (h : s.MemWf) (pa : Nat) (bs : List Byte) : (s.poke pa bs).MemWf := by
  unfold State.MemWf; rw [State.poke_mem]; exact Memory.wf_setRange _ _ h

theorem State.MemWf.pokeNat {s : State} (h : s.MemWf) (pa n v : Nat) : (s.pokeNat pa n v).MemWf := h.poke _ _

theorem State.MemWf.pokeWq {s : State} (h : s.MemWf) (pa n v : Nat) : (s.pokeWq pa n v).MemWf :=
  (h.pokeNat pa n v).of_mem (Home.toWq_mem _ _ _)

theorem State.MemWf.foldl {β : Type} {f : State → β → State} (hf : ∀ s b, State.MemWf s → State.MemWf (f s b)) :
    ∀ (l : List β) {s : State}, s.MemWf → (l.foldl f s).MemWf := by
  intro l
  induction l with
  | nil => intro s h; exact h
  | cons b r ih => intro s h; exact ih (hf _ _ h)

/-! ### What changes no memory -/

theorem State.MemWf.onVf {s : State} (h : s.MemWf) (n : Nat) (f : Vf → Vf) : (s.onVf n f).MemWf := h.of_home rfl
theorem State.MemWf.onTeam {s : State} (h : s.MemWf) (n : Nat) (f : Team → Team) : (s.onTeam n f).MemWf := h.of_home rfl
theorem State.MemWf.onSlice {s : State} (h : s.MemWf) (n : Nat) (f : Slice → Slice) : (s.onSlice n f).MemWf := h.of_home rfl
theorem State.MemWf.onMgmt {s : State} (h : s.MemWf) (f : Mgmt → Mgmt) : (s.onMgmt f).MemWf := h.of_home rfl
theorem State.MemWf.signal {s : State} (h : s.MemWf) (x : Signal) : (s.signal x).MemWf := h.of_home rfl

theorem State.MemWf.ringPut {s t : State} (h : s.MemWf) (base size : Nat) (bs : List Byte)
    (e : s.ringPut base size bs = some t) : t.MemWf := by
  unfold State.ringPut at e
  dsimp only at e
  split at e
  · cases e
  · cases e; exact (h.poke _ _).pokeNat _ _ _

theorem State.MemWf.report {s : State} (h : s.MemWf) (e : ErrRec) : (s.report e).MemWf := by
  unfold State.report
  have h1 : (if s.mgmt.errbase = 0 then s
      else match s.ringPut s.mgmt.errbase s.mgmt.errsize e.bytes with
        | some s => s
        | none => s.onMgmt (fun m => { m with errLost := m.errLost + 1 })).MemWf := by
    split
    · exact h
    · split
      · rename_i t ht; exact h.ringPut _ _ _ ht
      · exact h.onMgmt _
  dsimp only
  generalize (if s.mgmt.errbase = 0 then s
      else match s.ringPut s.mgmt.errbase s.mgmt.errsize e.bytes with
        | some s => s
        | none => s.onMgmt (fun m => { m with errLost := m.errLost + 1 })) = u at h1 ⊢
  split
  · exact h1.signal _
  · split
    · have h2 : (u.onHome (fun h => { h with seen := e.pa / 128 :: h.seen })).MemWf := h1.of_mem rfl
      exact h2.signal _
    · exact h1

theorem State.MemWf.consume {s : State} (h : s.MemWf) (n : Nat) : (s.consume n).MemWf := h.onTeam _ _

theorem State.MemWf.wakeBlock {s : State} (h : s.MemWf) (b : Nat) : (s.wakeBlock b).MemWf := h.of_home rfl

theorem State.MemWf.reportFor {s : State} (h : s.MemWf) (vf team line cls pasid : Nat) (e : HErr) :
    (s.reportFor vf team line cls pasid e).MemWf := by
  unfold State.reportFor
  split
  · exact h
  · dsimp only
    split
    · exact (h.report _).of_mem (Home.dropMscBad_mem _ _)
    · exact h

theorem State.MemWf.reportAt {s : State} (h : s.MemWf) (team line cls pasid : Nat) (e : HErr) :
    (s.reportAt team line cls pasid e).MemWf := h.reportFor _ _ _ _ _ _

theorem State.MemWf.meet {s : State} (h : s.MemWf) (team line cls pasid : Nat) (e : HErr) :
    (s.meet team line cls pasid e).MemWf := by
  unfold State.meet
  dsimp only
  split
  · exact h.reportAt _ _ _ _ _
  · exact (h.reportAt _ _ _ _ _).consume _

theorem State.MemWf.applyRed {s : State} (h : s.MemWf) (r : RedOp) : (s.applyRed r).MemWf := h.pokeWq _ _ _

theorem State.MemWf.applyRelease {s : State} (h : s.MemWf) (pa : Nat) (v : Word) : (s.applyRelease pa v).MemWf :=
  (h.pokeWq _ _ _).pokeWq _ _ _

/-! ### Logs and queues -/

theorem State.MemWf.logSignal {s : State} (h : s.MemWf) (vf kind : Nat) (w : Bool) : (s.logSignal vf kind w).MemWf := by
  unfold State.logSignal
  split
  · exact h.signal _
  · split
    · exact h.signal _
    · exact h

/-- A translation that waits changes nothing but the slice's requests (R366 to R369). -/
theorem State.translate_stall {s t : State} {r : Req} {slice pasid va : Nat} {w : Bool}
    (e : s.translate r slice pasid va w = .stall t) : t.home = s.home := by
  unfold State.translate at e
  dsimp only at e
  split at e
  · cases e
  · split at e
    · cases e
    · split at e
      · cases e
      · cases e; rfl

/-- A translation that is refused changes nothing but the slice's refusals (R369). -/
theorem State.translate_refused {s t : State} {r : Req} {slice pasid va : Nat} {w : Bool}
    (e : s.translate r slice pasid va w = .refused t) : t.home = s.home := by
  unfold State.translate at e
  dsimp only at e
  split at e
  · cases e
  · split at e
    · cases e; rfl
    · split at e <;> cases e

/-- Whatever every error of a fold's steps has, the fold's error has. -/
theorem foldE_error {α β ε : Type} {f : α → β → Except ε α} {P : ε → Prop}
    (hf : ∀ a b x, f a b = .error x → P x) : ∀ (l : List β) (a : α) (x : ε), foldE f a l = .error x → P x
  | [], _, _, e => by cases e
  | b :: r, a, x, e => by
    unfold foldE at e
    split at e
    · exact foldE_error hf r _ x e
    · rename_i hb; cases e; exact hf _ _ _ hb

/-- Where a log's bytes stand is found without a change of the memory; an error that the access meets may be reported. -/
theorem State.MemWf.logSegs {s : State} (h : s.MemWf) (vf va n : Nat) (write tell : Bool) {x : State × Bool}
    (e : s.logSegs vf va n write tell = .error x) : x.1.MemWf := by
  unfold State.logSegs at e
  dsimp only at e
  revert e
  generalize pageSegs va n = l
  refine foldE_error (P := fun x => x.1.MemWf) ?_ l [] x
  intro acc p y e
  split at e
  · rename_i ht; cases e; exact h.of_home (State.translate_stall ht)
  · rename_i ht; cases e; exact h.of_home (State.translate_refused ht)
  · split at e
    · cases e
      dsimp only
      split
      · exact h.reportFor _ _ _ _ _ _
      · exact h
    · cases e

theorem State.MemWf.segPut {s : State} (h : s.MemWf) (l : List (Nat × Nat)) (bs : List Byte) : (s.segPut l bs).MemWf := by
  induction l generalizing s bs with
  | nil => exact h
  | cons p r ih => exact ih (h.poke _ _) _

theorem State.MemWf.countDrop {s : State} (h : s.MemWf) (vf : Nat) : (s.countDrop vf).1.MemWf := by
  unfold State.countDrop
  dsimp only
  split
  · exact h
  · split
    · rename_i hx; have := h.logSegs _ _ _ _ _ hx; exact this
    · exact h.segPut _ _

theorem State.MemWf.dropLog {s : State} (h : s.MemWf) (vf kind : Nat) : (s.dropLog vf kind).MemWf := by
  unfold State.dropLog
  split
  · exact h.onVf _ _
  · have hc := h.countDrop vf
    split
    · rename_i hx; rw [hx] at hc; exact hc
    · rename_i hx; rw [hx] at hc; exact hc.onVf _ _

/-- One entry of a log's queue, written, dropped or still waiting. -/
theorem State.MemWf.putLog {s : State} (h : s.MemWf) (vf kind : Nat) (bs : List Byte) : (s.putLog vf kind bs).1.MemWf := by
  unfold State.putLog
  dsimp only
  have lost : ∀ (x : State × Bool), x.1.MemWf →
      (if x.2 then (x.1, false) else ((x.1.dropLog vf kind).logSignal vf kind false, true) : State × Bool).1.MemWf := by
    intro x hx
    split
    · exact hx
    · exact (hx.dropLog _ _).logSignal _ _ _
  split
  · exact h.countDrop _
  · split
    · split
      · rename_i hx; have := h.logSegs _ _ _ _ _ hx; exact this
      · exact h.segPut _ _
    · split
      · exact h.logSignal _ _ _
      · split
        · rename_i hx; exact lost _ (h.logSegs _ _ _ _ _ hx)
        · rename_i hx; exact lost _ (h.logSegs _ _ _ _ _ hx)
        · split
          · exact lost (s, false) h
          · split
            · rename_i hx; exact lost _ (h.logSegs _ _ _ _ _ hx)
            · exact ((h.segPut _ _).segPut _ _).logSignal _ _ _

theorem State.MemWf.flushLog {s : State} (h : s.MemWf) (vf : Nat) : (s.flushLog vf).MemWf := by
  have step : ∀ (l : List (Nat × List Byte)) (x : State × List (Nat × List Byte)), x.1.MemWf →
      (l.foldl (fun (x : State × List (Nat × List Byte)) e =>
        if x.2.any (·.1 == e.1) then (x.1, x.2 ++ [e])
        else match x.1.putLog vf e.1 e.2 with
          | (s, true) => (s, x.2)
          | (s, false) => (s, x.2 ++ [e])) x).1.MemWf := by
    intro l
    induction l with
    | nil => intro x hx; exact hx
    | cons e r ih =>
      intro x hx
      refine ih _ ?_
      dsimp only
      split
      · exact hx
      · have hp := hx.putLog vf e.1 e.2
        split
        · rename_i he; rw [he] at hp; exact hp
        · rename_i he; rw [he] at hp; exact hp
  exact (step _ (s.onVf vf (fun v => { v with logQ := [] }), []) (h.onVf _ _)).onVf _ _

theorem State.MemWf.log {s : State} (h : s.MemWf) (vf kind : Nat) (bs : List Byte) : (s.log vf kind bs).MemWf := by
  unfold State.log
  exact (h.onVf _ _).flushLog vf

theorem State.MemWf.dispatchFault {s : State} (h : s.MemWf) (vf addr reason slice source grid : Nat) :
    (s.dispatchFault vf addr reason slice source grid).MemWf := h.log _ _ _

theorem State.MemWf.enqueue {s : State} (h : s.MemWf) (vf slice k : Nat) (e : QEnt) :
    (s.enqueue vf slice k e).MemWf := ((h.onSlice _ _).wakeBlock _).log _ _ _

theorem State.MemWf.pushTail {s : State} (h : s.MemWf) (vf slice source : Nat) (e : QEnt) :
    (s.pushTail vf slice source e).MemWf := by
  unfold State.pushTail State.pushAt
  split
  · exact h.dispatchFault _ _ _ _ _ _
  · exact h.enqueue _ _ _ _

theorem State.MemWf.pushChecked {s : State} (h : s.MemWf) (vf slice source : Nat) (e : QEnt) :
    (s.pushChecked vf slice source e).MemWf := by
  unfold State.pushChecked
  split
  · exact h.dispatchFault _ _ _ _ _ _
  · exact h.pushTail _ _ _ _

theorem State.MemWf.applyJdec {s : State} (h : s.MemWf) (team vf slice addr pa : Nat) :
    (s.applyJdec team vf slice addr pa).1.MemWf := by
  unfold State.applyJdec
  split
  · dsimp only; exact h.meet _ _ _ _ _
  · dsimp only
    split
    · exact h.dispatchFault _ _ _ _ _ _
    · split
      · exact (h.pokeWq _ _ _).pushChecked _ _ _ _
      · exact h.pokeWq _ _ _

/-! ### The node's commit -/

theorem State.MemWf.commitRed {s : State} (h : s.MemWf) (team : Nat) (r : RedOp) : (s.commitRed team r).MemWf := by
  unfold State.commitRed
  split
  · exact h.meet _ _ _ _ _
  · exact h.applyRed _

theorem State.MemWf.commitObj {s : State} (h : s.MemWf) (team : Nat) (o : Nat × Word) : (s.commitObj team o).MemWf := by
  unfold State.commitObj
  split
  · exact h.meet _ _ _ _ _
  · exact h.applyRelease _ _

theorem State.MemWf.commitPush {s : State} (h : s.MemWf) (team vf : Nat) (p : Push) : (s.commitPush team vf p).MemWf := by
  unfold State.commitPush
  split
  · exact h.pushTail _ _ _ _
  · exact h.applyJdec _ _ _ _ _

theorem State.MemWf.publish {s : State} (h : s.MemWf) (staged : Map (Option Byte)) : (s.publish staged).MemWf := by
  unfold State.MemWf State.publish State.onHome
  dsimp only
  rw [Home.foldl_mem (fun h l => Home.replaced_mem h l)]
  dsimp only
  rw [Home.foldl_mem (fun h l => Home.keepOld_mem h l)]
  have put : ∀ (l : Map (Option Byte)) (m : Memory), Memory.wf m = true →
      Memory.wf (l.foldl (fun (m : Memory) e => match e.2 with | some b => m.set e.1 b | none => m) m) = true := by
    intro l
    induction l with
    | nil => intro m hm; exact hm
    | cons e r ih =>
      intro m hm
      refine ih _ ?_
      dsimp only
      split
      · exact Memory.wf_set _ _ hm
      · exact hm
  exact put _ _ h

/-- The commit of a node (R254) keeps the memory canonical. -/
theorem State.MemWf.commit {s : State} (h : s.MemWf) (team : Nat) : (s.commit team).MemWf := by
  unfold State.commit
  dsimp only
  split
  · exact h
  · refine State.MemWf.foldl (fun t p ht => ht.commitPush _ _ _) _ ?_
    refine State.MemWf.foldl (fun t o ht => ht.commitObj _ _) _ ?_
    refine State.MemWf.foldl (fun t r ht => ht.commitRed _ _) _ ?_
    exact (h.onTeam _ _).publish _

theorem State.MemWf.commitClass {s : State} (h : s.MemWf) (core : Nat) : (s.commitClass core).MemWf := h.commit _

/-- A node that has committed, or that is no node, commits nothing more. -/
theorem State.commit_done (s : State) (team : Nat) (h : (s.team team).live = false ∨ (s.team team).committed = true) :
    s.commit team = s := by
  unfold State.commit
  rcases h with h | h <;> simp [h]

/-- A node that has consumed an error, and so is to be rolled back or killed, commits nothing (R375, R376). -/
theorem State.commit_consumed (s : State) (team : Nat) (h : (s.team team).consumed = true) : s.commit team = s := by
  unfold State.commit
  simp [h]

/-- The bytes of a committed line write. -/
theorem State.MemWf.putLine {s : State} (h : s.MemWf) (line : Nat) (full : Prop) [Decidable full]
    (bs : List (Nat × Byte)) : (s.onHome (fun x =>
      let x := x.keepOld line
      let x := { x with mem := bs.foldl (fun (m : Memory) (b : Nat × Byte) => m.set b.1 b.2) x.mem }
      if full then x.replaced line else x.wrote line)).MemWf := by
  have hw := Memory.wf_foldl_set bs h
  unfold State.MemWf State.onHome
  dsimp only
  split
  · rw [Home.replaced_mem, Home.keepOld_mem]; exact hw
  · rw [Home.wrote_mem, Home.keepOld_mem]; exact hw

theorem State.MemWf.writeLine {s t : State} (h : s.MemWf) (secure : Bool) (team line : Nat) (bs : List (Nat × Byte))
    (e : s.writeLine secure team line bs = .ok t) : t.MemWf := by
  unfold State.writeLine at e
  dsimp only at e
  split at e
  · cases e
  · have hs : (if ((s.team team).live && !(s.team team).committed) && !(s.team team).consumed && !(s.team team).stages line
        && s.overflows team (some line) then s.commit team else s).MemWf := by
      split
      · exact h.commit _
      · exact h
    generalize (if ((s.team team).live && !(s.team team).committed) && !(s.team team).consumed
        && !(s.team team).stages line && s.overflows team (some line) then s.commit team else s) = u at hs e
    split at e
    · cases e; exact hs.onTeam _ _
    · cases e; exact hs.putLine line _ bs

/-- A write for a node keeps the memory canonical, whether it goes through or stops at a line. -/
theorem State.MemWf.writeNode {s : State} (h : s.MemWf) (secure : Bool) (team pa : Nat) (bs : List Byte) :
    match s.writeNode secure team pa bs with
    | .ok t => t.MemWf
    | .error e => e.1.MemWf := by
  unfold State.writeNode
  generalize cutLines pa bs = l
  induction l generalizing s with
  | nil => exact h
  | cons e r ih =>
    cases hw : s.writeLine secure team e.1 e.2 with
    | ok t => simp only [foldE, hw]; exact ih (h.writeLine _ _ _ _ hw)
    | error x => simp only [foldE, hw]; exact h

end Sys2Proof.Machine
end

