-- ==== Sys2Proof/Laws/Cache.lean ====
section
/-! SUPPORT. What the shared operations of the L1 data caches do to the home: they keep its memory canonical, whether a
line is written back, filled or dropped. -/

namespace Sys2Proof.Machine

theorem State.MemWf.onCore {s : State} (h : s.MemWf) (n : Nat) (f : Core → Core) : (s.onCore n f).MemWf := h.of_home rfl
theorem State.MemWf.onCtx {s : State} (h : s.MemWf) (n : Nat) (f : Ctx → Ctx) : (s.onCtx n f).MemWf := h.of_home rfl
theorem State.MemWf.onCluster {s : State} (h : s.MemWf) (n : Nat) (f : Cluster → Cluster) : (s.onCluster n f).MemWf :=
  h.of_home rfl
theorem State.MemWf.onStore {s : State} (h : s.MemWf) (n : Nat) (f : TeamStore → TeamStore) : (s.onStore n f).MemWf :=
  h.of_home rfl
theorem State.MemWf.onArray {s : State} (h : s.MemWf) (n : Nat) (f : MxArray → MxArray) : (s.onArray n f).MemWf :=
  h.of_home rfl

theorem State.MemWf.consumeLocal {s : State} (h : s.MemWf) (core cls : Nat) : (s.consumeLocal core cls).MemWf := by
  unfold State.consumeLocal
  dsimp only
  exact (h.report _).consume _

/-- A pending abort changes nothing at the home (R89). -/
theorem State.abortAt_home (s : State) (core va : Nat) (pc : Word) (e : Option HErr) :
    (s.abortAt core va pc e).home = s.home := by
  unfold State.abortAt
  split <;> rfl

theorem State.MemWf.sendDirty {s : State} (h : s.MemWf) (core : Nat) (l : L1Line) : (s.sendDirty core l).MemWf := by
  unfold State.sendDirty
  have h1 : (if l.badDirty then s.consumeLocal core 0 else s).MemWf := by
    split
    · exact h.consumeLocal _ _
    · exact h
  generalize (if l.badDirty then s.consumeLocal core 0 else s) = u at h1 ⊢
  dsimp only
  split
  · exact h1
  · split
    · rename_i hw; exact h1.writeLine _ _ _ _ hw
    · exact (h1.meet _ _ _ _ _).of_home (State.abortAt_home _ _ _ _ _)

theorem State.MemWf.cleanLine {s : State} (h : s.MemWf) (core : Nat) (l : L1Line) : (s.cleanLine core l).MemWf := by
  unfold State.cleanLine
  split
  · exact h
  · exact (h.sendDirty _ _).onCore _ _

theorem State.MemWf.flushLine {s : State} (h : s.MemWf) (core : Nat) (l : L1Line) : (s.flushLine core l).MemWf :=
  (h.sendDirty _ _).onCore _ _

theorem State.MemWf.cleanRange {s : State} (h : s.MemWf) (core pasid lo hi : Nat) : (s.cleanRange core pasid lo hi).MemWf :=
  State.MemWf.foldl (fun _ _ ht => ht.cleanLine _ _) _ h

theorem State.MemWf.flushRange {s : State} (h : s.MemWf) (core pasid lo hi : Nat) : (s.flushRange core pasid lo hi).MemWf :=
  State.MemWf.foldl (fun _ _ ht => ht.flushLine _ _) _ h

theorem State.MemWf.flushPasid {s : State} (h : s.MemWf) (core pasid : Nat) : (s.flushPasid core pasid).MemWf :=
  h.flushRange _ _ _ _

theorem State.MemWf.makeRoom {s : State} (h : s.MemWf) (core vline : Nat) : (s.makeRoom core vline).MemWf := by
  unfold State.makeRoom
  dsimp only
  split
  · exact h
  · split
    · exact h.flushLine _ _
    · exact h

theorem State.MemWf.allocLine {s : State} (h : s.MemWf) (core pasid vline pline : Nat) :
    (s.allocLine core pasid vline pline).MemWf := by
  unfold State.allocLine
  split
  · exact h
  · exact (h.makeRoom _ _).onCore _ _

theorem State.MemWf.storeLine {s : State} (h : s.MemWf) (core pasid va pa : Nat) (bs : List Byte) :
    (s.storeLine core pasid va pa bs).MemWf := by
  unfold State.storeLine
  dsimp only
  have h1 := h.allocLine core pasid (va / 128) (pa / 128)
  split
  · exact h1
  · split
    · exact h1.consumeLocal _ _
    · exact h1.onCore _ _

theorem Home.fillL2_mem (h : Home) (l : Nat) : (h.fillL2 l).mem = h.mem := by
  unfold Home.fillL2
  split
  · rfl
  · split <;> rfl

/-- A read moves lines into L2 and changes no byte. -/
theorem State.touchRead_mem (s : State) (pa n : Nat) : (s.touchRead pa n).home.mem = s.home.mem := by
  exact Home.foldl_mem Home.fillL2_mem _ _

/-- A read of the device's own answers the committed bytes of a range without an error, and changes no byte. -/
theorem State.devGet_ok (s : State) (a : Asker) (pa n : Nat) (h : s.readErr a.secure 0 pa n = none) :
    s.devGet a pa n = (s.touchRead pa n, some (s.peek pa n)) := by
  unfold State.devGet; rw [h]

theorem State.MemWf.devGet {s : State} (h : s.MemWf) (a : Asker) (pa n : Nat) : (s.devGet a pa n).1.MemWf := by
  unfold State.devGet
  split
  · exact h.reportFor _ _ _ _ _ _
  · exact h.of_mem (State.touchRead_mem _ _ _)

theorem State.MemWf.fillLine {s t : State} (h : s.MemWf) (core pasid vline pline : Nat)
    (e : s.fillLine core pasid vline pline = .ok t) : t.MemWf := by
  unfold State.fillLine at e
  dsimp only at e
  split at e
  · cases e
  · cases e
    exact ((h.of_mem (State.touchRead_mem s _ _)).allocLine _ _ _ _).onCore _ _

/-- A read through L1 keeps the memory canonical, whether it answers bytes or meets an error. -/
theorem State.MemWf.readThrough {s : State} (h : s.MemWf) (core pasid va pa n : Nat) :
    match s.readThrough core pasid va pa n with
    | .ok r => r.1.MemWf
    | .error r => r.1.MemWf := by
  unfold State.readThrough
  cases s.l1Read core pasid va n with
  | hit bs => exact h
  | bad => exact h.consumeLocal _ _
  | miss =>
    cases hf : s.fillLine core pasid (va / 128) (pa / 128) with
    | error e => exact h.meet _ _ _ _ _
    | ok t =>
      have ht := h.fillLine _ _ _ _ hf
      dsimp only
      cases t.l1Read core pasid va n with
      | hit bs => exact ht
      | miss => exact ht
      | bad => exact ht.consumeLocal _ _

end Sys2Proof.Machine
end

