-- ==== Sys2Proof/Laws/Trap.lean ====
section
/-! SUPPORT. What taking an exception and returning from one do, said once: what is saved, what the ring, the pc and
the status become, and what stays. -/

namespace Sys2Proof.Machine

/-- Entering a ring changes the core, the translation requests of its slice and the lease of its array only. -/
theorem State.enterTrap_frame (s : State) (core : Nat) (t : HRing) (epc cause tval : Word) :
    (s.enterTrap core t epc cause tval).home = s.home ∧ (s.enterTrap core t epc cause tval).teams = s.teams
    ∧ (s.enterTrap core t epc cause tval).vfs = s.vfs ∧ (s.enterTrap core t epc cause tval).mgmt = s.mgmt
    ∧ (s.enterTrap core t epc cause tval).time = s.time := ⟨rfl, rfl, rfl, rfl, rfl⟩

/-- The core that enters a ring (R341). -/
theorem State.enterTrap_cores (s : State) (core : Nat) (t : HRing) (epc cause tval : Word) :
    (s.enterTrap core t epc cause tval).cores = (s.onCore core (fun c =>
      let r := c.trapRegs t
      let c := c.setTrapRegs t { r with
        epc := epc, cause := cause, tval := tval, status := statusOnTrap r.status c.ctx.ring }
      { c with ctx := { (c.ctx.trapRegion (toRing t)) with
        ring := toRing t, pc := r.tvec &&& ~~~3#64, wfe := none, mx := none } })).cores := rfl

/-- The registers that ring T saves, as the core after the entry reads them (R337, R338, R341). -/
theorem Core.trapRegs_setTrapRegs (c : Core) (t : HRing) (r : TrapRegs) : (c.setTrapRegs t r).trapRegs t = r := by
  cases t <;> rfl

theorem Core.trapRegs_setTrapRegs_other (c : Core) {t u : HRing} (r : TrapRegs) (h : u ≠ t) :
    (c.setTrapRegs t r).trapRegs u = c.trapRegs u := by
  cases t <;> cases u <;> first | rfl | exact absurd rfl h

/-- A synchronous cause is taken in the ring that escalation gives, or stops the core (R342). -/
theorem State.takeSync_eq (s : State) (core : Nat) (t : TrapInfo) (dist : Nat) :
    s.takeSync core t dist = (match escalate (s.ctx core).ring t.target with
      | none => s.fatalStop core t.cause
      | some (hr, esc) => s.enterTrap core hr ((s.ctx core).pc + BitVec.ofNat 64 t.epcOff)
          (causeWord t.cause t.step esc (if esc then t.target.rank else 0) t.access false dist) t.tval) := rfl

/-- Taking a synchronous cause changes no memory. -/
theorem State.takeSync_home (s : State) (core : Nat) (t : TrapInfo) (dist : Nat) :
    (s.takeSync core t dist).home = s.home := by
  unfold State.takeSync
  dsimp only
  split <;> rfl

theorem State.boundaryTrap_home {s t : State} (core : Nat) (e : s.boundaryTrap core = some t) : t.home = s.home := by
  unfold State.boundaryTrap at e
  dsimp only at e
  split at e
  · cases e; rw [State.takeSync_home]; rfl
  · cases e; rw [State.takeSync_home]; rfl
  · split at e
    · cases e
    · split at e
      · cases e; rfl
      · split at e
        · cases e; rfl
        · cases e

/-- A cause that targets ring D from ring U enters ring D; from the target ring or above, the ring above the current
one; from ring M there is none (R342). -/
theorem escalate_cases (cur target : Ring) :
    (cur.rank < target.rank ∧ escalate cur target = some (target.trapHolder, false))
    ∨ (target.rank ≤ cur.rank ∧ escalate cur target = (match cur with
      | .u => some (.d, true) | .d => some (.h, true) | .h => some (.m, true) | .m => none)) := by
  unfold escalate
  by_cases h : cur.rank < target.rank
  · left; simp [h]
  · right; refine ⟨by omega, ?_⟩; rw [if_neg h]
    try (cases cur <;> rfl)

/-- The outcome of a meaning keeps what its three endings keep. -/
theorem State.finish_cases (s : State) (r : Res) : (∃ t, r = .ok t ∧ s.finish r = .next t)
    ∨ (∃ t i, r = .error (.trap t i) ∧ s.finish r = .next (t.takeSync s.turn i))
    ∨ (∃ t, r = .error (.wait t) ∧ s.finish r = .next t) := by
  match r with
  | .ok t => exact .inl ⟨t, rfl, rfl⟩
  | .error (.trap t i) => exact .inr (.inl ⟨t, i, rfl, rfl⟩)
  | .error (.wait t) => exact .inr (.inr ⟨t, rfl, rfl⟩)

end Sys2Proof.Machine
end

