-- ==== Sys2Proof/Laws/Access.lean ====
section
/-! SUPPORT. What the checks, translations and accesses that memory instructions and engines share do: where each of
them ends, and that none of them leaves the memory out of its canonical form. -/

namespace Sys2Proof.Machine

/-- The state that a meaning stops in. -/
def Stop.state : Stop → State
  | .trap s _ => s
  | .wait s => s

/-- The state that an engine's access stops in. -/
def EngErr.state : EngErr → State
  | .park s => s
  | .fault s _ _ _ _ => s

/-! ### A core's accesses -/

/-- A core's translation answers an address, or stops in a state with the same memory (R89). -/
theorem State.tr_error_home {s : State} {core va : Nat} {w : Bool} {acc : Nat} {e : Stop}
    (h : s.tr core va w acc = .error e) : e.state.home = s.home := by
  unfold State.tr at h
  split at h
  · cases h
  · rename_i hx; cases h; exact State.translate_stall hx
  · rename_i hx; cases h; exact State.translate_refused hx

/-- The address check answers the address itself, in memory and a multiple of the width, or traps in the state it began
from (R88). -/
theorem State.checkMem_cases (s : State) (a : Word) (w : Nat) :
    (rangeIn .memory a.toNat w = true ∧ a.toNat % w = 0 ∧ s.checkMem a w = .ok a.toNat)
    ∨ (rangeIn .memory a.toNat w = false ∧ s.checkMem a w = .error (.trap s (tAddress a.toNat)))
    ∨ (rangeIn .memory a.toNat w = true ∧ a.toNat % w ≠ 0 ∧ s.checkMem a w = .error (.trap s (tMisaligned a.toNat))) := by
  have hrun : s.checkMem a w = if !rangeIn .memory a.toNat w then .error (.trap s (tAddress a.toNat))
      else if a.toNat % w ≠ 0 then .error (.trap s (tMisaligned a.toNat)) else .ok a.toNat := rfl
  rw [hrun]
  rcases Bool.eq_false_or_eq_true (rangeIn .memory a.toNat w) with hr | hr <;> simp only [hr]
  · rcases Nat.eq_zero_or_pos (a.toNat % w) with hm | hm
    · simp [hm]
    · simp [Nat.pos_iff_ne_zero.mp hm]
  · simp

theorem State.MemWf.homeErr {s : State} (h : s.MemWf) (core va line cls : Nat) (e : HErr) :
    (s.homeErr core va line cls e).MemWf :=
  (h.meet _ _ _ _ _).of_home (State.abortAt_home _ _ _ _ _)

theorem State.MemWf.takeSync {s : State} (h : s.MemWf) (core : Nat) (t : TrapInfo) (dist : Nat) :
    (s.takeSync core t dist).MemWf := h.of_home (State.takeSync_home _ _ _ _)

/-- A meaning whose endings are canonical answers a canonical state. -/
theorem State.MemWf.finish {s t : State} {r : Res} (hok : ∀ u, r = .ok u → u.MemWf)
    (herr : ∀ e, r = .error e → e.state.MemWf) (h : s.finish r = .next t) : t.MemWf := by
  rcases State.finish_cases s r with ⟨u, hr, he⟩ | ⟨u, i, hr, he⟩ | ⟨u, hr, he⟩
  · rw [he] at h; cases h; exact hok _ hr
  · rw [he] at h; cases h; exact State.MemWf.takeSync (herr _ hr) _ _ _
  · rw [he] at h; cases h; exact herr _ hr

/-- Breaking a region changes no memory. -/
theorem State.breaking_home (s : State) : s.breaking.home = s.home := by
  unfold State.breaking
  split <;> rfl

/-! ### An engine's accesses (R111) -/

theorem State.engTr_error_home {s : State} {e : Agent} {va : Nat} {w : Bool} {x : EngErr}
    (h : s.engTr e va w = .error x) : x.state.home = s.home := by
  unfold State.engTr at h
  split at h
  · cases h
  · rename_i hx; cases h; exact State.translate_stall hx
  · rename_i hx; cases h; exact State.translate_refused hx

/-- An ending of either kind holds what is asked of its kind. -/
def Both {σ ε : Type} (P : σ → Prop) (Q : ε → Prop) : Except ε σ → Prop
  | .ok t => P t
  | .error e => Q e

/-- Two parts in a row: the first may end with an error, and the second goes on from what the first answered. -/
theorem Both.bind {α σ ε : Type} {R : α → Prop} {P : σ → Prop} {Q : ε → Prop} {x : Except ε α} {f : α → Except ε σ}
    (hx : Both R Q x) (hf : ∀ a, R a → Both P Q (f a)) : Both P Q (x >>= f) :=
  match x, hx with
  | .ok a, h => hf a h
  | .error _, h => h

/-- A fold whose every part keeps a property keeps it to its end. -/
theorem Both.foldE {α σ ε : Type} {P : σ → Prop} {Q : ε → Prop} {f : σ → α → Except ε σ}
    (part : ∀ s a, P s → Both P Q (f s a)) (s : σ) (start : P s) (l : List α) : Both P Q (foldE f s l) := by
  induction l generalizing s with
  | nil => exact start
  | cons a r go =>
    have one := part s a start
    rw [Sys2Proof.Machine.foldE]
    generalize f s a = x at one
    match x, one with
    | .ok t, one => exact go t one
    | .error _, one => exact one

/-- An engine's translation changes no byte, whether it answers an address or parks or faults. -/
theorem State.engTr_home (s : State) (e : Agent) (va : Nat) (w : Bool) :
    Both (fun _ => True) (fun x : EngErr => x.state.home = s.home) (s.engTr e va w) := by
  generalize hx : s.engTr e va w = x
  match x with
  | .ok _ => trivial
  | .error _ => exact State.engTr_error_home hx

/-- An engine's read changes no byte of memory (R111). -/
theorem State.engRead_mem (s : State) (e : Agent) (addr n : Nat) :
    Both (fun x : State × List Byte => x.1.home.mem = s.home.mem) (fun x : EngErr => x.state.home.mem = s.home.mem)
      (s.engRead e addr n) := by
  unfold State.engRead
  split
  · dsimp only
    split <;> rfl
  · refine Both.foldE (P := fun x : State × List Byte => x.1.home.mem = s.home.mem) (fun x p hx => ?_) _ rfl _
    have tr := State.engTr_home x.1 e p.1 false
    refine Both.bind (R := fun _ => True) ?_ (fun pa _ => ?_)
    · generalize x.1.engTr e p.1 false = y at tr
      match y, tr with
      | .ok _, _ => trivial
      | .error _, tr => exact (congrArg Home.mem tr).trans hx
    · split
      · exact hx
      · simp only [Both]
        split
        · rw [State.touchRead_mem]; exact hx
        · exact hx

/-- An engine's write keeps the memory canonical (R111). -/
theorem State.MemWf.engWrite {s : State} (h : s.MemWf) (e : Agent) (addr : Nat) (bs : List Byte) :
    Both State.MemWf (fun x : EngErr => x.state.MemWf) (s.engWrite e addr bs) := by
  unfold State.engWrite
  dsimp only
  split
  · split
    · exact h
    · exact h.onStore _ _
  · refine Both.foldE (fun x p hx => ?_) s h _
    have tr := State.engTr_home x e p.1 true
    refine Both.bind (R := fun _ => True) ?_ (fun pa _ => ?_)
    · generalize x.engTr e p.1 true = y at tr
      match y, tr with
      | .ok _, _ => trivial
      | .error _, tr => exact hx.of_home tr
    · have hw := hx.writeNode (e.secure x) e.team pa ((bs.drop (p.1 - addr)).take p.2)
      generalize x.writeNode (e.secure x) e.team pa ((bs.drop (p.1 - addr)).take p.2) = y at hw
      match y, hw with
      | .ok _, hw => exact hw
      | .error (_, _, _), hw => exact hw

end Sys2Proof.Machine
end

