-- ==== Sys2Proof/Laws/Decode.lean ====
section
/-! SUPPORT. What the decoder reads from each form of word that the encoder writes: the fields come back as they were
written (R41, R46, R47, R50). -/

namespace Sys2Proof

open Machine (bitsOf)

/-! ### Fields -/

theorem bitsOf_eq (x lo len : Nat) : bitsOf x lo len = x / 2 ^ lo % 2 ^ len := by
  simp [bitsOf, Nat.shiftRight_eq_div_pow]

/-- A field that holds a bit vector's number reads as that bit vector. -/
theorem fieldOf_eq {n : Nat} (p lo : Nat) (v : BitVec n) (h : p / 2 ^ lo % 2 ^ n = v.toNat) : fieldOf p lo n = v := by
  simp [fieldOf, bitsOf_eq, h]

theorem bit_eq (p lo : Nat) (b : Bool) (h : p / 2 ^ lo % 2 = b.toNat) : (bitsOf p lo 1 == 1) = b := by
  simp only [bitsOf_eq, Nat.pow_one, h]; cases b <;> rfl

theorem decode_scalar (x : Nat) (h : x < 4294967296) (h2 : x % 2 = 0) : decode [BitVec.ofNat 32 x] = decodeScalar x := by
  have e : (BitVec.ofNat 32 x).toNat = x := by simp [BitVec.toNat_ofNat]; omega
  simp [decode, wordParcels, e, h2]

/-! ### Scalar words -/

/-- The majors of the SR form. -/
def isSR (major : Nat) : Bool :=
  [0x00, 0x17, 0x1C, 0x20, 0x21, 0x22, 0x23, 0x28, 0x29, 0x30, 0x31].contains major

theorem decode_srWord (major fn : Nat) (d a b : SReg) (hm : isSR major = true) (hf : fn < 128) :
    decode (srWord major fn d a b) = decodeSR major fn d a b := by
  have hd := d.isLt
  have ha := a.isLt
  have hb := b.isLt
  have hm' : major < 64 := by simp [isSR] at hm; omega
  unfold srWord
  rw [decode_scalar _ (by omega) (by omega)]
  have e1 : bitsOf (2 * major + 128 * d.toNat + 8192 * a.toNat + 524288 * b.toNat + 33554432 * fn) 1 6 = major := by
    rw [bitsOf_eq]; omega
  have e2 : bitsOf (2 * major + 128 * d.toNat + 8192 * a.toNat + 524288 * b.toNat + 33554432 * fn) 25 7 = fn := by
    rw [bitsOf_eq]; omega
  unfold decodeScalar
  simp only [e1, e2]
  rw [fieldOf_eq _ 7 d (by omega), fieldOf_eq _ 13 a (by omega), fieldOf_eq _ 19 b (by omega)]
  have hmem := List.contains_iff_mem.mp hm
  revert hmem
  simp only [List.mem_cons, List.not_mem_nil, or_false]
  rintro (rfl | rfl | rfl | rfl | rfl | rfl | rfl | rfl | rfl | rfl | rfl) <;> rfl

/-- The majors of the SI form. -/
def isSI (major : Nat) : Bool :=
  !isSR major && major != 0x08 && major != 0x09 && major != 0x0A && major != 0x0B && decide (major < 64)

theorem decode_siWord (major : Nat) (d a : SReg) (imm : BitVec 13) (hm : isSI major = true) :
    decode (siWord major d a imm.toNat) = decodeSI major d a imm := by
  have hd := d.isLt
  have ha := a.isLt
  have hb := imm.isLt
  simp only [isSI, isSR, List.contains_cons, List.contains_nil, Bool.or_false, Bool.and_eq_true, Bool.not_eq_true', Bool.or_eq_false_iff, beq_eq_false_iff_ne, bne_iff_ne,
    decide_eq_true_eq] at hm
  have hm' : major < 64 := hm.2
  unfold siWord
  rw [decode_scalar _ (by omega) (by omega)]
  have e1 : bitsOf (2 * major + 128 * d.toNat + 8192 * a.toNat + 524288 * imm.toNat) 1 6 = major := by
    rw [bitsOf_eq]; omega
  unfold decodeScalar
  simp only [e1]
  rw [fieldOf_eq _ 7 d (by omega), fieldOf_eq _ 13 a (by omega), fieldOf_eq _ 19 imm (by omega)]
  split <;> first | rfl | omega

theorem decode_sbWord (cond : Nat) (a b : SReg) (off : BitVec 10) (hc : cond < 8) :
    decode (sbWord cond a b off) = decodeSB cond a b off := by
  have ha := a.isLt
  have hb := b.isLt
  have ho := off.isLt
  unfold sbWord
  rw [decode_scalar _ (by omega) (by omega)]
  have e1 : bitsOf (2 * 0x0A + 128 * a.toNat + 8192 * b.toNat + 524288 * cond + 4194304 * off.toNat) 1 6 = 0x0A := by
    rw [bitsOf_eq]; omega
  have e2 : bitsOf (2 * 0x0A + 128 * a.toNat + 8192 * b.toNat + 524288 * cond + 4194304 * off.toNat) 19 3 = cond := by
    rw [bitsOf_eq]; omega
  unfold decodeScalar
  simp only [e1, e2]
  rw [fieldOf_eq _ 7 a (by omega), fieldOf_eq _ 13 b (by omega), fieldOf_eq _ 22 off (by omega)]

theorem decode_suWord (major : Nat) (d : SReg) (imm : BitVec 19) (hm : major = 0x08 ∨ major = 0x09 ∨ major = 0x0B) :
    decode (suWord major d imm)
      = .ok (if major = 0x08 then .lui d imm else if major = 0x09 then .aupc d imm else .jal d imm) := by
  have hd := d.isLt
  have hi := imm.isLt
  unfold suWord
  rw [decode_scalar _ (by omega) (by omega)]
  have e1 : bitsOf (2 * major + 128 * d.toNat + 8192 * imm.toNat) 1 6 = major := by
    rw [bitsOf_eq]; omega
  unfold decodeScalar
  simp only [e1]
  rw [fieldOf_eq _ 7 d (by omega), fieldOf_eq _ 13 imm (by omega)]
  rcases hm with h | h | h <;> subst h <;> rfl

/-! ### Vector words -/

theorem Fmt.ofCode_code (f : Fmt) : Fmt.ofCode f.code.toNat = some f := by cases f <;> rfl

theorem VOp.ofCode_code (op : VOp) : VOp.ofCode op.code = some op := by cases op <;> rfl

theorem VOp.code_lt (op : VOp) : op.code < 1024 := by cases op <;> decide

theorem Operand.bits_lt (o : Operand) : o.bits < 1048576 := by
  cases o with
  | v n => have := n.isLt; simp only [Operand.bits]; omega
  | row m ix => have := m.isLt; have := ix.isLt; simp only [Operand.bits]; omega
  | col m ix => have := m.isLt; have := ix.isLt; simp only [Operand.bits]; omega
  | diag m ix => have := m.isLt; have := ix.isLt; simp only [Operand.bits]; omega
  | sp ix st => have := st.isLt; have := ix.isLt; simp only [Operand.bits]; omega
  | q n => have := n.isLt; simp only [Operand.bits]; omega
  | s n => have := n.isLt; simp only [Operand.bits]; omega
  | k n => have := n.isLt; simp only [Operand.bits]; omega

theorem Operand.ofBits_bits (o : Operand) : Operand.ofBits o.bits = o := by
  cases o with
  | v n =>
    have := n.isLt
    have h : (8 * n.toNat) % 8 = 0 := by omega
    simp only [Operand.bits, Operand.ofBits, h]
    rw [fieldOf_eq _ 3 n (by omega)]
  | row m ix =>
    have := m.isLt
    have := ix.isLt
    have h : (1 + 8 * m.toNat + 256 * ix.toNat) % 8 = 1 := by omega
    simp only [Operand.bits, Operand.ofBits, h]
    rw [fieldOf_eq _ 3 m (by omega), fieldOf_eq _ 8 ix (by omega)]
  | col m ix =>
    have := m.isLt
    have := ix.isLt
    have h : (2 + 8 * m.toNat + 256 * ix.toNat) % 8 = 2 := by omega
    simp only [Operand.bits, Operand.ofBits, h]
    rw [fieldOf_eq _ 3 m (by omega), fieldOf_eq _ 8 ix (by omega)]
  | diag m ix =>
    have := m.isLt
    have := ix.isLt
    have h : (3 + 8 * m.toNat + 256 * ix.toNat) % 8 = 3 := by omega
    simp only [Operand.bits, Operand.ofBits, h]
    rw [fieldOf_eq _ 3 m (by omega), fieldOf_eq _ 8 ix (by omega)]
  | sp ix st =>
    have := st.isLt
    have := ix.isLt
    have h : (4 + 256 * ix.toNat + 16384 * st.toNat) % 8 = 4 := by omega
    simp only [Operand.bits, Operand.ofBits, h]
    rw [fieldOf_eq _ 8 ix (by omega), fieldOf_eq _ 14 st (by omega)]
  | q n =>
    have := n.isLt
    have h : (5 + 8 * n.toNat) % 8 = 5 := by omega
    simp only [Operand.bits, Operand.ofBits, h]
    rw [fieldOf_eq _ 3 n (by omega)]
  | s n =>
    have := n.isLt
    have h : (6 + 256 * n.toNat) % 8 = 6 := by omega
    simp only [Operand.bits, Operand.ofBits, h]
    rw [fieldOf_eq _ 8 n (by omega)]
  | k n =>
    have := n.isLt
    have h : (7 + 8 * n.toNat) % 8 = 7 := by omega
    simp only [Operand.bits, Operand.ofBits, h]
    rw [fieldOf_eq _ 3 n (by omega)]

theorem Operand.reserved_bits (o : Operand) : operandReserved o.bits = true := by
  cases o <;> simp only [Operand.bits, operandReserved, bitsOf_eq, Bool.and_eq_true, Bool.or_eq_true, beq_iff_eq,
    Bool.not_eq_true', Bool.or_eq_false_iff, beq_eq_false_iff_ne] <;> omega

theorem Operand.range_bits (o : Operand) : operandRange o.bits = true := by
  cases o <;> simp only [Operand.bits, operandRange, bitsOf_eq, Bool.or_eq_true, beq_iff_eq, decide_eq_true_eq] <;> omega

theorem toNat_parcel (x : Nat) (h : x < 4294967296) : (BitVec.ofNat 32 x).toNat = x := by
  simp [BitVec.toNat_ofNat]; omega

/-- A vector word that passes the checks of R40 comes back. -/
theorem decode_vectorWord (op : VOp) (w : VWord) (h : op.wordOk w = true) :
    decode (vectorWord op w) = .ok (op.instr w) := by
  obtain ⟨k, f, rm, fl, d, a, b⟩ := w
  simp only [VOp.wordOk, Bool.and_eq_true] at h
  obtain ⟨⟨h3, h4⟩, h5⟩ := h
  have hd := d.bits_lt
  have ha := a.bits_lt
  have hb := b.bits_lt
  have hk := k.isLt
  have hf := f.code.isLt
  have hr := rm.isLt
  have hfl := fl.isLt
  have ho := op.code_lt
  have l0 : 1 + 4 * op.code + 4096 * k.toNat + 32768 * f.code.toNat + 524288 * rm.toNat + 4194304 * fl.toNat
      + 16777216 * (d.bits % 256) < 4294967296 := by omega
  have l1 : d.bits / 256 + 65536 * (a.bits % 65536) < 4294967296 := by omega
  have l2 : a.bits / 65536 + 256 * b.bits < 4294967296 := by omega
  simp only [vectorWord, decode, List.getD_cons_zero, List.getD_cons_succ, toNat_parcel _ l0, toNat_parcel _ l1,
    toNat_parcel _ l2]
  have w0 : wordParcels (1 + 4 * op.code + 4096 * k.toNat + 32768 * f.code.toNat + 524288 * rm.toNat + 4194304 * fl.toNat
      + 16777216 * (d.bits % 256)) = 3 := by
    unfold wordParcels; rw [if_neg (by omega), if_pos (by omega)]
  rw [w0, if_neg (by decide), if_pos rfl]
  generalize hp0 : 1 + 4 * op.code + 4096 * k.toNat + 32768 * f.code.toNat + 524288 * rm.toNat + 4194304 * fl.toNat
      + 16777216 * (d.bits % 256) = p0
  generalize hp1 : d.bits / 256 + 65536 * (a.bits % 65536) = p1
  generalize hp2 : a.bits / 65536 + 256 * b.bits = p2
  have ed : bitsOf p0 24 8 + 256 * bitsOf p1 0 16 = d.bits := by simp only [bitsOf_eq]; omega
  have ea : bitsOf p1 16 16 + 65536 * bitsOf p2 0 8 = a.bits := by simp only [bitsOf_eq]; omega
  have eb : bitsOf p2 8 24 = b.bits := by simp only [bitsOf_eq]; omega
  have ef : bitsOf p0 15 4 = f.code.toNat := by simp only [bitsOf_eq]; omega
  have eo : bitsOf p0 2 10 = op.code := by simp only [bitsOf_eq]; omega
  unfold decodeVector
  simp only [ed, ea, eb, ef, eo, Fmt.ofCode_code, VOp.ofCode_code, Operand.ofBits_bits, Operand.reserved_bits,
    Operand.range_bits]
  rw [fieldOf_eq p0 12 k (by omega), fieldOf_eq p0 19 rm (by omega), fieldOf_eq p0 22 fl (by omega)]
  simp [h3, h4, h5]

/-! ### Matrix words -/

theorem MOp.ofCode_code (op : MOp) : MOp.ofCode op.code = some op := by cases op <;> rfl

theorem MOp.code_lt (op : MOp) : op.code < 256 := by cases op <;> decide

/-- The six parcels of a matrix word, and every field read back. -/
theorem decode_matrixWord_fields (op : Nat) (w : MWord) (ho : op < 256) :
    decode (matrixWord op w) =
      (match MOp.ofCode op with
      | none => decodeScalarsOnly op w true
      | some op =>
        if !op.step3 w.rm then .error 3
        else if !(op.step4 w && true) then .error 4
        else if !op.step5 w then .error 5
        else .ok (op.instr w)) := by
  obtain ⟨acc, rowMask, colMask, af, bf, cf, ovw, aKind, aTile, aFirst, aSecond, bKind, bTile, bFirst, bSecond, slot,
    kcount, koff, entry, dparam, dmode, acc2, aScaled, bScaled, rm, rep, advA, advB, accAcross, drainLast, waitCp,
    waitWs⟩ := w
  have h1 := acc.isLt
  have h2 := rowMask.isLt
  have h3 := colMask.isLt
  have h4 := af.code.isLt
  have h5 := bf.code.isLt
  have h6 := cf.code.isLt
  have h7 := ovw.toNat_le
  have h8 := aKind.isLt
  have h9 := aTile.isLt
  have h10 := aFirst.isLt
  have h11 := aSecond.isLt
  have h12 := bKind.isLt
  have h13 := bTile.isLt
  have h14 := bFirst.isLt
  have h15 := bSecond.isLt
  have h16 := slot.isLt
  have h17 := kcount.isLt
  have h18 := koff.isLt
  have h19 := entry.isLt
  have h20 := dparam.isLt
  have h21 := dmode.isLt
  have h22 := acc2.isLt
  have h23 := aScaled.toNat_le
  have h24 := bScaled.toNat_le
  have h25 := rm.isLt
  have h26 := rep.isLt
  have h27 := advA.toNat_le
  have h28 := advB.toNat_le
  have h29 := accAcross.toNat_le
  have h30 := drainLast.toNat_le
  have h31 := waitCp.isLt
  have h32 := waitWs.isLt
  have l0 : 3 + 4 * op + 1024 * acc.toNat + 8192 * rowMask.toNat + 65536 * colMask.toNat
      + 524288 * af.code.toNat + 8388608 * bf.code.toNat + 134217728 * cf.code.toNat
      + 2147483648 * ovw.toNat < 4294967296 := by omega
  have l1 : aKind.toNat + 4 * aTile.toNat + 32 * aFirst.toNat + 2048 * aSecond.toNat
      + 131072 * bKind.toNat + 524288 * bTile.toNat < 4294967296 := by omega
  have l2 : bFirst.toNat + 64 * bSecond.toNat + 4096 * slot.toNat + 16384 * kcount.toNat
      + 8388608 * koff.toNat < 4294967296 := by omega
  have l3 : entry.toNat + 512 * dparam.toNat + 32768 * dmode.toNat + 131072 * acc2.toNat
      + 1048576 * aScaled.toNat + 2097152 * bScaled.toNat + 4194304 * rm.toNat < 4294967296 := by omega
  have l4 : rep.toNat + 256 * advA.toNat + 512 * advB.toNat + 1024 * accAcross.toNat
      + 2048 * drainLast.toNat < 4294967296 := by omega
  have l5 : waitCp.toNat + 64 * waitWs.toNat < 4294967296 := by omega
  simp only [matrixWord, decode, List.getD_cons_zero, List.getD_cons_succ, toNat_parcel _ l0, toNat_parcel _ l1,
    toNat_parcel _ l2, toNat_parcel _ l3, toNat_parcel _ l4, toNat_parcel _ l5]
  have hw : wordParcels (3 + 4 * op + 1024 * acc.toNat + 8192 * rowMask.toNat + 65536 * colMask.toNat
      + 524288 * af.code.toNat + 8388608 * bf.code.toNat + 134217728 * cf.code.toNat
      + 2147483648 * ovw.toNat) = 6 := by
    unfold wordParcels; rw [if_neg (by omega), if_neg (by omega)]
  rw [hw, if_neg (by decide), if_neg (by decide)]
  generalize hp0 : 3 + 4 * op + 1024 * acc.toNat + 8192 * rowMask.toNat + 65536 * colMask.toNat
      + 524288 * af.code.toNat + 8388608 * bf.code.toNat + 134217728 * cf.code.toNat
      + 2147483648 * ovw.toNat = p0
  generalize hp1 : aKind.toNat + 4 * aTile.toNat + 32 * aFirst.toNat + 2048 * aSecond.toNat
      + 131072 * bKind.toNat + 524288 * bTile.toNat = p1
  generalize hp2 : bFirst.toNat + 64 * bSecond.toNat + 4096 * slot.toNat + 16384 * kcount.toNat
      + 8388608 * koff.toNat = p2
  generalize hp3 : entry.toNat + 512 * dparam.toNat + 32768 * dmode.toNat + 131072 * acc2.toNat
      + 1048576 * aScaled.toNat + 2097152 * bScaled.toNat + 4194304 * rm.toNat = p3
  generalize hp4 : rep.toNat + 256 * advA.toNat + 512 * advB.toNat + 1024 * accAcross.toNat
      + 2048 * drainLast.toNat = p4
  generalize hp5 : waitCp.toNat + 64 * waitWs.toNat = p5
  have ea : bitsOf p0 19 4 = af.code.toNat := by simp only [bitsOf_eq]; omega
  have eb : bitsOf p0 23 4 = bf.code.toNat := by simp only [bitsOf_eq]; omega
  have ec : bitsOf p0 27 4 = cf.code.toNat := by simp only [bitsOf_eq]; omega
  have eo : bitsOf p0 2 8 = op := by simp only [bitsOf_eq]; omega
  have er : matrixReserved p1 p2 p3 p4 p5 = true := by
    simp only [matrixReserved, bitsOf_eq, Bool.and_eq_true, beq_iff_eq]; omega
  have ew : MWord.ofParcels af bf cf p0 p1 p2 p3 p4 p5 = ⟨acc, rowMask, colMask, af, bf, cf, ovw, aKind, aTile, aFirst,
      aSecond, bKind, bTile, bFirst, bSecond, slot, kcount, koff, entry, dparam, dmode, acc2, aScaled, bScaled, rm, rep,
      advA, advB, accAcross, drainLast, waitCp, waitWs⟩ := by
    unfold MWord.ofParcels
    rw [fieldOf_eq p0 10 acc (by omega), fieldOf_eq p0 13 rowMask (by omega), fieldOf_eq p0 16 colMask (by omega),
      bit_eq p0 31 ovw (by omega)]
    rw [fieldOf_eq p1 0 aKind (by omega), fieldOf_eq p1 2 aTile (by omega), fieldOf_eq p1 5 aFirst (by omega),
      fieldOf_eq p1 11 aSecond (by omega), fieldOf_eq p1 17 bKind (by omega), fieldOf_eq p1 19 bTile (by omega)]
    rw [fieldOf_eq p2 0 bFirst (by omega), fieldOf_eq p2 6 bSecond (by omega), fieldOf_eq p2 12 slot (by omega),
      fieldOf_eq p2 14 kcount (by omega), fieldOf_eq p2 23 koff (by omega)]
    rw [fieldOf_eq p3 0 entry (by omega), fieldOf_eq p3 9 dparam (by omega), fieldOf_eq p3 15 dmode (by omega),
      fieldOf_eq p3 17 acc2 (by omega), bit_eq p3 20 aScaled (by omega), bit_eq p3 21 bScaled (by omega),
      fieldOf_eq p3 22 rm (by omega)]
    rw [fieldOf_eq p4 0 rep (by omega), bit_eq p4 8 advA (by omega), bit_eq p4 9 advB (by omega),
      bit_eq p4 10 accAcross (by omega), bit_eq p4 11 drainLast (by omega)]
    rw [fieldOf_eq p5 0 waitCp (by omega), fieldOf_eq p5 6 waitWs (by omega)]
  unfold decodeMatrix
  simp only [ea, eb, ec, eo, er, ew, Fmt.ofCode_code]
  all_goals (cases MOp.ofCode op <;> rfl)

/-- A matrix word that passes the checks of R40 comes back. -/
theorem decode_matrixWord (op : MOp) (w : MWord) (h : op.wordOk w = true) :
    decode (matrixWord op.code w) = .ok (op.instr w) := by
  simp only [MOp.wordOk, Bool.and_eq_true] at h
  rw [decode_matrixWord_fields _ _ op.code_lt, MOp.ofCode_code]
  simp [h.1.1, h.1.2, h.2]

end Sys2Proof
end

