-- ==== Sys2Proof/Laws/PerInstr.lean ====
section
/-! SUPPORT. The statements made per instruction. Family EncodeDecode: the words that the encoder writes for a
well-formed instruction decode to that instruction. -/

namespace Sys2Proof

/-- Decoding what the encoder writes gives the instruction back. An event has no words and is not well formed. -/
def Laws.EncodeDecode.Statement (i : Instr) : Prop := i.wf = true → decode (encode i) = .ok i

theorem not_wf_event {i : Instr} (h : i.isEvent = true) : Laws.EncodeDecode.Statement i := by
  intro hw; simp [Instr.wf, h] at hw

theorem round_vector {i : Instr} {op : VOp} {w : VWord} (hp : i.vparts = some (op, w)) (hi : op.instr w = i) :
    Laws.EncodeDecode.Statement i := by
  intro hw
  have ok : op.wordOk w = true := by simp only [Instr.wf, hp, Bool.and_eq_true] at hw; exact hw.1.2
  have e : encode i = vectorWord op w := by simp [encode, hp]
  rw [e, decode_vectorWord op w ok, hi]

theorem round_matrix {i : Instr} {op : MOp} {w : MWord} (hv : i.vparts = none) (hp : i.mparts = some (op, w))
    (hi : op.instr w = i) : Laws.EncodeDecode.Statement i := by
  intro hw
  have ok : op.wordOk w = true := by simp only [Instr.wf, hp, Bool.and_eq_true] at hw; exact hw.2
  have e : encode i = matrixWord op.code w := by simp [encode, hv, hp]
  rw [e, decode_matrixWord op w ok, hi]

theorem decode_siNat (major : Nat) (d a : SReg) (n : Nat) (hm : isSI major = true) (hn : n < 8192) :
    decode (siWord major d a n) = decodeSI major d a (BitVec.ofNat 13 n) := by
  have e : (BitVec.ofNat 13 n).toNat = n := by simp [BitVec.toNat_ofNat]; omega
  have := decode_siWord major d a (BitVec.ofNat 13 n) hm
  rwa [e] at this

theorem decodeShift_of (k : Nat) (d a : SReg) (sh : BitVec 6) (hk : k < 3) :
    decodeShift d a (BitVec.ofNat 13 (2048 * k + sh.toNat))
      = .ok (if k = 0 then .slli d a sh else if k = 1 then .srli d a sh else .srai d a sh) := by
  have hs := sh.isLt
  have e : (BitVec.ofNat 13 (2048 * k + sh.toNat)).toNat = 2048 * k + sh.toNat := by
    simp [BitVec.toNat_ofNat]; omega
  have e2 : (BitVec.ofNat 13 (2048 * k + sh.toNat)).setWidth 6 = sh := by
    apply BitVec.eq_of_toNat_eq; rw [BitVec.toNat_setWidth, e]; omega
  have e3 : (2048 * k + sh.toNat) / 2048 = k := by omega
  have e4 : (2048 * k + sh.toNat) / 64 % 32 = 0 := by omega
  simp only [decodeShift, e, e2, e3, e4]
  rw [if_neg (by omega), if_neg (by omega)]
  split
  · rfl
  · split <;> rfl

theorem decodeShift_of0 (d a : SReg) (sh : BitVec 6) :
    decodeShift d a (BitVec.ofNat 13 sh.toNat) = .ok (.slli d a sh) := by
  have := decodeShift_of 0 d a sh (by decide)
  rwa [Nat.mul_zero, Nat.zero_add] at this

theorem decQpop_of (d : SReg) (q : BitVec 3) : decQpop d (q.setWidth 6) 0 = .ok (.qpop d q) := by
  have hq := q.isLt
  have e : (q.setWidth 6).toNat = q.toNat := by rw [BitVec.toNat_setWidth]; omega
  have e2 : (q.setWidth 6).setWidth 3 = q := by apply BitVec.eq_of_toNat_eq; rw [BitVec.toNat_setWidth, e]; omega
  unfold decQpop
  rw [if_neg (by decide), if_pos (by omega), e2]

theorem decAmocas_of (d a b : SReg) (h : (Instr.amocas d a b).wf = true) : decAmocas d a b = .ok (.amocas d a b) := by
  simp only [Instr.wf, Bool.and_eq_true] at h
  have hb : b ≠ 63 := bne_iff_ne.mp h.1.1.2
  unfold decAmocas; rw [if_neg hb]

theorem decSobind_of (d a b : SReg) (h : (Instr.sobind d a b).wf = true) : decSobind d a b = .ok (.sobind d a b) := by
  simp only [Instr.wf, Bool.and_eq_true] at h
  have hb := Bool.and_eq_true_iff.mp (show (b != 0 && b != 63) = true from h.1.1.2)
  unfold decSobind; rw [if_neg (fun h => h.elim (bne_iff_ne.mp hb.1) (bne_iff_ne.mp hb.2))]

theorem group_of (a : SReg) (i : Instr) (h : groupOk a = true) : group a 0 i = .ok i := by
  unfold group; rw [if_neg (by decide), if_pos h]

theorem groupOk_of_wf {i : Instr} {a : SReg} (h : i.wf = true) (hs : i.scalarOk = groupOk a) : groupOk a = true := by
  simp only [Instr.wf, Bool.and_eq_true] at h; rw [← hs]; exact h.1.1.2

theorem decodeWaitc_of (ld st cp tile : BitVec 3) :
    decodeWaitc 0 0 (BitVec.ofNat 13 (ld.toNat + 8 * st.toNat + 64 * cp.toNat + 512 * tile.toNat))
      = .ok (.waitc ld st cp tile) := by
  have h1 := ld.isLt
  have h2 := st.isLt
  have h3 := cp.isLt
  have h4 := tile.isLt
  have e : (BitVec.ofNat 13 (ld.toNat + 8 * st.toNat + 64 * cp.toNat + 512 * tile.toNat)).toNat
      = ld.toNat + 8 * st.toNat + 64 * cp.toNat + 512 * tile.toNat := by simp [BitVec.toNat_ofNat]; omega
  unfold decodeWaitc
  rw [e, if_pos ⟨rfl, rfl, by omega⟩, fieldOf_eq _ 0 ld (by omega), fieldOf_eq _ 3 st (by omega),
    fieldOf_eq _ 6 cp (by omega), fieldOf_eq _ 9 tile (by omega)]

theorem Csr.number_lt (c : Csr) : c.number < 8192 := by
  cases c with
  | trapReg r t => cases r <;> cases t <;> decide
  | _ => decide

theorem Csr.ofNumber_number (c : Csr) : Csr.ofNumber c.number = some c := by
  cases c with
  | trapReg r t => cases r <;> cases t <;> rfl
  | _ => rfl

/-- A CSR word names its register again. -/
theorem decodeCsr_of (d a : SReg) (c : Csr) (major : Nat) (h : major = 0x32 → a = 0) :
    decodeCsr major d a (BitVec.ofNat 13 c.number)
      = .ok (if major = 0x32 then .csrr d c else if major = 0x33 then .csrw d a c
        else if major = 0x34 then .csrs d a c else .csrc d a c) := by
  have e : (BitVec.ofNat 13 c.number).toNat = c.number := by
    have := c.number_lt; simp [BitVec.toNat_ofNat]; omega
  unfold decodeCsr
  rw [if_neg (fun g => g.2 (h g.1)), e, Csr.ofNumber_number]
  dsimp only
  split
  · rfl
  · rfl
  · rfl
  · rename_i h1 h2 h3; rw [if_neg h1, if_neg h2, if_neg h3]

/-- The three matrix words with scalar operands only. -/
theorem decode_msave (a b : SReg) : decode (encode (.msave a b)) = .ok (.msave a b) := by
  refine (decode_matrixWord_fields 0x08 _ (by decide)).trans ?_
  simp [MOp.ofCode, decodeScalarsOnly, MWord.zero]

theorem decode_mrstr (a b : SReg) : decode (encode (.mrstr a b)) = .ok (.mrstr a b) := by
  refine (decode_matrixWord_fields 0x09 _ (by decide)).trans ?_
  simp [MOp.ofCode, decodeScalarsOnly, MWord.zero]

theorem decode_mstat (d : SReg) : decode (encode (.mstat d)) = .ok (.mstat d) := by
  refine (decode_matrixWord_fields 0x0A _ (by decide)).trans ?_
  simp [MOp.ofCode, decodeScalarsOnly, MWord.zero]

/-! ### One lemma for each instruction -/

theorem Laws.EncodeDecode.add (d a b : SReg) : Laws.EncodeDecode.Statement (.add d a b) :=
  fun _ => decode_srWord _ _ _ _ _ rfl (by decide)
theorem Laws.EncodeDecode.sub (d a b : SReg) : Laws.EncodeDecode.Statement (.sub d a b) :=
  fun _ => decode_srWord _ _ _ _ _ rfl (by decide)
theorem Laws.EncodeDecode.and (d a b : SReg) : Laws.EncodeDecode.Statement (.and d a b) :=
  fun _ => decode_srWord _ _ _ _ _ rfl (by decide)
theorem Laws.EncodeDecode.or (d a b : SReg) : Laws.EncodeDecode.Statement (.or d a b) :=
  fun _ => decode_srWord _ _ _ _ _ rfl (by decide)
theorem Laws.EncodeDecode.xor (d a b : SReg) : Laws.EncodeDecode.Statement (.xor d a b) :=
  fun _ => decode_srWord _ _ _ _ _ rfl (by decide)
theorem Laws.EncodeDecode.andn (d a b : SReg) : Laws.EncodeDecode.Statement (.andn d a b) :=
  fun _ => decode_srWord _ _ _ _ _ rfl (by decide)
theorem Laws.EncodeDecode.sll (d a b : SReg) : Laws.EncodeDecode.Statement (.sll d a b) :=
  fun _ => decode_srWord _ _ _ _ _ rfl (by decide)
theorem Laws.EncodeDecode.srl (d a b : SReg) : Laws.EncodeDecode.Statement (.srl d a b) :=
  fun _ => decode_srWord _ _ _ _ _ rfl (by decide)
theorem Laws.EncodeDecode.sra (d a b : SReg) : Laws.EncodeDecode.Statement (.sra d a b) :=
  fun _ => decode_srWord _ _ _ _ _ rfl (by decide)
theorem Laws.EncodeDecode.slt (d a b : SReg) : Laws.EncodeDecode.Statement (.slt d a b) :=
  fun _ => decode_srWord _ _ _ _ _ rfl (by decide)
theorem Laws.EncodeDecode.sltu (d a b : SReg) : Laws.EncodeDecode.Statement (.sltu d a b) :=
  fun _ => decode_srWord _ _ _ _ _ rfl (by decide)
theorem Laws.EncodeDecode.min (d a b : SReg) : Laws.EncodeDecode.Statement (.min d a b) :=
  fun _ => decode_srWord _ _ _ _ _ rfl (by decide)
theorem Laws.EncodeDecode.max (d a b : SReg) : Laws.EncodeDecode.Statement (.max d a b) :=
  fun _ => decode_srWord _ _ _ _ _ rfl (by decide)
theorem Laws.EncodeDecode.minu (d a b : SReg) : Laws.EncodeDecode.Statement (.minu d a b) :=
  fun _ => decode_srWord _ _ _ _ _ rfl (by decide)
theorem Laws.EncodeDecode.maxu (d a b : SReg) : Laws.EncodeDecode.Statement (.maxu d a b) :=
  fun _ => decode_srWord _ _ _ _ _ rfl (by decide)
theorem Laws.EncodeDecode.mul (d a b : SReg) : Laws.EncodeDecode.Statement (.mul d a b) :=
  fun _ => decode_srWord _ _ _ _ _ rfl (by decide)
theorem Laws.EncodeDecode.mulh (d a b : SReg) : Laws.EncodeDecode.Statement (.mulh d a b) :=
  fun _ => decode_srWord _ _ _ _ _ rfl (by decide)
theorem Laws.EncodeDecode.mulhu (d a b : SReg) : Laws.EncodeDecode.Statement (.mulhu d a b) :=
  fun _ => decode_srWord _ _ _ _ _ rfl (by decide)
theorem Laws.EncodeDecode.div (d a b : SReg) : Laws.EncodeDecode.Statement (.div d a b) :=
  fun _ => decode_srWord _ _ _ _ _ rfl (by decide)
theorem Laws.EncodeDecode.divu (d a b : SReg) : Laws.EncodeDecode.Statement (.divu d a b) :=
  fun _ => decode_srWord _ _ _ _ _ rfl (by decide)
theorem Laws.EncodeDecode.rem (d a b : SReg) : Laws.EncodeDecode.Statement (.rem d a b) :=
  fun _ => decode_srWord _ _ _ _ _ rfl (by decide)
theorem Laws.EncodeDecode.remu (d a b : SReg) : Laws.EncodeDecode.Statement (.remu d a b) :=
  fun _ => decode_srWord _ _ _ _ _ rfl (by decide)
theorem Laws.EncodeDecode.clz (d a : SReg) : Laws.EncodeDecode.Statement (.clz d a) :=
  fun _ => decode_srWord _ _ _ _ _ rfl (by decide)
theorem Laws.EncodeDecode.ctz (d a : SReg) : Laws.EncodeDecode.Statement (.ctz d a) :=
  fun _ => decode_srWord _ _ _ _ _ rfl (by decide)
theorem Laws.EncodeDecode.popc (d a : SReg) : Laws.EncodeDecode.Statement (.popc d a) :=
  fun _ => decode_srWord _ _ _ _ _ rfl (by decide)
theorem Laws.EncodeDecode.bswap (d a : SReg) : Laws.EncodeDecode.Statement (.bswap d a) :=
  fun _ => decode_srWord _ _ _ _ _ rfl (by decide)
theorem Laws.EncodeDecode.sextb (d a : SReg) : Laws.EncodeDecode.Statement (.sextb d a) :=
  fun _ => decode_srWord _ _ _ _ _ rfl (by decide)
theorem Laws.EncodeDecode.sexth (d a : SReg) : Laws.EncodeDecode.Statement (.sexth d a) :=
  fun _ => decode_srWord _ _ _ _ _ rfl (by decide)
theorem Laws.EncodeDecode.sextw (d a : SReg) : Laws.EncodeDecode.Statement (.sextw d a) :=
  fun _ => decode_srWord _ _ _ _ _ rfl (by decide)
theorem Laws.EncodeDecode.addi (d a : SReg) (imm : BitVec 13) : Laws.EncodeDecode.Statement (.addi d a imm) :=
  fun _ => decode_siWord _ _ _ _ rfl
theorem Laws.EncodeDecode.andi (d a : SReg) (imm : BitVec 13) : Laws.EncodeDecode.Statement (.andi d a imm) :=
  fun _ => decode_siWord _ _ _ _ rfl
theorem Laws.EncodeDecode.ori (d a : SReg) (imm : BitVec 13) : Laws.EncodeDecode.Statement (.ori d a imm) :=
  fun _ => decode_siWord _ _ _ _ rfl
theorem Laws.EncodeDecode.xori (d a : SReg) (imm : BitVec 13) : Laws.EncodeDecode.Statement (.xori d a imm) :=
  fun _ => decode_siWord _ _ _ _ rfl
theorem Laws.EncodeDecode.slti (d a : SReg) (imm : BitVec 13) : Laws.EncodeDecode.Statement (.slti d a imm) :=
  fun _ => decode_siWord _ _ _ _ rfl
theorem Laws.EncodeDecode.sltiu (d a : SReg) (imm : BitVec 13) : Laws.EncodeDecode.Statement (.sltiu d a imm) :=
  fun _ => decode_siWord _ _ _ _ rfl
theorem Laws.EncodeDecode.slli (d a : SReg) (sh : BitVec 6) : Laws.EncodeDecode.Statement (.slli d a sh) :=
  fun _ => by
  have := sh.isLt
  exact (decode_siNat _ _ _ sh.toNat rfl (by omega)).trans (decodeShift_of0 d a sh)
theorem Laws.EncodeDecode.srli (d a : SReg) (sh : BitVec 6) : Laws.EncodeDecode.Statement (.srli d a sh) :=
  fun _ => by
  have := sh.isLt
  exact (decode_siNat _ _ _ (2048 + sh.toNat) rfl (by omega)).trans (decodeShift_of 1 _ _ sh (by decide))
theorem Laws.EncodeDecode.srai (d a : SReg) (sh : BitVec 6) : Laws.EncodeDecode.Statement (.srai d a sh) :=
  fun _ => by
  have := sh.isLt
  exact (decode_siNat _ _ _ (4096 + sh.toNat) rfl (by omega)).trans (decodeShift_of 2 _ _ sh (by decide))
theorem Laws.EncodeDecode.lui (d : SReg) (imm : BitVec 19) : Laws.EncodeDecode.Statement (.lui d imm) :=
  fun _ => decode_suWord _ _ _ (by decide)
theorem Laws.EncodeDecode.aupc (d : SReg) (imm : BitVec 19) : Laws.EncodeDecode.Statement (.aupc d imm) :=
  fun _ => decode_suWord _ _ _ (by decide)
theorem Laws.EncodeDecode.beq (a b : SReg) (off : BitVec 10) : Laws.EncodeDecode.Statement (.beq a b off) :=
  fun _ => decode_sbWord _ _ _ _ (by decide)
theorem Laws.EncodeDecode.bne (a b : SReg) (off : BitVec 10) : Laws.EncodeDecode.Statement (.bne a b off) :=
  fun _ => decode_sbWord _ _ _ _ (by decide)
theorem Laws.EncodeDecode.blt (a b : SReg) (off : BitVec 10) : Laws.EncodeDecode.Statement (.blt a b off) :=
  fun _ => decode_sbWord _ _ _ _ (by decide)
theorem Laws.EncodeDecode.bge (a b : SReg) (off : BitVec 10) : Laws.EncodeDecode.Statement (.bge a b off) :=
  fun _ => decode_sbWord _ _ _ _ (by decide)
theorem Laws.EncodeDecode.bltu (a b : SReg) (off : BitVec 10) : Laws.EncodeDecode.Statement (.bltu a b off) :=
  fun _ => decode_sbWord _ _ _ _ (by decide)
theorem Laws.EncodeDecode.bgeu (a b : SReg) (off : BitVec 10) : Laws.EncodeDecode.Statement (.bgeu a b off) :=
  fun _ => decode_sbWord _ _ _ _ (by decide)
theorem Laws.EncodeDecode.jal (d : SReg) (off : BitVec 19) : Laws.EncodeDecode.Statement (.jal d off) :=
  fun _ => decode_suWord _ _ _ (by decide)
theorem Laws.EncodeDecode.jalr (d a : SReg) (imm : BitVec 13) : Laws.EncodeDecode.Statement (.jalr d a imm) :=
  fun _ => decode_siWord _ _ _ _ rfl
theorem Laws.EncodeDecode.ldb (d a : SReg) (imm : BitVec 13) : Laws.EncodeDecode.Statement (.ldb d a imm) :=
  fun _ => decode_siWord _ _ _ _ rfl
theorem Laws.EncodeDecode.ldbu (d a : SReg) (imm : BitVec 13) : Laws.EncodeDecode.Statement (.ldbu d a imm) :=
  fun _ => decode_siWord _ _ _ _ rfl
theorem Laws.EncodeDecode.ldh (d a : SReg) (imm : BitVec 13) : Laws.EncodeDecode.Statement (.ldh d a imm) :=
  fun _ => decode_siWord _ _ _ _ rfl
theorem Laws.EncodeDecode.ldhu (d a : SReg) (imm : BitVec 13) : Laws.EncodeDecode.Statement (.ldhu d a imm) :=
  fun _ => decode_siWord _ _ _ _ rfl
theorem Laws.EncodeDecode.ldw (d a : SReg) (imm : BitVec 13) : Laws.EncodeDecode.Statement (.ldw d a imm) :=
  fun _ => decode_siWord _ _ _ _ rfl
theorem Laws.EncodeDecode.ldwu (d a : SReg) (imm : BitVec 13) : Laws.EncodeDecode.Statement (.ldwu d a imm) :=
  fun _ => decode_siWord _ _ _ _ rfl
theorem Laws.EncodeDecode.ldd (d a : SReg) (imm : BitVec 13) : Laws.EncodeDecode.Statement (.ldd d a imm) :=
  fun _ => decode_siWord _ _ _ _ rfl
theorem Laws.EncodeDecode.qpop (d : SReg) (q : BitVec 3) : Laws.EncodeDecode.Statement (.qpop d q) := fun _ =>
  (decode_srWord _ _ _ _ _ rfl (by decide)).trans (decQpop_of d q)
theorem Laws.EncodeDecode.stb (d a : SReg) (imm : BitVec 13) : Laws.EncodeDecode.Statement (.stb d a imm) :=
  fun _ => decode_siWord _ _ _ _ rfl
theorem Laws.EncodeDecode.sth (d a : SReg) (imm : BitVec 13) : Laws.EncodeDecode.Statement (.sth d a imm) :=
  fun _ => decode_siWord _ _ _ _ rfl
theorem Laws.EncodeDecode.stw (d a : SReg) (imm : BitVec 13) : Laws.EncodeDecode.Statement (.stw d a imm) :=
  fun _ => decode_siWord _ _ _ _ rfl
theorem Laws.EncodeDecode.std (d a : SReg) (imm : BitVec 13) : Laws.EncodeDecode.Statement (.std d a imm) :=
  fun _ => decode_siWord _ _ _ _ rfl
theorem Laws.EncodeDecode.pref (a : SReg) : Laws.EncodeDecode.Statement (.pref a) :=
  fun _ => decode_srWord _ _ _ _ _ rfl (by decide)
theorem Laws.EncodeDecode.cflush (a b : SReg) : Laws.EncodeDecode.Statement (.cflush a b) :=
  fun _ => decode_srWord _ _ _ _ _ rfl (by decide)
theorem Laws.EncodeDecode.cinv (a b : SReg) : Laws.EncodeDecode.Statement (.cinv a b) :=
  fun _ => decode_srWord _ _ _ _ _ rfl (by decide)
theorem Laws.EncodeDecode.czero (a b : SReg) : Laws.EncodeDecode.Statement (.czero a b) :=
  fun _ => decode_srWord _ _ _ _ _ rfl (by decide)
theorem Laws.EncodeDecode.amoswap (d a b : SReg) : Laws.EncodeDecode.Statement (.amoswap d a b) :=
  fun _ => decode_srWord _ _ _ _ _ rfl (by decide)
theorem Laws.EncodeDecode.amoadd (d a b : SReg) : Laws.EncodeDecode.Statement (.amoadd d a b) :=
  fun _ => decode_srWord _ _ _ _ _ rfl (by decide)
theorem Laws.EncodeDecode.amoand (d a b : SReg) : Laws.EncodeDecode.Statement (.amoand d a b) :=
  fun _ => decode_srWord _ _ _ _ _ rfl (by decide)
theorem Laws.EncodeDecode.amoor (d a b : SReg) : Laws.EncodeDecode.Statement (.amoor d a b) :=
  fun _ => decode_srWord _ _ _ _ _ rfl (by decide)
theorem Laws.EncodeDecode.amoxor (d a b : SReg) : Laws.EncodeDecode.Statement (.amoxor d a b) :=
  fun _ => decode_srWord _ _ _ _ _ rfl (by decide)
theorem Laws.EncodeDecode.amomin (d a b : SReg) : Laws.EncodeDecode.Statement (.amomin d a b) :=
  fun _ => decode_srWord _ _ _ _ _ rfl (by decide)
theorem Laws.EncodeDecode.amomax (d a b : SReg) : Laws.EncodeDecode.Statement (.amomax d a b) :=
  fun _ => decode_srWord _ _ _ _ _ rfl (by decide)
theorem Laws.EncodeDecode.amominu (d a b : SReg) : Laws.EncodeDecode.Statement (.amominu d a b) :=
  fun _ => decode_srWord _ _ _ _ _ rfl (by decide)
theorem Laws.EncodeDecode.amomaxu (d a b : SReg) : Laws.EncodeDecode.Statement (.amomaxu d a b) :=
  fun _ => decode_srWord _ _ _ _ _ rfl (by decide)
theorem Laws.EncodeDecode.amofadds (d a b : SReg) : Laws.EncodeDecode.Statement (.amofadds d a b) :=
  fun _ => decode_srWord _ _ _ _ _ rfl (by decide)
theorem Laws.EncodeDecode.amofaddd (d a b : SReg) : Laws.EncodeDecode.Statement (.amofaddd d a b) :=
  fun _ => decode_srWord _ _ _ _ _ rfl (by decide)
theorem Laws.EncodeDecode.amocas (d a b : SReg) : Laws.EncodeDecode.Statement (.amocas d a b) := fun h =>
  (decode_srWord _ _ _ _ _ rfl (by decide)).trans (decAmocas_of d a b h)
theorem Laws.EncodeDecode.redadd (a b : SReg) : Laws.EncodeDecode.Statement (.redadd a b) :=
  fun _ => decode_srWord _ _ _ _ _ rfl (by decide)
theorem Laws.EncodeDecode.redand (a b : SReg) : Laws.EncodeDecode.Statement (.redand a b) :=
  fun _ => decode_srWord _ _ _ _ _ rfl (by decide)
theorem Laws.EncodeDecode.redor (a b : SReg) : Laws.EncodeDecode.Statement (.redor a b) :=
  fun _ => decode_srWord _ _ _ _ _ rfl (by decide)
theorem Laws.EncodeDecode.redxor (a b : SReg) : Laws.EncodeDecode.Statement (.redxor a b) :=
  fun _ => decode_srWord _ _ _ _ _ rfl (by decide)
theorem Laws.EncodeDecode.redmin (a b : SReg) : Laws.EncodeDecode.Statement (.redmin a b) :=
  fun _ => decode_srWord _ _ _ _ _ rfl (by decide)
theorem Laws.EncodeDecode.redmax (a b : SReg) : Laws.EncodeDecode.Statement (.redmax a b) :=
  fun _ => decode_srWord _ _ _ _ _ rfl (by decide)
theorem Laws.EncodeDecode.redminu (a b : SReg) : Laws.EncodeDecode.Statement (.redminu a b) :=
  fun _ => decode_srWord _ _ _ _ _ rfl (by decide)
theorem Laws.EncodeDecode.redmaxu (a b : SReg) : Laws.EncodeDecode.Statement (.redmaxu a b) :=
  fun _ => decode_srWord _ _ _ _ _ rfl (by decide)
theorem Laws.EncodeDecode.redfadds (a b : SReg) : Laws.EncodeDecode.Statement (.redfadds a b) :=
  fun _ => decode_srWord _ _ _ _ _ rfl (by decide)
theorem Laws.EncodeDecode.redfaddd (a b : SReg) : Laws.EncodeDecode.Statement (.redfaddd a b) :=
  fun _ => decode_srWord _ _ _ _ _ rfl (by decide)
theorem Laws.EncodeDecode.alb (a : SReg) : Laws.EncodeDecode.Statement (.alb a) :=
  fun _ => decode_srWord _ _ _ _ _ rfl (by decide)
theorem Laws.EncodeDecode.ale (d : SReg) : Laws.EncodeDecode.Statement (.ale d) :=
  fun _ => decode_srWord _ _ _ _ _ rfl (by decide)
theorem Laws.EncodeDecode.acq (d a : SReg) : Laws.EncodeDecode.Statement (.acq d a) :=
  fun _ => decode_srWord _ _ _ _ _ rfl (by decide)
theorem Laws.EncodeDecode.rel (d a b : SReg) : Laws.EncodeDecode.Statement (.rel d a b) :=
  fun _ => decode_srWord _ _ _ _ _ rfl (by decide)
theorem Laws.EncodeDecode.fence (sc : Scope) : Laws.EncodeDecode.Statement (.fence sc) := fun _ =>
  (decode_srWord _ _ _ _ _ rfl (by decide)).trans (by cases sc <;> rfl)
theorem Laws.EncodeDecode.cbar : Laws.EncodeDecode.Statement (.cbar) :=
  fun _ => decode_srWord _ _ _ _ _ rfl (by decide)
theorem Laws.EncodeDecode.sobind (d a b : SReg) : Laws.EncodeDecode.Statement (.sobind d a b) := fun h =>
  (decode_srWord _ _ _ _ _ rfl (by decide)).trans (decSobind_of d a b h)
theorem Laws.EncodeDecode.bcwait (d a b : SReg) : Laws.EncodeDecode.Statement (.bcwait d a b) :=
  fun _ => decode_srWord _ _ _ _ _ rfl (by decide)
theorem Laws.EncodeDecode.waittl (t : TL) (b : SReg) : Laws.EncodeDecode.Statement (.waittl t b) := fun _ =>
  (decode_srWord _ _ _ _ _ rfl (by decide)).trans (by cases t <;> rfl)
theorem Laws.EncodeDecode.tlrd (d : SReg) (t : TL) (issued : Bool) : Laws.EncodeDecode.Statement (.tlrd d t issued) :=
  fun _ =>
  (decode_srWord _ _ _ _ _ rfl (by decide)).trans (by cases t <;> cases issued <;> rfl)
theorem Laws.EncodeDecode.mbwait (d a : SReg) : Laws.EncodeDecode.Statement (.mbwait d a) :=
  fun _ => decode_srWord _ _ _ _ _ rfl (by decide)
theorem Laws.EncodeDecode.mback (a b : SReg) : Laws.EncodeDecode.Statement (.mback a b) :=
  fun _ => decode_srWord _ _ _ _ _ rfl (by decide)
theorem Laws.EncodeDecode.waitc (ld st cp tile : BitVec 3) : Laws.EncodeDecode.Statement (.waitc ld st cp tile) :=
  fun _ => by
  have := ld.isLt; have := st.isLt; have := cp.isLt; have := tile.isLt
  exact (decode_siNat _ _ _ _ rfl (by omega)).trans (decodeWaitc_of ld st cp tile)
theorem Laws.EncodeDecode.cpy (d a : SReg) : Laws.EncodeDecode.Statement (.cpy d a) := fun h =>
  (decode_srWord _ _ _ _ _ rfl (by decide)).trans (group_of a _ (groupOk_of_wf h rfl))
theorem Laws.EncodeDecode.cpyb (d a : SReg) : Laws.EncodeDecode.Statement (.cpyb d a) := fun h =>
  (decode_srWord _ _ _ _ _ rfl (by decide)).trans (group_of a _ (groupOk_of_wf h rfl))
theorem Laws.EncodeDecode.gath (d a : SReg) : Laws.EncodeDecode.Statement (.gath d a) := fun h =>
  (decode_srWord _ _ _ _ _ rfl (by decide)).trans (group_of a _ (groupOk_of_wf h rfl))
theorem Laws.EncodeDecode.scat (d a : SReg) : Laws.EncodeDecode.Statement (.scat d a) := fun h =>
  (decode_srWord _ _ _ _ _ rfl (by decide)).trans (group_of a _ (groupOk_of_wf h rfl))
theorem Laws.EncodeDecode.wstr (d a : SReg) : Laws.EncodeDecode.Statement (.wstr d a) := fun h =>
  (decode_srWord _ _ _ _ _ rfl (by decide)).trans (group_of a _ (groupOk_of_wf h rfl))
theorem Laws.EncodeDecode.lease (d : SReg) : Laws.EncodeDecode.Statement (.lease d) :=
  fun _ => decode_srWord _ _ _ _ _ rfl (by decide)
theorem Laws.EncodeDecode.unlease : Laws.EncodeDecode.Statement (.unlease) :=
  fun _ => decode_srWord _ _ _ _ _ rfl (by decide)
theorem Laws.EncodeDecode.dload (d a : SReg) : Laws.EncodeDecode.Statement (.dload d a) := fun h =>
  (decode_srWord _ _ _ _ _ rfl (by decide)).trans (group_of a _ (groupOk_of_wf h rfl))
theorem Laws.EncodeDecode.fxput (d a : SReg) : Laws.EncodeDecode.Statement (.fxput d a) := fun h =>
  (decode_srWord _ _ _ _ _ rfl (by decide)).trans (group_of a _ (groupOk_of_wf h rfl))
theorem Laws.EncodeDecode.fxred (d a : SReg) : Laws.EncodeDecode.Statement (.fxred d a) := fun h =>
  (decode_srWord _ _ _ _ _ rfl (by decide)).trans (group_of a _ (groupOk_of_wf h rfl))
theorem Laws.EncodeDecode.step (d : SReg) : Laws.EncodeDecode.Statement (.step d) :=
  fun _ => decode_srWord _ _ _ _ _ rfl (by decide)
theorem Laws.EncodeDecode.stepnb (d : SReg) : Laws.EncodeDecode.Statement (.stepnb d) :=
  fun _ => decode_srWord _ _ _ _ _ rfl (by decide)
theorem Laws.EncodeDecode.stepwt (d a : SReg) : Laws.EncodeDecode.Statement (.stepwt d a) :=
  fun _ => decode_srWord _ _ _ _ _ rfl (by decide)
theorem Laws.EncodeDecode.fxstat (d a : SReg) : Laws.EncodeDecode.Statement (.fxstat d a) :=
  fun _ => decode_srWord _ _ _ _ _ rfl (by decide)
theorem Laws.EncodeDecode.spawn (a b : SReg) : Laws.EncodeDecode.Statement (.spawn a b) :=
  fun _ => decode_srWord _ _ _ _ _ rfl (by decide)
theorem Laws.EncodeDecode.jdec (a b : SReg) : Laws.EncodeDecode.Statement (.jdec a b) :=
  fun _ => decode_srWord _ _ _ _ _ rfl (by decide)
theorem Laws.EncodeDecode.exit : Laws.EncodeDecode.Statement (.exit) :=
  fun _ => decode_srWord _ _ _ _ _ rfl (by decide)
theorem Laws.EncodeDecode.yield (d : SReg) : Laws.EncodeDecode.Statement (.yield d) :=
  fun _ => decode_srWord _ _ _ _ _ rfl (by decide)
theorem Laws.EncodeDecode.tcoord (d : SReg) : Laws.EncodeDecode.Statement (.tcoord d) :=
  fun _ => decode_srWord _ _ _ _ _ rfl (by decide)
theorem Laws.EncodeDecode.gridid (d : SReg) : Laws.EncodeDecode.Statement (.gridid d) :=
  fun _ => decode_srWord _ _ _ _ _ rfl (by decide)
theorem Laws.EncodeDecode.eret : Laws.EncodeDecode.Statement (.eret) :=
  fun _ => decode_srWord _ _ _ _ _ rfl (by decide)
theorem Laws.EncodeDecode.brk : Laws.EncodeDecode.Statement (.brk) := fun _ => decode_srWord _ _ _ _ _ rfl (by decide)
theorem Laws.EncodeDecode.wfe (d a : SReg) : Laws.EncodeDecode.Statement (.wfe d a) :=
  fun _ => decode_srWord _ _ _ _ _ rfl (by decide)
theorem Laws.EncodeDecode.pdone (d a : SReg) : Laws.EncodeDecode.Statement (.pdone d a) :=
  fun _ => decode_srWord _ _ _ _ _ rfl (by decide)
theorem Laws.EncodeDecode.halt : Laws.EncodeDecode.Statement (.halt) :=
  fun _ => decode_srWord _ _ _ _ _ rfl (by decide)
theorem Laws.EncodeDecode.csrr (d : SReg) (c : Csr) : Laws.EncodeDecode.Statement (.csrr d c) := fun _ =>
  (decode_siNat _ _ _ _ rfl c.number_lt).trans (decodeCsr_of d 0 c 0x32 (fun _ => rfl))
theorem Laws.EncodeDecode.csrw (d a : SReg) (c : Csr) : Laws.EncodeDecode.Statement (.csrw d a c) := fun _ =>
  (decode_siNat _ _ _ _ rfl c.number_lt).trans (decodeCsr_of d a c 0x33 (fun h => absurd h (by decide)))
theorem Laws.EncodeDecode.csrs (d a : SReg) (c : Csr) : Laws.EncodeDecode.Statement (.csrs d a c) := fun _ =>
  (decode_siNat _ _ _ _ rfl c.number_lt).trans (decodeCsr_of d a c 0x34 (fun h => absurd h (by decide)))
theorem Laws.EncodeDecode.csrc (d a : SReg) (c : Csr) : Laws.EncodeDecode.Statement (.csrc d a c) := fun _ =>
  (decode_siNat _ _ _ _ rfl c.number_lt).trans (decodeCsr_of d a c 0x35 (fun h => absurd h (by decide)))
theorem Laws.EncodeDecode.trap (code : BitVec 13) : Laws.EncodeDecode.Statement (.trap code) :=
  fun _ => decode_siWord _ _ _ _ rfl
theorem Laws.EncodeDecode.vadd (w : VWord) : Laws.EncodeDecode.Statement (.vadd w) := round_vector rfl rfl
theorem Laws.EncodeDecode.vsub (w : VWord) : Laws.EncodeDecode.Statement (.vsub w) := round_vector rfl rfl
theorem Laws.EncodeDecode.vmul (w : VWord) : Laws.EncodeDecode.Statement (.vmul w) := round_vector rfl rfl
theorem Laws.EncodeDecode.vdiv (w : VWord) : Laws.EncodeDecode.Statement (.vdiv w) := round_vector rfl rfl
theorem Laws.EncodeDecode.vfma (w : VWord) : Laws.EncodeDecode.Statement (.vfma w) := round_vector rfl rfl
theorem Laws.EncodeDecode.vfms (w : VWord) : Laws.EncodeDecode.Statement (.vfms w) := round_vector rfl rfl
theorem Laws.EncodeDecode.vfnma (w : VWord) : Laws.EncodeDecode.Statement (.vfnma w) := round_vector rfl rfl
theorem Laws.EncodeDecode.vfnms (w : VWord) : Laws.EncodeDecode.Statement (.vfnms w) := round_vector rfl rfl
theorem Laws.EncodeDecode.vmax (w : VWord) : Laws.EncodeDecode.Statement (.vmax w) := round_vector rfl rfl
theorem Laws.EncodeDecode.vmin (w : VWord) : Laws.EncodeDecode.Statement (.vmin w) := round_vector rfl rfl
theorem Laws.EncodeDecode.vabs (w : VWord) : Laws.EncodeDecode.Statement (.vabs w) := round_vector rfl rfl
theorem Laws.EncodeDecode.vneg (w : VWord) : Laws.EncodeDecode.Statement (.vneg w) := round_vector rfl rfl
theorem Laws.EncodeDecode.vsqrt (w : VWord) : Laws.EncodeDecode.Statement (.vsqrt w) := round_vector rfl rfl
theorem Laws.EncodeDecode.vcpsgn (w : VWord) : Laws.EncodeDecode.Statement (.vcpsgn w) := round_vector rfl rfl
theorem Laws.EncodeDecode.vexp2 (w : VWord) : Laws.EncodeDecode.Statement (.vexp2 w) := round_vector rfl rfl
theorem Laws.EncodeDecode.vlog2 (w : VWord) : Laws.EncodeDecode.Statement (.vlog2 w) := round_vector rfl rfl
theorem Laws.EncodeDecode.vrcp (w : VWord) : Laws.EncodeDecode.Statement (.vrcp w) := round_vector rfl rfl
theorem Laws.EncodeDecode.vrsq (w : VWord) : Laws.EncodeDecode.Statement (.vrsq w) := round_vector rfl rfl
theorem Laws.EncodeDecode.vsigm (w : VWord) : Laws.EncodeDecode.Statement (.vsigm w) := round_vector rfl rfl
theorem Laws.EncodeDecode.vtanh (w : VWord) : Laws.EncodeDecode.Statement (.vtanh w) := round_vector rfl rfl
theorem Laws.EncodeDecode.viadd (w : VWord) : Laws.EncodeDecode.Statement (.viadd w) := round_vector rfl rfl
theorem Laws.EncodeDecode.visub (w : VWord) : Laws.EncodeDecode.Statement (.visub w) := round_vector rfl rfl
theorem Laws.EncodeDecode.vimul (w : VWord) : Laws.EncodeDecode.Statement (.vimul w) := round_vector rfl rfl
theorem Laws.EncodeDecode.vimulh (w : VWord) : Laws.EncodeDecode.Statement (.vimulh w) := round_vector rfl rfl
theorem Laws.EncodeDecode.vimin (w : VWord) : Laws.EncodeDecode.Statement (.vimin w) := round_vector rfl rfl
theorem Laws.EncodeDecode.vimax (w : VWord) : Laws.EncodeDecode.Statement (.vimax w) := round_vector rfl rfl
theorem Laws.EncodeDecode.viminu (w : VWord) : Laws.EncodeDecode.Statement (.viminu w) := round_vector rfl rfl
theorem Laws.EncodeDecode.vimaxu (w : VWord) : Laws.EncodeDecode.Statement (.vimaxu w) := round_vector rfl rfl
theorem Laws.EncodeDecode.vand (w : VWord) : Laws.EncodeDecode.Statement (.vand w) := round_vector rfl rfl
theorem Laws.EncodeDecode.vor (w : VWord) : Laws.EncodeDecode.Statement (.vor w) := round_vector rfl rfl
theorem Laws.EncodeDecode.vxor (w : VWord) : Laws.EncodeDecode.Statement (.vxor w) := round_vector rfl rfl
theorem Laws.EncodeDecode.vshl (w : VWord) : Laws.EncodeDecode.Statement (.vshl w) := round_vector rfl rfl
theorem Laws.EncodeDecode.vshr (w : VWord) : Laws.EncodeDecode.Statement (.vshr w) := round_vector rfl rfl
theorem Laws.EncodeDecode.vsra (w : VWord) : Laws.EncodeDecode.Statement (.vsra w) := round_vector rfl rfl
theorem Laws.EncodeDecode.viabs (w : VWord) : Laws.EncodeDecode.Statement (.viabs w) := round_vector rfl rfl
theorem Laws.EncodeDecode.vidot4 (w : VWord) : Laws.EncodeDecode.Statement (.vidot4 w) := round_vector rfl rfl
theorem Laws.EncodeDecode.vcvt (w : VWord) : Laws.EncodeDecode.Statement (.vcvt w) := round_vector rfl rfl
theorem Laws.EncodeDecode.vscale (w : VWord) : Laws.EncodeDecode.Statement (.vscale w) := round_vector rfl rfl
theorem Laws.EncodeDecode.vtag (w : VWord) : Laws.EncodeDecode.Statement (.vtag w) := round_vector rfl rfl
theorem Laws.EncodeDecode.vqblk (w : VWord) : Laws.EncodeDecode.Statement (.vqblk w) := round_vector rfl rfl
theorem Laws.EncodeDecode.vdqblk (w : VWord) : Laws.EncodeDecode.Statement (.vdqblk w) := round_vector rfl rfl
theorem Laws.EncodeDecode.vclass (w : VWord) : Laws.EncodeDecode.Statement (.vclass w) := round_vector rfl rfl
theorem Laws.EncodeDecode.vcmp (w : VWord) : Laws.EncodeDecode.Statement (.vcmp w) := round_vector rfl rfl
theorem Laws.EncodeDecode.vsel (w : VWord) : Laws.EncodeDecode.Statement (.vsel w) := round_vector rfl rfl
theorem Laws.EncodeDecode.kand (w : VWord) : Laws.EncodeDecode.Statement (.kand w) := round_vector rfl rfl
theorem Laws.EncodeDecode.kor (w : VWord) : Laws.EncodeDecode.Statement (.kor w) := round_vector rfl rfl
theorem Laws.EncodeDecode.kxor (w : VWord) : Laws.EncodeDecode.Statement (.kxor w) := round_vector rfl rfl
theorem Laws.EncodeDecode.knot (w : VWord) : Laws.EncodeDecode.Statement (.knot w) := round_vector rfl rfl
theorem Laws.EncodeDecode.kpop (w : VWord) : Laws.EncodeDecode.Statement (.kpop w) := round_vector rfl rfl
theorem Laws.EncodeDecode.kmov (w : VWord) : Laws.EncodeDecode.Statement (.kmov w) := round_vector rfl rfl
theorem Laws.EncodeDecode.vrsum (w : VWord) : Laws.EncodeDecode.Statement (.vrsum w) := round_vector rfl rfl
theorem Laws.EncodeDecode.vrmax (w : VWord) : Laws.EncodeDecode.Statement (.vrmax w) := round_vector rfl rfl
theorem Laws.EncodeDecode.vrmin (w : VWord) : Laws.EncodeDecode.Statement (.vrmin w) := round_vector rfl rfl
theorem Laws.EncodeDecode.vramax (w : VWord) : Laws.EncodeDecode.Statement (.vramax w) := round_vector rfl rfl
theorem Laws.EncodeDecode.vriadd (w : VWord) : Laws.EncodeDecode.Statement (.vriadd w) := round_vector rfl rfl
theorem Laws.EncodeDecode.vmov (w : VWord) : Laws.EncodeDecode.Statement (.vmov w) := round_vector rfl rfl
theorem Laws.EncodeDecode.vbcast (w : VWord) : Laws.EncodeDecode.Statement (.vbcast w) := round_vector rfl rfl
theorem Laws.EncodeDecode.vperm (w : VWord) : Laws.EncodeDecode.Statement (.vperm w) := round_vector rfl rfl
theorem Laws.EncodeDecode.vrot (w : VWord) : Laws.EncodeDecode.Statement (.vrot w) := round_vector rfl rfl
theorem Laws.EncodeDecode.vcomp (w : VWord) : Laws.EncodeDecode.Statement (.vcomp w) := round_vector rfl rfl
theorem Laws.EncodeDecode.vexpd (w : VWord) : Laws.EncodeDecode.Statement (.vexpd w) := round_vector rfl rfl
theorem Laws.EncodeDecode.viota (w : VWord) : Laws.EncodeDecode.Statement (.viota w) := round_vector rfl rfl
theorem Laws.EncodeDecode.vzip (w : VWord) : Laws.EncodeDecode.Statement (.vzip w) := round_vector rfl rfl
theorem Laws.EncodeDecode.vuzp (w : VWord) : Laws.EncodeDecode.Statement (.vuzp w) := round_vector rfl rfl
theorem Laws.EncodeDecode.vld (w : VWord) : Laws.EncodeDecode.Statement (.vld w) := round_vector rfl rfl
theorem Laws.EncodeDecode.vst (w : VWord) : Laws.EncodeDecode.Statement (.vst w) := round_vector rfl rfl
theorem Laws.EncodeDecode.vldx (w : VWord) : Laws.EncodeDecode.Statement (.vldx w) := round_vector rfl rfl
theorem Laws.EncodeDecode.vstx (w : VWord) : Laws.EncodeDecode.Statement (.vstx w) := round_vector rfl rfl
theorem Laws.EncodeDecode.mma (w : MWord) : Laws.EncodeDecode.Statement (.mma w) := round_matrix rfl rfl rfl
theorem Laws.EncodeDecode.drun (w : MWord) : Laws.EncodeDecode.Statement (.drun w) := round_matrix rfl rfl rfl
theorem Laws.EncodeDecode.mld (w : MWord) : Laws.EncodeDecode.Statement (.mld w) := round_matrix rfl rfl rfl
theorem Laws.EncodeDecode.mst (w : MWord) : Laws.EncodeDecode.Statement (.mst w) := round_matrix rfl rfl rfl
theorem Laws.EncodeDecode.mzero (w : MWord) : Laws.EncodeDecode.Statement (.mzero w) := round_matrix rfl rfl rfl
theorem Laws.EncodeDecode.acpy (w : MWord) : Laws.EncodeDecode.Statement (.acpy w) := round_matrix rfl rfl rfl
theorem Laws.EncodeDecode.acpyin (w : MWord) : Laws.EncodeDecode.Statement (.acpyin w) := round_matrix rfl rfl rfl
theorem Laws.EncodeDecode.msave (a b : SReg) : Laws.EncodeDecode.Statement (.msave a b) := fun _ => decode_msave a b
theorem Laws.EncodeDecode.mrstr (a b : SReg) : Laws.EncodeDecode.Statement (.mrstr a b) := fun _ => decode_mrstr a b
theorem Laws.EncodeDecode.mstat (d : SReg) : Laws.EncodeDecode.Statement (.mstat d) := fun _ => decode_mstat d
theorem Laws.EncodeDecode.leaseGrant (cl : Nat) : Laws.EncodeDecode.Statement (.leaseGrant cl) := not_wf_event rfl
theorem Laws.EncodeDecode.leaseRunIdleTimeout (cl : Nat) : Laws.EncodeDecode.Statement (.leaseRunIdleTimeout cl) :=
  not_wf_event rfl
theorem Laws.EncodeDecode.matrixAccept (core : Nat) : Laws.EncodeDecode.Statement (.matrixAccept core) :=
  not_wf_event rfl
theorem Laws.EncodeDecode.tileStep (cl : Nat) : Laws.EncodeDecode.Statement (.tileStep cl) := not_wf_event rfl
theorem Laws.EncodeDecode.arrayExecute (cl : Nat) : Laws.EncodeDecode.Statement (.arrayExecute cl) := not_wf_event rfl
theorem Laws.EncodeDecode.runDrain (cl : Nat) : Laws.EncodeDecode.Statement (.runDrain cl) := not_wf_event rfl
theorem Laws.EncodeDecode.engineBurst (team member : Nat) (e : Eng) (ix : Nat) :
    Laws.EncodeDecode.Statement (.engineBurst team member e ix) :=
  not_wf_event rfl
theorem Laws.EncodeDecode.commandComplete (team member : Nat) (t : TL) (num : Word) :
    Laws.EncodeDecode.Statement (.commandComplete team member t num) :=
  not_wf_event rfl
theorem Laws.EncodeDecode.atsCompletion (slice pasid page : Nat) (write : Bool) (r : AtsReply) :
    Laws.EncodeDecode.Statement (.atsCompletion slice pasid page write r) :=
  not_wf_event rfl
theorem Laws.EncodeDecode.pageResponse (slice pasid page : Nat) (write : Bool) (r : PriResp) :
    Laws.EncodeDecode.Statement (.pageResponse slice pasid page write r) :=
  not_wf_event rfl
theorem Laws.EncodeDecode.atsInvalidate (pasid base len : Nat) :
    Laws.EncodeDecode.Statement (.atsInvalidate pasid base len) :=
  not_wf_event rfl
theorem Laws.EncodeDecode.priReenable (slice : Site) (pasid : Nat) :
    Laws.EncodeDecode.Statement (.priReenable slice pasid) :=
  not_wf_event rfl
theorem Laws.EncodeDecode.loadComplete (core ix : Nat) : Laws.EncodeDecode.Statement (.loadComplete core ix) :=
  not_wf_event rfl
theorem Laws.EncodeDecode.multicastLand : Laws.EncodeDecode.Statement (.multicastLand) := not_wf_event rfl
theorem Laws.EncodeDecode.l1Writeback (core pasid vline : Nat) :
    Laws.EncodeDecode.Statement (.l1Writeback core pasid vline) :=
  not_wf_event rfl
theorem Laws.EncodeDecode.dramRead (pa : Nat) (ue : Bool) : Laws.EncodeDecode.Statement (.dramRead pa ue) :=
  not_wf_event rfl
theorem Laws.EncodeDecode.l2Evict (line : Nat) (ue : Bool) : Laws.EncodeDecode.Statement (.l2Evict line ue) :=
  not_wf_event rfl
theorem Laws.EncodeDecode.mscEvict (line : Nat) (ue : Bool) : Laws.EncodeDecode.Statement (.mscEvict line ue) :=
  not_wf_event rfl
theorem Laws.EncodeDecode.writeQueueFlush (line : Nat) (ue : Bool) :
    Laws.EncodeDecode.Statement (.writeQueueFlush line ue) :=
  not_wf_event rfl
theorem Laws.EncodeDecode.hostPcieWrite (pa : HostAddr) (data : List Byte) :
    Laws.EncodeDecode.Statement (.hostPcieWrite pa data) :=
  not_wf_event rfl
theorem Laws.EncodeDecode.hostPcieRead (pa : HostAddr) (n : Nat) : Laws.EncodeDecode.Statement (.hostPcieRead pa n) :=
  not_wf_event rfl
theorem Laws.EncodeDecode.memsplitWrite (v : SpaceWord) : Laws.EncodeDecode.Statement (.memsplitWrite v) :=
  not_wf_event rfl
theorem Laws.EncodeDecode.launchDoorbell (vf : Nat) : Laws.EncodeDecode.Statement (.launchDoorbell vf) :=
  not_wf_event rfl
theorem Laws.EncodeDecode.timeTableRelease (vf ix : Nat) : Laws.EncodeDecode.Statement (.timeTableRelease vf ix) :=
  not_wf_event rfl
theorem Laws.EncodeDecode.dispatch (slice vf : Nat) : Laws.EncodeDecode.Statement (.dispatch slice vf) :=
  not_wf_event rfl
theorem Laws.EncodeDecode.recordAging (slice vf prio queue : Nat) :
    Laws.EncodeDecode.Statement (.recordAging slice vf prio queue) :=
  not_wf_event rfl
theorem Laws.EncodeDecode.quantumExpiry (cl : Nat) : Laws.EncodeDecode.Statement (.quantumExpiry cl) :=
  not_wf_event rfl
theorem Laws.EncodeDecode.swapOut (cl : Nat) : Laws.EncodeDecode.Statement (.swapOut cl) := not_wf_event rfl
theorem Laws.EncodeDecode.bankSwitch (core : Nat) : Laws.EncodeDecode.Statement (.bankSwitch core) := not_wf_event rfl
theorem Laws.EncodeDecode.dispatchDescriptorWrite (vf : Nat) (ws : List Word) :
    Laws.EncodeDecode.Statement (.dispatchDescriptorWrite vf ws) :=
  not_wf_event rfl
theorem Laws.EncodeDecode.mailboxDoorbell (vf : Nat) (bits : Word) :
    Laws.EncodeDecode.Statement (.mailboxDoorbell vf bits) :=
  not_wf_event rfl
theorem Laws.EncodeDecode.timeSliceEnd (slice vf : Nat) : Laws.EncodeDecode.Statement (.timeSliceEnd slice vf) :=
  not_wf_event rfl
theorem Laws.EncodeDecode.preemptBudgetExpiry (core cyc cyc2 : Nat) :
    Laws.EncodeDecode.Statement (.preemptBudgetExpiry core cyc cyc2) :=
  not_wf_event rfl
theorem Laws.EncodeDecode.takeTrap (core : Nat) : Laws.EncodeDecode.Statement (.takeTrap core) := not_wf_event rfl
theorem Laws.EncodeDecode.coreInterrupt (core : Site) (vector : Word) :
    Laws.EncodeDecode.Statement (.coreInterrupt core vector) :=
  not_wf_event rfl
theorem Laws.EncodeDecode.wfeLimitExpiry (core : Nat) : Laws.EncodeDecode.Statement (.wfeLimitExpiry core) :=
  not_wf_event rfl
theorem Laws.EncodeDecode.coreResume (core : Site) (v : Word) :
    Laws.EncodeDecode.Statement (.coreResume core v) :=
  not_wf_event rfl
theorem Laws.EncodeDecode.nodeRollback (team : Nat) : Laws.EncodeDecode.Statement (.nodeRollback team) :=
  not_wf_event rfl
theorem Laws.EncodeDecode.nodeKill (team : Nat) : Laws.EncodeDecode.Statement (.nodeKill team) := not_wf_event rfl
theorem Laws.EncodeDecode.badgerPass (pass : Bool) (pattern : Nat) :
    Laws.EncodeDecode.Statement (.badgerPass pass pattern) :=
  not_wf_event rfl
theorem Laws.EncodeDecode.auditRequest (cl : Site) : Laws.EncodeDecode.Statement (.auditRequest cl) :=
  not_wf_event rfl
theorem Laws.EncodeDecode.poolFree (vf : Site) (hyp : Bool) (aper count list : Nat) :
    Laws.EncodeDecode.Statement (.poolFree vf hyp aper count list) :=
  not_wf_event rfl
theorem Laws.EncodeDecode.poolTake (vf : Site) (hyp : Bool) (aper count list : Nat) :
    Laws.EncodeDecode.Statement (.poolTake vf hyp aper count list) :=
  not_wf_event rfl
theorem Laws.EncodeDecode.scrubPage (aper : Nat) : Laws.EncodeDecode.Statement (.scrubPage aper) := not_wf_event rfl
theorem Laws.EncodeDecode.shareWrite (slice : Site) (vf : Nat) (v : Word) :
    Laws.EncodeDecode.Statement (.shareWrite slice vf v) :=
  not_wf_event rfl
theorem Laws.EncodeDecode.shareChangeComplete (slice : Nat) :
    Laws.EncodeDecode.Statement (.shareChangeComplete slice) :=
  not_wf_event rfl
theorem Laws.EncodeDecode.sliceReset (slice : Site) : Laws.EncodeDecode.Statement (.sliceReset slice) :=
  not_wf_event rfl
theorem Laws.EncodeDecode.migrationStage (vf rank chip bound : Nat) (withdraw : Bool) :
    Laws.EncodeDecode.Statement (.migrationStage vf rank chip bound withdraw) :=
  not_wf_event rfl
theorem Laws.EncodeDecode.fabricPacketSend (team member : Nat) :
    Laws.EncodeDecode.Statement (.fabricPacketSend team member) :=
  not_wf_event rfl
theorem Laws.EncodeDecode.fabricPacketReceive (p : Packet) : Laws.EncodeDecode.Statement (.fabricPacketReceive p) :=
  not_wf_event rfl
theorem Laws.EncodeDecode.fabricAckReceive (vf chip : Nat) (mark : BitVec 32) :
    Laws.EncodeDecode.Statement (.fabricAckReceive vf chip mark) :=
  not_wf_event rfl
theorem Laws.EncodeDecode.heartbeatSend : Laws.EncodeDecode.Statement (.heartbeatSend) := not_wf_event rfl
theorem Laws.EncodeDecode.peerLost (vf rank : Nat) : Laws.EncodeDecode.Statement (.peerLost vf rank) :=
  not_wf_event rfl
theorem Laws.EncodeDecode.boundaryMessage (vf : Nat) (m : BMsg) :
    Laws.EncodeDecode.Statement (.boundaryMessage vf m) :=
  not_wf_event rfl
theorem Laws.EncodeDecode.stepApplyComplete (vf : Nat) : Laws.EncodeDecode.Statement (.stepApplyComplete vf) :=
  not_wf_event rfl
theorem Laws.EncodeDecode.routeFailover (vf chip : Nat) (why : RouteWhy) :
    Laws.EncodeDecode.Statement (.routeFailover vf chip why) :=
  not_wf_event rfl
theorem Laws.EncodeDecode.linkFlitReceive (port : Nat) (seq : BitVec 12) (fecOk hold : Bool) (f : Flit) :
    Laws.EncodeDecode.Statement (.linkFlitReceive port seq fecOk hold f) :=
  not_wf_event rfl
theorem Laws.EncodeDecode.linkNakReceive (port : Nat) (seq : BitVec 12) :
    Laws.EncodeDecode.Statement (.linkNakReceive port seq) :=
  not_wf_event rfl
theorem Laws.EncodeDecode.laneControl (port : Nat) (lanes : BitVec 16) (seq : BitVec 12) :
    Laws.EncodeDecode.Statement (.laneControl port lanes seq) :=
  not_wf_event rfl
theorem Laws.EncodeDecode.berWindow (port sec : Nat) : Laws.EncodeDecode.Statement (.berWindow port sec) := not_wf_event rfl
theorem Laws.EncodeDecode.retrainComplete (port : Nat) (lam : Wave) (ok : Bool) :
    Laws.EncodeDecode.Statement (.retrainComplete port lam ok) :=
  not_wf_event rfl
theorem Laws.EncodeDecode.lossOfLight (port : Nat) (light : Light) :
    Laws.EncodeDecode.Statement (.lossOfLight port light) :=
  not_wf_event rfl
theorem Laws.EncodeDecode.emitterPowerLoss (port q : Nat) : Laws.EncodeDecode.Statement (.emitterPowerLoss port q) :=
  not_wf_event rfl
theorem Laws.EncodeDecode.linkProgressTimeout (port : Nat) :
    Laws.EncodeDecode.Statement (.linkProgressTimeout port) :=
  not_wf_event rfl
theorem Laws.EncodeDecode.portPark (port : Nat) : Laws.EncodeDecode.Statement (.portPark port) := not_wf_event rfl
theorem Laws.EncodeDecode.wavelengthRelockComplete (port : Nat) :
    Laws.EncodeDecode.Statement (.wavelengthRelockComplete port) :=
  not_wf_event rfl
theorem Laws.EncodeDecode.stepGroupDescriptorWrite (vf pa : Nat) :
    Laws.EncodeDecode.Statement (.stepGroupDescriptorWrite vf pa) :=
  not_wf_event rfl
theorem Laws.EncodeDecode.controlSpaceWrite (m : Master) (r : CReg) (v : Word) :
    Laws.EncodeDecode.Statement (.controlSpaceWrite m r v) :=
  not_wf_event rfl
theorem Laws.EncodeDecode.semaphoreRead (m : Master) (n : Nat) : Laws.EncodeDecode.Statement (.semaphoreRead m n) :=
  not_wf_event rfl
theorem Laws.EncodeDecode.semaphoreWrite (m : Master) (n : Nat) (v : Word) :
    Laws.EncodeDecode.Statement (.semaphoreWrite m n v) :=
  not_wf_event rfl
theorem Laws.EncodeDecode.mgmtLinkTimeout : Laws.EncodeDecode.Statement (.mgmtLinkTimeout) := not_wf_event rfl
theorem Laws.EncodeDecode.hostComplexReset : Laws.EncodeDecode.Statement (.hostComplexReset) := not_wf_event rfl
theorem Laws.EncodeDecode.qstateEntry (b : PBlock) (idleNs : Nat) :
    Laws.EncodeDecode.Statement (.qstateEntry b idleNs) :=
  not_wf_event rfl
theorem Laws.EncodeDecode.qstateWake (b : PBlock) : Laws.EncodeDecode.Statement (.qstateWake b) := not_wf_event rfl
theorem Laws.EncodeDecode.pwrwarnAssert : Laws.EncodeDecode.Statement (.pwrwarnAssert) := not_wf_event rfl
theorem Laws.EncodeDecode.pwrwarnHoldExpiry (cyc cyc2 : Nat) :
    Laws.EncodeDecode.Statement (.pwrwarnHoldExpiry cyc cyc2) :=
  not_wf_event rfl
theorem Laws.EncodeDecode.pwrwarnRelease : Laws.EncodeDecode.Statement (.pwrwarnRelease) := not_wf_event rfl
theorem Laws.EncodeDecode.powerRailRestore : Laws.EncodeDecode.Statement (.powerRailRestore) := not_wf_event rfl
theorem Laws.EncodeDecode.overcurrent : Laws.EncodeDecode.Statement (.overcurrent) := not_wf_event rfl
theorem Laws.EncodeDecode.overcurrentRecovery : Laws.EncodeDecode.Statement (.overcurrentRecovery) := not_wf_event rfl
theorem Laws.EncodeDecode.moduleReset (badStacks : BitVec 16) (badClusters : Word) (badRx badTx : List (BitVec 16)) :
    Laws.EncodeDecode.Statement (.moduleReset badStacks badClusters badRx badTx) :=
  not_wf_event rfl
theorem Laws.EncodeDecode.attestationRequest (m : Master) (pa : Nat) :
    Laws.EncodeDecode.Statement (.attestationRequest m pa) :=
  not_wf_event rfl
theorem Laws.EncodeDecode.attestationComplete : Laws.EncodeDecode.Statement (.attestationComplete) := not_wf_event rfl
theorem Laws.EncodeDecode.emitterPowerReturn (port q : Nat) :
    Laws.EncodeDecode.Statement (.emitterPowerReturn port q) :=
  not_wf_event rfl
theorem Laws.EncodeDecode.ptpClockLock (ns : Word) : Laws.EncodeDecode.Statement (.ptpClockLock ns) :=
  not_wf_event rfl

end Sys2Proof
end

