-- ==== Sys2Proof/Laws/Retire.lean ====
section
/-! SUPPORT. What the shared endings of instructions do, said once: writing a scalar destination, retiring, breaking a
line region, taking a synchronous exception. The per-instruction claims cite these and never unfold them. -/

namespace Sys2Proof.Machine

theorem SameBytes.refl (s : State) : SameBytes s s := ⟨fun _ _ => rfl, fun _ _ _ => rfl⟩

theorem sameBytes_of_only {s t : State} (h : t = { s with cores := t.cores }) : SameBytes s t := by
  rw [h]; exact ⟨fun _ _ => rfl, fun _ _ _ => rfl⟩

theorem core_eq_of_cores {s t : State} (h : t.cores = s.cores) (n : Nat) : t.core n = s.core n := by
  simp [State.core, h]

/-- What a change of one context does to the state. -/
theorem onlyTurn_onCtx (s : State) (f : Ctx → Ctx) : OnlyTurn s (s.onCtx s.turn f) :=
  ⟨rfl, fun n h => by rw [State.core_onCtx, if_neg h]⟩

theorem OnlyTurn.trans {s t u : State} (h : OnlyTurn s t) (g : OnlyTurn t u) : OnlyTurn s u := by
  have ht : t.turn = s.turn := by rw [h.1]
  refine ⟨?_, fun n hn => (g.2 n (by rw [ht]; exact hn)).trans (h.2 n hn)⟩
  rw [g.1, h.1]

@[simp] theorem State.breaking_turn (s : State) : s.breaking.turn = s.turn := by unfold State.breaking; split <;> rfl

/-- Breaking a region changes the region of the turn's context and nothing else. -/
theorem State.core_breaking (s : State) :
    s.breaking.core s.turn = { s.core s.turn with ctx := { s.ctx s.turn with region := brokenRegion (s.ctx s.turn) } } := by
  unfold State.breaking
  split
  · rename_i h
    have : (s.ctx s.turn).region = none := by simpa using h
    have e : brokenRegion (s.ctx s.turn) = (s.ctx s.turn).region := by rw [brokenRegion, this]; rfl
    rw [e]; rfl
  · rw [State.core_onCtx, if_pos rfl]; rfl

theorem State.ctx_breaking (s : State) :
    s.breaking.ctx s.turn = { s.ctx s.turn with region := brokenRegion (s.ctx s.turn) } := by
  rw [State.ctx, State.core_breaking]

theorem onlyTurn_breaking (s : State) : OnlyTurn s s.breaking := by
  unfold State.breaking
  split
  · exact ⟨rfl, fun _ _ => rfl⟩
  · exact onlyTurn_onCtx s _

@[simp] theorem State.breaking_rs (s : State) (r : SReg) : s.breaking.rs r = s.rs r := by
  unfold State.rs; rw [State.breaking_turn, State.ctx_breaking]; rfl

theorem Ctx.setS_frame (c : Ctx) (d : SReg) (v : Word) :
    c.setS d v = { c with regs := (c.setS d v).regs }
    ∧ (c.setS d v).regs = { c.regs with s := (c.setS d v).regs.s, bad := (c.setS d v).regs.bad } := by
  unfold Ctx.setS; split <;> exact ⟨rfl, rfl⟩

@[simp] theorem Ctx.setS_steps (c : Ctx) (d : SReg) (v : Word) : (c.setS d v).steps = c.steps := by
  unfold Ctx.setS; split <;> rfl

/-- The context after a scalar write and a retirement. -/
theorem State.ctx_write_retireTo (s : State) (d : SReg) (v pc : Word) (r : Ring) (a : Word) :
    ((s.onCtx s.turn (·.setS d v)).retireTo pc r a).ctx s.turn
      = { (s.ctx s.turn).setS d v with
          pc := pc, wfe := none, mx := none
          steps := (s.ctx s.turn).steps.filter (·.ring ≠ (s.ctx s.turn).ring)
          ctl := { (s.ctx s.turn).ctl with retired := (s.ctx s.turn).ctl.retired + 1 } } := by
  unfold State.retireTo
  rw [show (s.onCtx s.turn (·.setS d v)).turn = s.turn from rfl, State.ctx_onCore, if_pos rfl]
  have : (s.onCtx s.turn (·.setS d v)).core s.turn = { s.core s.turn with ctx := (s.ctx s.turn).setS d v } := by
    rw [State.core_onCtx, if_pos rfl]
  rw [this]; simp

/-- What a scalar write followed by a retirement answers, whole. -/
theorem regFrame_write_retireTo (s : State) (d : SReg) (v pc : Word) (r : Ring) (a : Word) :
    RegFrame s ((s.onCtx s.turn (·.setS d v)).retireTo pc r a) [d] := by
  have ht : OnlyTurn s ((s.onCtx s.turn (·.setS d v)).retireTo pc r a) := by
    refine ⟨rfl, fun n hn => ?_⟩
    unfold State.retireTo
    rw [show (s.onCtx s.turn (·.setS d v)).turn = s.turn from rfl, State.core_onCore, if_neg hn, State.core_onCtx,
      if_neg hn]
  refine ⟨ht, ?_, ?_, ?_, sameBytes_of_only ht.1⟩
  · unfold State.retireTo SameCore
    rw [show (s.onCtx s.turn (·.setS d v)).turn = s.turn from rfl, State.core_onCore, if_pos rfl, State.core_onCtx,
      if_pos rfl]
  · obtain ⟨h1, h2⟩ := Ctx.setS_frame (s.ctx s.turn) d v
    rw [State.ctx_write_retireTo]
    refine ⟨?_, rfl, h2⟩
    dsimp only
    rw [h1]
  · intro q hq
    rw [State.ctx_write_retireTo]
    have hq' : q ≠ d := fun h => hq (by simp [h])
    show ((s.ctx s.turn).setS d v).rs q = _
    rw [Ctx.rs_setS]
    simp only [if_neg hq', ite_self]

theorem rs_write_retireTo (s : State) (d : SReg) (v pc : Word) (r : Ring) (a : Word) :
    (((s.onCtx s.turn (·.setS d v)).retireTo pc r a).ctx s.turn).rs d = if d = 0 then 0 else v := by
  rw [State.ctx_write_retireTo]
  show ((s.ctx s.turn).setS d v).rs d = _
  rw [Ctx.rs_setS]
  split
  · rename_i h; subst h; rfl
  · rw [if_pos rfl]

/-- A meaning that writes its destination and retires, from the state as it is. -/
theorem retires_of_write {i : Instr} {s : State} {d : SReg} {v pc : Word} {r : Ring} {a : Word}
    (h : exec i s = .next ((s.onCtx s.turn (·.setS d v)).retireTo pc r a)) : Retires i s d v pc false := by
  refine ⟨_, h, regFrame_write_retireTo s d v pc r a, rs_write_retireTo s d v pc r a, ?_, ?_, ?_⟩
  all_goals rw [State.ctx_write_retireTo]
  simp

theorem writes_of_writeRetire {i : Instr} {s : State} {d : SReg} {v : Word} (h : exec i s = s.writeRetire d v) :
    Writes i s d v := by
  have e : ((s.onCtx s.turn (·.setS d v)).retire 4)
      = (s.onCtx s.turn (·.setS d v)).retireTo ((s.ctx s.turn).pc + 4) (s.ctx s.turn).ring (s.ctx s.turn).pc := by
    unfold State.retire
    rw [show (s.onCtx s.turn (·.setS d v)).turn = s.turn from rfl, State.ctx_onCtx_same]
    simp
  refine retires_of_write (r := (s.ctx s.turn).ring) (a := (s.ctx s.turn).pc) ?_
  rw [h, State.writeRetire, e]

/-- The frame composes with the breaking of a region. -/
theorem regFrame_of_breaking {s t : State} {l : List SReg} (h : RegFrame s.breaking t l) : RegFrame s t l := by
  obtain ⟨h1, h2, h3, h4, h5⟩ := h
  rw [State.breaking_turn] at h2 h3 h4
  have hb := onlyTurn_breaking s
  refine ⟨hb.trans h1, ?_, ?_, ?_, ?_⟩
  · rw [State.core_breaking] at h2; exact h2
  · rw [State.ctx_breaking] at h3; exact ⟨h3.1, h3.2.1, h3.2.2⟩
  · intro r hr; rw [h4 r hr, State.ctx_breaking]; rfl
  · exact sameBytes_of_only (hb.trans h1).1

/-- A meaning that first breaks an open region, then writes its destination and retires. -/
theorem retires_of_breaking {i : Instr} {s : State} {d : SReg} {v pc : Word} {r : Ring} {a : Word}
    (h : exec i s = .next ((s.breaking.onCtx s.turn (·.setS d v)).retireTo pc r a)) : Retires i s d v pc true := by
  have ht := State.breaking_turn s
  refine ⟨_, h, ?_, ?_, ?_, ?_, ?_⟩
  · have := regFrame_write_retireTo s.breaking d v pc r a
    rw [ht] at this; exact regFrame_of_breaking this
  · have := rs_write_retireTo s.breaking d v pc r a
    rwa [ht] at this
  all_goals
    have e := State.ctx_write_retireTo s.breaking d v pc r a
    rw [ht] at e
    rw [e, State.ctx_breaking]
  simp

theorem writesBreaking_of_writeRetire {i : Instr} {s : State} {d : SReg} {v : Word}
    (h : exec i s = s.breaking.writeRetire d v) : WritesBreaking i s d v := by
  have e : ((s.breaking.onCtx s.turn (·.setS d v)).retire 4)
      = (s.breaking.onCtx s.turn (·.setS d v)).retireTo ((s.ctx s.turn).pc + 4) (s.ctx s.turn).ring (s.ctx s.turn).pc := by
    unfold State.retire
    rw [show (s.breaking.onCtx s.turn (·.setS d v)).turn = s.turn from State.breaking_turn s, State.ctx_onCtx_same,
      State.ctx_breaking]
    simp
  refine retires_of_breaking (r := (s.ctx s.turn).ring) (a := (s.ctx s.turn).pc) ?_
  rw [h, State.writeRetire, State.breaking_turn, e]

end Sys2Proof.Machine
end

