-- ==== Sys2Proof/Laws/SaveBlock.lean ====
section
/-! SUPPORT. The laws of save blocks: a block as the burrow engine writes it passes the check that a restore makes, and
writing it keeps the memory canonical. -/

namespace Sys2Proof.Machine

/-- What lies below a block is no part of it. -/
theorem Memory.within_append_below (l m : List (Nat × Byte)) (lo hi : Nat) (h : ∀ e ∈ l, e.1 < lo) :
    Memory.within (l ++ m) lo hi = Memory.within m lo hi := by
  unfold Memory.within
  rw [List.filter_append, List.filter_eq_nil_iff.mpr, List.nil_append]
  intro e he
  have := h e he
  simp only [Bool.and_eq_true, decide_eq_true_eq]
  omega

/-- A range of lines of which none can refuse a read, and none is bad or withheld, meets no error. -/
theorem State.lineErrIn_none (s : State) (secure : Bool) (lo hi : Nat) (open_ : s.guarded = false)
    (h : ∀ l ∈ s.home.dramBad ++ s.home.mscBad ++ s.home.withheld.flatMap (·.2), ¬ (lo ≤ l ∧ l < hi)) :
    s.lineErrIn secure lo hi = none := by
  unfold State.lineErrIn
  rw [open_, if_neg Bool.false_ne_true, List.filter_eq_nil_iff.mpr]
  · rfl
  · intro l hl
    simpa only [Bool.and_eq_true, decide_eq_true_eq] using h l hl

/-- A part of a block that lies in memory as it was written, and meets no error, passes its check. -/
theorem State.blockBad_none (s : State) (secure : Bool) (b : Saved) (a : Nat)
    (hm : ∀ p ∈ List.range 10, Memory.within s.home.mem (a + blockParts.getD p 0) (a + blockParts.getD (p + 1) 0)
      = Memory.within (Memory.placed b.image a) (a + blockParts.getD p 0) (a + blockParts.getD (p + 1) 0))
    (he : ∀ p ∈ List.range 10, s.lineErrIn secure ((a + blockParts.getD p 0) / 128) ((a + blockParts.getD (p + 1) 0) / 128)
      = none) : s.blockBad secure b (some a) = none := by
  simp only [State.blockBad, List.findSome?_eq_none_iff]
  intro p hp
  rw [he p hp, hm p hp]
  simp

/-- A block that lies in memory as it was written, with no line of the module bad or withheld, passes its check. -/
theorem State.blockBad_of_placed (s : State) (secure : Bool) (b : Saved) (a : Nat) (l : List (Nat × Byte))
    (hm : s.home.mem = l ++ Memory.placed b.image a) (hl : ∀ e ∈ l, e.1 < a) (open_ : s.guarded = false)
    (lost : s.home.dramBad ++ s.home.mscBad ++ s.home.withheld.flatMap (·.2) = []) :
    s.blockBad secure b (some a) = none := by
  refine s.blockBad_none secure b a (fun p _ => ?_) (fun p _ => s.lineErrIn_none secure _ _ open_ (by simp [lost]))
  rw [hm]
  exact Memory.within_append_below _ _ _ _ (fun e he => by have := hl e he; omega)

/-- Bytes that the device writes keep the memory canonical. -/
theorem State.MemWf.devPut {s : State} (h : s.MemWf) (a : Asker) (pa : Nat) (bs : List Byte) : (s.devPut a pa bs).MemWf := by
  unfold State.devPut
  refine State.MemWf.foldl (fun t e ht => ?_) _ h
  split
  · exact ht.reportFor _ _ _ _ _ _
  · exact ht.poke _ _

/-- Writing a save block keeps the memory in its canonical form. -/
theorem State.putBlock_wf (s : State) (r : Asker) (a : Nat) (img : Memory) (h : s.MemWf) : (s.putBlock r a img).MemWf := by
  unfold State.putBlock
  split
  · exact h.devPut _ _ _
  · exact Memory.wf_foldl_set _ (Map.wf_clear 0#8 _ _ h)

theorem Memory.wf_putAll (ps : Pieces) : ∀ {m : Memory}, m.wf = true → (m.putAll ps).wf = true := by
  induction ps with
  | nil => intro m h; exact h
  | cons p r ih => intro m h; exact ih (Memory.wf_setRange _ _ h)

theorem blockImage_wf (t : Team) (b : Saved) : (blockImage t b).wf = true :=
  Memory.wf_putAll _ (Memory.wf_putAll _ (Memory.wf_putAll _ rfl))

theorem Memory.placed_wf (a : Nat) : ∀ (m : Memory) (lo : Nat), Map.wfFrom 0#8 lo m = true →
    Map.wfFrom 0#8 (a + lo) (Memory.placed m a) = true := by
  intro m
  induction m with
  | nil => intros; rfl
  | cons e r ih =>
    intro lo h
    simp only [Memory.placed, List.map_cons, Map.wfFrom, Bool.and_eq_true, decide_eq_true_eq] at *
    exact ⟨⟨by omega, h.1.2⟩, ih _ h.2⟩

/-- What a canonical map reads at a key, by its entries. -/
theorem Map.get_eq_of_mem {α : Type} [DecidableEq α] (d : α) : ∀ (m : Map α) (lo : Nat) (e : Nat × α),
    Map.wfFrom d lo m = true → e ∈ m → Map.get d m e.1 = e.2 := by
  intro m
  induction m with
  | nil => intro lo e _ he; cases he
  | cons x r ih =>
    intro lo e h he
    obtain ⟨k, v⟩ := x
    simp only [Map.wfFrom, Bool.and_eq_true, decide_eq_true_eq] at h
    rcases List.mem_cons.mp he with rfl | he
    · simp [Map.get]
    · have hk : k < e.1 := by
        have : ∀ (m : Map α) (lo : Nat), Map.wfFrom d lo m = true → ∀ e ∈ m, lo ≤ e.1 := by
          intro m
          induction m with
          | nil => intro _ _ e he; cases he
          | cons y q ihq =>
            intro lo h e he
            simp only [Map.wfFrom, Bool.and_eq_true, decide_eq_true_eq] at h
            rcases List.mem_cons.mp he with rfl | he
            · exact h.1.1
            · have := ihq _ h.2 e he; omega
        exact this r (k + 1) h.2 e he
      have h1 : ¬ e.1 < k := by omega
      have h2 : ¬ e.1 = k := by omega
      simp [Map.get, h1, h2, ih (k + 1) e h.2 he]

theorem Map.get_filter {α : Type} [DecidableEq α] (d : α) (p : Nat → Bool) : ∀ (m : Map α) (lo a : Nat),
    Map.wfFrom d lo m = true → Map.get d (m.filter (fun e => p e.1)) a = if p a then Map.get d m a else d := by
  intro m
  induction m with
  | nil => intros; simp [Map.get]
  | cons e r ih =>
    intro lo a h
    obtain ⟨k, v⟩ := e
    simp only [Map.wfFrom, Bool.and_eq_true, decide_eq_true_eq] at h
    have hr := ih (k + 1) a h.2
    rcases Nat.lt_trichotomy a k with lt | eq | gt
    · have z := Map.get_eq_of_wfFrom d r (k + 1) a h.2 (by omega)
      cases hk : p k <;> simp [hk, Map.get, lt, hr, z]
    · subst eq
      have z := Map.get_eq_of_wfFrom d r (a + 1) a h.2 (by omega)
      cases hk : p a <;> simp [hk, Map.get, hr, z]
    · cases hk : p k <;> simp [hk, Map.get, hr, Nat.lt_asymm gt, Nat.ne_of_gt gt]

theorem Memory.get_foldl_set (l : List (Nat × Byte)) : ∀ (m : Memory) (lo a : Nat), Map.wfFrom 0#8 lo l = true →
    (l.foldl (fun (m : Memory) e => m.set e.1 e.2) m).get a
      = if Map.get 0#8 l a = 0#8 then m.get a else Map.get 0#8 l a := by
  induction l with
  | nil => intros; simp [Map.get]
  | cons e r ih =>
    intro m lo a h
    obtain ⟨k, v⟩ := e
    simp only [Map.wfFrom, Bool.and_eq_true, decide_eq_true_eq] at h
    rw [List.foldl_cons, ih _ (k + 1) a h.2, Memory.get_set]
    by_cases h1 : a < k
    · simp [Map.get, h1, Map.get_eq_of_wfFrom 0#8 r (k + 1) a h.2 (by omega), Nat.ne_of_lt h1]
    · by_cases h2 : a = k
      · subst h2
        simp [Map.get, Map.get_eq_of_wfFrom 0#8 r (a + 1) a h.2 (by omega), h.1.2]
      · simp [Map.get, h1, h2]

/-- What was written is what the check of the block finds, part by part. -/
theorem Memory.within_putBlock (m : Memory) (img : Memory) (a n lo hi : Nat) (hm : m.wf = true) (hi' : img.wf = true)
    (h1 : a ≤ lo) (h2 : hi ≤ a + n) :
    Memory.within ((Memory.placed img a).foldl (fun (m : Memory) e => m.set e.1 e.2) (Map.clear m a (a + n))) lo hi
      = Memory.within (Memory.placed img a) lo hi := by
  have hp := Memory.placed_wf a img 0 hi'
  have hc := Map.wf_clear 0#8 a (a + n) hm
  have hf := Memory.wf_foldl_set (Memory.placed img a) hc
  refine Map.ext_of_wf 0#8 _ _ _ _ (Map.wfFrom_filter 0#8 _ _ _ hf) (Map.wfFrom_filter 0#8 _ _ _ hp) (fun k => ?_)
  unfold Memory.within
  rw [Map.get_filter 0#8 (fun k => decide (lo ≤ k) && decide (k < hi)) _ _ _ hf,
    Map.get_filter 0#8 (fun k => decide (lo ≤ k) && decide (k < hi)) _ _ _ hp]
  split
  · rename_i hk
    simp only [Bool.and_eq_true, decide_eq_true_eq] at hk
    have := Memory.get_foldl_set (Memory.placed img a) (Map.clear m a (a + n)) _ k hp
    unfold Memory.get at this
    rw [this]
    split
    · rename_i h0
      have hcl : Map.get 0#8 (Map.clear m a (a + n)) k = 0#8 := by
        rw [Map.get_clear]
        simp [show a ≤ k ∧ k < a + n by omega]
      rw [hcl, h0]
    · rfl
  · rfl

/-- The offset at which a part of the block ends is inside the block and on a line. -/
theorem blockParts_bound : ∀ p ∈ List.range 10, blockParts.getD p 0 ≤ blockParts.getD (p + 1) 0
    ∧ blockParts.getD (p + 1) 0 ≤ blockBytes := by decide

/-- The home after a save block has been written where no line can refuse it. -/
theorem State.putBlock_mem (s : State) (r : Asker) (a : Nat) (img : Memory) (open_ : s.guarded = false) :
    (s.putBlock r a img).home.mem = (Memory.placed img a).foldl (fun (m : Memory) e => m.set e.1 e.2)
      (Map.clear s.home.mem a (a + blockBytes)) := by
  unfold State.putBlock
  rw [open_]
  rfl

/-- A block's write changes no slice and no region. -/
theorem State.putBlock_guarded (s : State) (r : Asker) (a : Nat) (img : Memory) (open_ : s.guarded = false) :
    (s.putBlock r a img).guarded = false := by
  unfold State.putBlock
  rw [open_]
  exact open_

/-- No line of a block that was written whole is bad or withheld (R386). -/
theorem State.putBlock_whole (s : State) (r : Asker) (a : Nat) (img : Memory) (open_ : s.guarded = false) :
    ∀ l ∈ (s.putBlock r a img).home.dramBad ++ (s.putBlock r a img).home.mscBad
      ++ (s.putBlock r a img).home.withheld.flatMap (·.2), ¬ (a / 128 ≤ l ∧ l < (a + blockBytes) / 128) := by
  intro l h
  rintro ⟨lo, hi⟩
  unfold State.putBlock State.onHome at h
  rw [open_] at h
  rcases List.mem_append.mp h with bad | held
  · rcases List.mem_append.mp bad with bad | bad
    · have := (List.mem_filter.mp bad).2
      simp [lo, hi] at this
    · have := (List.mem_filter.mp bad).2
      simp [lo, hi] at this
  · obtain ⟨e, he, hl⟩ := List.mem_flatMap.mp held
    obtain ⟨e', -, some_e⟩ := List.mem_filterMap.mp he
    dsimp only at some_e
    split at some_e
    · simp at some_e
    · rw [← Option.some.inj some_e] at hl
      have := (List.mem_filter.mp hl).2
      simp [lo, hi] at this

/-- A save block that the burrow engine has written passes every check of a restore (R359, R360). -/
theorem State.blockBad_putBlock (s : State) (secure : Bool) (r : Asker) (b : Saved) (a : Nat) (h : s.MemWf)
    (hi : b.image.wf = true) (open_ : s.guarded = false) :
    (s.putBlock r a b.image).blockBad secure b (some a) = none := by
  refine State.blockBad_none _ secure b a (fun p hp => ?_) (fun p hp => ?_)
  · rw [State.putBlock_mem _ _ _ _ open_]
    exact Memory.within_putBlock s.home.mem _ a blockBytes _ _ h hi (Nat.le_add_right _ _)
      (Nat.add_le_add_left (blockParts_bound p hp).2 a)
  · refine State.lineErrIn_none _ _ _ _ (State.putBlock_guarded _ _ _ _ open_) (fun l hl hin => ?_)
    exact State.putBlock_whole s r a b.image open_ l hl
      ⟨Nat.le_trans (Nat.div_le_div_right (Nat.le_add_right a _)) hin.1,
        Nat.lt_of_lt_of_le hin.2 (Nat.div_le_div_right (Nat.add_le_add_left (blockParts_bound p hp).2 a))⟩

end Sys2Proof.Machine
end

