-- ==== Sys2Proof/Tests/Slice0.lean ====
section
/-! SUPPORT. Tests of the model: well-formedness, the decoding of words written out field by field from the encoding
tables of the manual, single steps, and for each statement with hypotheses concrete states and operands that meet them.
Expected values come from the manual's tables and examples. -/

namespace Sys2Proof.Tests

set_option Elab.async false

open Sys2Proof
open Sys2Proof.Machine

/-! ### Ill-formed terms -/

/-- VADD.FP32 v1, v2, v3 under k0. -/
def vw : VWord := ⟨0, .fp32, 0, 0, .v 1, .v 2, .v 3⟩

/-- MMA a1, INT8 m2 × INT8 m3. -/
def mw : MWord := { MWord.zero with acc := 1, af := .int8, bf := .int8, cf := .int32, aTile := 2, bTile := 3 }

/-- R40, R43: events are no words; a command group begins at s1 to s60; AMOCAS and SOBIND name a pair. -/
theorem test_wf_scalar :
    (Instr.cpy 1 60).wf = true ∧ (Instr.cpy 1 61).wf = false ∧ (Instr.fxred 1 0).wf = false
    ∧ (Instr.amocas 1 2 62).wf = true ∧ (Instr.amocas 1 2 63).wf = false ∧ (Instr.sobind 1 2 0).wf = false
    ∧ (Instr.sobind 1 2 63).wf = false ∧ Instr.multicastLand.wf = false ∧ (Instr.tileStep 0).wf = false := by
  decide +kernel

/-- R40 step 3: rounding modes 6 and 7 are reserved, VCMP's field is a condition. Step 4: a format that the entry does not
list, a rounding mode or flags where the entry has none, a mask where it must be k0, an operand that is not used. -/
theorem test_wf_vector_fields :
    (Instr.vadd vw).wf = true ∧ (Instr.vadd { vw with rm := 5 }).wf = true ∧ (Instr.vadd { vw with rm := 6 }).wf = false
    ∧ (Instr.vcmp { vw with rm := 7, d := .k 1 }).wf = true ∧ (Instr.vadd { vw with fmt := .int8 }).wf = false
    ∧ (Instr.vmax { vw with rm := 1 }).wf = false ∧ (Instr.vadd { vw with flags := 1 }).wf = false
    ∧ (Instr.vtag { vw with k := 1, a := .v 0, b := .v 0 }).wf = false ∧ (Instr.vneg vw).wf = false
    ∧ (Instr.vneg { vw with b := .v 0 }).wf = true := by
  decide +kernel

/-- R40 step 5: kinds that a position does not take, k0 as a destination, forbidden tile forms, RAW moves of other kinds,
and the limits of single entries. -/
theorem test_wf_vector_operands :
    (Instr.vadd { vw with d := .q 1 }).wf = false ∧ (Instr.vadd { vw with d := .s 1 }).wf = false
    ∧ (Instr.vcmp { vw with d := .k 0 }).wf = false ∧ (Instr.viadd { vw with fmt := .int32, a := .row 1 2 }).wf = false
    ∧ (Instr.vmov { vw with fmt := .raw, a := .sp 1 1, b := .v 0 }).wf = false
    ∧ (Instr.vcvt { vw with fmt := .raw, d := .sp 1 1, b := .v 0 }).wf = false
    ∧ (Instr.vqblk { vw with fmt := .int8, d := .sp 1 2, b := .v 0 }).wf = false
    ∧ (Instr.vdqblk { vw with fmt := .int8, a := .col 1 2, b := .v 0 }).wf = false
    ∧ (Instr.vtag ⟨0, .e8, 0, 0, .row 1 0, .v 0, .v 0⟩).wf = false
    ∧ (Instr.kmov ⟨0, .raw, 0, 0, .k 1, .s 63, .v 0⟩).wf = false
    ∧ (Instr.vld { vw with a := .s 63, b := .v 0 }).wf = false ∧ (Instr.vld { vw with a := .s 62, b := .v 0 }).wf = true
    ∧ (Instr.vldx { vw with a := .s 0 }).wf = false ∧ (Instr.vst ⟨0, .raw, 0, 0, .v 0, .row 1 2, .s 3⟩).wf = false
    ∧ (Instr.vstx ⟨0, .fp32, 0, 0, .v 1, .v 2, .s 0⟩).wf = false := by
  decide +kernel

/-- R52, R53: matrix words whose format pairs, K counts, kinds, drain fields or unused fields do not agree. -/
theorem test_wf_matrix :
    (Instr.mma mw).wf = true ∧ (Instr.mma { mw with rm := 6 }).wf = false ∧ (Instr.mma { mw with slot := 1 }).wf = false
    ∧ (Instr.mma { mw with bf := .fp16 }).wf = false ∧ (Instr.mma { mw with cf := .fp32 }).wf = false
    ∧ (Instr.mma { mw with kcount := 256 }).wf = true ∧ (Instr.mma { mw with kcount := 257 }).wf = false
    ∧ (Instr.mma { mw with aKind := 3 }).wf = false ∧ (Instr.mma { mw with aKind := 2 }).wf = false
    ∧ (Instr.mma { mw with dmode := 1 }).wf = false ∧ (Instr.mma { mw with dmode := 1, entry := 1 }).wf = true
    ∧ (Instr.mma { mw with dmode := 2, entry := 1 }).wf = false ∧ (Instr.mma { mw with drainLast := true }).wf = false
    ∧ (Instr.drun { MWord.zero with cf := .fp32, dmode := 2 }).wf = false
    ∧ (Instr.drun { MWord.zero with cf := .fp32, dmode := 2, entry := 511 }).wf = true
    ∧ (Instr.mld { MWord.zero with af := .raw, aKind := 1 }).wf = false
    ∧ (Instr.mst { MWord.zero with af := .fp32, aKind := 0, cf := .fp32 }).wf = false
    ∧ (Instr.mzero { MWord.zero with cf := .int8 }).wf = false
    ∧ (Instr.acpyin { MWord.zero with af := .int8, cf := .fp32 }).wf = false := by
  decide +kernel

/-! ### Decoding: words by fields -/

/-- What a word decodes to: the instruction, or the failing step of R40. -/
def dec (ps : List Parcel) : Instr ⊕ Nat :=
  match decode ps with
  | .ok i => .inl i
  | .error n => .inr n

/-- An SR word (R41): fn, b, a, d, major. -/
def sr (major : BitVec 6) (fn : BitVec 7) (d a b : BitVec 6) : List Parcel := [fn ++ b ++ a ++ d ++ major ++ 0#1]

/-- An SI word (R41): immediate, a, d, major. -/
def si (major : BitVec 6) (imm : BitVec 13) (d a : BitVec 6) : List Parcel := [imm ++ a ++ d ++ major ++ 0#1]

/-- R44: the register operations and the unary ones, in fn order. -/
theorem test_decode_alu :
    (([0, 1, 2, 3, 4, 5, 6, 7, 8, 9, 10, 11, 12, 13, 14, 15, 16, 17, 18, 19, 20, 21] : List (BitVec 7)).map
      (fun fn => dec (sr 0x00 fn 1 2 3)))
    = [.inl (.add 1 2 3), .inl (.sub 1 2 3), .inl (.and 1 2 3), .inl (.or 1 2 3), .inl (.xor 1 2 3), .inl (.andn 1 2 3),
      .inl (.sll 1 2 3), .inl (.srl 1 2 3), .inl (.sra 1 2 3), .inl (.slt 1 2 3), .inl (.sltu 1 2 3), .inl (.min 1 2 3),
      .inl (.max 1 2 3), .inl (.minu 1 2 3), .inl (.maxu 1 2 3), .inl (.mul 1 2 3), .inl (.mulh 1 2 3), .inl (.mulhu 1 2 3),
      .inl (.div 1 2 3), .inl (.divu 1 2 3), .inl (.rem 1 2 3), .inl (.remu 1 2 3)]
    ∧ (([22, 23, 24, 25, 26, 27, 28, 29] : List (BitVec 7)).map (fun fn => dec (sr 0x00 fn 1 2 0)))
    = [.inl (.clz 1 2), .inl (.ctz 1 2), .inl (.popc 1 2), .inl (.bswap 1 2), .inl (.sextb 1 2), .inl (.sexth 1 2),
      .inl (.sextw 1 2), .inr 2]
    ∧ dec (sr 0x00 22 1 2 3) = .inr 4 := by
  decide +kernel

/-- R44, R45, R163 to R165: the immediate operations, the branches and the jumps. The LUI and ADDI words are those of
R163's example. -/
theorem test_decode_immediate :
    (([0x01, 0x02, 0x03, 0x04, 0x05, 0x06, 0x0C] : List (BitVec 6)).map (fun m => dec (si m (-5) 1 2)))
    = [.inl (.addi 1 2 (-5)), .inl (.andi 1 2 (-5)), .inl (.ori 1 2 (-5)), .inl (.xori 1 2 (-5)), .inl (.slti 1 2 (-5)),
      .inl (.sltiu 1 2 (-5)), .inl (.jalr 1 2 (-5))]
    ∧ dec (si 0x07 0b00_00000_111111 1 2) = .inl (.slli 1 2 63) ∧ dec (si 0x07 0b01_00000_000001 1 2) = .inl (.srli 1 2 1)
    ∧ dec (si 0x07 0b10_00000_100000 1 2) = .inl (.srai 1 2 32) ∧ dec (si 0x07 0b11_00000_000000 1 2) = .inr 2
    ∧ dec (si 0x07 0b00_00001_000000 1 2) = .inr 4
    ∧ dec [0x12346290#32] = .inl (.lui 5 37283) ∧ dec [0xB3C0A282#32] = .inl (.addi 5 5 (-2440))
    ∧ dec [(0x7FFFF#19 ++ 5#6 ++ 0x09#6 ++ 0#1)] = .inl (.aupc 5 (-1))
    ∧ (([0, 1, 2, 3, 4, 5, 6, 7] : List (BitVec 3)).map (fun c => dec [(0x200#10 ++ c ++ 9#6 ++ 8#6 ++ 0x0A#6 ++ 0#1)]))
    = [.inl (.beq 8 9 0x200), .inl (.bne 8 9 0x200), .inl (.blt 8 9 0x200), .inl (.bge 8 9 0x200), .inl (.bltu 8 9 0x200),
      .inl (.bgeu 8 9 0x200), .inr 2, .inr 2]
    ∧ dec [(0x40000#19 ++ 31#6 ++ 0x0B#6 ++ 0#1)] = .inl (.jal 31 0x40000) := by
  decide +kernel

/-- R44, R91, R120: loads, stores, the stream pop and the line operations. QPOP's word is R120's example. -/
theorem test_decode_memory :
    (([0x10, 0x11, 0x12, 0x13, 0x14, 0x15, 0x16, 0x18, 0x19, 0x1A, 0x1B] : List (BitVec 6)).map
      (fun m => dec (si m 0x1000 4 5)))
    = [.inl (.ldb 4 5 0x1000), .inl (.ldbu 4 5 0x1000), .inl (.ldh 4 5 0x1000), .inl (.ldhu 4 5 0x1000), .inl (.ldw 4 5 0x1000),
      .inl (.ldwu 4 5 0x1000), .inl (.ldd 4 5 0x1000), .inl (.stb 4 5 0x1000), .inl (.sth 4 5 0x1000), .inl (.stw 4 5 0x1000),
      .inl (.std 4 5 0x1000)]
    ∧ dec [0x000042AE#32] = .inl (.qpop 5 2) ∧ dec (sr 0x17 0 5 8 0) = .inr 5
    ∧ dec (sr 0x1C 0 0 6 0) = .inl (.pref 6) ∧ dec (sr 0x1C 1 0 6 7) = .inl (.cflush 6 7)
    ∧ dec (sr 0x1C 2 0 6 7) = .inl (.cinv 6 7) ∧ dec (sr 0x1C 3 0 6 7) = .inl (.czero 6 7)
    ∧ dec (sr 0x1C 4 0 6 7) = .inr 2 ∧ dec (sr 0x1C 1 1 6 7) = .inr 4 := by
  decide +kernel

/-- R44: atomics, reductions and line regions, in fn order. -/
theorem test_decode_atomics :
    (([0, 1, 2, 3, 4, 5, 6, 7, 8, 9, 10, 11, 12] : List (BitVec 7)).map (fun fn => dec (sr 0x20 fn 1 2 3)))
    = [.inl (.amoswap 1 2 3), .inl (.amoadd 1 2 3), .inl (.amoand 1 2 3), .inl (.amoor 1 2 3), .inl (.amoxor 1 2 3),
      .inl (.amomin 1 2 3), .inl (.amomax 1 2 3), .inl (.amominu 1 2 3), .inl (.amomaxu 1 2 3), .inl (.amofadds 1 2 3),
      .inl (.amofaddd 1 2 3), .inl (.amocas 1 2 3), .inr 2]
    ∧ dec (sr 0x20 11 1 2 63) = .inr 5
    ∧ (([0, 1, 2, 3, 4, 5, 6, 7, 8, 9, 10] : List (BitVec 7)).map (fun fn => dec (sr 0x21 fn 0 2 3)))
    = [.inl (.redadd 2 3), .inl (.redand 2 3), .inl (.redor 2 3), .inl (.redxor 2 3), .inl (.redmin 2 3), .inl (.redmax 2 3),
      .inl (.redminu 2 3), .inl (.redmaxu 2 3), .inl (.redfadds 2 3), .inl (.redfaddd 2 3), .inr 2]
    ∧ dec (sr 0x22 0 0 2 0) = .inl (.alb 2) ∧ dec (sr 0x22 1 3 0 0) = .inl (.ale 3) := by
  decide +kernel

/-- R129, R130, R132, R257: the words of the examples, and the other rows of major 0x23 by fields. -/
theorem test_decode_sync :
    dec [0x0000C2C6#32] = .inl (.acq 5 6) ∧ dec [0x0238C2C6#32] = .inl (.rel 5 6 7)
    ∧ dec [0x04000046#32] = .inl (.fence .task) ∧ dec [0x04006046#32] = .inl (.fence .module)
    ∧ dec [0x06000046#32] = .inl .cbar ∧ dec [0x0840C2C6#32] = .inl (.sobind 5 6 8)
    ∧ dec [0x0A38C2C6#32] = .inl (.bcwait 5 6 7) ∧ dec [0x0C580046#32] = .inl (.waittl .cp 11)
    ∧ dec [0x0E014346#32] = .inl (.tlrd 6 .ws true) ∧ dec [0x71F80048#32] = .inl (.waitc 7 7 0 7)
    ∧ dec (sr 0x23 8 1 2 0) = .inl (.mbwait 1 2) ∧ dec (sr 0x23 9 0 1 2) = .inl (.mback 1 2)
    ∧ dec (sr 0x23 2 0 5 0) = .inr 2 ∧ dec (sr 0x23 4 1 2 63) = .inr 5 := by
  decide +kernel

/-- R44: engine commands, the lease, the fabric, tasks, traps and the CSR instructions. `trap 0x1001` is R345's
example. -/
theorem test_decode_system :
    (([0, 1, 2, 3, 4, 7] : List (BitVec 7)).map (fun fn => dec (sr 0x28 fn 1 2 0)))
    = [.inl (.cpy 1 2), .inl (.cpyb 1 2), .inl (.gath 1 2), .inl (.scat 1 2), .inl (.wstr 1 2), .inl (.dload 1 2)]
    ∧ dec (sr 0x28 5 1 0 0) = .inl (.lease 1) ∧ dec (sr 0x28 6 0 0 0) = .inl .unlease
    ∧ dec (sr 0x28 0 1 61 0) = .inr 5 ∧ dec (sr 0x28 8 1 2 0) = .inr 2
    ∧ dec (sr 0x29 0 1 2 0) = .inl (.fxput 1 2) ∧ dec (sr 0x29 1 1 2 0) = .inl (.fxred 1 2)
    ∧ dec (sr 0x29 2 1 0 0) = .inl (.step 1) ∧ dec (sr 0x29 3 1 0 0) = .inl (.stepnb 1)
    ∧ dec (sr 0x29 4 1 2 0) = .inl (.stepwt 1 2) ∧ dec (sr 0x29 5 1 2 0) = .inl (.fxstat 1 2)
    ∧ dec (sr 0x30 0 0 1 2) = .inl (.spawn 1 2) ∧ dec (sr 0x30 1 0 1 2) = .inl (.jdec 1 2)
    ∧ dec (sr 0x30 2 0 0 0) = .inl .exit ∧ dec (sr 0x30 3 1 0 0) = .inl (.yield 1)
    ∧ dec (sr 0x30 4 1 0 0) = .inl (.tcoord 1) ∧ dec (sr 0x30 5 1 0 0) = .inl (.gridid 1)
    ∧ dec (sr 0x31 0 0 0 0) = .inl .eret ∧ dec (sr 0x31 1 0 0 0) = .inl .brk ∧ dec (sr 0x31 2 1 2 0) = .inl (.wfe 1 2)
    ∧ dec (sr 0x31 3 1 2 0) = .inl (.pdone 1 2) ∧ dec (sr 0x31 4 0 0 0) = .inl .halt
    ∧ dec (si 0x32 0x012 1 0) = .inl (.csrr 1 .retired) ∧ dec (si 0x33 0x001 1 2) = .inl (.csrw 1 2 .rng)
    ∧ dec (si 0x34 0x204 1 2) = .inl (.csrs 1 2 (.trapReg .h .status)) ∧ dec (si 0x35 0x308 1 2) = .inl (.csrc 1 2 .world)
    ∧ dec (si 0x33 0x006 1 2) = .inr 5 ∧ dec [0x8008006C#32] = .inl (.trap 0x1001)
    ∧ dec (sr 0x3F 0 0 0 0) = .inr 2 ∧ dec (sr 0x0D 0 0 0 0) = .inr 2 := by
  decide +kernel

/-- A vector word (R46), as three parcels. -/
def vec (opc : BitVec 10) (k : BitVec 3) (tag : BitVec 4) (rm : BitVec 3) (fl : BitVec 2) (d a b : BitVec 24) : List Parcel :=
  [d.setWidth 8 ++ fl ++ rm ++ tag ++ k ++ opc ++ 1#2, a.setWidth 16 ++ d.extractLsb' 8 16,
    b ++ a.extractLsb' 16 8]

/-- An operand field (R47): kind, register, scalar register, stride. -/
def opnd (kind : BitVec 3) (reg : BitVec 5) (sreg stride : BitVec 6) : BitVec 24 := 0#4 ++ stride ++ sreg ++ reg ++ kind

/-- R46, R47: every operand kind, the mask, the tag, the rounding mode and the flags each from their own bits. -/
theorem test_decode_operands :
    dec (vec 0x000 1 4 2 0 (opnd 0 31 0 0) (opnd 1 7 5 0) (opnd 2 6 63 0))
      = .inl (.vadd ⟨1, .fp32, 2, 0, .v 31, .row 7 5, .col 6 63⟩)
    ∧ dec (vec 0x060 2 1 0 1 (opnd 3 5 4 0) (opnd 4 0 9 (-32)) (opnd 5 7 0 0))
      = .inl (.viadd ⟨2, .int8, 0, 1, .diag 5 4, .sp 9 (-32), .q 7⟩)
    ∧ dec (vec 0x0C0 7 3 7 0 (opnd 7 1 0 0) (opnd 6 0 62 0) (opnd 7 0 0 0))
      = .inl (.vcmp ⟨7, .fp64, 7, 0, .k 1, .s 62, .k 0⟩)
    ∧ dec (vec 0x000 0 4 0 0 (opnd 0 1 1 0) 0 0) = .inr 4
    ∧ dec (vec 0x000 0 15 0 0 (opnd 0 1 0 0) 0 0) = .inr 1 ∧ dec (vec 0x00E 0 4 0 0 0 0 0) = .inr 2 := by
  decide +kernel

/-- v1, v2, v3 and k1 as operand fields. -/
def f1 : BitVec 24 := opnd 0 1 0 0
def f2 : BitVec 24 := opnd 0 2 0 0
def f3 : BitVec 24 := opnd 0 3 0 0
def g1 : BitVec 24 := opnd 7 1 0 0

/-- The VWord of those fields, under k0. -/
def vf3 (f : Fmt) : VWord := ⟨0, f, 0, 0, .v 1, .v 2, .v 3⟩
def vf2 (f : Fmt) : VWord := ⟨0, f, 0, 0, .v 1, .v 2, .v 0⟩

/-- R49: the arithmetic and integer opcodes in index order. -/
theorem test_decode_vector_arith :
    (([0, 1, 2, 3, 4, 5, 6, 7, 8, 9, 13] : List (BitVec 10)).map (fun n => dec (vec n 0 4 0 0 f1 f2 f3)))
    = [.inl (.vadd (vf3 .fp32)), .inl (.vsub (vf3 .fp32)), .inl (.vmul (vf3 .fp32)), .inl (.vdiv (vf3 .fp32)),
      .inl (.vfma (vf3 .fp32)), .inl (.vfms (vf3 .fp32)), .inl (.vfnma (vf3 .fp32)), .inl (.vfnms (vf3 .fp32)),
      .inl (.vmax (vf3 .fp32)), .inl (.vmin (vf3 .fp32)), .inl (.vcpsgn (vf3 .fp32))]
    ∧ (([10, 11, 12, 0x40, 0x41, 0x42, 0x43, 0x44, 0x45] : List (BitVec 10)).map (fun n => dec (vec n 0 6 0 0 f1 f2 0)))
    = [.inl (.vabs (vf2 .fp16)), .inl (.vneg (vf2 .fp16)), .inl (.vsqrt (vf2 .fp16)), .inl (.vexp2 (vf2 .fp16)),
      .inl (.vlog2 (vf2 .fp16)), .inl (.vrcp (vf2 .fp16)), .inl (.vrsq (vf2 .fp16)), .inl (.vsigm (vf2 .fp16)),
      .inl (.vtanh (vf2 .fp16))]
    ∧ (([0x60, 0x61, 0x62, 0x63, 0x64, 0x65, 0x66, 0x67, 0x68, 0x69, 0x6A, 0x6B, 0x6C, 0x6D, 0x6F] : List (BitVec 10)).map
      (fun n => dec (vec n 0 14 0 0 f1 f2 f3)))
    = [.inl (.viadd (vf3 .uint8)), .inl (.visub (vf3 .uint8)), .inl (.vimul (vf3 .uint8)), .inl (.vimulh (vf3 .uint8)),
      .inl (.vimin (vf3 .uint8)), .inl (.vimax (vf3 .uint8)), .inl (.viminu (vf3 .uint8)), .inl (.vimaxu (vf3 .uint8)),
      .inl (.vand (vf3 .uint8)), .inl (.vor (vf3 .uint8)), .inl (.vxor (vf3 .uint8)), .inl (.vshl (vf3 .uint8)),
      .inl (.vshr (vf3 .uint8)), .inl (.vsra (vf3 .uint8)), .inl (.vidot4 (vf3 .uint8))]
    ∧ dec (vec 0x6E 0 13 0 0 f1 f2 0) = .inl (.viabs (vf2 .int16)) := by
  decide +kernel

/-- R49: conversions, compares, masks, reductions, moves and vector memory. -/
theorem test_decode_vector_other :
    dec (vec 0xA0 0 8 0 0 f1 f2 0) = .inl (.vcvt (vf2 .e5m2)) ∧ dec (vec 0xA1 0 5 0 0 f1 f2 f3) = .inl (.vscale (vf3 .bf16))
    ∧ dec (vec 0xA2 0 12 0 0 f1 0 0) = .inl (.vtag ⟨0, .e8, 0, 0, .v 1, .v 0, .v 0⟩)
    ∧ dec (vec 0xA3 0 11 0 0 f1 f2 f3) = .inl (.vqblk (vf3 .mk8)) ∧ dec (vec 0xA4 0 10 0 0 f1 f2 f3) = .inl (.vdqblk (vf3 .e2m3))
    ∧ dec (vec 0xA5 0 9 0 0 f1 f2 0) = .inl (.vclass (vf2 .e3m2))
    ∧ dec (vec 0xC0 0 2 4 0 g1 f2 f3) = .inl (.vcmp ⟨0, .int32, 4, 0, .k 1, .v 2, .v 3⟩)
    ∧ dec (vec 0xC1 0 7 0 0 f1 f2 f3) = .inl (.vsel (vf3 .e4m3))
    ∧ dec (vec 0xC2 0 0 0 0 g1 g1 g1) = .inl (.kand ⟨0, .raw, 0, 0, .k 1, .k 1, .k 1⟩)
    ∧ dec (vec 0xC3 0 0 0 0 g1 g1 g1) = .inl (.kor ⟨0, .raw, 0, 0, .k 1, .k 1, .k 1⟩)
    ∧ dec (vec 0xC4 0 0 0 0 g1 g1 g1) = .inl (.kxor ⟨0, .raw, 0, 0, .k 1, .k 1, .k 1⟩)
    ∧ dec (vec 0xC5 0 0 0 0 g1 g1 0) = .inl (.knot ⟨0, .raw, 0, 0, .k 1, .k 1, .v 0⟩)
    ∧ dec (vec 0xC6 0 2 0 0 f1 g1 0) = .inl (.kpop ⟨0, .int32, 0, 0, .v 1, .k 1, .v 0⟩)
    ∧ dec (vec 0xC7 0 0 0 0 g1 g1 0) = .inl (.kmov ⟨0, .raw, 0, 0, .k 1, .k 1, .v 0⟩)
    ∧ (([0xE0, 0xE1, 0xE2, 0xE3] : List (BitVec 10)).map (fun n => dec (vec n 0 4 0 0 f1 f2 0)))
    = [.inl (.vrsum (vf2 .fp32)), .inl (.vrmax (vf2 .fp32)), .inl (.vrmin (vf2 .fp32)), .inl (.vramax (vf2 .fp32))]
    ∧ dec (vec 0xE4 0 1 0 0 f1 f2 0) = .inl (.vriadd (vf2 .int8))
    ∧ dec (vec 0x100 0 0 0 0 f1 f2 0) = .inl (.vmov (vf2 .raw))
    ∧ dec (vec 0x101 0 4 0 0 f1 f2 (opnd 6 0 9 0)) = .inl (.vbcast ⟨0, .fp32, 0, 0, .v 1, .v 2, .s 9⟩)
    ∧ dec (vec 0x102 0 4 0 0 f1 f2 f3) = .inl (.vperm (vf3 .fp32))
    ∧ dec (vec 0x103 0 4 0 0 f1 f2 (opnd 6 0 9 0)) = .inl (.vrot ⟨0, .fp32, 0, 0, .v 1, .v 2, .s 9⟩)
    ∧ dec (vec 0x104 0 4 0 0 f1 f2 0) = .inl (.vcomp (vf2 .fp32)) ∧ dec (vec 0x105 0 4 0 0 f1 f2 0) = .inl (.vexpd (vf2 .fp32))
    ∧ dec (vec 0x106 0 4 0 0 f1 0 0) = .inl (.viota ⟨0, .fp32, 0, 0, .v 1, .v 0, .v 0⟩)
    ∧ dec (vec 0x107 0 4 0 1 f1 f2 f3) = .inl (.vzip { vf3 .fp32 with flags := 1 })
    ∧ dec (vec 0x108 0 4 0 0 f1 f2 f3) = .inl (.vuzp (vf3 .fp32))
    ∧ dec (vec 0x140 0 4 0 0 f1 (opnd 6 0 9 0) 0) = .inl (.vld ⟨0, .fp32, 0, 0, .v 1, .s 9, .v 0⟩)
    ∧ dec (vec 0x141 0 4 0 0 0 f2 (opnd 6 0 9 0)) = .inl (.vst ⟨0, .fp32, 0, 0, .v 0, .v 2, .s 9⟩)
    ∧ dec (vec 0x142 0 4 0 0 f1 (opnd 6 0 9 0) f3) = .inl (.vldx ⟨0, .fp32, 0, 0, .v 1, .s 9, .v 3⟩)
    ∧ dec (vec 0x143 0 4 0 0 f1 f2 (opnd 6 0 9 0)) = .inl (.vstx ⟨0, .fp32, 0, 0, .v 1, .v 2, .s 9⟩) := by
  decide +kernel

/-- R50, R51: an MMA with fields of every parcel set, and the other matrix words; MSAVE and MRSTR are R363's words. -/
theorem test_decode_matrix :
    dec [0b1_0010_1110_0001_100_011_001_00000001_11#32, 0b0000000000_000_01_000000_000000_010_00#32,
        0b000_001001_011001000_00_000110_000101#32, 0b0000000_100_0_0_011_01_001010_000001011#32,
        0b00000000000000000000_1_1_0_1_00000010#32, 0b00000000000000000000_001101_001100#32]
      = .inl (.mma { MWord.zero with
          acc := 1, rowMask := 3, colMask := 4, af := .int8, bf := .uint8, cf := .int32, ovw := true, aTile := 2, bKind := 1
          bFirst := 5, bSecond := 6, kcount := 200, koff := 9, entry := 11, dparam := 10, dmode := 1, acc2 := 3, rm := 4
          rep := 2, advA := true, accAcross := true, drainLast := true, waitCp := 12, waitWs := 13 })
    ∧ dec [0b0_0100_0000_0000_100_011_010_00000010_11#32, 0, 0, 0b0000000_000_0_0_000_10_001010_000000001#32, 0, 0]
      = .inl (.drun { MWord.zero with acc := 2, rowMask := 3, colMask := 4, cf := .fp32, entry := 1, dparam := 10, dmode := 2 })
    ∧ dec [0b0_0000_0000_0001_000_000_000_00000011_11#32, 0b0000000000_000_00_010101_010100_101_01#32, 0, 0, 0, 0]
      = .inl (.mld { MWord.zero with af := .int8, aKind := 1, aTile := 5, aFirst := 20, aSecond := 21 })
    ∧ dec [0b0_0100_0000_0101_100_011_010_00000100_11#32, 0b0000000000_000_00_010101_010100_000_01#32, 0, 0, 0, 0]
      = .inl (.mst { MWord.zero with acc := 2, rowMask := 3, colMask := 4, af := .bf16, cf := .fp32, aKind := 1, aFirst := 20, aSecond := 21 })
    ∧ dec [0b0_0100_0000_0101_100_011_010_00000110_11#32, 0b0000000000_000_00_000000_000000_110_00#32, 0, 0, 0, 0]
      = .inl (.acpy { MWord.zero with acc := 2, rowMask := 3, colMask := 4, af := .bf16, cf := .fp32, aTile := 6 })
    ∧ dec [0b1_0010_0000_1101_100_011_010_00000111_11#32, 0b0000000000_000_00_000000_000000_110_00#32, 0, 0, 0, 0]
      = .inl (.acpyin { MWord.zero with acc := 2, rowMask := 3, colMask := 4, af := .int16, cf := .int32, ovw := true, aTile := 6 })
    ∧ dec [0b0_0011_0000_0000_000_000_111_00000101_11#32, 0, 0, 0, 0, 0] = .inl (.mzero { MWord.zero with acc := 7, cf := .fp64 })
    ∧ dec [0x00000023#32, 0x0000AA80#32, 0, 0, 0, 0] = .inl (.msave 20 21)
    ∧ dec [0x00000027#32, 0x0000AA80#32, 0, 0, 0, 0] = .inl (.mrstr 20 21)
    ∧ dec [0x0000002B#32, 0x000000A0#32, 0, 0, 0, 0] = .inl (.mstat 5)
    ∧ dec [0b1011_11#32, 0, 0, 0, 0, 0] = .inr 2 ∧ dec [0b11#32, 0, 0, 0, 0, 0] = .inr 2 := by
  decide +kernel

/-! ### Single steps: states to run on -/

/-- A node of one member that runs on cluster 0, core 0, in ring U at pc 0x400; virtual pages 0 and 1 of the task's
address space stand for physical pages 0 and 1. -/
def base : State :=
  { cores := [(0, { team := 1, running := true, ctx := { pc := 0x400 } })]
    clusters := [(0, { team := 1, owner := some 0 })]
    slices := [(0, { dtc := [⟨0, 0, 13, 0, true, true⟩] })]
    teams := [(1, { live := true, record := List.replicate 32 0, cluster := some 0 })]
    nextTeam := 2 }

/-- A state with scalar registers of core 0 set. -/
def withS (s : State) (l : List (SReg × Word)) : State := l.foldl (fun s e => s.onCtx 0 (·.setS e.1 e.2)) s

/-- A state with vector register `n` of core 0 tagged, its first lanes set. -/
def withV (s : State) (n : Nat) (f : Fmt) (l : List (BitVec 32)) : State :=
  s.onCtx 0 (fun c => { c with regs := { c.regs with
    v := c.regs.v.setRange (128 * n) l, vtag := Map.set .raw c.regs.vtag n f } })

/-- A state with memory bytes, committed and in DRAM. -/
def withMem (s : State) (pa : Nat) (bs : List Byte) : State :=
  s.onHome (fun h => { h with mem := h.mem.setRange pa bs })

/-- The state after one instruction (the same one where it does not answer a next state). -/
def ran (i : Instr) (s : State) : State :=
  match exec i s with
  | .next t => t
  | _ => s

/-- The same node, committed. -/
def commitBase : State := base.onTeam 1 (fun t => { t with committed := true })

/-! ### Single steps: scalar words -/

/-- R160's examples: −7 and 2 give −3 and −1; 7 and −2 give −3 and 1; the unsigned ones; and a zero divisor. -/
theorem test_div_rem :
    (ran (.div 8 9 10) (withS base [(9, -7), (10, 2)])).rs 8 = -3
    ∧ (ran (.rem 8 9 10) (withS base [(9, -7), (10, 2)])).rs 8 = -1
    ∧ (ran (.div 8 9 10) (withS base [(9, 7), (10, -2)])).rs 8 = -3
    ∧ (ran (.rem 8 9 10) (withS base [(9, 7), (10, -2)])).rs 8 = 1
    ∧ (ran (.divu 8 9 10) (withS base [(9, 0xFFFFFFFFFFFFFFF9), (10, 2)])).rs 8 = 0x7FFFFFFFFFFFFFFC
    ∧ (ran (.remu 8 9 10) (withS base [(9, 0xFFFFFFFFFFFFFFF9), (10, 2)])).rs 8 = 1
    ∧ (ran (.div 8 9 10) (withS base [(9, 5)])).rs 8 = 0xFFFFFFFFFFFFFFFF := by
  decide +kernel

/-- R160's second example: the three products of all ones and 2. -/
theorem test_products :
    (ran (.mul 8 9 10) (withS base [(9, -1), (10, 2)])).rs 8 = 0xFFFFFFFFFFFFFFFE
    ∧ (ran (.mulh 8 9 10) (withS base [(9, -1), (10, 2)])).rs 8 = 0xFFFFFFFFFFFFFFFF
    ∧ (ran (.mulhu 8 9 10) (withS base [(9, -1), (10, 2)])).rs 8 = 1 := by
  decide +kernel

/-- R10's example, the constant of R163's example by LUI and ADDI, and s0 as a destination. -/
theorem test_immediates :
    (ran (.addi 1 0 0x1FFF) base).rs 1 = 0xFFFFFFFFFFFFFFFF
    ∧ (ran (.addi 1 1 (BitVec.ofInt 13 (-2440))) (ran (.lui 1 37283) base)).rs 1 = 0x12345678
    ∧ (ran (.addi 0 0 5) base).rs 0 = 0 ∧ ((ran (.addi 0 0 5) base).ctx 0).pc = 0x404 := by
  decide +kernel

/-- R164, R165: a branch back by one parcel, one that is not taken, and JALR through its own destination. -/
theorem test_control_flow :
    ((ran (.bne 5 0 (-1)) (withS base [(5, 1)])).ctx 0).pc = 0x3FC
    ∧ ((ran (.bne 5 0 (-1)) base).ctx 0).pc = 0x404
    ∧ ((ran (.jalr 1 1 3) (withS base [(1, 0x800)])).ctx 0).pc = 0x800
    ∧ (ran (.jalr 1 1 3) (withS base [(1, 0x800)])).rs 1 = 0x404 := by
  decide +kernel

/-! ### Single steps: memory -/

/-- R87, R91, R94: little-endian bytes and sign extension through the scratchpad window; a store off its width. -/
theorem test_scratchpad_access :
    (ran (.ldb 2 1 1) (ran (.sth 3 1 0) (withS base [(1, 0xFFFFFFF000000000), (3, 0x80FF)]))).rs 2 = 0xFFFFFFFFFFFFFF80
    ∧ (ran (.ldbu 2 1 0) (ran (.sth 3 1 0) (withS base [(1, 0xFFFFFFF000000000), (3, 0x80FF)]))).rs 2 = 0xFF
    ∧ ((ran (.sth 3 1 1) (withS base [(1, 0xFFFFFFF000000000)])).ctx 0).ctl.d.cause = 0x05 := by
  decide +kernel

/-- R82, R89: a load that misses retires with its data to come; the data arrives; a store then hits L1. -/
theorem test_memory_load :
    ((ran (.ldd 2 0 16) (withMem base 16 [0xEF, 0xBE])).ctx 0).loads = 1
    ∧ (ran (.loadComplete 0 0) (ran (.ldd 2 0 16) (withMem base 16 [0xEF, 0xBE]))).rs 2 = 0xBEEF
    ∧ (ran (.ldh 2 0 16) (ran (.std 1 0 16) (withS base [(1, 0x8001)]))).rs 2 = 0xFFFFFFFFFFFF8001
    ∧ (ran (.std 1 0 16) (withS base [(1, 0x8001)])).home.mem = [] := by
  decide +kernel

/-- The example of R105: two AMOADDs of 1 and 2 on a word that holds 0; the second returns the first's sum. -/
theorem test_amoadd :
    (ran (.amoadd 5 6 7) (withS (withMem commitBase 64 [1]) [(6, 64), (7, 2)])).rs 5 = 1
    ∧ (ran (.amoadd 5 6 7) (withS (withMem commitBase 64 [1]) [(6, 64), (7, 2)])).home.mem = [(64, 3)] := by
  decide +kernel

/-- The example of R101: REDFADDS of 1.0 into FP32 2²⁴ stays 2²⁴, a tie to even. -/
theorem test_redfadds :
    (ran (.redfadds 6 7) (withS (withMem commitBase 64 [0, 0, 0x80, 0x4B]) [(6, 64), (7, 0x3F800000)])).peekNat 64 4 = 0x4B800000 := by
  decide +kernel

/-- R106 to R108: a region with a store and a load performs at ALE; ALE without one writes 1. -/
theorem test_line_region :
    (ran (.ale 9) base).rs 9 = 1
    ∧ (ran (.ale 9) (ran (.ldw 3 6 4) (ran (.stw 7 6 4) (ran (.alb 6) (withS commitBase [(6, 128), (7, 77)]))))).rs 3 = 77
    ∧ (ran (.ale 9) (ran (.ldw 3 6 4) (ran (.stw 7 6 4) (ran (.alb 6) (withS commitBase [(6, 128), (7, 77)]))))).home.mem
      = [(132, 77)] := by
  decide +kernel

/-! ### Single steps: synchronisation, control registers, traps -/

/-- R259: a REL of a committed node counts RSEQ up and sets VALUE; ACQ reads RSEQ. -/
theorem test_release_acquire :
    (ran (.rel 3 6 7) (withS commitBase [(6, 32), (7, 9)])).home.mem = [(32, 1), (40, 9)]
    ∧ (ran (.acq 3 6) (ran (.rel 3 6 7) (withS commitBase [(6, 32), (7, 9)]))).rs 3 = 1 := by
  decide +kernel

/-- R29, R168: the flags are cleared by written ones; CSRC of a flag that is set clears it and reads the old value. -/
theorem test_csr_flags :
    (ran (.csrc 2 1 .fpflags) (withS (base.onCtx 0 (fun c => { c with ctl := { c.ctl with fpflags := 0x11 } })) [(1, 127)])).rs 2 = 0x11
    ∧ ((ran (.csrc 2 1 .fpflags) (withS (base.onCtx 0 (fun c => { c with ctl := { c.ctl with fpflags := 0x11 } })) [(1, 127)])).ctx 0).ctl.fpflags = 0
    ∧ ((ran (.csrw 2 1 (.trapReg .h .tvec)) base).ctx 0).ctl.d.cause = 0x02 := by
  decide +kernel

/-- R345 to R347: TRAP saves the next parcel's address and goes up a ring; ERET comes back; BRK saves its own address. -/
theorem test_trap_and_return :
    ((ran (.trap 5) base).ctx 0).ring = .d ∧ ((ran (.trap 5) base).ctx 0).ctl.d.epc = 0x404
    ∧ ((ran .eret (ran (.trap 5) base)).ctx 0).ring = .u ∧ ((ran .eret (ran (.trap 5) base)).ctx 0).pc = 0x404
    ∧ ((ran .brk base).ctx 0).ctl.d.epc = 0x400 ∧ ((ran .eret base).ctx 0).ctl.d.cause = 0x02 := by
  decide +kernel

/-- R127, R129: WAITTL of a number that was never issued takes COMMAND_AHEAD; STREAM_EMPTY of an unbound register. -/
theorem test_wait_and_pop :
    ((ran (.waittl .cp 1) (withS base [(1, 1)])).ctx 0).ctl.d.cause = 0x0B
    ∧ ((ran (.waittl .cp 0) base).ctx 0).pc = 0x404
    ∧ ((ran (.qpop 5 2) base).ctx 0).ctl.d.cause = 0x09 ∧ ((ran (.qpop 5 2) base).ctx 0).ctl.d.tval = 2 := by
  decide +kernel

/-- R113, R127: a CPY of 4 bytes between two scratchpad places takes number 1; its burst moves the bytes. -/
theorem test_copy :
    (ran (.cpy 10 20) (withS base [(20, 0xFFFFFFF000000100), (21, 0xFFFFFFF000000000), (23, 4)])).rs 10 = 1
    ∧ ((ran (.engineBurst 1 0 .copy 0) (ran (.cpy 10 20) (withS (base.onStore 0 (·.spPut 0 [1, 2, 3, 4]))
        [(20, 0xFFFFFFF000000100), (21, 0xFFFFFFF000000000), (23, 4)]))).cluster 0).store.spGet 0x100 4 = [1, 2, 3, 4] := by
  decide +kernel

/-! ### Single steps: vector words -/

/-- Element 0 of a vector register. -/
def lane0 (s : State) (n : Nat) (f : Fmt) : Nat := (s.ctx 0).regs.vElem n f 0

/-- R182's example: the fused BF16 result 0x3E04 sets no flag. -/
theorem test_vfma :
    lane0 (ran (.vfma ⟨0, .bf16, 0, 0, .v 4, .v 5, .v 6⟩)
      (withV (withV (withV base 4 .bf16 [0xBF80]) 5 .bf16 [0x3F88]) 6 .bf16 [0x3F88])) 4 .bf16 = 0x3E04
    ∧ ((ran (.vfma ⟨0, .bf16, 0, 0, .v 4, .v 5, .v 6⟩)
      (withV (withV (withV base 4 .bf16 [0xBF80]) 5 .bf16 [0x3F88]) 6 .bf16 [0x3F88])).ctx 0).ctl.fpflags = 0 := by
  decide +kernel

/-- R36's example: Exp2(−1.5) is 0x3EB504F3. -/
theorem test_vexp2 :
    lane0 (ran (.vexp2 ⟨0, .fp32, 0, 0, .v 1, .v 2, .v 0⟩) (withV base 2 .fp32 [0xBFC00000])) 1 .fp32 = 0x3EB504F3 := by
  decide +kernel

/-- R36's examples: Log2(8) = 3, Sigm(0) = 0.5, Sigm(20) = 1, Sigm(−200) = +0. -/
theorem test_log2_sigm :
    (transc .log2 .fp32 0x41000000 ⟨0, 0⟩).1 = 0x40400000 ∧ (transc .sigm .fp32 0 ⟨0, 0⟩).1 = 0x3F000000
    ∧ (transc .sigm .fp32 0x41A00000 ⟨0, 0⟩).1 = 0x3F800000 ∧ (transc .sigm .fp32 0xC3480000 ⟨0, 0⟩).1 = 0 := by
  decide +kernel

/-- R34's example: the tree gives 1 with NX, where lanes from 4 on are masked off. -/
theorem test_vrsum :
    lane0 (ran (.vrsum ⟨0, .fp32, 1, 0, .v 1, .v 2, .v 0⟩) ((withV base 2 .fp32 [0x3F800000, 0x4B800000, 0x3F800000, 0xCB800000]).onCtx 0
      (·.onRegs (·.setMask 1 0xF)))) 1 .fp32 = 0x3F800000
    ∧ ((ran (.vrsum ⟨0, .fp32, 1, 0, .v 1, .v 2, .v 0⟩) ((withV base 2 .fp32 [0x3F800000, 0x4B800000, 0x3F800000, 0xCB800000]).onCtx 0
      (·.onRegs (·.setMask 1 0xF)))).ctx 0).ctl.fpflags = 0x10 := by
  decide +kernel

/-- R22's examples: FP32 0.7 is MK8 0x2D with NX, −0.0041 is 0x00 with UF and NX; R26's value 1 + 2⁻⁹ is nearest to BF16
0x3F80. -/
theorem test_conversions :
    (encodeF .mk8 .rne false (decodeF .fp32 0x3F333333) ⟨0, 0⟩).1 = 0x2D
    ∧ (encodeF .mk8 .rne false (decodeF .fp32 0x3F333333) ⟨0, 0⟩).2.flags = 0x10
    ∧ (encodeF .mk8 .rne false (decodeF .fp32 0xBB865944) ⟨0, 0⟩).1 = 0
    ∧ (encodeF .mk8 .rne false (decodeF .fp32 0xBB865944) ⟨0, 0⟩).2.flags = 0x18
    ∧ (encodeF .bf16 .rne false (decodeF .fp32 0x3F804000) ⟨0, 0⟩).1 = 0x3F80 := by
  decide +kernel

/-- R189's example: the scale of block 0 is 0x83, of the others 0x7F; lanes 0 to 3 are 0x50, 0x30, 0x8C, 0x02. -/
theorem test_vqblk :
    (List.range 4).map (((ran (.vqblk ⟨0, .mk8, 0, 0, .v 9, .v 8, .v 10⟩)
      (withV base 8 .fp32 [0x41A00000, 0x41400000, 0xC0400000, 0x3F000000, 0x3DCCCCCD, 0x41500000])).ctx 0).regs.vElem 9 .mk8)
        = [0x50, 0x30, 0x8C, 0x02]
    ∧ (List.range 2).map (((ran (.vqblk ⟨0, .mk8, 0, 0, .v 9, .v 8, .v 10⟩)
      (withV base 8 .fp32 [0x41A00000, 0x41400000, 0xC0400000, 0x3F000000, 0x3DCCCCCD, 0x41500000])).ctx 0).regs.vElem 10 .e8)
        = [0x83, 0x7F] := by
  decide +kernel

/-- R14, R140: a source with another tag takes FORMAT_MISMATCH; R192: VCMP writes 0 where the condition fails. -/
theorem test_vector_checks :
    ((ran (.vadd ⟨0, .fp32, 0, 0, .v 1, .v 2, .v 3⟩) (withV base 2 .fp32 [])).ctx 0).ctl.d.cause = 0x03
    ∧ ((ran (.vcmp ⟨0, .int32, 0, 0, .k 1, .v 2, .v 3⟩) (withV (withV base 2 .int32 [7, 5]) 3 .int32 [7, 6])).ctx 0).regs.mask 1
      = BitVec.allOnes 128 - 2 := by
  decide +kernel

/-- The example of R139: element 126 of the diagonal 3 of a BF16 tile stands at byte 32,258. -/
theorem test_tile_layout : Layout.offset .l16 .diag 3 126 = 32258 ∧ Layout.offset .l8 .diag 3 126 = 32257 := by
  decide +kernel

/-! ### Single steps: the array -/

/-- The example of R145: the row sum of 0xFFFFFFF0 and 0x20 is 0x11; adding 0x20 in word 2 makes it 0x31. -/
theorem test_row_checksum :
    ((({} : TeamStore).putWord 0 5 0 0xFFFFFFF0).putWord 0 5 1 0x20).sums.get 5 = 0x11
    ∧ (((({} : TeamStore).putWord 0 5 0 0xFFFFFFF0).putWord 0 5 1 0x20).putWord 0 5 2 0x20).sums.get 5 = 0x31 := by
  decide +kernel

/-- R206, R212: with the lease, MZERO is accepted with number 1; without it, it waits and its member requests. -/
theorem test_matrix_accept :
    ((ran (.mzero { MWord.zero with cf := .fp32 }) (base.onArray 0 (fun a => { a with lease := { holder := some 0, left := 4 } }))).cluster 0).array.queue.length = 1
    ∧ ((ran (.mzero { MWord.zero with cf := .fp32 }) base).ctx 0).pc = 0x400
    ∧ ((ran (.mzero { MWord.zero with cf := .fp32 }) base).cluster 0).array.lease.reqs = [0] := by
  decide +kernel

/-! ### Steps of the machine -/

/-- R40, R41: the parcels of ADDI s3, s4, −5 placed at the pc run as the first instruction after reset. -/
theorem test_step_runs_word :
    (match step (State.reset.withFetchWord 32 0xFFD88182) with
      | .next t => (t.rs 3, (t.ctx 0).pc, (t.ctx 0).ctl.retired)
      | _ => (0, 0, 0)) = (0xFFFFFFFFFFFFFFFB, 4, 1) := by
  decide +kernel

/-! ### Witnesses: states and operands that meet the statements' hypotheses -/

/-- Is it this value? -/
def isOkOf {ε α : Type} [DecidableEq α] (x : Except ε α) (a : α) : Bool :=
  match x with
  | .ok b => decide (b = a)
  | .error _ => false

theorem ok_iff {ε α : Type} [DecidableEq α] (x : Except ε α) (a : α) : (x = .ok a) ↔ isOkOf x a = true := by
  cases x <;> simp [isOkOf]

/-- Is it a value? -/
def isOk {ε α : Type} (x : Except ε α) : Bool :=
  match x with
  | .ok _ => true
  | .error _ => false

/-- The value, or a default. -/
def okOr {ε α : Type} (d : α) (x : Except ε α) : α :=
  match x with
  | .ok a => a
  | .error _ => d

theorem ok_of_isOk {ε α : Type} (d : α) (x : Except ε α) (h : isOk x = true) : x = .ok (okOr d x) := by
  cases x <;> simp_all [isOk, okOr]

/-- What holds of every listed value and of the default holds of every value read. -/
theorem get_all {α : Type} (d : α) (p : α → Bool) (hd : p d = true) (m : Map α) (h : m.all (fun e => p e.2) = true) (k : Nat) :
    p (Map.get d m k) = true := by
  induction m with
  | nil => exact hd
  | cons e m ih =>
    simp only [List.all_cons, Bool.and_eq_true] at h
    unfold Map.get
    split
    · exact hd
    · split
      · exact h.1
      · exact ih h.2

/-- No core of the state has an L1 line. -/
theorem noLines (s : State) (h : s.cores.all (fun e => e.2.l1.isEmpty) = true) (k : Nat) : (s.core k).l1 = [] :=
  List.isEmpty_iff.mp (get_all {} (fun c => c.l1.isEmpty) rfl s.cores h k)

/-- The instruction answers a next state. -/
theorem next_of (o : Host.Outcome State Fault Refusal)
    (h : (match o with | .next _ => true | _ => false) = true) : ∃ t, o = .next t := by
  cases o <;> simp_all

/-- The node at ring D, with its IE set. -/
def baseD : State := base.onCtx 0 (fun c => { c with ring := .d })

/-- The node at ring M: PAs as they are. -/
def baseM : State := base.onCtx 0 (fun c => { c with ring := .m })

/-- The node with an ADDI at its pc, and the core's turn next. -/
def fetchable : State := { withMem base 0x400 [0x82, 0x81, 0xD8, 0xFF] with agenda := [.run 0] }

/-- The state as it stands where core 0 fetches, and what it fetches. -/
def fetchAt : State := ({ fetchable with agenda := [], turn := 0 } : State).passTime
def fetched : State × List Parcel := okOr (fetchAt, []) (fetchAt.fetchWord 0)

theorem witness_DecodeEncodeRoundTrip : (Instr.amocas 1 2 62).wf = true ∧ (Instr.mma mw).wf = true := by decide +kernel

theorem witness_DecodedWordReencodes :
    ∃ (p : Parcel) (ps : List Parcel) (i : Instr), (p :: ps).length = wordParcels p.toNat ∧ dec (p :: ps) = .inl i :=
  ⟨0xFFD88182, [], .addi 3 4 (-5), by decide +kernel⟩

theorem witness_StepRunsDecodedInstruction :
    fetchable.agenda = .run 0 :: [] ∧ fetchAt.issues 0 = true ∧ fetchAt.boundary 0 = none
    ∧ fetchAt.fetchWord 0 = .ok (fetched.1, fetched.2) ∧ dec fetched.2 = .inl (.addi 3 4 (-5))
    ∧ fetched.1.guard 0 (.addi 3 4 (-5)) = .go :=
  ⟨rfl, by decide +kernel, rfl, ok_of_isOk (fetchAt, []) _ (by decide +kernel), by decide +kernel, by rfl⟩

theorem witness_StepTurnsAndEvents :
    (∃ s : State, s.agenda = [] ∧ s.passTime.nextEvent = none ∧ s.passTime.nextRetry = none ∧ s.passTime.nextCore = some 0
      ∧ isOk (({ s.passTime with turn := 0 } : State).fetchWord 0) = true)
    ∧ (∃ (s : State) (i : Instr) (r : List Act), s.agenda = .ev i :: r ∧ i.isEvent = true)
    ∧ (∃ (s : State) (m : Master) (off w : Nat) (i : Instr) (r : List Act), s.agenda = .write m off w i :: r
      ∧ off % 8 = 0 ∧ w = 8 ∧ i.isEvent = true)
    ∧ (∃ (s : State) (m : Master) (off w : Nat) (x : RReg) (r : List Act), s.agenda = .read m off w x :: r
      ∧ off % 8 = 0 ∧ w = 8)
    ∧ ∃ (s : State) (m : Master) (off w : Nat) (x : RReg) (r : List Act), s.agenda = .read m off w x :: r
      ∧ ¬ (off % 8 = 0 ∧ w = 8) :=
  ⟨⟨{ fetchable with agenda := [] }, rfl, by rfl, by rfl, by rfl, by decide +kernel⟩,
    ⟨{ base with agenda := [.ev .multicastLand] }, .multicastLand, [], by decide +kernel⟩,
    ⟨{ base with agenda := [.write .host 0 8 (.coreResume ⟨.host, 0⟩ 1)] }, .host, 0, 8, .coreResume ⟨.host, 0⟩ 1, [],
      by decide +kernel⟩,
    ⟨{ base with agenda := [.read .host 8 8 .pstate] }, .host, 8, 8, .pstate, [], by decide +kernel⟩,
    ⟨{ base with agenda := [.read .host 4 8 .pstate] }, .host, 4, 8, .pstate, [], by decide +kernel⟩⟩

/-- A word of major 0x3F, which no table lists. -/
theorem witness_UndecodedWordTraps :
    ∃ (s : State) (t : State × List Parcel), s.agenda = .run 0 :: []
      ∧ (({ s with agenda := [], turn := 0 } : State).passTime).issues 0 = true
      ∧ (({ s with agenda := [], turn := 0 } : State).passTime).boundary 0 = none
      ∧ (({ s with agenda := [], turn := 0 } : State).passTime).fetchWord 0 = .ok t ∧ t.2 = [0x7E#32] ∧ dec t.2 = .inr 2
      ∧ (t.1.ctx 0).ring = .u :=
  ⟨{ withMem base 0x400 [0x7E] with agenda := [.run 0] }, _, rfl, by decide +kernel, rfl,
    ok_of_isOk (base, []) _ (by decide +kernel), by decide +kernel, by decide +kernel, by rfl⟩

theorem witness_StepKeepsMemoryCanonical : ∃ s t : State, s.memOk = true ∧ step s = .next t := by
  obtain ⟨t, h⟩ := next_of (step fetchable) (by decide +kernel)
  exact ⟨fetchable, t, by decide +kernel, h⟩

/-- The most negative dividend by −1 and by zero; a value without a one bit and one of all ones. -/
theorem witness_RegisterOperations :
    (∃ (s : State) (a b : SReg) (x y : Word), s.rs a = x ∧ s.rs b = y ∧ x = 0x8000000000000000 ∧ y = 0xFFFFFFFFFFFFFFFF)
    ∧ (∃ (s : State) (a b : SReg) (x y : Word), s.rs a = x ∧ s.rs b = y ∧ x ≠ 0 ∧ y = 0)
    ∧ ∃ (s : State) (a : SReg) (x : Word), s.rs a = x ∧ x = 0 :=
  ⟨⟨withS base [(1, 0x8000000000000000), (2, -1)], 1, 2, 0x8000000000000000, -1, by decide +kernel⟩,
    ⟨withS base [(1, 7)], 1, 0, 7, 0, by decide +kernel⟩, ⟨base, 0, 0, by decide +kernel⟩⟩

theorem witness_ImmediateArithmetic : ∃ (s : State) (a : SReg) (imm : BitVec 13) (x : Word), s.rs a = x ∧ imm = 0x1000 ∧ x = 1 :=
  ⟨withS base [(1, 1)], 1, 0x1000, 1, by decide +kernel⟩

theorem witness_BranchesAndJumps :
    ∃ (s : State) (a b : SReg) (x y pc : Word), s.rs a = x ∧ s.rs b = y ∧ (s.ctx s.turn).pc = pc ∧ x ≠ y :=
  ⟨withS base [(1, 5)], 1, 2, 5, 0, 0x400, by decide +kernel⟩

/-- The node with a multicast store of its core 0 on its way to bytes 8 and 9 of clusters 0 and 7. -/
def sending : State :=
  { withS base [(1, 0xFFFFFFF000000000)] with
    time := { cycle := 24 }, mcast := [⟨0, 0, 1, 0, 0, 0, [(0x81, 8, [1, 2])], false⟩] }

/-- The first bytes of the window of partition 0, with and without a multicast store on its way. -/
theorem witness_ScratchpadLoadsAndStores :
    (∃ (s : State) (d a : SReg) (imm : BitVec 13) (e : Instr × Nat × Bool), e ∈ loadRows d a imm
      ∧ (s.ctx s.turn).recording = false ∧ rangeIn .localSp (memAddr s a imm).toNat e.2.1 = true
      ∧ (memAddr s a imm).toNat % e.2.1 = 0 ∧ s.mcastPending s.turn (spOff (memAddr s a imm).toNat) e.2.1 = false
      ∧ (s.cluster (clusterOf s.turn)).store.spBadIn (spOff (memAddr s a imm).toNat) e.2.1 = false)
    ∧ (∃ (s : State) (d a : SReg) (imm : BitVec 13) (e : Instr × Nat × Bool), e ∈ loadRows d a imm
      ∧ (s.ctx s.turn).recording = false ∧ rangeIn .localSp (memAddr s a imm).toNat e.2.1 = true
      ∧ (memAddr s a imm).toNat % e.2.1 = 0 ∧ s.mcastPending s.turn (spOff (memAddr s a imm).toNat) e.2.1 = true)
    ∧ (∃ (s : State) (d a : SReg) (imm : BitVec 13) (e : Instr × Nat), e ∈ storeRows d a imm
      ∧ (s.ctx s.turn).recording = false ∧ rangeIn .localSp (memAddr s a imm).toNat e.2 = true
      ∧ (memAddr s a imm).toNat % e.2 = 0 ∧ s.mcastOut s.turn = true)
    ∧ ∃ (s : State) (d a : SReg) (imm : BitVec 13) (e : Instr × Nat), e ∈ storeRows d a imm
      ∧ (s.ctx s.turn).recording = false ∧ rangeIn .localSp (memAddr s a imm).toNat e.2 = true
      ∧ (memAddr s a imm).toNat % e.2 = 0 ∧ s.mcastOut s.turn = false
      ∧ (s.cluster (clusterOf s.turn)).store.spBadIn (spOff (memAddr s a imm).toNat) e.2 = false :=
  ⟨⟨withS base [(1, 0xFFFFFFF000000000)], 2, 1, 8, (.ldd 2 1 8, 8, false), by decide +kernel⟩,
    ⟨sending, 2, 1, 8, (.ldd 2 1 8, 8, false), by decide +kernel⟩, ⟨sending, 2, 1, 3, (.stb 2 1 3, 1), by decide +kernel⟩,
    ⟨withS base [(1, 0xFFFFFFF000000000)], 2, 1, 3, (.stb 2 1 3, 1), by decide +kernel⟩⟩

/-- A miss with room, a miss with 65,535 loads outstanding, and a hit; a pending load at the end of its line. -/
theorem witness_MemoryLoads :
    (∃ (s : State) (d a : SReg) (imm : BitVec 13) (e : Instr × Nat × Bool) (pa : Nat) (bs : List Byte), e ∈ loadRows d a imm
      ∧ (s.ctx s.turn).recording = false ∧ rangeIn .memory (memAddr s a imm).toNat e.2.1 = true
      ∧ (memAddr s a imm).toNat % e.2.1 = 0 ∧ s.tr s.turn (memAddr s a imm).toNat false 1 = .ok pa
      ∧ s.l1Read s.turn (s.pasidOf s.turn true) (memAddr s a imm).toNat e.2.1 = .hit bs)
    ∧ (∃ (s : State) (d a : SReg) (imm : BitVec 13) (e : Instr × Nat × Bool) (pa : Nat), e ∈ loadRows d a imm
      ∧ (s.ctx s.turn).recording = false ∧ rangeIn .memory (memAddr s a imm).toNat e.2.1 = true
      ∧ (memAddr s a imm).toNat % e.2.1 = 0 ∧ s.tr s.turn (memAddr s a imm).toNat false 1 = .ok pa
      ∧ s.l1Read s.turn (s.pasidOf s.turn true) (memAddr s a imm).toNat e.2.1 = .miss ∧ (s.ctx s.turn).loads ≠ 0xFFFF)
    ∧ (∃ (s : State) (d a : SReg) (imm : BitVec 13) (e : Instr × Nat × Bool) (pa : Nat), e ∈ loadRows d a imm
      ∧ (s.ctx s.turn).recording = false ∧ rangeIn .memory (memAddr s a imm).toNat e.2.1 = true
      ∧ (memAddr s a imm).toNat % e.2.1 = 0 ∧ s.tr s.turn (memAddr s a imm).toNat false 1 = .ok pa
      ∧ s.l1Read s.turn (s.pasidOf s.turn true) (memAddr s a imm).toNat e.2.1 = .miss ∧ (s.ctx s.turn).loads = 0xFFFF)
    ∧ ∃ (s : State) (k ix : Nat) (p : PendLoad), (s.ctx k).pend[ix]? = some p ∧ p.vec = none ∧ (s.core k).l1 = [] ∧ p.va % 128 + p.w ≤ 128
      ∧ p.pa % 128 = p.va % 128 ∧ s.lineErr (s.secureCore k) (s.core k).team (p.pa / 128) .read = none := by
  refine ⟨⟨ran (.std 1 0 16) base, 2, 0, 16, (.ldw 2 0 16, 4, true), 16, [0, 0, 0, 0], ?_⟩,
    ⟨base, 2, 0, 120, (.ldd 2 0 120, 8, false), 120, ?_⟩,
    ⟨base.onCtx 0 (fun c => { c with loads := 0xFFFF }), 2, 0, 120, (.ldd 2 0 120, 8, false), 120, ?_⟩,
    ⟨ran (.ldd 2 0 120) base, 0, 0, ⟨0x400, 120, 120, 8, false, 2, 0, 0, none⟩, ?_⟩⟩
  · refine ⟨by decide +kernel, by decide +kernel, by decide +kernel, by decide +kernel, ?_, by rfl⟩
    rw [ok_iff]; decide +kernel
  · refine ⟨by decide +kernel, by decide +kernel, by decide +kernel, by decide +kernel, ?_, by rfl, by decide +kernel⟩
    rw [ok_iff]; decide +kernel
  · refine ⟨by decide +kernel, by decide +kernel, by decide +kernel, by decide +kernel, ?_, by rfl, by decide +kernel⟩
    rw [ok_iff]; decide +kernel
  · decide +kernel

theorem witness_MemoryStoresGoToL1 :
    ∃ (s : State) (d a : SReg) (imm : BitVec 13) (e : Instr × Nat) (pa : Nat), e ∈ storeRows d a imm
      ∧ (s.ctx s.turn).recording = false ∧ rangeIn .memory (memAddr s a imm).toNat e.2 = true
      ∧ (memAddr s a imm).toNat % e.2 = 0 ∧ s.tr s.turn (memAddr s a imm).toNat true 2 = .ok pa
      ∧ (∀ l ∈ (s.core s.turn).l1, l.bad = 0)
      ∧ ((s.core s.turn).l1.filter (fun l => l.vline % 1024 == (memAddr s a imm).toNat / 128 % 1024)).length < 12 := by
  refine ⟨base, 2, 0, 120, (.std 2 0 120, 8), 120, ?_⟩
  simp only [ok_iff]
  decide +kernel

/-- The multicast window's last eight bytes of partition 0, to clusters 0 and 7; and the store landing. -/
theorem witness_MulticastStoreLands :
    (∃ (s : State) (d a : SReg) (imm : BitVec 13) (e : Instr × Nat), e ∈ storeRows d a imm ∧ (s.ctx s.turn).recording = false
      ∧ rangeIn .mcast (memAddr s a imm).toNat e.2 = true ∧ mcastMask (memAddr s a imm).toNat ≠ 0
      ∧ (memAddr s a imm).toNat % e.2 = 0 ∧ (s.ctx s.turn).stores ≠ 0xFFFF)
    ∧ (∃ (s : State) (m : McStore), s.landing = some m)
    ∧ (∃ s : State, ∀ m, s.landing = some m → (s.time.cycle - m.at_).toNat < 24)
    ∧ (∃ (s : State) (m : McStore) (pre : List (BitVec 8 × Nat × List Byte)) (mask : BitVec 8) (off : Nat) (bs : List Byte),
      s.mcast = [m] ∧ m.parts = pre ++ [(mask, off, bs)] ∧ m.landed = true ∧ mask.getLsbD 7 = true
      ∧ s.gridHolds (8 * m.slice + 7) m.grid m.vf = true)
    ∧ ∃ (s : State) (m : McStore) (pre : List (BitVec 8 × Nat × List Byte)) (mask : BitVec 8) (off : Nat) (bs : List Byte),
      s.landing = some m ∧ 24 ≤ (s.time.cycle - m.at_).toNat ∧ m.parts = pre ++ [(mask, off, bs)]
      ∧ mask.getLsbD 0 = true ∧ s.gridHolds (8 * m.slice) m.grid m.vf = true
      ∧ (s.team m.team).live = true ∧ (s.team m.team).cluster = some 0 ∧ (s.core (m.core % 4)).team = m.team :=
  ⟨⟨withS base [(1, 0xFFFFFFF140FFFFF0)], 2, 1, 8, (.std 2 1 8, 8), by decide +kernel⟩,
    ⟨sending, ⟨0, 0, 1, 0, 0, 0, [(0x81, 8, [1, 2])], false⟩, by decide +kernel⟩, ⟨base, fun m h => by cases h⟩,
    ⟨{ sending with
        mcast := [⟨0, 0, 1, 0, 0, 0, [(0x81, 8, [1, 2])], true⟩]
        clusters := [(0, { team := 1, owner := some 0 }), (7, { team := 2 })]
        teams := sending.teams ++ [(2, { live := true, record := List.replicate 32 0, cluster := some 7 })] },
      ⟨0, 0, 1, 0, 0, 0, [(0x81, 8, [1, 2])], true⟩, [], 0x81, 8, [1, 2], by decide +kernel⟩,
    ⟨sending, ⟨0, 0, 1, 0, 0, 0, [(0x81, 8, [1, 2])], false⟩, [], 0x81, 8, [1, 2], by decide +kernel⟩⟩

/-- An open region with the eighth access to come, and one that is full; on the line, and off it. -/
theorem witness_RegionRecordsAccesses :
    (∃ (s : State) (d a : SReg) (imm : BitVec 13) (e : Instr × Nat × Bool) (r : Region), e ∈ loadRows d a imm
      ∧ (s.ctx s.turn).region = some r ∧ r.ring = (s.ctx s.turn).ring ∧ r.inner = 0 ∧ r.count < 8 ∧ (memAddr s a imm).toNat / 128 = r.vline
      ∧ (memAddr s a imm).toNat % e.2.1 = 0)
    ∧ (∃ (s : State) (d a : SReg) (imm : BitVec 13) (e : Instr × Nat × Bool) (r : Region), e ∈ loadRows d a imm
      ∧ (s.ctx s.turn).region = some r ∧ r.ring = (s.ctx s.turn).ring ∧ r.inner = 0 ∧ 8 ≤ r.count)
    ∧ ∃ (s : State) (d a : SReg) (imm : BitVec 13) (e : Instr × Nat) (r : Region), e ∈ storeRows d a imm
      ∧ (s.ctx s.turn).region = some r ∧ r.ring = (s.ctx s.turn).ring ∧ r.inner = 0 ∧ r.count < 8 ∧ ((memAddr s a imm).toNat / 128 ≠ r.vline ∨ (memAddr s a imm).toNat % e.2 ≠ 0) :=
  ⟨⟨base.onCtx 0 (fun c => { c with region := some { vline := 0, pline := 0, count := 7 } }), 2, 0, 120, (.ldd 2 0 120, 8, false),
      { vline := 0, pline := 0, count := 7 }, by decide +kernel⟩,
    ⟨base.onCtx 0 (fun c => { c with region := some { vline := 0, pline := 0, count := 8 } }), 2, 0, 120, (.ldd 2 0 120, 8, false),
      { vline := 0, pline := 0, count := 8 }, by decide +kernel⟩,
    ⟨base.onCtx 0 (fun c => { c with region := some { vline := 0, pline := 0, count := 7 } }), 2, 0, 128, (.std 2 0 128, 8),
      { vline := 0, pline := 0, count := 7 }, by decide +kernel⟩⟩

/-- The node with twelve lines in the set of line 0, each with an access in progress. -/
def fullSet : State :=
  base.onCore 0 (fun c => { c with
    l1 := (List.range 12).map (fun i => { pasid := 0, vline := 1024 * (i + 1), pline := 1024 * (i + 1) })
    ctx := { c.ctx with pend := (List.range 12).map (fun i => ⟨0, 131072 * (i + 1), 131072 * (i + 1), 8, false, 2, 0, 0, none⟩) } })

/-- One dirty byte, the last of its line. -/
def dirtyLine : L1Line := { pasid := 0, vline := 0, pline := 0, valid := 1#128 <<< 127, dirty := 1#128 <<< 127, data := [(127, 5)] }

/-- The node with that line in its core's L1. -/
def withLine (s : State) : State := s.onCore 0 (fun c => { c with l1 := [dirtyLine] })

theorem witness_WriteBackReachesHome :
    ∃ (s : State) (k pasid vline : Nat) (l : L1Line), (s.core k).line pasid vline = some l ∧ l.bad = 0 ∧ l.dirty ≠ 0
      ∧ ((s.team (s.core k).team).live = false ∨ (s.team (s.core k).team).committed = true)
      ∧ s.lineErr (s.secureCore k) (s.core k).team l.pline .part = none
      ∧ s.lineErr (s.secureCore k) (s.core k).team l.pline .full = none :=
  ⟨withLine commitBase, 0, 0, 0, dirtyLine, by decide +kernel⟩

theorem witness_CacheInstructions :
    (∃ (s : State) (a : SReg), spaceOf (s.rs a).toNat = .localSp)
    ∧ (∃ (s : State) (a : SReg), spaceOf (s.rs a).toNat = .memory ∧ s.pasidOf s.turn true ≠ physPasid
      ∧ s.dtcHit (sliceOf s.turn) (s.pasidOf s.turn true) (s.rs a).toNat false = none)
    ∧ (∀ room : Bool, ∃ (s : State) (a : SReg) (pa : Nat), spaceOf (s.rs a).toNat = .memory ∧ s.pasidOf s.turn true ≠ physPasid
      ∧ s.dtcHit (sliceOf s.turn) (s.pasidOf s.turn true) (s.rs a).toNat false = some pa
      ∧ s.lineErr (s.secureCore s.turn) (s.core s.turn).team (pa / 128) .read = none
      ∧ s.lineRoom s.turn (s.pasidOf s.turn true) ((s.rs a).toNat / 128) = room)
    ∧ (∃ (s : State) (a : SReg), spaceOf (s.rs a).toNat ≠ .memory ∧ spaceOf (s.rs a).toNat ≠ .localSp)
    ∧ (∃ (s : State) (a b : SReg) (lo hi : Nat), lineRange (s.rs a).toNat (s.rs b).toNat = some (lo, hi))
    ∧ (∃ (s : State) (a b : SReg) (lo hi : Nat) (ls : List L1Line) (i : Instr),
      lineRange (s.rs a).toNat (s.rs b).toNat = some (lo, hi)
      ∧ ls = (s.core s.turn).linesIn (s.pasidOf s.turn true) lo hi ∧ i ∈ [Instr.cflush a b, .cinv a b]
      ∧ ((s.team (s.core s.turn).team).live = false ∨ (s.team (s.core s.turn).team).committed = true)
      ∧ (∀ l ∈ ls, l.bad = 0 ∧ s.lineErr (s.secureCore s.turn) (s.core s.turn).team l.pline .part = none
        ∧ s.lineErr (s.secureCore s.turn) (s.core s.turn).team l.pline .full = none)
      ∧ (∀ l ∈ ls, ∀ m ∈ ls, l.pline = m.pline → l = m) ∧ dirtyLine ∈ ls)
    ∧ ∃ (s : State) (a b : SReg), lineRange (s.rs a).toNat (s.rs b).toNat = none :=
  ⟨⟨withS base [(1, 0xFFFFFFF000000000)], 1, by decide +kernel⟩, ⟨withS base [(1, 8192)], 1, by decide +kernel⟩,
    fun room => ⟨if room then withS base [(1, 127)] else withS fullSet [(1, 127)], 1, 127, by cases room <;> decide +kernel⟩,
    ⟨withS base [(1, 0x8000000000000000)], 1, by decide +kernel⟩,
    ⟨withS base [(1, 127), (2, 2)], 1, 2, 0, 1, by decide +kernel⟩,
    ⟨withLine (withS commitBase [(1, 127), (2, 2)]), 1, 2, 0, 1, [dirtyLine], .cinv 1 2, by decide +kernel⟩,
    ⟨withS base [(1, 0x8000000000000000), (2, 8)], 1, 2, by decide +kernel⟩⟩

/-- The committed node with its second virtual page in a hole of the address space. -/
def edge : State :=
  commitBase.onSlice 0 (fun sl => { sl with dtc := [⟨0, 0, 13, 0, true, true⟩, ⟨0, 8192, 13, 576 * 2 ^ 30, true, true⟩] })

theorem witness_CzeroZeroesLines :
    (∃ (s : State) (a : SReg), spaceOf (s.rs a).toNat ≠ .memory)
    ∧ (∃ (s : State) (a : SReg), spaceOf (s.rs a).toNat = .memory ∧ (s.rs a).toNat % 128 ≠ 0)
    ∧ (∃ (s : State) (a b : SReg) (n : Nat), n = (if s.rs b = 0 then 128 else (s.rs b).toNat)
      ∧ spaceOf (s.rs a).toNat = .memory ∧ (s.rs a).toNat % 128 = 0
      ∧ (n % 128 ≠ 0 ∨ 65536 < n ∨ rangeIn .memory (s.rs a).toNat n = false))
    ∧ (∃ (s : State) (a b : SReg) (n j : Nat) (pa : Nat → Nat), n = (if s.rs b = 0 then 128 else (s.rs b).toNat)
      ∧ rangeIn .memory (s.rs a).toNat n = true ∧ (s.rs a).toNat % 128 = 0 ∧ n % 128 = 0 ∧ n ≤ 65536 ∧ j < n / 128
      ∧ ((s.team (s.core s.turn).team).live = false ∨ (s.team (s.core s.turn).team).committed = true)
      ∧ (∀ i, i < j + 1 → s.tr s.turn ((s.rs a).toNat + 128 * i) true 2 = .ok (pa i) ∧ pa i % 128 = 0)
      ∧ (∀ i, i < j → s.lineErr (s.secureCore s.turn) (s.core s.turn).team (pa i / 128) .full = none)
      ∧ s.lineErr (s.secureCore s.turn) (s.core s.turn).team (pa j / 128) .full = some .abort
      ∧ (s.core s.turn).abort = none)
    ∧ ∃ (s : State) (a b : SReg) (n : Nat) (pa : Nat → Nat), n = (if s.rs b = 0 then 128 else (s.rs b).toNat)
      ∧ rangeIn .memory (s.rs a).toNat n = true ∧ (s.rs a).toNat % 128 = 0 ∧ n % 128 = 0 ∧ n ≤ 65536
      ∧ ((s.team (s.core s.turn).team).live = false ∨ (s.team (s.core s.turn).team).committed = true)
      ∧ (∀ i, i < n / 128 → s.tr s.turn ((s.rs a).toNat + 128 * i) true 2 = .ok (pa i) ∧ pa i % 128 = 0
        ∧ s.lineErr (s.secureCore s.turn) (s.core s.turn).team (pa i / 128) .full = none) := by
  refine ⟨⟨withS base [(1, 0x8000000000000000)], 1, by decide +kernel⟩, ⟨withS base [(1, 64)], 1, by decide +kernel⟩,
    ⟨withS base [(1, 128), (2, 65664)], 1, 2, 65664, by decide +kernel⟩,
    ⟨withS edge [(1, 8064), (2, 256)], 1, 2, 256, 1, fun i => if i = 0 then 8064 else 576 * 2 ^ 30, ?_⟩,
    ⟨withS commitBase [(1, 128), (2, 256)], 1, 2, 256, fun i => 128 + 128 * i, ?_⟩⟩
  all_goals simp only [ok_iff]
  all_goals decide +kernel

/-- An FP32 and a swap on the same committed word, and the compare-and-swap on an uncommitted node. -/
theorem witness_AtomicsReturnOldValue :
    (∃ (s u : State) (d a b : SReg) (pa : Nat) (e : Instr × Nat × Word), u = s.breaking.commitClass s.turn
      ∧ e ∈ amoRows d a b (BitVec.ofNat 64 (u.peekNat pa e.2.1)) (s.rs b) (s.rs (sregAdd b 1))
      ∧ rangeIn .memory (s.rs a).toNat e.2.1 = true ∧ (s.rs a).toNat % e.2.1 = 0
      ∧ s.breaking.tr s.turn (s.rs a).toNat true 3 = .ok pa
      ∧ u.lineErr (u.secureCore s.turn) (u.core s.turn).team (pa / 128) .read = none) := by
  refine ⟨withS (withMem commitBase 64 [7]) [(1, 64), (2, 7), (3, 9)], _, 4, 1, 2, 64, (.amocas 4 1 2, 8, 9), rfl, ?_⟩
  simp only [ok_iff]
  decide +kernel

/-- Just past translated memory, off the width, and the same for an atomic and a reduction of four bytes. -/
theorem witness_AddressChecks :
    (∃ (s : State) (d a : SReg) (imm : BitVec 13) (e : Instr × Nat × Bool), e ∈ loadRows d a imm ∧ (s.ctx s.turn).recording = false
      ∧ rangeIn .localSp (memAddr s a imm).toNat e.2.1 = false ∧ rangeIn .memory (memAddr s a imm).toNat e.2.1 = false)
    ∧ (∃ (s : State) (d a : SReg) (imm : BitVec 13) (e : Instr × Nat × Bool), e ∈ loadRows d a imm ∧ (s.ctx s.turn).recording = false
      ∧ rangeIn .memory (memAddr s a imm).toNat e.2.1 = true ∧ (memAddr s a imm).toNat % e.2.1 ≠ 0)
    ∧ (∃ (s : State) (d a : SReg) (imm : BitVec 13) (e : Instr × Nat), e ∈ storeRows d a imm ∧ (s.ctx s.turn).recording = false
      ∧ rangeIn .localSp (memAddr s a imm).toNat e.2 = false ∧ rangeIn .memory (memAddr s a imm).toNat e.2 = false
      ∧ rangeIn .mcast (memAddr s a imm).toNat e.2 = false)
    ∧ (∃ (s : State) (d a : SReg) (imm : BitVec 13) (e : Instr × Nat), e ∈ storeRows d a imm ∧ (s.ctx s.turn).recording = false
      ∧ rangeIn .localSp (memAddr s a imm).toNat e.2 = true ∧ (memAddr s a imm).toNat % e.2 ≠ 0)
    ∧ (∃ (s : State) (d a b : SReg) (w : Nat) (i : Instr), (i, w) ∈ (amoRows d a b 0 0 0).map (fun e => (e.1, e.2.1))
      ∧ rangeIn .memory (s.rs a).toNat w = false)
    ∧ ∃ (s : State) (a b : SReg) (w : Nat) (i : Instr),
      (i, w) ∈ [(Instr.redadd a b, 8), (.redand a b, 8), (.redor a b, 8), (.redxor a b, 8), (.redmin a b, 8),
        (.redmax a b, 8), (.redminu a b, 8), (.redmaxu a b, 8), (.redfadds a b, 4), (.redfaddd a b, 8)]
      ∧ rangeIn .memory (s.rs a).toNat w = true ∧ (s.rs a).toNat % w ≠ 0 :=
  ⟨⟨withS base [(1, 0x01FFFFFFFFFFFFFC)], 2, 1, 0, (.ldd 2 1 0, 8, false), by decide +kernel⟩,
    ⟨withS base [(1, 0x01FFFFFFFFFFFFF7)], 2, 1, 0, (.ldd 2 1 0, 8, false), by decide +kernel⟩,
    ⟨withS base [(1, 0xFFFFFFF000800000)], 2, 1, 0, (.stb 2 1 0, 1), by decide +kernel⟩,
    ⟨withS base [(1, 0xFFFFFFF000000001)], 2, 1, 0, (.sth 2 1 0, 2), by decide +kernel⟩,
    ⟨withS base [(1, 0x0200000000000000)], 3, 1, 2, 8, .amoadd 3 1 2, by decide +kernel⟩,
    ⟨withS base [(1, 2)], 1, 2, 4, .redfadds 1 2, by decide +kernel⟩⟩

theorem witness_ReductionsHeldOrApplied :
    (∃ (s : State) (a b : SReg) (pa : Nat) (e : Instr × Nat × Nat × Word),
      e ∈ redRows a b (BitVec.ofNat 64 (s.peekNat pa e.2.2.1)) (s.rs b) ∧ rangeIn .memory (s.rs a).toNat e.2.2.1 = true
      ∧ (s.rs a).toNat % e.2.2.1 = 0 ∧ s.breaking.tr s.turn (s.rs a).toNat true 3 = .ok pa
      ∧ s.lineErr (s.secureCore s.turn) 0 (pa / 128) .read = none
      ∧ s.lineErr (s.secureCore s.turn) (s.core s.turn).team (pa / 128) .read = none
      ∧ (s.team 1).live = true ∧ (s.team 1).committed = false ∧ (s.team 1).consumed = false ∧ (s.team 1).staged = []
      ∧ (s.team 1).objs = [] ∧ (s.team 1).pushes = [] ∧ (s.core 3).team = 1
      ∧ (s.team 1).reds = [⟨pa, e.2.2.1, e.2.1, s.rs b⟩] ∧ s.lineErr true 0 (pa / 128) .read = none)
    ∧ (∃ (s : State) (a b : SReg) (pa : Nat) (e : Instr × Nat × Nat × Word),
      e ∈ redRows a b (BitVec.ofNat 64 (s.peekNat pa e.2.2.1)) (s.rs b) ∧ rangeIn .memory (s.rs a).toNat e.2.2.1 = true
      ∧ (s.rs a).toNat % e.2.2.1 = 0 ∧ s.breaking.tr s.turn (s.rs a).toNat true 3 = .ok pa
      ∧ s.lineErr (s.secureCore s.turn) 0 (pa / 128) .read = none
      ∧ s.lineErr (s.secureCore s.turn) (s.core s.turn).team (pa / 128) .read = none
      ∧ (s.team (s.core s.turn).team).live = true ∧ (s.team (s.core s.turn).team).committed = false
      ∧ s.overflows (s.core s.turn).team none = false)
    ∧ ∃ (s : State) (a b : SReg) (pa : Nat) (e : Instr × Nat × Nat × Word),
      e ∈ redRows a b (BitVec.ofNat 64 (s.peekNat pa e.2.2.1)) (s.rs b) ∧ rangeIn .memory (s.rs a).toNat e.2.2.1 = true
      ∧ (s.rs a).toNat % e.2.2.1 = 0 ∧ s.breaking.tr s.turn (s.rs a).toNat true 3 = .ok pa
      ∧ s.lineErr (s.secureCore s.turn) 0 (pa / 128) .read = none
      ∧ s.lineErr (s.secureCore s.turn) (s.core s.turn).team (pa / 128) .read = none
      ∧ (s.team (s.core s.turn).team).live = true ∧ (s.team (s.core s.turn).team).committed = true := by
  refine ⟨⟨withS ((base.onCore 3 (fun c => { c with team := 1 })).onTeam 1 (fun t => { t with reds := [⟨64, 8, 0, 5⟩] }))
      [(1, 64), (2, 5)], 1, 2, 64, (.redadd 1 2, 0, 8, 5), ?_⟩,
    ⟨withS base [(1, 64), (2, 5)], 1, 2, 64, (.redadd 1 2, 0, 8, 5), ?_⟩,
    ⟨withS commitBase [(1, 64), (2, 5)], 1, 2, 64, (.redmaxu 1 2, 7, 8, 5), ?_⟩⟩ <;> simp only [ok_iff] <;> decide +kernel

/-- A region with a store and a load of the last eight bytes of its line. -/
def storeLoad : Region :=
  { vline := 1, pline := 1, count := 2, ops := [⟨true, 120, 8, false, 0, 77⟩, ⟨false, 120, 8, false, 3, 0⟩] }

/-- A line with a dirty byte that ALB writes back; regions that fail; one that performs on an uncommitted node; and a node
with a staged byte that commits. -/
theorem witness_LineRegions :
    (∃ (s : State) (a : SReg) (pa : Nat), spaceOf (s.rs a).toNat = .memory ∧ s.breaking.tr s.turn (s.rs a).toNat true 3 = .ok pa
      ∧ (s.core s.turn).linesIn (s.pasidOf s.turn true) ((s.rs a).toNat / 128) ((s.rs a).toNat / 128) = [dirtyLine]
      ∧ (s.team (s.core s.turn).team).committed = true ∧ dirtyLine.bad = 0
      ∧ s.lineErr (s.secureCore s.turn) (s.core s.turn).team dirtyLine.pline .part = none
      ∧ s.lineErr (s.secureCore s.turn) (s.core s.turn).team dirtyLine.pline .full = none)
    ∧ (∃ (s : State), (s.ctx s.turn).region = none)
    ∧ (∃ (s : State) (r : Region), (s.ctx s.turn).region = some r ∧ r.broken = true)
    ∧ (∃ (s : State) (r : Region), (s.ctx s.turn).region = some r ∧ r.mark ≠ 0)
    ∧ (∃ (s u : State) (r : Region) (x : List (SReg × Word) × (Nat → Byte)), (s.ctx s.turn).region = some r
      ∧ r.broken = false ∧ r.mark = 0 ∧ (∀ o ∈ r.ops, o.off + o.w ≤ 128)
      ∧ s.lineErr (s.secureCore s.turn) (s.core s.turn).team r.pline .read = none
      ∧ u = (s.onCtx s.turn (fun c => { c with region := none })).commitClass s.turn
      ∧ x = lineRun r.ops (fun i => u.home.mem.get (r.pline * 128 + i)) ∧ (s.team (s.core s.turn).team).committed = false)
    ∧ ∃ (s : State) (k n : Nat), n = (s.core k).team ∧ (s.team n).live = true ∧ (s.team n).committed = false
      ∧ (s.team n).consumed = false ∧ (s.team n).reds = [] ∧ (s.team n).objs = [] ∧ (s.team n).pushes = []
      ∧ Map.wf none (s.team n).staged = true ∧ (s.team n).staged ≠ [] := by
  refine ⟨⟨withLine (withS commitBase [(1, 127)]), 1, 127, ?_⟩, ⟨base, by decide +kernel⟩,
    ⟨base.onCtx 0 (fun c => { c with region := some { storeLoad with broken := true } }), { storeLoad with broken := true },
      by decide +kernel⟩,
    ⟨base.onCtx 0 (fun c => { c with region := some { storeLoad with mark := 3 } }), { storeLoad with mark := 3 },
      by decide +kernel⟩,
    ⟨base.onCtx 0 (fun c => { c with region := some storeLoad }), _, storeLoad, _, by decide +kernel, by decide +kernel,
      by decide +kernel, by decide +kernel, by decide +kernel, rfl, rfl, by decide +kernel⟩,
    ⟨base.onTeam 1 (fun t => { t with staged := [(64, some 5)] }), 0, 1, by decide +kernel⟩⟩
  simp only [ok_iff]
  decide +kernel

/-- A refused load at the end of its page, and a queue that holds a request of another core for the page. -/
def accessState (refused shared : Bool) : State :=
  (withS base [(1, 8192 + 4088)]).onSlice 0 (fun sl => { sl with
    refused := if refused then [⟨.core 0, 0, 2, false⟩] else []
    ats := if shared then [⟨0, 2, false, true, false, false, [.core 2]⟩] else [] })

theorem witness_AccessTranslation :
    (∀ refused shared : Bool, ∃ (s s0 : State) (d a b : SReg) (imm : BitVec 13) (e : Instr × Word × Nat × Bool × Nat × Bool) (p sl : Nat),
      e ∈ accessRows s d a b imm ∧ s0 = (if e.2.2.2.2.2 then s.breaking else s)
      ∧ (e.2.2.2.2.2 = false → (s.ctx s.turn).recording = false)
      ∧ rangeIn .memory e.2.1.toNat e.2.2.1 = true ∧ e.2.1.toNat % e.2.2.1 = 0
      ∧ p = s.pasidOf s.turn true ∧ p ≠ physPasid ∧ sl = sliceOf s.turn
      ∧ (refused = false → s.dtcHit sl p e.2.1.toNat e.2.2.2.1 = none
        ∧ ⟨.core s.turn, p, e.2.1.toNat / 4096, e.2.2.2.1⟩ ∉ (s.slice sl).refused)
      ∧ (shared = true → ∃ q ∈ (s.slice sl).ats, q.pasid = p ∧ q.page = e.2.1.toNat / 4096 ∧ q.write = e.2.2.2.1)
      ∧ (refused = true → ⟨.core s.turn, p, e.2.1.toNat / 4096, e.2.2.2.1⟩ ∈ (s.slice sl).refused) ∧ (s.ctx s.turn).ring = .u) :=
  fun refused shared => ⟨accessState refused shared, accessState refused shared, 2, 1, 3, 0,
    (.ldd 2 1 0, 8192 + 4088, 8, false, 1, false), 0, 0, by cases refused <;> cases shared <;> decide +kernel⟩

/-- An object with one bound region, and a dirty line of it in L1. -/
theorem witness_AcquireReadsSequence :
    ∃ (s u : State) (a : SReg) (pa : Nat), rangeIn .memory (s.rs a).toNat 16 = true ∧ (s.rs a).toNat % 16 = 0
      ∧ s.breaking.tr s.turn (s.rs a).toNat false 1 = .ok pa ∧ pa % 16 = 0
      ∧ u = (s.breaking.walkEntries s.turn (s.pasidOf s.turn true) true
        ((s.vfOf s.turn).entries (s.rs a).toNat (s.pasidOf s.turn true))).flushRange s.turn (s.pasidOf s.turn true)
        ((s.rs a).toNat / 128) ((s.rs a).toNat / 128)
      ∧ u.lineErr (u.secureCore s.turn) (u.core s.turn).team (pa / 128) .read = none := by
  refine ⟨withS (withLine (commitBase.onVf 0 (fun v => { v with binds := [⟨0x200, 0, 128, 0, false⟩] }))) [(1, 0x200)], _, 1,
    0x200, by decide +kernel, by decide +kernel, ?_, by decide, rfl, by decide +kernel⟩
  rw [ok_iff]
  decide +kernel

/-- What REL's statement asks of the operands and of the states that the walk and the commit leave, where the object at
0x1FF0 has the binding entries `es`. -/
def relArgs (s : State) (es : List Binding) : Bool :=
  let t := withS (s.onVf 0 (fun v => { v with binds := es })) [(1, 0x1FF0)]
  let u := t.breaking.walkEntries 0 (t.pasidOf 0 true) false es
  let w := if es.any (·.imm) then u.commitClass 0 else u
  rangeIn .memory (t.rs 1).toNat 16 && (t.rs 1).toNat % 16 == 0 && isOkOf (t.breaking.tr 0 (t.rs 1).toNat true 2) 0x1FF0
  && es == (t.vfOf 0).entries (t.rs 1).toNat (t.pasidOf 0 true) && u.fenceDone 0 .module
  && w.lineErr (w.secureCore 0) (w.core 0).team (0x1FF0 / 128) .read == none

/-- The object at 0x1FF0 bound to the first line, in one of the modes. -/
def bindHigh (imm : Bool) : Binding := ⟨0x1FF0, 0, 128, 0, imm⟩

/-- A REL that waits; of a committed node, with a dirty line of a bound region; of an uncommitted one without bindings; and
of one whose binding is in immediate mode, which commits. -/
theorem witness_ReleaseUpdatesSequence :
    (withS (base.onCtx 0 (fun c => { c with stores := 1 })) [(1, 0x1FF0)]).breaking.fenceDone 0 .module = false
    ∧ relArgs (withLine commitBase) [bindHigh false] = true ∧ (commitBase.team 1).committed = true
    ∧ relArgs base [] = true ∧ (base.team 1).live = true ∧ (base.team 1).committed = false
    ∧ relArgs (withLine base) [bindHigh true] = true ∧ (base.team 1).consumed = false ∧ [bindHigh true].any (·.imm) = true := by
  decide +kernel

/-- A team of two on cores 0 and 1. -/
def pair : State :=
  { base with
    cores := [(0, { team := 1, running := true, ctx := { pc := 0x400 } }), (1, { team := 1, running := true, ctx := { pc := 0x400, member := 1 } })]
    teams := [(1, { live := true, record := List.replicate 26 0 ++ [1] ++ List.replicate 5 0, cluster := some 0 })] }

theorem witness_FencesAndBarrier :
    (∃ (s : State) (sc : Scope), (s.ctx s.turn).pend = [] ∧ (sc = .task ∨ sc = .team ∨ (s.ctx s.turn).stores = 0)
      ∧ (sc = .system → ∀ c ∈ (s.ctx s.turn).queue 3, c.moved = true))
    ∧ (∃ (s : State) (sc : Scope), ¬ ((s.ctx s.turn).pend = [] ∧ (sc = .task ∨ sc = .team ∨ (s.ctx s.turn).stores = 0)
      ∧ (sc = .system → ∀ c ∈ (s.ctx s.turn).queue 3, c.moved = true)))
    ∧ (∃ (s : State), s.fenceDone s.turn .slice = true ∧ (s.ctx s.turn).cbarPend = false
      ∧ (∀ k ∈ s.others s.turn, (s.memberCtx k (s.core s.turn).team).exited = true
        ∨ (s.ctx s.turn).cbar + 1 ≤ (s.memberCtx k (s.core s.turn).team).cbar))
    ∧ (∃ (s : State), s.fenceDone s.turn .slice = true ∧ (s.ctx s.turn).cbarPend = false
      ∧ (∃ k ∈ s.others s.turn, (s.memberCtx k (s.core s.turn).team).exited = false
        ∧ (s.memberCtx k (s.core s.turn).team).cbar < (s.ctx s.turn).cbar + 1))
    ∧ (∃ (s : State), s.fenceDone s.turn .slice = false)
    ∧ (∃ (s : State), s.fenceDone s.turn .slice = true ∧ (s.ctx s.turn).cbarPend = true
      ∧ (∀ k ∈ s.others s.turn, (s.memberCtx k (s.core s.turn).team).exited = true
        ∨ (s.ctx s.turn).cbar ≤ (s.memberCtx k (s.core s.turn).team).cbar))
    ∧ ∃ (s : State), s.fenceDone s.turn .slice = true ∧ (s.ctx s.turn).cbarPend = true
      ∧ (∃ k ∈ s.others s.turn, (s.memberCtx k (s.core s.turn).team).exited = false
        ∧ (s.memberCtx k (s.core s.turn).team).cbar < (s.ctx s.turn).cbar) :=
  ⟨⟨base, .system, by decide +kernel⟩, ⟨base.onCtx 0 (fun c => { c with stores := 1 }), .slice, by decide +kernel⟩,
    ⟨pair.onCtx 1 (fun c => { c with cbar := 1, cbarPend := true }), by decide +kernel⟩, ⟨pair, by decide +kernel⟩,
    ⟨base.onCtx 0 (fun c => { c with stores := 1 }), by decide +kernel⟩,
    ⟨(pair.onCtx 1 (fun c => { c with cbar := 1 })).onCtx 0 (fun c => { c with cbar := 1, cbarPend := true }), by decide +kernel⟩,
    ⟨pair.onCtx 0 (fun c => { c with cbar := 1, cbarPend := true }), by decide +kernel⟩⟩

/-- A binding of the object at 0 to the line at 0x80. -/
def bind0 : Binding := ⟨0, 0x80, 128, 0, false⟩

/-- The hypotheses of SOBIND's statement: object 0, region 0x80 of the length in s3. -/
def sobindArgs (s : State) (len : Nat) : Bool :=
  let t := withS s [(2, 0x80), (3, BitVec.ofNat 64 len)]
  rangeIn .memory (t.rs 1).toNat 16 && (t.rs 1).toNat % 16 == 0 && (t.rs 2).toNat % 128 == 0
  && bitsOf (t.rs (sregAdd 2 1)).toNat 0 41 % 128 == 0 && decide (bitsOf (t.rs (sregAdd 2 1)).toNat 0 41 ≤ 2 ^ 40)
  && bitsOf (t.rs (sregAdd 2 1)).toNat 42 22 == 0
  && decide ((t.rs 2).toNat + bitsOf (t.rs (sregAdd 2 1)).toNat 0 41 ≤ 2 ^ 57)
  && isOkOf (t.breaking.tr t.turn (t.rs 1).toNat false 1) 0

/-- The entry of that SOBIND. -/
def newBind (len : Nat) : Binding := ⟨0, 0x80, len, 0, false⟩

/-- A new entry; one that is there; a full table; a region that meets another, one that holds a bound object, and an object
in a bound region; the other mode; no length and nothing to remove; and one to remove. -/
theorem witness_SobindKeepsTable :
    (sobindArgs base 128 = true ∧ (base.vfOf 0).binds = [])
    ∧ (sobindArgs (base.onVf 0 (fun v => { v with binds := [bind0] })) 128 = true ∧ bindFound [bind0] (newBind 128))
    ∧ (sobindArgs (base.onVf 0 (fun v => { v with binds := List.replicate 512 { bind0 with base := 0x1000 } })) 128 = true
      ∧ 512 ≤ (List.replicate 512 { bind0 with base := 0x1000 }).length
      ∧ ¬ bindFound (List.replicate 512 { bind0 with base := 0x1000 }) (newBind 128))
    ∧ (sobindArgs (base.onVf 0 (fun v => { v with binds := [⟨0x4000, 0, 256, 0, false⟩] })) 128 = true
      ∧ bindOverlaps [⟨0x4000, 0, 256, 0, false⟩] (newBind 128))
    ∧ bindOverlaps [⟨0x80, 0x4000, 128, 0, false⟩] (newBind 128) ∧ bindOverlaps [⟨0x4000, 0, 16, 0, false⟩] (newBind 128)
    ∧ bindOtherMode [⟨0, 0x4000, 128, 0, true⟩] (newBind 128)
    ∧ sobindArgs base 0 = true ∧ (newBind 0).len = 0
    ∧ (sobindArgs (base.onVf 0 (fun v => { v with binds := [bind0] })) 0 = true ∧ bindFound [bind0] (newBind 0))
    ∧ sobindArgs base (2 ^ 40) = true := by
  refine ⟨⟨by decide +kernel, by decide +kernel⟩, ⟨by decide +kernel, .inr (by decide)⟩,
    ⟨by decide +kernel, (List.length_replicate ▸ Nat.le_refl 512), ?_⟩, ⟨by decide +kernel, .inr ⟨_, List.mem_singleton_self _, rfl, .inl ⟨0x80, by decide⟩⟩⟩,
    .inr ⟨_, List.mem_singleton_self _, rfl, .inr (.inl (by decide))⟩, .inr ⟨_, List.mem_singleton_self _, rfl, .inr (.inr (by decide))⟩,
    ⟨_, List.mem_singleton_self _, by decide⟩, by decide +kernel, rfl,
    ⟨by decide +kernel, .inl ⟨rfl, bind0, List.mem_singleton_self _, rfl, rfl, rfl⟩⟩, by decide +kernel⟩
  rintro (⟨h, -⟩ | h)
  · exact absurd h (by decide)
  · exact absurd (List.eq_of_mem_replicate h) (by decide)

/-- The fields that SOBIND refuses: a base and a length off 128, a length too long, a reserved bit, a region that wraps. -/
theorem witness_SobindRefusals :
    (withS base [(2, 64)]).rs 2 = 64 ∧ 64 % 128 ≠ 0 ∧ bitsOf 64 0 41 % 128 ≠ 0 ∧ 2 ^ 40 < bitsOf (2 ^ 40 + 128) 0 41
    ∧ (2 ^ 63).testBit 63 = true ∧ (∀ j, 42 ≤ j → j < 63 → (2 ^ 63).testBit j = false)
    ∧ 2 ^ 57 < (0x01FFFFFFFFFFFF80#64).toNat + bitsOf 256 0 41 := by
  refine ⟨by decide +kernel, by decide, by decide, by decide, by decide, fun j _ h => ?_, by decide⟩
  rw [Nat.testBit_two_pow]
  exact decide_eq_false (by omega)

/-- A timeline with numbers issued and done, and a mark. -/
def withTl (s : State) (t : TL) (issued done mark : Nat) : State :=
  s.onCtx 0 (·.onTimeline t (fun x => { x with issued := issued, done := done, mark := mark }))

theorem witness_WaitInstructions :
    (∃ (s : State) (a b : SReg) (pa : Nat) (c : Word), rangeIn .memory (s.rs a).toNat 8 = true ∧ (s.rs a).toNat % 8 = 0
      ∧ s.breaking.tr s.turn (s.rs a).toNat false 1 = .ok pa
      ∧ s.lineErr (s.secureCore s.turn) (s.core s.turn).team (pa / 128) .read = none
      ∧ c = BitVec.ofNat 64 (leNat (s.view (s.core s.turn).team pa 8)) ∧ (s.rs b).toNat ≤ c.toNat)
    ∧ (∃ (s : State) (a b : SReg) (pa : Nat) (c : Word), rangeIn .memory (s.rs a).toNat 8 = true ∧ (s.rs a).toNat % 8 = 0
      ∧ s.breaking.tr s.turn (s.rs a).toNat false 1 = .ok pa
      ∧ s.lineErr (s.secureCore s.turn) (s.core s.turn).team (pa / 128) .read = none
      ∧ c = BitVec.ofNat 64 (leNat (s.view (s.core s.turn).team pa 8)) ∧ c.toNat < (s.rs b).toNat)
    ∧ (∃ (s : State) (t : TL) (b : SReg), ((s.ctx s.turn).timeline t).issued < (s.rs b).toNat)
    ∧ (∃ (s : State) (t : TL) (b : SReg), (s.rs b).toNat ≤ ((s.ctx s.turn).timeline t).issued
      ∧ ((s.ctx s.turn).timeline t).done < (s.rs b).toNat)
    ∧ (∃ (s : State) (t : TL) (b : SReg), (s.rs b).toNat ≤ ((s.ctx s.turn).timeline t).issued
      ∧ (s.rs b).toNat ≤ ((s.ctx s.turn).timeline t).done ∧ (s.rs b).toNat < ((s.ctx s.turn).timeline t).mark)
    ∧ (∃ (s : State) (t : TL) (b : SReg), (s.rs b).toNat ≤ ((s.ctx s.turn).timeline t).issued
      ∧ (s.rs b).toNat ≤ ((s.ctx s.turn).timeline t).done ∧ ((s.ctx s.turn).timeline t).mark ≠ 0
      ∧ ((s.ctx s.turn).timeline t).mark ≤ (s.rs b).toNat)
    ∧ (∃ (s : State) (ld st cp tile : BitVec 3),
      ((ld = 7 ∨ (s.ctx s.turn).loads.toNat ≤ ld.toNat) ∧ (st = 7 ∨ (s.ctx s.turn).stores.toNat ≤ st.toNat)
        ∧ (cp = 7 ∨ (s.ctx s.turn).copies.toNat ≤ cp.toNat) ∧ (tile = 7 ∨ (s.ctx s.turn).tiles.toNat ≤ tile.toNat)))
    ∧ ∃ (s : State) (ld st cp tile : BitVec 3),
      ¬ ((ld = 7 ∨ (s.ctx s.turn).loads.toNat ≤ ld.toNat) ∧ (st = 7 ∨ (s.ctx s.turn).stores.toNat ≤ st.toNat)
        ∧ (cp = 7 ∨ (s.ctx s.turn).copies.toNat ≤ cp.toNat) ∧ (tile = 7 ∨ (s.ctx s.turn).tiles.toNat ≤ tile.toNat)) := by
  refine ⟨⟨withS (withMem base 8 [5]) [(1, 8), (2, 5)], 1, 2, 8, 5, ?_⟩, ⟨withS (withMem base 8 [5]) [(1, 8), (2, 6)], 1, 2, 8, 5, ?_⟩,
    ⟨withS base [(1, 1)], .cp, 1, by decide +kernel⟩, ⟨withTl (withS base [(1, 2)]) .cp 2 1 0, .cp, 1, by decide +kernel⟩,
    ⟨withTl (withS base [(1, 2)]) .cp 3 3 3, .cp, 1, by decide +kernel⟩,
    ⟨withTl (withS base [(1, 3)]) .cp 3 3 3, .cp, 1, by decide +kernel⟩,
    ⟨base.onCtx 0 (fun c => { c with loads := 9, stores := 6 }), 7, 6, 0, 0, by decide +kernel⟩,
    ⟨base.onCtx 0 (fun c => { c with loads := 7 }), 6, 7, 7, 7, by decide +kernel⟩⟩ <;> simp only [ok_iff] <;> decide +kernel

/-- A CPYB of one byte to q2, bound. -/
def boundCmd : EngCmd := { num := 1, kind := .cpyb, g0 := 0xA02, g1 := 0, g2 := 0, g3 := 1, pasid := 0, gtag := 0 }

theorem witness_StreamPop :
    (∃ (s : State) (q : BitVec 3) (bs rest : List Byte), ((s.ctx s.turn).timeline .cp).mark = 0
      ∧ ((s.ctx s.turn).regs.queue q.toNat).bytes = bs ++ rest
      ∧ bs.length = (if ((s.ctx s.turn).regs.queue q.toNat).narrow.headD false then 1
        else fmtBytes ((s.ctx s.turn).regs.queue q.toNat).fmt) ∧ 0 < bs.length
      ∧ (s.ctx s.turn).regs.streamBad q.toNat 1 = false)
    ∧ (∃ (s : State) (q : BitVec 3), ((s.ctx s.turn).timeline .cp).mark = 0 ∧ ((s.ctx s.turn).regs.queue q.toNat).bytes = []
      ∧ ((s.ctx s.turn).regs.queue q.toNat).narrow = [] ∧ (s.ctx s.turn).bound q.toNat = [])
    ∧ ∃ (s : State) (q : BitVec 3), ((s.ctx s.turn).timeline .cp).mark = 0 ∧ ((s.ctx s.turn).regs.queue q.toNat).bytes = []
      ∧ ((s.ctx s.turn).regs.queue q.toNat).narrow = [] ∧ (s.ctx s.turn).bound q.toNat ≠ [] :=
  ⟨⟨base.onCtx 0 (fun c => { c with regs := { c.regs with q := [(7, { fmt := .fp16, bytes := [1, 2, 3, 4] })] } }), 7, [1, 2], [3, 4],
      by decide +kernel⟩, ⟨base, 0, by decide +kernel⟩,
    ⟨base.onCtx 0 (·.setQueue 0 [boundCmd]), 2, by decide +kernel⟩⟩

/-- Two scratchpad places, four bytes, and no transform. -/
def copyCmd (len : Nat) : EngCmd :=
  { num := 1, kind := .cpy, g0 := 0xFFFFFFF000000100, g1 := 0xFFFFFFF000000000, g2 := 0, g3 := BitVec.ofNat 64 len, pasid := 0, gtag := 0 }

/-- The node with that command group in s20 to s23. -/
def copyState (len : Nat) : State :=
  withS base [(20, 0xFFFFFFF000000100), (21, 0xFFFFFFF000000000), (23, BitVec.ofNat 64 len)]

/-- The command group of an engine instruction. -/
abbrev GroupOf (s : State) (d a : SReg) (e : Instr × EKind) (c : EngCmd) : Prop :=
  e ∈ engineRows d a ∧ c.kind = e.2 ∧ c.g0 = s.rs (sregAdd a 0) ∧ c.g1 = s.rs (sregAdd a 1) ∧ c.g2 = s.rs (sregAdd a 2)
  ∧ c.g3 = s.rs (sregAdd a 3)

/-- A command that moves something, one that moves nothing, one with a reserved field, one outside the spaces. -/
theorem witness_EngineCommands :
    (∀ full : Bool, ∃ (s : State) (d a : SReg) (e : Instr × EKind) (c : EngCmd), GroupOf s d a e c
      ∧ checkCmd (s.breaking.ctx s.turn) c = .ok () ∧ (if full then 16 ≤ ((s.ctx s.turn).queue e.2.queue).length
        else (s.ctx s.turn).copies = 0xFFFF))
    ∧ (∀ n ∈ [0, 4], ∃ (s : State) (d a : SReg) (e : Instr × EKind) (c : EngCmd), e ∈ engineRows d a ∧ c.kind = e.2
      ∧ c.g0 = s.rs (sregAdd a 0) ∧ c.g1 = s.rs (sregAdd a 1) ∧ c.g2 = s.rs (sregAdd a 2) ∧ c.g3 = s.rs (sregAdd a 3)
      ∧ checkCmd (s.breaking.ctx s.turn) c = .ok () ∧ ((s.ctx s.turn).queue e.2.queue).length < 16
      ∧ (s.ctx s.turn).copies ≠ 0xFFFF ∧ c.isEmpty = decide (n = 0))
    ∧ (∃ (s : State) (d a : SReg) (e : Instr × EKind) (c : EngCmd), GroupOf s d a e c
      ∧ fieldsOk (s.breaking.ctx s.turn) c ∧ rangesOk c)
    ∧ (∃ (s : State) (d a : SReg) (e : Instr × EKind) (c : EngCmd), GroupOf s d a e c
      ∧ ¬ fieldsOk (s.breaking.ctx s.turn) c ∧ ∃ reg bit k, checkCmd (s.breaking.ctx s.turn) c = .error (.invalid reg bit k))
    ∧ ∃ (s : State) (d a : SReg) (e : Instr × EKind) (c : EngCmd), GroupOf s d a e c
      ∧ fieldsOk (s.breaking.ctx s.turn) c ∧ ¬ rangesOk c ∧ ∃ n, checkCmd (s.breaking.ctx s.turn) c = .error (.address n) := by
  refine ⟨fun full => ⟨(copyState 4).onCtx 0 (fun c =>
      if full then c.setQueue 0 (List.replicate 16 (copyCmd 4)) else { c with copies := 0xFFFF }), 1, 20, (.cpy 1 20, .cpy), copyCmd 4, ?_⟩,
    fun n hn => ⟨copyState n, 1, 20, (.cpy 1 20, .cpy), copyCmd n, ?_⟩,
    ⟨copyState 4, 1, 20, (.cpy 1 20, .cpy), copyCmd 4, by decide +kernel, ?_, .inr ⟨.inr (by decide), .inr (by decide)⟩⟩,
    ⟨withS base [(23, 0x8000000000000000)], 1, 20, (.cpy 1 20, .cpy),
      { num := 0, kind := .cpy, g0 := 0, g1 := 0, g2 := 0, g3 := 0x8000000000000000, pasid := 0, gtag := 0 },
      by decide +kernel, fun h => absurd h.2.1 (by decide), 3, 63, 0, rfl⟩,
    ⟨withS base [(21, 0x8000000000000000), (23, 1)], 1, 20, (.cpy 1 20, .cpy),
      { num := 0, kind := .cpy, g0 := 0, g1 := 0x8000000000000000, g2 := 0, g3 := 1, pasid := 0, gtag := 0 },
      by decide +kernel, ?_, ?_, 0x8000000000000000, rfl⟩⟩
  · cases full <;> simp only [GroupOf, ok_iff] <;> decide +kernel
  · simp only [List.mem_cons, List.not_mem_nil, or_false] at hn
    rcases hn with rfl | rfl <;> simp only [ok_iff] <;> decide +kernel
  · exact ⟨by decide, by decide, by decide, by decide, fun ⟨_, ⟨y, h⟩, _⟩ => by
      have := h.1; have := h.2.1; have := h.2.2.1; simp [copyCmd, spanOf, rowOut] at *; omega⟩
  · exact ⟨by decide, by decide, by decide, by decide, fun ⟨_, ⟨y, h⟩, _⟩ => by
      have := h.1; have := h.2.2.2; simp [spanOf, rowOut] at *⟩
  · rintro (h | ⟨h | h, -⟩) <;> exact absurd h (by decide)

/-- Is it this address? -/
def isTr (x : Tr) (a : Nat) : Bool :=
  match x with
  | .ok b => b == a
  | _ => false

theorem tr_iff (x : Tr) (a : Nat) : (x = .ok a) ↔ isTr x a = true := by
  cases x <;> simp [isTr]

/-- A command group of a kind in the queue of its engine. -/
def engCmd (k : EKind) (g0 g1 g2 g3 : Word) : EngCmd := { num := 1, kind := k, g0 := g0, g1 := g1, g2 := g2, g3 := g3, pasid := 0, gtag := 0 }
def queuedCmd (s : State) (c : EngCmd) : State := s.onCtx 0 (·.setQueue c.kind.queue [c])

/-- Two tight groups 64 bytes apart in memory to padded ones in scratchpad; 8,192 bytes within scratchpad; four bytes to memory. -/
def padCmd : EngCmd := engCmd .cpy 0xFFFFFFF000000000 0x100 0x4000000040 0x10002000019
def longCmd : EngCmd := engCmd .cpy 0xFFFFFFF000004000 0xFFFFFFF000000000 0 0x2000
def outCmd : EngCmd := engCmd .cpy 0x40 0xFFFFFFF000000000 0 4

/-- Each of those commands in turn, and the first one out of turn. -/
theorem witness_CopyBurst :
    (∀ e ∈ [(padCmd, 1, 25, 2, 33, 25, 33), (longCmd, 0, 8192, 1, 8192, 1, 1), (outCmd, 0, 4, 1, 4, 1, 1)],
      ∃ (s : State) (c : EngCmd) (xf len rows dl gi go : Nat) (a : Agent), (c, xf, len, rows, dl, gi, go) = e
      ∧ freshCmd s 1 0 0 .copy c ∧ a = s.agent 1 0 0 c ∧ c.kind = .cpy ∧ len = (c.g3.extractLsb' 0 24).toNat
      ∧ rows = max 1 (c.g3.extractLsb' 24 16).toNat ∧ xf = (c.g3.extractLsb' 40 2).toNat ∧ dl = rowOut xf len ∧ xf < 3
      ∧ gi = [1, 25, 33].getD xf 1 ∧ go = [1, 33, 25].getD xf 1 ∧ len % gi = 0 ∧ 0 < len
      ∧ (rows = 1 ∨ dl ≤ (c.g2.extractLsb' 32 32).toNat)
      ∧ engGets s a 0 c.g1.toNat (spanOf (c.g2.extractLsb' 0 32).toNat rows len)
      ∧ engPuts s a 0 c.g0.toNat (spanOf (c.g2.extractLsb' 32 32).toNat rows dl)
      ∧ s.engineTurn 0 0 = some (4 * 1 + 0))
    ∧ ∃ (s : State), freshCmd s 1 1 0 .copy longCmd ∧ s.engineTurn 0 0 ≠ some (4 * 1 + 1) := by
  refine ⟨fun e he => ?_, ⟨(pair.onCtx 0 (·.setQueue 0 [longCmd])).onCtx 1 (·.setQueue 0 [longCmd]), by unfold freshCmd; decide +kernel, by decide +kernel⟩⟩
  refine ⟨queuedCmd commitBase e.1, e.1, e.2.1, e.2.2.1, e.2.2.2.1, e.2.2.2.2.1, e.2.2.2.2.2.1, e.2.2.2.2.2.2,
    (queuedCmd commitBase e.1).agent 1 0 0 e.1, rfl, ?_⟩
  simp only [List.mem_cons, List.not_mem_nil, or_false] at he
  rcases he with rfl | rfl | rfl <;> refine ⟨by unfold freshCmd; decide +kernel, rfl, ?_⟩ <;> simp only [engGets, engPuts, tr_iff] <;> decide +kernel

/-- Two elements of four bytes from memory by the indices 1 and −1, the second skipped. -/
def gatherCmd : EngCmd := engCmd .gath 0xFFFFFFF000000000 0x100 0xFFFFFFF000000200 0x120002
def gatherState : State := queuedCmd (commitBase.onStore 0 (·.spPut 0x200 [1, 0, 0, 0, 255, 255, 255, 255])) gatherCmd

theorem witness_GatherBurst :
    ∃ (s : State) (n z iw : Nat) (c : EngCmd) (e : Agent) (ix : Nat → Word) (src dst : Nat → Nat) (moves : Nat → Prop),
    freshCmd s 1 0 0 .gather c ∧ e = s.agent 1 0 1 c ∧ (c.kind = .gath ∨ c.kind = .scat)
    ∧ n = (c.g3.extractLsb' 0 16).toNat ∧ z = 2 ^ (c.g3.extractLsb' 16 3).toNat ∧ iw = (if c.g3.getLsbD 19 then 8 else 4)
    ∧ 0 < n ∧ n ≤ 32 ∧ rangeIn .localSp c.g2.toNat (n * iw) = true
    ∧ ix = (fun i => (BitVec.ofNat (8 * iw) (leNat ((s.cluster 0).store.spGet (spOff c.g2.toNat + i * iw) iw))).signExtend 64)
    ∧ moves = (fun i => i < n ∧ ¬ (c.g3.getLsbD 20 = true ∧ ix i = BitVec.allOnes 64))
    ∧ src = (fun i => if c.kind = .gath then (c.g1.toNat + (ix i).toNat * z) % 2 ^ 64 else c.g1.toNat + i * z)
    ∧ dst = (fun i => if c.kind = .gath then c.g0.toNat + i * z else (c.g0.toNat + (ix i).toNat * z) % 2 ^ 64)
    ∧ (∀ i, moves i → engGets s e 0 (src i) z ∧ engPuts s e 0 (dst i) z)
    ∧ s.engineTurn 0 1 = some (4 * 1 + 0) ∧ moves 0 ∧ ¬ moves 1 := by
  refine ⟨gatherState, 2, 4, 4, gatherCmd, _, _, _, _, _, by unfold freshCmd; decide +kernel, rfl, by decide, by decide, by decide, by decide, by decide,
    by decide, by decide, rfl, rfl, rfl, rfl, ?_, by decide +kernel, by decide +kernel, by decide +kernel⟩
  rintro i ⟨h, hs⟩
  obtain rfl | rfl : i = 0 ∨ i = 1 := by omega
  · simp only [engGets, engPuts, tr_iff]
    decide +kernel
  · exact absurd (by decide +kernel) hs

/-- Two bytes from memory for q2, which holds an element. -/
def feedCmd : EngCmd := engCmd .cpyb 0xA02 0x100 0 2

theorem witness_StreamDelivery :
    ∃ (s : State) (xf len rows dl gi go q w : Nat) (c : EngCmd) (e : Agent) (r : QReg),
    freshCmd s 1 0 0 .copy c ∧ e = s.agent 1 0 0 c ∧ c.kind = .cpyb ∧ len = (c.g3.extractLsb' 0 24).toNat
    ∧ rows = max 1 (c.g3.extractLsb' 24 16).toNat ∧ xf = (c.g3.extractLsb' 40 2).toNat ∧ dl = rowOut xf len ∧ xf < 2
    ∧ gi = [1, 25].getD xf 1 ∧ go = [1, 33].getD xf 1 ∧ len % gi = 0 ∧ 0 < len ∧ q = (c.g0.extractLsb' 0 3).toNat
    ∧ r = (s.member 1 0).regs.queue q ∧ w = (if xf = 0 then fmtBytes r.fmt else 1) ∧ dl % w = 0
    ∧ r.bytes.length + rows * dl ≤ 1024 ∧ engGets s e 0 c.g1.toNat (spanOf (c.g2.extractLsb' 0 32).toNat rows len)
    ∧ s.engineTurn 0 0 = some (4 * 1 + 0) ∧ r.narrow = [] ∧ r.bytes.length % fmtBytes r.fmt = 0 := by
  refine ⟨queuedCmd (base.onCtx 0 (fun c => { c with regs := { c.regs with q := [(2, { fmt := .e2m3, bytes := [7] })] } })) feedCmd,
    0, 2, 1, 2, 1, 1, 2, 1, feedCmd, _, { fmt := .e2m3, bytes := [7] }, by unfold freshCmd; decide +kernel, rfl, ?_⟩
  simp only [engGets, tr_iff]
  decide +kernel

/-- A tight scaled E2M3 stream with a map of which the first byte is set. -/
def weightCmd : EngCmd := engCmd .wstr 1 0x100 0xBE0 0x7A

def weightState : State := queuedCmd (withMem base 0x100 [0xFF]) weightCmd

/-- Its first page is translated to itself, and no line of it meets an error. -/
theorem weight_tr (a : Nat) (h : a < 4096) : weightState.translate (.engine 1 0 2) 0 0 a false = .ok a := by
  have hd : (weightState.slice 0).dtc = [⟨0, 0, 13, 0, true, true⟩] := by rfl
  have hr : (weightState.slice 0).refused = [] := by rfl
  have hp : DtcEnt.hits ⟨0, 0, 13, 0, true, true⟩ 0 a = true := by
    simp only [DtcEnt.hits]
    simp
    omega
  simp only [State.translate, State.dtcHit, hd, hr, List.find?, hp]
  rw [if_neg (by decide), if_neg (by simp)]
  simp [DtcEnt.grants]

theorem weight_line (l : Nat) (h : l < 32) : weightState.lineErr false 1 l .read = none := by
  revert l
  decide +kernel

theorem witness_WeightBurst :
    ∃ (s : State) (w bl nb side : Nat) (f : Fmt) (scl elide tight : Bool) (c : EngCmd) (e : Agent),
    freshCmd s 1 0 0 .weight c ∧ e = s.agent 1 0 2 c ∧ c.kind = .wstr ∧ s.wstrHeld e c = false
    ∧ Fmt.ofCode (c.g3.extractLsb' 0 4).toNat = some f ∧ f ≠ .raw ∧ f ≠ .int32
    ∧ scl = c.g3.getLsbD 4 ∧ elide = c.g3.getLsbD 5 ∧ tight = c.g3.getLsbD 6 ∧ w = fmtBytes f ∧ (scl = true → w = 1)
    ∧ (tight = true → scl = true) ∧ bl = (if tight then 25 else if scl then 33 else 32 * w) ∧ nb = 120 / w
    ∧ side = [1, 1, 2, 8, 8, 8, 8, 8, 8].getD w 8 ∧ 16 + bl * nb ≤ (c.g2.extractLsb' 0 32).toNat
    ∧ engGets s e 0 c.g1.toNat (16 + bl * nb) ∧ s.engineTurn 0 2 = some (4 * 1 + 0) := by
  refine ⟨weightState, 1, 25, 120, 1, .e2m3, true, true, true, weightCmd, _, by unfold freshCmd; decide +kernel, rfl, ?_⟩
  refine ⟨by decide +kernel, by decide +kernel, by decide, by decide, by decide, by decide, by decide, by decide, by decide,
    by decide, by decide, by decide, by decide, by decide, by decide, .inr ⟨by decide, by decide, fun i hi => ?_⟩, by decide +kernel⟩
  exact ⟨weight_tr _ (by have : weightCmd.g1.toNat / 8 * 8 = 256 := by decide
                         omega),
    weight_line _ (by have : weightCmd.g1.toNat / 8 * 8 = 256 := by decide
                      omega)⟩

/-- Two words of a drain program for the last places of the store. -/
def loadCmd : EngCmd := engCmd .dload 510 0x100 2 0

theorem witness_DrainLoadBurst :
    ∃ (s : State) (n dst : Nat) (c : EngCmd) (e : Agent), freshCmd s 1 0 0 .copy c ∧ e = s.agent 1 0 0 c ∧ c.kind = .dload
    ∧ dst = (c.g0.extractLsb' 0 9).toNat ∧ n = (c.g2.extractLsb' 0 10).toNat ∧ engGets s e 0 c.g1.toNat (4 * n)
    ∧ s.engineTurn 0 0 = some (4 * 1 + 0) ∧ n = 2 := by
  refine ⟨queuedCmd base loadCmd, 2, 510, loadCmd, _, by unfold freshCmd; decide +kernel, rfl, ?_⟩
  simp only [engGets, tr_iff]
  decide +kernel

/-- Four bytes from a page without a translation; and a command whose bytes are moved. -/
theorem witness_EngineParksAndCompletes :
    (∃ (s : State) (c : EngCmd) (e : Agent), freshCmd s 1 0 0 .copy c ∧ e = s.agent 1 0 0 c ∧ c.kind = .cpy
      ∧ 0 < (c.g3.extractLsb' 0 24).toNat ∧ (c.g3.extractLsb' 40 2).toNat = 0 ∧ spaceOf c.g1.toNat = .memory ∧ c.pasid ≠ physPasid
      ∧ (∀ x ∈ (s.slice e.slice).refused, x.req ≠ e.req) ∧ (s.slice e.slice).ats.length < 1024
      ∧ (∀ i, i < 8 → s.dtcHit e.slice e.pasid (c.g1.toNat / 8 * 8 + i) false = none) ∧ s.engineTurn 0 0 = some (4 * 1 + 0))
    ∧ ∃ (s : State) (team m cl : Nat) (c : EngCmd) (rest : List EngCmd), (s.team team).cluster = some cl
      ∧ (s.core (4 * cl + m)).team = team ∧ (s.ctx (4 * cl + m)).queue 0 = c :: rest ∧ c.moved = true ∧ c.kind = .cpy
      ∧ (∀ o ∈ rest, o.num ≠ c.num) ∧ c.num < 2 ^ 64 ∧ c.num = ((s.ctx (4 * cl + m)).timeline .cp).done + 1
      ∧ ((s.ctx (4 * cl + m)).timeline .cp).finished = [] :=
  ⟨⟨queuedCmd base (engCmd .cpy 0xFFFFFFF000000000 0x2000 0 4), engCmd .cpy 0xFFFFFFF000000000 0x2000 0 4, _, by unfold freshCmd; decide +kernel, rfl, by decide +kernel⟩,
    ⟨base.onCtx 0 (·.setQueue 0 [{ copyCmd 8 with moved := true }]), 1, 0, 0, { copyCmd 8 with moved := true }, [], by decide +kernel⟩⟩

/-- Rings U, D and M with a cause for ring D. -/
theorem witness_TakingAnException :
    (∃ (s : State) (i : TrapInfo), escalate (s.ctx 0).ring i.target = some (.d, false) ∧ (s.ctx 0).ring.rank < i.target.rank)
    ∧ (∃ (s : State) (i : TrapInfo), escalate (s.ctx 0).ring i.target = some (.h, true) ∧ i.target.rank ≤ (s.ctx 0).ring.rank
      ∧ (s.ctx 0).ring ≠ .m)
    ∧ ∃ s : State, (s.ctx 0).ring = .m :=
  ⟨⟨base, { cause := 0x01 }, by decide +kernel⟩, ⟨baseD, { cause := 0x01 }, by decide +kernel⟩, ⟨baseM, by decide +kernel⟩⟩

theorem witness_TrapInstructions : (0x07FF#13).toNat / 2048 = 0 ∧ (0x0800#13).toNat / 2048 ≠ 0 := by decide

theorem witness_ExceptionReturn :
    (∃ (s : State) (r : HRing) (p : Ring), (s.ctx s.turn).ring = toRing r ∧ p.rank = (((s.core s.turn).trapRegs r).status.toNat) % 4
      ∧ p.rank ≤ (toRing r).rank)
    ∧ (∃ s : State, (s.ctx s.turn).ring = .u)
    ∧ ∃ (s : State) (r : HRing), (s.ctx s.turn).ring = toRing r ∧ (toRing r).rank < (((s.core s.turn).trapRegs r).status.toNat) % 4 :=
  ⟨⟨baseD, .d, .u, by decide +kernel⟩, ⟨base, by decide +kernel⟩,
    ⟨baseD.onCore 0 (fun c => c.setTrapRegs .d { status := 6 }), .d, by decide +kernel⟩⟩

theorem witness_BoundaryTakesCausesInOrder :
    (∃ (s : State) (a : Abort), (s.core 0).abort = some a)
    ∧ (∃ (s : State) (a : Word), (s.core 0).abort = none ∧ (s.core 0).stepped = some a)
    ∧ (∃ (s : State) (c : Core), c = s.core 0 ∧ c.abort = none ∧ c.stepped = none ∧ c.ctx.ring = .d
      ∧ c.ctx.ctl.d.status.getLsbD 2 = true ∧ c.preempt = true)
    ∧ (∃ (s : State) (c : Core) (v : Word), c = s.core 0 ∧ c.abort = none ∧ c.stepped = none ∧ c.ctx.ring = .u ∧ c.preempt = false
      ∧ c.intr = some v)
    ∧ ∃ (s : State) (c : Core), c = s.core 0 ∧ c.abort = none ∧ c.stepped = none ∧ c.ctx.ring ≠ .u
      ∧ (c.ctx.ring = .d → c.ctx.ctl.d.status.getLsbD 2 = false) :=
  ⟨⟨base.onCore 0 (fun c => { c with abort := some ⟨8, 0⟩ }), ⟨8, 0⟩, by decide +kernel⟩,
    ⟨base.onCore 0 (fun c => { c with stepped := some 0 }), 0, by decide +kernel⟩,
    ⟨baseD.onCore 0 (fun c => { c with preempt := true }), _, rfl, by decide +kernel⟩,
    ⟨base.onCore 0 (fun c => { c with intr := some 3 }), _, 3, rfl, by decide +kernel⟩, ⟨baseM, _, rfl, by decide +kernel⟩⟩

theorem witness_WaitHaltAndCoreEvents :
    (∃ s : State, (s.ctx s.turn).wfe = none ∧ (s.ctx s.turn).ring.rank < 2 ∧ (s.ctx s.turn).ring = .u)
    ∧ (∃ (s : State) (w : Wfe), (s.ctx s.turn).wfe = some w ∧ w.seen ≠ 0)
    ∧ (∃ (s : State) (w : Wfe), (s.ctx s.turn).wfe = some w ∧ w.seen = 0)
    ∧ (∃ (s : State) (w : Wfe), (s.ctx 0).wfe = some w ∧ w.limit ≠ 0)
    ∧ (∃ s : State, 2 ≤ (s.ctx s.turn).ring.rank ∧ (s.core s.turn).budget = none)
    ∧ (∃ (s : State) (n : Nat), (s.ctx s.turn).ring = .d ∧ (s.core s.turn).budget = some n
      ∧ (∀ k ∈ (s.teamOf s.turn).coreList, k = s.turn ∨ (s.memberCtx k (s.core s.turn).team).coop = true
        ∨ (s.memberCtx k (s.core s.turn).team).exited = true))
    ∧ (∃ s : State, (s.core 0).running = true ∧ (s.core 0).dead = false ∧ (s.boundaryTrap 0).isSome = true
      ∧ (s.team (s.core 0).team).consumed = false ∧ (s.ctx 0).wfe = none)
    ∧ (∃ s : State, (s.core 0).running = true ∧ (s.core 0).dead = false ∧ (s.boundaryTrap 0).isSome = true
      ∧ (s.team (s.core 0).team).consumed = false ∧ (s.ctx 0).wfe ≠ none)
    ∧ (∃ s : State, (s.core 0).halted = true ∧ (s.core 0).reqWait = false ∧ s.mayWrite .host (sliceOf 0) = true)
    ∧ ∃ s : State, (s.core 0).halted = true ∧ (s.core 0).reqWait = false ∧ s.mayWrite .host (sliceOf 0) = false :=
  ⟨⟨base, by decide +kernel⟩, ⟨base.onCtx 0 (fun c => { c with wfe := some { seen := 1 } }), { seen := 1 }, by decide +kernel⟩,
    ⟨base.onCtx 0 (fun c => { c with wfe := some { limit := 9 } }), { limit := 9 }, by decide +kernel⟩,
    ⟨base.onCtx 0 (fun c => { c with wfe := some { limit := 9 } }), { limit := 9 }, by decide +kernel⟩, ⟨baseM, by decide +kernel⟩,
    ⟨baseD.onCore 0 (fun c => { c with budget := some 1 }), 1, by decide +kernel⟩,
    ⟨base.onCore 0 (fun c => { c with intr := some 3 }), by decide +kernel⟩,
    ⟨base.onCore 0 (fun c => { c with intr := some 3, ctx := { c.ctx with wfe := some {} } }), by decide +kernel⟩,
    ⟨base.onCore 0 (fun c => { c with halted := true }), by decide +kernel⟩,
    ⟨(base.onHome (fun h => { h with world := 1 })).onCore 0 (fun c => { c with halted := true }), by decide +kernel⟩⟩

/-- A member that has stopped for its save, with an interrupt that waits. -/
theorem witness_AtSave : ∃ s : State, (s.core 0).running = true ∧ (s.core 0).dead = false ∧ (s.boundaryTrap 0).isSome = true
    ∧ (s.team (s.core 0).team).consumed = false ∧ s.atSave 0 = true :=
  ⟨(base.onCore 0 (fun c => { c with intr := some 3 })).onTeam 1 (fun t => { t with swap := true }), by decide +kernel⟩

theorem witness_CsrInstructions :
    (∃ (s : State) (c : Csr), (csrRing c).rank ≤ (s.ctx s.turn).ring.rank)
    ∧ (∃ (s : State) (c : Csr), (s.ctx s.turn).ring.rank < (csrRing c).rank) ∧ (∃ a : SReg, a ≠ 0)
    ∧ ∃ s : State, s.home.world.getLsbD 63 = true :=
  ⟨⟨base, .fpflags, by decide +kernel⟩, ⟨base, .trapReg .m .tvec, by decide +kernel⟩, ⟨63, by decide⟩,
    ⟨base.onHome (fun h => { h with world := 0x8000000000000000 }), by decide +kernel⟩⟩

/-- The scratchpad uses of an operand lie in the window, aligned where they are no groups, and pass a further check. -/
def usesB (c : Ctx) (o : Operand) (f : Fmt) (grp : Bool) (pos : List Nat) (top : Nat) (p : Nat × Nat → Bool) : Bool :=
  (c.spUses o (fmtBytes f) grp pos top).all (fun u => rangeIn .localSp u.1 u.2 && (grp || u.1 % u.2 == 0) && p u)

/-- What `vecReady` asks of a source. -/
def srcB (s : State) (v : VSrc) : Bool :=
  (v.want.all (fun f => (s.ctx s.turn).regs.checkSrc v.code v.o f == none))
  && usesB (s.ctx s.turn) v.o v.f v.grp v.pos 128 (fun u => !s.mcastPending s.turn (spOff u.1) u.2
      && !(s.cluster (clusterOf s.turn)).store.spBadIn (spOff u.1) u.2)

/-- What `vecReady` asks of a destination. -/
def dstB (s : State) (d : VDst) : Bool :=
  (s.ctx s.turn).regs.checkDst d.o d.tag == none
  && usesB (s.ctx s.turn) d.o d.f d.grp d.pos d.top (fun u => !s.mcastOut s.turn
      && (decide (8 ≤ u.2) || !(s.cluster (clusterOf s.turn)).store.spBadIn (spOff u.1) u.2))

/-- `vecReady` as a check. -/
def readyB (s : State) (srcs : List VSrc) (dst : Option VDst) (more : List BadReg) : Bool :=
  srcs.all (srcB s) && dst.all (dstB s)
  && !(s.ctx s.turn).regs.reads (srcs.flatMap (·.words (s.ctx s.turn)) ++ ((dst.map VDst.words).getD []) ++ more) (streamNeeds srcs)
  && (streamNeeds srcs).all (fun e => (s.streamStop s.turn e.1 e.2).isNone)

theorem vecReady_of (s : State) (srcs : List VSrc) (dst : Option VDst) (more : List BadReg) (h : readyB s srcs dst more = true) :
    vecReady s srcs dst more := by
  simp only [readyB, srcB, dstB, usesB, List.all_eq_true, Option.all_eq_true, Option.isNone_iff_eq_none, Bool.and_eq_true, Bool.or_eq_true,
    Bool.not_eq_true', beq_iff_eq, decide_eq_true_eq] at h
  unfold vecReady
  grind

/-- Mask k1 with lane 127 alone. -/
def lastLane (s : State) : State := s.onCtx 0 (·.onRegs (·.setMask 1 (1#128 <<< 127)))

/-- FP32 registers v2 and v3 and the destination v1, under k1. -/
def fw : VWord := ⟨1, .fp32, 0, 0, .v 1, .v 2, .v 3⟩
def fpState : State := lastLane (withV (withV base 2 .fp32 [1]) 3 .fp32 [2])

/-- INT8 registers v2 and v3, under k1. -/
def iw : VWord := ⟨1, .int8, 0, 1, .v 1, .v 2, .v 3⟩
def intState : State := lastLane (withV (withV base 2 .int8 [1]) 3 .int8 [2])

theorem witness_VectorArithmetic :
    (∃ (s : State) (w : VWord) (e : Instr × Option Fmt × Bool × (Nat → Nat → Nat → FEnv → Nat × FEnv)) (dst : VDst),
      e ∈ arithRows w ∧ dst = ⟨w.d, w.fmt, w.fmt, (s.ctx s.turn).regs.actives w.k (elemCount w.fmt), false, 128⟩
      ∧ vecReady s (arithSrcs s w e.2.1 e.2.2.1) (some dst))
    ∧ ∃ (s : State) (w : VWord) (d a b : BitVec 5), w.fmt = .int8 ∧ w.d = .v d ∧ w.a = .v a ∧ w.b = .v b
      ∧ (s.ctx s.turn).regs.vTag a.toNat = .int8 ∧ (s.ctx s.turn).regs.vTag b.toNat = .int8 :=
  ⟨⟨fpState, fw, _, _, List.mem_cons_self, rfl, vecReady_of _ _ _ _ (by decide +kernel)⟩,
    ⟨intState, iw, 1, 2, 3, by decide +kernel⟩⟩

/-- The last element of a vector register, of a tile's row and of a scratchpad vector. -/
theorem witness_VectorElementsWritten :
    ∀ o ∈ [Operand.v 31, .row 7 1, .sp 1 0], ∃ (s : State) (d : VDst) (vals : List (Nat × Nat)), d.o = o
      ∧ (vals.map (·.1)).Nodup ∧ (∀ e ∈ vals, e.1 < elemCount d.f) ∧ (∀ e ∈ vals, e.1 < elemCount d.tag)
      ∧ Map.wf 0#8 (s.ctx 0).regs.m = true :=
  fun o _ => ⟨withS base [(1, 0xFFFFFFF000000000)], ⟨o, .fp32, .fp32, [127], false, 128⟩, [(127, 5)], rfl,
    show ([(127, 5)].map (·.1)).Nodup ∧ (∀ e ∈ [(127, 5)], e.1 < elemCount .fp32) ∧ (∀ e ∈ [(127, 5)], e.1 < elemCount .fp32)
      ∧ Map.wf 0#8 ((withS base [(1, 0xFFFFFFF000000000)]).ctx 0).regs.m = true by decide +kernel⟩

theorem witness_VectorConversions :
    (∃ (s : State) (w : VWord) (e : Instr × List VSrc × VDst × ((Nat → Nat → Nat) → FEnv → List (Nat × Nat) × FEnv)),
      e ∈ convRows s w ∧ vecReady s e.2.1 (some e.2.2.1))
    ∧ (∃ (s : State) (w : VWord) (src : Fmt) (n cap : Nat) (act tail : List Nat), src = (s.ctx s.turn).regs.sourceFmt w
      ∧ src ≠ .raw ∧ w.fmt ≠ .raw ∧ n = (if src = .fp64 ∨ w.fmt = .fp64 then 64 else 128)
      ∧ cap = (if w.fmt = .fp64 then 64 else 128)
      ∧ act = (s.ctx s.turn).regs.actives w.k n ∧ tail = (List.range (cap - n)).map (· + n)
      ∧ vecReady s [⟨1, w.a, none, src, w.fmt, act, false⟩] (some ⟨w.d, w.fmt, w.fmt, act ++ tail, false, 128⟩))
    ∧ (∃ (s : State) (w : VWord) (src f g : Fmt) (n cap : Nat) (act tail : List Nat), src = (s.ctx s.turn).regs.sourceFmt w
      ∧ (src = .raw ∨ w.fmt = .raw) ∧ n = (if src = .fp64 ∨ w.fmt = .fp64 then 64 else 128) ∧ cap = n
      ∧ f = (if n = 64 then .fp64 else if w.a.kind = .v ∧ w.d.kind = .v then .raw else src)
      ∧ g = (if n = 64 then .fp64 else if w.a.kind = .v ∧ w.d.kind = .v then .raw else w.fmt)
      ∧ act = (s.ctx s.turn).regs.actives w.k n ∧ tail = (List.range (cap - n)).map (· + n)
      ∧ vecReady s [⟨1, w.a, none, f, w.fmt, act, false⟩] (some ⟨w.d, g, w.fmt, act ++ tail, false, 128⟩))
    ∧ (∃ (s : State) (w : VWord) (src f : Fmt) (act tail : List Nat), src = (s.ctx s.turn).regs.sourceFmt w
      ∧ f = (if src = .raw ∧ w.d.kind = .v then .raw else w.fmt) ∧ w.fmt = .mk8
      ∧ act = (s.ctx s.turn).regs.actives w.k (elemCount src)
      ∧ tail = (List.range (128 - elemCount src)).map (· + elemCount src)
      ∧ vecReady s [⟨1, w.a, none, src, w.fmt, act, false⟩] (some ⟨w.d, f, w.fmt, act ++ tail, w.d.kind == .p, elemCount src⟩))
    ∧ (∃ (s : State) (w : VWord) (act : List Nat), w.fmt = .int8 ∧ act = (s.ctx s.turn).regs.actives w.k 128
      ∧ vecReady s [⟨1, w.a, some w.fmt, w.fmt, .raw, act, w.a.kind == .p⟩, ⟨2, w.b, some .e8, .e8, .raw, [], false⟩]
        (some ⟨w.d, .fp32, .fp32, act, false, 128⟩) (dqWords (s.ctx s.turn) w act))
    ∧ (∃ vs : List FVal, ∃ v ∈ vs, v.isFin = false)
    ∧ (∃ (vs : List FVal) (l : Int), (∀ v ∈ vs, v.isFin = true) ∧ (∃ v ∈ vs, v.lead = some l))
    ∧ ∃ lanes : List (Option Nat), lanes.length ≤ 128 ∧ lanes[0]? = some (some 1) ∧ lanes[127]? = some (some 2)
      ∧ ∀ k ∈ List.range 126, lanes[k + 1]?.join = none :=
  ⟨⟨fpState, fw, _, List.mem_cons_of_mem _ List.mem_cons_self, vecReady_of _ _ _ _ (by decide +kernel)⟩,
    ⟨fpState, { fw with fmt := .int8, b := .v 0 }, .fp32, _, _, _, _, by decide +kernel, by decide, by decide, rfl, rfl, rfl, rfl,
      vecReady_of _ _ _ _ (by decide +kernel)⟩,
    ⟨fpState, { fw with fmt := .raw, b := .v 0 }, .fp32, _, _, _, _, _, _, by decide +kernel, by decide, rfl, rfl, rfl, rfl, rfl, rfl,
      vecReady_of _ _ _ _ (by decide +kernel)⟩,
    ⟨fpState, { fw with fmt := .mk8 }, .fp32, _, _, _, by decide +kernel, rfl, rfl, rfl, rfl, vecReady_of _ _ _ _ (by decide +kernel)⟩,
    ⟨withV intState 3 .e8 [], { iw with rm := 0, flags := 0 }, _, rfl, rfl, vecReady_of _ _ _ _ (by decide +kernel)⟩,
    ⟨[.nan], .nan, by decide +kernel⟩, ⟨[decodeF .fp32 0x41A00000], 4, by decide +kernel⟩,
    ⟨some 1 :: (List.replicate 126 none ++ [some 2]), by decide +kernel⟩⟩

theorem witness_ComparesAndMasks :
    (∃ (s : State) (w : VWord) (d : BitVec 3) (e : Instr × BitVec 128), w.d = .k d ∧ d ≠ 0 ∧ e ∈ maskRows s w)
    ∧ ∃ (s : State) (w : VWord) (d : BitVec 3) (act : List Nat), w.d = .k d ∧ d ≠ 0
      ∧ act = (s.ctx s.turn).regs.actives w.k (elemCount w.fmt)
      ∧ vecReady s [⟨1, w.a, some w.fmt, w.fmt, .raw, act, false⟩, ⟨2, w.b, some w.fmt, w.fmt, .raw, act, false⟩] none :=
  ⟨⟨base, ⟨0, .raw, 0, 0, .k 7, .k 1, .k 2⟩, 7, _, rfl, by decide, List.mem_cons_self⟩,
    ⟨fpState, { fw with d := .k 1 }, 1, _, rfl, by decide, rfl, vecReady_of _ _ _ _ (by decide +kernel)⟩⟩

theorem witness_ElementMoves :
    ∀ f ∈ [Fmt.fp32, .raw], ∃ (s : State) (w : VWord) (e : Instr × Bool × Operand × Plan) (want : Option Fmt)
      (srcs : List VSrc) (d : VDst), w.fmt = f ∧ e ∈ moveRows s w 1 1 ∧ w.b = e.2.2.1
      ∧ want = (if w.fmt = .raw then none else some w.fmt)
      ∧ srcs = ⟨1, w.a, want, w.fmt, .raw, e.2.2.2.reads 0 (elemCount w.fmt), false⟩ ::
        (if e.2.1 then [⟨2, w.b, want, w.fmt, .raw, e.2.2.2.reads 1 (elemCount w.fmt), false⟩] else [])
      ∧ d = ⟨w.d, w.fmt, if w.fmt = .raw then (((s.ctx s.turn).regs.tagOf w.a).or
        (if e.2.1 then (s.ctx s.turn).regs.tagOf w.b else none)).getD .raw else w.fmt, e.2.2.2.map (·.1), false, 128⟩
      ∧ vecReady s srcs (some d) := by
  intro f hf
  simp only [List.mem_cons, List.not_mem_nil, or_false] at hf
  rcases hf with rfl | rfl
  · exact ⟨fpState, fw, _, _, _, _, rfl, List.mem_cons_self, rfl, rfl, rfl, rfl, vecReady_of _ _ _ _ (by decide +kernel)⟩
  · exact ⟨fpState, { fw with fmt := .raw }, _, _, _, _, rfl, List.mem_cons_self, rfl, rfl, rfl, rfl,
      vecReady_of _ _ _ _ (by decide +kernel)⟩

theorem witness_ReductionsAndTags :
    (∃ (s : State) (w : VWord) (e : Instr × Fmt × (Nat → Nat) × (Nat → Nat → FEnv → Nat × FEnv) × Nat) (act : List Nat),
      e ∈ reduceRows w ∧ act = (s.ctx s.turn).regs.actives w.k (elemCount w.fmt)
      ∧ vecReady s [⟨1, w.a, some w.fmt, w.fmt, .raw, act, false⟩] (some ⟨w.d, e.2.1, e.2.1, List.range (elemCount w.fmt), false, 128⟩))
    ∧ (∃ (w : VWord) (n : BitVec 5), w.d = .v n)
    ∧ (∃ (s : State) (w : VWord) (m : Nat) (f : TForm) (ix : SReg), tileForm w.d = some (m, f, ix)
      ∧ layoutOf ((s.ctx s.turn).regs.mTag m) = layoutOf w.fmt ∧ .m m 0 ∉ (s.ctx s.turn).regs.bad)
    ∧ ∃ (s : State) (w : VWord) (m : Nat) (f : TForm) (ix : SReg) (old : Fmt), tileForm w.d = some (m, f, ix)
      ∧ old = (s.ctx s.turn).regs.mTag m ∧ old ≠ .raw ∧ w.fmt ≠ .raw ∧ layoutOf old ≠ layoutOf w.fmt
      ∧ .m m 0 ∉ (s.ctx s.turn).regs.bad :=
  ⟨⟨fpState, { fw with b := .v 0 }, _, _, List.mem_cons_self, rfl, vecReady_of _ _ _ _ (by decide +kernel)⟩,
    ⟨{ vw with d := .v 31 }, 31, rfl⟩,
    ⟨base.onCtx 0 (·.onRegs (fun r => { r with mtag := [(2, .bf16)] })), ⟨0, .fp16, 0, 0, .row 2 0, .v 0, .v 0⟩, 2, .row, 0,
      by decide +kernel⟩,
    ⟨base.onCtx 0 (·.onRegs (fun r => { r with mtag := [(2, .bf16)] })), ⟨0, .mk8, 0, 0, .row 2 0, .v 0, .v 0⟩, 2, .row, 0, .bf16,
      by decide +kernel⟩⟩

/-- The first and the last lane, in k1. -/
def bothEnds (s : State) : State := s.onCtx 0 (·.onRegs (·.setMask 1 (1#128 <<< 127 ||| 1)))

/-- A vector load of four bytes a lane from the scratchpad's end; from memory's first page, where L1 holds nothing, with room
and at a full counter; and where it holds the line. -/
theorem witness_VectorLoads :
    (∃ (s : State) (w : VWord) (ar : SReg) (act : List Nat), w.a = .s ar ∧ act = (s.ctx s.turn).regs.actives w.k (elemCount w.fmt)
      ∧ act ≠ [] ∧ (s.ctx s.turn).regs.bad = [] ∧ (s.ctx s.turn).regs.checkDst w.d w.fmt = none
      ∧ (∀ e ∈ act, stridedAddr s ar (fmtBytes w.fmt) e % fmtBytes w.fmt = 0)
      ∧ (∀ e ∈ act, rangeIn .localSp (stridedAddr s ar (fmtBytes w.fmt) e) (fmtBytes w.fmt) = true
        ∧ s.mcastPending s.turn (spOff (stridedAddr s ar (fmtBytes w.fmt) e)) (fmtBytes w.fmt) = false
        ∧ (s.cluster (clusterOf s.turn)).store.spBadIn (spOff (stridedAddr s ar (fmtBytes w.fmt) e)) (fmtBytes w.fmt) = false))
    ∧ (∀ full : Bool, ∃ (s : State) (w : VWord) (ar : SReg) (n : BitVec 5) (act : List Nat) (pa : Nat → Nat), w.a = .s ar
      ∧ w.b = .v n ∧ act = (s.ctx s.turn).regs.actives w.k (elemCount w.fmt) ∧ (s.ctx s.turn).regs.checkDst w.d w.fmt = none
      ∧ (∀ e ∈ act, indexedAddr s ar n (fmtBytes w.fmt) e % fmtBytes w.fmt = 0)
      ∧ (∀ e ∈ act, rangeIn .memory (indexedAddr s ar n (fmtBytes w.fmt) e) (fmtBytes w.fmt) = true
        ∧ s.breaking.tr s.turn (indexedAddr s ar n (fmtBytes w.fmt) e) false 1 = .ok (pa e))
      ∧ 127 ∈ act ∧ s.l1Read s.turn (s.pasidOf s.turn true) (indexedAddr s ar n (fmtBytes w.fmt) 127) (fmtBytes w.fmt) = .miss
      ∧ (full = decide ((s.ctx s.turn).loads = 0xFFFF)))
    ∧ (∃ (s : State) (w : VWord) (ar : SReg) (act : List Nat) (pa : Nat → Nat) (bs : Nat → List Byte), w.a = .s ar
      ∧ act = (s.ctx s.turn).regs.actives w.k (elemCount w.fmt) ∧ act ≠ [] ∧ (s.ctx s.turn).regs.checkDst w.d w.fmt = none
      ∧ (∀ e ∈ act, stridedAddr s ar (fmtBytes w.fmt) e % fmtBytes w.fmt = 0)
      ∧ (∀ e ∈ act, rangeIn .memory (stridedAddr s ar (fmtBytes w.fmt) e) (fmtBytes w.fmt) = true
        ∧ s.breaking.tr s.turn (stridedAddr s ar (fmtBytes w.fmt) e) false 1 = .ok (pa e))
      ∧ ∀ e ∈ act, s.l1Read s.turn (s.pasidOf s.turn true) (stridedAddr s ar (fmtBytes w.fmt) e) (fmtBytes w.fmt) = .hit (bs e))
    ∧ ∃ (s : State) (k ix : Nat) (p : PendLoad) (v : VPend), (s.ctx k).pend[ix]? = some p ∧ p.vec = some v ∧ (s.core k).l1 = []
      ∧ (∀ e ∈ v.els, e.2.1 % 128 + p.w ≤ 128 ∧ e.2.2 % 128 = e.2.1 % 128
        ∧ s.lineErr (s.secureCore k) (s.core k).team (e.2.2 / 128) .read = none)
      ∧ (∀ e ∈ v.els, ∀ f ∈ v.els, e.2.1 / 128 = f.2.1 / 128 → e.2.2 / 128 = f.2.2 / 128) ∧ v.els ≠ [] := by
  refine ⟨⟨withS fpState [(1, 0xFFFFFFF0007FFE00)], { fw with a := .s 1, b := .v 0 }, 1, _, rfl, rfl, by decide +kernel,
      by decide +kernel, by decide +kernel, by decide +kernel⟩,
    fun full => ⟨(withS fpState [(1, 8)]).onCtx 0 (fun c => { c with loads := if full then 0xFFFF else 7 }),
      { fw with a := .s 1, b := .v 4 }, 1, 4, _, fun _ => 8, rfl, rfl, rfl, by cases full <;> decide +kernel,
      by cases full <;> decide +kernel, ?_, by cases full <;> decide +kernel, by cases full <;> rfl,
      by cases full <;> decide +kernel⟩,
    ⟨ran (.std 2 1 0) (withS (fpState.onCtx 0 (·.onRegs (·.setMask 1 1))) [(1, 64)]), { fw with a := .s 1, b := .v 0 }, 1, [0],
      fun _ => 64, fun _ => [0, 0, 0, 0], rfl, by decide +kernel, by decide +kernel, by decide +kernel, by decide +kernel, ?_, ?_⟩,
    ⟨base.onCtx 0 (fun c => { c with pend := [⟨0x400, 0, 0, 4, false, 0, 0, 0, some ⟨.v 1, .fp32, [(127, 124, 124)]⟩⟩] }), 0, 0, _, _,
      rfl, rfl, by decide +kernel, by decide +kernel, by decide +kernel, by decide⟩⟩
  · simp only [ok_iff]
    cases full <;> decide +kernel
  · simp only [ok_iff]
    decide +kernel
  · intro e he
    obtain rfl := List.mem_singleton.mp he
    rfl

/-- The later lane first outside the spaces, misaligned, or in another space than the first lane; and a tile of another tag. -/
theorem witness_VectorLoadsStop :
    (∃ s : State, firstFailing (fun e => rangeIn .memory (stridedAddr s 1 4 e) 4 = true ∨ rangeIn .localSp (stridedAddr s 1 4 e) 4 = true)
      ((s.ctx s.turn).regs.actives 1 128) 127)
    ∧ (∃ s : State, (∀ e ∈ (s.ctx s.turn).regs.actives 1 128, rangeIn .memory (stridedAddr s 1 4 e) 4 = true)
      ∧ firstFailing (fun e => stridedAddr s 1 4 e % 4 = 0) ((s.ctx s.turn).regs.actives 1 128) 127)
    ∧ (∃ s : State, (s.ctx s.turn).regs.actives 1 128 = [0, 127]
      ∧ (∀ e ∈ (s.ctx s.turn).regs.actives 1 128, (rangeIn .memory (stridedAddr s 1 4 e) 4 = true
        ∨ rangeIn .localSp (stridedAddr s 1 4 e) 4 = true) ∧ stridedAddr s 1 4 e % 4 = 0)
      ∧ firstFailing (fun e => spaceOf (stridedAddr s 1 4 e) = spaceOf (stridedAddr s 1 4 0)) [127] 127)
    ∧ ∃ (s : State) (t : TrapInfo), (s.ctx s.turn).regs.checkDst (.row 2 0) .mk8 = some t := by
  refine ⟨⟨bothEnds (withS base [(1, 0xFFFFFFF000000000), (2, 0x1000000)]), [0], [], by decide +kernel⟩,
    ⟨bothEnds (withS base [(1, 0), (2, 1)]), by decide +kernel, [0], [], by decide +kernel⟩,
    ⟨bothEnds (withS base [(1, 0xFFFFFFF000000000), (2, 0x20408104)]), ?_⟩,
    ⟨base.onCtx 0 (·.onRegs (fun r => { r with mtag := [(2, .bf16)] })), _, rfl⟩⟩
  refine ⟨by decide +kernel, by decide +kernel, [], [], by decide +kernel⟩

theorem witness_VectorStores :
    (∃ (s u : State) (popped : List (List (Nat × Nat))) (w : VWord) (ar : SReg) (act : List Nat) (src : VSrc), w.b = .s ar
      ∧ act = (s.ctx s.turn).regs.actives w.k (elemCount w.fmt)
      ∧ src = ⟨1, w.a, if w.fmt = .raw then none else some w.fmt, w.fmt, .raw, act, false⟩ ∧ vecReady s [src] none
      ∧ (∀ e ∈ act, stridedAddr s ar (fmtBytes w.fmt) e % fmtBytes w.fmt = 0) ∧ s.breaking.popAll s.turn [src] = (u, popped)
      ∧ s.mcastOut s.turn = false
      ∧ (∀ e ∈ act, rangeIn .localSp (stridedAddr s ar (fmtBytes w.fmt) e) (fmtBytes w.fmt) = true
        ∧ (s.cluster (clusterOf s.turn)).store.spBadIn (spOff (stridedAddr s ar (fmtBytes w.fmt) e)) (fmtBytes w.fmt) = false))
    ∧ (∃ (s : State) (w : VWord) (ar : SReg) (act : List Nat) (pa : Nat → Nat), w.b = .s ar
      ∧ act = (s.ctx s.turn).regs.actives w.k (elemCount w.fmt)
      ∧ vecReady s [⟨1, w.a, some w.fmt, w.fmt, .raw, act, false⟩] none
      ∧ (∀ e ∈ act, stridedAddr s ar (fmtBytes w.fmt) e % fmtBytes w.fmt = 0) ∧ (s.ctx s.turn).pend = []
      ∧ (∀ e ∈ act, rangeIn .memory (stridedAddr s ar (fmtBytes w.fmt) e) (fmtBytes w.fmt) = true
        ∧ s.breaking.tr s.turn (stridedAddr s ar (fmtBytes w.fmt) e) true 2 = .ok (pa e)))
    ∧ ∃ (s : State) (w : VWord) (ar : SReg) (act : List Nat), w.b = .s ar
      ∧ act = (s.ctx s.turn).regs.actives w.k (elemCount w.fmt) ∧ act ≠ [] ∧ (s.ctx s.turn).stores ≠ 0xFFFF
      ∧ vecReady s [⟨1, w.a, some w.fmt, w.fmt, .raw, act, false⟩] none
      ∧ (∀ e ∈ act, stridedAddr s ar (fmtBytes w.fmt) e % fmtBytes w.fmt = 0)
      ∧ (∀ e ∈ act, rangeIn .mcast (stridedAddr s ar (fmtBytes w.fmt) e) (fmtBytes w.fmt) = true
        ∧ mcastMask (stridedAddr s ar (fmtBytes w.fmt) e) ≠ 0) := by
  refine ⟨⟨withS fpState [(1, 0xFFFFFFF000000000)], _, _, { fw with d := .v 0, b := .s 1 }, 1, _, _, rfl, rfl, rfl,
      vecReady_of _ _ _ _ (by decide +kernel), by decide +kernel, rfl, by decide +kernel, by decide +kernel⟩,
    ⟨withS fpState [(1, 0x100)], { fw with d := .v 0, b := .s 1 }, 1, _, fun _ => 0x2FC, rfl, rfl,
      vecReady_of _ _ _ _ (by decide +kernel), by decide +kernel, by decide +kernel, ?_⟩,
    ⟨withS fpState [(1, 0xFFFFFFF140800000)], { fw with d := .v 0, b := .s 1 }, 1, _, rfl, rfl, by decide +kernel, by decide +kernel,
      vecReady_of _ _ _ _ (by decide +kernel), by decide +kernel, by decide +kernel⟩⟩
  simp only [ok_iff]
  decide +kernel

/-- A store whose later lane is first outside the spaces, misaligned, or in another space than the first lane. -/
theorem witness_VectorStoresStop :
    ∀ n ∈ [0, 1, 2], ∃ (s : State) (w : VWord) (reach : Nat → Prop), w.b = .s 1 ∧ (s.ctx s.turn).regs.actives w.k 128 = [0, 127]
      ∧ reach = (fun e => rangeIn .memory (stridedAddr s 1 4 e) 4 = true ∨ rangeIn .localSp (stridedAddr s 1 4 e) 4 = true
        ∨ (rangeIn .mcast (stridedAddr s 1 4 e) 4 = true ∧ mcastMask (stridedAddr s 1 4 e) ≠ 0))
      ∧ vecReady s [⟨1, w.a, some .fp32, .fp32, .raw, [0, 127], false⟩] none
      ∧ (n = 0 → firstFailing reach [0, 127] 127)
      ∧ (n = 1 → (∀ e ∈ [0, 127], reach e) ∧ firstFailing (fun e => stridedAddr s 1 4 e % 4 = 0) [0, 127] 127)
      ∧ (n = 2 → (∀ e ∈ [0, 127], reach e ∧ stridedAddr s 1 4 e % 4 = 0)
        ∧ firstFailing (fun e => spaceOf (stridedAddr s 1 4 e) = spaceOf (stridedAddr s 1 4 0)) [127] 127) := by
  intro n hn
  refine ⟨bothEnds (withS fpState (if n = 0 then [(1, 0xFFFFFFF000000000), (2, 0x1000000)]
    else if n = 1 then [(1, 0), (2, 1)] else [(1, 0xFFFFFFF000000000), (2, 0x20408104)])),
    { fw with d := .v 0, b := .s 1 }, _, rfl, ?_, rfl, ?_⟩
  all_goals simp only [List.mem_cons, List.not_mem_nil, or_false] at hn
  · rcases hn with rfl | rfl | rfl <;> decide +kernel
  · rcases hn with rfl | rfl | rfl <;> refine ⟨vecReady_of _ _ _ _ (by decide +kernel), fun h => ?_, fun h => ?_, fun h => ?_⟩ <;>
      first
      | exact absurd h (by decide)
      | exact ⟨[0], [], by decide +kernel⟩
      | exact ⟨by decide +kernel, [0], [], by decide +kernel⟩
      | exact ⟨by decide +kernel, [], [], by decide +kernel⟩

/-- INT8 clamps 128 with SAT; a scale of 2^0 and one that is NaN. -/
theorem witness_VectorValues :
    (∃ (f : Fmt) (r : Int), f ∈ [Fmt.int8, .uint8, .int16, .int32] ∧ Holds f r)
    ∧ (∃ (f : Fmt) (r : Int) (x : Nat) (y : ℚ), f ∈ [Fmt.int8, .uint8, .int16, .int32] ∧ ¬ Holds f r ∧ x < 2 ^ fmtBits f
      ∧ patNum f x = some y ∧ (∀ z, Holds f z → if r < 0 then y ≤ z else z ≤ y))
    ∧ (∃ e : Nat, e % 256 ≠ 255) ∧ ∃ (f : Fmt) (e : Nat), e % 256 = 255 ∧ f ∈ arithFormats := by
  refine ⟨⟨.int8, -128, by decide, 0x80, by decide, by decide +kernel⟩,
    ⟨.int8, 128, 0x7F, 127, by decide, ?_, by decide, by decide +kernel, ?_⟩, ⟨127, by decide⟩, ⟨.fp16, 255, by decide, by decide⟩⟩
  · rintro ⟨x, hx, h⟩
    revert x
    decide +kernel
  · rintro z ⟨x, hx, h⟩
    revert z
    revert x
    decide +kernel

/-- Two lanes by one; a quiet NaN of E4M3; numbers and a NaN to compare. -/
theorem witness_TreesClassesCompares :
    (∃ (n : Nat) (l r : List (Option Nat)), l.length = 2 ^ n ∧ r.length = 2 ^ n)
    ∧ (∃ (f : Fmt) (e w b x : Nat), floatFields f = some (e, w, b) ∧ x < 2 ^ fmtBits f)
    ∧ (∃ (f : Fmt) (p q : Nat) (a b : ℚ), f ≠ .raw ∧ p < 2 ^ fmtBits f ∧ q < 2 ^ fmtBits f ∧ patNum f p = some a ∧ patNum f q = some b)
    ∧ ∃ (f : Fmt) (p q : Nat), f ≠ .raw ∧ p < 2 ^ fmtBits f ∧ q < 2 ^ fmtBits f ∧ decodeF f p = .nan :=
  ⟨⟨0, [some 1], [none], rfl, rfl⟩, ⟨.e4m3, 4, 3, 7, 0x7F, rfl, by decide⟩,
    ⟨.e3m2, 1, 0x20, 1 / 16, 0, by decide, by decide, by decide, by decide +kernel, by decide +kernel⟩,
    ⟨.bf16, 0x7FC1, 0, by decide, by decide, by decide, by decide +kernel⟩⟩

/-- A tile whose tag word fails its ECC, as VTAG's old tag and as the destination of a vector load. -/
theorem witness_BadTag :
    ∃ (s : State) (d : VDst), .m 2 0 ∈ (s.ctx s.turn).regs.bad ∧ d.o = .row 2 0 ∧ (s.ctx s.turn).regs.reads d.words [] = true :=
  ⟨base.onCtx 0 (·.onRegs (fun r => { r with bad := [.m 2 0] })), ⟨.row 2 0, .fp32, .fp32, [0], false, 128⟩, by decide +kernel⟩

/-! ### Witnesses: the array -/

/-- MZERO of a1 to FP32, and the node with two steps of the lease left. -/
def zw : MWord := { MWord.zero with acc := 1, cf := .fp32 }
def leased : State := base.onArray 0 (fun a => { a with lease := { holder := some 0, left := 2 } })
def zm : MxInstr := base.mxRead 0 (.mzero zw)

theorem mxReady_of (s : State) (k : Nat) (m : MxInstr) (shown : Map Fmt)
    (h : (decide ((s.cluster (clusterOf k)).array.lease.holder = some (k % 4))
      && decide (m.nrep ≤ (s.cluster (clusterOf k)).array.lease.left) && (s.cluster (clusterOf k)).array.queue.isEmpty
      && decide ((s.cluster (clusterOf k)).array.replay = 0) && !(s.cluster (clusterOf k)).array.halt && s.mcast.isEmpty
      && isOkOf (accTags m (s.cluster (clusterOf k)).array.shown) shown && decide (spOperandTrap m.spUses = none)
      && decide (m.waitCp.toNat ≤ ((s.ctx k).timeline .cp).issued)
      && decide (m.waitWs.toNat ≤ ((s.ctx k).timeline .ws).issued)) = true) : mxReady s k m shown := by
  simp only [Bool.and_eq_true, decide_eq_true_eq, List.isEmpty_iff, Bool.not_eq_true', ← ok_iff] at h
  unfold mxReady
  grind

theorem witness_MatrixAcceptance :
    (∃ (s : State) (i : Instr) (m : MxInstr) (shown : Map Fmt), i = .mzero zw ∧ (s.ctx s.turn).mx = none
      ∧ s.breaking.issueMx s.turn i = .ok m ∧ mxReady s s.turn m shown)
    ∧ (∃ (s : State) (i : Instr) (m : MxInstr), i = .mzero zw ∧ (s.ctx s.turn).mx = none
      ∧ s.breaking.issueMx s.turn i = .ok m ∧ (s.cluster (clusterOf s.turn)).array.lease.holder ≠ some (s.turn % 4))
    ∧ (∃ (s : State) (m : MxInstr) (shown : Map Fmt), (s.ctx 0).mx = some m ∧ mxReady s 0 m shown
      ∧ (s.teamOf 0).consumed = false ∧ (s.core 0).dead = false ∧ s.atSave 0 = false)
    ∧ (∃ (s : State) (m : MxInstr) (shown : Map Fmt), (s.ctx 0).mx = some m ∧ mxReady s 0 m shown ∧ (s.teamOf 0).consumed = true)
    ∧ (∃ s : State, (s.ctx s.turn).mx = none ∧ (s.ctx s.turn).ring = .u)
    ∧ (∃ (s : State) (a : SReg), (s.ctx s.turn).mx = none ∧ (s.ctx s.turn).ring ≠ .u
      ∧ rangeIn .memory (s.rs a).toNat 0x82000 = false)
    ∧ (∃ (s : State) (a : SReg), (s.ctx s.turn).ring ≠ .u ∧ rangeIn .memory (s.rs a).toNat 0x82000 = true
      ∧ (s.rs a).toNat % 4096 ≠ 0)
    ∧ ∃ (s : State) (a b : SReg), (s.ctx s.turn).ring ≠ .u ∧ rangeIn .memory (s.rs a).toNat 0x82000 = true
      ∧ (s.rs a).toNat % 4096 = 0 ∧ (s.rs b).toNat < 512 := by
  refine ⟨⟨leased, _, zm, [(1, .fp32)], rfl, by decide +kernel, ?_, mxReady_of _ _ _ _ (by decide +kernel)⟩,
    ⟨base, _, zm, rfl, by decide +kernel, ?_, by decide +kernel⟩,
    ⟨leased.onCtx 0 (fun c => { c with mx := some zm }), zm, [(1, .fp32)], by decide +kernel, mxReady_of _ _ _ _ (by decide +kernel),
      by decide +kernel⟩,
    ⟨(leased.onCtx 0 (fun c => { c with mx := some zm })).onTeam 1 (fun t => { t with consumed := true }), zm, [(1, .fp32)],
      by decide +kernel, mxReady_of _ _ _ _ (by decide +kernel), by decide +kernel⟩,
    ⟨base, by decide +kernel⟩, ⟨withS baseD [(1, 0x01FFFFFFFFFF0000)], 1, by decide +kernel⟩,
    ⟨withS baseD [(1, 2048)], 1, by decide +kernel⟩, ⟨withS baseD [(1, 4096), (2, 511)], 1, 2, by decide +kernel⟩⟩ <;>
    rw [ok_iff] <;> decide +kernel

theorem witness_LeaseProtocol :
    (∃ s : State, (s.cluster (clusterOf s.turn)).array.lease.holder = some (s.turn % 4))
    ∧ (∃ s : State, (s.cluster (clusterOf s.turn)).array.lease.holder ≠ some (s.turn % 4))
    ∧ (∃ (s : State) (cl j : Nat) (l : Lease), l = (s.cluster cl).array.lease ∧ l.holder = none ∧ 1 ≤ j ∧ j ≤ 4
      ∧ (l.last + j) % 4 ∈ l.reqs ∧ (∀ i ∈ List.range j, 1 ≤ i → (l.last + i) % 4 ∉ l.reqs) ∧ (s.cluster cl).team ≠ 0
      ∧ (s.cluster cl).array.halt = false ∧ (s.cluster cl).owner = some (s.team (s.cluster cl).team).vf)
    ∧ (∃ (s : State) (cl j : Nat) (l : Lease), l = (s.cluster cl).array.lease ∧ l.holder = none ∧ 1 ≤ j ∧ j ≤ 4
      ∧ (l.last + j) % 4 ∈ l.reqs ∧ (∀ i ∈ List.range j, 1 ≤ i → (l.last + i) % 4 ∉ l.reqs) ∧ (s.cluster cl).team ≠ 0
      ∧ (s.cluster cl).array.halt = false ∧ (s.cluster cl).array.queue = []
      ∧ (s.cluster cl).owner ≠ some (s.team (s.cluster cl).team).vf)
    ∧ ∃ (s : State) (cl m : Nat), (s.cluster cl).array.lease.holder = some m ∧ (s.cluster cl).array.lease.reqs ≠ []
      ∧ (s.ctx (4 * cl + m)).mx = none :=
  ⟨⟨leased, by decide +kernel⟩, ⟨base, by decide +kernel⟩,
    ⟨base.onArray 0 (fun a => { a with lease := { reqs := [3] } }), 0, 4, _, rfl, by decide +kernel⟩,
    ⟨(base.onArray 0 (fun a => { a with lease := { reqs := [0] } })).onCluster 0 (fun c => { c with owner := some 7 }), 0, 1, _, rfl,
      by decide +kernel⟩,
    ⟨leased.onArray 0 (fun a => { a with lease := { a.lease with reqs := [1] } }), 0, 0, by decide +kernel⟩⟩

/-- A queued INT8 MMA of one K row into element (0, 0) of a1, a queued DRUN of no element whose program is END, one
whose program is none, and a queued MZERO. -/
def mm : MxInstr := { base.mxRead 0 (.mma { mw with kcount := 1 }) with rowK := 1, colK := 1, num := 1 }
def dm : MxInstr :=
  { base.mxRead 0 (.drun { MWord.zero with acc := 1, rowMask := 1, colMask := 1, cf := .fp32, entry := 1, dmode := 2 }) with num := 1 }
def queued (m : MxInstr) : State := base.onArray 0 (fun a => { a with queue := [m] })
def drainable : State := (queued dm).onStore 0 (fun t => { t with dcs := [(1, 24)] })

/-- A queued FP16 MMA of one K row into element (0, 0) of a1, whose first step ends. -/
def fm : MxInstr := { base.mxRead 0 (.mma { mw with kcount := 1, af := .fp16, bf := .fp16, cf := .fp32 }) with rowK := 1, colK := 1, num := 1 }

theorem witness_ArrayExecution :
    (∃ (s : State) (m : MxInstr), s.mxHead 0 = some m ∧ m.op = some .mma ∧ m.stepped = false ∧ m.cycle = 0
      ∧ s.begins 0 = true ∧ m.word.cf = .int32 ∧ (s.cluster 0).store.spBad = [] ∧ (s.cluster 0).store.wbBad = []
      ∧ (s.ctx m.core).regs.bad = [] ∧ m.drains m.rep = false ∧ m.nrep ≤ m.rep + 1
      ∧ (stepOp m (s.cluster 0).store (s.ctx m.core).regs m.rep m.cycle none false).2.2 = .done)
    ∧ (∃ (s : State) (m : MxInstr), s.mxHead 0 = some m ∧ m.op = some .mma ∧ m.stepped = false ∧ m.cycle = 0
      ∧ s.begins 0 = true ∧ m.word.cf = .fp32 ∧ (s.cluster 0).store.spBad = [] ∧ (s.cluster 0).store.wbBad = []
      ∧ (s.ctx m.core).regs.bad = [])
    ∧ (∃ (x y z lo hi : ℚ) (a b : FVal) (old : Nat), valNum a = some x ∧ valNum b = some y ∧ patNum .fp32 old = some z
      ∧ Holds .fp32 lo ∧ Holds .fp32 hi ∧ lo ≤ x * y + z ∧ x * y + z ≤ hi)
    ∧ (∃ (m : MxInstr) (w : MWord) (l k : Layout), m.insn = .mma w ∧ w.aKind ≠ 1 ∧ layoutOf w.af = some l ∧ w.bKind = 0
      ∧ layoutOf w.bf = some k)
    ∧ (∃ s : State, (s.cluster 0).array.halt = true)
    ∧ (∃ (s : State) (m : MxInstr), s.mxHead 0 = some m ∧ s.drainsNow 0 m = true ∧ m.nrep ≤ m.rep + 1
      ∧ (runDrainOp m (s.cluster 0).store (s.ctx m.core).regs (s.cluster 0).array.restart (s.cluster 0).array.reading m.rep none).ended = none)
    ∧ (∃ (s : State) (m : MxInstr), s.mxHead 0 = some m ∧ s.drainsNow 0 m = true
      ∧ (runDrainOp m (s.cluster 0).store (s.ctx m.core).regs (s.cluster 0).array.restart (s.cluster 0).array.reading m.rep none).ended
        = some (.fault 7 1)
      ∧ ((s.ctx m.core).timeline .mx).mark = 0)
    ∧ (∃ (s : State) (m : MxInstr) (w : MWord), s.mxHead 0 = some m ∧ m.insn = .mzero w ∧ m.cycle = 0
      ∧ s.begins 0 = true)
    ∧ ∃ st : TeamStore, st.rowOk 7 127 = true :=
  ⟨⟨queued mm, mm, by decide +kernel⟩, ⟨queued fm, fm, by decide +kernel⟩,
    ⟨1, 1, 1, 0, 4, decodeF .fp16 0x3C00, decodeF .fp16 0x3C00, 0x3F800000, by decide +kernel, by decide +kernel, by decide +kernel,
      ⟨0, by decide +kernel, by decide +kernel⟩, ⟨0x40800000, by decide +kernel, by decide +kernel⟩, by norm_num, by norm_num⟩,
    ⟨mm, { mw with kcount := 1 }, .l8, .l8, by decide +kernel⟩, ⟨base.onArray 0 (fun a => { a with halt := true }), by decide +kernel⟩,
    ⟨drainable, dm, by decide +kernel⟩,
    ⟨(queued dm).onStore 0 (fun t => { t with dcs := [(1, 63)] }), dm, by decide +kernel⟩, ⟨queued zm, zm, zw, by decide +kernel⟩,
    ⟨{}, by decide +kernel⟩⟩

/-- One row of the array's tile by row instructions: MLD of an INT8 tile with scales, and MST, ACPY and ACPYIN of element
(0, 0) as BF16 and of (127, 127). -/
def lw : MWord := { MWord.zero with af := .int8, aKind := 1, aTile := 5, aFirst := 20, aSecond := 21 }
def rowWord (k : BitVec 4) : MWord := { MWord.zero with acc := 2, af := .bf16, cf := .fp32, aKind := if k = 1 then 1 else 0, aTile := 6, aFirst := 20, aSecond := 21 }
def rowInsn (i : Instr) : MxInstr := { base.mxRead 0 i with rowK := 1, colK := 1, num := 1 }

theorem witness_RowInstructions :
    (∃ (s : State) (m : MxInstr) (w : MWord) (l : Layout), s.mxHead 0 = some m ∧ m.insn = .mld w ∧ m.cycle = 0 ∧ s.begins 0 = true
      ∧ layoutOf w.af = some l ∧ (s.cluster 0).store.spBad = [])
    ∧ (∃ (s : State) (m : MxInstr) (w : MWord) (side acc n : Nat) (l : List (Nat × Nat)) (st : TeamStore) (place : Nat → Nat → Nat),
      s.mxHead 0 = some m ∧ m.insn = .mst w ∧ m.cycle = 0 ∧ s.begins 0 = true ∧ st = (s.cluster 0).store
      ∧ side = (if w.cf = .fp64 then 64 else 128) ∧ acc = w.acc.toNat ∧ n = fmtBytes w.af ∧ w.af ≠ .raw
      ∧ w.cf ∈ [Fmt.int32, .fp32, .fp64] ∧ l = (activeIn m side side).filter (fun e => st.rowOk acc e.1)
      ∧ place = (fun i j => spPlace m.a1 m.a2 0 i (j * n))
      ∧ (∀ e ∈ l, ∀ f ∈ l, e ≠ f → place e.1 e.2 + n ≤ place f.1 f.2 ∨ place f.1 f.2 + n ≤ place e.1 e.2) ∧ l = [(0, 0)])
    ∧ (∃ (s : State) (m : MxInstr) (w : MWord), s.mxHead 0 = some m ∧ m.insn = .mst w ∧ m.cycle = 0 ∧ s.begins 0 = true
      ∧ (∃ e ∈ activeIn m 128 128, (s.cluster 0).store.rowOk w.acc.toNat e.1 = false) ∧ (s.teamOf m.core).live = true)
    ∧ (∃ (s : State) (m : MxInstr) (w : MWord) (y : Layout), s.mxHead 0 = some m ∧ m.insn = .acpy w ∧ m.cycle = 0 ∧ s.begins 0 = true
      ∧ layoutOf w.af = some y ∧ w.cf ∈ [Fmt.int32, .fp32, .fp64])
    ∧ ∃ (s : State) (m : MxInstr) (w : MWord) (y : Layout), s.mxHead 0 = some m ∧ m.insn = .acpyin w ∧ m.cycle = 0
      ∧ s.begins 0 = true ∧ (s.ctx m.core).regs.bad = [] ∧ layoutOf w.af = some y ∧ w.cf ∈ [Fmt.int32, .fp32, .fp64] :=
  ⟨⟨queued (rowInsn (.mld lw)), rowInsn (.mld lw), lw, .l8, by decide +kernel⟩,
    ⟨queued (rowInsn (.mst (rowWord 1))), rowInsn (.mst (rowWord 1)), rowWord 1, 128, 2, 2, [(0, 0)], _, fun i j => spPlace 0 0 0 i (j * 2),
      by decide +kernel, rfl, by decide +kernel, by decide +kernel, rfl, by decide +kernel, by decide +kernel, by decide +kernel,
      by decide +kernel, by decide +kernel, by decide +kernel, rfl, by decide, rfl⟩,
    ⟨(queued (rowInsn (.mst (rowWord 1)))).onStore 0 (fun t => { t with sums := [(256, 5)] }), rowInsn (.mst (rowWord 1)), rowWord 1,
      by decide +kernel⟩,
    ⟨queued (rowInsn (.acpy (rowWord 0))), rowInsn (.acpy (rowWord 0)), rowWord 0, .l16, by decide +kernel⟩,
    ⟨queued (rowInsn (.acpyin (rowWord 0))), rowInsn (.acpyin (rowWord 0)), rowWord 0, .l16, by decide +kernel⟩⟩

/-! ### Witnesses: matrix instructions -/

/-- A DRUN over element (127, 0) that adds the accumulator to a row vector and stores by `k`: its masks, program, block, row
vector at 0x2000, output at 0x3000, and running values at 0x8000. -/
def dw : MWord := { MWord.zero with acc := 1, acc2 := 2, rowMask := 1, colMask := 2, cf := .fp32, entry := 1, dparam := 10, dmode := 2 }
def drainBase (k : Nat) : State :=
  (withS (base.onCtx 0 (fun c => c.onRegs (fun r => (r.setMask 1 (1#128 <<< 127)).setMask 2 1))) [(10, 0x1000)]).onStore 0 (fun t =>
    ({ t with dcs := [(1, 167937), (2, BitVec.ofNat 32 (k + 4 * 2 ^ 24)), (3, 24)] }).spPut 0x1000
      ((leBytes 4 0x2000) ++ List.replicate 92 0 ++ leBytes 4 0x3000 ++ leBytes 4 512 ++ leBytes 4 4
        ++ leBytes 4 ((if k = 21 then 516 else 0) + 16) ++ leBytes 4 0x8000))
def drainInsn (k : Nat) : MxInstr := { (drainBase k).mxRead 0 (.drun dw) with num := 1 }
def drainRun (k : Nat) : State := (drainBase k).onArray 0 (fun a => { a with queue := [drainInsn k] })

theorem witness_DrainOperations :
    ∀ k ∈ [21, 22, 23], ∃ (s : State) (cl : Nat) (m : MxInstr) (w : MWord) (st : TeamStore) (g : Regs) (off i j op tt : Nat)
      (mw : Parcel) (rren : Bool) (blk : Nat → Nat) (o : Int) (imm : Nat),
    s.mxHead cl = some m ∧ m.insn = .drun w ∧ s.begins cl = true ∧ (s.cluster cl).array.restart.valid = false ∧ m.rep = 0 ∧
    st = (s.cluster cl).store ∧ g = (s.ctx m.core).regs ∧ st.spBad = [] ∧ g.bad = [] ∧
    w.cf ∈ [Fmt.fp32, .fp64, .int32] ∧ (w.cf = .fp32 ∨ Rm.ofCode w.rm ≠ .rs) ∧ m.rows = [i] ∧ m.cols = [j] ∧
    st.rowOk w.acc.toNat i = true ∧ st.rowOk w.acc2.toNat i = true ∧
    mw = st.dcs.get w.entry.toNat ∧ w.entry.toNat + 2 < 512 ∧ op = mw.toNat % 64 ∧ op ≤ 20 ∧ mw.toNat / 64 % 8 = 0 ∧
    imm = mw.toNat / 2 ^ 24 ∧ (micro mw).ok w.cf = true ∧ k ∈ [21, 22, 23] ∧ (k = 23 → w.cf = .fp32) ∧
    st.dcs.get (w.entry.toNat + 1) = BitVec.ofNat 32 (k + 4 * 2 ^ 24) ∧ st.dcs.get (w.entry.toNat + 2) = 24 ∧
    off = m.dparam.toNat % 2 ^ 32 ∧ off % 16 = 0 ∧ off + 128 ≤ 0x800000 ∧ blk = (fun n => leNat (st.spGet (off + 4 * n) 4)) ∧
    tt < 8 ∧ blk 27 = (if k = 21 then 4 else 0) + 16 * tt + 512 * rren.toNat ∧ blk 30 = 0 ∧ blk 31 = 0 ∧
    (k = 22 → g.mTag tt = .raw ∨ g.mTag tt = .fp32) ∧
    (rren = true → blk 28 % 4 = 0 ∧ blk 28 + 1024 ≤ 0x800000) ∧
    (∀ x, 10 ≤ x → x < 18 → x ∈ [mw.toNat / 2 ^ 9 % 32, mw.toNat / 2 ^ 14 % 32, mw.toNat / 2 ^ 19 % 32] →
      blk (x - 10) % 4 = 0 ∧ blk (x - 10) + 512 ≤ 0x800000) ∧
    o = (blk 24 + i * blk 25 : Nat) + (j : Int) * (BitVec.ofNat 32 (blk 26)).toInt ∧
    (k = 21 → 0 ≤ o ∧ o + 4 ≤ 0x800000 ∧ o % 4 = 0 ∧ (rren = true → o + 4 ≤ blk 28 + 8 * i ∨ (blk 28 + 8 * i + 8 : Nat) ≤ o)) ∧ rren = decide (k = 21) := by
  intro k hk
  refine ⟨drainRun k, 0, drainInsn k, dw, ((drainRun k).cluster 0).store, ((drainRun k).ctx 0).regs, 0x1000, 127, 0, 1, 1, 167937,
    decide (k = 21), fun n => leNat (((drainRun k).cluster 0).store.spGet (0x1000 + 4 * n) 4), 0x3000 + 127 * 512, 0, ?_⟩
  simp only [List.mem_cons, List.not_mem_nil, or_false] at hk
  rcases hk with rfl | rfl | rfl
  all_goals
    refine ⟨by decide +kernel, rfl, by decide +kernel, by decide +kernel, rfl, rfl, rfl, by decide +kernel, by decide +kernel,
      by decide, by decide, by decide +kernel, by decide +kernel, by decide +kernel, by decide +kernel, by decide +kernel, by decide,
      by decide, by decide, by decide, by decide, by decide +kernel, by decide, by decide, by decide +kernel, by decide +kernel,
      by decide +kernel, by decide, by decide, rfl, by decide, by decide +kernel, by decide +kernel, by decide +kernel,
      by decide +kernel, by decide +kernel, fun x h1 h2 => ?_, by decide +kernel, by decide +kernel, rfl⟩
    have : ∀ y, y < 8 → (y + 10) ∈ [(167937#32).toNat / 2 ^ 9 % 32, (167937#32).toNat / 2 ^ 14 % 32, (167937#32).toNat / 2 ^ 19 % 32] →
        y = 0 := by decide
    intro hx
    obtain ⟨y, rfl⟩ : ∃ y, x = y + 10 := ⟨x - 10, by omega⟩
    obtain rfl := this y (by omega) hx
    decide +kernel

/-- The array looks at an instruction. -/
def turnB (s : State) (m : MxInstr) : Bool :=
  decide ((s.cluster 0).array.lease.holder = some 0) && decide (m.nrep ≤ (s.cluster 0).array.lease.left)
  && (s.cluster 0).array.queue.isEmpty && decide ((s.cluster 0).array.replay = 0) && !(s.cluster 0).array.halt && s.mcast.isEmpty

theorem mxTurn_of (s : State) (m : MxInstr) (h : turnB s m = true) : mxTurn s 0 m := by
  simp only [turnB, Bool.and_eq_true, decide_eq_true_eq, List.isEmpty_iff, Bool.not_eq_true'] at h
  unfold mxTurn
  simp_all [clusterOf]

/-- MLD of an FP32 tile whose second register has bit 36 set; beyond the scratchpad; off its width. MST of a RAW tile. MMA that
waits for a copy command of number 7. -/
def ldWord : MWord := { MWord.zero with af := .fp32, aKind := 1, aTile := 5, aFirst := 20, aSecond := 21 }
def stWord : MWord := { MWord.zero with acc := 2, af := .fp32, cf := .fp32, aKind := 1, aFirst := 20, aSecond := 21 }
def waitWord : MWord := { mw with ovw := true, kcount := 1, waitCp := 22 }
def refused (first second : Word) : State :=
  (withS leased [(20, first), (21, second), (22, 7)]).onCtx 0 (·.onRegs (fun r => { r with mtag := [(2, .int8), (3, .int8)] }))

/-- The one scratchpad operand of that MLD. -/
def ldUse (a b : Word) : SpUse := ⟨a, b, 21, false, 4, List.range 128, List.range 128, 1⟩

theorem ldUse_of (a b : Word) (h : ((refused a b).mxRead 0 (.mld ldWord)).a1 = a ∧ ((refused a b).mxRead 0 (.mld ldWord)).a2 = b) :
    ((refused a b).mxRead 0 (.mld ldWord)).spUses = [ldUse a b] := by
  show [_] = _
  rw [h.1, h.2]
  rfl

/-- A zero second register leaves no reserved bit, and byte `b` of the operand below `a` + 512. -/
theorem ldUse_reserved (a : Word) (b : Nat) : ¬ spReserved (ldUse a 0) b := by
  rintro ⟨-, h, -⟩
  simp [ldUse] at h

theorem ldUse_inside (o : Nat) : ¬ spOutside (ldUse 2 0) o := by
  rintro ⟨rep, i, k, r, b, hrep, hi, hk, rfl, h, -⟩
  have hb := List.mem_range.mp (List.mem_of_getElem? hk)
  have : spPlace 2 0 rep r b = 2 + b := by
    have e1 : ((2 : Word).extractLsb' 0 32).toNat = 2 := by decide
    have e2 : ((2 : Word).extractLsb' 32 32).toNat = 0 := by decide
    have e3 : ((0 : Word).extractLsb' 0 32).toNat = 0 := by decide
    have e4 : ((0 : Word).extractLsb' 32 4).toNat = 0 := by decide
    simp only [spPlace, e1, e2, e3, e4, Nat.mul_zero, Nat.add_zero]
    omega
  have h' : 0x800000 ≤ spPlace 2 0 rep r b := h
  omega

theorem noTagFails (m : MxInstr) (tags : Map Fmt) (h : (accUses m).all (fun e => e.2 == 2) = true) (n : Nat) : ¬ accFails m tags n := by
  rintro ⟨hn, -, h2⟩
  have := List.all_eq_true.mp h _ (List.getElem_mem hn)
  rw [List.getD_eq_getElem _ _ hn] at h2
  simp_all

theorem witness_MatrixRefusals :
    ∀ e ∈ [(Instr.mst stWord, (0 : Word), (0 : Word)), (.mld ldWord, 0, 2 ^ 36), (.mld ldWord, 0x800000, 0), (.mld ldWord, 2, 0),
        (.mma waitWord, 0, 0)], ∃ x : TrapInfo, (refused e.2.1 e.2.2).breaking.issueMx 0 e.1 = .ok ((refused e.2.1 e.2.2).mxRead 0 e.1)
      ∧ ((refused e.2.1 e.2.2).ctx 0).mx = none ∧ mxTurn (refused e.2.1 e.2.2) 0 ((refused e.2.1 e.2.2).mxRead 0 e.1)
      ∧ mxRefused (refused e.2.1 e.2.2) 0 ((refused e.2.1 e.2.2).mxRead 0 e.1) x := by
  intro e he
  simp only [List.mem_cons, List.not_mem_nil, or_false] at he
  rcases he with rfl | rfl | rfl | rfl | rfl
  · refine ⟨_, by rw [ok_iff]; decide +kernel, by decide +kernel, mxTurn_of _ _ (by decide +kernel),
      .inl ⟨0, ⟨by decide +kernel, by decide +kernel, .inl (by decide +kernel)⟩, fun j h => absurd h (Nat.not_lt_zero j), rfl⟩⟩
  · have hu := ldUse_of 0 (2 ^ 36) (by decide +kernel)
    have h : spReserved (ldUse 0 (2 ^ 36)) 36 := ⟨by decide, by decide +kernel, fun i h1 h2 => by omega⟩
    exact ⟨_, by rw [ok_iff]; decide +kernel, by decide +kernel, mxTurn_of _ _ (by decide +kernel),
      .inr ⟨noTagFails _ _ (by decide +kernel), .inl ⟨ldUse 0 (2 ^ 36), 36,
        ⟨0, by rw [hu]; rfl, ⟨36, by decide, h⟩, fun i _ h => absurd h (Nat.not_lt_zero i)⟩, by decide, h, rfl⟩⟩⟩
  · have hu := ldUse_of 0x800000 0 (by decide +kernel)
    have h : spOutside (ldUse 0x800000 0) 0x800000 :=
      ⟨0, 0, 0, 0, 0, by decide, rfl, rfl, by decide, by decide, fun rep' i' k' r' b' h => by omega⟩
    exact ⟨_, by rw [ok_iff]; decide +kernel, by decide +kernel, mxTurn_of _ _ (by decide +kernel),
      .inr ⟨noTagFails _ _ (by decide +kernel), .inr ⟨by rw [hu]; exact fun u hm b h => ldUse_reserved _ _ (List.mem_singleton.mp hm ▸ h.2),
        .inl ⟨ldUse 0x800000 0, 0x800000, ⟨0, by rw [hu]; rfl, ⟨_, h⟩, fun i _ h => absurd h (Nat.not_lt_zero i)⟩, h, rfl⟩⟩⟩⟩
  · have hu := ldUse_of 2 0 (by decide +kernel)
    have h : spMisaligned (ldUse 2 0) 2 := ⟨rfl, by decide, by decide, .inl ⟨by decide, by decide⟩⟩
    exact ⟨_, by rw [ok_iff]; decide +kernel, by decide +kernel, mxTurn_of _ _ (by decide +kernel),
      .inr ⟨noTagFails _ _ (by decide +kernel), .inr ⟨by rw [hu]; exact fun u hm b h => ldUse_reserved _ _ (List.mem_singleton.mp hm ▸ h.2),
        .inr ⟨by rw [hu]; exact fun u hm o h => ldUse_inside o (List.mem_singleton.mp hm ▸ h),
          .inl ⟨ldUse 2 0, 2, ⟨0, by rw [hu]; rfl, ⟨_, h⟩, fun i _ h => absurd h (Nat.not_lt_zero i)⟩, h, rfl⟩⟩⟩⟩⟩
  · have hu : ((refused 0 0).mxRead 0 (.mma waitWord)).spUses = [] := rfl
    exact ⟨_, by rw [ok_iff]; decide +kernel, by decide +kernel, mxTurn_of _ _ (by decide +kernel),
      .inr ⟨noTagFails _ _ (by decide +kernel), .inr ⟨fun u hm => (List.not_mem_nil (hu ▸ hm)).elim, .inr ⟨fun u hm => (List.not_mem_nil (hu ▸ hm)).elim,
        .inr ⟨fun u hm => (List.not_mem_nil (hu ▸ hm)).elim, .inl ⟨by decide +kernel, rfl⟩⟩⟩⟩⟩⟩

/-- Tile sources with their tags and with another; a SEL of 512; a member that has stopped for its save. -/
theorem witness_MatrixIssue :
    (∃ (s : State) (w : MWord), (s.ctx s.turn).mx = none ∧ s.sttPending s.turn = false ∧ (s.ctx s.turn).regs.bad = []
      ∧ (MWord.tileSrcs .mma w ≠ [] ∧ ∀ e ∈ MWord.tileSrcs .mma w, s.tileTag s.turn e.1 = e.2.1))
    ∧ (∃ (s : State) (w : MWord) (e : Nat × Fmt × Nat), (s.ctx s.turn).mx = none ∧ s.sttPending s.turn = false
      ∧ (s.ctx s.turn).regs.bad = [] ∧ firstIs (MWord.tileSrcs .acpyin w) (fun e => s.tileTag s.turn e.1 ≠ e.2.1) e)
    ∧ (∃ (s : State) (a b : SReg) (n : Nat), (s.ctx s.turn).mx = none ∧ (s.ctx s.turn).ring ≠ .u ∧ rangeIn .memory (s.rs a).toNat 0x82000 = true
      ∧ (s.rs a).toNat % 4096 = 0 ∧ 9 ≤ n ∧ (s.rs b).getLsbD n = true ∧ (∀ j, 9 ≤ j → j < n → (s.rs b).getLsbD j = false))
    ∧ ∃ s : State, s.atSave 0 = true :=
  ⟨⟨refused 0 0, waitWord, by decide +kernel⟩,
    ⟨refused 0 0, { MWord.zero with acc := 2, af := .bf16, cf := .fp32, aTile := 6 }, (6, .bf16, 1), by decide +kernel, by decide +kernel,
      by decide +kernel, 0, rfl, by decide +kernel, fun i _ h => absurd h (Nat.not_lt_zero i)⟩,
    ⟨withS baseD [(1, 4096), (2, 512)], 1, 2, 9, by decide +kernel, by decide +kernel, by decide +kernel, by decide +kernel, by decide,
      by decide +kernel, fun j h1 h2 => by omega⟩,
    ⟨base.onTeam 1 (fun t => { t with swap := true }), by decide +kernel⟩⟩

/-! ### Witnesses: images of the array -/

/-- An instruction of the array that works on physical addresses, at the address 0, for tile 0 and the restart record. -/
def imageInsn (i : Instr) : MxInstr :=
  { insn := i, core := 0, member := 0, rowK := 0, colK := 0, a1 := 0, a2 := 0x101, b1 := 0, b2 := 0, koff := 0, dparam := 0, waitCp := 0,
    waitWs := 0, pasid := physPasid, num := 1 }
def imageState (i : Instr) (m : Memory) : State :=
  (commitBase.onHome (fun h => { h with mem := m })).onArray 0 (fun a => { a with queue := [imageInsn i] })

/-- No line of the image meets an error. -/
theorem image_lines (i : Instr) (m : Memory) (l : Nat) (h : l < 4352) (t : Touch) :
    (imageState i m).lineErr false 1 l t = none := by
  have hs : ∀ n, ((imageState i m).slice n).stopped = false := by
    intro n
    have := get_all {} (fun sl : Slice => !sl.stopped) rfl (imageState i m).slices rfl n
    show Slice.stopped (Map.get {} (imageState i m).slices n) = false
    simpa using this
  have hr : ∀ pa, (imageState i m).home.secure pa = false :=
    fun pa => List.any_eq_false.mpr (fun n _ => by
      have h : (imageState i m).home.regionLo.get n = 0 := rfl
      simp [h])
  unfold State.lineErr
  have hk : decodePA (imageState i m).home.wide (l * 128) = some (bitsOf (l * 128) 12 4, bitsOf (l * 128) 16 5, bitsOf (l * 128) 12 4 / 2) := by
    show decodePA 36 _ = _
    unfold decodePA
    rw [if_pos (by omega)]
  rw [hk]
  simp only [hs, hr]
  rfl

/-- The array's accesses of such an instruction reach every byte of the image. -/
theorem image_puts (i : Instr) (m : Memory) :
    engPuts (imageState i m) ((imageInsn i).agent 0 ((imageState i m).cluster 0).team) 0 0 0x82000 := by
  have h : ((imageInsn i).agent 0 ((imageState i m).cluster 0).team).secure (imageState i m) = false := by
    have h : (imageState i m).home.world = 0 := rfl
    simp [Agent.secure, h]
  refine .inr ⟨by decide, by decide, rfl, fun k hk => ⟨rfl, ?_⟩⟩
  rw [h]
  exact ⟨image_lines i m ((0 + k + 0) / 128) (by omega) _, image_lines i m ((0 + k + 0) / 128) (by omega) _⟩

theorem image_gets (i : Instr) (m : Memory) :
    engGets (imageState i m) ((imageInsn i).agent 0 ((imageState i m).cluster 0).team) 0 0 0x82000 := by
  have h : ((imageInsn i).agent 0 ((imageState i m).cluster 0).team).secure (imageState i m) = false := by
    have h : (imageState i m).home.world = 0 := rfl
    simp [Agent.secure, h]
  refine .inr ⟨by decide, by decide, fun k hk => ⟨rfl, ?_⟩⟩
  rw [h]
  exact image_lines i m ((0 / 8 * 8 + k + 0) / 128) (by omega) _

/-- The first 0xFE0 bytes of an image of no tile, of version `v`, and the memory that holds it with its tag. -/
def headerByte (v : Byte) (k : Nat) : Byte := if k = 0 then v else 0
def emptyTag (v : Byte) : List Byte := leBytes 32 (Config.hmac ((List.range 0xFE0).map (headerByte v))).toNat
def imageMem (v : Byte) : Memory := Memory.setRange (Memory.set [] 0 v) 0xFE0 (emptyTag v)

theorem imageMem_low (v : Byte) (k : Nat) (h : k < 0xFE0) : (imageMem v).get k = headerByte v k := by
  rw [imageMem, Memory.get_setRange_out _ _ _ _ (.inl h), Memory.get_set]
  simp only [headerByte]
  split <;> rfl

theorem imageMem_tag (v : Byte) : (imageMem v).getRange 0xFE0 32 = emptyTag v :=
  Memory.getRange_setRange _ _ (emptyTag v)

theorem leNat_leBytes (n : Nat) : ∀ x, leNat (leBytes n x) = x % 256 ^ n := by
  induction n with
  | zero => intro x; simp [leBytes, leNat, Nat.mod_one]
  | succ n ih =>
    intro x
    rw [leBytes, leNat, ih, BitVec.toNat_ofNat]
    show x % 256 + 256 * (x / 256 % 256 ^ n) = x % (256 ^ n * 256)
    rw [Nat.mul_comm (256 ^ n), Nat.mod_mul]

/-- What the array reads of a memory at the image's place. -/
theorem image_byte (i : Instr) (m : Memory) (k : Nat) (h : k < 0x1000) :
    engByte (imageState i m) ((imageInsn i).agent 0 ((imageState i m).cluster 0).team) 0 ((imageInsn i).a1.toNat + k) = m.get k := by
  have h1 : rangeIn .localSp ((imageInsn i).a1.toNat + k) 1 = false := by
    show rangeIn .localSp (0 + k) 1 = false
    have : spaceOf k = .memory := if_pos (by omega)
    simp [rangeIn, this]
  simp only [engByte, h1, Bool.false_eq_true, if_false]
  show State.viewByte (imageState i m) 1 (0 + k + 0) = _
  rw [Nat.zero_add, Nat.add_zero]
  rfl

theorem getRange_nil (a n : Nat) : Sparse.getRange ([] : Sparse 32) a n = List.replicate n 0 := by
  unfold Sparse.getRange
  induction n generalizing a with
  | zero => rfl
  | succ n ih => rw [Map.getRange, ih, List.replicate_succ]; rfl

/-- A store whose accumulators and checksums are all zero has no bad row. -/
theorem rowOk_empty (t : TeamStore) (ha : t.acc = []) (hs : t.sums = []) (i r : Nat) : t.rowOk i r = true := by
  have h0 : (t.sums.get (i * 128 + r)).toNat = 0 := by rw [hs]; rfl
  have h1 : t.rowSum i r = 0 := by
    rw [TeamStore.rowSum, ha, getRange_nil]
    decide +kernel
  rw [TeamStore.rowOk, h0, h1]
  decide

theorem rowsBad_empty (t : TeamStore) (ha : t.acc = []) (hs : t.sums = []) : t.rowsBad = false := by
  simp [TeamStore.rowsBad, rowOk_empty t ha hs]

theorem witness_ArrayImages :
    (∃ (s : State) (sel : Nat) (m : MxInstr) (a b : SReg) (e : Agent) (st : TeamStore), s.mxHead 0 = some m
      ∧ m.insn = .msave a b ∧ s.begins 0 = true ∧ e = m.agent 0 (s.cluster 0).team ∧ st = (s.cluster 0).store
      ∧ sel = m.a2.toNat % 512 ∧ engPuts s e 0 m.a1.toNat 0x82000 ∧ rangeIn .memory m.a1.toNat 0x82000 = true
      ∧ (∀ t i, t < 8 → sel.testBit t = true → i < 128 → st.rowOk t i = true) ∧ sel = 0x101)
    ∧ ∀ v : Byte, ∃ (s : State) (m : MxInstr) (a b : SReg) (e : Agent) (ib : Nat → Byte), s.mxHead 0 = some m
      ∧ m.insn = .mrstr a b ∧ s.begins 0 = true ∧ e = m.agent 0 (s.cluster 0).team
      ∧ engGets s e 0 m.a1.toNat 0x82000 ∧ rangeIn .memory m.a1.toNat 0x82000 = true
      ∧ ib = (fun k => engByte s e 0 (m.a1.toNat + k))
      ∧ leNat ((List.range 32).map (fun k => ib (0xFE0 + k))) = (Config.hmac ((List.range 0xFE0).map ib
        ++ ((List.range 8).filter (ib 5).getLsbD).flatMap (fun n => (List.range 0x10200).map (fun k => ib (0x1000 + n * 0x10200 + k))))).toNat
      ∧ leNat ((List.range 4).map ib) = v.toNat ∧ ib 4 = 0 ∧ ib 6 = 0 ∧ (ib 7).getLsbD 0 = false := by
  refine ⟨⟨imageState (.msave 1 2) [], 0x101, imageInsn (.msave 1 2), 1, 2, _, {}, by decide +kernel, rfl, by decide +kernel, rfl, rfl,
    by decide, image_puts _ _, by decide, ?_, rfl⟩, fun v => ?_⟩
  · exact fun t i _ _ _ => rowOk_empty {} rfl rfl t i
  have low : ∀ k, k < 0xFE0 → engByte (imageState (.mrstr 1 2) (imageMem v)) ((imageInsn (.mrstr 1 2)).agent 0
      ((imageState (.mrstr 1 2) (imageMem v)).cluster 0).team) 0 ((imageInsn (.mrstr 1 2)).a1.toNat + k) = headerByte v k :=
    fun k hk => (image_byte _ (imageMem v) k (by omega)).trans (imageMem_low v k hk)
  refine ⟨imageState (.mrstr 1 2) (imageMem v), imageInsn (.mrstr 1 2), 1, 2, _, _, rfl, rfl, rfl, rfl, image_gets _ _,
    by decide, rfl, ?_, ?_, low 4 (by decide), low 6 (by decide), ?_⟩
  · rw [low 5 (by decide), List.map_congr_left (fun k hk => low k (List.mem_range.mp hk))]
    have ht : (List.range 32).map (fun k => (imageMem v).get (0xFE0 + k)) = emptyTag v := imageMem_tag v
    rw [List.map_congr_left (fun k hk => image_byte _ (imageMem v) (0xFE0 + k) (by have := List.mem_range.mp hk; omega)), ht]
    have hf : (List.range 8).filter (BitVec.getLsbD (headerByte v 5)) = [] := by
      show (List.range 8).filter (BitVec.getLsbD (0 : Byte)) = []
      decide
    rw [hf, List.flatMap_nil, List.append_nil, emptyTag, leNat_leBytes]
    exact Nat.mod_eq_of_lt (BitVec.isLt _)
  · rw [List.map_congr_left (fun k hk => low k (by have := List.mem_range.mp hk; omega))]
    show leNat [headerByte v 0, headerByte v 1, headerByte v 2, headerByte v 3] = _
    simp [leNat, headerByte]
  · rw [low 7 (by decide)]
    show (0 : Byte).getLsbD 0 = false
    decide

/-! ### Witnesses: tasks, mailboxes, supersteps -/

/-- A VF on slice 0 with a launch ring at 0x1000, a time-triggered table at 0x1800 and queues of 64. -/
def vf0 : Vf := { desc := [(1, 0x1000), (2, 0x100000010), (3, 0x1800), (6, 64), (9, 16)], allot := 1 }
def vfBase : State := base.onVf 0 (fun _ => vf0)
def vfCommit : State := commitBase.onVf 0 (fun _ => vf0)

/-- A ready record of priority 0 in the VF's queue. -/
def waiting (s : State) : State := s.onSlice 0 (fun sl => sl.setQueue 0 [{ record := List.replicate 32 0 }])

/-- The same VF with its backing rings at 0x0, in the page that the driver's PASID 0 has translated. -/
theorem witness_SpawnWritesRing :
    ∃ (s : State) (k n sl at_ : Nat) (r : List Byte), s = vfCommit ∧ n = 0 ∧ r = s.view 1 0 32
      ∧ k = qkey (s.teamOf s.turn).vf (recPrio r) (recQueue r) ∧ sl = Map.get 0 (s.slice n).qtail k
      ∧ ((s.slice n).queue k).length < (s.vfOf s.turn).qsize ∧ (s.vfOf s.turn).logQ = []
      ∧ s.translate (.log (s.teamOf s.turn).vf) (s.vfOf s.turn).logSlice (s.vfOf s.turn).driverPasid
        ((s.vfOf s.turn).ringAt n k sl) true = .ok at_ ∧ (s.vfOf s.turn).ringAt n k sl % 4096 + 32 ≤ 4096
      ∧ ∀ i, i < 32 → s.lineErr (s.secureSlice (s.vfOf s.turn).logSlice) 0 ((at_ + i) / 128) .part = none := by
  refine ⟨vfCommit, 0, 0, 0, 0, _, rfl, rfl, rfl, by decide +kernel, by decide +kernel, by decide +kernel, by decide +kernel, ?_,
    by decide +kernel, by decide +kernel⟩
  rfl

theorem witness_TaskInstructions :
    (∃ s : State, (s.teamOf s.turn).resident = true ∨ s.recordWaits (s.core s.turn).team = false)
    ∧ (∃ s : State, (s.teamOf s.turn).resident = false ∧ s.recordWaits (s.core s.turn).team = true)
    ∧ (∀ s ∈ [vfBase, vfCommit], ∃ (a b : SReg) (n pa : Nat) (r : List Byte), rangeIn .memory (s.rs a).toNat 32 = true
      ∧ (s.rs a).toNat % 32 = 0 ∧ (s.rs b).toNat < 16
      ∧ n = (if (s.rs b).toNat.testBit 3 then (s.rs b).toNat % 8 else sliceOf s.turn)
      ∧ (s.vfOf s.turn).allot.getLsbD n = true ∧ s.breaking.tr s.turn (s.rs a).toNat false 1 = .ok pa
      ∧ (s.core s.turn).linesIn (s.pasidOf s.turn true) ((s.rs a).toNat / 128) ((s.rs a).toNat / 128) = []
      ∧ s.lineErr (s.secureCore s.turn) (s.core s.turn).team (pa / 128) .read = none
      ∧ r = s.view (s.core s.turn).team pa 32 ∧ recBad r = none ∧ (s.team (s.core s.turn).team).live = true
      ∧ s.overflows (s.core s.turn).team none = false ∧ (s.team (s.core s.turn).team).pushes.length < 64
      ∧ ((s.slice n).queue (qkey (s.teamOf s.turn).vf (recPrio r) (recQueue r))).length < (s.vfOf s.turn).qsize)
    ∧ (vfBase.team 1).committed = false ∧ (vfCommit.team 1).committed = true
    ∧ ∀ s ∈ [vfBase, withMem vfCommit 16 [2]], ∃ (a b : SReg) (n pa : Nat), rangeIn .memory (s.rs a).toNat 32 = true
      ∧ (s.rs a).toNat % 32 = 0 ∧ (s.rs b).toNat < 16
      ∧ n = (if (s.rs b).toNat.testBit 3 then (s.rs b).toNat % 8 else sliceOf s.turn)
      ∧ (s.vfOf s.turn).allot.getLsbD n = true ∧ s.breaking.tr s.turn (s.rs a).toNat true 3 = .ok pa
      ∧ s.lineErr (s.secureCore s.turn) 0 (pa / 128) .part ≠ some .abort ∧ (s.team (s.core s.turn).team).live = true
      ∧ s.overflows (s.core s.turn).team none = false ∧ (s.team (s.core s.turn).team).pushes.length < 64
      ∧ s.lineErr true 0 ((pa + 16) / 128) .read = none
      ∧ ((s.team (s.core s.turn).team).committed = true → 1 < s.peekNat (pa + 16) 4) := by
  refine ⟨⟨base, by decide +kernel⟩, ⟨waiting base, by decide +kernel⟩, fun s hs => ⟨0, 0, 0, 0, List.replicate 32 0, ?_⟩,
    by decide +kernel, by decide +kernel, fun s hs => ⟨0, 0, 0, 0, ?_⟩⟩ <;>
  · simp only [List.mem_cons, List.not_mem_nil, or_false] at hs
    simp only [ok_iff]
    rcases hs with rfl | rfl <;> decide +kernel

/-- A resident VF with its third doorbell bit set. -/
def resident (s : State) : State := s.onVf 0 (fun v => { v with resident := true, doorbell := 8 })

theorem witness_ExitAndMailboxes :
    (∃ (s : State) (tl : TL), (s.ctx s.turn).firstFault = some tl)
    ∧ (∃ s : State, (s.ctx s.turn).firstFault = none ∧ 1 < (s.team (s.core s.turn).team).size ∧ (s.ctx s.turn).cbar = 0)
    ∧ (∃ s : State, (s.ctx s.turn).firstFault = none ∧ (s.team (s.core s.turn).team).size ≤ 1 ∧ (s.ctx s.turn).quiet = false)
    ∧ (∃ s : State, (s.ctx s.turn).firstFault = none ∧ (s.ctx s.turn).cbar ≠ 0 ∧ (s.ctx s.turn).quiet = true
      ∧ (s.core s.turn).l1 = [] ∧ (s.team (s.core s.turn).team).consumed = false
      ∧ ∃ k ∈ (s.team (s.core s.turn).team).coreList, k ≠ s.turn ∧ (s.memberCtx k (s.core s.turn).team).exited = false
        ∧ (s.memberCtx k (s.core s.turn).team).coop = false)
    ∧ (∃ s : State, (s.ctx s.turn).firstFault = none ∧ (s.ctx s.turn).cbar ≠ 0 ∧ (s.ctx s.turn).quiet = true
      ∧ (s.core s.turn).l1 = [] ∧ (s.team (s.core s.turn).team).consumed = false
      ∧ ∃ k ∈ (s.team (s.core s.turn).team).coreList, k ≠ s.turn ∧ (s.memberCtx k (s.core s.turn).team).exited = false
        ∧ (s.memberCtx k (s.core s.turn).team).coop = true)
    ∧ (∃ (s : State) (id : Nat), id = (s.core s.turn).team ∧ (s.ctx s.turn).firstFault = none ∧ (s.ctx s.turn).quiet = true
      ∧ (s.core s.turn).l1 = [] ∧ (s.team id).size = 1 ∧ (s.team id).cluster = some (clusterOf s.turn)
      ∧ s.turn = 4 * clusterOf s.turn ∧ (s.team id).live = true ∧ (s.team id).committed = true ∧ (s.team id).consumed = false
      ∧ recRetlog (s.team id).record = false ∧ (s.team id).tt = none ∧ (s.vf (s.team id).vf).ttDone = [])
    ∧ (∃ (s : State) (a : SReg), s.rs a ≠ 0 ∧ (s.vfOf s.turn).resident = false)
    ∧ (∃ (s : State) (a : SReg), s.rs a ≠ 0 ∧ (s.vfOf s.turn).resident = true ∧ (s.vfOf s.turn).doorbell &&& s.rs a = 0)
    ∧ (∃ (s : State) (a : SReg) (i pa : Nat), (s.vfOf s.turn).resident = true ∧ i < 64
      ∧ ((s.vfOf s.turn).doorbell &&& s.rs a).getLsbD i = true
      ∧ (∀ j, j < i → ((s.vfOf s.turn).doorbell &&& s.rs a).getLsbD j = false)
      ∧ s.breaking.mailTr s.turn ((s.vfOf s.turn).word 4 + 256 * i) false = .ok pa ∧ (s.core s.turn).mailLines pa = []
      ∧ s.lineErr (s.secureCore s.turn) (s.core s.turn).team (pa / 128) .read = none)
    ∧ (∃ (s : State) (a : SReg), 64 ≤ (s.rs a).toNat)
    ∧ (∃ (s : State) (a : SReg), (s.rs a).toNat < 64 ∧ (s.vfOf s.turn).resident = false)
    ∧ ∃ (s : State) (a : SReg) (pa : Nat), (s.rs a).toNat < 64 ∧ (s.vfOf s.turn).resident = true
      ∧ s.breaking.mailTr s.turn ((s.vfOf s.turn).word 4 + 256 * (s.rs a).toNat) true = .ok pa
      ∧ (s.team (s.core s.turn).team).committed = true ∧ (s.core s.turn).mailLines pa = [] ∧ s.fenceDone s.turn .module = true
      ∧ s.lineErr (s.secureCore s.turn) (s.core s.turn).team (pa / 128) .part = none := by
  refine ⟨⟨withTl base .mx 1 1 1, .mx, by decide +kernel⟩, ⟨pair, by decide +kernel⟩, ⟨withTl base .mx 1 0 0, by decide +kernel⟩,
    ⟨pair.onCtx 0 (fun c => { c with cbar := 1 }), by decide +kernel⟩,
    ⟨(pair.onCtx 0 (fun c => { c with cbar := 1 })).onCtx 1 (fun c => { c with coop := true }), by decide +kernel⟩,
    ⟨commitBase, 1, by decide +kernel⟩,
    ⟨withS base [(1, 1)], 1, by decide +kernel⟩, ⟨resident (withS base [(1, 1)]), 1, by decide +kernel⟩,
    ⟨resident (withS base [(1, 8)]), 1, 3, 768, ?_⟩, ⟨withS base [(1, 64)], 1, by decide +kernel⟩, ⟨base, 0, by decide +kernel⟩,
    ⟨resident (withS commitBase [(1, 3)]), 1, 768, ?_⟩⟩ <;> simp only [ok_iff] <;> decide +kernel

/-- A step group of two ranks on chips 0 (this module) and 1, with window 0 open on the first 4 KiB. -/
def grp : StepGroup :=
  { rank := 0, nrank := 2, quorum := 2, sbsize := 8192, quota := 8192, ranks := [(0, 0x80000000), (1, 0x80000001)]
    wins := leBytes 8 0 ++ leBytes 8 4096 ++ [8] }
def withGrp (s : State) (g : StepGroup) : State := s.onVf 0 (fun v => { v with sg := some g })

/-- An FXPUT of four scratchpad bytes to rank 1, window 0, offset 0, with its group in s20 to s23. -/
def putCmd : EngCmd := { num := 1, kind := .fxput, g0 := 0x400000000000, g1 := 0xFFFFFFF000000000, g2 := 4, g3 := 0, pasid := 0, gtag := 0 }
def putState (s : State) : State := withS s [(20, 0x400000000000), (21, 0xFFFFFFF000000000), (22, 4)]

/-- That FXPUT's fields are those that a fabric command needs, in the group. -/
theorem putCmd_ok : fxFieldsOk grp false putCmd := by
  refine ⟨by decide, by decide +kernel, ⟨_, rfl, by decide +kernel, by decide +kernel, by decide +kernel, by decide +kernel, by decide +kernel⟩, by decide,
    fun _ => by decide, by decide, fun _ => by decide, by decide, by decide⟩

/-- The same with a reserved bit set. -/
theorem putCmd_bad : ¬ fxFieldsOk grp false { putCmd with g3 := 0x4000000000 } :=
  fun h => absurd h.2.2.2.2.2.2.2.2 (by decide)

theorem witness_FabricCommands :
    (∀ x ∈ [0xFFFFFFF000000000, 0x8000000000000000], ∃ (s : State) (a : SReg) (c : EngCmd), c.kind = .fxput
      ∧ c.g0 = s.rs (sregAdd a 0) ∧ c.g1 = s.rs (sregAdd a 1) ∧ c.g1.toNat = x ∧ c.g2 = s.rs (sregAdd a 2)
      ∧ c.g3 = s.rs (sregAdd a 3) ∧ (s.vfOf s.turn).sg = some grp ∧ fxFieldsOk grp false c
      ∧ ((s.ctx s.turn).queue 3).length < 16 ∧ (s.team (s.core s.turn).team).committed = true)
    ∧ engineMayUse 0xFFFFFFF000000000 4 ∧ ¬ engineMayUse 0x8000000000000000 4
    ∧ (∃ s : State, (s.vfOf s.turn).sg = none) := by
  refine ⟨fun x hx => ⟨withS (withGrp commitBase grp) [(20, 0x400000000000), (21, BitVec.ofNat 64 x), (22, 4)], 20,
    { putCmd with g1 := BitVec.ofNat 64 x }, ?_⟩, .inr (by decide), by rintro (h | h) <;> exact absurd h (by decide), base, by decide +kernel⟩
  simp only [List.mem_cons, List.not_mem_nil, or_false] at hx
  rcases hx with rfl | rfl <;>
    and_intros <;> first | exact putCmd_ok | decide +kernel

theorem witness_SuperstepInstructions :
    (∃ s : State, (s.vfOf s.turn).sg = none ∧ (s.ctx s.turn).stepWait = none)
    ∧ (∃ (s : State) (g : StepGroup) (n : Nat), (s.vfOf s.turn).sg = some g ∧ n = (s.ctx s.turn).curStep ∧ n < g.step ∧ g.held = false)
    ∧ (∃ (s : State) (g : StepGroup) (n : Nat), (s.vfOf s.turn).sg = some g ∧ n = (s.ctx s.turn).curStep ∧ n = g.step
      ∧ g.held = false ∧ g.bst = .opened ∧ g.arrived + 1 < g.quorum ∧ (s.ctx s.turn).stepWait = none)
    ∧ (∃ (s : State) (g : StepGroup) (n : Nat), (s.vfOf s.turn).sg = some g ∧ n = (s.ctx s.turn).curStep ∧ g.step < n
      ∧ (s.ctx s.turn).stepWait = none)
    ∧ (∃ (s : State) (g : StepGroup) (m : Nat), (s.vfOf s.turn).sg = some g ∧ (s.ctx s.turn).stepWait = some m ∧ m < g.step)
    ∧ (∃ (s : State) (g : StepGroup) (m : Nat), (s.vfOf s.turn).sg = some g ∧ (s.ctx s.turn).stepWait = some m ∧ g.step ≤ m)
    ∧ (∃ (s : State) (a : SReg), (s.ctx s.turn).curStep ≤ (s.rs a).toNat)
    ∧ (∃ (s : State) (a : SReg) (g : StepGroup), (s.vfOf s.turn).sg = some g ∧ (s.rs a).toNat < (s.ctx s.turn).curStep
      ∧ (s.rs a).toNat < g.step)
    ∧ (∃ (s : State) (a : SReg) (g : StepGroup), (s.vfOf s.turn).sg = some g ∧ (s.rs a).toNat < (s.ctx s.turn).curStep
      ∧ g.step ≤ (s.rs a).toNat)
    ∧ (∃ (s : State) (a : SReg), (s.vfOf s.turn).sg = none ∧ (s.rs a).toNat < (s.ctx s.turn).curStep)
    ∧ (∃ (s : State) (g : StepGroup), (s.vfOf s.turn).sg = some g ∧ g.held = true)
    ∧ (∀ n ∈ [0, 1, 2, 3, 4], ∃ (s : State) (a : SReg) (g : StepGroup), s.rs a = BitVec.ofNat 64 n ∧ (s.vfOf s.turn).sg = some g)
    ∧ (∀ n ∈ [1, 2, 3, 4], ∃ (s : State) (a : SReg), (s.rs a).toNat = n ∧ (s.vfOf s.turn).sg = none)
    ∧ (∀ n ∈ [5, 6, 7, 8], ∃ (s : State) (a : SReg), (s.rs a).toNat = n)
    ∧ (∀ n ∈ [0x170, 0x171, 0x172, 0x173, 0x174, 0x175, 0x27F], ∃ (s : State) (a : SReg), (s.rs a).toNat = n
      ∧ (s.ctx s.turn).ring ≠ .u)
    ∧ (∀ n ∈ [0x100, 0x175, 0x200], ∃ (s : State) (a : SReg), (s.rs a).toNat = n ∧ (s.ctx s.turn).ring = .u)
    ∧ ∀ n ∈ [0x176, 0x17F, 9, 0xFF, 0x180, 0x1FF, 0x280], ∃ (s : State) (a : SReg), (s.rs a).toNat = n := by
  let step1 (s : State) : State := s.onCtx 0 (fun c => { c with curStep := 1 })
  let inStep (s : State) : State := s.onCtx 0 (fun c => { c with curStep := 1, steps := [⟨.u, 0x400, 0⟩] })
  refine ⟨⟨base, by decide +kernel⟩,
    ⟨withGrp base { grp with step := 1 }, _, 0, rfl, by decide +kernel⟩, ⟨withGrp base grp, _, 0, rfl, by decide +kernel⟩,
    ⟨step1 (withGrp base grp), _, 1, rfl, by decide +kernel⟩,
    ⟨inStep (withGrp base { grp with step := 1 }), _, 0, rfl, by decide +kernel⟩, ⟨inStep (withGrp base grp), _, 0, rfl, by decide +kernel⟩,
    ⟨base, 0, by decide +kernel⟩, ⟨step1 (withGrp base { grp with step := 1 }), 0, _, rfl, by decide +kernel⟩,
    ⟨step1 (withGrp base grp), 0, _, rfl, by decide +kernel⟩, ⟨step1 base, 0, by decide +kernel⟩,
    ⟨withGrp base { grp with held := true }, _, rfl, rfl⟩,
    fun n hn => ⟨withGrp (withS base [(1, BitVec.ofNat 64 n)]) grp, 1, grp, ?_⟩,
    fun n hn => ⟨withS base [(1, BitVec.ofNat 64 n)], 1, ?_⟩, fun n hn => ⟨withS base [(1, BitVec.ofNat 64 n)], 1, ?_⟩,
    fun n hn => ⟨withS baseD [(1, BitVec.ofNat 64 n)], 1, ?_⟩, fun n hn => ⟨withS base [(1, BitVec.ofNat 64 n)], 1, ?_⟩,
    fun n hn => ⟨withS base [(1, BitVec.ofNat 64 n)], 1, ?_⟩⟩
  all_goals
    simp only [List.mem_cons, List.not_mem_nil, or_false] at hn
    rcases hn with rfl | rfl | rfl | rfl | rfl | rfl | rfl <;> decide +kernel

/-! ### Witnesses: events -/

/-- A read request for page 2, before or after its page request. -/
def asked (pri again : Bool) : State := base.onSlice 0 (fun sl => { sl with ats := [⟨0, 2, false, pri, again, false, [.core 0]⟩] })

theorem witness_TranslationEvents :
    (∃ (s : State) (q : AtsReq), (s.slice 0).ats.find? (fun q => q.same 0 2 false && !q.pri) = some q ∧ q.again = false
      ∧ (s.slice 0).priOff.contains 0 = false)
    ∧ (∃ (s : State) (q : AtsReq), (s.slice 0).ats.find? (fun q => q.same 0 2 false && !q.pri) = some q ∧ q.again = true)
    ∧ (∃ (s : State) (q : AtsReq), (s.slice 0).ats.find? (fun q => q.same 0 2 false && q.pri) = some q)
    ∧ (∃ s : State, ∀ k, (s.core k).l1 = [])
    ∧ (∃ s : State, s.mayWrite .host 0 = true) ∧ ∃ s : State, s.mayWrite .host 0 = false :=
  ⟨⟨asked false false, _, rfl, by decide +kernel⟩, ⟨asked false true, _, rfl, by decide +kernel⟩, ⟨asked true false, _, rfl⟩,
    ⟨base, noLines base (by decide +kernel)⟩, ⟨base, by decide +kernel⟩, ⟨base.onHome (fun h => { h with world := 1 }), by decide +kernel⟩⟩

/-- Line 0 where the argument says. -/
def placed (p : Place) : State := base.onHome (fun h => { h with place := [(0, p)] })

theorem witness_MemoryEvents :
    (∃ (s : State) (pa : Nat), (decodePA s.home.wide pa).isSome = true ∧ s.home.placeOf (pa / 128) = .dram
      ∧ s.home.isWithheld (pa / 128) = false)
    ∧ (∃ (s : State) (pa : Nat), (decodePA s.home.wide pa).isSome = true ∧ s.home.placeOf (pa / 128) = .dram
      ∧ s.home.isWithheld (pa / 128) = true)
    ∧ (∃ (s : State) (pa : Nat) (d : Bool), (decodePA s.home.wide pa).isSome = true ∧ s.home.placeOf (pa / 128) = .msc d
      ∧ s.home.isWithheld (pa / 128) = false)
    ∧ (∃ (s : State) (pa : Nat), (decodePA s.home.wide pa).isSome = true ∧ s.home.placeOf (pa / 128) = .msc false)
    ∧ (∃ (s : State) (line : Nat) (d : Bool), s.home.placeOf line = .l2 d
      ∧ (s.teams.any (fun e => e.2.live && e.2.stages line)) = false)
    ∧ (∀ p ∈ [Place.msc true, .wq, .l2 true], ∃ (s : State) (st ch sl : Nat), s.home.placeOf 0 = p
      ∧ decodePA s.home.wide (0 * 128) = some (st, ch, sl) ∧ (Map.get [] s.home.withheld st).length < 256 ∧ s.mgmt.errbase = 0
      ∧ (s.teams.any (fun e => e.2.live && e.2.stages 0)) = false)
    ∧ (∃ (s : State) (pa : Nat) (data : List Byte), data ≠ [] ∧ (pa + data.length - 1) / 128 = pa / 128
      ∧ (s.team 0).live = false ∧ s.lineErr false 0 (pa / 128) (if 128 ≤ data.length then .full else .part) = none)
    ∧ (∃ (s : State) (pa : Nat) (data : List Byte), data ≠ [] ∧ (pa + data.length - 1) / 128 = pa / 128
      ∧ (s.team 0).live = false ∧ s.lineErr false 0 (pa / 128) (if 128 ≤ data.length then .full else .part) = some .abort)
    ∧ (∃ (s : State) (pa : Nat) (data : List Byte), data.length = 128 ∧ (pa + data.length - 1) / 128 = pa / 128
      ∧ (s.team 0).live = false ∧ s.lineErr false 0 (pa / 128) .full = none ∧ s.home.isWithheld (pa / 128) = true)
    ∧ (∃ (s : State) (pa n : Nat), s.readErr false 0 pa n = none)
    ∧ (∃ (s : State) (pa n l : Nat), s.readErr false 0 pa n = some (l, .abort))
    ∧ (∃ s : State, s.home.splitLock = true) ∧ (∃ s : State, s.mayWrite .host 24 = false)
    ∧ ∃ (s : State) (a : Nat) (c : Nat × Nat), s.home.splitLock = false ∧ s.mayWrite .host 24 = true ∧ s.memOk = true ∧ s.home.wide ≤ 36
      ∧ (∀ e ∈ s.home.mem, (cellOf s.home.wide e.1).isSome = true) ∧ cellOf s.home.wide a = some c ∧ s.home.mem.get a = 5 := by
  refine ⟨⟨base, 0, by decide +kernel⟩, ⟨base.onHome (fun h => { h with withheld := [(0, [0])] }), 0, by decide +kernel⟩,
    ⟨placed (.msc true), 0, true, by decide +kernel⟩, ⟨placed (.msc false), 0, by decide +kernel⟩,
    ⟨placed (.l2 true), 0, true, by decide +kernel⟩, fun p hp => ?_, ⟨base, 127, [1], by decide +kernel⟩,
    ⟨base, 2 ^ 60, [1], by decide +kernel⟩,
    ⟨base.onHome (fun h => { h with withheld := [(0, [0])] }), 0, List.replicate 128 1, by decide +kernel⟩, ⟨base, 0, 4, by decide +kernel⟩, ⟨base, 2 ^ 60, 4, 2 ^ 53, by decide +kernel⟩,
    ⟨base.onHome (fun h => { h with splitLock := true }), by decide +kernel⟩,
    ⟨base.onHome (fun h => { h with world := 0x1000000 }), by decide +kernel⟩,
    ⟨withMem base (576 * 2 ^ 30 - 1) [5], 576 * 2 ^ 30 - 1, (15, 36 * 2 ^ 30 - 1), by decide +kernel⟩⟩
  refine ⟨placed p, 0, 0, 0, ?_⟩
  simp only [List.mem_cons, List.not_mem_nil, or_false] at hp
  rcases hp with rfl | rfl | rfl <;> decide +kernel

/-- The ring holds one record, of zeros, at 0x1080; entry 0 of the table is due, or not, with a period of 5. -/
def ringed (now : Word) (flags : Byte) : State :=
  { withMem (withMem vfBase 0x1000 [1]) 0x1800 (leBytes 8 1 ++ leBytes 8 5 ++ leBytes 8 0x1080 ++ [flags]) with
    teams := [], time := { ptpns := now } }
def ringHead : State × List Byte := okOr (base, []) ((ringed 1 1).dispRead 0 0x1000 16)
def ringRec : State × List Byte := okOr (base, []) (ringHead.1.dispRead 0 0x1080 32)
def pushedState (r : Ringed) : State :=
  match r with
  | .empty w => w
  | .pushed w => w
  | .stop w => w
def isPushed (r : Ringed) : Bool :=
  match r with
  | .pushed _ => true
  | _ => false
def isEmpty (r : Ringed) : Bool :=
  match r with
  | .empty _ => true
  | _ => false
theorem pushed_of (r : Ringed) (h : isPushed r = true) : r = .pushed (pushedState r) := by cases r <;> simp_all [isPushed, pushedState]
theorem empty_of (r : Ringed) (h : isEmpty r = true) : r = .empty (pushedState r) := by cases r <;> simp_all [isEmpty, pushedState]

theorem witness_DispatchRing :
    (ringed 1 1).dispRead 0 (((ringed 1 1).vf 0).word 1) 16 = .ok ringHead
    ∧ (leNat (ringHead.2.take 8) + 2 ^ 64 - leNat (ringHead.2.drop 8)) % 2 ^ 64 = 1
    ∧ ((ringed 1 1).vf 0).word 2 % 2 ^ 32 = 16 ∧ ((ringed 1 1).vf 0).launchSlice = some (0, 1)
    ∧ ringHead.1.dispRead 0 (((ringed 1 1).vf 0).word 1 + 128 + leNat (ringHead.2.drop 8) % 16 * 32) 32 = .ok ringRec
    ∧ isOkOf (ringRec.1.dispPlace 0 (0x1000 + 8)) 0x1008 = true ∧ recBad ringRec.2 = none
    ∧ (((ringed 1 1).slice 0).queue (qkey 0 (recPrio ringRec.2) (recQueue ringRec.2))).length < ((ringed 1 1).vf 0).qsize :=
  ⟨ok_of_isOk (base, []) _ (by decide +kernel), by decide +kernel, by decide +kernel, by decide +kernel,
    ok_of_isOk (base, []) _ (by decide +kernel), by decide +kernel, by decide +kernel, by decide +kernel⟩

/-- The doorbell: a resident VF, an invalid descriptor, a parked ring, an empty ring, and one record. -/
theorem witness_DispatchDoorbell :
    (∃ s u : State, u = (((s.wakeVf 0).onVf 0 (fun v => { v with rung := true })).settleMode 0).ttSettle 0
      ∧ (u.vf 0).resident = true)
    ∧ (∃ s u : State, u = (((s.wakeVf 0).onVf 0 (fun v => { v with rung := true })).settleMode 0).ttSettle 0
      ∧ (u.vf 0).resident = false ∧ (u.vf 0).descOk = false)
    ∧ (∃ s u : State, u = (((s.wakeVf 0).onVf 0 (fun v => { v with rung := true })).settleMode 0).ttSettle 0
      ∧ (u.vf 0).resident = false ∧ u.launchParked 0 = true)
    ∧ (∃ s u w : State, u = (((s.wakeVf 0).onVf 0 (fun v => { v with rung := true })).settleMode 0).ttSettle 0
      ∧ (u.vf 0).resident = false ∧ (u.vf 0).descOk = true ∧ u.launchParked 0 = false ∧ u.ringNext 0 = .empty w)
    ∧ ∃ s u w x : State, u = (((s.wakeVf 0).onVf 0 (fun v => { v with rung := true })).settleMode 0).ttSettle 0
      ∧ (u.vf 0).resident = false ∧ (u.vf 0).descOk = true ∧ u.launchParked 0 = false ∧ u.ringNext 0 = .pushed w
      ∧ (w.onVf 0 (fun v => { v with lstate := 0, lreason := 0 })).ringNext 0 = .empty x :=
  ⟨⟨resident vfBase, _, rfl, by decide +kernel⟩, ⟨base, _, rfl, by decide +kernel⟩,
    ⟨vfBase.onSlice 0 (fun sl => { sl with ats := [⟨0, 1, false, false, false, false, [.launch 0]⟩] }), _, rfl, by decide +kernel⟩,
    ⟨vfBase, _, _, rfl, by decide +kernel, by decide +kernel, by decide +kernel, empty_of _ (by decide +kernel)⟩,
    ⟨ringed 1 1, _, _, _, rfl, by decide +kernel, by decide +kernel, by decide +kernel, pushed_of _ (by decide +kernel), empty_of _ (by decide +kernel)⟩⟩

/-- The table's entry: due and free, due and invalid, not due. -/
theorem witness_DispatchTable :
    ∀ e ∈ [((1 : Word), (1 : Byte)), (1, 0), (0xFFFFFFFF, 1)],
      ∃ (s u : State) (u1 u2 : State × List Byte), s = ringed e.1 e.2 ∧ u = (s.settleMode 0).ttSettle 0 ∧ (u.vf 0).resident = false
      ∧ (u.vf 0).descOk = true ∧ (u.vf 0).word 3 ≠ 0 ∧ u.time.ptpns ≠ 0 ∧ (u.vf 0).lstate ≠ 2 ∧ u.launchParked 0 = false
      ∧ u.dispRead 0 ((u.vf 0).word 3 + 32 * 0) 32 = .ok u1 ∧ isOkOf (u1.1.dispPlace 0 ((u.vf 0).word 3 + 32 * 0)) 0x1800 = true
      ∧ u1.2.length = 32 ∧ u1.1.dispRead 0 (leNat ((u1.2.drop 16).take 8)) 32 = .ok u2 ∧ recBad u2.2 = none
      ∧ ((u.slice 0).queue (qkey 0 (recPrio u2.2) (recQueue u2.2))).length < (u.vf 0).qsize := by
  intro e he
  simp only [List.mem_cons, List.not_mem_nil, or_false] at he
  rcases he with rfl | rfl | rfl <;>
    exact ⟨_, _, _, _, rfl, rfl, by decide +kernel, by decide +kernel, by decide +kernel, by decide +kernel, by decide +kernel, by decide +kernel,
      ok_of_isOk (base, []) _ (by decide +kernel), by decide +kernel, by decide +kernel,
      ok_of_isOk (base, []) _ (by decide +kernel), by decide +kernel, by decide +kernel⟩

/-- A ready record and an idle cluster of slice 0. -/
def idle : State := waiting { vfBase with clusters := [], teams := [], cores := [] }

/-- A team of one saved with nonce 7 in the block of entry 0 of the swap table at 0x2000, and its handle in the queue. -/
def savedOne : Saved :=
  { ctxs := [{ pc := 0x400, pdoneD := some 5 }], store := {}, queue := [], seen := [], stop := {}, restart := {}, reading := none, overrun := false
    frozen := false, block := some 0x100000, nonce := 7, image := Memory.setRange [] nonceAt [7] }
def teamOne : Team := { live := true, record := List.replicate 32 0, saved := some savedOne }
def tableOne : Memory := Memory.setRange [] 0x2000 (leBytes 8 0x100000 ++ leBytes 8 0 ++ [0x80] ++ List.replicate 7 0 ++ [7])
def swapped : State :=
  ({ idle with teams := [(1, teamOne)] }.onHome (fun h => { h with
    mem := tableOne ++ Memory.placed savedOne.image 0x100000 })).onSlice 0 (fun sl =>
      { sl.setQueue 0 [{ record := handleEntry 0 0 }] with swapBase := 0x2000, swapLen := 1, swaps := [(0, 1)] })

/-- The block of the saved team passes its check. -/
theorem swapped_block_good (s : State) (sec : Bool) (hm : s.home.mem = tableOne ++ Memory.placed savedOne.image 0x100000)
    (open_ : s.guarded = false) (lost : s.home.dramBad ++ s.home.mscBad ++ s.home.withheld.flatMap (·.2) = []) :
    s.blockBad sec savedOne (some 0x100000) = none :=
  State.blockBad_of_placed s sec savedOne 0x100000 tableOne hm (by decide +kernel) open_ lost

theorem savedBad_good (s : State) (team : Nat) (b : Saved) (block : Option Nat) (hs : (s.team team).saved = some b)
    (hb : s.blockBad (s.secureSlice (s.team team).slice) b block = none) : s.savedBad team block = (s, none) := by
  simp [State.savedBad, hs, hb]

/-- The state that a restore works on, with the handle out of its queue and its table entry read. -/
def swapRead : State × Option (List Byte) :=
  ((swapped.settleMode 0).takeEntry 0 0 0).devGet ⟨(swapped.settleMode 0).secureSlice 0, 0xFF, 10, 0⟩ 0x2000 32

/-- An entry whose slot of the backing ring waits to be written with other bytes, which are no record. -/
def altered : State :=
  (idle.onSlice 0 (fun sl => sl.setQueue 0 [{ record := List.replicate 32 0, ring := some 0 }])).onVf 0 (fun v =>
    { v with logQ := [(4 + 8 * v.ringAt 0 0 0, 2 :: List.replicate 31 0)] })

/-- Three records of priority 0, of which the last two have waited as long. -/
def aged : State :=
  vfBase.onSlice 0 (fun sl => sl.setQueue 0 [{ record := List.replicate 32 0, since := 5 },
    { record := List.replicate 32 0, since := 3 }, { record := List.replicate 32 0, since := 3 }])

/-- A live team of one with a save area to go to. -/
def leaving : State :=
  (base.onSlice 0 (fun sl => { sl with swapBase := 0x2000, swapLen := 1 })).onTeam 1 (fun t => { t with swap := true })

theorem witness_DispatchAndSwap :
    (∃ (s r u : State) (e : QEnt), r = s.settleMode 0 ∧ (r.vf 0).descOk = true ∧ r.pickCluster 0 0 = some 0
      ∧ r.nextQueue 0 0 0 = some (0, 0) ∧ ((r.slice 0).queue 0)[0]? = some e ∧ e.resident = false
      ∧ r.readEntry 0 0 0 e = .ok (u, e) ∧ recHandle e.record = none)
    ∧ (∃ (s r u : State) (e x : QEnt) (n : Nat), r = s.settleMode 0 ∧ (r.vf 0).descOk = true ∧ r.pickCluster 0 0 = some 0
      ∧ r.nextQueue 0 0 0 = some (0, 0) ∧ ((r.slice 0).queue 0)[0]? = some e ∧ e.resident = false
      ∧ r.readEntry 0 0 0 e = .ok (u, x) ∧ x.record ≠ e.record ∧ recHandle x.record = none ∧ recBad x.record = some n)
    ∧ (∃ (s r v u w : State) (x : List Byte) (e : QEnt) (b : Saved), r = s.settleMode 0 ∧ (r.vf 0).descOk = true
      ∧ r.pickCluster 0 0 = some 0 ∧ r.nextQueue 0 0 0 = some (0, 0) ∧ ((r.slice 0).queue 0)[0]? = some e ∧ e.resident = false
      ∧ r.readEntry 0 0 0 e = .ok (v, e) ∧ recHandle e.record = some 0 ∧ 0 < (v.slice 0).swapLen
      ∧ (v.takeEntry 0 0 0).devGet ⟨v.secureSlice 0, 0xFF, 10, 0⟩ ((v.slice 0).swapAt 0) 32 = (u, some x) ∧ (u.swapEnt 0 0).valid = true ∧ (u.swapEnt 0 0).vf = 0
      ∧ Map.get 0 (u.slice 0).swaps 0 ≠ 0 ∧ (u.swapEnt 0 0).dnum = leNat ((e.record.drop 8).take 8) ∧ (u.team (Map.get 0 (u.slice 0).swaps 0)).saved = some b
      ∧ u.peekNat ((u.swapEnt 0 0).block + nonceAt) 8 = (u.swapEnt 0 0).nonce
      ∧ u.savedBad (Map.get 0 (u.slice 0).swaps 0) (some (u.swapEnt 0 0).block) = (w, none))
    ∧ (∃ (s : State) (x : Ctx), (s.core 0).shadow = some x ∧ (s.core 0).running = false ∧ (s.cluster 0).team ≠ 0
      ∧ ∀ k, (s.core k).l1 = [])
    ∧ (∃ (s u : State) (e : QEnt), ((s.slice 0).queue (qkey 0 0 0))[1]? = some e
      ∧ (∀ x ∈ (s.slice 0).queue (qkey 0 0 0), e.since ≤ x.since)
      ∧ (∀ x ∈ ((s.slice 0).queue (qkey 0 0 0)).take 1, e.since < x.since) ∧ s.readEntry 0 0 (qkey 0 0 0) e = .ok (u, e)
      ∧ ((s.slice 0).queue (qkey 0 1 0)).length < (s.vf 0).qsize)
    ∧ (∃ s : State, (s.cluster 0).team ≠ 0 ∧ (s.team (s.cluster 0).team).resident = false ∧ s.recordWaits (s.cluster 0).team = true)
    ∧ (∃ s : State, (s.cluster 0).team ≠ 0 ∧ s.recordWaits (s.cluster 0).team = false)
    ∧ ∃ (s : State) (id h : Nat), id = (s.cluster 0).team ∧ id ≠ 0 ∧ (s.team id).swap = true ∧ (s.team id).consumed = false
      ∧ s.saveable 0 = true ∧ (∀ k, (s.core k).l1 = []) ∧ s.freeHandle (s.team id).slice = some h
      ∧ ((s.stopArray 0).cluster 0).store.rowsBad = false :=
  ⟨⟨idle, _, _, { record := List.replicate 32 0 }, rfl, by and_intros <;> rfl⟩,
    ⟨altered, _, _, { record := List.replicate 32 0, ring := some 0 }, { record := 2 :: List.replicate 31 0, ring := some 0 }, 2, rfl,
      by and_intros <;> first | decide +kernel | rfl⟩,
    ⟨swapped, _, swapped.settleMode 0, swapRead.1, swapRead.1, swapRead.2.getD [], { record := handleEntry 0 0 }, savedOne, rfl,
      by decide +kernel, by decide +kernel, by decide +kernel, by decide +kernel, rfl, rfl, by decide +kernel, by decide +kernel,
      Prod.ext rfl (show swapRead.2 = _ by decide +kernel), by decide +kernel, by decide +kernel, by decide +kernel, by decide +kernel,
      by decide +kernel, by decide +kernel, savedBad_good _ 1 savedOne (some 0x100000) (by decide +kernel)
        (swapped_block_good _ _ (by decide +kernel) (by decide +kernel) (by decide +kernel))⟩,
    ⟨base.onCore 0 (fun c => { c with running := false, shadow := some {} }), {}, by decide +kernel, by decide +kernel, by decide +kernel,
      noLines _ (by decide +kernel)⟩,
    ⟨aged, aged, { record := List.replicate 32 0, since := 3 }, by decide +kernel, by decide +kernel, by decide +kernel, rfl,
      by decide +kernel⟩, ⟨waiting base, by decide +kernel⟩, ⟨base, by decide +kernel⟩,
    ⟨leaving, 1, 0, by decide +kernel, by decide +kernel, by decide +kernel, by decide +kernel, by decide +kernel,
      noLines leaving (by decide +kernel), by decide +kernel, rowsBad_empty _ (by decide +kernel) (by decide +kernel)⟩⟩

/-- A core with a pre-emption handler. -/
def handled : State := base.onCtx 0 (fun c => { c with ctl := { c.ctl with d := { tvec := 4 } } })

theorem witness_PreemptionAndHost :
    (∃ s : State, (s.slice 0).swaps = [] ∧ 0 ∈ s.vfCores 0 ∧ (s.core 0).running = true ∧ (s.core 0).halted = false ∧ s.forces 0 = false)
    ∧ (∃ s : State, (s.slice 0).swaps = [] ∧ 0 ∈ s.vfCores 0 ∧ (s.core 0).running = true ∧ (s.core 0).halted = true)
    ∧ (∃ s : State, (s.slice 0).swaps = [] ∧ 0 ∈ s.vfCores 0 ∧ (s.core 0).running = true ∧ (s.core 0).halted = false ∧ s.forces 0 = true)
    ∧ (∃ (s u : State) (id h : Nat), id = (s.cluster 0).team ∧ id ≠ 0 ∧ (s.team id).consumed = false
      ∧ s.freeHandle (s.team id).slice = some h ∧ (s.team id).overrun = false ∧ (s.core 0).budget.isSome = true
      ∧ u = (s.freezeArray 0 0 0).onTeam id (fun t => { t with overrun := true }) ∧ u.saveable 0 = true
      ∧ (∀ k, (s.core k).l1 = []) ∧ (u.cluster 0).store.rowsBad = false)
    ∧ (∃ (s u : State) (id h : Nat), id = (s.cluster 0).team ∧ id ≠ 0 ∧ (s.team id).consumed = false
      ∧ s.freeHandle (s.team id).slice = some h ∧ (s.team id).overrun = true ∧ u = s ∧ u.saveable 0 = false)
    ∧ (∃ v : Vf, v.descOk = true) ∧ ∃ v : Vf, v.descOk = false :=
  ⟨⟨handled, by decide +kernel⟩, ⟨base.onCore 0 (fun c => { c with halted := true }), by decide +kernel⟩, ⟨base, by decide +kernel⟩,
    ⟨leaving.onCore 0 (fun c => { c with budget := some 1 }), _, 1, 0, by decide +kernel, by decide +kernel, by decide +kernel,
      by decide +kernel, by decide +kernel, by decide +kernel, rfl, by decide +kernel,
      noLines _ (by decide +kernel), rowsBad_empty _ (by decide +kernel) (by decide +kernel)⟩,
    ⟨(leaving.onTeam 1 (fun t => { t with overrun := true })).onCtx 0 (fun c => { c with ring := .h }), _, 1, 0, by decide +kernel,
      by decide +kernel, by decide +kernel, by decide +kernel, by decide +kernel, rfl, by decide +kernel⟩,
    ⟨vf0, by decide +kernel⟩, ⟨{}, by decide +kernel⟩⟩

theorem witness_IntegrityEvents :
    (∃ s : State, (s.team 1).live = true ∧ (s.team 1).cluster = some 0 ∧ s.mgmt.errbase = 0 ∧ (s.team 1).consumed = true
      ∧ (s.team 1).kill = false ∧ ∃ g, (s.vf (s.team 1).vf).sg = some g ∧ g.bst = .opened ∧ g.arrived = 1
      ∧ (s.member 1 0).curStep = g.step + 1)
    ∧ (∃ s : State, (s.team 1).live = true ∧ (s.team 1).cluster = some 0 ∧ (s.team 1).consumed = false ∧ (s.team 1).kill = false)
    ∧ (∃ s : State, (s.team 1).live = true ∧ (s.team 1).cluster = some 0 ∧ (s.team 1).kill = true)
    ∧ (∃ s : State, s.auditCluster = some 0 ∧ (s.cluster 0).team ≠ 0)
    ∧ (∃ s : State, s.auditCluster = some 0 ∧ (s.cluster 0).team = 0 ∧ (s.cluster 0).fenced = false)
    ∧ (∃ s : State, s.auditCluster = some 1 ∧ (s.cluster 1).team = 0 ∧ (s.cluster 1).fenced = true)
    ∧ (∃ s : State, (s.cluster 63).fenced = true ∧ s.mayWrite .host 7 = true) ∧ (∃ s : State, (s.cluster 63).fenced = false)
    ∧ (∃ s : State, s.mayWrite .host 7 = false) ∧ (∃ s : State, s.mayWrite .host 24 = false)
    ∧ (∀ take ∈ [true, false], ∃ (s : State) (c : PoolCmd), s.mayWrite .host 24 = true ∧ s.home.poolQ = [] ∧ c = ⟨take, 0, false, 8, 1, 0⟩
      ∧ ((s.wakeBlock 16).onHome (fun h => { h with poolQ := [c] })).listPlaces c take = .ok [0] ∧ 1 ≤ (Map.get [] s.home.pool 8).length
      ∧ ∃ pages : List Nat, pages = ([0].map (fun pa => s.peekNat pa 8 / 4096 * 4096)).filter
          (fun pg => false || Map.get none s.home.owned pg == some 0) ∧ pages.any s.pageHeld = false ∧ 0x3000 ∈ pages
          ∧ (s.home.placeOf (0x3000 / 128)).dirty = true)
    ∧ (∃ (s : State) (c : PoolCmd), s.mayWrite .host 24 = true ∧ c = ⟨true, 0, false, 0, 1, 0⟩
      ∧ ((s.wakeBlock 16).onHome (fun h => { h with poolQ := [c] })).listPlaces c true = .ok [0] ∧ (Map.get [] s.home.pool 0).length < 1)
    ∧ (∃ (s : State) (e : Nat × Nat) (l : List (Nat × Nat)), l = s.home.scrub.filter (fun e => e.1 == 8)
      ∧ l.find? (fun e => (List.range 32).all (fun i => (s.lineErr (s.pageAsker e.2).secure 0 (i + e.2 / 128) .full).isNone))
        = some e ∧ s.home.poolQ = [])
    ∧ (∃ (s : State) (e : Nat × Nat), s.home.scrub.filter (fun e => e.1 == 8) = [e]
      ∧ s.lineErr (s.pageAsker e.2).secure 0 (0 + e.2 / 128) .full = some .abort)
    ∧ (∃ (s : State) (v : Word) (rest : List (Nat × Word)), (s.slice 0).shareQ = (0, v) :: rest) ∧ (∃ s : State, (s.slice 0).shareQ = [])
    ∧ (∃ (s : State) (x : Nat), (s.slice 7).stopped = true ∧ s.mayWrite .host 7 = true ∧ (s.home.placeOf (x / 128)).dirty = true
      ∧ (decodePA s.home.wide (x / 128 * 128)).map (·.2.2) = some 7) ∧ ∃ s : State, (s.slice 7).stopped = false := by
  refine ⟨⟨(withGrp (base.onCtx 0 (fun c => { c with curStep := 1 })) { grp with arrived := 1 }).onTeam 1 (fun t =>
      { t with consumed := true }), by decide +kernel, by decide +kernel, by decide +kernel, by decide +kernel, by decide +kernel, _,
      rfl, by decide +kernel⟩, ⟨base, by decide +kernel⟩,
    ⟨base.onTeam 1 (fun t => { t with kill := true }), by decide +kernel⟩, ⟨base, by decide +kernel⟩,
    ⟨{ base with clusters := [] }, by decide +kernel⟩,
    ⟨base.onCluster 1 (fun c => { c with fenced := true, auditReq := true }), by decide +kernel⟩, ⟨base.onCluster 63 (fun c => { c with fenced := true }), by decide +kernel⟩,
    ⟨base, by decide +kernel⟩, ⟨base.onHome (fun h => { h with world := 0x80 }), by decide +kernel⟩,
    ⟨base.onHome (fun h => { h with world := 0x1000000 }), by decide +kernel⟩,
    fun take ht => ⟨(withMem base 1 [0x30]).onHome (fun h => { h with pool := [(8, [4096])], owned := [(0x3000, some 0)], place := [(0x60, .l2 true)] }), _,
      by decide +kernel, rfl, rfl, ?_⟩,
    ⟨base, _, by decide +kernel, rfl, ?_⟩, ⟨base.onHome (fun h => { h with scrub := [(8, 4096)] }), (8, 4096), _, rfl, by decide +kernel⟩,
    ⟨base.onHome (fun h => { h with scrub := [(8, 2 ^ 60)] }), (8, 2 ^ 60), by decide +kernel⟩,
    ⟨base.onSlice 0 (fun sl => { sl with shareQ := [(0, 5)] }), 5, [], by decide +kernel⟩, ⟨base, by decide +kernel⟩,
    ⟨(base.onSlice 7 (fun sl => { sl with stopped := true })).onHome (fun h => { h with place := [(0x1C0, .l2 true)] }), 128 * 0x1C0,
      by decide +kernel⟩, ⟨base, by decide +kernel⟩⟩
  · simp only [List.mem_cons, List.not_mem_nil, or_false] at ht
    simp only [ok_iff]
    rcases ht with rfl | rfl <;> exact ⟨by decide +kernel, by decide +kernel, _, rfl, by decide +kernel, by decide +kernel⟩
  · simp only [ok_iff]
    decide +kernel

/-- A descriptor of a group of two ranks, quorum 1, at 0x1000, and the packet of the command above. -/
def grpBytes : List Byte := leBytes 4 0 ++ leBytes 4 0 ++ leBytes 4 2 ++ leBytes 2 1
def described (s : State) : State := withMem (s.onVf 0 (fun v => { v with sgPa := some 0x1000 })) 0x1000 grpBytes
def pkt : Packet :=
  { control := false, port := 0, srcChip := 1, vf := 0, reduce := false, step := 0, seq := 0, srcRank := 1, win := 0, off := 0
    ctrEn := false, ctrWin := 0, ctrOff := 0, op := 0, data := [1, 2], crcOk := true }
def putting (c : EngCmd) : State := (withGrp base grp).onCtx 0 (·.setQueue 3 [c])
def served (c : EngCmd) : State := { putting c with fab := { (putting c).fab with served := 4 } }
def sent : State × (Nat × List Byte) × List Byte :=
  okOr (base, (0, []), []) (State.srcRead (served putCmd) ((putting putCmd).agent 1 0 3 putCmd) putCmd.edge 0xFFFFFFF000000000 4)

/-- The same command with nothing to send. -/
def putNone : EngCmd := { putCmd with g2 := 0 }
/-- A heartbeat of that rank, and the group of a rank with nobody below it, or with nobody at all. -/
def beat : Packet := { pkt with control := true, data := [] }
def alone (root : Bool) : StepGroup := if root then { grp with nrank := 1, quorum := 1 } else { grp with rank := 1 }
def unacked (s : State) : State := s.onVf 0 (fun v => { v with outs := [(1, { next := 2, unacked := [(0, pkt), (1, pkt)] })] })
/-- Rank 1 is migrating to chip 1, and nothing of its change waits. -/
def comingIn : StepGroup := { grp with migrating := [1] }
def routed (s : State) : State := { s with fab := { routes := [(1, [⟨0, 0, false⟩, ⟨1, 1, false⟩])] } }

theorem witness_FabricEvents :
    (∃ (s : State) (g : StepGroup) (sec : Bool), sec = s.secureSlice (s.vf 0).logSlice ∧ (s.vf 0).sg = none
      ∧ s.readErr sec 0 0x1000 64 = none ∧ groupOf (s.peek 0x1000 64) = some g ∧ s.readErr sec 0 g.rtbase (4 * g.nrank) = none
      ∧ s.readErr sec 0 g.wtbase 8192 = none)
    ∧ (∃ s : State, (s.vf 0).sg = none ∧ s.readErr (s.secureSlice (s.vf 0).logSlice) 0 (2 ^ 60) 64 ≠ none)
    ∧ (∃ s : State, (s.vf 0).sg = none ∧ groupOf (s.peek 0x1000 64) = none)
    ∧ (∃ (s : State) (g : StepGroup), (s.vf 0).sg = some g ∧ 1 < g.nrank ∧ g.step ≤ 5 ∧ g.held = false ∧ g.step ≠ 5 ∧ s.arrives 0 1 1 = false)
    ∧ (∃ (s : State) (g : StepGroup), (s.vf 0).sg = some g ∧ g.held = true ∧ s.arrives 0 1 1 = false)
    ∧ (∃ (s : State) (g : StepGroup), (s.vf 0).sg = some g ∧ 1 < g.nrank ∧ s.arrives 0 1 0 = true)
    ∧ (∀ c ∈ [putCmd, putNone], (putting c).canSend 1 0 = true ∧ (putting c).fabricTurn = some (4 * 1 + 0)
      ∧ (((putting c).member 1 0).queue 3).head? = some c ∧ (putting c).group 0 = some grp
      ∧ grp.lost.contains (fxRank c) = false ∧ grp.chipOf (fxRank c) = some 1 ∧ grp.step ≤ c.step
      ∧ min 4096 (fxLen c - c.prog) = (if c = putCmd then 4 else 0)
      ∧ Map.get 0 grp.sent (2 * fxRank c + c.step % 2) + 64 ≤ grp.quota)
    ∧ (State.srcRead (served putCmd) ((putting putCmd).agent 1 0 3 putCmd) putCmd.edge (putCmd.g1.toNat + putCmd.prog) 4
        = .ok (sent.1, sent.2.1, sent.2.2)
      ∧ sent.1.group 0 = some grp ∧ 1 ≠ sent.1.fab.chip
      ∧ sent.1.mustHold 0 grp (fxRank putCmd) (sent.1.fxPacket 0 grp putCmd sent.2.2) = false)
    ∧ ((served putNone).group 0 = some grp ∧ 1 ≠ (served putNone).fab.chip
      ∧ (served putNone).mustHold 0 grp (fxRank putNone) ((served putNone).fxPacket 0 grp putNone []) = false)
    ∧ (∃ (s : State) (g : StepGroup) (n : Nat), s.group pkt.vf = some g ∧ n = unwrap ((s.vf 0).inp 1).mark pkt.seq ∧ pkt.crcOk = true
      ∧ (s.vf pkt.vf).loaded = true
      ∧ ((s.vf 0).inp 1).mark ≤ n ∧ n < ((s.vf 0).inp 1).mark + 4096 ∧ ((s.vf 0).inp 1).got.contains n = false
      ∧ pkt.step ∈ [g.step % 256, (g.step + 1) % 256]
      ∧ ((g.bank pkt.step).map (fun e => pktSpace e.2)).sum + pktSpace pkt ≤ g.sbsize / 2)
    ∧ (∃ (s : State) (g : StepGroup), s.group pkt.vf = some g ∧ (s.vf pkt.vf).loaded = true ∧ ((s.vf 0).inp 1).mark = 0
      ∧ unwrap 0 pkt.seq = 0 ∧ pkt.step = g.step % 256
      ∧ g.sbsize / 2 < ((g.bank pkt.step).map (fun e => pktSpace e.2)).sum + pktSpace pkt)
    ∧ (∃ (s : State) (g : StepGroup), s.group pkt.vf = some g ∧ (s.vf pkt.vf).loaded = true ∧ ((s.vf 0).inp 1).mark = 0
      ∧ unwrap 0 pkt.seq = 0 ∧ pkt.step ∉ [g.step % 256, (g.step + 1) % 256])
    ∧ (∀ code ∈ [(0 : Byte), 1], ∃ (s : State) (g : StepGroup), s.group beat.vf = some g ∧ (s.vf beat.vf).loaded = true
      ∧ ((s.vf 0).inp 1).mark = 0 ∧ unwrap 0 beat.seq = 0 ∧ ((g.message { beat with data := [code] }).isSome = decide (code = 1)))
    ∧ (∃ (s : State) (g : StepGroup) (n : Nat), s.group pkt.vf = some g ∧ n = unwrap ((s.vf 0).inp 1).mark pkt.seq
      ∧ (s.vf 0).loaded = true ∧ n < ((s.vf 0).inp 1).mark)
    ∧ (∃ (s : State) (g : StepGroup), s.group pkt.vf = some g ∧ (s.vf 0).loaded = false)
    ∧ (∃ (s : State) (g : StepGroup) (n : Nat), s.group pkt.vf = some g ∧ n = unwrap ((s.vf 0).inp 1).mark 4096
      ∧ ((s.vf 0).inp 1).mark + 4096 ≤ n)
    ∧ (∃ (s : State) (n : Nat), n = unwrap ((s.vf 0).out 1).acked 2 ∧ ((s.vf 0).out 1).acked < n ∧ n ≤ ((s.vf 0).out 1).next
      ∧ ∀ g, s.group 0 = some g → g.pend = [] ∧ g.bst = .opened ∧ g.arrived < g.quorum)
    ∧ (∃ (s : State) (g : StepGroup) (n : Nat), n = unwrap ((s.vf 0).out 1).acked 0 ∧ n = ((s.vf 0).out 1).acked
      ∧ n ≤ ((s.vf 0).out 1).next ∧ s.group 0 = some g ∧ g.pend = [] ∧ g.bst = .opened ∧ g.arrived < g.quorum
      ∧ ∃ r ∈ g.migrating, g.arriving 1 r = true)
    ∧ (∃ (s : State) (n : Nat), n = unwrap ((s.vf 0).out 1).acked 0 ∧ n = ((s.vf 0).out 1).acked
      ∧ ∀ g, s.group 0 = some g → ∀ r ∈ g.migrating, g.arriving 1 r = false)
    ∧ (∃ (s : State) (n : Nat), n = unwrap ((s.vf 0).out 1).acked 3 ∧ ((s.vf 0).out 1).next < n)
    ∧ (∃ (s : State) (n : Nat), n = unwrap ((s.vf 0).out 1).acked 1 ∧ n < ((s.vf 0).out 1).acked)
    ∧ (∃ (s : State) (g : StepGroup), s.group 0 = some g ∧ 1 ∈ g.peers ∧ g.chipOf 1 = some 1 ∧ 1 ≠ s.fab.chip ∧ g.bst = .opened
      ∧ g.arrived < g.quorum)
    ∧ (∃ (s : State) (g : StepGroup), s.group 0 = some g ∧ 1 ∈ g.peers ∧ g.bst = .applying)
    ∧ (∀ b ∈ [BState.drain, .sync, .vote], ∃ (s : State) (g d : StepGroup), s.group 0 = some g ∧ 1 ∈ g.peers ∧ g.bst = b
      ∧ g.due = [] ∧ g.staged = [] ∧ g.pend = [] ∧ s.mgmt.fevbase = 0 ∧ s.mgmt.errbase = 0 ∧ (s.vf 0).sgPa = some 0x1000
      ∧ s.readErr (s.secureSlice (s.vf 0).logSlice) 0 0x1000 64 = none ∧ groupOf (s.peek 0x1000 64) = some d
      ∧ g.rtbase + 4 * 1 + 3 < 0x1000)
    ∧ (∃ (s : State) (g : StepGroup), s.group 0 = some g ∧ 2 ∉ g.peers)
    ∧ (∀ root : Bool, ∃ (s : State) (g : StepGroup), s.group 0 = some g ∧ g.verdict ≤ 3 ∧ g.bst = .sync
      ∧ (if root then g.isRoot = true ∧ g.gathered = true else g.isRoot = false ∧ g.told = false ∧ g.gathered = true)
      ∧ g.bank g.step = [] ∧ ¬ (1, 0) ∈ g.drains ∧ g.step = 0)
    ∧ (∃ (s : State) (g : StepGroup), s.group 0 = some g ∧ g.verdict ≤ 3 ∧ g.bst = .sync ∧ g.isRoot = true ∧ g.heard = false
      ∧ g.gathered = false)
    ∧ (∀ root : Bool, ∃ (s : State) (g : StepGroup), s.group 0 = some g ∧ g.bst = .vote ∧ g.verdict = 0
      ∧ (if root then g.isRoot = true ∧ g.gathered = true ∧ g.combined = 0 else g.isRoot = false) ∧ g.bank g.step = [])
    ∧ (∀ root : Bool, ∃ (s : State) (g : StepGroup), s.group 0 = some g ∧ g.bst = .vote ∧ worse 2 g.verdict = 2
      ∧ (if root then g.isRoot = true ∧ g.gathered = true ∧ g.combined = 2 else g.isRoot = false) ∧ g.due = [] ∧ g.staged = []
      ∧ s.mgmt.fevbase = 0 ∧ s.mgmt.errbase = 0 ∧ (s.vf 0).sgPa = some 0x1000
      ∧ s.readErr (s.secureSlice (s.vf 0).logSlice) 0 0x1000 64 = none ∧ (groupOf (s.peek 0x1000 64)).isSome = true)
    ∧ (∃ (s : State) (g d : StepGroup), s.group 0 = some g ∧ g.bst = .applying ∧ g.due = [] ∧ g.staged = [] ∧ g.apps = []
      ∧ s.mgmt.errbase = 0 ∧ g.todo = [] ∧ (s.vf 0).sgPa = some 0x1000
      ∧ s.readErr (s.secureSlice (s.vf 0).logSlice) 0 0x1000 64 = none ∧ groupOf (s.peek 0x1000 64) = some d)
    ∧ (∃ (s : State) (g : StepGroup) (w : Window), s.group 0 = some g ∧ g.bst = .applying ∧ g.todo = [(0, pkt)]
      ∧ g.window pkt.win = some w ∧ w.rule = 0 ∧ isOkOf (s.applyPages 0 (w.base + pkt.off) pkt.data.length) [(0, 2)] = true
      ∧ g.due = [] ∧ g.staged = [] ∧ g.apps = [] ∧ s.mgmt.errbase = 0 ∧ s.bufferErr g (0, pkt) = none
      ∧ s.applyErr (s.portSecure 0 pkt) true 0 pkt.data.length = none)
    ∧ (∃ (s : State) (r : List Act), s.agenda = .streamsOut 0 :: r)
    ∧ (∃ (s w : State) (x : VfMove) (r : List Act), w = (({ s with agenda := r } : State).passTime.as 8)
      ∧ s.agenda = .streamsIn 0 x :: r ∧ x.pend = []
      ∧ ∀ g, (w.vf 0).sg = some g → g.pend = [] ∧ g.bst = .opened ∧ g.arrived < g.quorum)
    ∧ (∃ s : State, ((s.vf 0).out 1).unacked ≠ [] ∧ s.group 0 = none ∧ s.nextRoute 1 ((s.vf 0).out 1).route = some 1)
    ∧ (∃ s : State, ((s.vf 0).out 1).unacked ≠ [] ∧ s.group 0 = none ∧ s.nextRoute 1 ((s.vf 0).out 1).route = none)
    ∧ ∃ s : State, (Map.get [] s.fab.routes 1).any (fun r => r.num == ((s.vf 0).out 1).route && !(s.port r.port).up) = true
      ∧ s.nextRoute 1 ((s.vf 0).out 1).route = some 1 := by
  have hw : (({ withGrp base grp with agenda := [] } : State).passTime.as 8).group 0 = some grp := by rfl
  refine ⟨⟨described base, _, _, rfl, by decide +kernel, by decide +kernel, rfl, by decide +kernel, by decide +kernel⟩,
    ⟨base, by decide +kernel⟩, ⟨base, by decide +kernel⟩, ⟨withGrp base grp, grp, by decide +kernel⟩,
    ⟨withGrp base { grp with held := true }, _, rfl, by decide +kernel⟩,
    ⟨withGrp base { grp with rank := 1 }, _, rfl, by decide +kernel⟩,
    fun c hc => ?_, ⟨ok_of_isOk (base, (0, []), []) _ (by decide +kernel), by decide +kernel, by decide +kernel, by decide +kernel⟩,
    ⟨by decide +kernel, by decide +kernel, by decide +kernel⟩,
    ⟨withGrp base grp, grp, 0, by decide +kernel⟩, ⟨withGrp base { grp with sbsize := 64 }, _, rfl, by decide +kernel⟩,
    ⟨withGrp base { grp with step := 5 }, _, rfl, by decide +kernel⟩,
    fun code hc => ⟨withGrp base grp, grp, by decide +kernel, by decide +kernel, by decide +kernel, by decide +kernel, ?_⟩,
    ⟨(withGrp base grp).onVf 0 (fun v => { v with ins := [(1, { mark := 1 })] }), grp, 0, by decide +kernel⟩,
    ⟨(withGrp base grp).onVf 0 (fun v => { v with loaded := false }), grp, by decide +kernel⟩,
    ⟨withGrp base grp, grp, 4096, by decide +kernel⟩,
    ⟨unacked base, 2, by decide +kernel, by decide +kernel, by decide +kernel, fun g hg => by cases hg⟩,
    ⟨withGrp base comingIn, comingIn, 0, by decide +kernel⟩,
    ⟨withGrp base grp, 0, by decide +kernel, by decide +kernel, fun g hg r hr => by cases hg; cases hr⟩,
    ⟨unacked base, 3, by decide +kernel⟩,
    ⟨base.onVf 0 (fun v => { v with outs := [(1, { next := 2, acked := 2 })] }), 1, by decide +kernel⟩, ⟨withGrp base grp, grp, by decide +kernel⟩,
    ⟨withGrp base { grp with bst := .applying }, _, rfl, by decide +kernel⟩,
    fun b hb => ⟨described (withGrp base { grp with bst := b }), { grp with bst := b }, (groupOf (described base |>.peek 0x1000 64)).getD grp, ?_⟩,
    ⟨withGrp base grp, grp, by decide +kernel⟩,
    fun root => ⟨withGrp base { (alone root) with bst := .sync }, _, rfl, by cases root <;> decide +kernel⟩,
    ⟨withGrp base { grp with bst := .sync }, _, rfl, by decide +kernel, rfl, by decide +kernel, rfl, ?_⟩,
    fun root => ⟨withGrp base { (alone root) with bst := .vote }, _, rfl, by cases root <;> decide +kernel⟩,
    fun root => ⟨described (withGrp base { (alone root) with bst := .vote, verdict := 2 }), _, rfl, by cases root <;> decide +kernel⟩,
    ⟨described (withGrp base { grp with bst := .applying }), _, _, rfl, by and_intros <;> rfl⟩,
    ⟨withGrp base { grp with bst := .applying, todo := [(0, pkt)] }, _, _, rfl, by decide +kernel, by decide +kernel, rfl,
      by decide +kernel, by decide +kernel, by decide +kernel⟩,
    ⟨{ base with agenda := [.streamsOut 0] }, [], rfl⟩,
    ⟨{ withGrp base grp with agenda := [.streamsIn 0 ⟨3, [], [], [], []⟩] }, _, _, [], rfl, rfl, rfl,
      fun g hg => by cases (Option.some.inj (hw.symm.trans hg) : grp = g); decide +kernel⟩,
    ⟨routed (unacked base), by decide +kernel⟩, ⟨unacked base, by decide +kernel⟩,
    ⟨(routed (unacked base)).onPort 0 (fun p => { p with up := false }), by decide +kernel⟩⟩
  · simp only [List.mem_cons, List.not_mem_nil, or_false] at hc
    rcases hc with rfl | rfl <;> decide +kernel
  · simp only [List.mem_cons, List.not_mem_nil, or_false] at hc
    rcases hc with rfl | rfl <;> decide +kernel
  · simp only [List.mem_cons, List.not_mem_nil, or_false] at hb
    rcases hb with rfl | rfl | rfl <;> decide +kernel
  · have hp : StepGroup.parent { grp with bst := .sync } 1 = 0 := by
      simp only [StepGroup.parent]
      split
      · omega
      · decide +kernel
    have hc : (1 : Nat) ∈ StepGroup.children { grp with bst := .sync } := by
      refine List.mem_filter.mpr ⟨by decide +kernel, ?_⟩
      rw [hp]
      decide +kernel
    refine Bool.eq_false_iff.mpr fun h => ?_
    exact absurd (List.all_eq_true.mp h 1 hc) (by decide +kernel)

theorem witness_LinkEvents :
    (∃ (p : Port) (fl : Flit) (seq : BitVec 12) (ok : Bool) (a : BitVec 12), p.up = true ∧ fl.lanes = p.rx.active ∧ p.await = none ∧ ok = true
      ∧ fl.idle = false ∧ seq = p.rxSeq ∧ fl.ack = some a ∧ p.ackOk a = true ∧ p.rest = 0
      ∧ (fl.data.headD 0).toNat % 16 = 4)
    ∧ (∀ hb : Bool, ∃ (p : Port) (fl : Flit), p.up = true ∧ fl.lanes = p.rx.active ∧ p.await = none ∧ fl.idle = false
      ∧ (if hb then p.rest ≠ 0 else (fl.data.headD 0).toNat % 16 ≠ 4) ∧ p.rx.parked ||| p.tx.parked ≠ 0)
    ∧ (∃ (p : Port) (fl : Flit) (seq : BitVec 12) (ok : Bool), p.up = true ∧ fl.lanes = p.rx.active ∧ p.await = none ∧ ok = true ∧ fl.idle = false
      ∧ seq ≠ p.rxSeq ∧ p.nakSent ≠ some p.rxSeq)
    ∧ (∃ (p : Port) (fl : Flit) (ok : Bool), p.up = true ∧ fl.lanes = p.rx.active ∧ p.await = none ∧ ok = false
      ∧ p.nakSent ≠ some p.rxSeq)
    ∧ (∀ seq : BitVec 12, ∃ (p : Port) (fl : Flit), p.up = true ∧ fl.lanes = p.rx.active ∧ p.await = none
      ∧ p.nakSent = some p.rxSeq ∧ fl.idle = false ∧ seq = p.rxSeq)
    ∧ (∀ idle : Bool, ∃ (p : Port) (fl : Flit) (seq : BitVec 12), p.up = true ∧ fl.lanes = p.rx.active ∧ p.await = none
      ∧ p.nakSent = some p.rxSeq ∧ if idle then fl.idle = true ∧ seq = p.rxSeq else fl.idle = false ∧ seq ≠ p.rxSeq)
    ∧ (∀ idle : Bool, ∃ (p : Port) (fl : Flit) (seq q : BitVec 12), p.up = true ∧ fl.lanes = p.rx.active ∧ p.await = some q
      ∧ if idle then fl.idle = true ∧ seq = q else seq ≠ q)
    ∧ (∃ (p : Port) (fl : Flit) (seq : BitVec 12) (ok : Bool), p.up = true ∧ fl.lanes = p.rx.active ∧ p.await = some p.rxSeq ∧ ok = true ∧ fl.idle = false
      ∧ seq = p.rxSeq)
    ∧ (∃ (p : Port) (fl : Flit), fl.lanes ≠ p.rx.active)
    ∧ (∃ p : Port, p.up = true ∧ p.await ≠ none)
    ∧ (∃ (p : Port) (seq : BitVec 12), p.up = true ∧ p.await = none ∧ p.ackOk seq = true ∧ seq ≠ p.txAcked)
    ∧ (∀ lanes ∈ [(0xF : BitVec 16), 7], ∃ (p : Port) (new park : BitVec 16), p.up = true
      ∧ new = lanes &&& (p.tx.active ||| ~~~p.tx.dark) ∧ park = p.tx.parked &&& ~~~new ∧ p.rx.lit = 0 ∧ p.await = none ∧ p.sent = [] ∧ p.queue = []
      ∧ decide (4 ≤ lamCount (new ||| park)) = decide (lanes = 0xF) ∧ 4 ≤ lamCount (p.rx.active ||| p.rx.parked))
    ∧ (∃ (s : State) (p : Port), p = s.port 0 ∧ p.up = true ∧ 1500 ≤ (Map.get 0x300000000 s.mgmt.tol (8 + 0)).toNat % 2 ^ 32
      ∧ (∀ e ∈ p.queue, e.2 = true) ∧ p.queue ≠ [] ∧ p.rx.active &&& p.tx.active &&& 0xF = 0xF)
    ∧ (∃ p : Port, p.up = true ∧ p.rx.parked ≠ 0 ∧ p.wake = true) ∧ (∃ p : Port, p.up = true ∧ p.wake = false)
    ∧ (∃ (s : State), (s.port 0).rx.lit = 0 ∧ (s.port 0).tx.lit = 0 ∧ (1 ≠ s.time.ptpns.toNat / 1000000000 ∨ 1 ≤ (s.port 0).window))
    ∧ (∃ (s : State), (s.port 0).rx.lit = 0 ∧ (s.port 0).tx.lit = 0 ∧ (s.port 0).window < s.time.ptpns.toNat / 1000000000
      ∧ ∀ j, j < 16 → (s.port 0).rx.active.getLsbD j = true → ¬ overRate s (s.port 0) j)
    ∧ (∀ few : Bool, ∃ (s : State) (p : Port), p = s.port 0 ∧ p.rx.lit = 0 ∧ p.tx.lit = 0 ∧ p.window < s.time.ptpns.toNat / 1000000000
      ∧ p.rx.active.getLsbD 0 = true ∧ overRate s p 0 ∧ (∀ j, j ≠ 0 → p.rx.active.getLsbD j = true → ¬ overRate s p j)
      ∧ p.rx.dark.getLsbD 0 = false ∧ decide (4 < lamCount p.rx.active ∧ lamCount p.rx.training + lamCount p.tx.training < 2) = !few)
    ∧ (∀ tx : Bool, ∃ (p : Port) (x : Lanes), x = (if tx then p.tx else p.rx) ∧ p.rx.lit = 0 ∧ p.tx.lit = 0
      ∧ x.training.getLsbD 0 = true ∧ Map.get 0 x.failedTrains 0 < 2)
    ∧ (∀ tx : Bool, ∃ (p : Port) (x : Lanes), x = (if tx then p.tx else p.rx) ∧ p.rx.lit = 0 ∧ p.tx.lit = 0
      ∧ x.training.getLsbD 0 = true ∧ 2 ≤ Map.get 0 x.failedTrains 0)
    ∧ (∀ lost ∈ [(0xFFF0 : BitVec 16), 0xFFF8], ∃ (p : Port) (new left : BitVec 16), p.up = true ∧ p.rx.lit = 0 ∧ p.tx.lit = 0
      ∧ new = lost &&& ~~~p.rx.dark ∧ left = (p.rx.active ||| p.rx.parked) &&& ~~~new ∧ p.rx.active &&& new ≠ 0 ∧ p.tx.few = false
      ∧ decide (4 ≤ lamCount left) = decide (lost = 0xFFF0))
    ∧ (∃ p : Port, p.up = false) ∧ ∃ p : Port, p.up = true ∧ p.rx.lit = 0 ∧ 2 ≤ lamCount p.rx.training + lamCount p.tx.training := by
  refine ⟨⟨{}, { ack := some 0, data := [4] }, 0, true, 0, by decide +kernel⟩,
    fun hb => ⟨{ rest := if hb then 1 else 0, rx := { parked := 1 } }, {}, by cases hb <;> decide +kernel⟩, ⟨{}, {}, 1, true, by decide +kernel⟩,
    ⟨{}, {}, false, by decide +kernel⟩, fun seq => ⟨{ rxSeq := seq, nakSent := some seq }, {}, rfl, rfl, rfl, rfl, rfl, rfl⟩,
    fun idle => ⟨{ nakSent := some 0 }, { idle := idle }, if idle then 0 else 1, by cases idle <;> decide +kernel⟩,
    fun idle => ⟨{ await := some 5 }, { idle := idle }, if idle then 5 else 4, 5, by cases idle <;> decide +kernel⟩,
    ⟨{ await := some 0 }, {}, 0, true, by decide +kernel⟩, ⟨{}, { lanes := 0xFF }, by decide +kernel⟩,
    ⟨{ await := some 0 }, by decide +kernel⟩, ⟨{ txSeq := 1, sent := [([], false)] }, 1, by decide +kernel⟩, fun lanes hl => ⟨{}, _, _, by decide +kernel, rfl, rfl, ?_⟩,
    ⟨(base.onMgmt (fun m => { m with tol := [(8, 0x3000005DC)] })).onPort 0 (fun p => { p with queue := [([], true)] }), _, rfl,
      by decide +kernel⟩,
    ⟨{ rx := { active := 0xF, parked := 0xFFF0 }, wake := true }, by decide⟩, ⟨{}, by decide⟩,
    ⟨base, by decide +kernel⟩, ⟨{ base with time := { ptpns := 1000000000 } }, by decide +kernel, by decide +kernel, by decide +kernel, ?_⟩,
    fun few => ⟨({ base with time := { ptpns := 1000000000 } } : State).onPort 0 (fun p =>
      { p with corr := [(0, 2000001)], rx := { p.rx with active := if few then 0xF else 0xFFFF } }), _, rfl, ?_⟩,
    fun tx => ⟨{ rx := { training := 1, failedTrains := [(0, 1)] }, tx := { training := 1, failedTrains := [(0, 1)] } }, _, rfl, ?_⟩,
    fun tx => ⟨{ rx := { training := 1, failedTrains := [(0, 2)] }, tx := { training := 1, failedTrains := [(0, 2)] } }, _, rfl, ?_⟩,
    fun lost hl => ⟨{}, _, _, by decide, by decide, by decide, rfl, rfl, ?_⟩, ⟨{ up := false }, by decide⟩,
    ⟨{ rx := { training := 3 } }, by decide +kernel⟩⟩
  · simp only [List.mem_cons, List.not_mem_nil, or_false] at hl
    rcases hl with rfl | rfl <;> decide +kernel
  · intro j _ _
    exact Nat.not_lt_zero _
  · have hj : ∀ (j : Nat) (s : State) (p : Port), p.corr = [(0, 2000001)] → j ≠ 0 → ¬ overRate s p j := by
      intro j s p hp h0 h
      simp only [overRate, hp, Map.get] at h
      split at h <;> omega
    cases few <;> exact ⟨by decide +kernel, by decide +kernel, by decide +kernel, by decide +kernel,
      show _ < _ by decide +kernel,
      fun j h _ => hj j _ _ rfl h, by decide +kernel, by decide +kernel⟩
  · cases tx <;> decide +kernel
  · cases tx <;> decide +kernel
  · simp only [List.mem_cons, List.not_mem_nil, or_false] at hl
    rcases hl with rfl | rfl <;> decide +kernel

/-- A PWRWARN that has lasted, and the team that its save left. -/
def warned (s : State) : State := s.onMgmt (fun m => { m with pwrctl := 0x100C9 })
def poweredOff : State :=
  { base with teams := [(1, { live := true, record := List.replicate 32 0, powerCl := some 0, saved := some savedOne })], clusters := [] }

/-- A module with a first image staged that has no magic number. -/
def stagedBad (s : State) : State := s.onMgmt (fun m => { m with staging := [(1, [(0, 1)])] })

/-- The same with its rails off, and the team's save block in memory as it was written, or not. -/
def railed (bad : Bool) : State :=
  { (poweredOff.onMgmt (fun m => { m with railsOff := true })) with
    home := { mem := if bad then [] else Memory.placed savedOne.image 0x100000 } }

theorem witness_PackageEvents :
    (∃ (s : State) (m : Master), s.holds m 0 = true ∧ s.mayWrite m 24 = true)
    ∧ (∃ (s : State) (m : Master), s.holds m 1 = true ∧ s.mayWrite m 24 = true)
    ∧ (∃ (s : State) (m : Master), s.holds m 0 = false ∧ s.holds m 1 = false ∧ s.mayWrite m 24 = true)
    ∧ (∃ (s : State) (m : Master), s.mayWrite m 24 = false ∧ s.home.world.getLsbD 24 = true)
    ∧ (∃ s : State, s.mayWrite .manager 24 = true ∧ s.home.world.getLsbD 24 = true) ∧ (∃ s : State, s.home.world.getLsbD 24 = false)
    ∧ (∃ (s : State) (m : Master), s.sem 31 = masterCode m ∧ s.mayWrite m 24 = true)
    ∧ (∃ (s : State) (m : Master), s.sem 31 = 0 ∧ s.mayWrite m 24 = true)
    ∧ (∃ (s : State) (m : Master), s.sem 31 ≠ masterCode m)
    ∧ (∃ s : State, Map.wf 0 s.mgmt.sems = true ∧ s.sem 3 ≠ masterCode .host)
    ∧ (∃ s : State, s.blockIdle (.slice 0) = false) ∧ (∃ s : State, s.blockIdle .iface = true)
    ∧ (∃ s : State, s.blockIdle (.port 0) = true ∧ s.groupOpen = true)
    ∧ (∀ q ∈ [0, 1, 2, 3], ∃ (s : State) (tol : Word) (ns : Nat), tol = Map.get 0x300000000 s.mgmt.tol (pblockKey (.slice 7))
      ∧ s.blockIdle (.slice 7) = true ∧ qFor s.mgmt.acRate ns tol = q ∧ (s.cluster 56).team = 0)
    ∧ (∃ s : State, ∀ e ∈ s.teams, e.2.powerCl = none)
    ∧ (∃ s : State, s.mgmt.pwrctl.getLsbD 0 = true ∧ s.mgmt.pwrctl.extractLsb' 1 15 ≠ 0)
    ∧ (∃ s : State, s.mgmt.pwrctl.getLsbD 0 = true ∧ s.mgmt.pwrctl.extractLsb' 1 15 = 0 ∧ s.mgmt.railsOff = false
      ∧ (∀ k, (s.core k).l1 = []) ∧ ∀ cl, cl < 64 → (s.cluster cl).team = 0)
    ∧ (∃ s : State, s.mgmt.pwrctl.getLsbD 0 = false)
    ∧ (∃ s : State, s.mgmt.pwrctl.getLsbD 16 = true ∧ s.mgmt.railsOff = false ∧ (∀ k, (s.core k).l1 = [])
      ∧ ∀ cl, cl < 64 → (s.cluster cl).team = 0)
    ∧ (∃ (s : State) (cl id : Nat), s.mgmt.pwrctl.getLsbD 16 = true ∧ s.mgmt.railsOff = false ∧ (∀ k, (s.core k).l1 = []) ∧ cl < 64
      ∧ (∀ c, c < 64 → c ≠ cl → (s.cluster c).team = 0) ∧ id = (s.cluster cl).team ∧ id ≠ 0 ∧ (s.team id).consumed = false
      ∧ s.saveable cl = true ∧ ((s.freezeArray cl 0 0).cluster cl).store.rowsBad = false)
    ∧ (∀ bad : Bool, ∃ (s w : State) (b : Saved), s.mgmt.railsOff = true ∧ s.mgmt.pwrctl.getLsbD 16 = false ∧ Map.wf {} s.teams = true
      ∧ (s.team 1).powerCl = some 0 ∧ (∀ j ∈ List.range 9, j ≠ 1 → (s.team j).powerCl = none) ∧ (s.team 1).saved = some b
      ∧ if bad then ∃ part, s.savedBad 1 b.block = (w, some part) else s.savedBad 1 b.block = (w, none))
    ∧ (∃ s : State, s.mgmt.pwrctl.getLsbD 16 = true) ∧ (∃ s : State, s.mgmt.pwrctl.getLsbD 16 = false)
    ∧ (∃ s : State, s.afterReset.mgmt.bootFailure = some (1, 4) ∧ s.home.wide = 36)
    ∧ (∃ (s : State) (a : Nat) (c : Nat × Nat), s.mgmt.bootcfg.getLsbD 0 = false ∧ s.memOk = true ∧ s.home.wide = 28
      ∧ (∀ e ∈ s.home.mem, (cellOf s.home.wide e.1).isSome = true) ∧ s.home.mem ≠ []
      ∧ (∀ e ∈ s.home.place, (cellOf s.home.wide (128 * e.1)).isSome = true) ∧ cellOf s.home.wide a = some c
      ∧ (s.home.placeOf (a / 128)).dirty = true)
    ∧ (∃ (s : State) (ix : Nat), Map.get [] s.mgmt.staging ix ≠ [] ∧ Map.wf [] s.mgmt.staging = true)
    ∧ (∃ (s : State) (ix : Nat), Map.get [] s.mgmt.staging ix = [] ∧ Map.wf [] s.mgmt.staging = true)
    ∧ (∃ (s : State) (m : Master), s.mayWrite m 24 = true ∧ s.holds m 2 = true ∧ s.mgmt.attBuf = none)
    ∧ (∃ (s : State) (m : Master), s.mayWrite m 24 = true ∧ s.holds m 2 = true ∧ s.mgmt.attBuf ≠ none)
    ∧ (∃ (s : State) (m : Master), s.mayWrite m 24 = true ∧ s.holds m 2 = false)
    ∧ (∃ (s : State) (l : Nat), s.mayWrite .host 24 = true ∧ s.mgmt.attBuf = some (2 ^ 60)
      ∧ s.readErr (s.home.world.getLsbD 24) 0 (2 ^ 60) 32 = some (l, .abort) ∧ s.mgmt.errbase = 0)
    ∧ (∃ (s : State), s.mayWrite .host 24 = true ∧ s.mgmt.attBuf = some 64 ∧ s.readErr (s.home.world.getLsbD 24) 0 64 32 = none
      ∧ ∀ l, 64 / 128 ≤ l → l ≤ (64 + 623) / 128 → s.lineErr (s.home.world.getLsbD 24) 0 l .part = none)
    ∧ ∃ (s : State) (ns : Word), s.time.locked = true ∧ ns.ult s.time.ptpns = true := by
  let quiet (r : Nat) : State :=
    { base with cores := [], teams := [], clusters := [], mgmt := { tol := [(7, BitVec.ofNat 64 (2 ^ 32 * r + 0x30D40))] } }
  refine ⟨⟨base.onMgmt (fun m => { m with sems := [(0, 1)] }), .host, by decide +kernel⟩,
    ⟨base.onMgmt (fun m => { m with sems := [(1, 1)] }), .host, by decide +kernel⟩, ⟨base, .host, by decide +kernel⟩,
    ⟨base.onHome (fun h => { h with world := 0x1000000 }), .host, by decide +kernel⟩,
    ⟨base.onHome (fun h => { h with world := 0x1000000 }), by decide +kernel⟩, ⟨base, by decide +kernel⟩,
    ⟨base.onMgmt (fun m => { m with sems := [(31, 2)] }), .manager, by decide +kernel⟩, ⟨base, .host, by decide +kernel⟩,
    ⟨base, .host, by decide +kernel⟩,
    ⟨base.onMgmt (fun m => { m with sems := [(3, 2)] }), by decide +kernel⟩, ⟨base, by decide +kernel⟩, ⟨base, by decide +kernel⟩,
    ⟨withGrp base { grp with bst := .sync }, by decide +kernel⟩, fun q hq => ⟨quiet q, _, 1000000, rfl, ?_⟩, ⟨base, by decide +kernel⟩, ⟨base, by decide +kernel⟩,
    ⟨({ base with clusters := [] } : State).onMgmt (fun m => { m with pwrctl := 1 }), by decide +kernel, by decide +kernel,
      by decide +kernel, noLines _ (by decide +kernel), by decide +kernel⟩,
    ⟨base.onMgmt (fun m => { m with pwrctl := 0 }), by decide +kernel⟩,
    ⟨warned { base with clusters := [] }, by decide +kernel, by decide +kernel, noLines _ (by decide +kernel), by decide +kernel⟩,
    ⟨warned base, 0, 1, by decide +kernel, by decide +kernel, noLines _ (by decide +kernel), by decide +kernel, by decide +kernel,
      by decide +kernel, by decide +kernel, by decide +kernel, by decide +kernel,
      rowsBad_empty _ (by decide +kernel) (by decide +kernel)⟩,
    fun bad => ⟨railed bad, ((railed bad).savedBad 1 savedOne.block).1, savedOne, ?_⟩,
    ⟨warned base, by decide +kernel⟩, ⟨base, by decide +kernel⟩, ⟨stagedBad base, by decide +kernel⟩,
    ⟨(withMem base (10 * 2 ^ 30) [5]).onHome (fun h => { h with wide := 28, place := [(10 * 2 ^ 23, .l2 true)] }), 10 * 2 ^ 30, _,
      by decide +kernel, by decide +kernel, by decide +kernel, by decide +kernel, by decide +kernel, by decide +kernel, rfl,
      by decide +kernel⟩,
    ⟨stagedBad base, 1, by decide +kernel⟩, ⟨stagedBad base, 3, by decide +kernel⟩,
    ⟨base.onMgmt (fun m => { m with sems := [(2, 1)] }), .host, by decide +kernel⟩,
    ⟨base.onMgmt (fun m => { m with sems := [(2, 1)], attBuf := some 0 }), .host, by decide +kernel⟩, ⟨base, .host, by decide +kernel⟩,
    ⟨base.onMgmt (fun m => { m with attBuf := some (2 ^ 60) }), 2 ^ 53, by decide +kernel⟩,
    ⟨base.onMgmt (fun m => { m with attBuf := some 64 }), by decide +kernel, by decide +kernel, by decide +kernel, fun l h0 h1 => ?_⟩,
    ⟨{ base with time := { locked := true, ptpns := 9 } }, 8, by decide +kernel⟩⟩
  · simp only [List.mem_cons, List.not_mem_nil, or_false] at hq
    rcases hq with rfl | rfl | rfl | rfl <;> decide +kernel
  · cases bad
    · refine ⟨by decide +kernel, by decide +kernel, by decide +kernel, by decide +kernel, by decide +kernel, by decide +kernel, ?_⟩
      have hb : (railed false).savedBad 1 savedOne.block = (railed false, none) :=
        savedBad_good _ 1 savedOne _ (by decide +kernel)
          (State.blockBad_of_placed _ _ savedOne 0x100000 [] rfl (by decide) (by decide +kernel) (by decide +kernel))
      rw [hb, if_neg Bool.false_ne_true]
    · exact ⟨by decide +kernel, by decide +kernel, by decide +kernel, by decide +kernel, by decide +kernel, by decide +kernel, 0,
        Prod.ext rfl (by decide +kernel)⟩
  · have : l < 6 := by omega
    interval_cases l <;> decide +kernel

/-! ### Witnesses: number formats and exact arithmetic -/

/-- 1.5 lies between 1 and 2 of FP32; twice the largest E5M2 magnitude; INT8 129 and −129; 3 as an E8 source. -/
theorem witness_RoundingIntoFormats :
    (∃ x q, x < 2 ^ fmtBits .e4m3 ∧ patNum .e4m3 x = some q) ∧ (∃ x, x < 2 ^ fmtBits .e5m2 ∧ patNum .e5m2 x = none)
    ∧ (∃ (v : FVal) (y lo hi : ℚ), valNum v = some y ∧ Holds .fp32 lo ∧ Holds .fp32 hi ∧ lo ≤ y ∧ y ≤ hi)
    ∧ (∃ (v : FVal) (y top : ℚ) (x : Nat), valNum v = some y ∧ x < 2 ^ (fmtBits .e2m3 - 1) ∧ patNum .e2m3 x = some top
      ∧ (∀ z, Holds .e2m3 z → z ≤ top) ∧ 2 * top ≤ |y|)
    ∧ (∃ (v : FVal) (y lim : ℚ) (x : Nat), valNum v = some y ∧ x < 2 ^ fmtBits .int8 ∧ patNum .int8 x = some lim
      ∧ (∀ z, Holds .int8 z → lim ≤ z) ∧ y ≤ lim - 1)
    ∧ (∃ (v : FVal) (y lim : ℚ) (x : Nat), valNum v = some y ∧ x < 2 ^ fmtBits .int8 ∧ patNum .int8 x = some lim
      ∧ (∀ z, Holds .int8 z → z ≤ lim) ∧ lim + 1 ≤ y)
    ∧ ∃ (v : FVal) (y : ℚ), valNum v = some y ∧ (2 : ℚ) ^ ((128 : Nat) - 127 : ℤ) ≤ y ∧ y < (2 : ℚ) ^ ((128 : Nat) - 126 : ℤ) := by
  refine ⟨⟨0x38, 1, by decide +kernel, by decide +kernel⟩, ⟨0x7D, by decide +kernel, by decide +kernel⟩,
    ⟨.fin false 3 (-1) false, 3 / 2, 1, 2, by decide +kernel, ⟨0x3F800000, by decide +kernel, by decide +kernel⟩,
      ⟨0x40000000, by decide +kernel, by decide +kernel⟩, by norm_num, by norm_num⟩,
    ⟨.fin true 15 0 false, -15, 15 / 2, 0x1F, by decide +kernel, by decide +kernel, by decide +kernel, ?_, by norm_num⟩,
    ⟨.fin true 129 0 false, -129, -128, 0x80, by decide +kernel, by decide +kernel, by decide +kernel, ?_, by norm_num⟩,
    ⟨.fin false 129 0 false, 129, 127, 0x7F, by decide +kernel, by decide +kernel, by decide +kernel, ?_, by norm_num⟩,
    ⟨.fin false 3 0 false, 3, by decide +kernel, by norm_num, by norm_num⟩⟩
  all_goals
    rintro z ⟨x, hx, h⟩
    revert z
    revert x
  · decide +kernel
  · decide +kernel
  · decide +kernel

/-- A number of FP32 between 12102202 and 12102204 units of 2^−23 is 12102203 of them. -/
theorem fp32_between (z : ℚ) (h : Holds .fp32 z) (h1 : 12102202 / 8388608 < z) (h2 : z < 12102204 / 8388608) :
    z = 12102203 / 8388608 := by
  obtain ⟨x, -, hz⟩ := h
  simp only [patNum, floatFields] at hz
  have hfr : x % 2 ^ 23 < 2 ^ 23 := Nat.mod_lt _ (by norm_num)
  generalize x % 2 ^ 23 = fr at hz hfr
  generalize x / 2 ^ 23 % 2 ^ 8 = ex at hz
  generalize patSign .fp32 x = sg at hz
  rw [ite_eq_iff] at hz
  obtain ⟨-, hz⟩ | ⟨-, hz⟩ := hz
  · simp at hz
  have f0 : (0 : ℚ) ≤ (fr : ℚ) / 2 ^ 23 := by positivity
  have f1 : (fr : ℚ) / 2 ^ 23 < 1 := by
    rw [div_lt_one (by norm_num)]
    exact_mod_cast hfr
  rw [ite_eq_iff] at hz
  obtain ⟨-, hz⟩ | ⟨-, hz⟩ := hz
  · exfalso
    simp only [Option.some.injEq] at hz
    have hp : (2 : ℚ) ^ (1 - ((127 : Nat) : ℤ)) < 1 := zpow_lt_one_of_neg₀ (by norm_num) (by norm_num)
    have hq : (0 : ℚ) < 2 ^ (1 - ((127 : Nat) : ℤ)) := by positivity
    cases sg <;> simp at hz <;> nlinarith
  · simp only [Option.some.injEq] at hz
    have hq : (0 : ℚ) < 2 ^ ((ex : ℤ) - ((127 : Nat) : ℤ)) := by positivity
    cases sg
    swap
    · exfalso
      simp only [reduceIte] at hz
      have := mul_pos hq (by linarith : (0 : ℚ) < 1 + (fr : ℚ) / 2 ^ 23)
      linarith
    simp only [Bool.false_eq_true, reduceIte, one_mul] at hz
    rcases lt_trichotomy ex 127 with he | he | he
    · exfalso
      have : (2 : ℚ) ^ ((ex : ℤ) - ((127 : Nat) : ℤ)) ≤ 2 ^ (-1 : ℤ) := zpow_le_zpow_right₀ (by norm_num) (by push_cast; omega)
      norm_num at this hz
      nlinarith
    · subst he
      norm_num at hz
      have a1 : (12102202 : ℚ) < fr + 8388608 := by linarith
      have a2 : (fr : ℚ) + 8388608 < 12102204 := by linarith
      have b1 : 12102202 < fr + 8388608 := by exact_mod_cast a1
      have b2 : fr + 8388608 < 12102204 := by exact_mod_cast a2
      have hq : (fr : ℚ) = 3713595 := by exact_mod_cast (by omega : fr = 3713595)
      rw [hq] at hz
      linarith
    · exfalso
      have : (2 : ℚ) ^ (1 : ℤ) ≤ 2 ^ ((ex : ℤ) - ((127 : Nat) : ℤ)) := zpow_le_zpow_right₀ (by norm_num) (by push_cast; omega)
      norm_num at this hz
      nlinarith

/-- FP32's pattern 0x3FB8AA3B is the rounding of 1 / ln 2: no other number of the format lies as near. -/
theorem rne_inv_log_two : Rne32 (1 / Real.log 2) (12102203 / 8388608) := by
  have hr : patNum .fp32 0x3FB8AA3B = some (12102203 / 8388608) := by decide +kernel
  have h1 := Real.log_two_gt_d9
  have h2 := Real.log_two_lt_d9
  have hp : (0 : ℝ) < Real.log 2 := by linarith
  have h3 : 1 / Real.log 2 < 1.442695045 := by rw [div_lt_iff₀ hp]; linarith
  have h4 : 1.442695035 < 1 / Real.log 2 := by rw [lt_div_iff₀ hp]; linarith
  refine ⟨0x3FB8AA3B, ⟨12102203 / 8388608, by decide +kernel, hr, fun z hz => ?_⟩, hr⟩
  by_cases h : 12102202 / 8388608 < z ∧ z < 12102204 / 8388608
  · exact .inl (fp32_between z hz h.1 h.2)
  · right; left
    generalize 1 / Real.log 2 = y at h3 h4
    norm_num at h3 h4
    have hz' : ((z : ℚ) : ℝ) ≤ ((12102202 / 8388608 : ℚ) : ℝ) ∨ ((12102204 / 8388608 : ℚ) : ℝ) ≤ (z : ℚ) :=
      (not_and_or.mp h).imp (fun h => Rat.cast_le.mpr (not_lt.mp h)) (fun h => Rat.cast_le.mpr (not_lt.mp h))
    push_cast at hz' ⊢
    rcases hz' with h | h
    · rw [abs_of_neg (by linarith : (z : ℝ) - y < 0), abs_lt]
      constructor <;> linarith
    · rw [abs_of_pos (by linarith : (0 : ℝ) < z - y), abs_lt]
      constructor <;> linarith

/-- 1.5 and 1 of FP32, their sums, products and roots between zero and 2; the sources of R36 by size; 1 / ln 2 times zero. -/
theorem witness_ArithmeticRoundsOnce :
    (∃ (p q r : Nat) (a b c lo hi : ℚ), patNum .fp32 p = some a ∧ patNum .fp32 q = some b ∧ patNum .fp32 r = some c
      ∧ Holds .fp32 lo ∧ Holds .fp32 hi ∧ a + b ≠ 0 ∧ lo ≤ a + b ∧ a + b ≤ hi ∧ a - b ≠ 0 ∧ lo ≤ a - b ∧ a - b ≤ hi
      ∧ lo ≤ a * b ∧ a * b ≤ hi ∧ a * b + c ≠ 0 ∧ lo ≤ a * b + c ∧ a * b + c ≤ hi ∧ b ≠ 0 ∧ lo ≤ a / b ∧ a / b ≤ hi ∧ 0 < a
      ∧ a ≠ b)
    ∧ (∃ (p q : Nat) (a b : ℚ), patNum .fp32 p = some a ∧ patNum .fp32 q = some b ∧ a + b = 0 ∧ a < 0)
    ∧ (∃ (p q : Nat) (a b : ℚ), patNum .fp32 p = some a ∧ patNum .fp32 q = some b ∧ a ≠ 0 ∧ b = 0)
    ∧ (∃ l, (TFun.tanh, l) ∈ specialRows)
    ∧ (∃ (x : Nat) (a : ℚ), x < 2 ^ 32 ∧ patNum .fp32 x = some a ∧ 0 < a ∧ 1 / 2 ^ 126 ≤ |1 / a| ∧ |1 / a| < 2 ^ 128 - 2 ^ 103
      ∧ -126 ≤ a ∧ a < 128)
    ∧ (∃ (x : Nat) (a : ℚ), x < 2 ^ 32 ∧ patNum .fp32 x = some a ∧ a ≠ 0 ∧ |1 / a| < 1 / 2 ^ 126 * (1 - 1 / 2 ^ 24) ∧ 128 ≤ a)
    ∧ (∃ (x : Nat) (a : ℚ), x < 2 ^ 32 ∧ patNum .fp32 x = some a ∧ a < -150)
    ∧ (∃ (x z e d : Nat) (a l : ℚ), x < 2 ^ 32 ∧ patNum .fp32 x = some a ∧ Rne32 (1 / Real.log 2) l
      ∧ |a * l| < 2 ^ 128 - 2 ^ 103 ∧ RoundsTo .fp32 .rne 0 (a * l : ℚ) z
      ∧ (transc .exp2 .fp32 (if patSign .fp32 z then z - 2 ^ 31 else z + 2 ^ 31) ⟨0, 0⟩).1 = e
      ∧ (addF .fp32 .rne (decodeF .fp32 0x3F800000) (decodeF .fp32 e) ⟨0, 0⟩).1 = d)
    ∧ (∃ (x z : Nat) (a q : ℚ), x < 2 ^ 32 ∧ patNum .fp32 x = some a ∧ |2 * a| < 2 ^ 128 - 2 ^ 103
      ∧ RoundsTo .fp32 .rne 0 (2 * a : ℚ) z ∧ patNum .fp32 (transc .sigm .fp32 z ⟨0, 0⟩).1 = some q)
    ∧ ∃ (x z : Nat) (a : ℚ), patNum .bf16 x = some a ∧ patNum .fp32 z = some a ∧ patSign .bf16 x = patSign .fp32 z ∧ z < 2 ^ 32 := by
  have hz : RoundsTo .fp32 .rne 0 ((0 : ℚ) : ℝ) 0 := by
    refine ⟨0, by decide +kernel, by decide +kernel, fun z _ => ?_⟩
    by_cases h : z = 0
    · exact .inl h
    · right; left
      simpa using h
  refine ⟨⟨0x3FC00000, 0x3F800000, 0x3F800000, 3 / 2, 1, 1, 0, 4, by decide +kernel, by decide +kernel, by decide +kernel,
      ⟨0, by decide +kernel, by decide +kernel⟩, ⟨0x40800000, by decide +kernel, by decide +kernel⟩, by norm_num⟩,
    ⟨0xBF800000, 0x3F800000, -1, 1, by decide +kernel, by decide +kernel, by norm_num⟩,
    ⟨0x3F800000, 0, 1, 0, by decide +kernel, by decide +kernel, by norm_num⟩,
    ⟨_, .tail _ (.tail _ (.tail _ (.tail _ (.tail _ (.head _)))))⟩,
    ⟨0x3F800000, 1, by norm_num, by decide +kernel, by norm_num⟩,
    ⟨0x7F000000, 2 ^ 127, by norm_num, by decide +kernel, by norm_num⟩,
    ⟨0xC3480000, -200, by norm_num, by decide +kernel, by norm_num⟩,
    ⟨0, 0, _, _, 0, 12102203 / 8388608, by norm_num, by decide +kernel, rne_inv_log_two, by norm_num, by simpa using hz, rfl, rfl⟩,
    ⟨0, 0, 0, 1 / 2, by norm_num, by decide +kernel, by norm_num, by simpa using hz, by decide +kernel⟩,
    ⟨0x3F80, 0x3F800000, 1, by decide +kernel, by decide +kernel, by decide +kernel, by norm_num⟩⟩

/-! ### SHA-256 and a boot that passes -/

/-- The digest of "abc", from FIPS 180-4's own example. -/
theorem test_sha256_abc : leNat (sha256 [0x61, 0x62, 0x63]).reverse
    = 0xBA7816BF8F01CFEA414140DE5DAE2223B00361A396177A9CB410FF61F20015AD := by decide +kernel

/-- An image of a header and nothing else: its digest is that of no bytes, its version is 1. -/
def bareImage (ix : Nat) : List Byte :=
  leBytes 4 0x5A4C4D46 ++ leBytes 4 ix ++ leBytes 4 1 ++ leBytes 4 512 ++ sha256 [] ++ List.replicate 464 0

theorem bareImage_good (ix : Nat) (h : ix ∈ [1, 2, 3, 4, 5]) (hs : ∀ x y, Config.signatureOk x y = true)
    (hv : ∀ i, Config.fusedMin i ≤ 1) : bootReason ix (bareImage ix) = none := by
  have h1 : ¬ ((bareImage ix).length < 512 ∨ leNat (((bareImage ix).drop 0).take 4) ≠ 0x5A4C4D46
      ∨ leNat (((bareImage ix).drop 4).take 4) ≠ ix ∨ leNat (((bareImage ix).drop 12).take 4) ≠ (bareImage ix).length
      ∨ leNat (((bareImage ix).drop 432).take 80) ≠ 0) := by
    revert ix; decide +kernel
  have h2 : ((bareImage ix).drop 16).take 32 = sha256 ((bareImage ix).drop 512) := by
    revert ix; decide +kernel
  have h3 : leNat (((bareImage ix).drop 8).take 4) = 1 := by
    revert ix; decide +kernel
  have h4 := hv ix
  simp only [bootReason]
  rw [if_neg h1, if_neg (not_not.mpr h2), hs, if_neg (by decide), if_neg (by rw [h3]; omega)]

/-- Where the signatures verify and no fuse asks for more, a module with such images staged boots. -/
theorem witness_BootPasses (hs : ∀ x y, Config.signatureOk x y = true) (hv : ∀ i, Config.fusedMin i ≤ 1) :
    ∃ s : State, s.mgmt.bootcfg.getLsbD 0 = true ∧ s.afterReset.mgmt.bootFailure = none := by
  refine ⟨base.onMgmt (fun m => { m with
    bootcfg := 1, staging := [1, 2, 3, 4, 5].map (fun ix => (ix, Memory.setRange [] 0 (bareImage ix))) }), by decide +kernel, ?_⟩
  simp only [Mgmt.bootFailure, List.findSome?_eq_none_iff, Option.map_eq_none_iff]
  intro ix hix
  refine Eq.trans (congrArg (bootReason ix) ?_) (bareImage_good ix hix hs hv)
  revert ix
  decide +kernel

end Sys2Proof.Tests
end

section
/-! PROOFS. Facts about the state that several proofs below share: folds, updates of one slice, retirement read by core. -/

namespace Sys2Proof.Machine

/-! ### Lists and maps -/

theorem Map.getRange_nil {α : Type} (d : α) (n : Nat) : ∀ a, Map.getRange d [] a n = List.replicate n d := by
  induction n with
  | zero => intro a; rfl
  | succ n ih => intro a; rw [Map.getRange, ih]; rfl

/-- What a fold's every part keeps, the fold keeps. -/
theorem foldl_keeps {α β γ : Type} {f : α → β → α} (g : α → γ) (hf : ∀ a b, g (f a b) = g a) (l : List β) (a : α) :
    g (l.foldl f a) = g a := by
  induction l generalizing a with
  | nil => rfl
  | cons b r ih => exact (ih _).trans (hf a b)

/-- A fold whose parts change nothing changes nothing. -/
theorem foldl_fixed {α β : Type} {f : α → β → α} {a : α} (hf : ∀ b, f a b = a) (l : List β) : l.foldl f a = a := by
  induction l with
  | nil => rfl
  | cons b r ih => rw [List.foldl_cons, hf b, ih]

/-! ### Slices -/

@[simp] theorem State.slice_onSlice_same (s : State) (n : Nat) (f : Slice → Slice) :
    (s.onSlice n f).slice n = f (s.slice n) := by rw [State.slice_onSlice, if_pos rfl]

@[simp] theorem State.wakeBlock_slice (s : State) (b n : Nat) : (s.wakeBlock b).slice n = s.slice n := rfl

/-- One update made on the first `k` slices. -/
theorem State.slice_foldl_onSlice (s : State) (f : Slice → Slice) (k n : Nat) :
    ((List.range k).foldl (fun s n => s.onSlice n f) s).slice n = if n < k then f (s.slice n) else s.slice n := by
  induction k generalizing n with
  | zero => rfl
  | succ k ih =>
    rw [List.range_succ, List.foldl_concat, State.slice_onSlice, ih, ih]
    rcases Nat.lt_trichotomy n k with h | h | h
    · rw [if_neg (by omega), if_pos h, if_pos (by omega)]
    · subst h; simp
    · rw [if_neg (by omega), if_neg (by omega), if_neg (by omega)]

/-! ### Retirement and the breaking of a region, read by core -/

/-- The core that retires a word (R172). -/
theorem State.core_retire (s : State) (n : Nat) : (s.retire n).core s.turn = { s.core s.turn with
    stepped := if (s.ctx s.turn).ring = .u ∧ (s.ctx s.turn).ctl.dbgctl.getLsbD 0 then some (s.ctx s.turn).pc
      else (s.core s.turn).stepped
    ctx := { s.ctx s.turn with
      pc := (s.ctx s.turn).pc + BitVec.ofNat 64 n, wfe := none, mx := none
      steps := (s.ctx s.turn).steps.filter (·.ring ≠ (s.ctx s.turn).ring)
      ctl := { (s.ctx s.turn).ctl with retired := (s.ctx s.turn).ctl.retired + 1 } } } := by
  unfold State.retire State.retireTo
  rw [State.core_onCore_same]
  rfl

theorem State.core_retire_other (s : State) (n : Nat) {k : Nat} (h : k ≠ s.turn) : (s.retire n).core k = s.core k := by
  unfold State.retire State.retireTo
  rw [State.core_onCore, if_neg h]

@[simp] theorem State.breaking_teams (s : State) : s.breaking.teams = s.teams := by
  unfold State.breaking
  split <;> rfl

end Sys2Proof.Machine
end

section
/-! PROOFS. One step of the module (O5): what a read of the control space answers. -/

namespace Sys2Proof.Machine

/-- The answer to an aligned read of the power states: the access has woken the accelerator interface before its value is
taken (R412). -/
theorem State.spaceRead_pstate (s : State) (m : Master) :
    s.spaceRead m 0 8 .pstate = (s.wakeBlock 16).signal (.spaceReply m ((s.wakeBlock 16).readReg .pstate)) := rfl

/-- The accelerator interface stands in Q1, and the host complex reads the power states next. -/
def ifaceAsleep : State := { mgmt := { pstate := [(16, 1)] }, agenda := [.read .host 0 8 .pstate] }

/-- The state in which that read is performed. -/
def ifaceRead : State := ({ ifaceAsleep with agenda := [] } : State).passTime.as 8

theorem step_ifaceAsleep : step ifaceAsleep = .next (ifaceRead.spaceRead .host 0 8 .pstate) := rfl

/-- Before the access the register shows the interface in Q1; the access itself brings it to Q0, and that is answered. -/
theorem ifaceRead_pstate : ifaceRead.readReg .pstate = 4 ^ 16 ∧ (ifaceRead.wakeBlock 16).readReg .pstate = 0 := by
  decide +kernel

/-- Refutes O5: its last clause has a read answer the value that the register had before the access, but a read of the
power states wakes the accelerator interface first (R412), and is answered with the interface in Q0. -/
theorem not_stepTurnsAndEvents : ¬ Obligations.StepTurnsAndEvents := by
  unfold Obligations.StepTurnsAndEvents
  rintro ⟨-, -, -, reads⟩
  obtain ⟨t, run, reply, -⟩ := (reads ifaceAsleep ifaceRead .host 0 8 .pstate [] rfl rfl).2 rfl rfl
  obtain ⟨before, after⟩ := ifaceRead_pstate
  rw [step_ifaceAsleep, State.spaceRead_pstate] at run
  obtain rfl := Host.Outcome.next.inj run
  have value := (Signal.spaceReply.inj (List.cons.inj reply).1).2
  rw [before, after] at value
  exact absurd value (by decide)

end Sys2Proof.Machine
end

section
/-! PROOFS. WFE, HALT, PDONE and the events of one core (O37). -/

namespace Sys2Proof.Machine

/-! ### WFE and HALT (R348, R349) -/

theorem exec_wfe_begin {s : State} (d a : SReg) (h : (s.ctx s.turn).wfe = none) : exec (.wfe d a) s
    = .next (s.breaking.onCtx s.turn (fun c => { c with wfe := some { limit := c.rs a } })) := by
  show execWfe d a s = _
  simp only [execWfe, State.breaking_turn, State.ctx_breaking, h]

theorem exec_wfe_seen {s : State} (d a : SReg) {w : Wfe} (h : (s.ctx s.turn).wfe = some w) (hw : w.seen ≠ 0) :
    exec (.wfe d a) s = s.breaking.writeRetire d (w.seen.setWidth 64) := by
  show execWfe d a s = _
  simp only [execWfe, State.breaking_turn, State.ctx_breaking, h, if_neg hw]

theorem exec_wfe_unseen {s : State} (d a : SReg) {w : Wfe} (h : (s.ctx s.turn).wfe = some w) (hw : w.seen = 0) :
    exec (.wfe d a) s = .next s.breaking := by
  show execWfe d a s = _
  simp only [execWfe, State.breaking_turn, State.ctx_breaking, h, if_pos hw]

/-- An instruction that only breaks a region waits. -/
theorem waits_of_breaking {i : Instr} {s : State} (h : exec i s = .next s.breaking) : Waits i s := by
  refine ⟨_, h, ?_, ?_⟩ <;> rw [State.ctx_breaking]

/-- Whether the ring falls below an instruction's minimum ring (R344) is the same once a region is broken. -/
theorem State.below_breaking (s : State) (r : Ring) : s.breaking.below r = decide ((s.ctx s.turn).ring.rank < r.rank) := by
  unfold State.below
  rw [State.breaking_turn, State.ctx_breaking]

theorem exec_halt {s : State} (h : 2 ≤ (s.ctx s.turn).ring.rank) :
    exec .halt s = .next ((s.breaking.retire 4).onCore s.turn (fun c => { c with halted := true })) := by
  show execHalt s = _
  have : ¬ (s.ctx s.turn).ring.rank < Ring.h.rank := Nat.not_lt.mpr h
  simp [execHalt, State.below_breaking, this]

theorem traps_halt {s : State} (h : (s.ctx s.turn).ring.rank < 2) : Traps .halt s s.breaking { cause := 0x02 } := by
  show execHalt s = _
  have : (s.ctx s.turn).ring.rank < Ring.h.rank := h
  simp only [execHalt, State.below_breaking, this, decide_true, if_true]
  rfl

/-! ### PDONE (R352) -/

theorem traps_pdone {s : State} (d a : SReg) (h : (s.ctx s.turn).ring = .u) :
    Traps (.pdone d a) s s.breaking { cause := 0x02 } := by
  show execPdone d a s = _
  have : (s.ctx s.turn).ring.rank < Ring.d.rank := by rw [h]; decide
  simp only [execPdone, State.below_breaking, this, decide_true, if_true]
  rfl

theorem exec_pdone_idle {s : State} (d a : SReg) (h : (s.ctx s.turn).ring ≠ .u) (hb : (s.core s.turn).budget = none) :
    exec (.pdone d a) s = s.breaking.writeRetire d 1 := by
  show execPdone d a s = _
  have : ¬ (s.ctx s.turn).ring.rank < Ring.d.rank := by
    cases hr : (s.ctx s.turn).ring
    · exact absurd hr h
    all_goals decide
  simp [execPdone, State.below_breaking, this, State.core_breaking, hb]

/-- The member records its mask, moves on and hands its core over. -/
def State.handOver (s : State) (d a : SReg) : State :=
  ((s.breaking.onCtx s.turn (fun x => { x with coop := true, pdone := (s.rs a).setWidth 3, pdoneD := some d })).retire 4).onCore
    s.turn (fun c => { c with running := false, budget := none, preempt := false })

theorem exec_pdone_requested {s : State} (d a : SReg) {n : Nat} (h : (s.ctx s.turn).ring = .d)
    (hb : (s.core s.turn).budget = some n) : exec (.pdone d a) s = .next (if (s.handOver d a).allDone (s.core s.turn).team
      then (s.handOver d a).hscSwap (s.core s.turn).team else s.handOver d a) := by
  show execPdone d a s = _
  simp [execPdone, State.below_breaking, State.core_breaking, hb, h, State.handOver] <;> rfl

theorem State.core_handOver (s : State) (d a : SReg) : (s.handOver d a).core s.turn = { s.core s.turn with
    running := false, budget := none, preempt := false
    stepped := if (s.ctx s.turn).ring = .u ∧ (s.ctx s.turn).ctl.dbgctl.getLsbD 0 then some (s.ctx s.turn).pc
      else (s.core s.turn).stepped
    ctx := { s.ctx s.turn with
      region := brokenRegion (s.ctx s.turn), coop := true, pdone := (s.rs a).setWidth 3, pdoneD := some d
      pc := (s.ctx s.turn).pc + 4, wfe := none, mx := none
      steps := (s.ctx s.turn).steps.filter (·.ring ≠ (s.ctx s.turn).ring)
      ctl := { (s.ctx s.turn).ctl with retired := (s.ctx s.turn).ctl.retired + 1 } } } := by
  have moved := State.core_retire
    (s.breaking.onCtx s.turn (fun x => { x with coop := true, pdone := (s.rs a).setWidth 3, pdoneD := some d })) 4
  simp only [State.onCtx_turn, State.breaking_turn, State.ctx_onCtx_same, State.core_onCtx, if_true, State.ctx_breaking,
    State.core_breaking] at moved
  unfold State.handOver
  rw [State.core_onCore_same, moved]
  rfl

theorem State.core_handOver_other (s : State) (d a : SReg) {k : Nat} (h : k ≠ s.turn) :
    (s.handOver d a).core k = s.core k := by
  unfold State.handOver
  rw [State.core_onCore, if_neg h, State.core_retire_other _ _ (by simpa using h), State.core_onCtx, if_neg h]
  exact (onlyTurn_breaking s).2 k h

@[simp] theorem State.handOver_teams (s : State) (d a : SReg) : (s.handOver d a).teams = s.teams := State.breaking_teams s

/-- Once the others have executed PDONE or EXIT, the member that hands over is the last. -/
theorem State.allDone_handOver {s : State} (d a : SReg) (h : ∀ k ∈ (s.teamOf s.turn).coreList, k = s.turn
    ∨ (s.memberCtx k (s.core s.turn).team).coop = true ∨ (s.memberCtx k (s.core s.turn).team).exited = true) :
    (s.handOver d a).allDone (s.core s.turn).team = true := by
  have same : (s.handOver d a).team (s.core s.turn).team = s.teamOf s.turn := by
    rw [State.team, State.handOver_teams]; rfl
  rw [State.allDone, same, List.all_eq_true]
  intro k hk
  unfold State.memberCtx at h ⊢
  by_cases own : k = s.turn
  · subst own
    simp [State.core_handOver]
  · rw [State.core_handOver_other s d a own]
    simpa using (h k hk).resolve_left own

theorem State.hscSwap_swap (s : State) (id : Nat) : ((s.hscSwap id).team id).swap = true := by
  rw [State.hscSwap, State.team_onTeam, if_pos rfl]

/-! ### The events of one core (R339 to R341, R348, R349) -/

theorem Ctx.wake_frame (c : Ctx) (bit : Nat) : (c.wake bit).pc = c.pc ∧ (c.wake bit).regs = c.regs := by
  unfold Ctx.wake
  split <;> exact ⟨rfl, rfl⟩

theorem Ctx.wake_wfe {c : Ctx} {w : Wfe} (h : c.wfe = some w) (bit : Nat) :
    (c.wake bit).wfe = some { w with seen := w.seen ||| BitVec.ofNat 6 (2 ^ bit) } := by
  rw [Ctx.wake, h]

theorem State.core_wake (s : State) (k bit : Nat) :
    (s.wake k bit).core k = { s.core k with ctx := (s.ctx k).wake bit } := by
  rw [State.wake, State.core_onCtx, if_pos rfl]

theorem State.core_wake_other (s : State) {k n : Nat} (bit : Nat) (h : n ≠ k) : (s.wake k bit).core n = s.core n := by
  rw [State.wake, State.core_onCtx, if_neg h]

theorem exec_coreInterrupt {s : State} {m : Master} (k : Nat) (v : Word) (h : s.mayWrite m (sliceOf k) = true) :
    exec (.coreInterrupt ⟨m, k⟩ v) s
      = .next (((s.wakeBlock (sliceOf k)).onCore k (fun c => { c with intr := some v })).wake k 4) := if_pos h

theorem exec_coreInterrupt_refused {s : State} {m : Master} (k : Nat) (v : Word) (h : s.mayWrite m (sliceOf k) = false) :
    exec (.coreInterrupt ⟨m, k⟩ v) s = .next s := if_neg (by simp [h])

/-- The core whose doorbell is written. -/
theorem State.core_doorbell (s : State) (b k : Nat) (v : Word) :
    (((s.wakeBlock b).onCore k (fun c => { c with intr := some v })).wake k 4).core k
      = { s.core k with intr := some v, ctx := (s.ctx k).wake 4 } := by
  rw [State.core_wake, State.ctx, State.core_onCore_same]
  rfl

theorem State.core_doorbell_other (s : State) (b : Nat) {k n : Nat} (v : Word) (h : n ≠ k) :
    (((s.wakeBlock b).onCore k (fun c => { c with intr := some v })).wake k 4).core n = s.core n := by
  rw [State.core_wake_other _ _ h, State.core_onCore, if_neg h]
  rfl

theorem exec_wfeLimitExpiry {s : State} {k : Nat} {w : Wfe} (h : (s.ctx k).wfe = some w) (hw : w.limit ≠ 0) :
    exec (.wfeLimitExpiry k) s = .next (s.wake k 5) := by
  show execWfeLimitExpiry k s = _
  simp only [execWfeLimitExpiry, h, if_neg hw]

/-- A pending cause is taken where nothing holds it off. -/
theorem exec_takeTrap (s : State) (k : Nat) : exec (.takeTrap k) s = if (s.core k).running && !(s.core k).dead
    && (s.ctx k).wfe.isNone && !(s.team (s.core k).team).consumed && !s.atSave k then .next ((s.boundaryTrap k).getD s)
    else .next s := rfl

theorem exec_coreResume {s : State} {m : Master} {k : Nat} (h : s.mayWrite m (sliceOf k) = true)
    (wait : (s.core k).reqWait = false) : exec (.coreResume ⟨m, k⟩ 1) s
      = .next ((s.wakeBlock (sliceOf k)).onCore k (fun c => { c with halted := false, reqWait := false })) := by
  have none_waits : ((s.wakeBlock (sliceOf k)).core k).reqWait = false := wait
  show execCoreResume ⟨m, k⟩ 1 s = _
  simp [execCoreResume, h, none_waits]

theorem exec_coreResume_refused {s : State} {m : Master} {k : Nat} (h : s.mayWrite m (sliceOf k) = false) :
    exec (.coreResume ⟨m, k⟩ 1) s = .next s := if_pos (.inr h)

/-- Settles O37: WFE, HALT and PDONE by their cases, and each event of a core by what it does to that core. -/
theorem waitHaltAndCoreEvents : Obligations.WaitHaltAndCoreEvents := by
  unfold Obligations.WaitHaltAndCoreEvents
  refine ⟨fun s d a => ⟨?wfeBegins, ?wfeEnds, ?wfeWaits, traps_halt, ?halt, traps_pdone d a, ?pdoneIdle, ?pdone⟩,
    ?interrupt, ?takeTrap, ?limit, ?resume⟩
  case wfeBegins =>
    intro h
    refine ⟨_, exec_wfe_begin d a h, ?_⟩
    rw [State.ctx_onCtx_same, State.ctx_breaking]
    exact ⟨rfl, rfl, rfl⟩
  case wfeEnds => exact fun w h hw => writesBreaking_of_writeRetire (exec_wfe_seen d a h hw)
  case wfeWaits => exact fun w h hw => waits_of_breaking (exec_wfe_unseen d a h hw)
  case halt =>
    intro h
    have moved := s.breaking.core_retire 4
    rw [State.breaking_turn, State.ctx_breaking, State.core_breaking] at moved
    refine ⟨_, exec_halt h, ?_⟩
    simp [State.issues, State.ctx, moved]
  case pdoneIdle => exact fun h hb => writesBreaking_of_writeRetire (exec_pdone_idle d a h hb)
  case pdone =>
    intro n h hb
    refine ⟨_, exec_pdone_requested d a h hb, ?_⟩
    have cores : (if (s.handOver d a).allDone (s.core s.turn).team then (s.handOver d a).hscSwap (s.core s.turn).team
        else s.handOver d a).cores = (s.handOver d a).cores := by split <;> rfl
    have core := core_eq_of_cores cores s.turn
    rw [State.ctx, core, State.core_handOver]
    refine ⟨rfl, rfl, rfl, rfl, rfl, fun _ => rfl, rfl, fun all => ?_⟩
    rw [if_pos (State.allDone_handOver d a all)]
    exact State.hscSwap_swap _ _
  case interrupt =>
    intro s m k v
    refine ⟨exec_coreInterrupt_refused k v, fun may => ⟨_, exec_coreInterrupt k v may, ?_⟩⟩
    rw [State.ctx, State.core_doorbell]
    obtain ⟨pc, regs⟩ := (s.ctx k).wake_frame 4
    exact ⟨rfl, pc, regs, fun w h => Ctx.wake_wfe h 4, fun n hn => State.core_doorbell_other _ _ _ hn⟩
  case takeTrap =>
    intro s u k running alive cause whole
    rw [exec_takeTrap, running, alive, cause, whole]
    refine ⟨fun h hs => ?_, fun hs => ?_, fun h => ?_⟩
    · simp [h, hs]
    · simp [hs]
    · simp [h]
  case limit =>
    intro s k w h hw
    refine ⟨_, exec_wfeLimitExpiry h hw, ?_⟩
    rw [State.ctx, State.core_wake]
    exact ⟨Ctx.wake_wfe h 5, Ctx.wake_frame _ _⟩
  case resume =>
    intro s m k halted wait
    refine ⟨fun may => ⟨_, exec_coreResume may wait, ?_⟩, exec_coreResume_refused⟩
    exact ⟨State.core_onCore_same _ _ _, fun n hn => by rw [State.core_onCore, if_neg hn]; rfl⟩

end Sys2Proof.Machine
end

section
/-! PROOFS. The events of translation (O53): what each does to its slice's requests and cached translations. -/

namespace Sys2Proof.Machine

/-! ### Requests and refusals (R367, R369) -/

theorem AtsReq.same_iff (q : AtsReq) (pasid page : Nat) (write : Bool) :
    q.same pasid page write = true ↔ q.pasid = pasid ∧ q.page = page ∧ q.write = write := by
  simp [AtsReq.same, and_assoc]

/-- The request that a search by page finds is one of the list's, for that page. -/
theorem AtsReq.of_find {l : List AtsReq} {pasid page : Nat} {write : Bool} {f : AtsReq → Bool} {q : AtsReq}
    (h : l.find? (fun q => q.same pasid page write && f q) = some q) :
    q ∈ l ∧ q.pasid = pasid ∧ q.page = page ∧ q.write = write := by
  have found : (q.same pasid page write && f q) = true :=
    List.find?_some (p := fun q : AtsReq => q.same pasid page write && f q) h
  exact ⟨List.mem_of_find?_eq_some h, (q.same_iff ..).mp (Bool.and_eq_true_iff.mp found).1⟩

/-- No request for the page is left once those for it are taken out. -/
theorem AtsReq.any_filter (l : List AtsReq) (pasid page : Nat) (write : Bool) :
    (l.filter (fun x => !x.same pasid page write)).any (·.same pasid page write) = false := by
  simp [List.any_eq_false]

theorem Slice.refuse_ats (sl : Slice) (q : AtsReq) :
    (sl.refuse q).ats.any (·.same q.pasid q.page q.write) = false := AtsReq.any_filter _ _ _ _

/-- A failure stops the PASID's page requests. -/
theorem Slice.mem_priOff_failure (sl : Slice) (q : AtsReq) : q.pasid ∈ (sl.respond q .failure).priOff := by
  simp only [Slice.respond]
  split
  · rename_i h; exact List.contains_iff_mem.mp h
  · exact List.mem_append_right _ (List.mem_singleton_self _)

/-- The request for a page, changed, is one of the slice's. -/
theorem Slice.mem_onReq {sl : Slice} {q : AtsReq} (h : q ∈ sl.ats) (f : AtsReq → AtsReq) :
    f q ∈ (sl.onReq q.pasid q.page q.write f).ats := by
  refine List.mem_map.mpr ⟨q, h, if_pos ?_⟩
  rw [AtsReq.same_iff]
  exact ⟨rfl, rfl, rfl⟩

/-! ### A returned translation (R366) -/

theorem pageLg_le {lg : Nat} (h : 12 ≤ lg) : pageLg lg ≤ lg := by
  unfold pageLg
  split_ifs <;> omega

/-- The page that is cached lies in the returned range. -/
theorem rangeStart_le (va : Nat) {l lg : Nat} (h : l ≤ lg) : va / 2 ^ lg * 2 ^ lg ≤ va / 2 ^ l * 2 ^ l := by
  obtain ⟨k, rfl⟩ := Nat.exists_eq_add_of_le h
  have inner : va / 2 ^ (l + k) * 2 ^ k ≤ va / 2 ^ l := by
    rw [Nat.pow_add, ← Nat.div_div_eq_div_mul]
    exact Nat.div_mul_le_self _ _
  calc va / 2 ^ (l + k) * 2 ^ (l + k) = va / 2 ^ (l + k) * 2 ^ k * 2 ^ l := by ring
    _ ≤ va / 2 ^ l * 2 ^ l := Nat.mul_le_mul_right _ inner

/-- The address that the cached page gives: the place in the returned range. -/
theorem rangeStart_offset (va pa : Nat) {l lg : Nat} (h : l ≤ lg) :
    pa + (va / 2 ^ l * 2 ^ l - va / 2 ^ lg * 2 ^ lg) + (va - va / 2 ^ l * 2 ^ l) = pa + va % 2 ^ lg := by
  have outer := rangeStart_le va h
  have inner := Nat.div_mul_le_self va (2 ^ l)
  have parts := Nat.div_add_mod' va (2 ^ lg)
  omega

/-- A returned translation that is cached is the one that the next access of the page hits. -/
theorem Slice.fill_find (sl : Slice) (tick pasid va pa : Nat) (r w write : Bool) {lg : Nat} (hlg : 12 ≤ lg)
    (granted : (if write then w else r) = true) :
    ((sl.fill tick pasid va lg pa r w).dtc.find? (fun e => e.hits pasid va && e.grants write)).map
      (fun e => e.pa + (va - e.va)) = some (pa + va % 2 ^ lg) := by
  have below := Nat.div_mul_le_self va (2 ^ pageLg lg)
  have above : va < va / 2 ^ pageLg lg * 2 ^ pageLg lg + 2 ^ pageLg lg := by
    have parts := Nat.div_add_mod' va (2 ^ pageLg lg)
    have rest := Nat.mod_lt va (Nat.two_pow_pos (pageLg lg))
    omega
  unfold Slice.fill
  dsimp only
  rw [List.find?_cons_of_pos]
  · exact congrArg some (rangeStart_offset va pa (pageLg_le hlg))
  · simp [DtcEnt.hits, DtcEnt.grants, granted, below, above]

/-- A completion that grants what was asked for: the translation is cached, and the request ends. -/
theorem Slice.complete_granted (sl : Slice) (tick : Nat) (q : AtsReq) (lg pa : Nat) (rd wr : Bool)
    (h : (if q.write then wr else rd) = true) :
    sl.complete tick q (.granted lg pa rd wr) = { sl.fill tick q.pasid (q.page * 4096) (max lg 12) pa rd wr with
      ats := sl.ats.filter (fun x => !x.same q.pasid q.page q.write) } := by
  have some_right : (rd || wr) = true := by cases hq : q.write <;> simp_all
  simp only [Slice.complete, some_right, h, if_true]
  rfl

/-- What a completion has put into the cache before the request is looked at: it is of no matter to the requests. -/
theorem Slice.complete_denied (sl : Slice) (tick : Nat) (q : AtsReq) (lg pa : Nat) (rd wr : Bool)
    (h : (if q.write then wr else rd) = false) : ∃ dtc, sl.complete tick q (.granted lg pa rd wr) =
      (if q.again || sl.priOff.contains q.pasid then ({ sl with dtc := dtc } : Slice).refuse q
      else ({ sl with dtc := dtc } : Slice).onReq q.pasid q.page q.write (fun q => { q with pri := true })) := by
  simp only [Slice.complete, h]
  cases rd || wr
  · exact ⟨sl.dtc, rfl⟩
  · exact ⟨(sl.fill tick q.pasid (q.page * 4096) (max lg 12) pa rd wr).dtc, rfl⟩

/-! ### The events on their slice -/

theorem exec_atsCompletion {s : State} {n pasid page : Nat} {write : Bool} {q : AtsReq} (r : AtsReply)
    (h : (s.slice n).ats.find? (fun q => q.same pasid page write && !q.pri) = some q) :
    exec (.atsCompletion n pasid page write r) s = .next (s.onSlice n (·.complete s.time.tick q r)) := by
  show execAtsCompletion n pasid page write r s = _
  rw [execAtsCompletion, h]

theorem exec_pageResponse {s : State} {n pasid page : Nat} {write : Bool} {q : AtsReq} (r : PriResp)
    (h : (s.slice n).ats.find? (fun q => q.same pasid page write && q.pri) = some q) :
    exec (.pageResponse n pasid page write r) s = .next (s.onSlice n (·.respond q r)) := by
  show execPageResponse n pasid page write r s = _
  rw [execPageResponse, h]

theorem exec_priReenable {s : State} {m : Master} (n pasid : Nat) (h : s.mayWrite m n = true) :
    exec (.priReenable ⟨m, n⟩ pasid) s = .next ((s.wakeBlock n).onSlice n (fun sl =>
      { sl with priOff := sl.priOff.filter (· ≠ pasid) })) := if_pos h

theorem exec_priReenable_refused {s : State} {m : Master} (n pasid : Nat) (h : s.mayWrite m n = false) :
    exec (.priReenable ⟨m, n⟩ pasid) s = .next s := if_neg (by simp [h])

/-- With no line in a core's L1 there is nothing to write back. -/
theorem State.flushRange_empty {s : State} {k : Nat} (h : (s.core k).l1 = []) (pasid lo hi : Nat) :
    s.flushRange k pasid lo hi = s := by
  rw [State.flushRange, Core.linesIn, h]
  rfl

/-- An invalidation (R370) is answered last; with every L1 empty, nothing but the DTC entries that overlap the range goes. -/
theorem exec_atsInvalidate (s : State) (pasid base len : Nat) :
    ∃ t : State, exec (.atsInvalidate pasid base len) s = .next (t.signal (.invalidateDone pasid))
      ∧ ((∀ k, (s.core k).l1 = []) → t.home = s.home ∧ (0 < len → ∀ n, n < 8 →
        (t.slice n).dtc = (s.slice n).dtc.filter (fun e => !e.meets pasid base len))) := by
  show ∃ t : State, execAtsInvalidate pasid base len s = _ ∧ _
  unfold execAtsInvalidate
  split
  · exact ⟨s, rfl, fun _ => ⟨rfl, fun h => absurd h (by omega)⟩⟩
  · refine ⟨_, rfl, fun empty => ?_⟩
    generalize hf : (fun sl : Slice => ({ sl with dtc := sl.dtc.filter (fun e => !e.meets pasid base len) } : Slice)) = f
    have cores := foldl_keeps (f := fun s n => State.onSlice s n f) State.cores (fun _ _ => rfl) (List.range 8) s
    rw [foldl_fixed fun e => State.flushRange_empty (by rw [State.core, cores]; exact empty e.1) _ _ _]
    refine ⟨foldl_keeps (f := fun s n => State.onSlice s n f) State.home (fun _ _ => rfl) _ s, fun _ n hn => ?_⟩
    rw [State.slice_foldl_onSlice, if_pos hn, ← hf]

/-- Settles O53: each event is one update of its slice. -/
theorem translationEvents : Obligations.TranslationEvents := by
  unfold Obligations.TranslationEvents
  refine ⟨?completion, ?response, ?invalidate, ?reenable⟩
  case completion =>
    intro s n pasid page lg pa write rd wr q found
    obtain ⟨hq, rfl, rfl, rfl⟩ := AtsReq.of_find found
    refine ⟨fun granted => ?_, fun denied first may => ?_, fun denied last => ?_, fun r hr => ?_⟩
    · refine ⟨_, exec_atsCompletion _ found, ?_⟩
      rw [State.dtcHit, State.slice_onSlice_same, Slice.complete_granted _ _ _ _ _ _ _ granted]
      exact ⟨Slice.fill_find _ _ _ _ _ _ _ _ (le_max_right lg 12) granted, AtsReq.any_filter _ _ _ _, rfl, rfl, rfl⟩
    · refine ⟨_, exec_atsCompletion _ found, ?_⟩
      obtain ⟨dtc, he⟩ := (s.slice n).complete_denied s.time.tick q lg pa rd wr denied
      rw [first, may, Bool.or_false, if_neg Bool.false_ne_true] at he
      rw [State.slice_onSlice_same, he]
      exact ⟨Slice.mem_onReq (sl := { s.slice n with dtc := dtc }) hq _, rfl, rfl⟩
    · refine ⟨_, exec_atsCompletion _ found, ?_⟩
      obtain ⟨dtc, he⟩ := (s.slice n).complete_denied s.time.tick q lg pa rd wr denied
      rw [if_pos (Bool.or_eq_true_iff.mpr last)] at he
      rw [State.slice_onSlice_same, he]
      exact ⟨rfl, Slice.refuse_ats _ q⟩
    · have refuses : (s.slice n).complete s.time.tick q r = (s.slice n).refuse q := by
        rcases List.mem_pair.mp hr with rfl | rfl <;> rfl
      refine ⟨_, exec_atsCompletion _ found, ?_⟩
      rw [State.slice_onSlice_same, refuses]
      exact ⟨rfl, Slice.refuse_ats _ q, rfl, rfl⟩
  case response =>
    intro s n pasid page write q found
    obtain ⟨hq, rfl, rfl, rfl⟩ := AtsReq.of_find found
    refine ⟨?_, fun r hr => ?_⟩
    · refine ⟨_, exec_pageResponse _ found, ?_⟩
      rw [State.slice_onSlice_same]
      exact ⟨Slice.mem_onReq hq _, rfl⟩
    · refine ⟨_, exec_pageResponse _ found, ?_⟩
      rw [State.slice_onSlice_same]
      rcases List.mem_pair.mp hr with rfl | rfl
      · exact ⟨rfl, Slice.refuse_ats _ q, nofun, fun _ => rfl⟩
      · exact ⟨rfl, Slice.refuse_ats _ q, fun _ => Slice.mem_priOff_failure _ q, nofun⟩
  case invalidate =>
    intro s pasid base len
    obtain ⟨t, run, kept⟩ := exec_atsInvalidate s pasid base len
    exact ⟨_, run, rfl, fun empty => (kept empty).2, fun empty => (kept empty).1⟩
  case reenable =>
    intro s m n pasid
    refine ⟨fun may => ⟨_, exec_priReenable n pasid may, ?_⟩, exec_priReenable_refused n pasid⟩
    rw [State.slice_onSlice_same]
    exact ⟨by simp, fun p hp => by simp [hp], rfl⟩

end Sys2Proof.Machine
end

section
/-! PROOFS. The package (O60): a power warning that persists while an array meets an error. -/

namespace Sys2Proof.Machine

/-- Accumulators that hold nothing but zeros, with zero checksums, have no bad row (R145, R146). -/
theorem TeamStore.rowsBad_of_zero {t : TeamStore} (hacc : t.acc = []) (hsums : t.sums = []) : t.rowsBad = false := by
  have row (i r : Nat) : t.rowOk i r = true := by
    unfold TeamStore.rowOk TeamStore.rowSum Sparse.getRange
    rw [hacc, hsums, Map.getRange_nil, Sparse.get_nil]
    decide +kernel
  simp [TeamStore.rowsBad, row]

/-- An MLD of INT8 rows from scratchpad offset 0, accepted by the array and not yet begun. -/
def loadWaiting : MxInstr :=
  { insn := .mld { MWord.zero with af := .int8 }, core := 0, member := 0, rowK := 0, colK := 0, a1 := 0, a2 := 0, b1 := 0,
    b2 := 0, koff := 0, dparam := 0, waitCp := 0, waitWs := 0 }

/-- A power warning is in force; the only running team stands on cluster 0, whose array has that MLD at its head, and
granule 0 of its scratchpad fails its ECC. -/
def warnedOverBadGranule : State :=
  { cores := [(0, { team := 1, running := true })]
    clusters := [(0, { team := 1, owner := some 0, store := { spBad := [0] }, array := { queue := [loadWaiting] } })]
    teams := [(1, { live := true, record := List.replicate 32 0, cluster := some 0 })]
    nextTeam := 2
    mgmt := { pwrctl := 0x100C9 } }

/-- HOLD of the warning has passed: what is then done is `railsDown`. -/
theorem exec_holdExpiry_warned (cyc cyc2 : Nat) :
    exec (.pwrwarnHoldExpiry cyc cyc2) warnedOverBadGranule = .next (warnedOverBadGranule.railsDown cyc cyc2) := rfl

/-- The team can be saved as it stands. -/
theorem warned_saveable : warnedOverBadGranule.saveable 0 = true := by decide +kernel

/-- The freeze catches the MLD in its first row, whose fetch meets the bad granule: the node has consumed the error
(R219, R225), and the accumulators stand as they did. -/
theorem warned_freeze : ((warnedOverBadGranule.freezeArray 0 1 0).team 1).consumed = true
    ∧ ((warnedOverBadGranule.freezeArray 0 1 0).cluster 0).store.acc = []
    ∧ ((warnedOverBadGranule.freezeArray 0 1 0).cluster 0).store.sums = [] := by decide +kernel

/-- The node that has consumed an error is not saved, and the rails wait for it. -/
theorem warned_rails_stay : (warnedOverBadGranule.railsDown 1 0).mgmt.railsOff = false := by decide +kernel

theorem warned_l1 (k : Nat) : (warnedOverBadGranule.core k).l1 = [] := by
  simp only [warnedOverBadGranule, State.core, Map.get]
  split_ifs <;> rfl

theorem warned_idle : ∀ c < 64, c ≠ 0 → (warnedOverBadGranule.cluster c).team = 0 := by decide +kernel

/-- Refutes O60: HOLD of a power warning passes while the array fetches a row of an MLD from a scratchpad granule that fails
its ECC. The freeze of R225 lets the row meet the error, the node consumes it and is to be rolled back, so that it is not
saved; the rails stay on, where the statement has them off and the team saved at once. -/
theorem not_packageEvents : ¬ Obligations.PackageEvents := by
  unfold Obligations.PackageEvents
  rintro ⟨-, -, -, -, power, -⟩
  obtain ⟨-, -, -, -, -, saves, -⟩ := power warnedOverBadGranule
  obtain ⟨-, hacc, hsums⟩ := warned_freeze
  obtain ⟨t, w, run, off, -⟩ := saves 0 1 1 0 rfl rfl warned_l1 (by decide) warned_idle rfl (by decide) rfl
    warned_saveable (TeamStore.rowsBad_of_zero hacc hsums)
  rw [exec_holdExpiry_warned] at run
  obtain rfl := Host.Outcome.next.inj run
  exact absurd off (by rw [warned_rails_stay]; decide)

end Sys2Proof.Machine
end

section
/-! PROOFS. The frame of vector instructions (R178): what `State.vectorOp` answers where nothing stops it, and what its parts
leave unchanged. -/

namespace Sys2Proof.Machine

/-! ### What nothing stops -/

theorem Regs.reads_mono {r : Regs} {l l' : List BadReg} {q q' : List (Nat × Nat)} (h : r.reads l q = false)
    (hl : l' ⊆ l) (hq : q' ⊆ q) : r.reads l' q' = false := by
  unfold Regs.reads at *
  simp only [Bool.and_eq_false_iff, Bool.or_eq_false_iff, List.any_eq_false] at *
  exact h.imp_right fun ⟨hw, hs⟩ => ⟨fun x hx => hw x (hl hx), fun x hx => hs x (hq hx)⟩

/-- The word of a source's tag is one of the words that it reads. -/
theorem VSrc.tagWords_subset (v : VSrc) (x : Ctx) : tagWords v.o ⊆ v.words x := by
  unfold tagWords VSrc.words
  cases v.o <;> simp [tileForm]

theorem Ctx.spUses_of_not_grp (x : Ctx) (o : Operand) (w : Nat) (pos : List Nat) (top : Nat) :
    x.spUses o w false pos top = x.spUses o w false pos := by
  unfold Ctx.spUses
  cases o <;> rfl

theorem spCheck_none {aligned : Bool} {uses : List (Nat × Nat)}
    (hin : ∀ u ∈ uses, rangeIn .localSp u.1 u.2 = true) (hal : aligned = true → ∀ u ∈ uses, u.1 % u.2 = 0) :
    spCheck aligned uses = none := by
  unfold spCheck
  rw [List.find?_eq_none.2 (by simpa using hin)]
  cases aligned
  · rfl
  · simpa using hal rfl

/-- A read of a stream that the state does not stop is not stopped where only the region differs. -/
theorem State.streamStop_breaking {s : State} {q n : Nat} (h : s.streamStop s.turn q n = none) :
    s.breaking.streamStop s.turn q n = none := by
  unfold State.streamStop at *
  rw [State.ctx_breaking]
  dsimp only at *
  change (if n ≤ (((s.ctx s.turn).regs.queue q).available _).1 then none else _) = none
  split at h
  · rename_i hn
    exact if_pos hn
  · split at h <;> try split at h
    all_goals cases h

variable {s : State} {srcs : List VSrc} {dst : Option VDst} {more : List BadReg}

/-- What a vector instruction reads of the state is the same where only the region differs. -/
theorem State.breaking_reads (s : State) :
    s.breaking.turn = s.turn ∧ s.breaking.clusters = s.clusters ∧ s.breaking.mcast = s.mcast
    ∧ s.breaking.time = s.time ∧ (s.breaking.core s.turn).team = (s.core s.turn).team := by
  refine ⟨State.breaking_turn s, ?_, ?_, ?_, ?_⟩
  iterate 3 (unfold State.breaking; split <;> rfl)
  rw [State.core_breaking]

theorem State.breaking_regs (s : State) : (s.breaking.ctx s.turn).regs = (s.ctx s.turn).regs := by
  rw [State.ctx_breaking]

theorem State.breaking_env (s : State) :
    s.breaking.env s.turn = ⟨(s.ctx s.turn).ctl.fpflags, (s.ctx s.turn).ctl.rng⟩ := by
  unfold State.env; rw [State.ctx_breaking]; rfl

theorem State.breaking_cluster (s : State) (n : Nat) : s.breaking.cluster n = s.cluster n := by
  unfold State.cluster; rw [(State.breaking_reads s).2.1]

theorem State.breaking_mcastOut (s : State) : s.breaking.mcastOut s.turn = s.mcastOut s.turn := by
  obtain ⟨-, -, hm, -, ht⟩ := State.breaking_reads s
  unfold State.mcastOut; rw [hm, ht]

theorem State.breaking_mcastPending (s : State) (off n : Nat) :
    s.breaking.mcastPending s.turn off n = s.mcastPending s.turn off n := by
  unfold State.mcastPending; rw [(State.breaking_reads s).2.2.1]

theorem State.breaking_spUses (s : State) (o : Operand) (w : Nat) (grp : Bool) (pos : List Nat) (top : Nat) :
    (s.breaking.ctx s.turn).spUses o w grp pos top = (s.ctx s.turn).spUses o w grp pos top := by
  rw [State.ctx_breaking]; rfl

theorem State.breaking_words (s : State) (v : VSrc) : v.words (s.breaking.ctx s.turn) = v.words (s.ctx s.turn) := by
  rw [State.ctx_breaking]; rfl

/-- Where nothing stops it, a vector instruction pops its streams, computes, writes and moves on. -/
theorem State.vectorOp_of_ready {α : Type} {comp : (Nat → Nat → Nat) → FEnv → α × FEnv} {fin : State → α → State}
    (h : vecReady s srcs dst more) :
    s.breaking.vectorOp srcs dst comp fin more =
      .ok ((fin ((s.breaking.popAll s.turn srcs).1.setEnv s.turn (comp (s.breaking.srcValue s.turn (s.breaking.ctx s.turn) srcs
          (s.breaking.popAll s.turn srcs).2) ⟨(s.ctx s.turn).ctl.fpflags, (s.ctx s.turn).ctl.rng⟩).2)
        (comp (s.breaking.srcValue s.turn (s.breaking.ctx s.turn) srcs (s.breaking.popAll s.turn srcs).2)
          ⟨(s.ctx s.turn).ctl.fpflags, (s.ctx s.turn).ctl.rng⟩).1).retire 12) := by
  obtain ⟨hsrc, hdst, hread, hwrite, hwords, hstream⟩ := h
  have tags : (s.ctx s.turn).regs.reads (srcs.flatMap (fun v => tagWords v.o) ++ (dst.map VDst.words).getD []) [] = false := by
    refine Regs.reads_mono hwords (fun b hb => ?_) (List.nil_subset _)
    rcases List.mem_append.1 hb with hb | hb
    · obtain ⟨v, hv, hb⟩ := List.mem_flatMap.1 hb
      exact List.mem_append_left _ (List.mem_append_left _ (List.mem_flatMap.2 ⟨v, hv, v.tagWords_subset _ hb⟩))
    · exact List.mem_append_left _ (List.mem_append_right _ hb)
  have source : ∀ v ∈ srcs, v.want.bind ((s.ctx s.turn).regs.checkSrc v.code v.o) = none := fun v hv => by
    cases hw : v.want with
    | none => rfl
    | some f => exact hsrc v hv f hw
  have dest : dst.bind (fun d => (s.ctx s.turn).regs.checkDst d.o d.tag) = none := by
    cases dst with
    | none => rfl
    | some d => exact hdst d rfl
  have fits : ∀ p : VSrc → Bool,
      (srcs.filter p).findSome? (fun v => v.want.bind ((s.ctx s.turn).regs.checkSrc v.code v.o)) = none := fun p =>
    List.findSome?_eq_none_iff.2 fun v hv => source v (List.mem_of_mem_filter hv)
  have streams : (streamNeeds srcs).findSome? (fun e => s.breaking.streamStop s.turn e.1 e.2) = none :=
    List.findSome?_eq_none_iff.2 fun e he => State.streamStop_breaking (hstream e he)
  unfold State.vectorOp
  have reads : ∀ u ∈ srcs.flatMap (fun v => (s.ctx s.turn).spUses v.o (fmtBytes v.f) v.grp v.pos),
      rangeIn .localSp u.1 u.2 = true ∧ s.mcastPending s.turn (spOff u.1) u.2 = false
      ∧ (s.cluster (clusterOf s.turn)).store.spBadIn (spOff u.1) u.2 = false := fun u hu => by
    obtain ⟨v, hv, hu⟩ := List.mem_flatMap.1 hu
    obtain ⟨hin, -, hm, hb⟩ := hread v hv u hu
    exact ⟨hin, hm, hb⟩
  have aligned : ∀ u ∈ (srcs.filter (!·.grp)).flatMap (fun v => (s.ctx s.turn).spUses v.o (fmtBytes v.f) false v.pos),
      rangeIn .localSp u.1 u.2 = true ∧ u.1 % u.2 = 0 := fun u hu => by
    obtain ⟨v, hv, hu⟩ := List.mem_flatMap.1 hu
    obtain ⟨hv, hg⟩ := List.mem_filter.1 hv
    have hg : v.grp = false := by simpa using hg
    obtain ⟨hin, hal, -⟩ := hread v hv u (by rwa [hg])
    exact ⟨hin, hal hg⟩
  simp only [State.breaking_turn, State.breaking_regs, State.breaking_spUses, State.breaking_words, State.breaking_mcastOut,
    State.breaking_mcastPending, State.breaking_cluster, State.breaking_env, tags, fits, dest, streams]
  have quiet : (srcs.flatMap (fun v => (s.ctx s.turn).spUses v.o (fmtBytes v.f) v.grp v.pos)).any
      (fun u => s.mcastPending s.turn (spOff u.1) u.2) = false := List.any_eq_false.2 fun u hu => by simp [(reads u hu).2.1]
  have sound : (srcs.flatMap (fun v => (s.ctx s.turn).spUses v.o (fmtBytes v.f) v.grp v.pos)).any
      (fun u => (s.cluster (clusterOf s.turn)).store.spBadIn (spOff u.1) u.2) = false :=
    List.any_eq_false.2 fun u hu => by simp [(reads u hu).2.2]
  cases dst with
  | none =>
    dsimp only
    rw [spCheck_none (by simpa using fun u hu => (reads u hu).1) (by simp),
      spCheck_none (by simpa using fun u hu => (aligned u hu).1) (by simpa using fun u hu => (aligned u hu).2),
      quiet, sound, hwords]
    rfl
  | some d =>
    have writes := hwrite d rfl
    have wquiet : (!((s.ctx s.turn).spUses d.o (fmtBytes d.f) d.grp d.pos d.top).isEmpty && s.mcastOut s.turn) = false := by
      cases hw : (s.ctx s.turn).spUses d.o (fmtBytes d.f) d.grp d.pos d.top with
      | nil => rfl
      | cons u l => simp [(writes u (hw ▸ List.mem_cons_self)).2.2.1]
    have wsound : ((s.ctx s.turn).spUses d.o (fmtBytes d.f) d.grp d.pos d.top).any
        (fun u => decide (u.2 < 8) && (s.cluster (clusterOf s.turn)).store.spBadIn (spOff u.1) u.2) = false :=
      List.any_eq_false.2 fun u hu => by
        have := (writes u hu).2.2.2
        simpa using this
    have waligned : ∀ u ∈ (if d.grp = true then [] else (s.ctx s.turn).spUses d.o (fmtBytes d.f) false d.pos),
        rangeIn .localSp u.1 u.2 = true ∧ u.1 % u.2 = 0 := fun u hu => by
      split at hu
      · cases hu
      · rename_i hg
        have hg : d.grp = false := by simpa using hg
        obtain ⟨hin, hal, -⟩ := writes u (by rwa [hg, Ctx.spUses_of_not_grp])
        exact ⟨hin, hal hg⟩
    dsimp only
    rw [spCheck_none (fun u hu => (List.mem_append.1 hu).elim (fun h => (reads u h).1) (fun h => (writes u h).1)) (by simp),
      spCheck_none (fun u hu => (List.mem_append.1 hu).elim (fun h => (aligned u h).1) (fun h => (waligned u h).1))
        (fun _ u hu => (List.mem_append.1 hu).elim (fun h => (aligned u h).2) (fun h => (waligned u h).2)),
      quiet, sound, wquiet, wsound, hwords]
    rfl

/-- An instruction whose meaning is `vectorOp` with these sources and destination, whatever the shape in which its results
are handed to the write, is done as R178 says where nothing stops it. -/
theorem vecDone_of_vectorOp {α β : Type} {i : Instr} {comp : (Nat → Nat → Nat) → FEnv → α × FEnv} {fin : State → α → State}
    {comp' : (Nat → Nat → Nat) → FEnv → β × FEnv} {fin' : State → β → State} (g : α → β) (h : vecReady s srcs dst more)
    (hi : exec i s = s.breaking.finish (s.breaking.vectorOp srcs dst comp' fin' more))
    (hcomp : ∀ v env, comp' v env = (g (comp v env).1, (comp v env).2))
    (hfin : ∀ u r, u.turn = s.turn → fin' u (g r) = fin u r)
    (hturn : (s.breaking.popAll s.turn srcs).1.turn = s.turn) : VecDone i s srcs comp fin := by
  refine ⟨_, _, _, _, rfl, rfl, ?_⟩
  simp only [hi, State.vectorOp_of_ready h, State.finish, hcomp]
  rw [hfin _ _ (by rw [State.setEnv_turn, hturn])]
  rfl

/-! ### What the parts leave unchanged -/

/-- Nothing differs between two states but, of core `k`, the registers other than the scalar ones and the masks, the flags and
the generator, and the clusters' stores. -/
structure VecKeeps (k : Nat) (s t : State) : Prop where
  home : t.home = s.home
  teams : t.teams = s.teams
  turn : t.turn = s.turn
  other : ∀ j, j ≠ k → t.core j = s.core j
  ctx : t.ctx k = { s.ctx k with
    regs := (t.ctx k).regs
    ctl := { (s.ctx k).ctl with fpflags := (t.ctx k).ctl.fpflags, rng := (t.ctx k).ctl.rng } }
  scalars : (t.ctx k).regs.s = (s.ctx k).regs.s
  masks : (t.ctx k).regs.k = (s.ctx k).regs.k

theorem VecKeeps.refl (k : Nat) (s : State) : VecKeeps k s s := ⟨rfl, rfl, rfl, fun _ _ => rfl, rfl, rfl, rfl⟩

theorem VecKeeps.trans {k : Nat} {s t u : State} (h : VecKeeps k s t) (g : VecKeeps k t u) : VecKeeps k s u where
  home := g.home.trans h.home
  teams := g.teams.trans h.teams
  turn := g.turn.trans h.turn
  other j hj := (g.other j hj).trans (h.other j hj)
  ctx := by rw [g.ctx, h.ctx]
  scalars := g.scalars.trans h.scalars
  masks := g.masks.trans h.masks

/-- A change of the registers that leaves the scalar ones and the masks. -/
theorem VecKeeps.onRegs (k : Nat) (s : State) {f : Regs → Regs} (hs : (f (s.ctx k).regs).s = (s.ctx k).regs.s)
    (hk : (f (s.ctx k).regs).k = (s.ctx k).regs.k) : VecKeeps k s (s.onCtx k (·.onRegs f)) where
  home := rfl
  teams := rfl
  turn := rfl
  other j hj := by rw [State.core_onCtx, if_neg hj]
  ctx := by rw [State.ctx_onCtx_same]; rfl
  scalars := by rw [State.ctx_onCtx_same]; exact hs
  masks := by rw [State.ctx_onCtx_same]; exact hk

theorem VecKeeps.setEnv (k : Nat) (s : State) (e : FEnv) : VecKeeps k s (s.setEnv k e) where
  home := rfl
  teams := rfl
  turn := rfl
  other j hj := by unfold State.setEnv; rw [State.core_onCtx, if_neg hj]
  ctx := by unfold State.setEnv; rw [State.ctx_onCtx_same]; rfl
  scalars := by unfold State.setEnv; rw [State.ctx_onCtx_same]
  masks := by unfold State.setEnv; rw [State.ctx_onCtx_same]

theorem VecKeeps.onStore (k n : Nat) (s : State) (f : TeamStore → TeamStore) : VecKeeps k s (s.onStore n f) :=
  ⟨rfl, rfl, rfl, fun _ _ => rfl, rfl, rfl, rfl⟩

theorem VecKeeps.streamTake (k q n : Nat) (s : State) : VecKeeps k s (s.streamTake k q n).1 :=
  VecKeeps.onRegs k s (f := fun r => { r with
    q := Map.set {} r.q q (((s.ctx k).regs.queue q).drop n)
    bad := r.bad.filterMap (·.shift q (((s.ctx k).regs.queue q).span n)) }) rfl rfl

theorem VecKeeps.popAll (k : Nat) (s : State) (vs : List VSrc) : VecKeeps k s (s.popAll k vs).1 := by
  unfold State.popAll
  suffices h : ∀ a : State × List (List (Nat × Nat)), VecKeeps k a.1 (vs.foldl _ a).1 from h (s, [])
  induction vs with
  | nil => exact fun a => .refl k a.1
  | cons v vs ih =>
    intro a
    refine VecKeeps.trans ?_ (ih _)
    dsimp only
    cases v.o
    case q n => exact VecKeeps.streamTake k n.toNat v.pos.length a.1
    all_goals exact .refl k a.1

/-! ### Writing elements -/

theorem Regs.setVElem_s (r : Regs) (n : Nat) (f : Fmt) (i v : Nat) : (r.setVElem n f i v).s = r.s := by
  unfold Regs.setVElem; split <;> rfl

theorem Regs.setVElem_k (r : Regs) (n : Nat) (f : Fmt) (i v : Nat) : (r.setVElem n f i v).k = r.k := by
  unfold Regs.setVElem; split <;> rfl

theorem Regs.setTag_s (r : Regs) (o : Operand) (t : Fmt) : (r.setTag o t).s = r.s := by
  unfold Regs.setTag; split
  · rfl
  · split
    · rfl
    · split <;> rfl

theorem Regs.setTag_k (r : Regs) (o : Operand) (t : Fmt) : (r.setTag o t).k = r.k := by
  unfold Regs.setTag; split
  · rfl
  · split
    · rfl
    · split <;> rfl

/-- The registers after elements of a vector register have been written. -/
theorem Regs.foldl_setVElem_keeps (n : Nat) (f : Fmt) (l : List (Nat × Nat)) (r : Regs) :
    (l.foldl (fun r e => r.setVElem n f e.1 e.2) r).s = r.s ∧ (l.foldl (fun r e => r.setVElem n f e.1 e.2) r).k = r.k :=
  ⟨foldl_keeps Regs.s (fun r e => r.setVElem_s n f e.1 e.2) l r,
    foldl_keeps Regs.k (fun r e => r.setVElem_k n f e.1 e.2) l r⟩

/-- A fold whose parts keep the scalar registers and the masks, with words healed after it. -/
theorem Regs.heal_foldl_keeps {f : Regs → Nat × Nat → Regs} (hs : ∀ r e, (f r e).s = r.s) (hk : ∀ r e, (f r e).k = r.k)
    (l : List (Nat × Nat)) (r : Regs) (p : BadReg → Bool) :
    ((l.foldl f r).heal p).s = r.s ∧ ((l.foldl f r).heal p).k = r.k :=
  ⟨foldl_keeps Regs.s hs l r, foldl_keeps Regs.k hk l r⟩

theorem Regs.writeTile_keeps (r : Regs) (o : Operand) (m : Nat) (t : TForm) (sx : Nat) (tag : Fmt)
    (vals : List (Nat × Nat)) : (r.writeTile o m t sx tag vals).s = r.s ∧ (r.writeTile o m t sx tag vals).k = r.k := by
  rw [← r.setTag_s o tag, ← r.setTag_k o tag]
  unfold Regs.writeTile
  dsimp only
  split
  · exact Regs.heal_foldl_keeps (by intros; rfl) (by intros; rfl) vals _ _
  · split
    · exact Regs.heal_foldl_keeps (by intros; rfl) (by intros; rfl) vals _ _
    · exact ⟨rfl, rfl⟩

theorem VecKeeps.writeElems (k : Nat) (s : State) (d : VDst) (vals : List (Nat × Nat)) :
    VecKeeps k s (s.writeElems k d vals) := by
  have tile : ∀ (o : Operand) (m : Nat) (t : TForm) (ix : SReg), VecKeeps k s
      (s.onCtx k (·.onRegs (fun r => r.writeTile o m t ((s.ctx k).rs ix).toNat d.tag vals))) := fun o m t ix =>
    VecKeeps.onRegs k s (Regs.writeTile_keeps _ o m t _ d.tag vals).1 (Regs.writeTile_keeps _ o m t _ d.tag vals).2
  unfold State.writeElems
  cases d.o
  case v n =>
    exact VecKeeps.onRegs k s
      ((Regs.foldl_setVElem_keeps n.toNat d.f vals _).1.trans (Regs.setTag_s _ _ _))
      ((Regs.foldl_setVElem_keeps n.toNat d.f vals _).2.trans (Regs.setTag_k _ _ _))
  case sp base stride => exact VecKeeps.onStore k _ s _
  case row m ix => exact tile _ _ _ _
  case col m ix => exact tile _ _ _ _
  case diag m ix => exact tile _ _ _ _
  all_goals exact .refl k s

/-! ### The frame of a vector instruction -/

/-- The context of the turn's core after an open region was broken, the registers, flags and generator were changed, and a
word was retired. -/
theorem VecKeeps.ctx_retire {s t : State} (h : VecKeeps s.turn s.breaking t) (n : Nat) : (t.retire n).ctx s.turn =
    { s.ctx s.turn with
      region := brokenRegion (s.ctx s.turn), regs := (t.ctx s.turn).regs, pc := (s.ctx s.turn).pc + BitVec.ofNat 64 n
      wfe := none, mx := none, steps := (s.ctx s.turn).steps.filter (·.ring ≠ (s.ctx s.turn).ring)
      ctl := { (s.ctx s.turn).ctl with
        fpflags := (t.ctx s.turn).ctl.fpflags, rng := (t.ctx s.turn).ctl.rng
        retired := (s.ctx s.turn).ctl.retired + 1 } } := by
  have ht : t.turn = s.turn := h.turn.trans (State.breaking_turn s)
  have hc := h.ctx
  rw [State.ctx_breaking] at hc
  have e := State.core_retire t n
  rw [ht] at e
  rw [State.ctx, e]
  dsimp only
  rw [hc]

/-- An instruction that breaks an open region, changes what `VecKeeps` allows, and moves on by three parcels. -/
theorem vecFrame_of_keeps {i : Instr} {s t : State} (h : VecKeeps s.turn s.breaking t) (hi : exec i s = .next (t.retire 12)) :
    VecFrame i s := by
  have ht : t.turn = s.turn := h.turn.trans (State.breaking_turn s)
  have hs : (t.ctx s.turn).regs.s = (s.ctx s.turn).regs.s := h.scalars.trans (by rw [State.breaking_regs])
  have hk : (t.ctx s.turn).regs.k = (s.ctx s.turn).regs.k := h.masks.trans (by rw [State.breaking_regs])
  refine ⟨_, hi, h.home.trans ?_, h.teams.trans (State.breaking_teams s), fun k hn => ?_, ?_⟩
  · rw [(onlyTurn_breaking s).1]
  · rw [State.core_retire_other t 12 (ht ▸ hn), h.other k hn, (onlyTurn_breaking s).2 k hn]
  · rw [h.ctx_retire]
    refine ⟨fun q => ?_, fun n => ?_, rfl, rfl, rfl, rfl⟩
    · unfold Ctx.rs; dsimp only; rw [hs]
    · unfold Regs.mask; dsimp only; rw [hk]

/-- The frame of a vector instruction that is done as R178 says. -/
theorem VecDone.frame {α : Type} {i : Instr} {s : State} {srcs : List VSrc} {comp : (Nat → Nat → Nat) → FEnv → α × FEnv}
    {fin : State → α → State} (h : VecDone i s srcs comp fin)
    (hfin : ∀ u r, u.turn = s.turn → VecKeeps s.turn u (fin u r)) : VecFrame i s := by
  obtain ⟨u, popped, r, env, hpop, -, hi⟩ := h
  have hu : VecKeeps s.turn s.breaking u := by
    have := VecKeeps.popAll s.turn s.breaking srcs
    rwa [hpop] at this
  have hturn : (u.setEnv s.turn env).turn = s.turn := hu.turn.trans (State.breaking_turn s)
  exact vecFrame_of_keeps ((hu.trans (.setEnv _ _ _)).trans (hfin _ r hturn)) hi

theorem State.popAll_turn (s : State) (vs : List VSrc) : (s.breaking.popAll s.turn vs).1.turn = s.turn :=
  (VecKeeps.popAll s.turn s.breaking vs).turn.trans (State.breaking_turn s)

end Sys2Proof.Machine
end

section
/-! PROOFS. Element moves (O43). -/

namespace Sys2Proof.Machine

/-- An instruction whose results go to the elements of its destination is done, and keeps its frame. -/
theorem vecDone_and_frame {i : Instr} {s : State} {srcs : List VSrc} {d : VDst} {more : List BadReg}
    {comp : (Nat → Nat → Nat) → FEnv → List (Nat × Nat) × FEnv} (h : vecReady s srcs (some d) more)
    (hi : exec i s = s.breaking.finish (s.breaking.vectorOp srcs (some d) comp
      (fun s vals => s.writeElems s.turn d vals) more)) :
    VecDone i s srcs comp (fun s vals => s.writeElems s.turn d vals) ∧ VecFrame i s := by
  have done := vecDone_of_vectorOp (comp := comp) (fin := fun s vals => s.writeElems s.turn d vals) id h hi
    (fun _ _ => rfl) (fun _ _ _ => rfl) (State.popAll_turn s srcs)
  exact ⟨done, done.frame fun u r hu => hu ▸ VecKeeps.writeElems _ u d r⟩

/-! ### The numbers of the active elements -/

/-- In an ascending list the element at place `n` has `n` elements below it. -/
theorem count_below_getElem (l : List Nat) (h : l.Pairwise (· < ·)) (n : Nat) (hn : n < l.length) :
    (l.filter (fun j => decide (j < l[n]))).length = n := by
  induction l generalizing n with
  | nil => simp at hn
  | cons a r ih =>
    obtain ⟨ha, hr⟩ := List.pairwise_cons.1 h
    cases n with
    | zero =>
      simp only [List.getElem_cons_zero, List.length_eq_zero_iff, List.filter_eq_nil_iff, decide_eq_true_eq, List.mem_cons]
      rintro j (rfl | hj)
      · omega
      · have := ha j hj; omega
    | succ n =>
      have hn : n < r.length := by simpa using hn
      rw [List.getElem_cons_succ, List.filter_cons_of_pos (by simpa using ha _ (List.getElem_mem hn)), List.length_cons,
        ih hr n hn]

/-- Numbering an ascending list is counting, for each element, those below it. -/
theorem enumerate_eq_map_count (l : List Nat) (h : l.Pairwise (· < ·)) :
    enumerate l = l.map (fun i => ((l.filter (fun j => decide (j < i))).length, i)) := by
  refine List.ext_getElem (by simp [enumerate]) fun n h1 h2 => ?_
  have hn : n < l.length := by simpa using h2
  simp [enumerate, count_below_getElem l h n hn]

theorem Regs.actives_pairwise (r : Regs) (k : BitVec 3) (n : Nat) : (r.actives k n).Pairwise (· < ·) :=
  List.pairwise_lt_range.filter _

/-! ### The words -/

/-- Each word of the table is `moveOp` under the table's plan. -/
theorem exec_moveRows {s : State} {w : VWord} {sc : SReg} {ix : BitVec 5} {e : Instr × Bool × Operand × Plan}
    (he : e ∈ moveRows s w sc ix) (hb : w.b = e.2.2.1) :
    ∃ plan : Ctx → Nat → List Nat → Plan, exec e.1 s = moveOp w e.2.1 plan s
      ∧ plan (s.breaking.ctx s.turn) (elemCount w.fmt) ((s.ctx s.turn).regs.actives w.k (elemCount w.fmt)) = e.2.2.2 := by
  have asc := Regs.actives_pairwise (s.ctx s.turn).regs w.k (elemCount w.fmt)
  rw [State.ctx_breaking]
  simp only [moveRows, List.mem_cons, List.not_mem_nil, or_false] at he
  rcases he with rfl | rfl | rfl | rfl | rfl | rfl | rfl | rfl | rfl
  · exact ⟨_, (rfl : execVsel w s = _), rfl⟩
  · exact ⟨_, (rfl : execVmov w s = _), rfl⟩
  · exact ⟨_, (rfl : execVbcast w s = _), by rw [hb]; rfl⟩
  · exact ⟨_, (rfl : execVperm w s = _), by rw [hb]; rfl⟩
  · exact ⟨_, (rfl : execVrot w s = _), by rw [hb]; rfl⟩
  · exact ⟨_, (rfl : execVcomp w s = _), by rw [enumerate_eq_map_count _ asc, List.map_map]; rfl⟩
  · exact ⟨_, (rfl : execVexpd w s = _), by rw [enumerate_eq_map_count _ asc, List.map_map]; rfl⟩
  · exact ⟨_, (rfl : execVzip w s = _), rfl⟩
  · exact ⟨_, (rfl : execVuzp w s = _), rfl⟩

/-- Settles O43: each word is `moveOp` under its plan, which reads, computes and writes in the frame of R178. -/
theorem elementMoves : Obligations.ElementMoves := by
  unfold Obligations.ElementMoves
  rintro s w sc ix e want srcs d he hb rfl rfl rfl ready
  obtain ⟨plan, hexec, hplan⟩ := exec_moveRows he hb
  refine vecDone_and_frame ready (hexec.trans ?_)
  unfold moveOp
  dsimp only
  rw [State.breaking_turn, State.breaking_regs, hplan]

end Sys2Proof.Machine
end

section
/-! PROOFS. Element-wise vector arithmetic (O39). -/

namespace Sys2Proof.Machine

/-! ### Integers and scales -/

theorem floatFields_eq_none {f : Fmt} (h : f ∈ [Fmt.int8, .uint8, .int16, .int32]) : floatFields f = none := by
  simp only [List.mem_cons, List.not_mem_nil, or_false] at h
  rcases h with rfl | rfl | rfl | rfl <;> rfl

/-- R17: the integer of a pattern. -/
theorem patNum_int {f : Fmt} (x : Nat) (h : f ∈ [Fmt.int8, .uint8, .int16, .int32]) : patNum f x = some (intVal f x : ℚ) := by
  simp only [List.mem_cons, List.not_mem_nil, or_false] at h
  rcases h with rfl | rfl | rfl | rfl
  case inr.inl => exact congrArg some (Int.cast_natCast _).symm
  all_goals simp [patNum, floatFields, intVal]

/-- The integers of an integer format are those of its range. -/
theorem intVal_mem_range {f : Fmt} (x : Nat) (h : f ∈ [Fmt.int8, .uint8, .int16, .int32]) :
    (intRange f).1 ≤ intVal f x ∧ intVal f x ≤ (intRange f).2 := by
  simp only [List.mem_cons, List.not_mem_nil, or_false] at h
  rcases h with rfl | rfl | rfl | rfl <;> simp only [intRange, intVal]
  · have := (BitVec.ofNat 8 x).isLt; rw [BitVec.toInt_eq_toNat_cond]; split <;> omega
  · omega
  · have := (BitVec.ofNat 16 x).isLt; rw [BitVec.toInt_eq_toNat_cond]; split <;> omega
  · have := (BitVec.ofNat 32 x).isLt; rw [BitVec.toInt_eq_toNat_cond]; split <;> omega

theorem intBits_lt (f : Fmt) (r : Int) : intBits f r < 2 ^ fmtBits f := (BitVec.ofInt (fmtBits f) r).isLt

theorem intBits_eq (f : Fmt) (r : Int) : intBits f r = (r % (2 ^ fmtBits f : Nat)).toNat := BitVec.toNat_ofInt _

/-- An integer of the range comes back from its pattern. -/
theorem intVal_intBits {f : Fmt} {r : Int} (h : f ∈ [Fmt.int8, .uint8, .int16, .int32]) (hl : (intRange f).1 ≤ r)
    (hu : r ≤ (intRange f).2) : intVal f (intBits f r) = r := by
  simp only [List.mem_cons, List.not_mem_nil, or_false] at h
  rcases h with rfl | rfl | rfl | rfl <;> simp only [intRange, intVal, intBits, fmtBits] at *
  · rw [BitVec.ofNat_toNat, BitVec.setWidth_eq, BitVec.toInt_ofInt, Int.bmod_def]; omega
  · rw [BitVec.toNat_ofInt]; omega
  · rw [BitVec.ofNat_toNat, BitVec.setWidth_eq, BitVec.toInt_ofInt, Int.bmod_def]; omega
  · rw [BitVec.ofNat_toNat, BitVec.setWidth_eq, BitVec.toInt_ofInt, Int.bmod_def]; omega

/-- A pattern comes back from its integer. -/
theorem intBits_intVal {f : Fmt} {x : Nat} (h : f ∈ [Fmt.int8, .uint8, .int16, .int32]) (hx : x < 2 ^ fmtBits f) :
    intBits f (intVal f x) = x := by
  simp only [List.mem_cons, List.not_mem_nil, or_false] at h
  rcases h with rfl | rfl | rfl | rfl <;> simp only [intVal, intBits, fmtBits] at *
  · rw [BitVec.ofInt_toInt, BitVec.toNat_ofNat]; omega
  · rw [BitVec.toNat_ofInt]; omega
  · rw [BitVec.ofInt_toInt, BitVec.toNat_ofNat]; omega
  · rw [BitVec.ofInt_toInt, BitVec.toNat_ofNat]; omega

/-- R17: an integer format holds the integers of its range. -/
theorem holds_int_iff {f : Fmt} {r : Int} (h : f ∈ [Fmt.int8, .uint8, .int16, .int32]) :
    Holds f r ↔ (intRange f).1 ≤ r ∧ r ≤ (intRange f).2 := by
  constructor
  · rintro ⟨x, -, hx⟩
    rw [patNum_int x h, Option.some_inj] at hx
    exact (Int.cast_inj.1 hx) ▸ intVal_mem_range x h
  · rintro ⟨hl, hu⟩
    exact ⟨intBits f r, intBits_lt f r, by rw [patNum_int _ h, intVal_intBits h hl hu]⟩

/-- A bound that is a number of the format is the pattern of the format's own bound. -/
theorem eq_intBits_of_least {f : Fmt} {x : Nat} {y : ℚ} (h : f ∈ [Fmt.int8, .uint8, .int16, .int32]) (hx : x < 2 ^ fmtBits f)
    (hy : patNum f x = some y) (hmin : ∀ z, Holds f z → y ≤ z) : x = intBits f (intRange f).1 := by
  have hr : (intRange f).1 ≤ (intRange f).2 := by cases f <;> decide
  have h1 := hmin _ ((holds_int_iff (r := (intRange f).1) h).2 ⟨le_rfl, hr⟩)
  rw [patNum_int x h, Option.some_inj] at hy
  rw [← hy, Int.cast_le] at h1
  rw [← le_antisymm h1 (intVal_mem_range x h).1, intBits_intVal h hx]

theorem eq_intBits_of_greatest {f : Fmt} {x : Nat} {y : ℚ} (h : f ∈ [Fmt.int8, .uint8, .int16, .int32]) (hx : x < 2 ^ fmtBits f)
    (hy : patNum f x = some y) (hmax : ∀ z, Holds f z → z ≤ y) : x = intBits f (intRange f).2 := by
  have hr : (intRange f).1 ≤ (intRange f).2 := by cases f <;> decide
  have h1 := hmax _ ((holds_int_iff (r := (intRange f).2) h).2 ⟨hr, le_rfl⟩)
  rw [patNum_int x h, Option.some_inj] at hy
  rw [← hy, Int.cast_le] at h1
  rw [← le_antisymm (intVal_mem_range x h).2 h1, intBits_intVal h hx]

/-- R184: an integer result without saturation, or in range, is the integer modulo 2^(8w). -/
theorem intRes_of_fits {f : Fmt} {sat : Bool} {r : Int} (h : f ∈ [Fmt.int8, .uint8, .int16, .int32])
    (hr : sat = false ∨ Holds f r) (env : FEnv) : intRes f sat r env = (intBits f r, env) := by
  unfold intRes
  dsimp only
  rcases hr with rfl | hr
  · rfl
  · obtain ⟨hl, hu⟩ := (holds_int_iff h).1 hr
    rw [if_neg (by simpa using fun _ => hl), if_neg (by simpa using fun _ => hu)]

/-- R184: a saturated result out of range is the bound that it passes, with SAT. -/
theorem intRes_of_clamps {f : Fmt} {r : Int} (h : f ∈ [Fmt.int8, .uint8, .int16, .int32]) (hr : ¬ Holds f r) (env : FEnv) :
    intRes f true r env = (intBits f (if r < (intRange f).1 then (intRange f).1 else (intRange f).2), env.raise fSAT) := by
  have hr : ¬ ((intRange f).1 ≤ r ∧ r ≤ (intRange f).2) := fun g => hr ((holds_int_iff h).2 g)
  unfold intRes
  dsimp only
  by_cases hl : r < (intRange f).1
  · rw [if_pos (by simpa using hl), if_pos hl]
  · rw [if_neg (by simpa using hl), if_pos (by simpa using by omega), if_neg hl]

/-- A value under a scale stands for its number times 2^(e − 127). -/
theorem valNum_scaled (v : FVal) (e : Nat) : valNum (v.scaled e) = (valNum v).map (· * 2 ^ ((e : ℤ) - 127)) := by
  cases v with
  | nan => rfl
  | inf n => rfl
  | fin n m x st =>
    cases st with
    | true => rfl
    | false =>
      simp only [FVal.scaled, valNum, Option.map_some, Option.some_inj]
      rw [show x + (e : ℤ) - 127 = x + ((e : ℤ) - 127) by ring, zpow_add₀ (by norm_num)]
      ring

/-- R187: a scale of 0xFF gives the canonical NaN and no flag. -/
theorem scaleInto_nan {f : Fmt} (rm : Rm) (v : FVal) {e : Nat} (env : FEnv) (he : e % 256 = 255) (hf : f ∈ arithFormats) :
    (scaleInto f rm v e env).1 = (encodeF f rm false .nan env).1 ∧ (scaleInto f rm v e env).2.flags = env.flags := by
  unfold scaleInto
  rw [if_pos he]
  refine ⟨?_, by unfold FEnv.draw; split <;> rfl⟩
  simp only [arithFormats, List.mem_cons, List.not_mem_nil, or_false] at hf
  rcases hf with rfl | rfl | rfl | rfl <;> rfl

/-! ### The words -/

/-- Each word of the table is `arith` on the table's sources and result. -/
theorem exec_arithRows {s : State} {w : VWord} {e : Instr × Option Fmt × Bool × (Nat → Nat → Nat → FEnv → Nat × FEnv)}
    (he : e ∈ arithRows w) :
    ∃ g : Rm → Nat → Nat → Nat → FEnv → Nat × FEnv, exec e.1 s = arith w e.2.1.isSome e.2.2.1 (e.2.1.getD w.fmt) g s
      ∧ (∀ a b d env, e.2.2.2 a b d env
        = g (Rm.ofCode w.rm) a (if e.2.1.isSome then b else 0) (if e.2.2.1 then d else 0) env)
      ∧ (e.2.2.1 = true → e.2.1.isSome = true) := by
  simp only [arithRows, List.mem_cons, List.not_mem_nil, or_false] at he
  rcases he with rfl | rfl | rfl | rfl | rfl | rfl | rfl | rfl | rfl | rfl | rfl | rfl | rfl | rfl
     | rfl | rfl | rfl | rfl | rfl | rfl | rfl | rfl | rfl | rfl | rfl | rfl | rfl
     | rfl | rfl | rfl | rfl | rfl | rfl | rfl | rfl | rfl
  all_goals
    refine ⟨_, by
      dsimp only [exec, float2, fused, signOp, transOp, intOp, Option.isSome, Option.getD, execVadd, execVsub, execVmul,
        execVdiv, execVfma, execVfms, execVfnma, execVfnms, execVmax, execVmin, execVsqrt, execVabs, execVneg, execVcpsgn,
        execVexp2, execVlog2, execVrcp, execVrsq, execVsigm, execVtanh, execViadd, execVisub, execVimul, execVimulh,
        execVimin, execVimax, execViminu, execVimaxu, execVand, execVor, execVxor, execVshl, execVshr, execVsra, execViabs,
        execVscale], fun a b d env => ?_, by simp⟩
    dsimp only
  any_goals rfl
  · by_cases hs : 2 ^ (fmtBits w.fmt - 1) ≤ a <;> simp [hs]
  · simp only [Option.isSome, if_true, decide_eq_true_eq]
  · rw [Nat.shiftRight_eq_div_pow]; rfl

/-- R176, R178: an element-wise word with operands that nothing stops is done, and keeps its frame. -/
theorem arithRows_done {s : State} {w : VWord} {e : Instr × Option Fmt × Bool × (Nat → Nat → Nat → FEnv → Nat × FEnv)}
    {dst : VDst} (he : e ∈ arithRows w)
    (hd : dst = ⟨w.d, w.fmt, w.fmt, (s.ctx s.turn).regs.actives w.k (elemCount w.fmt), false, 128⟩)
    (ready : vecReady s (arithSrcs s w e.2.1 e.2.2.1) (some dst)) :
    VecDone e.1 s (arithSrcs s w e.2.1 e.2.2.1)
      (fun v env => mapElems (fun i => e.2.2.2 (v 0 i) (v 1 i) (v 2 i)) dst.pos env)
      (fun s vals => s.writeElems s.turn dst vals) ∧ VecFrame e.1 s := by
  obtain ⟨g, hexec, hg, hud⟩ := exec_arithRows (s := s) he
  obtain ⟨ins, b, useD, f⟩ := e
  dsimp only at hexec hg hud ready ⊢
  have hsrcs : arithSrcs s w b useD = [⟨1, w.a, some w.fmt, w.fmt, .raw, dst.pos, false⟩]
      ++ (if b.isSome then [⟨2, w.b, some (b.getD w.fmt), b.getD w.fmt, .raw, dst.pos, false⟩] else [])
      ++ (if useD then [⟨0, w.d, some w.fmt, w.fmt, .raw, dst.pos, false⟩] else []) := by
    rw [hd]; cases b <;> rfl
  have hcomp : (fun (v : Nat → Nat → Nat) env => mapElems (fun i => f (v 0 i) (v 1 i) (v 2 i)) dst.pos env)
      = fun v env => mapElems (fun i => g (Rm.ofCode w.rm) (v 0 i) (if b.isSome then v 1 i else 0)
          (if useD then v (if b.isSome then 2 else 1) i else 0)) dst.pos env := by
    funext v env
    congr 1
    funext i env
    rw [hg]
    cases useD with
    | false => rfl
    | true => simp only [hud rfl, if_true]
  refine vecDone_and_frame ready (hexec.trans ?_)
  rw [hcomp, hsrcs, hd]
  unfold arith
  dsimp only
  rw [State.breaking_turn, State.breaking_regs]

/-! ### Elements in ascending order -/

/-- R178: the elements that a computation gives whose results do not depend on the environment. -/
theorem mapElems_fst (f : Nat → FEnv → Nat × FEnv) (v : Nat → Nat) (hv : ∀ i env, (f i env).1 = v i) (l : List Nat)
    (env : FEnv) : (mapElems f l env).1 = l.map (fun i => (i, v i)) := by
  induction l generalizing env with
  | nil => rfl
  | cons i r ih => simp only [mapElems, hv, ih, List.map_cons]

/-- R29: one flag over a list of elements: it is set where it was or where some element raises it. -/
theorem mapElems_flag (f : Nat → FEnv → Nat × FEnv) (n : Nat) (p : Nat → Prop)
    (hf : ∀ i env, (f i env).2.flags.getLsbD n = true ↔ (env.flags.getLsbD n = true ∨ p i)) (l : List Nat) (env : FEnv) :
    (mapElems f l env).2.flags.getLsbD n = true ↔ (env.flags.getLsbD n = true ∨ ∃ i ∈ l, p i) := by
  induction l generalizing env with
  | nil => simp [mapElems]
  | cons i r ih =>
    simp only [mapElems, ih, hf, List.mem_cons, exists_eq_or_imp]
    tauto

/-! ### Lanes -/

theorem Regs.lane_setLane (r : Regs) (n i : Nat) (x : Parcel) (j : Nat) :
    (r.setLane n i x).lane n j = if j = i then x else r.lane n j := by
  unfold Regs.setLane Regs.lane
  rw [Sparse.get_set]
  by_cases h : j = i
  · rw [if_pos (by omega), if_pos h]
  · rw [if_neg (by omega), if_neg h]

@[simp] theorem Regs.lane_setTag_v (r : Regs) (n : BitVec 5) (t : Fmt) (m j : Nat) :
    (r.setTag (.v n) t).lane m j = r.lane m j := rfl

@[simp] theorem Regs.vTag_setTag_v (r : Regs) (n : BitVec 5) (t : Fmt) (m : Nat) :
    (r.setTag (.v n) t).vTag m = if m = n.toNat then t else r.vTag m := Map.get_set _ _ _ _ _

theorem Regs.vTag_foldl_setVElem (n : Nat) (f : Fmt) (l : List (Nat × Nat)) (r : Regs) (m : Nat) :
    (l.foldl (fun r e => r.setVElem n f e.1 e.2) r).vTag m = r.vTag m :=
  foldl_keeps (fun r => r.vTag m) (fun r e => by unfold Regs.setVElem; split <;> rfl) l r

/-- The lanes of a vector register after elements of at most 32 bits have been written to it. -/
theorem Regs.lane_foldl_setVElem (n : Nat) {f : Fmt} (hf : f ≠ .fp64) (v : Nat → Nat) (l : List Nat) (r : Regs) (j : Nat) :
    ((l.map (fun i => (i, v i))).foldl (fun r e => r.setVElem n f e.1 e.2) r).lane n j
      = if j ∈ l then BitVec.ofNat 32 (v j % 2 ^ fmtBits f) else r.lane n j := by
  induction l generalizing r with
  | nil => simp
  | cons i l ih =>
    rw [List.map_cons, List.foldl_cons, ih]
    have e : (r.setVElem n f i (v i)).lane n j = if j = i then BitVec.ofNat 32 (v i % 2 ^ fmtBits f) else r.lane n j := by
      unfold Regs.setVElem; rw [if_neg hf, Regs.lane_setLane]
    rw [e]
    by_cases hl : j ∈ l
    · rw [if_pos hl, if_pos (List.mem_cons_of_mem _ hl)]
    · rw [if_neg hl]
      by_cases hi : j = i
      · subst hi; rw [if_pos rfl, if_pos List.mem_cons_self]
      · rw [if_neg hi, if_neg (by simp [hi, hl])]

/-! ### VIADD of INT8 registers -/

/-- Nothing stops a word of vector registers of the right tags where no word fails its ECC. -/
theorem vecReady_of_registers {s : State} {a b d : BitVec 5} {w : VWord} (ha : (s.ctx s.turn).regs.vTag a.toNat = w.fmt)
    (hb : (s.ctx s.turn).regs.vTag b.toNat = w.fmt) (hbad : (s.ctx s.turn).regs.bad = []) (pos : List Nat) :
    vecReady s [⟨1, .v a, some w.fmt, w.fmt, .raw, pos, false⟩, ⟨2, .v b, some w.fmt, w.fmt, .raw, pos, false⟩]
      (some ⟨.v d, w.fmt, w.fmt, pos, false, 128⟩) := by
  have fits : ∀ (c : Nat) (n : BitVec 5), (s.ctx s.turn).regs.vTag n.toNat = w.fmt →
      (s.ctx s.turn).regs.checkSrc c (.v n) w.fmt = none := fun c n h => by
    simp [Regs.checkSrc, Regs.tagOf, isTile, tileForm, h]
  refine ⟨?_, ?_, ?_, ?_, ?_, by simp [streamNeeds]⟩
  · simp [fits 1 a ha, fits 2 b hb]
  · simp [Regs.checkDst, tileForm]
  · simp [Ctx.spUses]
  · simp [Ctx.spUses]
  · simp [Regs.reads, hbad]

/-- Bit `n` of an FP flag word after SAT is raised. -/
theorem getLsbD_raise_sat (env : FEnv) (n : Nat) :
    (env.raise fSAT).flags.getLsbD n = true ↔ (env.flags.getLsbD n = true ∨ n = 5) := by
  have h : fSAT.getLsbD n = decide (n = 5) := by
    by_cases hn : n < 7
    · interval_cases n <;> rfl
    · rw [BitVec.getLsbD_of_ge _ _ (by omega)]; simp; omega
  simp [FEnv.raise, BitVec.getLsbD_or, h]

/-- INT8 holds the integers from −128 to 127. -/
theorem holds_int8_iff (r : Int) : Holds .int8 (r : ℚ) ↔ ¬ (r < -128 ∨ 127 < r) := by
  rw [holds_int_iff (by decide)]
  show -128 ≤ r ∧ r ≤ 127 ↔ _
  omega

/-- One element of VIADD in INT8: the sum modulo 2^8, or clamped. -/
theorem viadd_int8_val (sat : Bool) (x y : BitVec 8) (env : FEnv) :
    (intRes .int8 sat (intVal .int8 x.toNat + intVal .int8 y.toNat) env).1
      = if sat then (BitVec.ofInt 8 (max (-128) (min 127 (x.toInt + y.toInt)))).toNat else (x + y).toNat := by
  have hx : ∀ z : BitVec 8, intVal .int8 z.toNat = z.toInt := fun z => by simp [intVal]
  rw [hx, hx]
  by_cases hr : Holds .int8 ((x.toInt + y.toInt : Int) : ℚ)
  · rw [intRes_of_fits (by decide) (.inr hr)]
    rw [holds_int8_iff] at hr
    cases sat with
    | false => simp [intBits, fmtBits, BitVec.ofInt_add]
    | true => rw [if_pos rfl, max_eq_right (by omega), min_eq_right (by omega)]; rfl
  · cases sat with
    | false => rw [intRes_of_fits (by decide) (.inl rfl)]; simp [intBits, fmtBits, BitVec.ofInt_add]
    | true =>
      rw [intRes_of_clamps (by decide) hr, if_pos rfl]
      rw [holds_int8_iff, not_not] at hr
      show intBits .int8 (if x.toInt + y.toInt < -128 then -128 else 127) = _
      rcases hr with hr | hr
      · rw [if_pos hr, max_eq_left (by omega)]; rfl
      · rw [if_neg (by omega), min_eq_left (by omega)]; rfl

/-- The flags of one element of VIADD in INT8: SAT where it is clamped. -/
theorem viadd_int8_flag (sat : Bool) (x y : BitVec 8) (env : FEnv) (n : Nat) :
    (intRes .int8 sat (intVal .int8 x.toNat + intVal .int8 y.toNat) env).2.flags.getLsbD n = true
      ↔ (env.flags.getLsbD n = true
        ∨ (n = 5 ∧ sat = true ∧ (x.toInt + y.toInt < -128 ∨ 127 < x.toInt + y.toInt))) := by
  have hx : ∀ z : BitVec 8, intVal .int8 z.toNat = z.toInt := fun z => by simp [intVal]
  rw [hx, hx]
  by_cases hr : Holds .int8 ((x.toInt + y.toInt : Int) : ℚ)
  · rw [intRes_of_fits (by decide) (.inr hr)]
    rw [holds_int8_iff] at hr
    simp [hr]
  · cases sat with
    | false => rw [intRes_of_fits (by decide) (.inl rfl)]; simp
    | true =>
      rw [intRes_of_clamps (by decide) hr, getLsbD_raise_sat]
      rw [holds_int8_iff, not_not] at hr
      simp [hr]

theorem State.ctx_writeElems_v (s : State) (k : Nat) (n : BitVec 5) (f tag : Fmt) (pos : List Nat) (grp : Bool) (top : Nat)
    (vals : List (Nat × Nat)) : (s.writeElems k ⟨.v n, f, tag, pos, grp, top⟩ vals).ctx k
      = (s.ctx k).onRegs (fun r => vals.foldl (fun r e => r.setVElem n.toNat f e.1 e.2) (r.setTag (.v n) tag)) :=
  State.ctx_onCtx_same _ _ _

theorem State.ctx_setEnv (s : State) (k : Nat) (e : FEnv) :
    (s.setEnv k e).ctx k = { s.ctx k with ctl := (s.ctx k).ctl.setEnv e } := State.ctx_onCtx_same _ _ _

theorem Regs.exists_int8_elems (r : Regs) (n : Nat) : ∃ x : Nat → BitVec 8, ∀ i, (x i).toNat = r.vElem n .int8 i :=
  ⟨fun i => BitVec.ofNat 8 (r.vElem n .int8 i), fun i => by
    rw [BitVec.toNat_ofNat]; exact Nat.mod_eq_of_lt (Nat.mod_lt _ (by decide))⟩

/-- R184: VIADD of INT8 registers. -/
theorem viadd_int8 {s : State} {w : VWord} {d a b : BitVec 5} (hf : w.fmt = .int8) (hd : w.d = .v d) (ha : w.a = .v a)
    (hb : w.b = .v b) (ta : (s.ctx s.turn).regs.vTag a.toNat = .int8) (tb : (s.ctx s.turn).regs.vTag b.toNat = .int8)
    (hbad : (s.ctx s.turn).regs.bad = []) :
    ∃ (t : State) (x y : Nat → BitVec 8), exec (.viadd w) s = .next t
      ∧ (∀ i, (x i).toNat = (s.ctx s.turn).regs.vElem a.toNat .int8 i
          ∧ (y i).toNat = (s.ctx s.turn).regs.vElem b.toNat .int8 i)
      ∧ (∀ i, i < 128 → ((s.ctx s.turn).regs.mask w.k.toNat).getLsbD i = true →
          (w.flags.getLsbD 0 = false → (t.ctx s.turn).regs.vElem d.toNat .int8 i = (x i + y i).toNat)
          ∧ (w.flags.getLsbD 0 = true → (t.ctx s.turn).regs.vElem d.toNat .int8 i
              = (BitVec.ofInt 8 (max (-128) (min 127 ((x i).toInt + (y i).toInt)))).toNat))
      ∧ (∀ i, i < 128 → ((s.ctx s.turn).regs.mask w.k.toNat).getLsbD i = false →
          (t.ctx s.turn).regs.lane d.toNat i = (s.ctx s.turn).regs.lane d.toNat i)
      ∧ ((t.ctx s.turn).ctl.fpflags.getLsbD 5 = true ↔ ((s.ctx s.turn).ctl.fpflags.getLsbD 5 = true
          ∨ (w.flags.getLsbD 0 = true ∧ ∃ i, i < 128 ∧ ((s.ctx s.turn).regs.mask w.k.toNat).getLsbD i = true
            ∧ ((x i).toInt + (y i).toInt < -128 ∨ 127 < (x i).toInt + (y i).toInt))))
      ∧ (∀ n, n ≠ 5 → (t.ctx s.turn).ctl.fpflags.getLsbD n = (s.ctx s.turn).ctl.fpflags.getLsbD n)
      ∧ (t.ctx s.turn).regs.vTag d.toNat = .int8 := by
  obtain ⟨k, fmt, rm, fl, wd, wa, wb⟩ := w
  dsimp only at hf hd ha hb
  subst hf hd ha hb
  dsimp only
  have act : ∀ i, i ∈ (s.ctx s.turn).regs.actives k 128
      ↔ i < 128 ∧ ((s.ctx s.turn).regs.mask k.toNat).getLsbD i = true := fun i => by
    unfold Regs.actives; rw [List.mem_filter, List.mem_range]
  obtain ⟨x, hx⟩ := Regs.exists_int8_elems (s.ctx s.turn).regs a.toNat
  obtain ⟨y, hy⟩ := Regs.exists_int8_elems (s.ctx s.turn).regs b.toNat
  obtain ⟨⟨u, popped, r, env, hpop, hcomp, hi⟩, -⟩ :=
    arithRows_done (s := s) (w := ⟨k, .int8, rm, fl, .v d, .v a, .v b⟩)
      (e := (.viadd ⟨k, .int8, rm, fl, .v d, .v a, .v b⟩, some .int8, false,
        fun a b _ env => intRes .int8 (fl.getLsbD 0) (intVal .int8 a + intVal .int8 b) env))
      (dst := ⟨.v d, .int8, .int8, (s.ctx s.turn).regs.actives k 128, false, 128⟩)
      (by simp [arithRows]) rfl (vecReady_of_registers ta tb hbad _)
  obtain ⟨rfl, rfl⟩ := Prod.mk.inj hpop
  have hval : (fun i env => intRes .int8 (fl.getLsbD 0)
      (intVal .int8 ((s.breaking.ctx s.turn).regs.vElem a.toNat .int8 i)
        + intVal .int8 ((s.breaking.ctx s.turn).regs.vElem b.toNat .int8 i)) env)
      = fun i env => intRes .int8 (fl.getLsbD 0) (intVal .int8 (x i).toNat + intVal .int8 (y i).toNat) env := by
    funext i env; rw [State.breaking_regs, hx, hy]
  change mapElems (fun i env => intRes .int8 (fl.getLsbD 0)
      (intVal .int8 ((s.breaking.ctx s.turn).regs.vElem a.toNat .int8 i)
        + intVal .int8 ((s.breaking.ctx s.turn).regs.vElem b.toNat .int8 i)) env) _ _ = _ at hcomp
  rw [hval] at hcomp
  have hr := mapElems_fst _ (fun i => if fl.getLsbD 0 then (BitVec.ofInt 8 (max (-128) (min 127 ((x i).toInt + (y i).toInt)))).toNat
    else (x i + y i).toNat) (fun i env => viadd_int8_val (fl.getLsbD 0) (x i) (y i) env)
    ((s.ctx s.turn).regs.actives k 128) ⟨(s.ctx s.turn).ctl.fpflags, (s.ctx s.turn).ctl.rng⟩
  have hflag := fun n => mapElems_flag _ n _ (fun i env => viadd_int8_flag (fl.getLsbD 0) (x i) (y i) env n)
    ((s.ctx s.turn).regs.actives k 128) ⟨(s.ctx s.turn).ctl.fpflags, (s.ctx s.turn).ctl.rng⟩
  rw [hcomp] at hr hflag
  dsimp only at hr hflag hi
  subst hr
  rw [State.setEnv_turn, State.breaking_turn] at hi
  have keeps : ∀ dst vals, VecKeeps s.turn s.breaking ((s.breaking.setEnv s.turn env).writeElems s.turn dst vals) :=
    fun dst vals => (VecKeeps.setEnv s.turn s.breaking env).trans (VecKeeps.writeElems _ _ dst vals)
  have lanes := Regs.lane_foldl_setVElem d.toNat (f := .int8) (by decide) (fun i =>
    if fl.getLsbD 0 then (BitVec.ofInt 8 (max (-128) (min 127 ((x i).toInt + (y i).toInt)))).toNat else (x i + y i).toNat)
    ((s.ctx s.turn).regs.actives k 128) ((s.ctx s.turn).regs.setTag (.v d) .int8)
  refine ⟨_, x, y, hi, fun i => ⟨hx i, hy i⟩, ?_⟩
  rw [(keeps _ _).ctx_retire, State.ctx_writeElems_v, State.ctx_setEnv]
  dsimp only [Ctx.onRegs, Ctl.setEnv]
  rw [State.breaking_regs]
  refine ⟨fun i hi hm => ?_, fun i hi hm => ?_, ?_, fun n hn => ?_, ?_⟩
  · have e := lanes i
    rw [if_pos ((act i).2 ⟨hi, hm⟩)] at e
    have back : ∀ z : BitVec 8, (BitVec.ofNat 32 (z.toNat % 2 ^ 8)).toNat % 2 ^ 8 = z.toNat := fun z => by
      rw [BitVec.toNat_ofNat]; have := z.isLt; omega
    constructor <;> intro hs <;> simp only [hs, if_true, Bool.false_eq_true, if_false] at e ⊢
    all_goals exact (congrArg (fun l : Parcel => l.toNat % 2 ^ 8) e).trans (back _)
  · rw [lanes i, if_neg (by rw [act, hm]; simp)]; rfl
  · rw [hflag 5]
    simp only [act, true_and]
    exact or_congr_right ⟨fun ⟨i, ⟨hi, hm⟩, hs, hc⟩ => ⟨hs, i, hi, hm, hc⟩, fun ⟨hs, i, hi, hm, hc⟩ => ⟨i, ⟨hi, hm⟩, hs, hc⟩⟩
  · rw [← Bool.coe_iff_coe, hflag n]; simp [hn]
  · rw [Regs.vTag_foldl_setVElem, Regs.vTag_setTag_v, if_pos rfl]

/-- Settles O39: the words by `arithRows_done`, VIADD of INT8 registers by `viadd_int8`, and what the words compute with. -/
theorem vectorArithmetic : Obligations.VectorArithmetic := by
  unfold Obligations.VectorArithmetic
  refine ⟨fun s w e dst he hd ready => arithRows_done he hd ready,
    fun s w d a b hf hd ha hb ta tb hbad => viadd_int8 hf hd ha hb ta tb hbad,
    fun f x hf => patNum_int x hf, fun f sat r env hf => ⟨fun hr => ?_, ?_⟩,
    fun f rm v e env he => ⟨v.scaled (e % 256), if_neg he, valNum_scaled v _, ?_⟩,
    fun f rm v e env he hf => scaleInto_nan rm v env he hf, fun g i l env => ⟨rfl, rfl⟩⟩
  · rw [intRes_of_fits hf hr, intBits_eq]
  · rintro x y rfl hr hx hy hext
    rw [intRes_of_clamps hf hr, Prod.mk.injEq]
    refine ⟨?_, rfl⟩
    have hr' : ¬ ((intRange f).1 ≤ r ∧ r ≤ (intRange f).2) := fun g => hr ((holds_int_iff hf).2 g)
    have hzero : (intRange f).1 ≤ 0 ∧ 0 ≤ (intRange f).2 := by cases f <;> decide
    by_cases hneg : r < 0
    · rw [if_pos (by omega), eq_intBits_of_least hf hx hy (by simpa [hneg] using hext)]
    · rw [if_neg (by omega), eq_intBits_of_greatest hf hx hy (by simpa [hneg] using hext)]
  · rintro (rfl | rfl | rfl) <;> rfl

end Sys2Proof.Machine
end

section
/-! PROOFS. Decoding (R17 to R19, R21, R23): every pattern stands for its number, infinity or NaN. -/

namespace Sys2Proof.Machine

/-! ### Floating-point fields -/

/-- What the table of R18 says of a floating-point format, as the encoder and the decoder hold it. -/
structure IsFloat (f : Fmt) (e w b : Nat) : Prop where
  fields : floatFields f = some (e, w, b)
  spec : fspec f = ⟨e, w, b⟩
  bits : fmtBits f = w + e + 1
  inf : hasInf f = decide (f ∈ infFormats)
  one_le_frac : 2 ≤ w
  one_le_exp : 2 ≤ e
  bias : b = 2 ^ (e - 1) - 1

theorem isFloat_of_fields {f : Fmt} {e w b : Nat} (h : floatFields f = some (e, w, b)) : IsFloat f e w b := by
  cases f <;> simp only [floatFields, Option.some_inj, Prod.mk.injEq, reduceCtorEq] at h <;> obtain ⟨rfl, rfl, rfl⟩ := h
  all_goals exact ⟨rfl, rfl, rfl, rfl, by decide, by decide, by decide⟩

/-- R18, R19, R21: what a floating-point pattern decodes to, by its fields. -/
theorem decodeF_float {f : Fmt} {e w b : Nat} (h : floatFields f = some (e, w, b)) (x : Nat) :
    decodeF f x =
      if x / 2 ^ w % 2 ^ e = 2 ^ e - 1 ∧ f ∈ infFormats then (if x % 2 ^ w = 0 then .inf (patSign f x) else .nan)
      else if f = .e4m3 ∧ x / 2 ^ w % 2 ^ e = 15 ∧ x % 2 ^ w = 7 then .nan
      else if x / 2 ^ w % 2 ^ e = 0 then .fin (patSign f x) (x % 2 ^ w) ((1 : Int) - b - w) false
      else .fin (patSign f x) (2 ^ w + x % 2 ^ w) ((x / 2 ^ w % 2 ^ e : Nat) - b - w : Int) false := by
  cases f <;> simp only [floatFields, Option.some_inj, Prod.mk.injEq, reduceCtorEq] at h <;> obtain ⟨rfl, rfl, rfl⟩ := h
  all_goals simp [decodeF, fspec, bitsOf, hasInf, infFormats, patSign, fmtBits, Nat.shiftRight_eq_div_pow]

theorem patNum_float {f : Fmt} {e w b : Nat} (h : floatFields f = some (e, w, b)) (x : Nat) :
    patNum f x =
      if (x / 2 ^ w % 2 ^ e = 2 ^ e - 1 ∧ f ∈ infFormats) ∨ (f = .e4m3 ∧ x / 2 ^ w % 2 ^ e = 15 ∧ x % 2 ^ w = 7) then none
      else if x / 2 ^ w % 2 ^ e = 0 then
        some ((if patSign f x then (-1 : ℚ) else 1) * 2 ^ (1 - b : ℤ) * ((x % 2 ^ w : Nat) / 2 ^ w))
      else some ((if patSign f x then (-1 : ℚ) else 1) * 2 ^ ((x / 2 ^ w % 2 ^ e : Nat) - b : ℤ) * (1 + (x % 2 ^ w : Nat) / 2 ^ w)) := by
  cases f <;> simp only [floatFields, Option.some_inj, Prod.mk.injEq, reduceCtorEq] at h <;> obtain ⟨rfl, rfl, rfl⟩ := h
  all_goals rfl

/-! ### Numbers -/

/-- A finite value: its number is its signed significand at its exponent. -/
theorem valNum_eq_some {v : FVal} {q : ℚ} :
    valNum v = some q ↔ ∃ n m e, v = .fin n m e false ∧ q = (if n then -1 else 1) * (m : ℚ) * 2 ^ e := by
  cases v with
  | nan => simp [valNum]
  | inf n => simp [valNum]
  | fin n m e st =>
    cases st with
    | true => simp [valNum]
    | false =>
      simp only [valNum, Option.some_inj, FVal.fin.injEq, and_true]
      exact ⟨fun h => ⟨n, m, e, ⟨rfl, rfl, rfl⟩, h.symm⟩, fun ⟨_, _, _, ⟨rfl, rfl, rfl⟩, h⟩ => h.symm⟩

theorem valNum_float {f : Fmt} {e w b : Nat} (h : floatFields f = some (e, w, b)) {x : Nat} {q : ℚ}
    (hq : patNum f x = some q) : valNum (decodeF f x) = some q := by
  rw [patNum_float h] at hq
  rw [decodeF_float h]
  split at hq
  · cases hq
  · rename_i hfin
    rw [not_or] at hfin
    rw [if_neg hfin.1, if_neg hfin.2]
    have hw : (2 : ℚ) ^ w ≠ 0 := by positivity
    split at hq <;> rename_i hex <;> rw [Option.some_inj] at hq <;> subst hq
    · rw [if_pos hex]
      simp only [valNum, Option.some_inj]
      rw [show ((1 : ℤ) - b - w) = (1 - b) - (w : ℤ) by ring, zpow_sub₀ (by norm_num), zpow_natCast]
      field_simp
    · rw [if_neg hex]
      simp only [valNum, Option.some_inj]
      rw [zpow_sub₀ (a := (2 : ℚ)) (by norm_num) _ (w : ℤ), zpow_natCast]
      push_cast
      field_simp

/-- R17 to R23: a pattern that has a number decodes to it. -/
theorem valNum_decodeF {f : Fmt} {x : Nat} {q : ℚ} (hq : patNum f x = some q) : valNum (decodeF f x) = some q := by
  have ofInt : ∀ z : Int, valNum (.ofInt z) = some (z : ℚ) := fun z => by
    simp only [FVal.ofInt, valNum, zpow_zero, mul_one, Option.some_inj]
    by_cases hz : z < 0
    · rw [decide_eq_true hz, if_pos rfl, Nat.cast_natAbs, abs_of_neg (by exact_mod_cast hz)]; push_cast; ring
    · rw [decide_eq_false hz, if_neg (by decide), Nat.cast_natAbs, abs_of_nonneg (by exact_mod_cast not_lt.1 hz), one_mul]
  have ofNat : ∀ n : Nat, valNum (.ofNat n) = some (n : ℚ) := fun n => by simp [FVal.ofNat, valNum]
  cases hf : floatFields f with
  | some p => exact valNum_float (e := p.1) (w := p.2.1) (b := p.2.2) hf hq
  | none =>
    cases f <;> simp only [floatFields, reduceCtorEq] at hf <;> simp only [patNum, floatFields] at hq
    case raw => rw [← hq]; exact ofNat _
    case uint8 => rw [← hq]; exact ofNat _
    case int8 => rw [← hq]; exact ofInt _
    case int16 => rw [← hq]; exact ofInt _
    case int32 => rw [← hq]; exact ofInt _
    case mk8 =>
      simp only [decodeF]
      have hbit : x.testBit 7 = decide (x / 128 % 2 = 1) := Nat.testBit_eq_decide_div_mod_eq
      by_cases hb : x % 128 = 0
      · rw [if_pos hb]
        split at hq
        · cases hq
        · rw [hbit, decide_eq_false (by omega), if_neg (by decide)] at *
          rw [← hq, hb]
          simp [FVal.zero, valNum]
      · rw [if_neg hb]
        rw [if_neg (by omega)] at hq
        rw [← hq]
        simp only [valNum, Option.some_inj]
        rw [show (2 : ℚ) ^ (-6 : ℤ) = 1 / 64 by norm_num]
        ring
    case e8 =>
      simp only [decodeF]
      split at hq
      · cases hq
      · rename_i h
        rw [if_neg h, ← hq]
        simp [valNum]

/-- R19, R21 to R23: a pattern without a number decodes to an infinity of a format that has them, or to NaN. -/
theorem decodeF_of_patNum_none {f : Fmt} {x : Nat} (hx : x < 2 ^ fmtBits f) (hq : patNum f x = none) :
    decodeF f x = if f ∈ infFormats ∧ x % 2 ^ (fmtBits f - 1) = infPat f false then .inf (patSign f x) else .nan := by
  cases hf : floatFields f with
  | some p =>
    obtain ⟨e, w, b⟩ := p
    obtain ⟨-, -, hbits, -, hw, he, -⟩ := isFloat_of_fields hf
    rw [patNum_float hf] at hq
    rw [decodeF_float hf]
    have hinf : x % 2 ^ (fmtBits f - 1) = infPat f false ↔ x / 2 ^ w % 2 ^ e = 2 ^ e - 1 ∧ x % 2 ^ w = 0 := by
      simp only [infPat, hf, Bool.toNat_false, zero_mul, add_zero]
      rw [hbits, show w + e + 1 - 1 = w + e by omega, pow_add, Nat.mod_mul]
      have hlt : x % 2 ^ w < 2 ^ w := Nat.mod_lt _ (by positivity)
      constructor
      · intro h
        have h0 : x % 2 ^ w = 0 := by
          have := congrArg (· % 2 ^ w) h
          simpa [Nat.add_mul_mod_self_left, Nat.mul_mod_left] using this
        refine ⟨?_, h0⟩
        rw [h0, zero_add, mul_comm] at h
        exact Nat.eq_of_mul_eq_mul_right (by positivity) h
      · rintro ⟨h1, h2⟩; rw [h1, h2, zero_add, mul_comm]
    split at hq
    · rename_i h
      rcases h with ⟨hex, hmem⟩ | ⟨rfl, hex, hfr⟩
      · rw [if_pos ⟨hex, hmem⟩]
        by_cases h0 : x % 2 ^ w = 0
        · rw [if_pos h0, if_pos ⟨hmem, hinf.2 ⟨hex, h0⟩⟩]
        · rw [if_neg h0, if_neg fun h => h0 (hinf.1 h.2).2]
      · rw [if_neg (by simp [infFormats]), if_pos ⟨rfl, hex, hfr⟩, if_neg (by simp [infFormats])]
    · split at hq <;> cases hq
  | none =>
    cases f <;> simp only [floatFields, reduceCtorEq] at hf <;> simp only [patNum, floatFields, reduceCtorEq] at hq
    case mk8 =>
      have hbit : x.testBit 7 = decide (x / 128 % 2 = 1) := Nat.testBit_eq_decide_div_mod_eq
      split at hq
      · rw [if_neg (by simp [infFormats])]
        simp only [decodeF]
        rw [if_pos (by omega), hbit, decide_eq_true (by omega), if_pos rfl]
      · cases hq
    case e8 =>
      split at hq
      · rename_i h
        rw [if_neg (by simp [infFormats])]
        exact if_pos h
      · cases hq

/-- R18: a floating-point pattern that is no NaN decodes with its sign. -/
theorem sign_decodeF {f : Fmt} {x : Nat} (hf : (floatFields f).isSome = true) (hn : decodeF f x ≠ .nan) :
    (decodeF f x).sign = patSign f x := by
  obtain ⟨⟨e, w, b⟩, hf⟩ := Option.isSome_iff_exists.1 hf
  rw [decodeF_float hf] at hn ⊢
  by_cases htop : x / 2 ^ w % 2 ^ e = 2 ^ e - 1 ∧ f ∈ infFormats
  · rw [if_pos htop] at hn ⊢
    by_cases h0 : x % 2 ^ w = 0
    · rw [if_pos h0]; rfl
    · exact absurd (if_neg h0) hn
  · rw [if_neg htop] at hn ⊢
    by_cases hnan : f = .e4m3 ∧ x / 2 ^ w % 2 ^ e = 15 ∧ x % 2 ^ w = 7
    · exact absurd (if_pos hnan) hn
    · rw [if_neg hnan]
      split <;> rfl

end Sys2Proof.Machine
end

section
/-! PROOFS. Compares and masks (O42). -/

namespace Sys2Proof.Machine

/-! ### Comparing numbers -/

/-- A signed magnitude as the multiple of a common power of two that `FVal.cmp` and `FVal.add` take it for. -/
def scaledInt (n : Bool) (m : Nat) (d : Int) : Int := if n then -((m <<< d.toNat : Nat) : Int) else ((m <<< d.toNat : Nat) : Int)

theorem scaledInt_cast (n : Bool) (m : Nat) {e e' : Int} (h : e' ≤ e) :
    (scaledInt n m (e - e') : ℚ) * 2 ^ e' = (if n then -1 else 1) * m * 2 ^ e := by
  have he : (2 : ℚ) ^ e = 2 ^ (e - e').toNat * 2 ^ e' := by
    rw [← zpow_natCast, Int.toNat_of_nonneg (by omega), ← zpow_add₀ (by norm_num)]; congr 1; ring
  unfold scaledInt
  rw [he, Nat.shiftLeft_eq]
  cases n <;> push_cast <;> simp <;> ring

/-- R32, R192: two values that stand for numbers compare as the numbers do. -/
theorem cmp_of_valNum {v u : FVal} {a b : ℚ} (hv : valNum v = some a) (hu : valNum u = some b) :
    v.cmp u = if a < b then -1 else if b < a then 1 else 0 := by
  obtain ⟨n, m, e, rfl, rfl⟩ := valNum_eq_some.1 hv
  obtain ⟨n', m', e', rfl, rfl⟩ := valNum_eq_some.1 hu
  have key : ∀ l : Int, l ≤ e → l ≤ e' → ((if scaledInt n m (e - l) - scaledInt n' m' (e' - l) < 0 then (-1 : Int)
      else if 0 < scaledInt n m (e - l) - scaledInt n' m' (e' - l) then 1 else 0)
      = if (if n then (-1 : ℚ) else 1) * m * 2 ^ e < (if n' then (-1 : ℚ) else 1) * m' * 2 ^ e' then -1
        else if (if n' then (-1 : ℚ) else 1) * m' * 2 ^ e' < (if n then (-1 : ℚ) else 1) * m * 2 ^ e then 1 else 0) := by
    intro l h h'
    have hp : (0 : ℚ) < 2 ^ l := by positivity
    have e1 : ∀ x y : Int, x - y < 0 ↔ (x : ℚ) * 2 ^ l < y * 2 ^ l := fun x y => by
      rw [mul_lt_mul_iff_left₀ hp, Int.cast_lt]; omega
    have e2 : ∀ x y : Int, 0 < x - y ↔ (y : ℚ) * 2 ^ l < x * 2 ^ l := fun x y => by
      rw [mul_lt_mul_iff_left₀ hp, Int.cast_lt]; omega
    simp only [← scaledInt_cast n m h, ← scaledInt_cast n' m' h', e1, e2]
  exact key _ (by split <;> omega) (by split <;> omega)

/-- R192: the condition of two numbers. -/
theorem condHolds_of_valNum {v u : FVal} {a b : ℚ} (hv : valNum v = some a) (hu : valNum u = some b) (c : BitVec 3) :
    condHolds c v u = [decide (a = b), decide (a ≠ b), decide (a < b), decide (a ≤ b), decide (b < a), decide (b ≤ a), false,
      true].getD c.toNat false := by
  have hn : ∀ {w : FVal} {q : ℚ}, valNum w = some q → (w == .nan) = false := fun {w q} h => by
    obtain ⟨n, m, e, rfl, -⟩ := valNum_eq_some.1 h; rfl
  have hc : c.toNat < 8 := c.isLt
  unfold condHolds
  rw [hn hv, hn hu, cmp_of_valNum hv hu]
  generalize c.toNat = n at hc ⊢
  rcases lt_trichotomy a b with h | rfl | h
  · rw [if_pos h]; interval_cases n <;> simp [h.le, h, h.ne, h.not_gt, h.not_ge]
  · rw [if_neg (lt_irrefl a), if_neg (lt_irrefl a)]; interval_cases n <;> simp
  · rw [if_neg h.not_gt, if_pos h]; interval_cases n <;> simp [h.le, h, h.ne', h.not_gt, h.not_ge]

/-- R192: a NaN is ordered with none. -/
theorem condHolds_nan {v u : FVal} (h : v = .nan ∨ u = .nan) (c : BitVec 3) : condHolds c v u = (c == 1 || c == 6) := by
  have un : (v == .nan || u == .nan) = true := by rcases h with rfl | rfl <;> simp
  have hc : c.toNat < 8 := c.isLt
  have e : ∀ x : BitVec 3, (c == x) = (c.toNat == x.toNat) := fun x => by
    rw [Bool.eq_iff_iff, beq_iff_eq, beq_iff_eq, BitVec.toNat_eq]
  unfold condHolds
  rw [un, e, e]
  generalize c.toNat = n at hc ⊢
  interval_cases n <;> rfl

/-! ### Masks -/

theorem maskOf_getLsbD (l : List Nat) (i : Nat) (hi : i < 128) : (maskOf l).getLsbD i = decide (i ∈ l) := by
  have key : ∀ m : BitVec 128, (l.foldl (fun m i => m ||| BitVec.ofNat 128 (2 ^ i)) m).getLsbD i
      = (m.getLsbD i || decide (i ∈ l)) := by
    induction l with
    | nil => simp
    | cons j r ih =>
      intro m
      have hb : (BitVec.ofNat 128 (2 ^ j)).getLsbD i = decide (i = j) := by
        rw [BitVec.getLsbD_ofNat, Nat.testBit_two_pow]; simp [hi, eq_comm]
      rw [List.foldl_cons, ih, BitVec.getLsbD_or, hb, Bool.or_assoc]
      simp
  simpa [maskOf] using key 0

theorem Regs.mask_setMask (r : Regs) (d : BitVec 3) (hd : d ≠ 0) (v : BitVec 128) (n : Nat) :
    (r.setMask d.toNat v).mask n = if n = d.toNat then v else r.mask n := by
  have h0 : d.toNat ≠ 0 := fun h => hd (BitVec.eq_of_toNat_eq h)
  unfold Regs.setMask Regs.mask
  rw [if_neg h0]
  dsimp only
  rw [Sparse.get_set]
  by_cases hn : n = d.toNat
  · rw [if_neg (by omega), if_pos hn, if_pos hn]
  · rw [if_neg hn, if_neg hn]

theorem Regs.setMask_keeps (r : Regs) (n : Nat) (v : BitVec 128) : (r.setMask n v).v = r.v ∧ (r.setMask n v).s = r.s := by
  unfold Regs.setMask; split <;> exact ⟨rfl, rfl⟩

/-- What every pop of a stream keeps, the pops of a word's sources keep. -/
theorem State.popAll_keeps {γ : Type} (g : State → γ) (k : Nat) (h : ∀ s q n, g (s.streamTake k q n).1 = g s) (s : State)
    (vs : List VSrc) : g (s.popAll k vs).1 = g s := by
  unfold State.popAll
  refine foldl_keeps (fun a : State × List (List (Nat × Nat)) => g a.1) (fun a v => ?_) vs (s, [])
  dsimp only
  cases v.o
  case q n => exact h a.1 n.toNat v.pos.length
  all_goals rfl

theorem sameBytes_of_eq {s t : State} (hh : t.home = s.home) (ht : t.teams = s.teams) (hc : t.clusters = s.clusters) :
    SameBytes s t := by
  have hteam : ∀ n, t.team n = s.team n := fun n => by rw [State.team, ht, State.team]
  refine ⟨fun team a => ?_, fun cl off n => by rw [State.cluster, hc]; rfl⟩
  simp only [State.viewByte, State.lineByte, State.rseqView, hteam, hh]

/-- The context of the core that retires a word (R172). -/
theorem State.ctx_retire (s : State) (n : Nat) : (s.retire n).ctx s.turn = { s.ctx s.turn with
    pc := (s.ctx s.turn).pc + BitVec.ofNat 64 n, wfe := none, mx := none
    steps := (s.ctx s.turn).steps.filter (·.ring ≠ (s.ctx s.turn).ring)
    ctl := { (s.ctx s.turn).ctl with retired := (s.ctx s.turn).ctl.retired + 1 } } := by
  rw [State.ctx, State.core_retire]

/-- What a word that writes mask `d` and retires leaves, from a state that differs from `s` by its region and by what its
streams gave. -/
theorem retire_setMask {s u : State} {w : VWord} {d : BitVec 3} (hw : w.d = .k d) (hd : d ≠ 0) (v : BitVec 128)
    (h : VecKeeps s.turn s.breaking u) (hv : (u.ctx s.turn).regs.v = (s.ctx s.turn).regs.v)
    (hf : (u.ctx s.turn).ctl.fpflags = (s.ctx s.turn).ctl.fpflags) (hc : u.clusters = s.clusters) {t : State}
    (ht : t = (u.setMaskOp w.d v).retire 12) :
    (t.ctx s.turn).regs.mask d.toNat = v
      ∧ (∀ n, n ≠ d.toNat → (t.ctx s.turn).regs.mask n = (s.ctx s.turn).regs.mask n)
      ∧ (t.ctx s.turn).regs.v = (s.ctx s.turn).regs.v ∧ (∀ q, (t.ctx s.turn).rs q = (s.ctx s.turn).rs q)
      ∧ (t.ctx s.turn).ctl.fpflags = (s.ctx s.turn).ctl.fpflags ∧ (t.ctx s.turn).pc = (s.ctx s.turn).pc + 12
      ∧ SameBytes s t := by
  have hturn : u.turn = s.turn := h.turn.trans (State.breaking_turn s)
  have hs : (u.ctx s.turn).regs.s = (s.ctx s.turn).regs.s := h.scalars.trans (by rw [State.breaking_regs])
  have hk : (u.ctx s.turn).regs.k = (s.ctx s.turn).regs.k := h.masks.trans (by rw [State.breaking_regs])
  have hpc : (u.ctx s.turn).pc = (s.ctx s.turn).pc := by rw [h.ctx, State.ctx_breaking]
  have hset : (u.setMaskOp w.d v).ctx s.turn = (u.ctx s.turn).onRegs (fun r => r.setMask d.toNat v) := by
    unfold State.setMaskOp
    rw [hturn, State.ctx_onCtx_same, hw]
    rfl
  have hctx := State.ctx_retire (u.setMaskOp w.d v) 12
  rw [show (u.setMaskOp w.d v).turn = s.turn from hturn, ← ht, hset] at hctx
  have hmask : ∀ n, (u.ctx s.turn).regs.mask n = (s.ctx s.turn).regs.mask n := fun n => by unfold Regs.mask; rw [hk]
  rw [hctx]
  dsimp only [Ctx.onRegs]
  obtain ⟨kv, ks⟩ := Regs.setMask_keeps (u.ctx s.turn).regs d.toNat v
  refine ⟨?_, fun n hn => ?_, kv.trans hv, fun q => ?_, hf, by rw [hpc]; rfl, ?_⟩
  · rw [Regs.mask_setMask _ _ hd, if_pos rfl]
  · rw [Regs.mask_setMask _ _ hd, if_neg hn, hmask]
  · unfold Ctx.rs; dsimp only; rw [ks, hs]
  · rw [ht]
    exact sameBytes_of_eq (h.home.trans (by rw [(onlyTurn_breaking s).1])) (h.teams.trans (State.breaking_teams s)) hc

/-! ### The words -/

/-- R11: two words side by side are the low one and the high one shifted above it. -/
theorem append_eq_or_shift (hi lo : Word) : hi ++ lo = lo.setWidth 128 ||| (hi.setWidth 128 <<< 64) := by
  refine BitVec.eq_of_getLsbD_eq fun i h => ?_
  rw [BitVec.getLsbD_append, BitVec.getLsbD_or, BitVec.getLsbD_shiftLeft, BitVec.getLsbD_setWidth, BitVec.getLsbD_setWidth]
  by_cases h64 : i < 64
  · simp [h, h64]
  · have : lo.getLsbD i = false := BitVec.getLsbD_of_ge _ _ (by omega)
    simp [h, h64, this]
    intro; omega

/-- R194: each mask word writes the table's mask. -/
theorem exec_maskRows {s : State} {w : VWord} {e : Instr × BitVec 128} (he : e ∈ maskRows s w) :
    exec e.1 s = .next ((s.breaking.setMaskOp w.d e.2).retire 12) := by
  have hr := State.breaking_regs s
  simp only [maskRows, List.mem_cons, List.not_mem_nil, or_false] at he
  rcases he with rfl | rfl | rfl | rfl | rfl
  all_goals dsimp only [exec, execKand, execKor, execKxor, execKnot, execKmov, maskOp]; rw [State.breaking_turn]
  iterate 4 rw [hr]
  cases ha : w.a
  case s n =>
    dsimp only
    rw [← append_eq_or_shift]
    simp only [State.rs, State.ctx_breaking]
    rfl
  all_goals dsimp only; rw [hr]

/-- R192: VCMP in the frame of R178. -/
theorem vcmp_done {s : State} {w : VWord} {act : List Nat} {a b : VSrc}
    (hact : act = (s.ctx s.turn).regs.actives w.k (elemCount w.fmt)) (ha : a = ⟨1, w.a, some w.fmt, w.fmt, .raw, act, false⟩)
    (hb : b = ⟨2, w.b, some w.fmt, w.fmt, .raw, act, false⟩) (ready : vecReady s [a, b] none) :
    VecDone (.vcmp w) s [a, b]
      (fun v env => (maskOf (act.filter (fun i => condHolds w.rm (decodeF w.fmt (v 0 i)) (decodeF w.fmt (v 1 i)))), env))
      (fun s m => s.setMaskOp w.d m) := by
  subst hact ha hb
  refine vecDone_of_vectorOp id ready ?_ (fun _ _ => rfl) (fun _ _ _ => rfl) (State.popAll_turn s _)
  dsimp only [exec, execVcmp]
  rw [State.breaking_turn, State.breaking_regs]
  rfl

/-- Settles O42: the mask words by their table, the conditions by the numbers compared, VCMP in the frame of R178. -/
theorem comparesAndMasks : Obligations.ComparesAndMasks := by
  unfold Obligations.ComparesAndMasks
  refine ⟨fun s w d e hw hd he => ?_, fun f c p q hf hp hq => ⟨fun a b ha hb => ?_, fun h => condHolds_nan h c⟩, ?_⟩
  · refine ⟨_, exec_maskRows he, retire_setMask hw hd e.2 (.refl _ _) ?_ ?_ (State.breaking_reads s).2.1 rfl⟩
    all_goals rw [State.ctx_breaking]
  · exact condHolds_of_valNum (valNum_decodeF ha) (valNum_decodeF hb) c
  · intro s w d act a b hw hd hact ha hb ready
    obtain ⟨u, popped, m, env, hpop, hcomp, hi⟩ := vcmp_done hact ha hb ready
    obtain ⟨rfl, rfl⟩ := Prod.mk.inj hcomp
    have popKeeps : ∀ {γ : Type} (g : State → γ), (∀ s' q n, g (State.streamTake s' s.turn q n).1 = g s') →
        g u = g s.breaking := fun g hg => by
      have := State.popAll_keeps g s.turn hg s.breaking [a, b]
      rwa [hpop] at this
    have hu := VecKeeps.popAll s.turn s.breaking [a, b]
    rw [hpop] at hu
    have hcl : u.clusters = s.clusters := (popKeeps State.clusters (fun _ _ _ => rfl)).trans (State.breaking_reads s).2.1
    have hvec : (u.ctx s.turn).regs.v = (s.ctx s.turn).regs.v :=
      (popKeeps (fun t => (t.ctx s.turn).regs.v) (fun s' q n => congrArg (·.regs.v) (State.ctx_onCtx_same s' _ _))).trans
        (by rw [State.ctx_breaking])
    obtain ⟨hm, hrest⟩ := retire_setMask hw hd _
      (hu.trans (.setEnv _ _ ⟨(s.ctx s.turn).ctl.fpflags, (s.ctx s.turn).ctl.rng⟩))
      (by rw [State.ctx_setEnv]; exact hvec) (by rw [State.ctx_setEnv]; rfl) hcl rfl
    refine ⟨_, u, popped, _, hpop, rfl, hi, fun i h => ?_, hrest⟩
    rw [hm, maskOf_getLsbD _ i h, Bool.eq_iff_iff, decide_eq_true_iff, List.mem_filter, Bool.and_eq_true, decide_eq_true_iff]

end Sys2Proof.Machine
end

section
/-! PROOFS. Vector reductions and VTAG (O44). -/

namespace Sys2Proof.Machine

/-! ### Reductions -/

/-- Each word of the table is `reduceOp` on the table's parts. -/
theorem exec_reduceRows {s : State} {w : VWord} {e : Instr × Fmt × (Nat → Nat) × (Nat → Nat → FEnv → Nat × FEnv) × Nat}
    (he : e ∈ reduceRows w) : exec e.1 s = reduceOp w e.2.1 e.2.2.1 e.2.2.2.1 e.2.2.2.2 s := by
  simp only [reduceRows, List.mem_cons, List.not_mem_nil, or_false] at he
  rcases he with rfl | rfl | rfl | rfl | rfl
  all_goals dsimp only [exec, execVrsum, execVrmax, execVrmin, execVramax, execVriadd]
  all_goals rfl

/-- R195: a reduction in the frame of R178. -/
theorem reduceOp_done {i : Instr} {s : State} {w : VWord} {out : Fmt} {pre : Nat → Nat} {f : Nat → Nat → FEnv → Nat × FEnv}
    {ident : Nat} {act : List Nat} {a : VSrc} {d : VDst} (hi : exec i s = reduceOp w out pre f ident s)
    (hact : act = (s.ctx s.turn).regs.actives w.k (elemCount w.fmt)) (ha : a = ⟨1, w.a, some w.fmt, w.fmt, .raw, act, false⟩)
    (hd : d = ⟨w.d, out, out, List.range (elemCount w.fmt), false, 128⟩) (ready : vecReady s [a] (some d)) :
    VecDone i s [a]
      (fun v env => treeOf f 7
        ((List.range (elemCount w.fmt)).map (fun i => if act.contains i then some (pre (v 0 i)) else none)) env)
      (fun s r => s.writeElems s.turn d ((List.range (elemCount w.fmt)).map (fun i =>
        (i, if out = w.fmt ∧ isInt w.fmt = false ∧ decodeF w.fmt (r.getD ident) = .nan then canonNan w.fmt
          else r.getD ident)))) := by
  subst hact ha hd
  refine vecDone_of_vectorOp (fin' := fun s vals =>
      s.writeElems s.turn ⟨w.d, out, out, List.range (elemCount w.fmt), false, 128⟩ vals) (fun r : Option Nat => (List.range (elemCount w.fmt)).map (fun i =>
      (i, if (out = w.fmt && !isInt w.fmt && decodeF w.fmt (r.getD ident) == .nan) = true then canonNan w.fmt else r.getD ident)))
    ready (hi.trans ?_) (fun _ _ => rfl) (fun u r _ => ?_) (State.popAll_turn s _)
  · unfold reduceOp
    dsimp only
    rw [State.breaking_turn, State.breaking_regs]
  · simp [and_assoc]

/-! ### VTAG -/

/-- What a word that breaks an open region, changes registers of its own and moves on by `n` bytes leaves. -/
theorem State.onRegs_retire (s : State) (f : Regs → Regs) (n : Nat) {t : State}
    (ht : t = (s.breaking.onCtx s.turn (·.onRegs f)).retire n) :
    (t.ctx s.turn).regs = f (s.ctx s.turn).regs ∧ (t.ctx s.turn).pc = (s.ctx s.turn).pc + BitVec.ofNat 64 n ∧ SameBytes s t := by
  have hc := State.ctx_retire (s.breaking.onCtx s.turn (·.onRegs f)) n
  rw [State.onCtx_turn, State.breaking_turn, ← ht, State.ctx_onCtx_same, State.ctx_breaking] at hc
  refine ⟨by rw [hc]; rfl, by rw [hc]; rfl, ?_⟩
  rw [ht]
  exact sameBytes_of_eq (by rw [(onlyTurn_breaking s).1]; rfl) (State.breaking_teams s) (State.breaking_reads s).2.1

/-- R14, R188: VTAG of a vector register sets its tag and nothing else. -/
theorem vtag_register {s : State} {w : VWord} {n : BitVec 5} (hd : w.d = .v n) : ∃ t, exec (.vtag w) s = .next t
    ∧ (t.ctx s.turn).regs.vTag n.toNat = w.fmt
    ∧ (∀ m, m ≠ n.toNat → (t.ctx s.turn).regs.vTag m = (s.ctx s.turn).regs.vTag m)
    ∧ (t.ctx s.turn).regs.v = (s.ctx s.turn).regs.v ∧ (t.ctx s.turn).pc = (s.ctx s.turn).pc + 12 ∧ SameBytes s t := by
  obtain ⟨hregs, hpc, hbytes⟩ := State.onRegs_retire s
    (fun r => { r with vtag := Map.set .raw r.vtag n.toNat w.fmt }) 12 rfl
  refine ⟨_, by dsimp only [exec, execVtag]; rw [hd, State.breaking_turn]; rfl, ?_⟩
  rw [hregs]
  exact ⟨Map.get_set_same _ _ _ _, fun m hm => Map.get_set_other _ _ _ hm, rfl, hpc, hbytes⟩

/-- R140, R148, R188: what VTAG of a tile register does. -/
theorem vtag_tile {s : State} {w : VWord} {m : Nat} {f : TForm} {ix : SReg} (hd : tileForm w.d = some (m, f, ix)) :
    exec (.vtag w) s = s.breaking.finish (
      if BadReg.m m 0 ∈ (s.ctx s.turn).regs.bad then .ok ((s.breaking.consumeLocal s.turn 0).retire 12)
      else if (s.ctx s.turn).regs.mTag m = .raw ∨ w.fmt = .raw ∨ layoutOf ((s.ctx s.turn).regs.mTag m) = layoutOf w.fmt then
        .ok ((s.breaking.onCtx s.turn (·.onRegs (fun r => { r with mtag := Map.set .raw r.mtag m w.fmt }))).retire 12)
      else trapE s.breaking (tFormat w.fmt ((s.ctx s.turn).regs.mTag m) 0)) := by
  have hreads : ∀ (r : Regs) (o : Operand) (n : Nat), tagWords o = [.m n 0] →
      r.reads (tagWords o) [] = decide (BadReg.m n 0 ∈ r.bad) := fun r o n h => by
    unfold Regs.reads
    rw [h]
    cases hb : r.bad <;> simp
  dsimp only [exec, execVtag]
  cases ho : w.d <;> simp only [ho, tileForm, reduceCtorEq, Option.some_inj, Prod.mk.injEq] at hd
  all_goals
    obtain ⟨rfl, -, -⟩ := hd
    simp only [tileForm]
    rw [State.breaking_turn, State.breaking_regs, hreads _ _ _ rfl]
    simp only [decide_eq_true_eq]

/-- Settles O44: the reductions by `reduceOp_done`, VTAG by the kind of its destination. -/
theorem reductionsAndTags : Obligations.ReductionsAndTags := by
  unfold Obligations.ReductionsAndTags
  refine ⟨fun s w e act a d he hact ha hd ready => ?_, fun s w n hd => vtag_register hd, fun s w m f ix old hd hold => ?_⟩
  · have done := reduceOp_done (exec_reduceRows he) hact ha hd ready
    exact ⟨done, done.frame fun u r hu => hu ▸ VecKeeps.writeElems _ u d _⟩
  · subst hold
    refine ⟨fun hb => ?_, fun hb hl => ?_, fun hb h1 h2 h3 => ?_⟩
    · rw [vtag_tile hd, if_pos hb]; rfl
    · obtain ⟨hregs, hpc, hbytes⟩ := State.onRegs_retire s
        (fun r => { r with mtag := Map.set .raw r.mtag m w.fmt }) 12 rfl
      refine ⟨_, by rw [vtag_tile hd, if_neg hb, if_pos hl]; rfl, ?_⟩
      rw [hregs]
      exact ⟨Map.get_set_same _ _ _ _, fun n hn => Map.get_set_other _ _ _ hn, rfl, rfl, hpc, hbytes⟩
    · rw [Traps, vtag_tile hd, if_neg hb, if_neg (by tauto)]
      rfl

end Sys2Proof.Machine
end

section
/-! PROOFS. Conversions, block scales, classes and the reduction tree (O41). -/

namespace Sys2Proof.Machine

/-! ### The words -/

/-- A computation that leaves the environment alone gives each element its value. -/
theorem mapElems_pure (v : Nat → Nat) (l : List Nat) (env : FEnv) :
    mapElems (fun i env => (v i, env)) l env = (l.map (fun i => (i, v i)), env) := by
  induction l generalizing env with
  | nil => rfl
  | cons i r ih => simp only [mapElems, ih, List.map_cons]

/-- R194: the number of ones of a mask. -/
theorem onesBelow_eq (x : Nat) (n : Nat) : onesBelow n x = ((List.range n).filter (fun j => x.testBit j)).length := by
  induction n with
  | zero => rfl
  | succ n ih =>
    rw [onesBelow, ih, List.range_succ, List.filter_append, List.length_append, Nat.add_comm]
    by_cases h : x.testBit n <;> simp [h]

/-- R185, R191, R194, R196: VIDOT4, VCLASS, VIOTA and KPOP in the frame of R178. -/
theorem convRows_done {s : State} {w : VWord}
    {e : Instr × List VSrc × VDst × ((Nat → Nat → Nat) → FEnv → List (Nat × Nat) × FEnv)} (he : e ∈ convRows s w)
    (ready : vecReady s e.2.1 (some e.2.2.1)) :
    VecDone e.1 s e.2.1 e.2.2.2 (fun s vals => s.writeElems s.turn e.2.2.1 vals) ∧ VecFrame e.1 s := by
  refine vecDone_and_frame ready ?_
  clear ready
  simp only [convRows, List.mem_cons, List.not_mem_nil, or_false] at he
  rcases he with rfl | rfl | rfl | rfl
  all_goals dsimp only [exec, execVidot4, execVclass, execViota, execKpop, tailOf]; rw [State.breaking_turn, State.breaking_regs]
  · have sum : ∀ (g : Nat → Int) (z : Int), (List.range 4).foldl (fun t u => t + g u) z = z + g 0 + g 1 + g 2 + g 3 :=
      fun g z => rfl
    simp only [mapElems_pure, sum, add_zero]
  · simp only [mapElems_pure]
  · rw [onesBelow_eq]
    rfl

/-- R16, R186: VCVT between two formats that stand for numbers. -/
theorem vcvt_done {s : State} {w : VWord} {src : Fmt} {n cap : Nat} {act tail : List Nat} {a : VSrc} {d : VDst}
    (hsrc : src = (s.ctx s.turn).regs.sourceFmt w) (hr : src ≠ .raw) (hw : w.fmt ≠ .raw)
    (hn : n = (if src = .fp64 ∨ w.fmt = .fp64 then 64 else 128)) (hcap : cap = (if w.fmt = .fp64 then 64 else 128))
    (hact : act = (s.ctx s.turn).regs.actives w.k n) (htail : tail = (List.range (cap - n)).map (· + n))
    (ha : a = ⟨1, w.a, none, src, w.fmt, act, false⟩) (hd : d = ⟨w.d, w.fmt, w.fmt, act ++ tail, false, 128⟩)
    (ready : vecReady s [a] (some d)) :
    VecDone (.vcvt w) s [a]
      (fun v env => mapElems (fun i => encodeF w.fmt (Rm.ofCode w.rm) (isInt src) (decodeF src (v 0 i))) act env)
      (fun s vals => s.writeElems s.turn d (vals ++ tail.map (fun i => (i, 0)))) ∧ VecFrame (.vcvt w) s := by
  have done : VecDone (.vcvt w) s [a]
      (fun v env => mapElems (fun i => encodeF w.fmt (Rm.ofCode w.rm) (isInt src) (decodeF src (v 0 i))) act env)
      (fun s vals => s.writeElems s.turn d (vals ++ tail.map (fun i => (i, 0)))) := by
    refine vecDone_of_vectorOp (fin' := fun s vals => s.writeElems s.turn d vals) (fun vals => vals ++ tail.map (fun i => (i, 0)))
      ready ?_ (fun _ _ => rfl) (fun _ _ _ => rfl) (State.popAll_turn s _)
    dsimp only [exec, execVcvt, tailOf]
    rw [State.breaking_turn, State.breaking_regs, ← hsrc]
    have hraw : (src == .raw || w.fmt == .raw) = false := by simp [hr, hw]
    have hconv : ∀ rm x, convertF src w.fmt rm x = encodeF w.fmt rm (isInt src) (decodeF src x) := fun rm x => by
      funext env; simp [convertF, hr, hw]
    simp only [hraw, Bool.false_and, Bool.or_false, Bool.or_eq_true, beq_iff_eq, decide_eq_true_eq, Bool.false_eq_true, if_false,
      hconv, ← hn, ← hcap, ← hact, ← htail, ← hd, ← ha]
  exact ⟨done, done.frame fun u r hu => hu ▸ VecKeeps.writeElems _ u d _⟩

/-- R16, R136: VCVT with a RAW side passes the bits, whole lanes between vector registers. -/
theorem vcvt_raw_done {s : State} {w : VWord} {src f g : Fmt} {n cap : Nat} {act tail : List Nat} {a : VSrc} {d : VDst}
    (hsrc : src = (s.ctx s.turn).regs.sourceFmt w) (hr : src = .raw ∨ w.fmt = .raw)
    (hn : n = (if src = .fp64 ∨ w.fmt = .fp64 then 64 else 128)) (hcap : cap = n)
    (hf : f = (if n = 64 then .fp64 else if w.a.kind = .v ∧ w.d.kind = .v then .raw else src))
    (hg : g = (if n = 64 then .fp64 else if w.a.kind = .v ∧ w.d.kind = .v then .raw else w.fmt))
    (hact : act = (s.ctx s.turn).regs.actives w.k n) (htail : tail = (List.range (cap - n)).map (· + n))
    (ha : a = ⟨1, w.a, none, f, w.fmt, act, false⟩) (hd : d = ⟨w.d, g, w.fmt, act ++ tail, false, 128⟩)
    (ready : vecReady s [a] (some d)) :
    VecDone (.vcvt w) s [a] (fun v env => (act.map (fun i => (i, v 0 i)), env)) (fun s vals => s.writeElems s.turn d vals)
    ∧ VecFrame (.vcvt w) s := by
  refine vecDone_and_frame ready ?_
  have hnone : tail = [] := by rw [htail, hcap, Nat.sub_self]; rfl
  have hconv : ∀ rm x, convertF src w.fmt rm x = fun env => (x, env) := fun rm x => by
    funext env; rcases hr with h | h <;> simp [convertF, h]
  have hraw : (src == .raw || w.fmt == .raw) = true := by rcases hr with h | h <;> simp [h]
  dsimp only [exec, execVcvt, tailOf]
  rw [State.breaking_turn, State.breaking_regs, ← hsrc]
  by_cases hw : src = .fp64 ∨ w.fmt = .fp64
  · have hwide : (src == .fp64 || w.fmt == .fp64) = true := by simpa using hw
    rw [if_pos hw] at hn
    subst hn
    rw [if_pos rfl] at hf hg
    subst hf hg hcap ha hd hact
    simp only [hraw, hwide, hnone, hconv, mapElems_pure, Bool.and_self, Bool.or_true, if_true, Nat.sub_self, List.range_zero,
      List.map_nil, List.append_nil]
  · have hwide : (src == .fp64 || w.fmt == .fp64) = false := by simpa using hw
    rw [if_neg hw] at hn
    subst hn
    rw [if_neg (by decide)] at hf hg
    subst hcap
    rw [not_or] at hw
    simp only [hraw, hwide, hnone, hconv, mapElems_pure, Bool.and_false, Bool.or_false, decide_eq_true_eq, hw.2, Bool.false_eq_true,
      if_false, Nat.sub_self, List.range_zero, List.map_nil, List.append_nil, Bool.not_false, Bool.and_true, Bool.true_and,
      Bool.and_eq_true, beq_iff_eq, ← hf, ← hg, ← hact] at ha hd ⊢
    rw [ha, hd]

/-- The scales of VQBLK change registers other than the scalar ones and the masks, or scratchpad. -/
theorem VecKeeps.putScales (k : Nat) (s : State) (w : VWord) (l : List (Nat × Nat)) : VecKeeps k s (s.putScales k w l) := by
  unfold State.putScales
  dsimp only
  split
  · exact VecKeeps.onRegs k s (Eq.trans (Regs.foldl_setVElem_keeps _ .e8 l _).1 (Regs.setTag_s _ _ _))
      (Eq.trans (Regs.foldl_setVElem_keeps _ .e8 l _).2 (Regs.setTag_k _ _ _))
  · exact VecKeeps.onRegs k s (Regs.heal_foldl_keeps (by intros; rfl) (by intros; rfl) l _ (fun _ => false)).1
      (Regs.heal_foldl_keeps (by intros; rfl) (by intros; rfl) l _ (fun _ => false)).2
  · exact VecKeeps.onStore k _ s _
  · exact .refl k s

/-- R189: VQBLK in the frame of R178. -/
theorem vqblk_done {s : State} {w : VWord} {src f : Fmt} {act tail : List Nat} {a : VSrc} {d : VDst}
    (hsrc : src = (s.ctx s.turn).regs.sourceFmt w) (hf : f = (if src = .raw ∧ w.d.kind = .v then .raw else w.fmt))
    (hact : act = (s.ctx s.turn).regs.actives w.k (elemCount src))
    (htail : tail = (List.range (128 - elemCount src)).map (· + elemCount src))
    (ha : a = ⟨1, w.a, none, src, w.fmt, act, false⟩)
    (hd : d = ⟨w.d, f, w.fmt, act ++ tail, w.d.kind == .p, elemCount src⟩) (ready : vecReady s [a] (some d)) :
    VecDone (.vqblk w) s [a]
      (fun v env => quantAll src w.fmt (Rm.ofCode w.rm) (v 0) act (List.range (elemCount src / 32)) env)
      (fun s r => (s.writeElems s.turn d (r.1 ++ tail.map (fun i => (i, 0)))).putScales s.turn w r.2)
    ∧ VecFrame (.vqblk w) s := by
  have done : VecDone (.vqblk w) s [a]
      (fun v env => quantAll src w.fmt (Rm.ofCode w.rm) (v 0) act (List.range (elemCount src / 32)) env)
      (fun s r => (s.writeElems s.turn d (r.1 ++ tail.map (fun i => (i, 0)))).putScales s.turn w r.2) := by
    refine vecDone_of_vectorOp (fin' := fun s r => (s.writeElems s.turn d r.1).putScales s.turn w r.2)
      (fun r => (r.1 ++ tail.map (fun i => (i, 0)), r.2)) ready ?_ (fun _ _ => rfl) (fun _ _ _ => rfl) (State.popAll_turn s _)
    dsimp only [exec, execVqblk, tailOf]
    rw [State.breaking_turn, State.breaking_regs, ← hsrc, ← hact, ← htail, ← hf, ← ha, ← hd]
  exact ⟨done, done.frame fun u r hu => hu ▸ (VecKeeps.writeElems _ u d _).trans (VecKeeps.putScales _ _ w _)⟩

/-- R190: VDQBLK in the frame of R178. -/
theorem vdqblk_done {s : State} {w : VWord} {act : List Nat} {a : VSrc} {scales : List VSrc} {d : VDst}
    (hact : act = (s.ctx s.turn).regs.actives w.k 128)
    (ha : a = ⟨1, w.a, some w.fmt, w.fmt, .raw, act, w.a.kind == .p⟩)
    (hs : scales = (match w.a, w.b with
      | .v _, .v _ => [⟨2, w.b, some .e8, .e8, .raw, [], false⟩]
      | _, _ => []))
    (hd : d = ⟨w.d, .fp32, .fp32, act, false, 128⟩) (ready : vecReady s (a :: scales) (some d) (dqWords (s.ctx s.turn) w act)) :
    VecDone (.vdqblk w) s (a :: scales)
      (fun v env => mapElems (fun i => scaleInto .fp32 (Rm.ofCode w.rm) (decodeF w.fmt (v 0 i))
        (s.dqScale s.turn (s.ctx s.turn) w (i / 32))) act env)
      (fun s vals => s.writeElems s.turn d vals)
    ∧ VecFrame (.vdqblk w) s := by
  refine vecDone_and_frame ready ?_
  have hscale : ∀ b, s.breaking.dqScale s.turn (s.breaking.ctx s.turn) w b = s.dqScale s.turn (s.ctx s.turn) w b := fun b => by
    unfold State.dqScale
    rw [State.breaking_cluster, State.ctx_breaking]
    rfl
  have hwords : dqWords (s.breaking.ctx s.turn) w act = dqWords (s.ctx s.turn) w act := by
    rw [State.ctx_breaking]; rfl
  have hkind : (match w.a.kind, w.b with
      | .v, .v _ => [⟨2, w.b, some .e8, .e8, .raw, [], false⟩]
      | _, _ => ([] : List VSrc)) = scales := by
    rw [hs]; cases w.a <;> cases w.b <;> rfl
  dsimp only [exec, execVdqblk]
  simp only [State.breaking_turn, State.breaking_regs, ← hact, hscale, hwords, ← hd, ← ha]
  rw [← hkind] <;> rfl

/-! ### The scale of a block, and the classes -/

/-- A fold that keeps the larger of two exponents ends with the largest. -/
theorem foldl_largest {f : Option Int → Int → Option Int} (hf : ∀ b k, f (some b) k = some (if b < k then k else b))
    (ls : List Int) (b l : Int) (hl : l = b ∨ l ∈ ls) (hb : b ≤ l) (hmax : ∀ k ∈ ls, k ≤ l) :
    ls.foldl f (some b) = some l := by
  induction ls generalizing b with
  | nil => rcases hl with rfl | h; · rfl
           · cases h
  | cons k r ih =>
    rw [List.foldl_cons, hf]
    have hk := hmax k List.mem_cons_self
    have hr : ∀ j ∈ r, j ≤ l := fun j hj => hmax j (List.mem_cons_of_mem _ hj)
    refine ih (if b < k then k else b) ?_ (by split <;> omega) hr
    rcases hl with rfl | h
    · left; split <;> omega
    · rcases List.mem_cons.1 h with rfl | h
      · left; split <;> omega
      · exact .inr h

/-- R189: the scale of a block whose largest magnitude has exponent `l`. -/
theorem blockScale_of_largest {t : Fmt} {vs : List FVal} {l : Int} (hfin : ∀ v ∈ vs, v.isFin = true)
    (hl : ∃ v ∈ vs, v.lead = some l) (hmax : ∀ v ∈ vs, ∀ k, v.lead = some k → k ≤ l) :
    blockScale t vs = (max 0 (min 254 (l - emaxOf t + 127))).toNat := by
  obtain ⟨v, hv, hvl⟩ := hl
  have hmem : l ∈ vs.filterMap FVal.lead := List.mem_filterMap.2 ⟨v, hv, hvl⟩
  have hle : ∀ k ∈ vs.filterMap FVal.lead, k ≤ l := fun k hk => by
    obtain ⟨u, hu, huk⟩ := List.mem_filterMap.1 hk
    exact hmax u hu k huk
  unfold blockScale
  rw [if_neg (by simpa using hfin)]
  cases hls : vs.filterMap FVal.lead with
  | nil => rw [hls] at hmem; cases hmem
  | cons k r =>
    rw [hls] at hmem hle
    rw [List.foldl_cons]
    dsimp only
    rw [foldl_largest (fun _ _ => rfl) r k l (List.mem_cons.1 hmem) (hle k List.mem_cons_self) fun j hj => hle j (List.mem_cons_of_mem _ hj)]
    dsimp only
    split
    · omega
    · split <;> omega

theorem bitLen_eq_of_bounds {m n : Nat} (hlo : 2 ^ n ≤ m) (hhi : m < 2 ^ (n + 1)) : bitLen m = n + 1 := by
  have hm : m ≠ 0 := by have := Nat.two_pow_pos n; omega
  unfold bitLen
  rw [if_neg hm, (Nat.log2_eq_iff hm).2 ⟨hlo, hhi⟩]

theorem bitLen_le_of_lt {m n : Nat} (h : m < 2 ^ n) : bitLen m ≤ n := by
  unfold bitLen
  split
  · omega
  · rename_i hm
    exact Nat.succ_le_of_lt ((Nat.log2_lt hm).2 h)

/-- R191: the class of a floating-point pattern, by its fields. -/
theorem classOf_decodeF {f : Fmt} {e w b x : Nat} (hf : floatFields f = some (e, w, b)) :
    classOf f (decodeF f x) =
      (let neg := patSign f x
      if x / 2 ^ w % 2 ^ e = 2 ^ e - 1 ∧ f ∈ infFormats then (if x % 2 ^ w = 0 then (if neg then 0 else 7) else 8)
      else if f = .e4m3 ∧ x % 128 = 127 then 8
      else if x / 2 ^ w % 2 ^ e ≠ 0 then (if neg then 1 else 6)
      else if x % 2 ^ w ≠ 0 then (if neg then 2 else 5)
      else if neg then 3 else 4) := by
  obtain ⟨-, hspec, -⟩ := isFloat_of_fields hf
  have hne : f ≠ .mk8 ∧ f ≠ .e8 := by constructor <;> rintro rfl <;> cases hf
  have hsub : ∀ (n : Bool) (m : Nat) (ex : Int), classOf f (.fin n m ex false) =
      if m = 0 then (if n then 3 else 4) else if ex + (bitLen m : Int) - 1 < 1 - (b : Int) then (if n then 2 else 5)
      else (if n then 1 else 6) := fun n m ex => by
    obtain ⟨h1, h2⟩ := hne
    have hb : (fspec f).bias = b := by rw [hspec]
    cases f
    case mk8 => exact absurd rfl h1
    case e8 => exact absurd rfl h2
    all_goals simp only [classOf, hb, decide_eq_true_eq]
  have h8 : f = .e4m3 → (x / 2 ^ w % 2 ^ e = 15 ∧ x % 2 ^ w = 7 ↔ x % 128 = 127) := by
    rintro rfl
    obtain ⟨rfl, rfl, rfl⟩ : e = 4 ∧ w = 3 ∧ b = 7 := by simp [floatFields] at hf; omega
    omega
  have hw : x % 2 ^ w < 2 ^ w := Nat.mod_lt _ (Nat.two_pow_pos w)
  rw [decodeF_float hf]
  dsimp only
  by_cases htop : x / 2 ^ w % 2 ^ e = 2 ^ e - 1 ∧ f ∈ infFormats
  · rw [if_pos htop, if_pos htop]
    split <;> rfl
  · rw [if_neg htop, if_neg htop]
    by_cases hnan : f = .e4m3 ∧ x / 2 ^ w % 2 ^ e = 15 ∧ x % 2 ^ w = 7
    · rw [if_pos hnan, if_pos ⟨hnan.1, (h8 hnan.1).1 hnan.2⟩]; rfl
    · have hnan' : ¬ (f = .e4m3 ∧ x % 128 = 127) := fun h => hnan ⟨h.1, (h8 h.1).2 h.2⟩
      rw [if_neg hnan, if_neg hnan']
      by_cases hex : x / 2 ^ w % 2 ^ e = 0
      · rw [if_pos hex, if_neg (not_not.2 hex), hsub]
        by_cases hfr : x % 2 ^ w = 0
        · rw [if_pos hfr, if_neg (not_not.2 hfr)]
        · have := bitLen_le_of_lt hw
          rw [if_neg hfr, if_pos hfr, if_pos (by omega)]
      · have hl : bitLen (2 ^ w + x % 2 ^ w) = w + 1 := bitLen_eq_of_bounds (by omega) (by rw [pow_succ]; omega)
        rw [if_neg hex, if_pos hex, hsub, if_neg (by omega), hl, if_neg (by omega)]

/-! ### The reduction tree -/

/-- What a node of the tree gives: both children combined, or the one that there is. -/
def treeNode (f : Nat → Nat → FEnv → Nat × FEnv) (x y : Option Nat) (env : FEnv) : Option Nat × FEnv :=
  match x, y with
  | some a, some b => (some (f a b env).1, (f a b env).2)
  | some a, none => (some a, env)
  | none, y => (y, env)

theorem treeLevel_cons_cons (f : Nat → Nat → FEnv → Nat × FEnv) (x y : Option Nat) (r : List (Option Nat)) (env : FEnv) :
    treeLevel f (x :: y :: r) env
      = ((treeNode f x y env).1 :: (treeLevel f r (treeNode f x y env).2).1, (treeLevel f r (treeNode f x y env).2).2) := by
  cases x with
  | none => rfl
  | some a => cases y <;> rfl

/-- One level over an even number of lanes and more lanes after them. -/
theorem treeLevel_append (f : Nat → Nat → FEnv → Nat × FEnv) : ∀ (n : Nat) (l r : List (Option Nat)) (env : FEnv),
    l.length = 2 * n → treeLevel f (l ++ r) env
      = ((treeLevel f l env).1 ++ (treeLevel f r (treeLevel f l env).2).1, (treeLevel f r (treeLevel f l env).2).2)
  | 0, [], r, env, _ => rfl
  | n + 1, x :: y :: l, r, env, h => by
    rw [List.cons_append, List.cons_append, treeLevel_cons_cons, treeLevel_cons_cons,
      treeLevel_append f n l r _ (by simpa [Nat.mul_add] using h)]
    rfl

theorem treeLevel_length (f : Nat → Nat → FEnv → Nat × FEnv) : ∀ (n : Nat) (l : List (Option Nat)) (env : FEnv),
    l.length = 2 * n → (treeLevel f l env).1.length = n
  | 0, [], env, _ => rfl
  | n + 1, x :: y :: l, env, h => by
    rw [treeLevel_cons_cons, List.length_cons, treeLevel_length f n l _ (by simpa [Nat.mul_add] using h)]

/-- A level whose nodes leave the environment alone. -/
theorem treeLevel_pure (g : Nat → Nat → Nat) : ∀ (n : Nat) (l : List (Option Nat)) (env : FEnv),
    l.length = 2 * n → (treeLevel (fun a b env => (g a b, env)) l env).2 = env
  | 0, [], env, _ => rfl
  | n + 1, x :: y :: l, env, h => by
    have hn : (treeNode (fun a b env => (g a b, env)) x y env).2 = env := by cases x <;> cases y <;> rfl
    rw [treeLevel_cons_cons, hn, treeLevel_pure g n l env (by simpa [Nat.mul_add] using h)]

/-- R34: the tree of 2^(n+1) lanes combines the trees of its halves. -/
theorem treeOf_append (g : Nat → Nat → Nat) (n : Nat) (l r : List (Option Nat)) (env : FEnv) (hl : l.length = 2 ^ n)
    (hr : r.length = 2 ^ n) :
    treeOf (fun a b env => (g a b, env)) (n + 1) (l ++ r) env
      = treeNode (fun a b env => (g a b, env)) (treeOf (fun a b env => (g a b, env)) n l env).1
          (treeOf (fun a b env => (g a b, env)) n r env).1 env := by
  induction n generalizing l r with
  | zero =>
    obtain ⟨x, rfl⟩ := List.length_eq_one_iff.1 hl
    obtain ⟨y, rfl⟩ := List.length_eq_one_iff.1 hr
    simp only [treeOf, List.cons_append, List.nil_append, treeLevel_cons_cons]
    rfl
  | succ n ih =>
    have hl' : l.length = 2 * 2 ^ n := by rw [hl, pow_succ]; omega
    have hr' : r.length = 2 * 2 ^ n := by rw [hr, pow_succ]; omega
    have el := treeLevel_pure g _ l env hl'
    have er := treeLevel_pure g _ r env hr'
    have key := ih (treeLevel (fun a b env => (g a b, env)) l env).1 (treeLevel (fun a b env => (g a b, env)) r env).1
      (treeLevel_length _ _ l env hl') (treeLevel_length _ _ r env hr')
    rw [treeOf, treeLevel_append _ _ l r env hl', el]
    dsimp only
    rw [er, key]
    simp only [treeOf, el, er]

/-- A node of which a child is absent: the other child, and no computation. -/
theorem treeNode_of_none (f : Nat → Nat → FEnv → Nat × FEnv) {x y : Option Nat} (h : x = none ∨ y = none) (env : FEnv) :
    treeNode f x y env = (x.or y, env) := by
  rcases h with rfl | rfl
  · rfl
  · cases x <;> rfl

/-- One level in which the lanes of one pair at most, number `k0`, are both there: each node, and the environment. -/
theorem treeLevel_getElem (f : Nat → Nat → FEnv → Nat × FEnv) : ∀ (l : List (Option Nat)) (k0 : Nat) (env : FEnv),
    (∀ k, k ≠ k0 → l[2 * k]?.join = none ∨ l[2 * k + 1]?.join = none) →
    (∀ k, (treeLevel f l env).1[k]?.join = (treeNode f l[2 * k]?.join l[2 * k + 1]?.join env).1)
    ∧ (treeLevel f l env).2 = (treeNode f l[2 * k0]?.join l[2 * k0 + 1]?.join env).2
    ∧ (treeLevel f l env).1.length = (l.length + 1) / 2
  | [], k0, env, _ => ⟨fun k => rfl, rfl, rfl⟩
  | [x], k0, env, _ => by
    have e : treeLevel f [x] env = ([x], env) := by cases x <;> rfl
    have hn : ∀ k, treeNode f [x][2 * k]?.join [x][2 * k + 1]?.join env = ([x][2 * k]?.join, env) := fun k => by
      rw [treeNode_of_none f (.inr (by simp))]; simp
    rw [e]
    refine ⟨fun k => ?_, (congrArg Prod.snd (hn k0)).symm, by simp⟩
    rw [hn]
    cases k <;> simp
  | x :: y :: l, k0, env, h => by
    rw [treeLevel_cons_cons]
    have shift : ∀ k, (x :: y :: l)[2 * (k + 1)]? = l[2 * k]? ∧ (x :: y :: l)[2 * (k + 1) + 1]? = l[2 * k + 1]? := fun k => by
      rw [show 2 * (k + 1) = 2 * k + 1 + 1 by omega]; exact ⟨rfl, rfl⟩
    have len : ∀ n : Nat, n = (l.length + 1) / 2 → n + 1 = ((x :: y :: l).length + 1) / 2 := fun n hn => by
      simp only [List.length_cons]; omega
    cases k0 with
    | zero =>
      have rest : ∀ k, l[2 * k]?.join = none ∨ l[2 * k + 1]?.join = none := fun k => by
        have := h (k + 1) (by omega); rwa [(shift k).1, (shift k).2] at this
      obtain ⟨hk, henv, hlen⟩ := treeLevel_getElem f l 0 (treeNode f x y env).2 fun k _ => rest k
      refine ⟨fun k => ?_, ?_, len _ hlen⟩
      · cases k with
        | zero => simp
        | succ k => rw [(shift k).1, (shift k).2, List.getElem?_cons_succ, hk, treeNode_of_none f (rest k),
            treeNode_of_none f (rest k)]
      · rw [henv, treeNode_of_none f (rest 0)]; simp
    | succ k0 =>
      have head : treeNode f x y env = (x.or y, env) :=
        treeNode_of_none f (by simpa using h 0 (by omega)) env
      obtain ⟨hk, henv, hlen⟩ := treeLevel_getElem f l k0 env fun k hne => by
        have := h (k + 1) (by omega); rwa [(shift k).1, (shift k).2] at this
      rw [head]
      refine ⟨fun k => ?_, by rw [henv, (shift k0).1, (shift k0).2], len _ hlen⟩
      cases k with
      | zero => simp [head]
      | succ k => rw [(shift k).1, (shift k).2, List.getElem?_cons_succ, hk]

/-- R34: of no taking-part lane the tree is empty. -/
theorem treeOf_none (f : Nat → Nat → FEnv → Nat × FEnv) (n : Nat) (l : List (Option Nat)) (env : FEnv)
    (h : ∀ k : Nat, l[k]?.join = none) : treeOf f n l env = (none, env) := by
  induction n generalizing l env with
  | zero =>
    have := h 0
    cases l with
    | nil => rfl
    | cons x r => simp at this; subst this; rfl
  | succ n ih =>
    obtain ⟨hk, henv, -⟩ := treeLevel_getElem f l 0 env fun k _ => .inl (h _)
    rw [treeNode_of_none f (.inl (h _))] at henv
    rw [treeOf]
    dsimp only
    rw [ih _ _ fun k => by rw [hk, treeNode_of_none f (.inl (h _)), h, h]; rfl, henv]

/-- R34: of one taking-part lane the tree is that lane. -/
theorem treeOf_one (f : Nat → Nat → FEnv → Nat × FEnv) (n : Nat) (l : List (Option Nat)) (env : FEnv) (i a : Nat)
    (hlen : l.length ≤ 2 ^ n) (hi : l[i]?.join = some a) (h : ∀ k, k ≠ i → l[k]?.join = none) :
    treeOf f n l env = (some a, env) := by
  induction n generalizing l env i with
  | zero =>
    cases l with
    | nil => simp at hi
    | cons x r =>
      have : r = [] := by simpa using hlen
      subst this
      cases i with
      | zero => simp at hi; subst hi; rfl
      | succ i => simp at hi
  | succ n ih =>
    have lone : ∀ k, l[2 * k]?.join = none ∨ l[2 * k + 1]?.join = none := fun k => by
      by_cases hki : 2 * k = i
      · exact .inr (h _ (by omega))
      · exact .inl (h _ hki)
    obtain ⟨hk, henv, hl⟩ := treeLevel_getElem f l 0 env fun k _ => lone k
    rw [treeNode_of_none f (lone 0)] at henv
    simp only [treeNode_of_none f (lone _)] at hk
    rw [treeOf]
    dsimp only
    rw [ih _ _ (i / 2) (by rw [hl]; rw [pow_succ] at hlen; omega) ?_ fun k hne => ?_, henv]
    · rw [hk]
      rcases Nat.mod_two_eq_zero_or_one i with hm | hm
      · rw [show 2 * (i / 2) = i by omega, hi]; rfl
      · rw [show 2 * (i / 2) + 1 = i by omega, hi, h _ (by omega)]; rfl
    · rw [hk, h _ (by omega), h _ (by omega)]; rfl

/-- R34: of two taking-part lanes the tree is their combination. -/
theorem treeOf_two (f : Nat → Nat → FEnv → Nat × FEnv) (n : Nat) (l : List (Option Nat)) (env : FEnv) (i j a b : Nat)
    (hlen : l.length ≤ 2 ^ n) (hij : i < j) (hi : l[i]?.join = some a) (hj : l[j]?.join = some b)
    (h : ∀ k, k ≠ i → k ≠ j → l[k]?.join = none) : treeOf f n l env = (some (f a b env).1, (f a b env).2) := by
  induction n generalizing l env i j with
  | zero =>
    have : l[j]? = none := List.getElem?_eq_none (by omega)
    rw [this] at hj
    cases hj
  | succ n ih =>
    obtain ⟨hk, henv, hl⟩ := treeLevel_getElem f l (i / 2) env fun k hne => by
      by_cases hkj : 2 * k = j
      · exact .inr (h _ (by omega) (by omega))
      · exact .inl (h _ (by omega) hkj)
    have hlen' : (treeLevel f l env).1.length ≤ 2 ^ n := by rw [hl]; rw [pow_succ] at hlen; omega
    rw [treeOf]
    dsimp only
    by_cases hp : i / 2 = j / 2
    · have e1 : 2 * (i / 2) = i := by omega
      have e2 : 2 * (i / 2) + 1 = j := by omega
      rw [e1, show i + 1 = j by omega, hi, hj] at henv
      rw [treeOf_one f n _ _ (i / 2) (f a b env).1 hlen' ?_ fun k hne => ?_, henv]
      · rfl
      · rw [hk, e2, e1, hi, hj]; rfl
      · rw [hk, treeNode_of_none f (.inl (h _ (by omega) (by omega))), h _ (by omega) (by omega),
          h _ (by omega) (by omega)]; rfl
    · have lone : ∀ k, l[2 * k]?.join = none ∨ l[2 * k + 1]?.join = none := fun k => by
        by_cases hki : 2 * k = i ∨ 2 * k = j
        · exact .inr (h _ (by omega) (by omega))
        · exact .inl (h _ (by omega) (by omega))
      rw [treeNode_of_none f (lone _)] at henv
      simp only [treeNode_of_none f (lone _)] at hk
      have half : ∀ p c, l[p]?.join = some c → l[2 * (p / 2)]?.join.or l[2 * (p / 2) + 1]?.join = some c := fun p c hp => by
        rcases Nat.mod_two_eq_zero_or_one p with hm | hm
        · rw [show 2 * (p / 2) = p by omega, hp]; rfl
        · have e : 2 * (p / 2) + 1 = p := by omega
          have := lone (p / 2)
          rw [e, hp] at this
          rw [e, hp, this.resolve_right (by simp)]; rfl
      rw [henv, ih _ _ (i / 2) (j / 2) hlen' (by omega) ?_ ?_ fun k h1 h2 => ?_]
      · rw [hk]; exact half i a hi
      · rw [hk]; exact half j b hj
      · rw [hk, h _ (by omega) (by omega), h _ (by omega) (by omega)]; rfl

/-- Settles O41: the words in the frame of R178, and what they compute with. -/
theorem vectorConversions : Obligations.VectorConversions := by
  unfold Obligations.VectorConversions
  refine ⟨⟨fun s w e he ready => convRows_done he ready,
      fun s w src n cap act tail a d h1 h2 h3 h4 h5 h6 h7 h8 h9 ready => vcvt_done h1 h2 h3 h4 h5 h6 h7 h8 h9 ready,
      fun s w src f g n cap act tail a d h1 h2 h3 h4 h5 h6 h7 h8 h9 h10 ready =>
        vcvt_raw_done h1 h2 h3 h4 h5 h6 h7 h8 h9 h10 ready,
      fun s w src f act tail a d h1 h2 h3 h4 h5 h6 ready => vqblk_done h1 h2 h3 h4 h5 h6 ready,
      fun s w act a scales d h1 h2 h3 h4 ready => vdqblk_done h1 h2 h3 h4 ready⟩,
    fun t vs ⟨v, hv, hf⟩ => ?_, fun t vs h => ?_, fun t vs l hf hl hm => blockScale_of_largest hf hl hm,
    fun f e w b x env hf hx => classOf_decodeF hf, fun g n l r env hl hr => ?_, fun f lanes env hlen h => ?_,
    fun f lanes env i a hlen hi h => treeOf_one f 7 lanes env i a hlen (by rw [hi]; rfl) h,
    fun f lanes env i j a b hlen hij hi hj h => treeOf_two f 7 lanes env i j a b hlen hij (by rw [hi]; rfl) (by rw [hj]; rfl) h⟩
  · exact if_pos (List.any_eq_true.2 ⟨v, hv, by simp [hf]⟩)
  · have hno : vs.filterMap FVal.lead = [] := List.filterMap_eq_nil_iff.2 fun v hv => (h v hv).2
    unfold blockScale
    rw [if_neg (by simpa using fun v hv => (h v hv).1), hno]
    rfl
  · rw [treeOf_append g n l r env hl hr]
    unfold treeNode
    split <;> simp_all
  · refine treeOf_none f 7 lanes env fun k => ?_
    cases hk : lanes[k]? with
    | none => rfl
    | some x => rw [h x (List.mem_of_getElem? hk)]; rfl

end Sys2Proof.Machine
end

section
/-! PROOFS. Control and status registers (O38). -/

namespace Sys2Proof.Machine

/-! ### The value that a register receives (R169) -/

/-- No bit of a register is both written and cleared by a written one. -/
theorem csrFields_disjoint (c : Csr) : (csrFields c).1 &&& (csrFields c).2 = 0 := by
  cases c
  case trapReg r t => cases r <;> cases t <;> rfl
  all_goals rfl

section Value

variable {rw w1c : Word} (hdis : rw &&& w1c = 0) (old v : Word)

include hdis

theorem csrValue_write : csrValue .write old v rw w1c &&& rw = v &&& rw
    ∧ csrValue .write old v rw w1c &&& w1c = old &&& ~~~v &&& w1c
    ∧ csrValue .write old v rw w1c &&& ~~~(rw ||| w1c) = old &&& ~~~(rw ||| w1c) := by
  refine ⟨?_, ?_, ?_⟩
  all_goals
    refine BitVec.eq_of_getLsbD_eq fun i hi => ?_
    have h := congrArg (·.getLsbD i) hdis
    simp only [csrValue, BitVec.getLsbD_and, BitVec.getLsbD_or, BitVec.getLsbD_not, hi] at h ⊢
    cases hr : rw.getLsbD i <;> cases hw : w1c.getLsbD i <;> simp_all

theorem csrValue_set : csrValue .set old v rw w1c &&& rw = (old ||| v) &&& rw
    ∧ csrValue .set old v rw w1c &&& ~~~rw = old &&& ~~~rw := by
  refine ⟨?_, ?_⟩
  all_goals
    refine BitVec.eq_of_getLsbD_eq fun i hi => ?_
    have h := congrArg (·.getLsbD i) hdis
    simp only [csrValue, BitVec.getLsbD_and, BitVec.getLsbD_or, BitVec.getLsbD_not, hi] at h ⊢
    cases hr : rw.getLsbD i <;> cases hw : w1c.getLsbD i <;> simp_all

end Value

theorem csrValue_clear (rw w1c old v : Word) : csrValue .clear old v rw w1c = old &&& ~~~(v &&& (rw ||| w1c)) := by
  refine BitVec.eq_of_getLsbD_eq fun i hi => ?_
  simp only [csrValue, BitVec.getLsbD_and, BitVec.getLsbD_or, BitVec.getLsbD_not, hi]
  cases rw.getLsbD i <;> cases w1c.getLsbD i <;> cases old.getLsbD i <;> simp

/-! ### What a write leaves -/

@[simp] theorem State.csrWrite_turn (s : State) (c : Csr) (v : Word) : (s.csrWrite c v).turn = s.turn := by
  cases c <;> rfl

theorem State.csrWrite_sameBytes (s : State) (c : Csr) (v : Word) : SameBytes s (s.csrWrite c v) := by
  cases c
  all_goals exact ⟨fun _ _ => rfl, fun _ _ _ => rfl⟩

/-- Of the turn's context a write changes its control registers only. -/
theorem State.csrWrite_ctx (s : State) (c : Csr) (v : Word) :
    (s.csrWrite c v).ctx s.turn = { s.ctx s.turn with ctl := ((s.csrWrite c v).ctx s.turn).ctl } := by
  cases c
  case trapReg r t =>
    unfold State.csrWrite
    rw [State.ctx_onCore, if_pos rfl]
    cases r <;> rfl
  case fpflags | rng | gtag | leaserun | engfault | dbgctl => unfold State.csrWrite; rw [State.ctx_onCtx_same]
  all_goals rfl

/-! ### The four instructions -/

/-- The instruction of each operation: CSRR of no source. -/
def csrInstr : CsrOp → SReg → SReg → Csr → Instr
  | .read, d, _, c => .csrr d c
  | .write, d, a, c => .csrw d a c
  | .set, d, a, c => .csrs d a c
  | .clear, d, a, c => .csrc d a c

/-- The state after the old value has been written to the destination and the word has retired. -/
def csrEnd (s : State) (d : SReg) (old : Word) (t : State) : State :=
  (t.onCtx s.turn (·.setS d old)).retireTo ((s.ctx s.turn).pc + 4) (s.ctx s.turn).ring (s.ctx s.turn).pc

section Instructions

variable {s : State} {d a : SReg} {c : Csr}

/-- R170: below the register's ring the access takes RING_VIOLATION. -/
theorem csr_traps (op : CsrOp) (h : (s.ctx s.turn).ring.rank < (csrRing c).rank) :
    Traps (csrInstr op d a c) s s.breaking { cause := 0x02, tval := BitVec.ofNat 64 c.number } := by
  have hn : csrNumber c = c.number := by
    cases c
    case trapReg r t => cases r <;> cases t <;> rfl
    all_goals rfl
  unfold Traps
  cases op <;> dsimp only [csrInstr, exec, execCsrr, execCsrw, execCsrs, execCsrc, csrOp]
  all_goals
    rw [State.breaking_turn, State.ctx_breaking, if_pos h, hn]
    rfl

/-- R168, R169: where the ring may access the register, the operation writes it or not, and ends alike. -/
theorem csr_done (op : CsrOp) (h : (csrRing c).rank ≤ (s.ctx s.turn).ring.rank) :
    exec (csrInstr op d a c) s = .next (csrEnd s d (s.breaking.csrRead c)
      (if op = .write ∨ (op ≠ .read ∧ a ≠ 0) then
        s.breaking.csrWrite c (csrValue op (s.breaking.csrRead c) (s.rs a) (csrFields c).1 (csrFields c).2)
      else s.breaking)) := by
  have hs : ∀ (p : Prop) [Decidable p] (w : Word), (if p then s.breaking.csrWrite c w else s.breaking).turn = s.turn :=
    fun p _ w => by split <;> simp
  cases op <;> dsimp only [csrInstr, exec, execCsrr, execCsrw, execCsrs, execCsrc, csrOp]
  all_goals
    rw [State.breaking_turn, State.ctx_breaking, if_neg (by exact not_lt.2 h), State.breaking_rs]
    simp only [csrEnd, hs]
  all_goals simp

end Instructions

section Ends

variable (s : State) (d : SReg) (c : Csr) (old u : Word)

/-- What a word that writes nothing but its destination leaves is what `WritesBreaking` says. -/
theorem writesBreaking_of_csrEnd {i : Instr} (h : exec i s = .next (csrEnd s d old s.breaking)) :
    WritesBreaking i s d old := retires_of_breaking h

/-- The scalar registers and the pc after a word that also writes the register. -/
theorem csrEnd_regs : ((csrEnd s d old (s.breaking.csrWrite c u)).ctx s.turn).rs d = (if d = 0 then 0 else old)
    ∧ ((csrEnd s d old (s.breaking.csrWrite c u)).ctx s.turn).pc = (s.ctx s.turn).pc + 4
    ∧ ∀ q, q ≠ d → ((csrEnd s d old (s.breaking.csrWrite c u)).ctx s.turn).rs q = (s.ctx s.turn).rs q := by
  have ht : s.turn = (s.breaking.csrWrite c u).turn := by simp
  have hc := State.csrWrite_ctx s.breaking c u
  rw [State.breaking_turn, State.ctx_breaking] at hc
  have he := State.ctx_write_retireTo (s.breaking.csrWrite c u) d old ((s.ctx s.turn).pc + 4) (s.ctx s.turn).ring
    (s.ctx s.turn).pc
  have hr := rs_write_retireTo (s.breaking.csrWrite c u) d old ((s.ctx s.turn).pc + 4) (s.ctx s.turn).ring
    (s.ctx s.turn).pc
  rw [← ht] at he hr
  unfold csrEnd
  refine ⟨hr, by rw [he], fun q hq => ?_⟩
  rw [he]
  show (((s.breaking.csrWrite c u).ctx s.turn).setS d old).rs q = _
  rw [Ctx.rs_setS, if_neg hq, ite_self, hc]
  rfl

theorem csrEnd_sameBytes : SameBytes s (csrEnd s d old (s.breaking.csrWrite c u)) := by
  have hb : SameBytes s s.breaking := sameBytes_of_only (by unfold State.breaking; split <;> rfl)
  have hw := State.csrWrite_sameBytes s.breaking c u
  have he : SameBytes (s.breaking.csrWrite c u) (csrEnd s d old (s.breaking.csrWrite c u)) := sameBytes_of_only rfl
  exact ⟨fun team a => (he.1 team a).trans ((hw.1 team a).trans (hb.1 team a)),
    fun cl off n => (he.2 cl off n).trans ((hw.2 cl off n).trans (hb.2 cl off n))⟩

end Ends

/-! ### What a written register reads (R172) -/

section ReadBack

variable (s : State) (v : Word)

theorem csrRead_fpflags_csrWrite : (s.csrWrite .fpflags v).csrRead .fpflags = v &&& 0x7F := by
  unfold State.csrRead State.csrWrite
  simp only [State.onCtx_turn, State.core_onCtx, if_true]
  refine BitVec.eq_of_toNat_eq ?_
  have h : v.toNat &&& 127 = v.toNat % 2 ^ 7 := Nat.and_two_pow_sub_one_eq_mod v.toNat 7
  have h' : v.toNat % 2 ^ 7 < 2 ^ 64 := (Nat.mod_lt _ (by norm_num)).trans (by norm_num)
  simpa [h] using h'

/-- The registers that read what was written. -/
theorem csrRead_csrWrite_plain {c : Csr} (h : c ∈ [Csr.rng, .gtag, .leaserun, .engfault, .dbgctl, .pbudget]) :
    (s.csrWrite c v).csrRead c = v := by
  simp only [List.mem_cons, List.not_mem_nil, or_false] at h
  obtain rfl | rfl | rfl | rfl | rfl | rfl := h
  case inr.inr.inr.inr.inr =>
    show ((s.onVf (s.teamOf s.turn).vf _).vf (s.teamOf s.turn).vf).pbudget = v
    unfold State.vf State.onVf
    rw [Map.get_set, if_pos rfl]
  all_goals
    unfold State.csrRead State.csrWrite
    simp only [State.onCtx_turn, State.core_onCtx, if_true]

theorem trapRegs_setTrapRegs (k : Core) (r r' : HRing) (x : TrapRegs) :
    (k.setTrapRegs r x).trapRegs r' = if r' = r then x else k.trapRegs r' := by
  cases r <;> cases r' <;> rfl

theorem TrapRegs.read_write (x : TrapRegs) (t t' : TReg) :
    (x.write t v).read t' = if t' = t then v else x.read t' := by
  cases t <;> cases t' <;> rfl

theorem csrRead_trapReg_csrWrite (r r' : HRing) (t t' : TReg) :
    (s.csrWrite (.trapReg r t) v).csrRead (.trapReg r' t')
      = if (r', t') = (r, t) then v else s.csrRead (.trapReg r' t') := by
  unfold State.csrRead State.csrWrite
  simp only [State.onCore_turn, State.core_onCore_same, trapRegs_setTrapRegs, Prod.mk.injEq]
  by_cases hr : r' = r
  · subst hr; simp [TrapRegs.read_write]
  · simp [hr]

/-- R396: a write of a locked ctl.world is ignored. -/
theorem csrRead_world_csrWrite_locked (h : s.home.world.getLsbD 63 = true) :
    (s.csrWrite .world v).csrRead .world = s.csrRead .world := by
  show s.worldValue v = s.home.world
  unfold State.worldValue
  rw [if_pos h]

end ReadBack

/-- Settles O38: each of the four operations by what it writes, and each written register by what it then reads. -/
theorem csrInstructions : Obligations.CsrInstructions := by
  refine ⟨?_, fun s v => ⟨csrRead_fpflags_csrWrite s v, fun c => csrRead_csrWrite_plain s v, fun r t => ⟨?_, ?_⟩,
    csrRead_world_csrWrite_locked s v⟩⟩
  · intro s d a c old v rw w1c hold hv hf
    have hdis : rw &&& w1c = 0 := by
      have := csrFields_disjoint c
      rwa [← hf] at this
    refine ⟨fun hr => ?_, fun hr => ⟨csr_traps (a := a) .read hr, csr_traps .write hr, csr_traps .set hr,
      csr_traps .clear hr⟩⟩
    have hd := fun op => csr_done (d := d) (a := a) op hr
    rw [← hold, ← hv, ← hf] at hd
    refine ⟨writesBreaking_of_csrEnd s d old (hd .read), fun ha => ⟨?_, ?_⟩, ?_, fun ha => ?_, fun ha => ?_⟩
    · exact writesBreaking_of_csrEnd s d old ((hd .set).trans (by rw [if_neg (by simp [ha])]))
    · exact writesBreaking_of_csrEnd s d old ((hd .clear).trans (by rw [if_neg (by simp [ha])]))
    · obtain ⟨hrs, hpc, hother⟩ := csrEnd_regs s d c old (csrValue .write old v rw w1c)
      exact ⟨_, hd .write, hrs, hpc, hother, csrEnd_sameBytes s d c old _, _, rfl, csrValue_write hdis old v⟩
    · exact ⟨_, _, (hd .set).trans (by rw [if_pos (Or.inr ⟨by simp, ha⟩)]; rfl), rfl, csrValue_set hdis old v⟩
    · exact ⟨_, _, (hd .clear).trans (by rw [if_pos (Or.inr ⟨by simp, ha⟩)]; rfl), rfl, csrValue_clear rw w1c old v⟩
  · rw [csrRead_trapReg_csrWrite, if_pos rfl]
  · intro r' t' h
    rw [csrRead_trapReg_csrWrite, if_neg h]

end Sys2Proof.Machine
end

section
/-! PROOFS. Acceptance of matrix instructions (O47). -/

namespace Sys2Proof.Machine

/-! ### The first member of a list that gives something -/

section First

variable {α β : Type} {f : α → Option β}

theorem findSome?_eq_some_iff_getElem? {l : List α} {y : β} :
    l.findSome? f = some y ↔ ∃ (n : Nat) (u : α), l[n]? = some u ∧ f u = some y
      ∧ ∀ (i : Nat) (v : α), i < n → l[i]? = some v → f v = none := by
  rw [List.findSome?_eq_some_iff]
  constructor
  · rintro ⟨l₁, a, l₂, rfl, ha, h⟩
    refine ⟨l₁.length, a, by simp, ha, fun i v hi hv => h v ?_⟩
    rw [List.getElem?_append_left hi] at hv
    exact List.mem_of_getElem? hv
  · rintro ⟨n, u, hn, hu, h⟩
    obtain ⟨hlt, hget⟩ := List.getElem?_eq_some_iff.1 hn
    refine ⟨l.take n, u, l.drop (n + 1), ?_, hu, fun v hv => ?_⟩
    · rw [← hget, List.getElem_cons_drop, List.take_append_drop]
    · obtain ⟨i, hi, rfl⟩ := List.mem_iff_getElem.1 hv
      have hin : i < n := by simp only [List.length_take] at hi; omega
      exact h i _ hin (by rw [List.getElem_take, List.getElem?_eq_getElem])

/-- What the first member with a property gives, where no member without it gives anything. -/
theorem findSome?_of_firstIs {l : List α} {p : α → Prop} {u : α} {y : β} (h : firstIs l p u) (hu : f u = some y)
    (hn : ∀ v, ¬ p v → f v = none) : l.findSome? f = some y := by
  obtain ⟨n, hl, -, hb⟩ := h
  exact findSome?_eq_some_iff_getElem?.2 ⟨n, u, hl, hu, fun i v hi hv => hn v (hb i v hi hv)⟩

end First

/-! ### The lowest bit of a field -/

theorem trailingZerosFrom_eq {x j : Nat} : ∀ {n i : Nat}, j < n → x.testBit (i + j) = true →
    (∀ k < j, x.testBit (i + k) = false) → trailingZerosFrom n i x = j := by
  induction j with
  | zero =>
    intro n i hn hb _
    obtain ⟨n, rfl⟩ := Nat.exists_eq_succ_of_ne_zero (by omega : n ≠ 0)
    rw [trailingZerosFrom, if_pos (by simpa using hb)]
  | succ j ih =>
    intro n i hn hb hlow
    obtain ⟨n, rfl⟩ := Nat.exists_eq_succ_of_ne_zero (by omega : n ≠ 0)
    have h0 : x.testBit i = false := hlow 0 (by omega)
    rw [trailingZerosFrom, if_neg (by simp [h0]), ih (by omega) (by rwa [Nat.add_right_comm, Nat.add_assoc] ) fun k hk => ?_]
    · omega
    · rw [Nat.add_right_comm, Nat.add_assoc]; exact hlow (k + 1) (by omega)

section Field

variable {x : Word} {lo len : Nat}

theorem testBit_bitsOf (x : Word) (lo len j : Nat) :
    (bitsOf x.toNat lo len).testBit j = (decide (j < len) && x.getLsbD (lo + j)) := by
  rw [bitsOf, Nat.testBit_mod_two_pow, Nat.testBit_shiftRight, BitVec.testBit_toNat]

/-- A field is zero where none of its bits is one. -/
theorem bitsOf_eq_zero (h : ∀ b, lo ≤ b → b < lo + len → x.getLsbD b = false) : bitsOf x.toNat lo len = 0 := by
  refine Nat.eq_of_testBit_eq fun j => ?_
  rw [testBit_bitsOf, Nat.zero_testBit]
  by_cases hj : j < len
  · rw [h (lo + j) (by omega) (by omega), Bool.and_false]
  · simp [hj]

/-- The lowest bit of a field that is one. -/
theorem trailingZerosFrom_bitsOf {b : Nat} (hlo : lo ≤ b) (hhi : b < lo + len) (hb : x.getLsbD b = true)
    (hlow : ∀ i, lo ≤ i → i < b → x.getLsbD i = false) :
    bitsOf x.toNat lo len ≠ 0 ∧ lo + trailingZerosFrom len 0 (bitsOf x.toNat lo len) = b := by
  have hlen : b - lo < len := by omega
  have hbit : (bitsOf x.toNat lo len).testBit (b - lo) = true := by
    rw [testBit_bitsOf, Nat.add_sub_of_le hlo, hb, Bool.and_true, decide_eq_true hlen]
  refine ⟨fun h => by simp [h] at hbit, ?_⟩
  rw [trailingZerosFrom_eq hlen (by rwa [Nat.zero_add])]
  · omega
  · intro k hk
    rw [Nat.zero_add, testBit_bitsOf, hlow (lo + k) (by omega) (by omega), Bool.and_false]

/-- The lowest one among a word's bits from `lo` on. -/
theorem exists_lowest_bit (h : ∃ b, lo ≤ b ∧ x.getLsbD b = true) :
    ∃ b, lo ≤ b ∧ x.getLsbD b = true ∧ ∀ i, lo ≤ i → i < b → x.getLsbD i = false := by
  classical
  refine ⟨Nat.find h, (Nat.find_spec h).1, (Nat.find_spec h).2, fun i hi hlt => ?_⟩
  have := Nat.find_min h hlt
  simpa [hi] using this

end Field

/-! ### The checks of scratchpad operands (R202, R203) -/

theorem phys_spOp (u : SpUse) (rep r b : Nat) : (spOp u.first u.second).phys rep r b = spPlace u.first u.second rep r b := by
  have h : ∀ (x : Word) (lo len : Nat), bitsOf x.toNat lo len = (x.extractLsb' lo len).toNat := fun x lo len => by
    simp [bitsOf, BitVec.extractLsb']
  unfold SpOp.phys SpOp.logical spOp rotated spPlace
  simp only [h]
  omega

theorem SpUse.outside_eq_some_iff {u : SpUse} {o : Nat} : u.outside = some o ↔ spOutside u o := by
  unfold SpUse.outside spOutside
  simp only [phys_spOp]
  generalize spPlace u.first u.second = place
  rw [findSome?_eq_some_iff_getElem?]
  constructor
  · rintro ⟨n, rep, hrep, hrow, hreps⟩
    obtain ⟨hn, rfl⟩ := List.getElem?_eq_some_iff.1 hrep
    obtain ⟨i, r, hr, hbyte, hrows⟩ := findSome?_eq_some_iff_getElem?.1 hrow
    obtain ⟨k, b, hb, ho, hbytes⟩ := findSome?_eq_some_iff_getElem?.1 hbyte
    simp only [List.getElem_range, List.length_range] at hn ho hbytes hrows
    obtain ⟨hle, ho⟩ := Option.ite_none_right_eq_some.1 ho
    obtain rfl := Option.some.inj ho
    refine ⟨n, i, k, r, b, hn, hr, hb, rfl, hle, fun rep' i' k' r' b' hlex hr' hb' => ?_⟩
    refine Nat.not_le.1 fun hle' => ?_
    rcases hlex with hlt | ⟨rfl, hlt | ⟨rfl, hlt⟩⟩
    · have hnone := hreps rep' rep' hlt (List.getElem?_range (by omega))
      have := List.findSome?_eq_none_iff.1 (List.findSome?_eq_none_iff.1 hnone r' (List.mem_of_getElem? hr')) b'
        (List.mem_of_getElem? hb')
      simp [hle'] at this
    · have := List.findSome?_eq_none_iff.1 (hrows i' r' hlt hr') b' (List.mem_of_getElem? hb')
      simp [hle'] at this
    · obtain rfl : r' = r := Option.some.inj (hr'.symm.trans hr)
      have := hbytes k' b' hlt hb'
      simp [hle'] at this
  · rintro ⟨rep, i, k, r, b, hrep, hr, hb, rfl, hle, hlex⟩
    have hnone : ∀ rep' i' k' r' b', (rep' < rep ∨ (rep' = rep ∧ (i' < i ∨ (i' = i ∧ k' < k)))) → u.rows[i']? = some r' →
        u.bytes[k']? = some b' → (if 8388608 ≤ place rep' r' b' then some (place rep' r' b') else none) = none :=
      fun rep' i' k' r' b' hl hr' hb' => if_neg (Nat.not_le.2 (hlex rep' i' k' r' b' hl hr' hb'))
    refine ⟨rep, rep, List.getElem?_range hrep, findSome?_eq_some_iff_getElem?.2 ⟨i, r, hr,
      findSome?_eq_some_iff_getElem?.2 ⟨k, b, hb, if_pos hle, fun k' b' hk' hb' => hnone rep i k' r b' (by omega) hr hb'⟩,
      fun i' r' hi' hr' => List.findSome?_eq_none_iff.2 fun b' hb' => ?_⟩,
      fun n rep' hn hrep' => List.findSome?_eq_none_iff.2 fun r' hr' => List.findSome?_eq_none_iff.2 fun b' hb' => ?_⟩
    · obtain ⟨k', hk'⟩ := List.getElem?_of_mem hb'
      exact hnone rep i' k' r' b' (by omega) hr' hk'
    · obtain ⟨hlt, rfl⟩ := List.getElem?_eq_some_iff.1 hrep'
      obtain ⟨i', hi'⟩ := List.getElem?_of_mem hr'
      obtain ⟨k', hk'⟩ := List.getElem?_of_mem hb'
      rw [List.getElem_range]
      exact hnone n i' k' r' b' (by omega) hi' hk'

theorem SpUse.misaligned_eq_some_iff {u : SpUse} {o : Nat} : u.misaligned = some o ↔ spMisaligned u o := by
  have h : ∀ (x : Word) (lo len : Nat), (x.extractLsb' lo len).toNat = bitsOf x.toNat lo len := fun x lo len => by
    simp [bitsOf, BitVec.extractLsb']
  unfold SpUse.misaligned spMisaligned spOp
  simp only [h]
  by_cases hs : u.scaled = true ∨ u.rows = [] ∨ u.bytes = []
  · rw [if_pos (by simpa [or_assoc] using hs)]
    grind
  · rw [if_neg (by simpa [or_assoc] using hs)]
    simp only [not_or, Bool.not_eq_true] at hs
    obtain ⟨h1, h2, h3⟩ := hs
    grind

/-- The trap of a reserved bit, as the check of one operand gives it. -/
def SpUse.reservedTrap (u : SpUse) : Option TrapInfo :=
  let x := bitsOf u.second.toNat 36 28
  if x = 0 then none else some (tCommand 0 (36 + trailingZerosFrom 28 0 x) u.sreg 0)

theorem SpUse.reservedTrap_of_reserved {u : SpUse} {b : Nat} (hb : b < 64) (h : spReserved u b) :
    u.reservedTrap = some { cause := 0x08, tval := BitVec.ofNat 64 (4 * b + 256 * u.sreg) } := by
  obtain ⟨hlo, hbit, hlow⟩ := h
  obtain ⟨hne, heq⟩ := trailingZerosFrom_bitsOf hlo (by omega : b < 36 + 28) hbit hlow
  unfold SpUse.reservedTrap
  rw [if_neg hne]
  simp only [heq, tCommand, Nat.mul_zero, Nat.add_zero, Nat.zero_add]

theorem SpUse.reservedTrap_eq_none {u : SpUse} (h : ∀ b, ¬ (b < 64 ∧ spReserved u b)) : u.reservedTrap = none := by
  refine if_pos (bitsOf_eq_zero fun b hlo hhi => ?_)
  by_contra hb
  obtain ⟨c, hc, hbit, hlow⟩ := exists_lowest_bit ⟨b, hlo, by simpa using hb⟩
  exact h c ⟨BitVec.lt_of_getLsbD hbit, hc, hbit, hlow⟩

/-- R202, R203: the operand checks, each over all the operands before the next. -/
theorem spOperandTrap_eq (us : List SpUse) : spOperandTrap us = ((us.findSome? SpUse.reservedTrap).or
    ((us.findSome? SpUse.outside).map (fun o => tAddress ((spWindow + o) % 2 ^ 64)))).or
    ((us.findSome? SpUse.misaligned).map (fun o => tMisaligned ((spWindow + o) % 2 ^ 64))) := rfl

theorem window_mod (o : Nat) : BitVec.ofNat 64 ((spWindow + o) % 2 ^ 64) = BitVec.ofNat 64 (0xFFFFFFF000000000 + o) :=
  BitVec.eq_of_toNat_eq (by simp [spWindow])

section Refused

variable {us : List SpUse}

theorem spOperandTrap_of_reserved {u : SpUse} {b : Nat} (h : firstIs us (fun u => ∃ b, b < 64 ∧ spReserved u b) u)
    (hb : b < 64) (hr : spReserved u b) :
    spOperandTrap us = some { cause := 0x08, tval := BitVec.ofNat 64 (4 * b + 256 * u.sreg) } := by
  rw [spOperandTrap_eq, findSome?_of_firstIs h (SpUse.reservedTrap_of_reserved hb hr) fun v hv =>
    SpUse.reservedTrap_eq_none fun c hc => hv ⟨c, hc⟩]
  rfl

theorem spOperandTrap_of_outside {u : SpUse} {o : Nat} (h0 : ∀ u ∈ us, ∀ b, ¬ (b < 64 ∧ spReserved u b))
    (h : firstIs us (fun u => ∃ o, spOutside u o) u) (ho : spOutside u o) :
    spOperandTrap us = some { cause := 0x04, tval := BitVec.ofNat 64 (0xFFFFFFF000000000 + o) } := by
  rw [spOperandTrap_eq, List.findSome?_eq_none_iff.2 fun v hv => SpUse.reservedTrap_eq_none (h0 v hv),
    findSome?_of_firstIs h (SpUse.outside_eq_some_iff.2 ho) fun v hv =>
      Option.eq_none_iff_forall_ne_some.2 fun o' ho' => hv ⟨o', SpUse.outside_eq_some_iff.1 ho'⟩]
  exact congrArg (fun v => some ({ cause := 0x04, tval := v } : TrapInfo)) (window_mod o)

theorem spOperandTrap_of_misaligned {u : SpUse} {o : Nat} (h0 : ∀ u ∈ us, ∀ b, ¬ (b < 64 ∧ spReserved u b))
    (h1 : ∀ u ∈ us, ∀ o, ¬ spOutside u o) (h : firstIs us (fun u => ∃ o, spMisaligned u o) u) (ho : spMisaligned u o) :
    spOperandTrap us = some { cause := 0x05, tval := BitVec.ofNat 64 (0xFFFFFFF000000000 + o) } := by
  rw [spOperandTrap_eq, List.findSome?_eq_none_iff.2 fun v hv => SpUse.reservedTrap_eq_none (h0 v hv),
    List.findSome?_eq_none_iff.2 fun v hv =>
      Option.eq_none_iff_forall_ne_some.2 fun o' ho' => h1 v hv o' (SpUse.outside_eq_some_iff.1 ho'),
    findSome?_of_firstIs h (SpUse.misaligned_eq_some_iff.2 ho) fun v hv =>
      Option.eq_none_iff_forall_ne_some.2 fun o' ho' => hv ⟨o', SpUse.misaligned_eq_some_iff.1 ho'⟩]
  exact congrArg (fun v => some ({ cause := 0x05, tval := v } : TrapInfo)) (window_mod o)

theorem spOperandTrap_eq_none (h0 : ∀ u ∈ us, ∀ b, ¬ (b < 64 ∧ spReserved u b)) (h1 : ∀ u ∈ us, ∀ o, ¬ spOutside u o)
    (h2 : ∀ u ∈ us, ∀ o, ¬ spMisaligned u o) : spOperandTrap us = none := by
  rw [spOperandTrap_eq, List.findSome?_eq_none_iff.2 fun v hv => SpUse.reservedTrap_eq_none (h0 v hv),
    List.findSome?_eq_none_iff.2 fun v hv =>
      Option.eq_none_iff_forall_ne_some.2 fun o' ho' => h1 v hv o' (SpUse.outside_eq_some_iff.1 ho'),
    List.findSome?_eq_none_iff.2 fun v hv =>
      Option.eq_none_iff_forall_ne_some.2 fun o' ho' => h2 v hv o' (SpUse.misaligned_eq_some_iff.1 ho')]
  rfl

end Refused

/-! ### The checks of accumulators (R144, R206, R219) -/

section Accumulators

variable {α σ ε : Type} {f g : σ → α → Except ε σ}

theorem foldE_append (s : σ) (l l' : List α) : foldE f s (l ++ l') = (foldE f s l).bind (fun t => foldE f t l') := by
  induction l generalizing s with
  | nil => rfl
  | cons x l ih =>
    simp only [List.cons_append, foldE]
    cases f s x with
    | ok t => exact ih t
    | error e => rfl

theorem foldE_flatMap {β : Type} (h : β → List α) (s : σ) (l : List β) :
    foldE f s (l.flatMap h) = foldE (fun t x => foldE f t (h x)) s l := by
  induction l generalizing s with
  | nil => rfl
  | cons x l ih =>
    rw [List.flatMap_cons, foldE_append, foldE]
    cases foldE f s (h x) with
    | ok t => exact ih t
    | error e => rfl

end Accumulators

/-- The tags after one check of an accumulator, and the check itself. -/
def useTags (cf : Fmt) (tags : Map Fmt) (e : Nat × Nat) : Map Fmt := if e.2 = 0 then tags else Map.set .raw tags e.1 cf
def useOk (cf f : Fmt) (kind : Nat) : Bool := f == cf || (kind != 0 && (kind != 1 || f == .raw))
def useAcc (cf : Fmt) (tags : Map Fmt) (e : Nat × Nat) : Except TrapInfo (Map Fmt) :=
  if useOk cf (Map.get .raw tags e.1) e.2 then .ok (useTags cf tags e) else .error (tFormat cf (Map.get .raw tags e.1) 3)

/-- The tag that the `n`-th of a list of checks finds, and whether it fails: `accFinds` and `accFails` of any list. -/
def usesFind (cf : Fmt) (us : List (Nat × Nat)) (tags : Map Fmt) (n : Nat) : Fmt :=
  let t := (us.getD n (0, 2)).1
  if (us.take n).any (fun e => e.1 == t && e.2 != 0) then cf else Map.get .raw tags t
def usesFail (cf : Fmt) (us : List (Nat × Nat)) (tags : Map Fmt) (n : Nat) : Prop :=
  n < us.length ∧ useOk cf (usesFind cf us tags n) (us.getD n (0, 2)).2 = false

section Uses

variable {cf : Fmt} {us : List (Nat × Nat)} {tags : Map Fmt} {n : Nat} {e : Nat × Nat}

theorem usesFind_zero : usesFind cf (e :: us) tags 0 = Map.get .raw tags e.1 := by
  simp [usesFind]

/-- The first check is done: the others start from the tags that it leaves. -/
theorem usesFind_succ : usesFind cf (e :: us) tags (n + 1) = usesFind cf us (useTags cf tags e) n := by
  unfold usesFind useTags
  simp only [List.getD_cons_succ, List.take_succ_cons, List.any_cons]
  generalize (us.getD n (0, 2)).1 = t
  by_cases hk : e.2 = 0
  · rw [if_pos hk, show (e.1 == t && e.2 != 0) = false by simp [hk], Bool.false_or]
  · rw [if_neg hk, Map.get_set]
    by_cases he : e.1 = t
    · rw [if_pos he.symm, show (e.1 == t && e.2 != 0) = true by simp [hk, he], Bool.true_or, if_pos rfl, ite_self]
    · rw [if_neg (Ne.symm he), show (e.1 == t && e.2 != 0) = false by simp [he], Bool.false_or]

theorem usesFail_succ : usesFail cf (e :: us) tags (n + 1) ↔ usesFail cf us (useTags cf tags e) n := by
  unfold usesFail
  rw [usesFind_succ, List.getD_cons_succ, List.length_cons, Nat.add_lt_add_iff_right]

theorem usesFail_zero : usesFail cf (e :: us) tags 0 ↔ useOk cf (Map.get .raw tags e.1) e.2 = false := by
  unfold usesFail
  rw [usesFind_zero]
  simp

theorem foldE_useAcc_ok (h : ∀ n, ¬ usesFail cf us tags n) : ∃ t, foldE (useAcc cf) tags us = .ok t := by
  induction us generalizing tags with
  | nil => exact ⟨tags, rfl⟩
  | cons e us ih =>
    have h0 : useOk cf (Map.get .raw tags e.1) e.2 = true := by simpa [usesFail_zero] using h 0
    rw [foldE, useAcc, if_pos h0]
    exact ih fun n hn => h (n + 1) (usesFail_succ.2 hn)

theorem foldE_useAcc_error (h : usesFail cf us tags n) (hlow : ∀ j, j < n → ¬ usesFail cf us tags j) :
    foldE (useAcc cf) tags us = .error (tFormat cf (usesFind cf us tags n) 3) := by
  induction us generalizing tags n with
  | nil => exact absurd h.1 (Nat.not_lt_zero n)
  | cons e us ih =>
    cases n with
    | zero => rw [foldE, useAcc, if_neg (by simp [usesFail_zero.1 h]), usesFind_zero]
    | succ n =>
      have h0 : useOk cf (Map.get .raw tags e.1) e.2 = true := by simpa [usesFail_zero] using hlow 0 (Nat.succ_pos n)
      rw [foldE, useAcc, if_pos h0, usesFind_succ]
      exact ih (usesFail_succ.1 h) fun j hj hf => hlow (j + 1) (Nat.succ_lt_succ hj) (usesFail_succ.2 hf)

end Uses

theorem accFails_iff (m : MxInstr) (tags : Map Fmt) (n : Nat) :
    accFails m tags n ↔ usesFail m.word.cf (accUses m) tags n := by
  unfold accFails usesFail useOk
  rw [show accFinds m tags n = usesFind m.word.cf (accUses m) tags n from rfl]
  simp only [Bool.or_eq_false_iff, beq_eq_false_iff_ne, Bool.and_eq_false_iff, bne_eq_false_iff_eq, ne_eq]

theorem mparts_eq_none {i : Instr} (h1 : ∀ w, i ≠ .mma w) (h2 : ∀ w, i ≠ .drun w) (h3 : ∀ w, i ≠ .mld w)
    (h4 : ∀ w, i ≠ .mst w) (h5 : ∀ w, i ≠ .mzero w) (h6 : ∀ w, i ≠ .acpy w) (h7 : ∀ w, i ≠ .acpyin w) : i.mparts = none := by
  unfold Instr.mparts
  split <;> simp_all

/-- One check as the model writes it, then the others. -/
theorem foldE_useAcc_cons (ok : Fmt → Bool) (cf : Fmt) (tags : Map Fmt) (t k : Nat) (us : List (Nat × Nat))
    (h : ∀ f, ok f = useOk cf f k) : foldE (useAcc cf) tags ((t, k) :: us)
      = (needTag ok cf tags t).bind (fun _ => foldE (useAcc cf) (useTags cf tags (t, k)) us) := by
  unfold needTag
  rw [foldE, useAcc]
  simp only [h]
  cases useOk cf (Map.get .raw tags t) k <;> rfl

theorem useTags_target {k : Nat} (h : k ≠ 0) (cf : Fmt) (tags : Map Fmt) (t : Nat) :
    useTags cf tags (t, k) = Map.set .raw tags t cf := if_neg h

/-- The checks of an MMA: each step's target, and the pair where the step drains. -/
def mmaUses (m : MxInstr) (r : Nat) : List (Nat × Nat) :=
  (m.word.target r, if m.word.ovw && (r == 0 || !m.word.accAcross) then 2 else 1)
    :: if m.drains r then [(m.word.pair r, 0)] else []

theorem accUses_mma {m : MxInstr} {w : MWord} (h : m.insn = .mma w) : accUses m = (List.range m.nrep).flatMap (mmaUses m) := by
  unfold accUses mmaUses MxInstr.drains
  rw [h]
  simp only [Bool.and_eq_true, Bool.or_eq_true, beq_iff_eq, Bool.not_eq_true']
  rfl

theorem mmaTags_eq {m : MxInstr} (tags : Map Fmt) {w : MWord} (h : m.insn = .mma w) :
    mmaTags m tags = foldE (useAcc m.word.cf) tags (accUses m) := by
  rw [accUses_mma h, foldE_flatMap]
  unfold mmaTags mmaUses
  dsimp only
  congr 1
  funext tags r
  rw [foldE_useAcc_cons (fun f => m.word.ovw && (r == 0 || !m.word.accAcross) || f == .raw || f == m.word.cf),
    useTags_target (by split <;> decide)]
  · refine congrArg (Except.bind _) (funext fun _ => ?_)
    cases m.drains r
    · rfl
    · rw [if_pos rfl, if_pos rfl, foldE_useAcc_cons (· == m.word.cf) _ _ _ _ _ (by simp [useOk])]
      rfl
  · intro f
    cases m.word.ovw && (r == 0 || !m.word.accAcross) <;> simp [useOk, Bool.or_comm]

/-- The checks of the accumulators are those that `accUses` lists, in its order. -/
theorem accTags_eq (m : MxInstr) (tags : Map Fmt) : accTags m tags = foldE (useAcc m.word.cf) tags (accUses m) := by
  by_cases hm : ∃ w, m.insn = .mma w
  · obtain ⟨w, hw⟩ := hm
    rw [← mmaTags_eq tags hw]
    simp [accTags, MxInstr.op, hw, Instr.mparts]
  unfold accUses
  split
  · exact absurd ⟨_, ‹_›⟩ hm
  · next w h =>
    rw [foldE_useAcc_cons (fun f => m.word.ovw || f == .raw || f == m.word.cf), useTags_target (by split <;> decide)]
    · simp only [accTags, MxInstr.op, h, Instr.mparts]
      rfl
    · intro f
      cases m.word.ovw <;> simp [useOk, Bool.or_comm]
  · next w h =>
    rw [foldE_useAcc_cons (fun _ => true) _ _ _ _ _ (by simp [useOk])]
    simp only [accTags, MxInstr.op, h, Instr.mparts]
    rfl
  · next w h =>
    rw [foldE_useAcc_cons (· == m.word.cf) _ _ _ _ _ (by simp [useOk]), foldE_useAcc_cons (· == m.word.cf) _ _ _ _ _ (by simp [useOk])]
    simp only [accTags, MxInstr.op, h, Instr.mparts]
    rfl
  · next w h =>
    rw [foldE_useAcc_cons (· == m.word.cf) _ _ _ _ _ (by simp [useOk])]
    simp only [accTags, MxInstr.op, h, Instr.mparts]
    rfl
  · next w h =>
    rw [foldE_useAcc_cons (· == m.word.cf) _ _ _ _ _ (by simp [useOk])]
    simp only [accTags, MxInstr.op, h, Instr.mparts]
    rfl
  · by_cases hl : ∃ w, m.insn = .mld w
    · obtain ⟨w, hw⟩ := hl
      simp only [accTags, MxInstr.op, hw, Instr.mparts]
      rfl
    · have h : m.insn.mparts = none := by
        apply mparts_eq_none <;> simp_all
      simp only [accTags, MxInstr.op, h]
      rfl

/-! ### Trying to accept (R206 stage 3) -/

section Accept

variable {u : State} {k : Nat} {m : MxInstr} {x : TrapInfo} {shown : Map Fmt}

theorem mxTurn_of_ready (h : mxReady u k m shown) : mxTurn u k m := by
  obtain ⟨h1, h2, h3, h4, h5, h6, h7, -⟩ := h
  exact ⟨h1, h2, h3, h4, h5, h6, h7⟩

/-- Where it is the instruction's turn, its checks decide. -/
theorem acceptMx_of_turn {r : Res} (h : mxTurn u k m)
    (hr : (match accTags m (u.cluster (clusterOf k)).array.shown with
      | .error t => trapE u t
      | .ok shown => match spOperandTrap m.spUses with
        | some t => trapE u t
        | none =>
          if ((u.ctx k).timeline .cp).issued < m.waitCp.toNat then trapE u (tAhead m.waitCp)
          else if ((u.ctx k).timeline .ws).issued < m.waitWs.toNat then trapE u (tAhead m.waitWs)
          else .ok (u.takeMx k m shown)) = r) : u.acceptMx k m = r := by
  obtain ⟨hold, hrun, hlen, hrep, hhalt, hmr, hmc⟩ := h
  have hq : ∀ f : MxInstr → Bool, (∀ q, (∀ a b, q.insn ≠ .mrstr a b) → f q = false) →
      (u.cluster (clusterOf k)).array.queue.any f = false :=
    fun f hf => List.any_eq_false.2 fun q hq => by simp [hf q (hmr q hq)]
  have hm : (u.mcast.any fun c => c.core == k) = false := List.any_eq_false.2 fun c hc => by simpa using hmc c hc
  have hl : (decide ((u.cluster (clusterOf k)).array.lease.left < m.nrep) && !(u.cluster (clusterOf k)).array.lease.first) = false := by
    rcases hrun with h | h
    · simp [h]
    · simp [h]
  rw [← hr]
  unfold State.acceptMx
  simp only [hold, ne_eq, not_true_eq_false, if_false, hrep, hhalt, hm, hl, Nat.not_le.2 hlen, decide_false,
    bne_self_eq_false, Bool.or_self, Bool.false_eq_true]
  rw [hq _ fun q hq => by split <;> simp_all]
  simp only [Bool.or_self, Bool.false_eq_true, if_false] <;> rfl

theorem acceptMx_of_ready (h : mxReady u k m shown) : u.acceptMx k m = .ok (u.takeMx k m shown) := by
  refine acceptMx_of_turn (mxTurn_of_ready h) ?_
  obtain ⟨-, -, -, -, -, -, -, hacc, hsp, hcp, hws⟩ := h
  rw [hacc, hsp]
  simp only [Nat.not_lt.2 hcp, Nat.not_lt.2 hws, if_false]

theorem acceptMx_of_refused (h : mxTurn u k m) (hx : mxRefused u k m x) : u.acceptMx k m = trapE u x := by
  refine acceptMx_of_turn h ?_
  rw [accTags_eq]
  rcases hx with ⟨n, hn, hlow, rfl⟩ | ⟨hno, hx⟩
  · rw [foldE_useAcc_error ((accFails_iff m _ n).1 hn) fun j hj hf => hlow j hj ((accFails_iff m _ j).2 hf)]
    rfl
  · obtain ⟨t, ht⟩ := foldE_useAcc_ok (cf := m.word.cf) (us := accUses m) fun n hn => hno n ((accFails_iff m _ n).2 hn)
    rw [ht]
    rcases hx with ⟨v, b, hf, hb, hr, rfl⟩ | ⟨h0, ⟨v, o, hf, ho, rfl⟩ | ⟨h1, ⟨v, o, hf, ho, rfl⟩ | ⟨h2, hw⟩⟩⟩
    · rw [spOperandTrap_of_reserved hf hb hr]
    · rw [spOperandTrap_of_outside h0 hf ho]
    · rw [spOperandTrap_of_misaligned h0 h1 hf ho]
    · rw [spOperandTrap_eq_none h0 h1 h2]
      rcases hw with ⟨hcp, rfl⟩ | ⟨hcp, hws, rfl⟩
      · simp only [hcp, if_true]; rfl
      · simp only [Nat.not_lt.2 hcp, hws, if_true, if_false]; rfl

theorem acceptMx_of_no_lease (h : (u.cluster (clusterOf k)).array.lease.holder ≠ some (k % 4)) :
    u.acceptMx k m = waitE (u.askLease k) := by
  unfold State.acceptMx
  rw [if_pos h]

end Accept

/-! ### What acceptance leaves -/

theorem State.cluster_onArray (s : State) (n : Nat) (f : MxArray → MxArray) :
    (s.onArray n f).cluster n = { s.cluster n with array := f (s.cluster n).array } := by
  rw [State.onArray, State.cluster_onCluster, if_pos rfl]

theorem Lease.end_holder (l : Lease) : l.end.holder = none := by
  unfold Lease.end; split <;> simp_all

theorem sameBytes_onArray (s : State) (n : Nat) (f : MxArray → MxArray) : SameBytes s (s.onArray n f) := by
  refine ⟨fun _ _ => rfl, fun cl off k => ?_⟩
  rw [State.onArray, State.cluster_onCluster]
  split
  · next h => rw [h]
  · rfl

/-- A task's context with the next number of tl.mx, the next state of the generator, and one more tile instruction. -/
def Ctx.taken (x : Ctx) : Ctx :=
  (Ctx.number { x with ctl := { x.ctl with rng := rngNext x.ctl.rng }, tiles := x.tiles + 1 } .mx).1

/-- An array with the instruction at its tail, charged to the lease. -/
def MxArray.take (a : MxArray) (x : Ctx) (vf : Nat) (m : MxInstr) (shown : Map Fmt) : MxArray :=
  let l := { a.lease with left := a.lease.left - m.nrep, first := false }
  { a with
    queue := a.queue ++ [{ m with num := (x.timeline .mx).issued + 1, rng := rngNext x.ctl.rng }], shown := shown, seen := shown
    lastVf := some vf, lease := if l.left = 0 then l.end else l }

theorem State.takeMx_eq (u : State) (k : Nat) (m : MxInstr) (shown : Map Fmt) : u.takeMx k m shown
    = ((u.setCtx k (u.ctx k).taken).onArray (clusterOf k) (·.take (u.ctx k) (u.teamOf k).vf m shown)).retire 24 := rfl

theorem Ctx.timeline_taken (x : Ctx) : (x.taken.timeline .mx).issued = (x.timeline .mx).issued + 1 := by
  show (Map.get {} (Map.set {} _ _ _) _ : Timeline).issued = _
  rw [Map.get_set_same]
  rfl

section Taken

variable (u : State) (m : MxInstr) (shown : Map Fmt)

theorem State.ctx_takeMx : (u.takeMx u.turn m shown).ctx u.turn
    = { (u.ctx u.turn).taken with
        pc := (u.ctx u.turn).pc + 24, wfe := none, mx := none
        steps := (u.ctx u.turn).steps.filter (·.ring ≠ (u.ctx u.turn).ring)
        ctl := { (u.ctx u.turn).taken.ctl with retired := (u.ctx u.turn).ctl.retired + 1 } } := by
  have h (f : MxArray → MxArray) : ((u.setCtx u.turn (u.ctx u.turn).taken).onArray (clusterOf u.turn) f).ctx u.turn
      = (u.ctx u.turn).taken := State.ctx_onCtx_same (s := u) u.turn fun _ => (u.ctx u.turn).taken
  rw [State.takeMx_eq]
  refine (State.ctx_retire _ 24).trans ?_
  rw [State.onArray_turn, show (u.setCtx u.turn (u.ctx u.turn).taken).turn = u.turn from rfl, h]
  rfl

theorem State.cluster_takeMx (k : Nat) : (u.takeMx k m shown).cluster (clusterOf k) = { u.cluster (clusterOf k) with
    array := (u.cluster (clusterOf k)).array.take (u.ctx k) (u.teamOf k).vf m shown } :=
  State.cluster_onArray (u.setCtx k (u.ctx k).taken) (clusterOf k) (·.take (u.ctx k) (u.teamOf k).vf m shown)

theorem State.core_takeMx_other {n : Nat} (h : n ≠ u.turn) : (u.takeMx u.turn m shown).core n = u.core n := by
  rw [State.takeMx_eq]
  refine (State.core_retire_other _ 24 (by exact h)).trans ?_
  exact (State.core_onCtx (s := u) u.turn n fun _ => (u.ctx u.turn).taken).trans (if_neg h)

theorem mxTaken_takeMx (hold : (u.cluster (clusterOf u.turn)).array.lease.holder = some (u.turn % 4)) :
    MxTaken u (u.takeMx u.turn m shown) u.turn m shown := by
  unfold MxTaken
  rw [State.ctx_takeMx, State.cluster_takeMx]
  refine ⟨rfl, Ctx.timeline_taken _, rfl, rfl, rfl, rfl, rfl, rfl, rfl, rfl, fun h => ?_, fun h => ?_, rfl, rfl, rfl,
    fun n hn => State.core_takeMx_other u m shown hn, ?_⟩
  · show Lease.holder (if _ then _ else _) = _
    rw [if_pos (Nat.sub_eq_zero_of_le h), Lease.end_holder]
  · have hl : ((u.cluster (clusterOf u.turn)).array.take (u.ctx u.turn) (u.teamOf u.turn).vf m shown).lease
        = { (u.cluster (clusterOf u.turn)).array.lease with
            left := (u.cluster (clusterOf u.turn)).array.lease.left - m.nrep, first := false } :=
      if_neg (show ¬ (u.cluster (clusterOf u.turn)).array.lease.left - m.nrep = 0 by omega)
    simp only [hl]
    exact ⟨hold, trivial, trivial⟩
  · have h := sameBytes_onArray (u.setCtx u.turn (u.ctx u.turn).taken) (clusterOf u.turn)
      (·.take (u.ctx u.turn) (u.teamOf u.turn).vf m shown)
    exact ⟨fun team a => h.1 team a, fun cl off n => h.2 cl off n⟩

end Taken

/-! ### The word at its core -/

/-- The state in which a word that has passed issue looks at the array. -/
def State.mxWaits (s : State) (m : MxInstr) : State := s.breaking.onCtx s.turn (fun x => { x with mx := some m })

section Word

variable {s : State} {i : Instr} {w : MWord} {a b : SReg} {m : MxInstr}

theorem State.mxWaits_reads (s : State) (m : MxInstr) : (s.mxWaits m).turn = s.turn ∧ (s.mxWaits m).clusters = s.clusters
    ∧ (s.mxWaits m).mcast = s.mcast ∧ (s.mxWaits m).teamOf s.turn = s.teamOf s.turn
    ∧ (s.mxWaits m).ctx s.turn = { s.ctx s.turn with mx := some m, region := brokenRegion (s.ctx s.turn) }
    ∧ (∀ n, n ≠ s.turn → (s.mxWaits m).core n = s.core n) ∧ SameBytes s (s.mxWaits m) := by
  obtain ⟨hr, hother⟩ := onlyTurn_breaking s
  refine ⟨State.breaking_turn s, ?_, ?_, ?_, ?_, fun n hn => ?_, sameBytes_of_only ?_⟩
  · show s.breaking.clusters = _; rw [hr]
  · show s.breaking.mcast = _; rw [hr]
  · show (s.mxWaits m).team ((s.mxWaits m).core s.turn).team = _
    rw [State.mxWaits, State.core_onCtx, if_pos rfl, State.core_breaking]
    show Map.get {} s.breaking.teams _ = _
    rw [hr]; rfl
  · rw [State.mxWaits, State.ctx_onCtx_same, State.ctx_breaking]
  · rw [State.mxWaits, State.core_onCtx, if_neg hn, hother n hn]
  · rw [State.mxWaits, State.onCtx, State.setCtx, State.setCore, hr]

/-- The instructions of this section are `matrixOp`'s. -/
theorem exec_matrix (hi : i ∈ [Instr.mma w, .drun w, .mld w, .mst w, .mzero w, .acpy w, .acpyin w, .msave a b, .mrstr a b]) :
    exec i s = matrixOp i s := by
  simp only [List.mem_cons, List.not_mem_nil, or_false] at hi
  rcases hi with rfl | rfl | rfl | rfl | rfl | rfl | rfl | rfl | rfl
  all_goals dsimp only [exec, execMma, execDrun, execMld, execMst, execMzero, execAcpy, execAcpyin, execMsave, execMrstr]

theorem matrixOp_of_ok (hmx : (s.ctx s.turn).mx = none) (h : s.breaking.issueMx s.turn i = .ok m) :
    matrixOp i s = s.breaking.finish ((s.mxWaits m).acceptMx s.turn m) := by
  unfold matrixOp
  simp only [State.breaking_turn, State.ctx_breaking, hmx, h]
  rfl

theorem matrixOp_of_trap {x : TrapInfo} (hmx : (s.ctx s.turn).mx = none)
    (h : s.breaking.issueMx s.turn i = trapE s.breaking x) : matrixOp i s = .next (s.breaking.takeSync s.breaking.turn x) := by
  unfold matrixOp
  simp only [State.breaking_turn, State.ctx_breaking, hmx, h]
  simp only [trapE, State.finish, bind, Except.bind, State.breaking_turn]

end Word

/-- What is asked of a state before acceptance depends on the array, the multicast stores and the timelines alone. -/
theorem mxReady.of_eq {s u : State} {k : Nat} {m : MxInstr} {shown : Map Fmt} (hc : u.clusters = s.clusters)
    (hm : u.mcast = s.mcast) (htl : (u.ctx k).tl = (s.ctx k).tl) (h : mxReady s k m shown) : mxReady u k m shown := by
  unfold mxReady State.cluster Ctx.timeline at h ⊢
  rwa [hc, hm, htl]

theorem mxTurn.of_eq {s u : State} {k : Nat} {m : MxInstr} (hc : u.clusters = s.clusters)
    (hm : u.mcast = s.mcast) (h : mxTurn s k m) : mxTurn u k m := by
  unfold mxTurn State.cluster at h ⊢
  rwa [hc, hm]

theorem mxRefused.of_eq {s u : State} {k : Nat} {m : MxInstr} {x : TrapInfo} (hc : u.clusters = s.clusters)
    (htl : (u.ctx k).tl = (s.ctx k).tl) (h : mxRefused s k m x) : mxRefused u k m x := by
  unfold mxRefused State.cluster Ctx.timeline at h ⊢
  rwa [hc, htl]

/-- What acceptance leaves of a state that differs by its region and by the word that waits. -/
theorem MxTaken.of_mxWaits {s t : State} {m : MxInstr} {shown : Map Fmt} (h : MxTaken (s.mxWaits m) t s.turn m shown) :
    MxTaken s t s.turn m shown := by
  obtain ⟨-, hc, -, hteam, hx, hother, hb⟩ := State.mxWaits_reads s m
  unfold MxTaken State.cluster at h ⊢
  rw [hc, hteam, hx] at h
  obtain ⟨h1, h2, h3, h4, h5, h6, h7, h8, h9, h10, h11, h12, h13, h14, h15, h16, h17⟩ := h
  exact ⟨h1, h2, h3, h4, h5, h6, h7, h8, h9, h10, h11, h12, h13, h14, h15, fun n hn => (h16 n hn).trans (hother n hn),
    fun team a => (h17.1 team a).trans (hb.1 team a), fun cl off n => (h17.2 cl off n).trans (hb.2 cl off n)⟩

/-! ### Issue (R206 stage 1) -/

section Issue

variable {s : State} {i : Instr} {w : MWord} {a b : SReg}

/-- What a word reads at issue does not depend on its region. -/
theorem State.breaking_mxRead (s : State) (i : Instr) : s.breaking.mxRead s.turn i = s.mxRead s.turn i := by
  have hp : s.breaking.pasidOf s.turn true = s.pasidOf s.turn true := by
    unfold State.pasidOf State.vfOf State.vf State.teamOf State.team
    rw [State.ctx_breaking, State.core_breaking, (onlyTurn_breaking s).1]
  unfold State.mxRead
  rw [State.ctx_breaking, hp] <;> rfl

theorem State.breaking_tileTag (s : State) (tile : Nat) : s.breaking.tileTag s.turn tile = s.tileTag s.turn tile := by
  unfold State.tileTag State.queuedTag
  rw [State.ctx_breaking, State.breaking_cluster]

theorem State.breaking_teamOf (s : State) (k : Nat) : s.breaking.teamOf k = s.teamOf k := by
  obtain ⟨hr, hother⟩ := onlyTurn_breaking s
  have hc : (s.breaking.core k).team = (s.core k).team := by
    by_cases hk : k = s.turn
    · rw [hk, State.core_breaking]
    · rw [hother k hk]
  unfold State.teamOf State.team
  rw [hc, hr]

theorem State.breaking_memberQueue (s : State) (k team q : Nat) :
    (s.breaking.memberCtx k team).queue q = (s.memberCtx k team).queue q := by
  unfold State.memberCtx
  by_cases hk : k = s.turn
  · rw [hk, State.core_breaking]
    dsimp only
    split <;> rfl
  · rw [(onlyTurn_breaking s).2 k hk]

theorem State.breaking_sttPending (s : State) : s.breaking.sttPending s.turn = s.sttPending s.turn := by
  have hteam : (s.breaking.core s.turn).team = (s.core s.turn).team := by rw [State.core_breaking]
  unfold State.sttPending
  simp only [State.breaking_cluster, State.breaking_teamOf, State.breaking_memberQueue, hteam]

/-- R201, R218: an instruction without tile sources has nothing to check at issue. -/
theorem issueMx_of_no_sources (hi : i ∈ [Instr.drun w, .mld w, .mst w, .mzero w]) :
    s.issueMx s.turn i = .ok (s.mxRead s.turn i) := by
  simp only [List.mem_cons, List.not_mem_nil, or_false] at hi
  rcases hi with rfl | rfl | rfl | rfl <;> rfl

/-- The tile sources of MMA and ACPYIN decide their issue, where no tag is awaited and none fails its ECC. -/
theorem issueMx_of_sources {op : MOp} (hi : (i, op) ∈ [(Instr.mma w, MOp.mma), (.acpyin w, .acpyin)])
    (hstt : s.sttPending s.turn = false) (hbad : (s.ctx s.turn).regs.bad = []) :
    s.breaking.issueMx s.turn i = match (MWord.tileSrcs op w).findSome? (fun e =>
        if s.tileTag s.turn e.1 = e.2.1 then none else some (tFormat e.2.1 (s.tileTag s.turn e.1) e.2.2)) with
      | some t => trapE s.breaking t
      | none => .ok (s.mxRead s.turn i) := by
  have htag (t : Nat) : s.breaking.tagBad s.turn t = false := by
    unfold State.tagBad
    rw [State.ctx_breaking]
    simp [hbad]
  have hany (l : List Nat) : l.any (s.breaking.tagBad s.turn) = false := List.any_eq_false.2 fun t _ => by simp [htag]
  simp only [List.mem_cons, List.not_mem_nil, or_false, Prod.mk.injEq] at hi
  rcases hi with ⟨rfl, rfl⟩ | ⟨rfl, rfl⟩
  all_goals
    unfold State.issueMx
    simp only [Instr.mparts, State.breaking_sttPending, hstt, Bool.and_false, hany, Bool.false_eq_true, if_false,
      State.issueTags, State.breaking_tileTag, State.breaking_mxRead, reduceCtorEq] <;> rfl

/-- R364: the checks of MSAVE and MRSTR. -/
theorem issueMx_image (hi : i ∈ [Instr.msave a b, .mrstr a b]) : s.breaking.issueMx s.turn i =
    if (s.ctx s.turn).ring = .u then trapE s.breaking (tRing 0)
    else if !rangeIn .memory (s.rs a).toNat imageBytes then trapE s.breaking (tAddress (s.rs a).toNat)
    else if (s.rs a).toNat % 4096 ≠ 0 then trapE s.breaking (tMisaligned (s.rs a).toNat)
    else if bitsOf (s.rs b).toNat 9 55 ≠ 0 then trapE s.breaking
      (tCommand 0 (9 + trailingZerosFrom 55 0 (bitsOf (s.rs b).toNat 9 55)) b.toNat 0)
    else .ok (s.mxRead s.turn i) := by
  simp only [List.mem_cons, List.not_mem_nil, or_false] at hi
  rcases hi with rfl | rfl
  all_goals
    unfold State.issueMx
    rw [State.breaking_mxRead, State.ctx_breaking] <;> rfl

end Issue

/-! ### The outcome of a word and of the event of acceptance -/

section Outcome

variable {s : State} {i : Instr} {w : MWord} {a b : SReg} {m : MxInstr} {shown : Map Fmt} {x : TrapInfo}

theorem State.askLease_ctx (s : State) (k n : Nat) : (s.askLease k).ctx n = s.ctx n := rfl

theorem mem_reqs_askLease (s : State) (k : Nat) : k % 4 ∈ ((s.askLease k).cluster (clusterOf k)).array.lease.reqs := by
  unfold State.askLease
  rw [State.cluster_onArray]
  dsimp only
  split
  · next h => simpa using h
  · simp

section

variable (hi : i ∈ [Instr.mma w, .drun w, .mld w, .mst w, .mzero w, .acpy w, .acpyin w, .msave a b, .mrstr a b])
  (hmx : (s.ctx s.turn).mx = none) (h : s.breaking.issueMx s.turn i = .ok m)
include hi hmx h

theorem word_accepts (hready : mxReady s s.turn m shown) : ∃ t, exec i s = .next t ∧ MxTaken s t s.turn m shown := by
  obtain ⟨ht, hc, hm, -, hx, -, -⟩ := State.mxWaits_reads s m
  have hr := mxReady.of_eq hc hm (by rw [hx]) hready
  have hold := hr.1
  rw [exec_matrix hi, matrixOp_of_ok hmx h, acceptMx_of_ready hr]
  have htaken := mxTaken_takeMx (s.mxWaits m) m shown (by rw [ht]; exact hold)
  rw [ht] at htaken
  exact ⟨_, rfl, htaken.of_mxWaits⟩

theorem word_asks (hold : (s.cluster (clusterOf s.turn)).array.lease.holder ≠ some (s.turn % 4)) :
    exec i s = .next ((s.mxWaits m).askLease s.turn) := by
  obtain ⟨-, hc, -⟩ := State.mxWaits_reads s m
  have hold' : ((s.mxWaits m).cluster (clusterOf s.turn)).array.lease.holder ≠ some (s.turn % 4) := by
    unfold State.cluster; rwa [hc]
  rw [exec_matrix hi, matrixOp_of_ok hmx h, acceptMx_of_no_lease hold']
  rfl

theorem word_refused (hturn : mxTurn s s.turn m) (hx : mxRefused s s.turn m x) : Traps i s (s.mxWaits m) x := by
  obtain ⟨ht, hc, hm, -, hctx, -, -⟩ := State.mxWaits_reads s m
  unfold Traps
  rw [exec_matrix hi, matrixOp_of_ok hmx h, acceptMx_of_refused (hturn.of_eq hc hm) (hx.of_eq hc (by rw [hctx])), ht]
  show Host.Outcome.next ((s.mxWaits m).takeSync s.breaking.turn x) = _
  rw [State.breaking_turn]

end

/-- A word that is refused at issue. -/
theorem word_traps (hi : i ∈ [Instr.mma w, .drun w, .mld w, .mst w, .mzero w, .acpy w, .acpyin w, .msave a b, .mrstr a b])
    (hmx : (s.ctx s.turn).mx = none) (h : s.breaking.issueMx s.turn i = trapE s.breaking x) : Traps i s s.breaking x := by
  unfold Traps
  rw [exec_matrix hi, matrixOp_of_trap hmx h]

variable {k : Nat}

/-- R206: the event tries acceptance for the core as if the turn were its own. -/
theorem exec_matrixAccept (hmx : (s.ctx k).mx = some m) (hcons : (s.teamOf k).consumed = false) (hdead : (s.core k).dead = false)
    (hsave : s.atSave k = false) : exec (.matrixAccept k) s = (match State.acceptMx { s with turn := k } k m with
      | .ok r => .next { r with turn := s.turn }
      | .error (.trap r i) => .next { (r.takeSync k i) with turn := s.turn }
      | .error (.wait r) => .next { r with turn := s.turn }) := by
  dsimp only [exec, execMatrixAccept]
  simp only [hmx, hcons, hdead, hsave, Bool.or_self, Bool.false_eq_true, if_false] <;> rfl

theorem exec_matrixAccept_stopped (hmx : (s.ctx k).mx = some m) (h : (s.teamOf k).consumed = true ∨ s.atSave k = true) :
    exec (.matrixAccept k) s = .next s := by
  dsimp only [exec, execMatrixAccept]
  rcases h with h | h
  · simp only [hmx, h, Bool.true_or, if_true]
  · simp only [hmx, h, Bool.or_true, if_true]

theorem event_accepts (hmx : (s.ctx k).mx = some m) (hcons : (s.teamOf k).consumed = false) (hdead : (s.core k).dead = false)
    (hsave : s.atSave k = false) (hready : mxReady s k m shown) :
    ∃ t, exec (.matrixAccept k) s = .next t ∧ MxTaken s t k m shown ∧ t.turn = s.turn := by
  have hr : mxReady { s with turn := k } k m shown := mxReady.of_eq rfl rfl rfl hready
  rw [exec_matrixAccept hmx hcons hdead hsave, acceptMx_of_ready hr]
  exact ⟨_, rfl, mxTaken_takeMx { s with turn := k } m shown hr.1, rfl⟩

theorem event_refused (hmx : (s.ctx k).mx = some m) (hcons : (s.teamOf k).consumed = false) (hdead : (s.core k).dead = false)
    (hsave : s.atSave k = false) (hturn : mxTurn s k m) (hx : mxRefused s k m x) :
    exec (.matrixAccept k) s = .next { (State.takeSync { s with turn := k } k x) with turn := s.turn } := by
  rw [exec_matrixAccept hmx hcons hdead hsave, acceptMx_of_refused (u := { s with turn := k }) (hturn.of_eq rfl rfl) (hx.of_eq rfl rfl)]
  rfl

end Outcome

/-! ### What issue refuses -/

section IssueTraps

variable {s : State} {i : Instr} {w : MWord} {a b : SReg}

/-- R14: the first tile source whose tag is not the word's. -/
theorem issueMx_first_source {op : MOp} (hi : (i, op) ∈ [(Instr.mma w, MOp.mma), (.acpyin w, .acpyin)])
    (hstt : s.sttPending s.turn = false) (hbad : (s.ctx s.turn).regs.bad = []) {e : Nat × Fmt × Nat}
    (he : firstIs (MWord.tileSrcs op w) (fun e => s.tileTag s.turn e.1 ≠ e.2.1) e) :
    s.breaking.issueMx s.turn i = trapE s.breaking
      { cause := 0x03, tval := BitVec.ofNat 64 (e.2.1.code.toNat + 16 * (s.tileTag s.turn e.1).code.toNat + 256 * e.2.2) } := by
  obtain ⟨-, -, hne, -⟩ := id he
  have hfirst : (MWord.tileSrcs op w).findSome? (fun e => if s.tileTag s.turn e.1 = e.2.1 then none
      else some (tFormat e.2.1 (s.tileTag s.turn e.1) e.2.2)) = some (tFormat e.2.1 (s.tileTag s.turn e.1) e.2.2) :=
    findSome?_of_firstIs he (if_neg hne) fun v hv => if_pos (not_not.1 hv)
  rw [issueMx_of_sources hi hstt hbad, hfirst]
  rfl

theorem issueMx_sources_match {op : MOp} (hi : (i, op) ∈ [(Instr.mma w, MOp.mma), (.acpyin w, .acpyin)])
    (hstt : s.sttPending s.turn = false) (hbad : (s.ctx s.turn).regs.bad = [])
    (h : ∀ e ∈ MWord.tileSrcs op w, s.tileTag s.turn e.1 = e.2.1) : s.breaking.issueMx s.turn i = .ok (s.mxRead s.turn i) := by
  rw [issueMx_of_sources hi hstt hbad, List.findSome?_eq_none_iff.2 fun e he => if_pos (h e he)]

/-- R364: the lowest bit of SEL from 9 on that is set. -/
theorem issueMx_sel (hi : i ∈ [Instr.msave a b, .mrstr a b]) (hring : (s.ctx s.turn).ring ≠ .u)
    (hin : rangeIn .memory (s.rs a).toNat 0x82000 = true) (hal : (s.rs a).toNat % 4096 = 0) {n : Nat} (h9 : 9 ≤ n)
    (hn : (s.rs b).getLsbD n = true) (hlow : ∀ j, 9 ≤ j → j < n → (s.rs b).getLsbD j = false) :
    s.breaking.issueMx s.turn i = trapE s.breaking { cause := 0x08, tval := BitVec.ofNat 64 (4 * n + 256 * b.toNat) } := by
  obtain ⟨hne, heq⟩ := trailingZerosFrom_bitsOf h9 (show n < 9 + 55 from BitVec.lt_of_getLsbD hn) hn hlow
  rw [issueMx_image hi, if_neg hring, if_neg (by rw [imageBytes, hin]; decide), if_neg (not_not.2 hal), if_pos hne, heq]
  simp only [tCommand, Nat.mul_zero, Nat.add_zero, Nat.zero_add]

theorem issueMx_image_ok (hi : i ∈ [Instr.msave a b, .mrstr a b]) (hring : (s.ctx s.turn).ring ≠ .u)
    (hin : rangeIn .memory (s.rs a).toNat 0x82000 = true) (hal : (s.rs a).toNat % 4096 = 0) (hb : (s.rs b).toNat < 512) :
    s.breaking.issueMx s.turn i = .ok (s.mxRead s.turn i) := by
  have h0 : bitsOf (s.rs b).toNat 9 55 = 0 := by
    rw [bitsOf, Nat.shiftRight_eq_div_pow, Nat.div_eq_of_lt (by simpa using hb), Nat.zero_mod]
  rw [issueMx_image hi, if_neg hring, if_neg (by rw [imageBytes, hin]; decide), if_neg (not_not.2 hal), if_neg (not_not.2 h0)]

end IssueTraps

/-- Settles O47: the word and the event look at the array alike, and the checks decide. -/
theorem matrixAcceptance : Obligations.MatrixAcceptance := by
  refine ⟨?_, ?_, ?_, ?_, ?_, ?_⟩
  · intro s i w a b m shown hi hmx h
    refine ⟨word_accepts hi hmx h, fun hold => ?_⟩
    have he := word_asks hi hmx h hold
    obtain ⟨-, hc, -, -, hx, -, -⟩ := State.mxWaits_reads s m
    refine ⟨⟨_, he, ?_, ?_⟩, _, he, mem_reqs_askLease _ _, ?_⟩
    all_goals rw [State.askLease_ctx, hx]
  · intro s i w a b m x hi hmx h hturn hx
    obtain ⟨ht, hc, -, -, hctx, -, -⟩ := State.mxWaits_reads s m
    exact ⟨_, word_refused hi hmx h hturn hx, ht, by rw [hctx], hc⟩
  · intro s k m shown x hmx
    exact ⟨event_accepts hmx, event_refused hmx, exec_matrixAccept_stopped hmx⟩
  · intro s w i hi
    exact issueMx_of_no_sources hi
  · intro s w i op hi hmx hstt hbad
    refine ⟨issueMx_sources_match hi hstt hbad, fun e he => ?_⟩
    refine word_traps (w := w) (a := 0) (b := 0) ?_ hmx (issueMx_first_source hi hstt hbad he)
    simp only [List.mem_cons, List.not_mem_nil, or_false, Prod.mk.injEq] at hi
    rcases hi with ⟨rfl, -⟩ | ⟨rfl, -⟩ <;> simp
  · intro s a b i hi hmx
    have hmem : i ∈ [Instr.mma MWord.zero, .drun MWord.zero, .mld MWord.zero, .mst MWord.zero, .mzero MWord.zero,
        .acpy MWord.zero, .acpyin MWord.zero, .msave a b, .mrstr a b] := by
      simp only [List.mem_cons, List.not_mem_nil, or_false] at hi ⊢
      rcases hi with rfl | rfl <;> simp
    have himg := issueMx_image (s := s) hi
    refine ⟨fun hr => word_traps hmem hmx ?_, fun hr hin => word_traps hmem hmx ?_, fun hr hin hal => word_traps hmem hmx ?_,
      fun hr hin hal hb => issueMx_image_ok hi hr hin hal hb,
      fun n hr hin hal h9 hn hlow => word_traps hmem hmx (issueMx_sel hi hr hin hal h9 hn hlow)⟩
    · rw [himg, if_pos hr]; rfl
    · rw [himg, if_neg hr, imageBytes, hin, if_pos (by decide), tAddress, BitVec.ofNat_toNat, BitVec.setWidth_eq]
    · rw [himg, if_neg hr, imageBytes, hin, if_neg (by decide), if_pos hal, tMisaligned, BitVec.ofNat_toNat, BitVec.setWidth_eq]

end Sys2Proof.Machine
end

section
/-! PROOFS. Rounding on a grid (R24, R25). -/

namespace Sys2Proof.Machine

/-! ### Magnitudes on a grid -/

/-- A significand at an exponent stands for the magnitude `a`, which lies strictly above it where sticky. -/
structure MagOf (m : Nat) (e : Int) (st : Bool) (a : ℝ) : Prop where
  le : (m : ℝ) * 2 ^ e ≤ a
  lt : a < (m + 1) * 2 ^ e
  exact_iff : st = false ↔ a = m * 2 ^ e

/-- `k` multiples of 2^q below the magnitude (k + φ)·2^q, of whose fraction `r`/2^s is what the encoder holds. -/
structure OnGrid (k r s : Nat) (st : Bool) (q : Int) (a φ : ℝ) : Prop where
  eq : a = (k + φ) * 2 ^ q
  nonneg : 0 ≤ φ
  lt_one : φ < 1
  rem_le : (r : ℝ) ≤ φ * 2 ^ s
  lt_rem : φ * 2 ^ s < r + 1
  exact_iff : st = false ↔ φ * 2 ^ s = r
  rem_lt : r < 2 ^ s
  sticky : st = true → 24 ≤ s

theorem MagOf.onGrid {m : Nat} {e q : Int} {st : Bool} {a : ℝ} (h : MagOf m e st a) (hst : st = true → e + 24 ≤ q) :
    ∃ φ, OnGrid (gridOf m e q).1 (gridOf m e q).2.1 (gridOf m e q).2.2 st q a φ := by
  obtain ⟨hle, hlt, hex⟩ := h
  unfold gridOf
  by_cases hq : q ≤ e
  · have hst' : st = false := by
      by_contra hc
      have := hst (by simpa using hc)
      omega
    rw [if_pos hq]
    refine ⟨0, ?_, le_rfl, one_pos, by simp, by simp, by simpa using hst', by simp, by simp [hst']⟩
    rw [hex.1 hst', Nat.shiftLeft_eq, Nat.cast_mul, Nat.cast_pow, Nat.cast_ofNat, add_zero, mul_assoc, ← zpow_natCast (2 : ℝ),
      ← zpow_add₀ two_ne_zero]
    congr 2
    omega
  · rw [if_neg hq]
    obtain ⟨s, hs⟩ : ∃ s : Nat, q = e + s := ⟨(q - e).toNat, by omega⟩
    subst hs
    simp only [show (e + (s : Int) - e).toNat = s by omega]
    have hE : (0 : ℝ) < 2 ^ e := by positivity
    have hS : (0 : ℝ) < 2 ^ s := by positivity
    have hpow : (2 : ℝ) ^ (e + (s : Int)) = 2 ^ s * 2 ^ e := by
      rw [zpow_add₀ two_ne_zero, zpow_natCast]; ring
    have hm : (m : ℝ) = (m >>> s : Nat) * 2 ^ s + (m % 2 ^ s : Nat) := by
      rw [Nat.shiftRight_eq_div_pow]
      exact_mod_cast (Nat.div_add_mod' m (2 ^ s)).symm
    have hr : ((m % 2 ^ s : Nat) : ℝ) + 1 ≤ 2 ^ s := by
      have := Nat.mod_lt m (Nat.two_pow_pos s)
      exact_mod_cast this
    have hφ : (a / 2 ^ (e + (s : Int)) - (m >>> s : Nat)) * 2 ^ s = a / 2 ^ e - (m >>> s : Nat) * 2 ^ s := by
      rw [hpow, sub_mul]
      congr 1
      field_simp
    have hlo : (m : ℝ) ≤ a / 2 ^ e := (le_div_iff₀ hE).2 hle
    have hhi : a / 2 ^ e < m + 1 := (div_lt_iff₀ hE).2 hlt
    have hrem : ((m % 2 ^ s : Nat) : ℝ) ≤ (a / 2 ^ (e + (s : Int)) - (m >>> s : Nat)) * 2 ^ s := by rw [hφ]; linarith
    have hrem' : (a / 2 ^ (e + (s : Int)) - (m >>> s : Nat)) * 2 ^ s < (m % 2 ^ s : Nat) + 1 := by rw [hφ]; linarith
    refine ⟨a / 2 ^ (e + (s : Int)) - (m >>> s : Nat), ?_, ?_, ?_, hrem, hrem', ?_, Nat.mod_lt _ (Nat.two_pow_pos s), ?_⟩
    · have : (2 : ℝ) ^ (e + (s : Int)) ≠ 0 := by positivity
      field_simp
      ring
    · exact nonneg_of_mul_nonneg_left (le_trans (Nat.cast_nonneg _) hrem) hS
    · exact lt_of_mul_lt_mul_right (by rw [one_mul]; linarith) hS.le
    · rw [hex, hφ]
      constructor
      · intro h
        rw [h, mul_div_assoc, div_self hE.ne']; linarith
      · intro h
        have : a / 2 ^ e = m := by linarith
        rw [← this]; field_simp
    · intro h
      have := hst h
      omega

/-! ### Rounding up -/

/-- R24, R25: does the fraction φ above the multiple `k` round the magnitude up? -/
def UpSpec (rm : Rm) (neg : Bool) (k : Nat) (u : Nat) (φ : ℝ) : Prop :=
  match rm with
  | .rne => 1 / 2 < φ ∨ (φ = 1 / 2 ∧ k % 2 = 1)
  | .rz => False
  | .ru => 0 < φ ∧ neg = false
  | .rd => 0 < φ ∧ neg = true
  | .rna => 1 / 2 ≤ φ
  | .rs => 0 < φ ∧ if neg then (u : ℝ) / 2 ^ 24 < φ else 1 ≤ φ + u / 2 ^ 24

section Up

variable {k r s : Nat} {st : Bool} {q : Int} {a φ : ℝ} (h : OnGrid k r s st q a φ)

include h

theorem OnGrid.inexact_iff : (decide (r ≠ 0) || st) = true ↔ 0 < φ := by
  obtain ⟨-, h0, -, hle, hlt, hex, -, -⟩ := h
  have hS : (0 : ℝ) < 2 ^ s := by positivity
  rw [Bool.or_eq_true, decide_eq_true_eq]
  constructor
  · rintro (hr | hst)
    · have : (1 : ℝ) ≤ r := by exact_mod_cast Nat.one_le_iff_ne_zero.2 hr
      exact pos_of_mul_pos_left (by linarith) hS.le
    · refine lt_of_le_of_ne h0 fun h => ?_
      have hr : (r : ℝ) = 0 := le_antisymm (by simpa [← h] using hle) (Nat.cast_nonneg r)
      have := hex.2 (by rw [← h, hr, zero_mul])
      simp [this] at hst
  · intro hφ
    by_contra hc
    simp only [not_or, not_not, Bool.not_eq_true] at hc
    have := hex.1 hc.2
    rw [hc.1, Nat.cast_zero] at this
    exact absurd this (by positivity)

theorem OnGrid.eq_zero_of_scale (hs : s = 0) : φ = 0 := by
  obtain ⟨-, -, -, -, -, hex, hr, hst⟩ := h
  subst hs
  have hr0 : r = 0 := by simpa using hr
  have := hex.1 (by by_contra hc; exact absurd (hst (by simpa using hc)) (by decide))
  simpa [hr0] using this

/-- The remainder against half of the scale says where the fraction lies against one half. -/
theorem OnGrid.half_iff : (0 < s ∧ (2 ^ (s - 1) < r ∨ (r = 2 ^ (s - 1) ∧ st = true)) ↔ 1 / 2 < φ)
    ∧ (0 < s ∧ r = 2 ^ (s - 1) ∧ st = false ↔ φ = 1 / 2) := by
  rcases Nat.eq_zero_or_pos s with hs | hs
  · rw [h.eq_zero_of_scale hs, hs]; norm_num
  obtain ⟨-, -, -, hle, hlt, hex, -, -⟩ := h
  have hpow : (2 : ℝ) ^ s = 2 * (2 ^ (s - 1) : Nat) := by
    push_cast; rw [← pow_succ', Nat.sub_add_cancel hs]
  have hH : (0 : ℝ) < (2 ^ (s - 1) : Nat) := by positivity
  rw [hpow] at hle hlt hex
  generalize 2 ^ (s - 1) = H at *
  have h1 : 1 / 2 < φ ↔ (H : ℝ) < φ * (2 * H) := by
    constructor
    · intro h; nlinarith
    · intro h; by_contra hc; nlinarith
  have h2 : φ = 1 / 2 ↔ φ * (2 * H) = H := by
    constructor
    · rintro rfl; ring
    · intro h; exact mul_right_cancel₀ (b := 2 * (H : ℝ)) (by positivity) (by linarith)
  rw [h1, h2]
  refine ⟨⟨fun ⟨_, hr⟩ => ?_, fun hφ => ⟨hs, ?_⟩⟩, ⟨fun ⟨_, hr, hst⟩ => ?_, fun hφ => ⟨hs, ?_⟩⟩⟩
  · rcases hr with hr | ⟨hr, hst⟩
    · exact lt_of_lt_of_le (by exact_mod_cast hr) hle
    · rw [hr] at hle hex
      refine lt_of_le_of_ne hle fun he => ?_
      have := hex.2 he.symm
      simp [this] at hst
  · have : H < r + 1 := by exact_mod_cast hφ.trans hlt
    rcases Nat.lt_succ_iff_lt_or_eq.1 this with hr | hr
    · exact .inl hr
    · refine .inr ⟨hr.symm, ?_⟩
      by_contra hst
      rw [hex.1 (by simpa using hst), hr] at hφ
      exact lt_irrefl _ hφ
  · rw [hex.1 hst, hr]
  · rw [hφ] at hle hlt hex
    have h3 : r ≤ H := by exact_mod_cast hle
    have h4 : H < r + 1 := by exact_mod_cast hlt
    have hr : r = H := by omega
    exact ⟨hr, hex.2 (by rw [hr])⟩

/-- The first 24 bits of the fraction, and whether more remains below them. -/
theorem OnGrid.bits_spec : ((r * 2 ^ 24 / 2 ^ s : Nat) : ℝ) ≤ φ * 2 ^ 24 ∧ φ * 2 ^ 24 < (r * 2 ^ 24 / 2 ^ s : Nat) + 1
    ∧ ((decide ((r * 2 ^ 24) % 2 ^ s ≠ 0) || st) = true ↔ φ * 2 ^ 24 ≠ (r * 2 ^ 24 / 2 ^ s : Nat)) := by
  obtain ⟨-, h0, -, hle, hlt, hex, -, hst⟩ := h
  have hS : (0 : ℝ) < 2 ^ s := by positivity
  have hdiv := Nat.div_add_mod' (r * 2 ^ 24) (2 ^ s)
  have hmod := Nat.mod_lt (r * 2 ^ 24) (Nat.two_pow_pos s)
  have hst' : st = true → ((r : ℝ) + 1) * 2 ^ 24 ≤ ((r * 2 ^ 24 / 2 ^ s : Nat) + 1) * 2 ^ s := fun hs => by
    obtain ⟨t, rfl⟩ := Nat.exists_eq_add_of_le (hst hs)
    have h1 : r * 2 ^ 24 / 2 ^ (24 + t) = r / 2 ^ t := by
      rw [pow_add, Nat.mul_comm r, Nat.mul_div_mul_left _ _ (by positivity)]
    have h2 : r + 1 ≤ (r / 2 ^ t + 1) * 2 ^ t := by
      have := Nat.div_add_mod' r (2 ^ t)
      have := Nat.mod_lt r (Nat.two_pow_pos t)
      rw [Nat.add_mul]; omega
    rw [h1, pow_add]
    have h3 : ((r : ℝ) + 1) ≤ ((r / 2 ^ t : Nat) + 1) * 2 ^ t := by exact_mod_cast h2
    nlinarith
  generalize r * 2 ^ 24 / 2 ^ s = c at *
  generalize hρ : r * 2 ^ 24 % 2 ^ s = ρ at *
  have hdivR : (c : ℝ) * 2 ^ s + ρ = r * 2 ^ 24 := by exact_mod_cast hdiv
  have hmodR : (ρ : ℝ) + 1 ≤ 2 ^ s := by exact_mod_cast hmod
  have hρ0 : (0 : ℝ) ≤ ρ := Nat.cast_nonneg ρ
  have hscale : ∀ x : ℝ, x ≤ φ * 2 ^ 24 ↔ x * 2 ^ s ≤ (φ * 2 ^ s) * 2 ^ 24 := fun x => by
    rw [show (φ * 2 ^ s) * 2 ^ 24 = (φ * 2 ^ 24) * 2 ^ s by ring, mul_le_mul_iff_left₀ hS]
  cases hb : st with
  | false =>
    have he := hex.1 hb
    have hval : (φ * 2 ^ 24) * 2 ^ s = c * 2 ^ s + ρ := by rw [hdivR, ← he]; ring
    refine ⟨(hscale _).2 (by linarith), not_le.1 fun hc => ?_, ?_⟩
    · have := (hscale _).1 hc
      linarith
    · rw [Bool.or_false, decide_eq_true_eq, not_iff_not]
      constructor
      · intro h
        rw [h, Nat.cast_zero, add_zero] at hval
        exact mul_right_cancel₀ hS.ne' hval
      · intro h
        rw [h] at hval
        exact_mod_cast (by linarith : (ρ : ℝ) = 0)
  | true =>
    have hgt : (r : ℝ) < φ * 2 ^ s := lt_of_le_of_ne hle fun he => by simpa [hb] using hex.2 he.symm
    have hc := hst' hb
    refine ⟨(hscale _).2 (by nlinarith), not_le.1 fun hc' => ?_, ?_⟩
    · have := (hscale _).1 hc'
      nlinarith
    · simp only [Bool.or_true, true_iff]
      intro he
      have hc2 : (c : ℝ) * 2 ^ s = (φ * 2 ^ s) * 2 ^ 24 := by rw [← he]; ring
      linarith

/-- R24, R25: the encoder rounds up where the fraction says so. -/
theorem OnGrid.roundsUp_iff (rm : Rm) (neg : Bool) (u : Nat) : roundsUp rm neg k r s st u = true ↔ UpSpec rm neg k u φ := by
  have hin := h.inexact_iff
  obtain ⟨hhalf, htie⟩ := h.half_iff
  obtain ⟨hf, hf', hmore⟩ := h.bits_spec
  unfold roundsUp UpSpec
  cases rm
  case rne =>
    rw [← hhalf, ← htie]
    generalize 2 ^ (s - 1) = H
    simp only [Bool.or_eq_true, Bool.and_eq_true, decide_eq_true_eq, Bool.not_eq_true']
    grind
  case rz => simp
  case ru => rw [← hin]; simp
  case rd => rw [← hin]; simp
  case rna =>
    rw [show (1 / 2 ≤ φ ↔ 1 / 2 < φ ∨ φ = 1 / 2) from by rw [le_iff_lt_or_eq, eq_comm (a := φ)], ← hhalf, ← htie]
    generalize 2 ^ (s - 1) = H
    simp only [Bool.or_eq_true, Bool.and_eq_true, decide_eq_true_eq, Bool.not_eq_true']
    grind
  case rs =>
    dsimp only
    rw [Bool.and_eq_true, hin]
    refine and_congr_right fun _ => ?_
    generalize r * 2 ^ 24 / 2 ^ s = c at *
    cases neg
    · simp only [Bool.false_eq_true, if_false, decide_eq_true_eq]
      have : (1 ≤ φ + u / 2 ^ 24) ↔ (2 : ℝ) ^ 24 ≤ φ * 2 ^ 24 + u := by
        rw [← mul_le_mul_iff_left₀ (show (0 : ℝ) < 2 ^ 24 by positivity), one_mul, add_mul, div_mul_cancel₀ _ (by positivity)]
      rw [this]
      constructor
      · intro h
        have : (2 : ℝ) ^ 24 ≤ c + u := by exact_mod_cast h
        linarith
      · intro h
        have : ((2 ^ 24 : Nat) : ℝ) < (c + u + 1 : Nat) := by push_cast; linarith
        exact Nat.lt_succ_iff.1 (by exact_mod_cast this)
    · simp only [if_true]
      rw [div_lt_iff₀ (by positivity), Bool.or_eq_true, Bool.and_eq_true, decide_eq_true_eq, decide_eq_true_eq, hmore]
      constructor
      · rintro (h | ⟨h, hne⟩)
        · have : (u : ℝ) + 1 ≤ c := by exact_mod_cast h
          linarith
        · rw [← h]; exact lt_of_le_of_ne hf (Ne.symm hne)
      · intro h
        have : u < c + 1 := by exact_mod_cast h.trans hf'
        rcases Nat.lt_succ_iff_lt_or_eq.1 this with h' | h'
        · exact .inl h'
        · refine .inr ⟨h'.symm, fun he => ?_⟩
          rw [he, h'] at h
          exact lt_irrefl _ h

end Up

/-! ### The rounded number -/

/-- The factor of a sign. -/
def sgn (neg : Bool) : ℚ := if neg then -1 else 1

@[simp] theorem abs_sgn (neg : Bool) : |sgn neg| = 1 := by cases neg <;> simp [sgn]

theorem sgn_mul_sgn (neg : Bool) : sgn neg * sgn neg = 1 := by cases neg <;> simp [sgn]

theorem cast_sgn_false : ((sgn false : ℚ) : ℝ) = 1 := by simp [sgn]

theorem cast_sgn_true : ((sgn true : ℚ) : ℝ) = -1 := by simp [sgn]

theorem Holds.of_pat {f : Fmt} {x : Nat} {z : ℚ} (hx : x < 2 ^ fmtBits f) (h : patNum f x = some z) : Holds f z := ⟨x, hx, h⟩

/-- The magnitudes that a format holds leave out what lies between two multiples. -/
def Gap (f : Fmt) (A B : ℝ) : Prop := ∀ z, Holds f z → |(z : ℝ)| ≤ A ∨ B ≤ |(z : ℝ)|

/-- A multiple, the real number that is rounded, and the next multiple, seen from the sign `σ`; `up` where the next one is
chosen. -/
structure Between (σ : ℝ) (A y B : ℝ) : Prop where
  sq : σ * σ = 1
  nonneg : 0 ≤ A
  le : A ≤ y
  lt : y < B

section Nearest

variable {f : Fmt} {σ A y B : ℝ} (h : Between σ A y B)

include h

theorem Between.abs_sign : |σ| = 1 := by
  have := h.sq
  rw [← abs_mul_abs_self] at this
  nlinarith [abs_nonneg σ]

theorem Between.abs_sign_mul (w : ℝ) : |σ * w| = |w| := by rw [abs_mul, h.abs_sign, one_mul]

/-- The distance of a held number to ±y, by the side of the gap on which its signed magnitude lies. -/
theorem Between.dist (hgap : Gap f A B) {z : ℚ} (hz : Holds f z) :
    (σ * z ≤ A ∧ |(z : ℝ) - σ * y| = y - σ * z ∧ |(z : ℝ)| ≤ A)
    ∨ (σ * z ≤ -B ∧ |(z : ℝ) - σ * y| = y - σ * z) ∨ (B ≤ σ * z ∧ |(z : ℝ) - σ * y| = σ * z - y) := by
  obtain ⟨hsq, hA, hle, hlt⟩ := id h
  have hd : |(z : ℝ) - σ * y| = |σ * z - y| := by
    rw [← h.abs_sign_mul, mul_sub, ← mul_assoc, hsq, one_mul]
  have hz' : |(z : ℝ)| = |σ * z| := (h.abs_sign_mul z).symm
  have hg := hgap z hz
  rw [hd, hz'] at *
  generalize σ * (z : ℝ) = w at *
  rcases hg with hg | hg
  · have := abs_le.1 hg
    exact .inl ⟨this.2, by rw [abs_sub_comm, abs_of_nonneg (by linarith)], hg⟩
  · rcases le_abs'.1 hg with h' | h'
    · exact .inr (.inl ⟨by linarith, by rw [abs_sub_comm, abs_of_nonneg (by linarith)]⟩)
    · exact .inr (.inr ⟨h', abs_of_nonneg (by linarith)⟩)

theorem Between.eq_of_mul_eq {z : ℚ} {r : ℝ} (hz : σ * z = r) : (z : ℝ) = σ * r := by
  rw [← hz, ← mul_assoc, h.sq, one_mul]

theorem Between.dist_below : |σ * A - σ * y| = y - A := by
  rw [← mul_sub, h.abs_sign_mul, abs_sub_comm, abs_of_nonneg (by linarith [h.le])]

theorem Between.dist_above : |σ * B - σ * y| = B - y := by
  rw [← mul_sub, h.abs_sign_mul, abs_of_nonneg (by linarith [h.lt])]

theorem Between.nearest_below {x : Nat} {r : ℚ} (hgap : Gap f A B) (hr : (r : ℝ) = σ * A) (hnear : 2 * y ≤ A + B)
    (htie : 2 * y = A + B → x % 2 = 0) {z : ℚ} (hz : Holds f z) :
    z = r ∨ |(r : ℝ) - σ * y| < |(z : ℝ) - σ * y| ∨ (|(r : ℝ) - σ * y| = |(z : ℝ) - σ * y| ∧ x % 2 = 0) := by
  rw [hr, h.dist_below]
  have := h.le; have := h.lt; have := h.nonneg
  rcases h.dist hgap hz with ⟨hw, hd, -⟩ | ⟨hw, hd⟩ | ⟨hw, hd⟩ <;> rw [hd]
  · rcases eq_or_lt_of_le hw with he | hl
    · exact .inl (by exact_mod_cast (h.eq_of_mul_eq he).trans hr.symm)
    · exact .inr (.inl (by linarith))
  · exact .inr (.inl (by linarith))
  · rcases eq_or_lt_of_le hnear with he | hl
    · rcases eq_or_lt_of_le hw with hw' | hw'
      · exact .inr (.inr ⟨by linarith, htie he⟩)
      · exact .inr (.inl (by linarith))
    · exact .inr (.inl (by linarith))

theorem Between.nearest_above {x : Nat} {r : ℚ} (hgap : Gap f A B) (hr : (r : ℝ) = σ * B) (hnear : A + B ≤ 2 * y)
    (htie : 2 * y = A + B → x % 2 = 0) {z : ℚ} (hz : Holds f z) :
    z = r ∨ |(r : ℝ) - σ * y| < |(z : ℝ) - σ * y| ∨ (|(r : ℝ) - σ * y| = |(z : ℝ) - σ * y| ∧ x % 2 = 0) := by
  rw [hr, h.dist_above]
  have := h.le; have := h.lt; have := h.nonneg
  rcases h.dist hgap hz with ⟨hw, hd, -⟩ | ⟨hw, hd⟩ | ⟨hw, hd⟩ <;> rw [hd]
  · rcases eq_or_lt_of_le hnear with he | hl
    · rcases eq_or_lt_of_le hw with hw' | hw'
      · exact .inr (.inr ⟨by linarith, htie he.symm⟩)
      · exact .inr (.inl (by linarith))
    · exact .inr (.inl (by linarith))
  · exact .inr (.inl (by linarith))
  · rcases eq_or_lt_of_le hw with he | hl
    · exact .inl (by exact_mod_cast (h.eq_of_mul_eq he.symm).trans hr.symm)
    · exact .inr (.inl (by linarith))

theorem Between.away_below {r : ℚ} (hgap : Gap f A B) (hr : (r : ℝ) = σ * A) (hnear : 2 * y < A + B) {z : ℚ} (hz : Holds f z) :
    z = r ∨ |(r : ℝ) - σ * y| < |(z : ℝ) - σ * y| ∨ (|(r : ℝ) - σ * y| = |(z : ℝ) - σ * y| ∧ |z| < |r|) := by
  rcases h.nearest_below (x := 1) hgap hr hnear.le (fun he => absurd he hnear.ne) hz with he | hl | ⟨-, hx⟩
  · exact .inl he
  · exact .inr (.inl hl)
  · exact absurd hx (by decide)

theorem Between.away_above {r : ℚ} (hgap : Gap f A B) (hr : (r : ℝ) = σ * B) (hnear : A + B ≤ 2 * y) {z : ℚ} (hz : Holds f z) :
    z = r ∨ |(r : ℝ) - σ * y| < |(z : ℝ) - σ * y| ∨ (|(r : ℝ) - σ * y| = |(z : ℝ) - σ * y| ∧ |z| < |r|) := by
  have hrB : |(r : ℝ)| = B := by rw [hr, h.abs_sign_mul, abs_of_nonneg (by linarith [h.nonneg, h.le, h.lt])]
  have hlt : |(z : ℝ)| < B → |z| < |r| := fun hl => by rw [← hrB] at hl; exact_mod_cast hl
  rw [hr, h.dist_above]
  have := h.le; have := h.lt; have := h.nonneg
  rcases h.dist hgap hz with ⟨hw, hd, hzA⟩ | ⟨hw, hd⟩ | ⟨hw, hd⟩ <;> rw [hd]
  · rcases eq_or_lt_of_le (show B - y ≤ y - σ * z by linarith) with he | hl
    · exact .inr (.inr ⟨he, hlt (by linarith)⟩)
    · exact .inr (.inl hl)
  · exact .inr (.inl (by linarith))
  · rcases eq_or_lt_of_le hw with he | hl
    · exact .inl (by exact_mod_cast (h.eq_of_mul_eq he.symm).trans hr.symm)
    · exact .inr (.inl (by linarith))

theorem Between.toward_zero {r : ℚ} (hgap : Gap f A B) (hr : (r : ℝ) = σ * A) :
    |(r : ℝ)| ≤ |σ * y| ∧ 0 ≤ (r : ℝ) * (σ * y) ∧ ∀ z, Holds f z → |(z : ℝ)| ≤ |σ * y| → |z| ≤ |r| := by
  have hy : 0 ≤ y := h.nonneg.trans h.le
  rw [h.abs_sign_mul, abs_of_nonneg hy]
  have hrA : |(r : ℝ)| = A := by rw [hr, h.abs_sign_mul, abs_of_nonneg h.nonneg]
  refine ⟨by rw [hrA]; exact h.le, ?_, fun z hz hle => ?_⟩
  · rw [hr, show σ * A * (σ * y) = (σ * σ) * (A * y) by ring, h.sq, one_mul]
    exact mul_nonneg h.nonneg hy
  · have : |(z : ℝ)| ≤ |(r : ℝ)| := by
      rw [hrA]
      rcases hgap z hz with hg | hg
      · exact hg
      · linarith [h.lt]
    exact_mod_cast this

/-- Away from zero, from a number inside the gap: the next multiple. -/
theorem Between.outward (hgap : Gap f A B) (hlt : A < y) {z : ℚ} (hz : Holds f z) (hle : y ≤ σ * z) : B ≤ σ * z := by
  have := h.nonneg; have := h.lt
  rcases h.dist hgap hz with ⟨hw, -⟩ | ⟨hw, -⟩ | ⟨hw, -⟩ <;> linarith

/-- Toward zero: the multiple below. -/
theorem Between.inward (hgap : Gap f A B) {z : ℚ} (hz : Holds f z) (hle : σ * z ≤ y) : σ * z ≤ A := by
  have := h.nonneg; have := h.lt; have := h.le
  rcases h.dist hgap hz with ⟨hw, -⟩ | ⟨hw, -⟩ | ⟨hw, -⟩ <;> linarith

/-- The only held numbers next to a number inside the gap are its two ends. -/
theorem Between.ends (hgap : Gap f A B) {z : ℚ} (hz : Holds f z) : σ * z ≤ A ∨ B ≤ σ * z := by
  have := h.nonneg; have := h.lt; have := h.le
  rcases h.dist hgap hz with ⟨hw, -⟩ | ⟨hw, -⟩ | ⟨hw, -⟩
  · exact .inl hw
  · exact .inl (by linarith)
  · exact .inr hw

end Nearest

/-! ### Stochastic rounding (R25) -/

section Stochastic

variable {f : Fmt} {A y B v : ℝ} {r : ℚ} {up : Bool} (hgap : Gap f A B)

include hgap

/-- A held number at the multiple below is the number itself where that is exact. -/
theorem stochastic_exact {σ : ℝ} (h : Between σ A y B) (hup : up = true → A < y) (hdown : up = false → (r : ℝ) = σ * A)
    {z : ℚ} (hz : Holds f z) (he : (z : ℝ) = σ * y) : r = z := by
  have hw : σ * z = y := by rw [he, ← mul_assoc, h.sq, one_mul]
  have hA : y = A := le_antisymm (by rw [← hw]; exact h.inward hgap hz hw.le) h.le
  have hu : up = false := by
    by_contra hc
    exact absurd (hup (by simpa using hc)) (by rw [hA]; exact lt_irrefl _)
  exact_mod_cast (show (r : ℝ) = z by rw [hdown hu, he, hA])

variable (hr : Holds f r)

include hr

theorem stochastic_pos (h : Between 1 A y B) (hdown : up = false → (r : ℝ) = A) (hnext : up = true → (r : ℝ) = B)
    (hup : up = true ↔ A < y ∧ 1 ≤ (y - A) / (B - A) + v)
    (hheld : A < y → ∃ zA zB : ℚ, Holds f zA ∧ Holds f zB ∧ (zA : ℝ) = A ∧ (zB : ℝ) = B) {lo hi : ℚ} (hlo : Holds f lo)
    (hhi : Holds f hi) (hly : (lo : ℝ) < y) (hyh : y < hi) (hadj : ∀ z, Holds f z → z ≤ lo ∨ hi ≤ z) :
    r = if 1 ≤ (y - lo) / (hi - lo) + v then hi else lo := by
  have hAy : A < y := by
    refine lt_of_le_of_ne h.le fun he => ?_
    have hu : up = false := by
      by_contra hc
      exact absurd (hup.1 (by simpa using hc)).1 (by rw [he]; exact lt_irrefl _)
    have hrA := hdown hu
    rcases hadj r hr with h1 | h1
    · have : (r : ℝ) ≤ lo := by exact_mod_cast h1
      linarith
    · have : (hi : ℝ) ≤ r := by exact_mod_cast h1
      linarith
  obtain ⟨zA, zB, hzA, hzB, eA, eB⟩ := hheld hAy
  have hloA : (lo : ℝ) = A := by
    have h1 := h.inward hgap hlo (by linarith)
    rcases hadj zA hzA with h2 | h2
    · have : (zA : ℝ) ≤ lo := by exact_mod_cast h2
      linarith
    · have : (hi : ℝ) ≤ zA := by exact_mod_cast h2
      linarith
  have hhiB : (hi : ℝ) = B := by
    have h1 := h.outward hgap hAy hhi (by linarith)
    have := h.lt
    rcases hadj zB hzB with h2 | h2
    · have : (zB : ℝ) ≤ lo := by exact_mod_cast h2
      linarith
    · have : (hi : ℝ) ≤ zB := by exact_mod_cast h2
      linarith
  rw [hloA, hhiB]
  split
  · next hc => exact_mod_cast (show (r : ℝ) = hi by rw [hnext (hup.2 ⟨hAy, hc⟩), hhiB])
  · next hc =>
    have hu : up = false := by
      by_contra hc'
      exact hc (hup.1 (by simpa using hc')).2
    exact_mod_cast (show (r : ℝ) = lo by rw [hdown hu, hloA])

theorem stochastic_neg (h : Between (-1) A y B) (hdown : up = false → (r : ℝ) = -A) (hnext : up = true → (r : ℝ) = -B)
    (hup : up = true ↔ A < y ∧ v < (y - A) / (B - A))
    (hheld : A < y → ∃ zA zB : ℚ, Holds f zA ∧ Holds f zB ∧ (zA : ℝ) = -A ∧ (zB : ℝ) = -B) {lo hi : ℚ} (hlo : Holds f lo)
    (hhi : Holds f hi) (hly : (lo : ℝ) < -y) (hyh : -y < hi) (hadj : ∀ z, Holds f z → z ≤ lo ∨ hi ≤ z) :
    r = if 1 ≤ (-y - lo) / (hi - lo) + v then hi else lo := by
  have hAy : A < y := by
    refine lt_of_le_of_ne h.le fun he => ?_
    have hu : up = false := by
      by_contra hc
      exact absurd (hup.1 (by simpa using hc)).1 (by rw [he]; exact lt_irrefl _)
    have hrA := hdown hu
    rcases hadj r hr with h1 | h1
    · have : (r : ℝ) ≤ lo := by exact_mod_cast h1
      linarith
    · have : (hi : ℝ) ≤ r := by exact_mod_cast h1
      linarith
  obtain ⟨zA, zB, hzA, hzB, eA, eB⟩ := hheld hAy
  have hhiA : (hi : ℝ) = -A := by
    have h1 := h.inward hgap hhi (by linarith)
    rcases hadj zA hzA with h2 | h2
    · have : (zA : ℝ) ≤ lo := by exact_mod_cast h2
      linarith
    · have : (hi : ℝ) ≤ zA := by exact_mod_cast h2
      linarith
  have hloB : (lo : ℝ) = -B := by
    have h1 := h.outward hgap hAy hlo (by linarith)
    have := h.lt
    rcases hadj zB hzB with h2 | h2
    · have : (zB : ℝ) ≤ lo := by exact_mod_cast h2
      linarith
    · have : (hi : ℝ) ≤ zB := by exact_mod_cast h2
      linarith
  have hBA : (0 : ℝ) < B - A := by linarith [h.lt]
  have hfrac : (1 ≤ (-y - lo) / (hi - lo) + v) ↔ ¬ v < (y - A) / (B - A) := by
    rw [hloB, hhiA, not_lt, show -y - -B = (B - A) - (y - A) by ring, show -A - -B = B - A by ring,
      sub_div, div_self hBA.ne']
    constructor <;> intro h <;> linarith
  split
  · next hc =>
    have hu : up = false := by
      by_contra hc'
      exact hfrac.1 hc (hup.1 (by simpa using hc')).2
    exact_mod_cast (show (r : ℝ) = hi by rw [hdown hu, hhiA])
  · next hc =>
    have hu := hup.2 ⟨hAy, not_not.1 fun h => hc (hfrac.2 h)⟩
    exact_mod_cast (show (r : ℝ) = lo by rw [hnext hu, hloB])

end Stochastic

/-- R24, R25: a pattern that stands for the multiple of 2^q that the mode chooses is the rounding of ±(k + φ)·2^q. -/
theorem roundsTo_of_grid {f : Fmt} {x k u : Nat} {q : Int} {φ : ℝ} {neg up : Bool} {rm : Rm} (h0 : 0 ≤ φ) (h1 : φ < 1)
    (hx : x < 2 ^ fmtBits f) (hpat : patNum f x = some (sgn neg * ((if up then k + 1 else k : Nat) * 2 ^ q)))
    (hpar : x % 2 = (if up then k + 1 else k) % 2) (hup : up = true ↔ UpSpec rm neg k u φ)
    (hgap : Gap f (k * 2 ^ q) ((k + 1) * 2 ^ q))
    (hheld : rm = .rs → 0 < φ → Holds f (sgn neg * (k * 2 ^ q)) ∧ Holds f (sgn neg * ((k + 1) * 2 ^ q))) :
    RoundsTo f rm u ((sgn neg : ℝ) * ((k + φ) * 2 ^ q)) x := by
  have hQ : (0 : ℝ) < 2 ^ q := by positivity
  have h : Between (sgn neg) (k * 2 ^ q) ((k + φ) * 2 ^ q) ((k + 1) * 2 ^ q) :=
    ⟨by exact_mod_cast sgn_mul_sgn neg, by positivity, by nlinarith, by nlinarith⟩
  have hr := Holds.of_pat hx hpat
  have hdown : up = false → ((sgn neg * ((if up then k + 1 else k : Nat) * 2 ^ q) : ℚ) : ℝ) = (sgn neg : ℝ) * (k * 2 ^ q) :=
    fun hu => by rw [hu]; push_cast; simp
  have hnext : up = true → ((sgn neg * ((if up then k + 1 else k : Nat) * 2 ^ q) : ℚ) : ℝ) = (sgn neg : ℝ) * ((k + 1) * 2 ^ q) :=
    fun hu => by rw [hu]; push_cast; simp
  have hpos : (k : ℝ) * 2 ^ q < (k + φ) * 2 ^ q ↔ 0 < φ := by
    rw [mul_lt_mul_iff_left₀ hQ, lt_add_iff_pos_right]
  have hfrac : ((k + φ) * 2 ^ q - k * 2 ^ q) / ((k + 1) * 2 ^ q - k * 2 ^ q) = φ := by
    field_simp; ring
  refine ⟨_, hx, hpat, ?_⟩
  generalize hrr : sgn neg * ((if up then k + 1 else k : Nat) * (2 : ℚ) ^ q) = r at *
  cases rm <;> simp only [UpSpec, iff_false, Bool.not_eq_true] at hup ⊢
  case rne =>
    intro z hz
    cases hu : up with
    | false =>
      rw [hu] at hup
      simp only [Bool.false_eq_true, false_iff, not_or, not_lt, not_and] at hup
      refine h.nearest_below hgap (hdown hu) (by nlinarith [hup.1]) (fun he => ?_) hz
      have hφ : φ = 1 / 2 := mul_right_cancel₀ hQ.ne' (by linarith)
      have := hup.2 hφ
      rw [hpar, hu, if_neg (by decide)]
      omega
    | true =>
      rw [hu] at hup
      simp only [true_iff] at hup
      refine h.nearest_above hgap (hnext hu) (by rcases hup with h | ⟨h, -⟩ <;> nlinarith) (fun he => ?_) hz
      have hφ : φ = 1 / 2 := mul_right_cancel₀ hQ.ne' (by linarith)
      rcases hup with h | ⟨-, h⟩
      · linarith
      · rw [hpar, hu, if_pos rfl]
        omega
  case rz => exact h.toward_zero hgap (hdown hup)
  case rna =>
    intro z hz
    cases hu : up with
    | false =>
      rw [hu] at hup
      simp only [Bool.false_eq_true, false_iff, not_le] at hup
      exact h.away_below hgap (hdown hu) (by nlinarith) hz
    | true =>
      rw [hu] at hup
      simp only [true_iff] at hup
      exact h.away_above hgap (hnext hu) (by nlinarith) hz
  case ru =>
    cases neg
    · rw [cast_sgn_false] at *
      simp only [one_mul, and_true] at *
      cases hu : up with
      | false =>
        have hφ : φ = 0 := le_antisymm (not_lt.1 fun hc => by simp [hu] at hup; linarith) h0
        rw [hdown hu, hφ, add_zero]
        exact ⟨le_rfl, fun z _ hle => by exact_mod_cast (hdown hu).le.trans hle⟩
      | true =>
        rw [hnext hu]
        refine ⟨h.lt.le, fun z hz hle => ?_⟩
        have := h.outward hgap (hpos.2 (hup.1 hu)) hz (by linarith)
        exact_mod_cast (show (r : ℝ) ≤ z by rw [hnext hu]; linarith)
    · rw [cast_sgn_true] at *
      simp only [reduceCtorEq, and_false, iff_false, Bool.not_eq_true] at hup
      have hr' := hdown hup
      refine ⟨by rw [hr']; linarith [h.le], fun z hz hle => ?_⟩
      have := h.inward hgap hz (by linarith)
      exact_mod_cast (show (r : ℝ) ≤ z by rw [hr']; linarith)
  case rd =>
    cases neg
    · rw [cast_sgn_false] at *
      simp only [reduceCtorEq, and_false, iff_false, Bool.not_eq_true] at hup
      have hr' := hdown hup
      refine ⟨by rw [hr']; linarith [h.le], fun z hz hle => ?_⟩
      have := h.inward hgap hz (by linarith)
      exact_mod_cast (show (z : ℝ) ≤ _ by linarith).trans hr'.ge
    · rw [cast_sgn_true] at *
      simp only [and_true] at hup
      cases hu : up with
      | false =>
        have hφ : φ = 0 := le_antisymm (not_lt.1 fun hc => by simp [hu] at hup; linarith) h0
        rw [hdown hu, hφ, add_zero]
        exact ⟨le_rfl, fun z _ hle => by exact_mod_cast hle.trans (hdown hu).ge⟩
      | true =>
        rw [hnext hu]
        refine ⟨by linarith [h.lt], fun z hz hle => ?_⟩
        have := h.outward hgap (hpos.2 (hup.1 hu)) hz (by linarith)
        exact_mod_cast (show (z : ℝ) ≤ _ by linarith).trans (hnext hu).ge
  case rs =>
    refine ⟨fun z hz he => stochastic_exact hgap h (fun hu => hpos.2 (hup.1 hu).1) hdown hz he, fun lo hi hlo hhi hly hyh hadj => ?_⟩
    have hh : (k : ℝ) * 2 ^ q < (k + φ) * 2 ^ q → ∃ zA zB : ℚ, Holds f zA ∧ Holds f zB ∧ (zA : ℝ) = sgn neg * (k * 2 ^ q)
        ∧ (zB : ℝ) = sgn neg * ((k + 1) * 2 ^ q) := fun hc => by
      obtain ⟨hA, hB⟩ := hheld rfl (hpos.1 hc)
      exact ⟨_, _, hA, hB, by push_cast; rfl, by push_cast; rfl⟩
    rw [← hpos] at hup
    cases neg
    · rw [cast_sgn_false] at *
      simp only [one_mul, Bool.false_eq_true, if_false] at *
      exact stochastic_pos hgap hr h hdown hnext (by rw [hfrac]; exact hup) hh hlo hhi hly hyh hadj
    · rw [cast_sgn_true] at *
      simp only [neg_one_mul, if_true] at *
      exact stochastic_neg hgap hr h hdown hnext (by rw [hfrac]; exact hup) hh hlo hhi hly hyh hadj

end Sys2Proof.Machine
end

section
/-! PROOFS. The patterns of floating-point numbers (R18, R21), and what lies between two of them. -/

namespace Sys2Proof.Machine

/-! ### A pattern from its fields -/

section Fields

variable {f : Fmt} {e w b : Nat} (hf : floatFields f = some (e, w, b))

/-- The pattern of a sign, an exponent field and a fraction field. -/
def fieldsPat (e w : Nat) (neg : Bool) (ex fr : Nat) : Nat := fr + 2 ^ w * (ex + 2 ^ e * neg.toNat)

theorem fieldsPat_frac {neg : Bool} {ex fr : Nat} (hfr : fr < 2 ^ w) : fieldsPat e w neg ex fr % 2 ^ w = fr := by
  rw [fieldsPat, Nat.add_mul_mod_self_left, Nat.mod_eq_of_lt hfr]

theorem fieldsPat_div {neg : Bool} {ex fr : Nat} (hfr : fr < 2 ^ w) : fieldsPat e w neg ex fr / 2 ^ w = ex + 2 ^ e * neg.toNat := by
  rw [fieldsPat, Nat.add_mul_div_left _ _ (by positivity), Nat.div_eq_of_lt hfr, Nat.zero_add]

theorem fieldsPat_exp {neg : Bool} {ex fr : Nat} (hex : ex < 2 ^ e) (hfr : fr < 2 ^ w) :
    fieldsPat e w neg ex fr / 2 ^ w % 2 ^ e = ex := by
  rw [fieldsPat_div hfr, Nat.add_mul_mod_self_left, Nat.mod_eq_of_lt hex]

theorem fieldsPat_lt {neg : Bool} {ex fr : Nat} (hex : ex < 2 ^ e) (hfr : fr < 2 ^ w) :
    fieldsPat e w neg ex fr < 2 ^ (w + e + 1) := by
  have hs : neg.toNat ≤ 1 := Bool.toNat_le neg
  have h1 : ex + 2 ^ e * neg.toNat + 1 ≤ 2 ^ (e + 1) := by
    rw [pow_succ]
    have := Nat.mul_le_mul_left (2 ^ e) hs
    omega
  calc fieldsPat e w neg ex fr < 2 ^ w * (ex + 2 ^ e * neg.toNat + 1) := by rw [fieldsPat, Nat.mul_add _ _ 1]; omega
    _ ≤ 2 ^ w * 2 ^ (e + 1) := Nat.mul_le_mul_left _ h1
    _ = 2 ^ (w + e + 1) := by rw [← pow_add, Nat.add_assoc]

include hf

theorem fieldsPat_sign {neg : Bool} {ex fr : Nat} (hex : ex < 2 ^ e) (hfr : fr < 2 ^ w) :
    patSign f (fieldsPat e w neg ex fr) = neg := by
  have hb := (isFloat_of_fields hf).bits
  rw [patSign, hb, show w + e + 1 - 1 = w + e by omega, Nat.testBit_eq_decide_div_mod_eq, pow_add, ← Nat.div_div_eq_div_mul,
    fieldsPat_div hfr, Nat.add_mul_div_left _ _ (by positivity), Nat.div_eq_of_lt hex, Nat.zero_add]
  cases neg <;> decide

/-- Every pattern is that of its fields. -/
theorem eq_fieldsPat {x : Nat} (hx : x < 2 ^ fmtBits f) :
    x = fieldsPat e w (patSign f x) (x / 2 ^ w % 2 ^ e) (x % 2 ^ w) := by
  have hb := (isFloat_of_fields hf).bits
  have hs : (patSign f x).toNat = x / 2 ^ w / 2 ^ e := by
    rw [patSign, hb, show w + e + 1 - 1 = w + e by omega, Nat.testBit_eq_decide_div_mod_eq, Nat.div_div_eq_div_mul, ← pow_add]
    have : x / 2 ^ (w + e) < 2 := by
      rw [Nat.div_lt_iff_lt_mul (by positivity), ← pow_succ']
      rwa [hb] at hx
    generalize x / 2 ^ (w + e) = n at *
    have h2 : n = 0 ∨ n = 1 := by omega
    rcases h2 with h | h <;> rw [h] <;> rfl
  rw [fieldsPat, hs, Nat.mod_add_div, Nat.mod_add_div]

/-! ### Significands and exponents -/

/-- The significand and the exponent of a finite pattern (R18, R21). -/
def sigOf (w ex fr : Nat) : Nat := if ex = 0 then fr else 2 ^ w + fr
def expOf (w b ex : Nat) : Int := (max ex 1 : Nat) - b - w

/-- R18, R19, R21: the number of a pattern, by its fields. -/
theorem patNum_fieldsPat {neg : Bool} {ex fr : Nat} (hex : ex < 2 ^ e) (hfr : fr < 2 ^ w) :
    patNum f (fieldsPat e w neg ex fr) =
      if (ex = 2 ^ e - 1 ∧ f ∈ infFormats) ∨ (f = .e4m3 ∧ ex = 15 ∧ fr = 7) then none
      else some (sgn neg * (sigOf w ex fr * 2 ^ expOf w b ex)) := by
  rw [patNum_float hf, fieldsPat_exp hex hfr, fieldsPat_frac hfr, fieldsPat_sign hf hex hfr]
  refine if_congr Iff.rfl rfl ?_
  have hw : (2 : ℚ) ^ w ≠ 0 := by positivity
  unfold sigOf expOf
  by_cases h0 : ex = 0
  · rw [if_pos h0, if_pos h0, h0, show ((max 0 1 : Nat) : Int) - b - w = (1 - b) - (w : Int) by simp, zpow_sub₀ two_ne_zero _ (w : Int),
      zpow_natCast, sgn]
    congr 1
    field_simp
  · rw [if_neg h0, if_neg h0, Nat.max_eq_left (by omega), zpow_sub₀ two_ne_zero _ (w : Int), zpow_natCast, sgn]
    congr 1
    push_cast
    field_simp

end Fields

/-- A significand on the coarsest grid that holds it with `w` + 1 bits, or on the finest of the format; 2^(w + 1) is the
significand that a rounding up may leave. -/
structure Canon (w b k : Nat) (q : Int) : Prop where
  le : k ≤ 2 ^ (w + 1)
  finest : (1 : Int) - b - w ≤ q
  full : 2 ^ w ≤ k ∨ q = 1 - b - w

/-- The top of a floating-point format (R18, R19): the largest significand and exponent, and the exponent field that holds
them. -/
structure TopOf (f : Fmt) (e w b lm ex : Nat) (le : Int) : Prop where
  largest : largest f = (lm, le)
  bits : largestBits f = (ex - 1) * 2 ^ w + lm
  exp : (ex : Int) = le + w + b
  full : 2 ^ w ≤ lm
  lt : lm < 2 ^ (w + 1)
  pos : 1 ≤ ex
  ex_lt : ex < 2 ^ e
  inf : f ∈ infFormats → ex + 2 = 2 ^ e ∧ lm + 1 = 2 ^ (w + 1)
  e4m3 : f = .e4m3 → ex = 15 ∧ lm = 14 ∧ w = 3 ∧ e = 4
  other : f ∉ infFormats → f ≠ .e4m3 → ex + 1 = 2 ^ e ∧ lm + 1 = 2 ^ (w + 1)

theorem exists_topOf {f : Fmt} {e w b : Nat} (hf : floatFields f = some (e, w, b)) : ∃ lm ex le, TopOf f e w b lm ex le := by
  cases f <;> simp only [floatFields, Option.some_inj, Prod.mk.injEq, reduceCtorEq] at hf <;> obtain ⟨rfl, rfl, rfl⟩ := hf
  case e4m3 => exact ⟨14, 15, 5, by constructor <;> decide⟩
  case e3m2 => exact ⟨7, 7, 2, by constructor <;> decide⟩
  case e2m3 => exact ⟨15, 3, -1, by constructor <;> decide⟩
  case fp64 => exact ⟨2 ^ 53 - 1, 2046, 971, by constructor <;> decide⟩
  case fp32 => exact ⟨2 ^ 24 - 1, 254, 104, by constructor <;> decide⟩
  case bf16 => exact ⟨2 ^ 8 - 1, 254, 120, by constructor <;> decide⟩
  case fp16 => exact ⟨2 ^ 11 - 1, 30, 5, by constructor <;> decide⟩
  case e5m2 => exact ⟨2 ^ 3 - 1, 30, 13, by constructor <;> decide⟩

section Canonical

variable {f : Fmt} {e w b lm tx : Nat} {le : Int} (hf : floatFields f = some (e, w, b)) (ht : TopOf f e w b lm tx le)

theorem zpow_le_of_le {i j : Int} (h : i ≤ j) : (2 : ℝ) ^ i ≤ 2 ^ j := zpow_le_zpow_right₀ one_le_two h

include ht

/-- A canonical magnitude of at most the largest has a place in the exponent fields. -/
theorem TopOf.exp_le {k : Nat} {q : Int} (hk : 2 ^ w ≤ k) (htop : (k : ℝ) * 2 ^ q ≤ lm * 2 ^ le) : q < le ∨ (q = le ∧ k ≤ lm) := by
  have hkR : (2 : ℝ) ^ w ≤ k := by exact_mod_cast hk
  have hlm : (lm : ℝ) < 2 ^ (w + 1) := by exact_mod_cast ht.lt
  rcases lt_trichotomy q le with h | rfl | h
  · exact .inl h
  · exact .inr ⟨rfl, by exact_mod_cast le_of_mul_le_mul_right htop (by positivity)⟩
  · exfalso
    have h1 : (2 : ℝ) ^ (le + 1) ≤ 2 ^ q := zpow_le_of_le (by omega)
    rw [zpow_add_one₀ two_ne_zero] at h1
    have hL : (0 : ℝ) < 2 ^ le := by positivity
    have : (2 : ℝ) ^ (w + 1) * 2 ^ le ≤ k * 2 ^ q := by
      calc (2 : ℝ) ^ (w + 1) * 2 ^ le = 2 ^ w * (2 ^ le * 2) := by rw [pow_succ]; ring
        _ ≤ k * 2 ^ q := mul_le_mul hkR h1 (by positivity) (by positivity)
    nlinarith

include hf

/-- What packing a significand gives: fields that are no infinity's and no NaN's, and stand for its magnitude. -/
def PacksTo (f : Fmt) (e w b k : Nat) (q : Int) (x : Nat) : Prop :=
  ∃ ex fr, ex < 2 ^ e ∧ fr < 2 ^ w ∧ x = fr + 2 ^ w * ex ∧ x % 2 = k % 2
    ∧ ¬ ((ex = 2 ^ e - 1 ∧ f ∈ infFormats) ∨ (f = .e4m3 ∧ ex = 15 ∧ fr = 7))
    ∧ (sigOf w ex fr : ℚ) * 2 ^ expOf w b ex = k * 2 ^ q

omit ht in
theorem fields_parity {ex fr : Nat} : (fr + 2 ^ w * ex) % 2 = fr % 2 ∧ (2 ^ w + fr) % 2 = fr % 2 := by
  obtain ⟨v, rfl⟩ : ∃ v, w = v + 1 := ⟨w - 1, by have := (isFloat_of_fields hf).one_le_frac; omega⟩
  constructor
  · rw [pow_succ', Nat.mul_assoc, Nat.add_mul_mod_self_left]
  · rw [pow_succ', Nat.mul_add_mod_self_left]

omit ht in
theorem packMag_small {k : Nat} {q : Int} (hk : k < 2 ^ w) (hq : q = 1 - b - w) : PacksTo f e w b k q (packMag f k q) := by
  have hs := (isFloat_of_fields hf).spec
  have he := (isFloat_of_fields hf).one_le_exp
  have h4 : 2 ^ 2 ≤ 2 ^ e := Nat.pow_le_pow_right (by norm_num) he
  have hw : 2 ^ w ≤ 2 ^ (w + 1) := Nat.pow_le_pow_right (by norm_num) (by omega)
  have hp : packMag f k q = k := by
    unfold packMag
    simp only [hs]
    rw [if_neg (show ¬ 2 ^ (w + 1) ≤ k by omega)]
    exact if_pos hk
  rw [hp]
  refine ⟨0, k, by positivity, hk, by simp, rfl, by rintro (⟨h, -⟩ | ⟨-, h, -⟩) <;> omega, ?_⟩
  rw [sigOf, if_pos rfl, expOf, hq]
  norm_num

theorem packMag_full {k : Nat} {q : Int} (hk : 2 ^ w ≤ k) (hk' : k < 2 ^ (w + 1)) (hq : (1 : Int) - b - w ≤ q)
    (htop : (k : ℝ) * 2 ^ q ≤ lm * 2 ^ le) : PacksTo f e w b k q (packMag f k q) := by
  have hs := (isFloat_of_fields hf).spec
  obtain ⟨ex, hex⟩ : ∃ ex : Nat, (ex : Int) = q + w + b := ⟨(q + w + b).toNat, by omega⟩
  obtain ⟨fr, rfl⟩ := Nat.exists_eq_add_of_le hk
  have hfr : fr < 2 ^ w := by rw [pow_succ] at hk'; omega
  have hp : packMag f (2 ^ w + fr) q = fr + 2 ^ w * ex := by
    unfold packMag
    simp only [hs]
    rw [if_neg (show ¬ 2 ^ (w + 1) ≤ 2 ^ w + fr by omega), if_neg (show ¬ 2 ^ w + fr < 2 ^ w by omega), ← hex, Int.toNat_natCast, Nat.add_sub_cancel_left, Nat.mul_comm, Nat.add_comm]
  have htx := ht.exp
  have hle : ex < tx ∨ (ex = tx ∧ 2 ^ w + fr ≤ lm) := by
    rcases ht.exp_le hk htop with h | ⟨h, h'⟩
    · left; omega
    · right; exact ⟨by omega, h'⟩
  rw [hp]
  refine ⟨ex, fr, by have := ht.ex_lt; omega, hfr, rfl, (fields_parity hf).1.trans (fields_parity (ex := 0) hf).2.symm, ?_, ?_⟩
  · rintro (⟨h, hi⟩ | ⟨h4, h, hi⟩)
    · have := (ht.inf hi).1; omega
    · obtain ⟨h1, h2, rfl, -⟩ := ht.e4m3 h4
      omega
  · rw [sigOf, if_neg (by omega), expOf, Nat.max_eq_left (by omega), hex]
    congr 2
    ring

/-- R18, R21: the pattern that the encoder packs stands for the magnitude. -/
theorem packMag_canon {k : Nat} {q : Int} (hc : Canon w b k q) (htop : (k : ℝ) * 2 ^ q ≤ lm * 2 ^ le) :
    PacksTo f e w b k q (packMag f k q) := by
  obtain ⟨hk, hq, hfull⟩ := hc
  rcases lt_or_ge k (2 ^ w) with hlt | hge
  · exact packMag_small hf hlt (hfull.resolve_left (by omega))
  · rcases eq_or_lt_of_le hk with rfl | hlt
    · have hs := (isFloat_of_fields hf).spec
      have hpow : 2 ^ w < 2 ^ (w + 1) := Nat.pow_lt_pow_right (by norm_num) (by omega)
      have hp : packMag f (2 ^ (w + 1)) q = packMag f (2 ^ w) (q + 1) := by
        unfold packMag
        simp only [hs]
        rw [if_pos le_rfl, if_neg (by omega)]
        simp [pow_succ]
      have hval : ((2 ^ w : Nat) : ℝ) * 2 ^ (q + 1) = (2 ^ (w + 1) : Nat) * 2 ^ q := by
        push_cast; rw [zpow_add_one₀ two_ne_zero, pow_succ]; ring
      obtain ⟨ex, fr, h1, h2, h3, h4, h5, h6⟩ := packMag_full hf ht le_rfl hpow (by omega : (1 : Int) - b - w ≤ q + 1)
        (by rw [hval]; exact htop)
      rw [hp]
      refine ⟨ex, fr, h1, h2, h3, ?_, h5, ?_⟩
      · rw [h4, show 2 ^ w % 2 = 0 from by simpa using (fields_parity (ex := 0) (fr := 0) hf).2, pow_succ, Nat.mul_mod_left]
      · rw [h6]; push_cast; rw [zpow_add_one₀ two_ne_zero, pow_succ]; ring
    · exact packMag_full hf ht hge hlt hq htop

/-- The pattern of ±`k`·2^q. -/
theorem pat_packMag {k : Nat} {q : Int} (hc : Canon w b k q) (htop : (k : ℝ) * 2 ^ q ≤ lm * 2 ^ le) (neg : Bool) :
    patNum f (signBit f neg + packMag f k q) = some (sgn neg * (k * 2 ^ q)) ∧ signBit f neg + packMag f k q < 2 ^ fmtBits f
    ∧ patSign f (signBit f neg + packMag f k q) = neg ∧ (signBit f neg + packMag f k q) % 2 = k % 2
    ∧ packMag f k q < 2 ^ (fmtBits f - 1) := by
  obtain ⟨ex, fr, h1, h2, h3, h4, h5, h6⟩ := packMag_canon hf ht hc htop
  obtain ⟨-, hs, hb, -, hw, he, -⟩ := isFloat_of_fields hf
  have hsb : signBit f neg = 2 ^ (w + e) * neg.toNat := by
    unfold signBit
    simp only [hs]
    cases neg <;> simp
  have hp : signBit f neg + packMag f k q = fieldsPat e w neg ex fr := by
    rw [h3, hsb, fieldsPat, pow_add]; ring
  have hb' : fmtBits f - 1 = w + e := by rw [hb]; omega
  refine ⟨?_, ?_, ?_, ?_, ?_⟩
  · rw [hp, patNum_fieldsPat hf h1 h2, if_neg h5, h6]
  · rw [hp, hb]; exact fieldsPat_lt h1 h2
  · rw [hp]; exact fieldsPat_sign hf h1 h2
  · rw [hsb, ← h4, show w + e = (w + e - 1) + 1 by omega, pow_succ', Nat.mul_assoc, Nat.mul_add_mod_self_left]
  · rw [hb', h3]
    calc fr + 2 ^ w * ex < 2 ^ w * (ex + 1) := by rw [Nat.mul_add]; omega
      _ ≤ 2 ^ w * 2 ^ e := Nat.mul_le_mul_left _ h1
      _ = 2 ^ (w + e) := by rw [pow_add]

/-- Every held number is ±`k`·2^q of a canonical significand below 2^(w + 1), and at most the largest. -/
theorem exists_canon {x : Nat} {z : ℚ} (hx : x < 2 ^ fmtBits f) (hz : patNum f x = some z) :
    ∃ k q, Canon w b k q ∧ k < 2 ^ (w + 1) ∧ z = sgn (patSign f x) * (k * 2 ^ q) ∧ (k : ℝ) * 2 ^ q ≤ lm * 2 ^ le := by
  have hxf := eq_fieldsPat hf hx
  have hex : x / 2 ^ w % 2 ^ e < 2 ^ e := Nat.mod_lt _ (by positivity)
  have hfr : x % 2 ^ w < 2 ^ w := Nat.mod_lt _ (by positivity)
  generalize x / 2 ^ w % 2 ^ e = ex at *
  generalize x % 2 ^ w = fr at *
  have hz' := hz
  rw [hxf, patNum_fieldsPat hf hex hfr] at hz'
  split at hz'
  · cases hz'
  · next hfin =>
    rw [not_or] at hfin
    refine ⟨sigOf w ex fr, expOf w b ex, ⟨?_, ?_, ?_⟩, ?_, (Option.some.inj hz').symm, ?_⟩
    · unfold sigOf; rw [pow_succ]; split <;> omega
    · unfold expOf; have : 1 ≤ max ex 1 := le_max_right _ _; omega
    · unfold sigOf expOf
      by_cases h0 : ex = 0
      · right; rw [h0]; simp
      · left; rw [if_neg h0]; omega
    · unfold sigOf; rw [pow_succ]; split <;> omega
    · have htx := ht.exp
      have hcase : max ex 1 < tx ∨ (max ex 1 = tx ∧ sigOf w ex fr ≤ lm) := by
        have := ht.pos
        by_cases h0 : ex = 0
        · have hs : sigOf w ex fr = fr := if_pos h0
          have := ht.full
          rw [hs]
          omega
        · have hs : sigOf w ex fr = 2 ^ w + fr := if_neg h0
          have hsig : 2 ^ w + fr < 2 ^ (w + 1) := by rw [pow_succ]; omega
          rw [hs]
          by_cases hi : f ∈ infFormats
          · have h1 := ht.inf hi
            have h2 : ex ≠ 2 ^ e - 1 := fun h => hfin.1 ⟨h, hi⟩
            omega
          · by_cases h4 : f = .e4m3
            · obtain ⟨rfl, rfl, rfl, rfl⟩ := ht.e4m3 h4
              have h2 : ¬ (ex = 15 ∧ fr = 7) := fun h => hfin.2 ⟨h4, h⟩
              omega
            · have h1 := ht.other hi h4
              omega
      rcases hcase with h | ⟨h, hk⟩
      · have hq : expOf w b ex + 1 ≤ le := by unfold expOf; omega
        have hk : (sigOf w ex fr : ℝ) ≤ 2 ^ (w + 1) := by
          have : sigOf w ex fr ≤ 2 ^ (w + 1) := by unfold sigOf; rw [pow_succ]; split <;> omega
          exact_mod_cast this
        have hlm : (2 : ℝ) ^ w ≤ lm := by exact_mod_cast ht.full
        calc (sigOf w ex fr : ℝ) * 2 ^ expOf w b ex ≤ 2 ^ (w + 1) * 2 ^ expOf w b ex := by gcongr
          _ = 2 ^ w * 2 ^ (expOf w b ex + 1) := by rw [zpow_add_one₀ two_ne_zero, pow_succ]; ring
          _ ≤ lm * 2 ^ le := mul_le_mul hlm (zpow_le_of_le hq) (by positivity) (by positivity)
      · have hq : expOf w b ex = le := by unfold expOf; omega
        rw [hq]
        have : (sigOf w ex fr : ℝ) ≤ lm := by exact_mod_cast hk
        gcongr

end Canonical

end Sys2Proof.Machine
end

section
/-! PROOFS. Encoding into the floating-point formats (R24, R25, R28). -/

namespace Sys2Proof.Machine

section Float

variable {f : Fmt} {e w b lm tx : Nat} {le : Int} (hf : floatFields f = some (e, w, b)) (ht : TopOf f e w b lm tx le)

include hf ht

/-- No number of the format lies between two neighbouring multiples of its grid. -/
theorem gap_of_canon {k : Nat} {q : Int} (hc : Canon w b k q) : Gap f (k * 2 ^ q) ((k + 1) * 2 ^ q) := by
  rintro z ⟨x, hx, hz⟩
  obtain ⟨k', q', hc', hk', rfl, -⟩ := exists_canon hf ht hx hz
  have habs : |((sgn (patSign f x) * (k' * 2 ^ q') : ℚ) : ℝ)| = k' * 2 ^ q' := by
    have h := congrArg (fun t : ℚ => (t : ℝ)) (abs_sgn (patSign f x))
    push_cast at h ⊢
    rw [abs_mul, h, one_mul, abs_of_nonneg (by positivity)]
  rw [habs]
  have hQ : (0 : ℝ) < 2 ^ q := by positivity
  rcases le_or_gt q q' with hq | hq
  · obtain ⟨j, rfl⟩ : ∃ j : Nat, q' = q + j := ⟨(q' - q).toNat, by omega⟩
    have hval : (k' : ℝ) * 2 ^ (q + (j : Int)) = (k' * 2 ^ j : Nat) * 2 ^ q := by
      rw [zpow_add₀ two_ne_zero, zpow_natCast]; push_cast; ring
    rw [hval]
    rcases le_or_gt (k' * 2 ^ j) k with h | h
    · left
      have : ((k' * 2 ^ j : Nat) : ℝ) ≤ k := by exact_mod_cast h
      gcongr
    · right
      have : (k : ℝ) + 1 ≤ (k' * 2 ^ j : Nat) := by exact_mod_cast h
      gcongr
  · left
    have hk : (2 : ℝ) ^ w ≤ k := by
      have := hc.full.resolve_right (by have := hc'.finest; omega)
      exact_mod_cast this
    have hk'' : (k' : ℝ) ≤ 2 ^ (w + 1) := by exact_mod_cast hk'.le
    calc (k' : ℝ) * 2 ^ q' ≤ 2 ^ (w + 1) * 2 ^ (q - 1) := mul_le_mul hk'' (zpow_le_of_le (by omega)) (by positivity) (by positivity)
      _ = 2 ^ w * 2 ^ q := by rw [zpow_sub_one₀ two_ne_zero, pow_succ]; ring
      _ ≤ k * 2 ^ q := by gcongr

/-- The largest number is held, and no number is larger. -/
theorem holds_largest (neg : Bool) : Holds f (sgn neg * (lm * 2 ^ le)) := by
  have hc : Canon w b lm le := ⟨ht.lt.le, by have := ht.exp; have := ht.pos; omega, .inl ht.full⟩
  obtain ⟨h1, h2, -⟩ := pat_packMag hf ht hc le_rfl neg
  exact ⟨_, h2, h1⟩

theorem abs_le_of_holds {z : ℚ} (hz : Holds f z) : |(z : ℝ)| ≤ lm * 2 ^ le := by
  obtain ⟨x, hx, hz⟩ := hz
  obtain ⟨k, q, -, -, rfl, htop⟩ := exists_canon hf ht hx hz
  have h := congrArg (fun t : ℚ => (t : ℝ)) (abs_sgn (patSign f x))
  push_cast at h ⊢
  rw [abs_mul, h, one_mul, abs_of_nonneg (by positivity)]
  exact htop

end Float

/-! ### The grid of a magnitude -/

theorem gtMag_iff (k m : Nat) (q e : Int) : gtMag k q m e = true ↔ (m : ℝ) * 2 ^ e < k * 2 ^ q := by
  have key : ∀ (n : Nat) (i lo : Int), lo ≤ i → (n : ℝ) * 2 ^ i = (n <<< (i - lo).toNat : Nat) * 2 ^ lo := fun n i lo h => by
    rw [Nat.shiftLeft_eq, Nat.cast_mul, Nat.cast_pow, Nat.cast_ofNat, mul_assoc, ← zpow_natCast, ← zpow_add₀ two_ne_zero]
    congr 2
    omega
  unfold gtMag
  simp only [decide_eq_true_eq]
  generalize hlo : (if q ≤ e then q else e) = lo
  have h1 : lo ≤ q := by rw [← hlo]; split <;> omega
  have h2 : lo ≤ e := by rw [← hlo]; split <;> omega
  rw [key m e lo h2, key k q lo h1, mul_lt_mul_iff_left₀ (by positivity), Nat.cast_lt]

theorem bitLen_bounds {m : Nat} (hm : m ≠ 0) : 1 ≤ bitLen m ∧ 2 ^ (bitLen m - 1) ≤ m ∧ m < 2 ^ bitLen m := by
  unfold bitLen
  rw [if_neg hm]
  exact ⟨by omega, by simpa using Nat.log2_self_le hm, Nat.lt_log2_self⟩

/-- A magnitude lies between 2^lead and 2^(lead + 1). -/
theorem MagOf.lead {m : Nat} {e : Int} {st : Bool} {a : ℝ} (h : MagOf m e st a) (hm : m ≠ 0) :
    (2 : ℝ) ^ (e + (bitLen m : Int) - 1) ≤ a ∧ a < (2 : ℝ) ^ (e + (bitLen m : Int) - 1 + 1) := by
  obtain ⟨h1, hlo, hhi⟩ := bitLen_bounds hm
  generalize hn : bitLen m = n at *
  obtain ⟨n, rfl⟩ : ∃ j, n = j + 1 := ⟨n - 1, by omega⟩
  have hlo' : (2 : ℝ) ^ n ≤ m := by exact_mod_cast hlo
  have hhi' : (m : ℝ) + 1 ≤ 2 ^ (n + 1) := by exact_mod_cast hhi
  have hE : (0 : ℝ) < 2 ^ e := by positivity
  constructor
  · calc (2 : ℝ) ^ (e + ((n + 1 : Nat) : Int) - 1) = 2 ^ n * 2 ^ e := by
          rw [show e + ((n + 1 : Nat) : Int) - 1 = n + e by push_cast; ring, zpow_add₀ two_ne_zero, zpow_natCast]
      _ ≤ m * 2 ^ e := by gcongr
      _ ≤ a := h.le
  · calc a < (m + 1) * 2 ^ e := h.lt
      _ ≤ 2 ^ (n + 1) * 2 ^ e := by gcongr
      _ = 2 ^ (e + ((n + 1 : Nat) : Int) - 1 + 1) := by
          rw [show e + ((n + 1 : Nat) : Int) - 1 + 1 = (n + 1 : Nat) + e by push_cast; ring, zpow_add₀ two_ne_zero, zpow_natCast]

/-- On the grid that the encoder takes, the multiple below is canonical. -/
theorem OnGrid.canon {k r s : Nat} {st : Bool} {q lead : Int} {a φ : ℝ} {w b : Nat} (h : OnGrid k r s st q a φ)
    (hlo : (2 : ℝ) ^ lead ≤ a) (hhi : a < 2 ^ (lead + 1))
    (hq : q = if lead - w < 1 - b - w then 1 - (b : Int) - w else lead - w) :
    k < 2 ^ (w + 1) ∧ (1 : Int) - b - w ≤ q ∧ (2 ^ w ≤ k ∨ q = 1 - b - w) := by
  have hQ : (0 : ℝ) < 2 ^ q := by positivity
  have hlead : lead ≤ q + w := by rw [hq]; split <;> omega
  have hkφ : (k : ℝ) + φ < 2 ^ (w + 1) := by
    refine lt_of_mul_lt_mul_right ?_ hQ.le
    rw [← h.eq]
    calc a < 2 ^ (lead + 1) := hhi
      _ ≤ 2 ^ (q + w + 1) := zpow_le_of_le (by omega)
      _ = 2 ^ (w + 1) * 2 ^ q := by
          rw [show q + w + 1 = ((w + 1 : Nat) : Int) + q by push_cast; ring, zpow_add₀ two_ne_zero, zpow_natCast]
  have hk : (k : ℝ) < (2 ^ (w + 1) : Nat) := by push_cast; linarith [h.nonneg]
  refine ⟨by exact_mod_cast hk, by rw [hq]; split <;> omega, ?_⟩
  by_cases hc : lead - w < 1 - b - w
  · exact .inr (by rw [hq, if_pos hc])
  · left
    rw [if_neg hc] at hq
    have hge : (2 : ℝ) ^ w ≤ k + φ := by
      refine le_of_mul_le_mul_right ?_ hQ
      rw [← h.eq]
      calc (2 : ℝ) ^ w * 2 ^ q = 2 ^ lead := by
            rw [← zpow_natCast, ← zpow_add₀ two_ne_zero]; congr 1; omega
        _ ≤ a := hlo
    have : ((2 ^ w : Nat) : ℝ) < (k + 1 : Nat) := by push_cast; linarith [h.lt_one]
    have : 2 ^ w < k + 1 := by exact_mod_cast this
    omega

/-- What the encoder makes of a magnitude `a`: the multiple `k` of 2^q below it, the fraction φ, whether it rounds up, is
inexact, is tiny. -/
structure EncStep (w b lm : Nat) (le : Int) (rm : Rm) (neg : Bool) (u : Nat) (a : ℝ) (k : Nat) (q : Int) (φ : ℝ)
    (up inexact tiny : Bool) : Prop where
  lt : k < 2 ^ (w + 1)
  finest : (1 : Int) - b - w ≤ q
  full : 2 ^ w ≤ k ∨ q = 1 - b - w
  eq : a = (k + φ) * 2 ^ q
  nonneg : 0 ≤ φ
  lt_one : φ < 1
  up_iff : up = true ↔ UpSpec (if rm = .rs && gtMag (k + 1) q lm le then .rne else rm) neg k u φ
  inexact_iff : inexact = true ↔ 0 < φ
  normal : (2 : ℝ) ^ ((1 : Int) - b) ≤ a → tiny = false
  tiny : a ≤ (2 : ℝ) ^ ((1 : Int) - b) * (1 - 1 / 2 ^ (w + 1)) → tiny = true

section Encode

variable {f : Fmt} {e w b lm tx : Nat} {le : Int} (hf : floatFields f = some (e, w, b)) (ht : TopOf f e w b lm tx le)

/-- A magnitude that is exact on a grid does not round up. -/
theorem OnGrid.roundsUp_exact {k r s : Nat} {st : Bool} {q : Int} {a φ : ℝ} (h : OnGrid k r s st q a φ) (hφ : φ = 0) (rm : Rm)
    (neg : Bool) (u : Nat) : roundsUp rm neg k r s st u = false := by
  by_contra hc
  have := (h.roundsUp_iff rm neg u).1 (by simpa using hc)
  subst hφ
  cases rm <;> simp [UpSpec] at this <;> norm_num at this

/-- R28: up to half a unit below the smallest normal magnitude, no rounding with an unbounded exponent reaches it. -/
theorem not_reaches_normal {k r s : Nat} {st : Bool} {lead : Int} {a φ : ℝ} (h : OnGrid k r s st (lead - w) a φ)
    (ha : a ≤ (2 : ℝ) ^ ((1 : Int) - b) * (1 - 1 / 2 ^ (w + 1))) (rm : Rm) (neg : Bool) (u : Nat) :
    ¬ (lead = 1 - b - 1 ∧ roundsUp rm neg k r s st u = true ∧ k + 1 = 2 ^ (w + 1)) := by
  rintro ⟨hl, hup, hk⟩
  have hφ : φ = 0 := by
    refine le_antisymm ?_ h.nonneg
    have hQ : (0 : ℝ) < 2 ^ (lead - w : Int) := by positivity
    have hkR : (k : ℝ) = 2 ^ (w + 1) - 1 := by
      have : (k : ℝ) + 1 = 2 ^ (w + 1) := by exact_mod_cast hk
      linarith
    have hval : (2 : ℝ) ^ ((1 : Int) - b) * (1 - 1 / 2 ^ (w + 1)) = k * 2 ^ (lead - w : Int) := by
      have : (2 : ℝ) ^ ((1 : Int) - b) = 2 ^ (w + 1) * 2 ^ (lead - w : Int) := by
        rw [← zpow_natCast, ← zpow_add₀ two_ne_zero]; congr 1; push_cast; omega
      rw [this, hkR]
      have : (2 : ℝ) ^ (w + 1) ≠ 0 := by positivity
      field_simp
    rw [hval, h.eq] at ha
    have := le_of_mul_le_mul_right ha hQ
    linarith
  rw [h.roundsUp_exact hφ] at hup
  exact Bool.false_ne_true hup

include hf ht

theorem encFloat_step {neg st : Bool} {m : Nat} {e₀ : Int} {a : ℝ} (hm : m ≠ 0) (h : MagOf m e₀ st a)
    (hst : st = true → w + 25 ≤ bitLen m) (rm : Rm) (u : Nat) : ∃ k q φ up inexact tiny,
      EncStep w b lm le rm neg u a k q φ up inexact tiny
      ∧ encFloat f rm u (.fin neg m e₀ st) =
        if gtMag (if up then k + 1 else k) q lm le then overflowF f rm neg
        else (signBit f neg + packMag f (if up then k + 1 else k) q,
          (if inexact then fNX else 0) ||| (if inexact && tiny then fUF else 0)) := by
  have hs := (isFloat_of_fields hf).spec
  obtain ⟨hlo, hhi⟩ := h.lead hm
  generalize hlead : e₀ + (bitLen m : Int) - 1 = lead at *
  generalize hq : (if lead - w < 1 - (b : Int) - w then 1 - (b : Int) - w else lead - w) = q
  have hql : lead - w ≤ q := by rw [← hq]; split <;> omega
  obtain ⟨φ, hg⟩ := h.onGrid (q := q) fun hc => by have := hst hc; omega
  obtain ⟨φ', hg'⟩ := h.onGrid (q := lead - w) fun hc => by have := hst hc; omega
  obtain ⟨hk, hfin, hfull⟩ := hg.canon hlo hhi hq.symm
  refine ⟨(gridOf m e₀ q).1, q, φ,
    roundsUp (if rm = .rs && gtMag ((gridOf m e₀ q).1 + 1) q lm le then .rne else rm) neg (gridOf m e₀ q).1 (gridOf m e₀ q).2.1
      (gridOf m e₀ q).2.2 st u, decide ((gridOf m e₀ q).2.1 ≠ 0) || st,
    decide (lead < 1 - b) && !(decide (lead = 1 - b - 1) && roundsUp (if rm = .rs then .rne else rm) neg (gridOf m e₀ (lead - w)).1
      (gridOf m e₀ (lead - w)).2.1 (gridOf m e₀ (lead - w)).2.2 st 0 && decide ((gridOf m e₀ (lead - w)).1 + 1 = 2 ^ (w + 1))),
    ⟨hk, hfin, hfull, hg.eq, hg.nonneg, hg.lt_one, hg.roundsUp_iff _ _ _, hg.inexact_iff, fun hn => ?_, fun hn => ?_⟩, ?_⟩
  · have : ¬ lead < 1 - b := fun hc => by
      have := lt_of_le_of_lt hn hhi
      have := (zpow_lt_zpow_iff_right₀ (one_lt_two (α := ℝ))).1 this
      omega
    simp [this]
  · have h1 : lead < 1 - b := by
      have : (2 : ℝ) ^ lead < 2 ^ ((1 : Int) - b) := by
        refine lt_of_le_of_lt (hlo.trans hn) ?_
        have : (0 : ℝ) < 2 ^ ((1 : Int) - b) := by positivity
        have : (0 : ℝ) < 1 / 2 ^ (w + 1) := by positivity
        nlinarith
      exact (zpow_lt_zpow_iff_right₀ (one_lt_two (α := ℝ))).1 this
    have h2 := not_reaches_normal hg' hn (if rm = .rs then .rne else rm) neg 0
    simp only [not_and_or, Bool.not_eq_true] at h2
    simp only [h1, decide_true, Bool.true_and, Bool.not_eq_true', Bool.and_eq_false_iff, decide_eq_false_iff_not]
    rwa [or_assoc]
  · unfold encFloat
    simp only [hs, ht.largest, hlead]
    rw [if_neg (by simp [hm])]
    simp only [hq]

end Encode

/-! ### Flags and draws -/

theorem getLsbD_rounding_flags (inexact tiny : Bool) (n : Nat) :
    ((if inexact then fNX else 0) ||| (if inexact && tiny then fUF else 0) : Flags).getLsbD n
      = ((decide (n = 4) && inexact) || (decide (n = 3) && (inexact && tiny))) := by
  have bit : ∀ (fl : Flags) (j : Nat), (∀ i < 7, fl.getLsbD i = decide (i = j)) → j < 7 → fl.getLsbD n = decide (n = j) := fun fl j hb hj => by
    rcases Nat.lt_or_ge n 7 with h | h
    · exact hb n h
    · rw [BitVec.getLsbD_of_ge _ _ h]; exact (decide_eq_false (by omega)).symm
  have h4 := bit fNX 4 (by decide) (by decide)
  have h3 := bit fUF 3 (by decide) (by decide)
  rw [BitVec.getLsbD_or]
  cases inexact <;> cases tiny <;> simp [h3, h4]

/-- The draw changes no flag, and the state of the generator under RS only (R25). -/
theorem draw_raise_flags (env : FEnv) (rm : Rm) (fl : Flags) : ((env.draw rm).2.raise fl).flags = env.flags ||| fl := by
  unfold FEnv.draw FEnv.raise; split <;> rfl

theorem draw_raise_rng (env : FEnv) (rm : Rm) (fl : Flags) :
    ((env.draw rm).2.raise fl).rng = if rm = .rs then rngNext env.rng else env.rng := by
  unfold FEnv.draw FEnv.raise; split <;> rfl

/-- A rounding answers a rounded pattern, NX where it is inexact, and UF where it is tiny and inexact. -/
theorem rounded_of {f : Fmt} {rm : Rm} {y : ℝ} {neg inexact tiny : Bool} {env : FEnv} {x : Nat}
    (h : RoundsTo f rm (bitsOf (rngNext env.rng).toNat 40 24) y x) (hs : (floatFields f).isSome = true → patSign f x = neg)
    (hin : inexact = true ↔ ∀ z : ℚ, (z : ℝ) = y → patNum f x ≠ some z)
    (hfloat : ∀ e w b, floatFields f = some (e, w, b) → ((2 : ℝ) ^ (1 - b : ℤ) ≤ |y| → tiny = false)
      ∧ (|y| ≤ (2 : ℝ) ^ (1 - b : ℤ) * (1 - 1 / 2 ^ (w + 1)) → inexact = true → tiny = true))
    (hnone : floatFields f = none → ((inexact && tiny) = true ↔ f = .mk8 ∧ x = 0 ∧ y ≠ 0)) :
    Rounded f rm y neg env
      (x, (env.draw rm).2.raise ((if inexact then fNX else 0) ||| (if inexact && tiny then fUF else 0))) := by
  have hfl := fun n : Nat => congrArg (·.getLsbD n)
    (draw_raise_flags env rm ((if inexact then fNX else 0) ||| (if inexact && tiny then fUF else 0)))
  simp only [BitVec.getLsbD_or (x := env.flags), getLsbD_rounding_flags] at hfl
  refine ⟨h, hs, draw_raise_rng env rm _, fun n hn => ?_, ?_, fun e w b hf => ⟨fun hy => ?_, fun hy => ?_⟩, fun hf => ?_⟩
  · simp only [List.mem_cons, List.not_mem_nil, or_false] at hn
    refine (hfl n).trans ?_
    rcases hn with rfl | rfl | rfl | rfl | rfl <;> simp
  · rw [← hin]
    exact (Bool.eq_iff_iff.1 (hfl 4)).trans (by simp)
  · refine (hfl 3).trans ?_
    simp [(hfloat e w b hf).1 hy]
  · rw [← hin]
    refine (Bool.eq_iff_iff.1 (hfl 3)).trans ?_
    have := (hfloat e w b hf).2 hy
    cases inexact <;> simp_all
  · rw [← hnone hf]
    exact (Bool.eq_iff_iff.1 (hfl 3)).trans (by simp)

/-! ### Rounding into a floating-point format -/

theorem UpSpec.pos {rm : Rm} {neg : Bool} {k u : Nat} {φ : ℝ} (h : UpSpec rm neg k u φ) : 0 < φ := by
  cases rm <;> simp only [UpSpec] at h
  case rne => rcases h with h | ⟨h, -⟩ <;> linarith
  case ru | rd | rs => exact h.1
  case rna => linarith

/-- The draw matters under RS only. -/
theorem upSpec_draw {rm : Rm} {neg : Bool} {k u u' : Nat} {φ : ℝ} (h : rm = .rs → u = u') :
    UpSpec rm neg k u φ ↔ UpSpec rm neg k u' φ := by
  cases rm
  case rs => rw [h rfl]
  all_goals exact Iff.rfl

/-- The chosen multiple is the number itself where the fraction is zero, and only there. -/
theorem pos_iff_ne {rm : Rm} {neg up : Bool} {k u : Nat} {q : Int} {φ : ℝ} (hup : up = true ↔ UpSpec rm neg k u φ) (h0 : 0 ≤ φ)
    (h1 : φ < 1) : 0 < φ ↔ ∀ z : ℚ, (z : ℝ) = (sgn neg : ℝ) * ((k + φ) * 2 ^ q) →
      some (sgn neg * ((if up then k + 1 else k : Nat) * (2 : ℚ) ^ q)) ≠ some z := by
  have hQ : (0 : ℝ) < 2 ^ q := by positivity
  have hsg : (sgn neg : ℝ) ≠ 0 := by cases neg <;> simp [sgn]
  constructor
  · intro hφ z hz he
    rw [← Option.some.inj he] at hz
    push_cast at hz
    have h2 := mul_right_cancel₀ hQ.ne' (mul_left_cancel₀ hsg hz)
    cases up
    · rw [if_neg (by decide)] at h2; push_cast at h2; linarith
    · rw [if_pos rfl] at h2; push_cast at h2; linarith
  · intro hne
    refine lt_of_le_of_ne h0 fun hφ => ?_
    have hu : up = false := by
      by_contra hc
      exact absurd (hup.1 (by simpa using hc)).pos (by rw [← hφ]; exact lt_irrefl _)
    refine hne (sgn neg * (k * 2 ^ q)) ?_ (by rw [hu]; simp)
    rw [← hφ]
    push_cast
    ring

section Round

variable {f : Fmt} {e w b lm tx : Nat} {le : Int} (hf : floatFields f = some (e, w, b)) (ht : TopOf f e w b lm tx le)

include hf ht

section InRange

variable {rm : Rm} {neg up inexact tiny : Bool} {u k : Nat} {a φ : ℝ} {q : Int}
  (h : EncStep w b lm le rm neg u a k q φ up inexact tiny)

include h

omit hf ht in
theorem EncStep.canon (c : Bool) : Canon w b (if c then k + 1 else k) q := by
  have := h.lt
  refine ⟨by split <;> omega, h.finest, ?_⟩
  rcases h.full with h' | h'
  · left; split <;> omega
  · exact .inr h'

theorem EncStep.next_le (ha : a ≤ lm * 2 ^ le) (hφ : 0 < φ) : ((k + 1 : Nat) : ℝ) * 2 ^ q ≤ lm * 2 ^ le := by
  have hQ : (0 : ℝ) < 2 ^ q := by positivity
  have hlt : (k : ℝ) * 2 ^ q < a := by rw [h.eq]; nlinarith
  have habs : |((sgn false * (lm * 2 ^ le) : ℚ) : ℝ)| = lm * 2 ^ le := by
    rw [sgn]; push_cast; rw [abs_of_nonneg (by simp; positivity)]; simp
  rcases gap_of_canon hf ht (h.canon false) _ (holds_largest hf ht false) with h' | h'
  · rw [habs] at h'
    simp only [Bool.false_eq_true, if_false] at h'
    linarith
  · rw [habs] at h'
    push_cast
    simpa using h'

theorem EncStep.no_overflow (ha : a ≤ lm * 2 ^ le) : ((if up then k + 1 else k : Nat) : ℝ) * 2 ^ q ≤ lm * 2 ^ le := by
  cases hu : up with
  | true => exact h.next_le hf ht ha (h.up_iff.1 hu).pos
  | false =>
    refine le_trans ?_ ha
    rw [h.eq]
    have := h.nonneg
    simp only [Bool.false_eq_true, if_false]
    gcongr
    linarith

theorem EncStep.up_iff_mode (ha : a ≤ lm * 2 ^ le) : up = true ↔ UpSpec rm neg k u φ := by
  rw [h.up_iff]
  rcases eq_or_lt_of_le h.nonneg with hφ | hφ
  · constructor <;> intro hc <;> exact absurd hc.pos (by rw [← hφ]; exact lt_irrefl _)
  · have hng : gtMag (k + 1) q lm le = false := by
      by_contra hc
      exact absurd ((gtMag_iff _ _ _ _).1 (by simpa using hc)) (not_lt.2 (h.next_le hf ht ha hφ))
    rw [hng, Bool.and_false, if_neg (by decide)]

/-- A rounding within the range answers the chosen multiple's pattern, rounded as the mode says. -/
theorem EncStep.roundsTo (ha : a ≤ lm * 2 ^ le) :
    RoundsTo f rm u ((sgn neg : ℝ) * a) (signBit f neg + packMag f (if up then k + 1 else k) q) := by
  obtain ⟨hpat, hlt, -, hpar, -⟩ := pat_packMag hf ht (h.canon up) (h.no_overflow hf ht ha) neg
  rw [h.eq]
  refine roundsTo_of_grid h.nonneg h.lt_one hlt hpat hpar (h.up_iff_mode hf ht ha) (gap_of_canon hf ht (h.canon false)) fun _ hφ => ?_
  have h1 := pat_packMag hf ht (h.canon true) (h.next_le hf ht ha hφ) neg
  have hA : ((k : Nat) : ℝ) * 2 ^ q ≤ lm * 2 ^ le := by
    refine le_trans ?_ ha
    rw [h.eq]
    gcongr
    linarith
  have h0 := pat_packMag hf ht (h.canon false) hA neg
  refine ⟨Holds.of_pat h0.2.1 h0.1, Holds.of_pat h1.2.1 ?_⟩
  have := h1.1
  push_cast at this
  exact this

/-- The answer is the number itself where the fraction is zero, and only there. -/
theorem EncStep.inexact_iff_ne (ha : a ≤ lm * 2 ^ le) : inexact = true ↔
    ∀ z : ℚ, (z : ℝ) = (sgn neg : ℝ) * a → patNum f (signBit f neg + packMag f (if up then k + 1 else k) q) ≠ some z := by
  rw [h.inexact_iff, (pat_packMag hf ht (h.canon up) (h.no_overflow hf ht ha) neg).1, h.eq]
  exact pos_iff_ne (h.up_iff_mode hf ht ha) h.nonneg h.lt_one

end InRange

theorem encodeF_float (rm : Rm) (int : Bool) (v : FVal) (env : FEnv) : encodeF f rm int v env
    = ((encFloat f rm (env.draw rm).1 v).1, (env.draw rm).2.raise (encFloat f rm (env.draw rm).1 v).2) := by
  cases f <;> simp only [floatFields, reduceCtorEq] at hf
  all_goals rfl

/-- R24 to R28: a non-zero magnitude of at most the largest is rounded correctly. -/
theorem rounded_encodeF {neg st : Bool} {m : Nat} {e₀ : Int} {a : ℝ} (hm : m ≠ 0) (h : MagOf m e₀ st a)
    (hst : st = true → w + 25 ≤ bitLen m) (ha : a ≤ lm * 2 ^ le) (rm : Rm) (int : Bool) (env : FEnv) :
    Rounded f rm ((sgn neg : ℝ) * a) neg env (encodeF f rm int (.fin neg m e₀ st) env) := by
  obtain ⟨k, q, φ, up, inexact, tiny, hs, he⟩ := encFloat_step hf ht (neg := neg) hm h hst rm (env.draw rm).1
  have hng : gtMag (if up then k + 1 else k) q lm le = false := by
    by_contra hc
    exact absurd ((gtMag_iff _ _ _ _).1 (by simpa using hc)) (not_lt.2 (hs.no_overflow hf ht ha))
  rw [hng, if_neg (by decide)] at he
  rw [encodeF_float hf ht, he]
  have hy : |(sgn neg : ℝ) * a| = a := by
    have h0 : 0 ≤ a := le_trans (by positivity) h.le
    have h := congrArg (fun t : ℚ => (t : ℝ)) (abs_sgn neg)
    push_cast at h
    rw [abs_mul, h, one_mul, abs_of_nonneg h0]
  refine rounded_of ?_ (fun _ => (pat_packMag hf ht (hs.canon up) (hs.no_overflow hf ht ha) neg).2.2.1)
    (hs.inexact_iff_ne hf ht ha) (fun e' w' b' hf' => ?_) fun hn => by rw [hf] at hn; cases hn
  · have hr := hs.roundsTo hf ht ha
    cases rm <;> exact hr
  · rw [hf, Option.some_inj, Prod.mk.injEq, Prod.mk.injEq] at hf'
    obtain ⟨rfl, rfl, rfl⟩ := hf'
    rw [hy]
    exact ⟨hs.normal, fun ht' _ => hs.tiny ht'⟩

end Round

end Sys2Proof.Machine
end

section
/-! PROOFS. Encoding into the integer formats, MK8 and E8 (R17, R22, R23, R28), and the settled obligation O8. -/

namespace Sys2Proof.Machine

/-! ### Grids that a format does not refine -/

/-- An exact value of a format's own grid. -/
theorem magOf_exact (m : Nat) (e : Int) : MagOf m e false (m * 2 ^ e) := by
  have : (0 : ℝ) < 2 ^ e := by positivity
  exact ⟨le_rfl, by linarith, by simp⟩

theorem gap_of_multiples {f : Fmt} {q : Int} (h : ∀ z, Holds f z → ∃ j : Nat, |z| = j * 2 ^ q) (k : Nat) :
    Gap f (k * 2 ^ q) ((k + 1) * 2 ^ q) := by
  intro z hz
  obtain ⟨j, hj⟩ := h z hz
  have hj' : |(z : ℝ)| = j * 2 ^ q := by rw [← Rat.cast_abs, hj]; push_cast; rfl
  rw [hj']
  rcases Nat.lt_or_ge k j with hk | hk
  · right
    have : (k : ℝ) + 1 ≤ j := by exact_mod_cast hk
    gcongr
  · left
    have : (j : ℝ) ≤ k := by exact_mod_cast hk
    gcongr

/-- What the encoder does with a magnitude on a fixed grid, of at most `N` multiples. -/
structure FixedStep (f : Fmt) (rm : Rm) (neg : Bool) (u : Nat) (q : Int) (N k : Nat) (up inexact : Bool) (a : ℝ) (x : Nat) : Prop where
  le : (if up then k + 1 else k) ≤ N
  rounds : RoundsTo f rm u ((sgn neg : ℝ) * a) x
  inexact_iff : inexact = true ↔ ∀ z : ℚ, (z : ℝ) = (sgn neg : ℝ) * a → patNum f x ≠ some z
  zero : (if up then k + 1 else k) = 0 → (inexact = true ↔ a ≠ 0)

/-- R24, R25: rounding on a fixed grid within the range. -/
theorem fixedStep {f : Fmt} {rm : Rm} {neg : Bool} {m : Nat} {e q : Int} {N u : Nat} {pat : Nat → Nat}
    (hpat : ∀ j ≤ N, patNum f (pat j) = some (sgn neg * (j * 2 ^ q)) ∧ pat j < 2 ^ fmtBits f ∧ pat j % 2 = j % 2)
    (hgap : ∀ k : Nat, Gap f (k * 2 ^ q) ((k + 1) * 2 ^ q)) (ha : (m : ℝ) * 2 ^ e ≤ N * 2 ^ q) {k r s : Nat}
    (hg : gridOf m e q = (k, r, s)) {rmx : Rm} (hrmx : rmx = if rm = .rs && decide (N < k + 1) then .rne else rm) {up : Bool}
    (hup : up = roundsUp rmx neg k r s false u) :
    FixedStep f rm neg u q N k up (decide (r ≠ 0) || false) (m * 2 ^ e) (pat (if up then k + 1 else k)) := by
  obtain ⟨φ, h⟩ := (magOf_exact m e).onGrid (q := q) fun hc => by cases hc
  rw [hg] at h
  have hQ : (0 : ℝ) < 2 ^ q := by positivity
  have h0 := h.nonneg
  have hkN : k + φ ≤ N := le_of_mul_le_mul_right (by rw [← h.eq]; exact ha) hQ
  have hk : k ≤ N := by
    have : (k : ℝ) ≤ N := by linarith
    exact_mod_cast this
  have hnext : 0 < φ → k + 1 ≤ N := fun hφ => by
    have : (k : ℝ) < N := by linarith
    exact_mod_cast this
  have hupx := h.roundsUp_iff rmx neg u
  rw [← hup] at hupx
  have hupm : up = true ↔ UpSpec rm neg k u φ := by
    rw [hupx]
    rcases eq_or_lt_of_le h0 with hφ | hφ
    · constructor <;> intro hc <;> exact absurd hc.pos (by rw [← hφ]; exact lt_irrefl _)
    · have := hnext hφ
      rw [hrmx, show decide (N < k + 1) = false from decide_eq_false (by omega), Bool.and_false, if_neg (by decide)]
  have hle : (if up then k + 1 else k) ≤ N := by
    split
    · next hu => exact hnext (hupm.1 hu).pos
    · exact hk
  obtain ⟨hp, hlt, hpar⟩ := hpat _ hle
  refine ⟨hle, ?_, ?_, ?_⟩
  · rw [h.eq]
    refine roundsTo_of_grid h.nonneg h.lt_one hlt hp hpar hupm (hgap k) fun _ hφ => ?_
    have h1 := hpat (k + 1) (hnext hφ)
    have h2 := hpat k hk
    refine ⟨Holds.of_pat h2.2.1 h2.1, Holds.of_pat h1.2.1 ?_⟩
    have := h1.1
    push_cast at this
    exact this
  · rw [h.inexact_iff, hp, h.eq]
    exact pos_iff_ne hupm h0 h.lt_one
  · intro hz
    rw [h.inexact_iff, h.eq]
    have hk0 : k = 0 := by split at hz <;> omega
    rw [hk0, Nat.cast_zero, zero_add]
    constructor
    · intro hφ; positivity
    · intro hne; exact lt_of_le_of_ne h0 fun hc => hne (by rw [← hc, zero_mul])

theorem flags_or_zero (x : Flags) : x ||| 0 = x := BitVec.or_zero

/-! ### Integers (R17, R28) -/

section Ints

variable {f : Fmt} (hf : f ∈ [Fmt.int8, .uint8, .int16, .int32])

include hf

/-- The greatest magnitude of a sign. -/
theorem exists_intLimit (neg : Bool) :
    ∃ N : Nat, (N : Int) = if neg then -(intRange f).1 else (intRange f).2 := by
  refine ⟨(if neg then -(intRange f).1 else (intRange f).2).toNat, Int.toNat_of_nonneg ?_⟩
  simp only [List.mem_cons, List.not_mem_nil, or_false] at hf
  rcases hf with rfl | rfl | rfl | rfl <;> cases neg <;> decide

theorem intRange_sign : (intRange f).1 ≤ 0 ∧ 0 ≤ (intRange f).2 := by
  simp only [List.mem_cons, List.not_mem_nil, or_false] at hf
  rcases hf with rfl | rfl | rfl | rfl <;> decide

theorem intBits_parity (j : Nat) (neg : Bool) : intBits f (if neg then -(j : Int) else j) % 2 = j % 2 := by
  rw [intBits_eq]
  simp only [List.mem_cons, List.not_mem_nil, or_false] at hf
  rcases hf with rfl | rfl | rfl | rfl <;> cases neg <;> simp only [fmtBits, if_true, Bool.false_eq_true, if_false] <;> omega

/-- The pattern of an integer within the limit of its sign. -/
theorem intPat {neg : Bool} {N : Nat} (hN : (N : Int) = if neg then -(intRange f).1 else (intRange f).2) (j : Nat) (hj : j ≤ N) :
    patNum f (intBits f (if neg then -(j : Int) else j)) = some (sgn neg * (j * 2 ^ (0 : Int)))
    ∧ intBits f (if neg then -(j : Int) else j) < 2 ^ fmtBits f ∧ intBits f (if neg then -(j : Int) else j) % 2 = j % 2 := by
  obtain ⟨h1, h2⟩ := intRange_sign hf
  have hr : (intRange f).1 ≤ (if neg then -(j : Int) else j) ∧ (if neg then -(j : Int) else j) ≤ (intRange f).2 := by
    cases neg
    · simp only [Bool.false_eq_true, if_false] at hN ⊢; omega
    · simp only [if_true] at hN ⊢; omega
  refine ⟨?_, intBits_lt f _, intBits_parity hf j neg⟩
  rw [patNum_int _ hf, intVal_intBits hf hr.1 hr.2]
  cases neg <;> simp [sgn]

theorem int_bounds {z : ℚ} (hz : Holds f z) : ((intRange f).1 : ℝ) ≤ z ∧ (z : ℝ) ≤ (intRange f).2 := by
  obtain ⟨x, -, hx⟩ := hz
  rw [patNum_int x hf, Option.some_inj] at hx
  obtain ⟨h1, h2⟩ := intVal_mem_range x hf
  rw [← hx, Rat.cast_intCast, Int.cast_le, Int.cast_le]
  exact ⟨h1, h2⟩

theorem gap_int (k : Nat) : Gap f (k * 2 ^ (0 : Int)) ((k + 1) * 2 ^ (0 : Int)) := by
  refine gap_of_multiples (fun z hz => ?_) k
  obtain ⟨x, -, hx⟩ := hz
  rw [patNum_int x hf, Option.some_inj] at hx
  refine ⟨(intVal f x).natAbs, ?_⟩
  rw [← hx, zpow_zero, mul_one, Nat.cast_natAbs, Int.cast_abs]

theorem encodeF_int (rm : Rm) (int : Bool) (v : FVal) (env : FEnv) : encodeF f rm int v env
    = ((encInt f rm int (env.draw rm).1 v).1, (env.draw rm).2.raise (encInt f rm int (env.draw rm).1 v).2) := by
  simp only [List.mem_cons, List.not_mem_nil, or_false] at hf
  rcases hf with rfl | rfl | rfl | rfl <;> rfl

theorem rounded_encInt {neg : Bool} {m : Nat} {e : Int} {N : Nat}
    (hN : (N : Int) = if neg then -(intRange f).1 else (intRange f).2) (ha : (m : ℝ) * 2 ^ e ≤ N) (rm : Rm) (int : Bool)
    (env : FEnv) :
    Rounded f rm ((sgn neg : ℝ) * (m * 2 ^ e)) neg env (encodeF f rm int (.fin neg m e false) env) := by
  have hnone := floatFields_eq_none hf
  obtain ⟨h1, h2⟩ := intRange_sign hf
  rw [encodeF_int hf]
  obtain ⟨k, r, s, hg⟩ : ∃ k r s, gridOf m e 0 = (k, r, s) := ⟨_, _, _, rfl⟩
  obtain ⟨rmx, hrmx⟩ : ∃ rmx, rmx = if rm = .rs && decide (N < k + 1) then .rne else rm := ⟨_, rfl⟩
  obtain ⟨up, hup⟩ : ∃ up, up = roundsUp rmx neg k r s false (env.draw rm).1 := ⟨_, rfl⟩
  have hs := fixedStep (intPat hf hN) (gap_int hf) (by simpa using ha) hg hrmx hup
  have hlim : decide ((if neg then -(intRange f).1 else (intRange f).2) < (k : Int) + 1) = decide (N < k + 1) := by
    rw [← hN]; exact decide_eq_decide.2 (by omega)
  have hval : encInt f rm int (env.draw rm).1 (.fin neg m e false)
      = (intBits f (if neg then -((if up then k + 1 else k : Nat) : Int) else (if up then k + 1 else k : Nat)),
        if decide (r ≠ 0) || false then fNX else 0) := by
    have hle := hs.le
    unfold encInt
    simp only [hg, hlim, ← hrmx, ← hup]
    generalize (if up = true then k + 1 else k) = k' at *
    cases neg
    · simp only [Bool.false_eq_true, if_false] at hN ⊢
      rw [if_neg (by omega), if_neg (by omega)]
    · simp only [if_true] at hN ⊢
      rw [if_neg (by omega), if_neg (by omega)]
  rw [hval]
  have hR := rounded_of (tiny := false) (neg := neg) (env := env) (rm := rm) (by
    have hr := hs.rounds
    cases rm <;> exact hr) (fun hc => by rw [hnone] at hc; cases hc) hs.inexact_iff
    (fun e w b hc => by rw [hnone] at hc; cases hc) (fun _ => by
      constructor
      · intro hc; simp at hc
      · rintro ⟨rfl, -⟩; simp at hf)
  simpa only [Bool.and_false, Bool.false_eq_true, if_false, flags_or_zero] using hR

end Ints

/-! ### MK8 (R22) -/

theorem patNum_mk8 {j : Nat} (hj : j ≤ 127) (neg : Bool) :
    patNum .mk8 (if j = 0 then 0 else (if neg then 128 else 0) + j) = some (sgn neg * (j * 2 ^ (-6 : Int)))
    ∧ (if j = 0 then 0 else (if neg then 128 else 0) + j) < 2 ^ fmtBits .mk8
    ∧ (if j = 0 then 0 else (if neg then 128 else 0) + j) % 2 = j % 2 := by
  have h64 : (2 : ℚ) ^ (-6 : Int) = 1 / 64 := by norm_num
  rcases Nat.eq_zero_or_pos j with rfl | hpos
  · simp [patNum, floatFields, fmtBits]
  · rw [if_neg (by omega)]
    have hbit : ((if neg then 128 else 0) + j).testBit 7 = neg := by
      rw [Nat.testBit_eq_decide_div_mod_eq]; cases neg <;> simp <;> omega
    have hmod : ((if neg then 128 else 0) + j) % 128 = j := by cases neg <;> simp <;> omega
    refine ⟨?_, by cases neg <;> simp [fmtBits] <;> omega, by cases neg <;> simp <;> omega⟩
    simp only [patNum, floatFields, hbit, hmod]
    rw [if_neg (by cases neg <;> simp <;> omega), h64, sgn]
    congr 1
    ring

theorem abs_le_mk8 {z : ℚ} (hz : Holds .mk8 z) : |(z : ℝ)| ≤ 127 * 2 ^ (-6 : Int) := by
  obtain ⟨x, -, hx⟩ := hz
  simp only [patNum, floatFields] at hx
  split at hx
  · cases hx
  · have h : ((x % 128 : Nat) : ℝ) ≤ 127 := by exact_mod_cast (by omega : x % 128 ≤ 127)
    rw [← Option.some.inj hx, show (2 : ℝ) ^ (-6 : Int) = 1 / 64 by norm_num]
    push_cast
    rw [abs_div, abs_mul]
    split <;> simp <;> linarith

theorem gap_mk8 (k : Nat) : Gap .mk8 (k * 2 ^ (-6 : Int)) ((k + 1) * 2 ^ (-6 : Int)) := by
  refine gap_of_multiples (fun z hz => ?_) k
  obtain ⟨x, -, hx⟩ := hz
  simp only [patNum, floatFields] at hx
  split at hx
  · cases hx
  · refine ⟨x % 128, ?_⟩
    rw [← Option.some.inj hx, show (2 : ℚ) ^ (-6 : Int) = 1 / 64 by norm_num, abs_div, abs_mul]
    split <;> simp [div_eq_mul_inv]

theorem encodeF_mk8 (rm : Rm) (int : Bool) (v : FVal) (env : FEnv) : encodeF .mk8 rm int v env
    = ((encMk8 rm (env.draw rm).1 v).1, (env.draw rm).2.raise (encMk8 rm (env.draw rm).1 v).2) := rfl

theorem rounded_encMk8 {neg : Bool} {m : Nat} {e : Int} (ha : (m : ℝ) * 2 ^ e ≤ 127 * 2 ^ (-6 : Int)) (rm : Rm) (int : Bool)
    (env : FEnv) :
    Rounded .mk8 rm ((sgn neg : ℝ) * (m * 2 ^ e)) neg env (encodeF .mk8 rm int (.fin neg m e false) env) := by
  rw [encodeF_mk8]
  obtain ⟨k, r, s, hg⟩ : ∃ k r s, gridOf m e (-6) = (k, r, s) := ⟨_, _, _, rfl⟩
  obtain ⟨rmx, hrmx⟩ : ∃ rmx, rmx = if rm = .rs && decide (127 < k + 1) then .rne else rm := ⟨_, rfl⟩
  obtain ⟨up, hup⟩ : ∃ up, up = roundsUp rmx neg k r s false (env.draw rm).1 := ⟨_, rfl⟩
  have hs := fixedStep (fun j hj => patNum_mk8 hj neg) gap_mk8 (by exact_mod_cast ha) hg hrmx hup
  have hval : encMk8 rm (env.draw rm).1 (.fin neg m e false)
      = (if (if up then k + 1 else k) = 0 then 0 else (if neg then 128 else 0) + (if up then k + 1 else k),
        (if decide (r ≠ 0) || false then fNX else 0)
          ||| (if (decide (r ≠ 0) || false) && decide ((if up then k + 1 else k) = 0) then fUF else 0)) := by
    have hle := hs.le
    unfold encMk8
    simp only [hg, ← hrmx, ← hup]
    generalize (if up = true then k + 1 else k) = k' at *
    rw [if_neg (by omega)]
    by_cases hk : k' = 0
    · rw [if_pos hk, if_pos hk]
      cases decide (r ≠ 0) <;> simp [hk, BitVec.or_comm]
    · rw [if_neg hk, if_neg hk]
      simp [hk]
  rw [hval]
  have hsg : (sgn neg : ℝ) ≠ 0 := by cases neg <;> simp [sgn]
  refine rounded_of (by have hr := hs.rounds; cases rm <;> exact hr) (fun hc => by cases hc) hs.inexact_iff
    (fun e w b hc => by cases hc) (fun _ => ?_)
  have hz := hs.zero
  constructor
  · intro hc
    obtain ⟨hi, hk⟩ := Bool.and_eq_true_iff.1 hc
    rw [decide_eq_true_eq] at hk
    exact ⟨rfl, if_pos hk, mul_ne_zero hsg ((hz hk).1 hi)⟩
  · rintro ⟨-, hx, hy⟩
    have hk : (if up then k + 1 else k) = 0 := by
      by_contra hk
      rw [if_neg hk] at hx
      omega
    exact Bool.and_eq_true_iff.2 ⟨(hz hk).2 (right_ne_zero_of_mul hy), decide_eq_true hk⟩

/-! ### The rounding of an exact value (R24 to R28) -/

theorem valNum_sgn {v : FVal} {y : ℚ} (h : valNum v = some y) : ∃ m e, v = .fin v.sign m e false ∧ y = sgn v.sign * (m * 2 ^ e) := by
  obtain ⟨n, m, e, rfl, rfl⟩ := valNum_eq_some.1 h
  exact ⟨m, e, rfl, by rw [FVal.sign, sgn, mul_assoc]⟩

theorem abs_sgn_mul (neg : Bool) {a : ℝ} (h : 0 ≤ a) : |(sgn neg : ℝ) * a| = a := by
  have h' := congrArg (fun t : ℚ => (t : ℝ)) (abs_sgn neg)
  push_cast at h'
  rw [abs_mul, h', one_mul, abs_of_nonneg h]

theorem zero_or_float {f : Fmt} (hraw : f ≠ .raw) (he8 : f ≠ .e8) :
    (∃ e w b, floatFields f = some (e, w, b)) ∨ f ∈ [Fmt.int8, .uint8, .int16, .int32] ∨ f = .mk8 := by
  cases f <;> simp_all [floatFields]

/-- A zero is its own rounding, with its sign. -/
theorem rounded_zero {f : Fmt} {e w b : Nat} (hf : floatFields f = some (e, w, b)) (rm : Rm) (int : Bool) (neg : Bool) (e₀ : Int)
    (env : FEnv) : Rounded f rm 0 neg env (encodeF f rm int (.fin neg 0 e₀ false) env) := by
  obtain ⟨lm, tx, le, ht⟩ := exists_topOf hf
  have hval : encFloat f rm (env.draw rm).1 (.fin neg 0 e₀ false) = (signBit f neg, 0) := by
    unfold encFloat; rfl
  have hc : Canon w b 0 (1 - b - w) := ⟨Nat.zero_le _, le_rfl, .inr rfl⟩
  obtain ⟨hpat, hlt, hsign, hpar, -⟩ := pat_packMag hf ht hc (by simp; positivity) neg
  have hp0 : packMag f 0 (1 - b - w) = 0 := by
    have hs := (isFloat_of_fields hf).spec
    unfold packMag
    simp only [hs]
    rw [if_neg (show ¬ 2 ^ (w + 1) ≤ 0 by simp)]
    exact if_pos (by positivity)
  rw [hp0, Nat.add_zero] at hpat hlt hsign hpar
  rw [encodeF_float hf ht, hval]
  have hnum : patNum f (signBit f neg) = some 0 := by rw [hpat]; simp
  have hR : RoundsTo f rm (bitsOf (rngNext env.rng).toNat 40 24) 0 (signBit f neg) := by
    have h := roundsTo_of_grid (f := f) (x := signBit f neg) (k := 0) (u := bitsOf (rngNext env.rng).toNat 40 24) (q := 1 - b - w)
      (φ := 0) (neg := neg) (up := false) (rm := rm) le_rfl one_pos hlt (by simpa using hpat) hpar
      ⟨fun hc => Bool.noConfusion hc, fun hc => absurd hc.pos (lt_irrefl _)⟩ (gap_of_canon hf ht hc)
      (fun _ hφ => absurd hφ (lt_irrefl _))
    simpa using h
  exact rounded_of (inexact := false) (tiny := true) hR (fun _ => hsign)
    ⟨fun hc => Bool.noConfusion hc, fun hc => absurd hnum (hc 0 (by simp))⟩
    (fun e' w' b' _ => ⟨fun hc => absurd hc (not_le.2 (by rw [abs_zero]; positivity)), fun _ hc => Bool.noConfusion hc⟩)
    (fun hn => by rw [hf] at hn; cases hn)

/-- R24 to R28: an exact value between two numbers of the target is rounded correctly. -/
theorem rounded_between {f : Fmt} (hraw : f ≠ .raw) (he8 : f ≠ .e8) (rm : Rm) (int : Bool) {v : FVal} (env : FEnv) {y lo hi : ℚ}
    (hv : valNum v = some y) (hlo : Holds f lo) (hhi : Holds f hi) (h1 : lo ≤ y) (h2 : y ≤ hi) :
    Rounded f rm y v.sign env (encodeF f rm int v env) := by
  obtain ⟨m, e₀, hve, rfl⟩ := valNum_sgn hv
  generalize v.sign = neg at *
  subst hve
  push_cast
  have h0 : (0 : ℝ) ≤ m * 2 ^ e₀ := by positivity
  have h1' := (Rat.cast_le (K := ℝ)).2 h1
  have h2' := (Rat.cast_le (K := ℝ)).2 h2
  push_cast at h1' h2'
  rcases zero_or_float hraw he8 with ⟨e, w, b, hf⟩ | hint | rfl
  · obtain ⟨lm, tx, le, ht⟩ := exists_topOf hf
    have ha : (m : ℝ) * 2 ^ e₀ ≤ lm * 2 ^ le := by
      rw [← abs_sgn_mul neg h0]
      have hl := abs_le.1 (abs_le_of_holds hf ht hlo)
      have hh := abs_le.1 (abs_le_of_holds hf ht hhi)
      exact abs_le.2 ⟨by linarith [hl.1], by linarith [hh.2]⟩
    rcases eq_or_ne m 0 with rfl | hm
    · simpa using rounded_zero hf rm int neg e₀ env
    · exact rounded_encodeF hf ht hm (magOf_exact m e₀) (fun hc => by cases hc) ha rm int env
  · obtain ⟨N, hN⟩ := exists_intLimit hint neg
    refine rounded_encInt hint hN ?_ rm int env
    have hl := (int_bounds hint hlo).1
    have hh := (int_bounds hint hhi).2
    have hN' : (N : ℝ) = ((if neg then -(intRange f).1 else (intRange f).2 : Int) : ℝ) := by rw [← hN]; simp
    rw [hN']
    cases neg
    · rw [cast_sgn_false, one_mul] at h2'
      exact h2'.trans hh
    · rw [cast_sgn_true] at h1'
      rw [if_pos rfl]
      push_cast
      linarith
  · refine rounded_encMk8 ?_ rm int env
    have hl := abs_le.1 (abs_le_mk8 hlo)
    have hh := abs_le.1 (abs_le_mk8 hhi)
    rw [← abs_sgn_mul neg h0]
    exact abs_le.2 ⟨by linarith [hl.1], by linarith [hh.2]⟩

end Sys2Proof.Machine
end

section
/-! PROOFS. Out of range: overflow, clamps, infinities and NaNs (R23, R28), and the settled obligation O8. -/

namespace Sys2Proof.Machine

/-! ### A pattern from its number -/

section Unique

variable {f : Fmt} {e w b lm tx : Nat} {le : Int} (hf : floatFields f = some (e, w, b)) (ht : TopOf f e w b lm tx le)

/-- A larger exponent field stands for a larger magnitude. -/
theorem fields_lt {ex fr ex' fr' : Nat} (hfr : fr < 2 ^ w) (h : max ex 1 < max ex' 1) :
    (sigOf w ex fr : ℚ) * 2 ^ expOf w b ex < sigOf w ex' fr' * 2 ^ expOf w b ex' := by
  have h1 : (sigOf w ex fr : ℚ) < 2 ^ (w + 1) := by
    have : sigOf w ex fr < 2 ^ (w + 1) := by unfold sigOf; rw [pow_succ]; split <;> omega
    exact_mod_cast this
  have h2 : (2 : ℚ) ^ w ≤ sigOf w ex' fr' := by
    have : 2 ^ w ≤ sigOf w ex' fr' := by unfold sigOf; rw [if_neg (by omega)]; omega
    exact_mod_cast this
  have h3 : expOf w b ex + 1 ≤ expOf w b ex' := by unfold expOf; omega
  calc (sigOf w ex fr : ℚ) * 2 ^ expOf w b ex < 2 ^ (w + 1) * 2 ^ expOf w b ex := by gcongr
    _ = 2 ^ w * 2 ^ (expOf w b ex + 1) := by rw [zpow_add_one₀ two_ne_zero, pow_succ]; ring
    _ ≤ sigOf w ex' fr' * 2 ^ expOf w b ex' :=
      mul_le_mul h2 (zpow_le_zpow_right₀ one_le_two h3) (by positivity) (by positivity)

theorem fields_inj {ex fr ex' fr' : Nat} (hfr : fr < 2 ^ w) (hfr' : fr' < 2 ^ w)
    (h : (sigOf w ex fr : ℚ) * 2 ^ expOf w b ex = sigOf w ex' fr' * 2 ^ expOf w b ex') : ex = ex' ∧ fr = fr' := by
  have hm : max ex 1 = max ex' 1 := by
    rcases lt_trichotomy (max ex 1) (max ex' 1) with h' | h' | h'
    · exact absurd h (fields_lt hfr h').ne
    · exact h'
    · exact absurd h (fields_lt hfr' h').ne'
  have he : expOf w b ex = expOf w b ex' := by unfold expOf; rw [hm]
  rw [he] at h
  have hs : sigOf w ex fr = sigOf w ex' fr' := by exact_mod_cast mul_right_cancel₀ (by positivity) h
  unfold sigOf at hs
  split at hs <;> split at hs <;> omega

include hf

/-- A number and a sign have one pattern. -/
theorem pat_inj {x x' : Nat} {z : ℚ} (hx : x < 2 ^ fmtBits f) (hx' : x' < 2 ^ fmtBits f) (hs : patSign f x = patSign f x')
    (h : patNum f x = some z) (h' : patNum f x' = some z) : x = x' := by
  have hE := eq_fieldsPat hf hx
  have hE' := eq_fieldsPat hf hx'
  have l1 : x / 2 ^ w % 2 ^ e < 2 ^ e := Nat.mod_lt _ (by positivity)
  have l2 : x % 2 ^ w < 2 ^ w := Nat.mod_lt _ (by positivity)
  have l3 : x' / 2 ^ w % 2 ^ e < 2 ^ e := Nat.mod_lt _ (by positivity)
  have l4 : x' % 2 ^ w < 2 ^ w := Nat.mod_lt _ (by positivity)
  rw [hE, patNum_fieldsPat hf l1 l2] at h
  rw [hE', patNum_fieldsPat hf l3 l4] at h'
  split at h
  · cases h
  split at h'
  · cases h'
  have hval := (Option.some.inj h).trans (Option.some.inj h').symm
  rw [hs] at hval
  have hsg : sgn (patSign f x') ≠ 0 := by cases patSign f x' <;> simp [sgn]
  obtain ⟨h1, h2⟩ := fields_inj l2 l4 (mul_left_cancel₀ hsg hval)
  rw [hE, hE', hs, h1, h2]

omit hf in
theorem patSign_of_lt {x : Nat} (hx : x < 2 ^ (fmtBits f - 1)) : patSign f x = false := Nat.testBit_lt_two_pow hx

theorem largestBits_eq : largestBits f = packMag f (largest f).1 (largest f).2 := by
  cases f <;> simp only [floatFields, reduceCtorEq] at hf <;> decide

include ht

/-- The greatest number of a format is its largest, whose pattern the encoder saturates to. -/
theorem eq_largest {x : Nat} {top : ℚ} (hx : x < 2 ^ (fmtBits f - 1)) (htop : patNum f x = some top)
    (hmax : ∀ z, Holds f z → z ≤ top) : top = lm * 2 ^ le ∧ x = largestBits f := by
  have hx' : x < 2 ^ fmtBits f := hx.trans_le (Nat.pow_le_pow_right (by norm_num) (by omega))
  have h1 := hmax _ (holds_largest hf ht false)
  have h2 := abs_le_of_holds hf ht (Holds.of_pat hx' htop)
  have h3 : top ≤ lm * 2 ^ le := by
    have := (le_abs_self (top : ℝ)).trans h2
    exact_mod_cast (show (top : ℝ) ≤ ((lm * 2 ^ le : ℚ) : ℝ) by push_cast; exact this)
  have heq : top = lm * 2 ^ le := le_antisymm h3 (by simpa [sgn] using h1)
  refine ⟨heq, ?_⟩
  have hc : Canon w b lm le := ⟨ht.lt.le, by have := ht.exp; have := ht.pos; omega, .inl ht.full⟩
  obtain ⟨p1, p2, p3, -, -⟩ := pat_packMag hf ht hc le_rfl false
  have hp : largestBits f = signBit f false + packMag f lm le := by
    rw [largestBits_eq hf, ht.largest]; simp [signBit]
  rw [hp]
  exact pat_inj hf hx' p2 (by rw [patSign_of_lt hx, p3]) (by rw [htop, heq]) (by rw [p1]; simp [sgn])

/-! ### Overflow of a floating-point target (R28) -/

theorem encFloat_overflow {neg : Bool} {m : Nat} {e₀ : Int} (hm : m ≠ 0) (h : 2 * ((lm : ℝ) * 2 ^ le) ≤ m * 2 ^ e₀) (rm : Rm) (u : Nat) :
    encFloat f rm u (.fin neg m e₀ false) = overflowF f rm neg := by
  obtain ⟨k, q, φ, up, inexact, tiny, hs, he⟩ := encFloat_step hf ht (neg := neg) hm (magOf_exact m e₀) (fun hc => by cases hc) rm u
  have hgt : gtMag (if up then k + 1 else k) q lm le = true := by
    rw [gtMag_iff]
    have hQ : (0 : ℝ) < 2 ^ q := by positivity
    have hle : (k : ℝ) * 2 ^ q ≤ (if up then k + 1 else k : Nat) * 2 ^ q := by
      gcongr; split <;> omega
    refine lt_of_lt_of_le ?_ hle
    by_contra hc
    rw [not_lt] at hc
    rw [hs.eq] at h
    have h1 := hs.lt_one
    have hk : (k : ℝ) < 1 := by
      refine lt_of_mul_lt_mul_right (a := (2 : ℝ) ^ q) ?_ hQ.le
      nlinarith
    have hk0 : k = 0 := by
      have : k < 1 := by exact_mod_cast hk
      omega
    have hq : q ≤ le := by
      have hw := Nat.two_pow_pos w
      have := hs.full.resolve_left (by omega)
      have := ht.exp
      have := ht.pos
      omega
    have hlm : (1 : ℝ) ≤ lm := by
      have := Nat.two_pow_pos w
      have := ht.full
      exact_mod_cast (by omega : 1 ≤ lm)
    have h2 : (2 : ℝ) ^ q ≤ lm * 2 ^ le := by
      calc (2 : ℝ) ^ q ≤ 2 ^ le := zpow_le_of_le hq
        _ ≤ lm * 2 ^ le := le_mul_of_one_le_left (by positivity) hlm
    rw [hk0, Nat.cast_zero, zero_add] at h
    nlinarith
  rw [he, if_pos hgt]

end Unique

/-- R28: the result and the flags of an overflow. -/
theorem overflowF_eq {f : Fmt} (hf : (floatFields f).isSome = true) (rm : Rm) (neg : Bool) : overflowF f rm neg
    = (if f ∈ [Fmt.fp64, .fp32, .bf16, .fp16] ∧ rm ≠ .rz ∧ (rm = .ru → neg = false) ∧ (rm = .rd → neg = true)
        then infPat f neg else largestBits f + neg.toNat * 2 ^ (fmtBits f - 1),
      if f ∈ [Fmt.fp64, .fp32, .bf16, .fp16] then 0b0010100 else 0b0110100) := by
  cases f <;> simp only [floatFields, Option.isSome_none, Bool.false_eq_true] at hf
  all_goals cases rm <;> cases neg <;> decide

/-- The sign of a number that is not zero. -/
theorem sign_eq_decide {v : FVal} {y : ℚ} (h : valNum v = some y) (hy : y ≠ 0) : v.sign = decide (y < 0) := by
  obtain ⟨m, e, -, rfl⟩ := valNum_sgn h
  generalize v.sign = s at *
  have hpos : (0 : ℚ) < m * 2 ^ e := lt_of_le_of_ne (by positivity) fun hc => hy (by rw [← hc, mul_zero])
  cases s
  · rw [sgn, if_neg (by decide), one_mul, eq_comm, decide_eq_false_iff_not]
    exact not_lt.2 hpos.le
  · rw [sgn, if_pos rfl, eq_comm, decide_eq_true_eq]
    linarith

theorem overflow_float {f : Fmt} (hf : (floatFields f).isSome = true) (rm : Rm) (int : Bool) {v : FVal} (env : FEnv) {y top : ℚ} {x : Nat}
    (hv : valNum v = some y) (hx : x < 2 ^ (fmtBits f - 1)) (htop : patNum f x = some top) (hmax : ∀ z, Holds f z → z ≤ top)
    (hy : 2 * top ≤ |y|) : (encodeF f rm int v env).1
        = (if f ∈ [Fmt.fp64, .fp32, .bf16, .fp16] ∧ rm ≠ .rz ∧ (rm = .ru → decide (y < 0) = false) ∧ (rm = .rd → decide (y < 0) = true)
          then infPat f (decide (y < 0)) else x + (decide (y < 0)).toNat * 2 ^ (fmtBits f - 1))
      ∧ (encodeF f rm int v env).2.flags
        = env.flags ||| (if f ∈ [Fmt.fp64, .fp32, .bf16, .fp16] then 0b0010100 else 0b0110100) := by
  obtain ⟨⟨e, w, b⟩, hff⟩ := Option.isSome_iff_exists.1 hf
  obtain ⟨lm, tx, le, ht⟩ := exists_topOf hff
  obtain ⟨rfl, rfl⟩ := eq_largest hff ht hx htop hmax
  have hpos : (0 : ℚ) < lm * 2 ^ le := by
    have := Nat.two_pow_pos w
    have := ht.full
    have : (0 : ℚ) < lm := by exact_mod_cast (by omega : 0 < lm)
    positivity
  have hy0 : y ≠ 0 := fun hc => by rw [hc, abs_zero] at hy; linarith
  have hsign := sign_eq_decide hv hy0
  obtain ⟨m, e₀, hve, hyv⟩ := valNum_sgn hv
  have hm : m ≠ 0 := fun hc => hy0 (by rw [hyv, hc]; simp)
  have hmag : 2 * ((lm : ℝ) * 2 ^ le) ≤ m * 2 ^ e₀ := by
    rw [hyv, abs_mul, abs_sgn, one_mul, abs_of_nonneg (by positivity)] at hy
    have h := (Rat.cast_le (K := ℝ)).2 hy
    push_cast at h
    exact h
  rw [hve, hsign, encodeF_float hff ht, encFloat_overflow hff ht hm hmag, overflowF_eq hf, draw_raise_flags]
  exact ⟨rfl, rfl⟩

/-! ### MK8 out of range -/

theorem overflow_mk8 (rm : Rm) (int : Bool) {v : FVal} (env : FEnv) {y top : ℚ} (hv : valNum v = some y)
    (hmax : ∀ z, Holds .mk8 z → z ≤ top) (hy : 2 * top ≤ |y|) :
    (encodeF .mk8 rm int v env).1 = (if decide (y < 0) then 0xFF else 0x7F)
    ∧ (encodeF .mk8 rm int v env).2.flags = env.flags ||| 0b0110100 := by
  obtain ⟨h1, h2, -⟩ := patNum_mk8 (j := 127) le_rfl false
  have htop := hmax _ (Holds.of_pat h2 h1)
  have h64 : (2 : ℚ) ^ (-6 : Int) = 1 / 64 := by norm_num
  rw [sgn, if_neg (by decide), h64] at htop
  norm_num at htop
  have hy0 : y ≠ 0 := fun hc => by rw [hc, abs_zero] at hy; linarith
  have hsign := sign_eq_decide hv hy0
  obtain ⟨m, e₀, hve, hyv⟩ := valNum_sgn hv
  obtain ⟨k, r, s, hg⟩ : ∃ k r s, gridOf m e₀ (-6) = (k, r, s) := ⟨_, _, _, rfl⟩
  obtain ⟨φ, h⟩ := (magOf_exact m e₀).onGrid (q := -6) fun hc => by cases hc
  rw [hg] at h
  have hk : 127 < k := by
    rw [hyv, abs_mul, abs_sgn, one_mul, abs_of_nonneg (by positivity)] at hy
    have hyR : (254 : ℝ) / 64 ≤ m * 2 ^ e₀ := by
      have : (254 : ℚ) / 64 ≤ m * 2 ^ e₀ := by linarith
      have h := (Rat.cast_le (K := ℝ)).2 this
      push_cast at h
      exact h
    rw [h.eq, show (2 : ℝ) ^ (-6 : Int) = 1 / 64 by norm_num] at hyR
    have h1 := h.lt_one
    have : ((127 : Nat) : ℝ) < k := by push_cast; linarith
    exact_mod_cast this
  rw [hve, encodeF_mk8, draw_raise_flags, ← hsign]
  unfold encMk8
  simp only [hg]
  have hle : ∀ c : Bool, k ≤ if c then k + 1 else k := fun c => by cases c <;> simp
  rw [if_pos (hk.trans_le (hle _))]
  exact ⟨rfl, rfl⟩

/-! ### Clamps of an integer target -/

/-- A number ±(k + φ) is an integer where the fraction is zero, and only there. -/
theorem den_eq_one_iff {neg : Bool} {k : Nat} {φ : ℝ} {y : ℚ} (h0 : 0 ≤ φ) (h1 : φ < 1) (hy : (y : ℝ) = sgn neg * (k + φ)) :
    y.den = 1 ↔ ¬ 0 < φ := by
  have habs : |(y : ℝ)| = k + φ := by rw [hy, abs_sgn_mul neg (by positivity)]
  constructor
  · intro hd hφ
    have hn : (y : ℝ) = (y.num : ℝ) := by
      rw [← Rat.cast_intCast, (Rat.den_eq_one_iff y).1 hd]
    have hN : ((y.num.natAbs : Nat) : ℝ) = k + φ := by
      rw [← habs, hn, Nat.cast_natAbs, Int.cast_abs]
    have h2 : (k : ℝ) < y.num.natAbs := by linarith
    have h3 : (y.num.natAbs : ℝ) < (k + 1 : Nat) := by push_cast; linarith
    have h2' : k < y.num.natAbs := by exact_mod_cast h2
    have h3' : y.num.natAbs < k + 1 := by exact_mod_cast h3
    omega
  · intro hφ
    have hφ0 : φ = 0 := le_antisymm (not_lt.1 hφ) h0
    have hq : y = ((if neg then -(k : Int) else k : Int) : ℚ) := by
      have : (y : ℝ) = (((if neg then -(k : Int) else k : Int) : ℚ) : ℝ) := by
        rw [hy, hφ0, add_zero]
        cases neg <;> simp [sgn]
      exact_mod_cast this
    rw [hq]
    exact Rat.den_intCast _

theorem clamp_int {f : Fmt} (hf : f ∈ [Fmt.int8, .uint8, .int16, .int32]) (rm : Rm) (int neg : Bool) {v : FVal} (env : FEnv)
    {y lim : ℚ} {x : Nat} (hv : valNum v = some y) (hx : x < 2 ^ fmtBits f) (hlim : patNum f x = some lim)
    (hout : if neg then (∀ z, Holds f z → lim ≤ z) ∧ y ≤ lim - 1 else (∀ z, Holds f z → z ≤ lim) ∧ lim + 1 ≤ y) :
    (encodeF f rm int v env).1 = x ∧ (encodeF f rm int v env).2.flags
      = env.flags ||| (if int then 0b0100000 else 0b0100001) ||| (if y.den = 1 then 0 else 0b0010000) := by
  obtain ⟨hr1, hr2⟩ := intRange_sign hf
  have hlimI := hlim
  rw [patNum_int x hf, Option.some_inj] at hlimI
  obtain ⟨m, e₀, hve, hyv⟩ := valNum_sgn hv
  obtain ⟨k, r, s, hg⟩ : ∃ k r s, gridOf m e₀ 0 = (k, r, s) := ⟨_, _, _, rfl⟩
  obtain ⟨φ, h⟩ := (magOf_exact m e₀).onGrid (q := 0) fun hc => by cases hc
  rw [hg] at h
  have hin := h.inexact_iff
  have hmag : (m : ℝ) * 2 ^ e₀ = k + φ := by rw [h.eq, zpow_zero, mul_one]
  have hyR : (y : ℝ) = sgn v.sign * (k + φ) := by rw [hyv, ← hmag]; push_cast; rfl
  have hden := den_eq_one_iff h.nonneg h.lt_one hyR
  have hnx : (if decide (r ≠ 0) || false then fNX else (0 : Flags)) = if y.den = 1 then 0 else 0b0010000 := by
    by_cases hφ : 0 < φ
    · rw [if_pos (hin.2 hφ), if_neg (fun hc => hden.1 hc hφ)]; rfl
    · rw [if_neg (fun hc => hφ (hin.1 hc)), if_pos (hden.2 hφ)]
  have hle : ∀ c : Bool, k ≤ if c then k + 1 else k := fun c => by cases c <;> simp
  have hflags : ∀ nx : Flags, env.flags ||| (nx ||| (if int then fSAT else fNV ||| fSAT))
      = env.flags ||| (if int then 0b0100000 else 0b0100001) ||| nx := fun nx => by
    rw [BitVec.or_comm nx, ← BitVec.or_assoc]; cases int <;> rfl
  have h1 := h.lt_one
  rw [hve, encodeF_int hf, draw_raise_flags]
  cases neg
  · obtain ⟨hmax, hge⟩ := (if_neg (by decide)).mp hout
    have hx' := eq_intBits_of_greatest hf hx hlim hmax
    have hlimV : lim = (intRange f).2 := by
      rw [← hlimI, hx', intVal_intBits hf (hr1.trans hr2) le_rfl]
    have hr2' : (0 : ℚ) ≤ (intRange f).2 := by exact_mod_cast hr2
    have hy0 : 0 < y := by rw [hlimV] at hge; linarith
    have hsign : v.sign = false := by rw [sign_eq_decide hv hy0.ne', decide_eq_false_iff_not]; exact not_lt.2 hy0.le
    have hk : (intRange f).2 < (k : Int) := by
      rw [hsign, cast_sgn_false, one_mul] at hyR
      have hgeR := (Rat.cast_le (K := ℝ)).2 hge
      rw [hlimV] at hgeR
      push_cast at hgeR
      have : ((intRange f).2 : ℝ) < ((k : Int) : ℝ) := by push_cast; linarith
      exact_mod_cast this
    rw [hsign, hx', ← hflags, ← hnx]
    unfold encInt
    simp only [hg, Bool.false_eq_true, if_false]
    generalize hk' : roundsUp _ _ _ _ _ _ _ = up
    have := hle up
    rw [if_neg (by omega), if_pos (by omega)]
    exact ⟨rfl, rfl⟩
  · obtain ⟨hmin, hle'⟩ := (if_pos rfl).mp hout
    have hx' := eq_intBits_of_least hf hx hlim hmin
    have hlimV : lim = (intRange f).1 := by
      rw [← hlimI, hx', intVal_intBits hf le_rfl (hr1.trans hr2)]
    have hr1' : ((intRange f).1 : ℚ) ≤ 0 := by exact_mod_cast hr1
    have hy0 : y < 0 := by rw [hlimV] at hle'; linarith
    have hsign : v.sign = true := by rw [sign_eq_decide hv hy0.ne, decide_eq_true_eq]; exact hy0
    have hk : -(intRange f).1 < (k : Int) := by
      rw [hsign, cast_sgn_true] at hyR
      have hleR := (Rat.cast_le (K := ℝ)).2 hle'
      rw [hlimV] at hleR
      push_cast at hleR
      have : ((-(intRange f).1 : Int) : ℝ) < ((k : Int) : ℝ) := by push_cast; linarith
      exact_mod_cast this
    rw [hsign, hx', ← hflags, ← hnx]
    unfold encInt
    simp only [hg, if_true]
    generalize hk' : roundsUp _ _ _ _ _ _ _ = up
    have := hle up
    rw [if_pos (by omega)]
    exact ⟨rfl, rfl⟩

/-! ### Infinities and NaNs (R28) -/

theorem encodeF_inf_float {f : Fmt} (hf : (floatFields f).isSome = true) (rm : Rm) (int neg : Bool) (env : FEnv) {x : Nat} {top : ℚ}
    (hx : x < 2 ^ (fmtBits f - 1)) (htop : patNum f x = some top) (hmax : ∀ z, Holds f z → z ≤ top) :
    (encodeF f rm int (.inf neg) env).1 = (if f ∈ infFormats then infPat f neg else x + neg.toNat * 2 ^ (fmtBits f - 1))
    ∧ (encodeF f rm int (.inf neg) env).2.flags = env.flags ||| (if f ∈ infFormats then 0 else 0b0100100) := by
  obtain ⟨⟨e, w, b⟩, hff⟩ := Option.isSome_iff_exists.1 hf
  obtain ⟨lm, tx, le, ht⟩ := exists_topOf hff
  obtain ⟨-, rfl⟩ := eq_largest hff ht hx htop hmax
  have henc : ∀ u, encFloat f rm u (.inf neg) = (if f ∈ infFormats then infPat f neg else largestBits f + neg.toNat * 2 ^ (fmtBits f - 1),
      if f ∈ infFormats then 0 else 0b0100100) := fun u => by
    cases f <;> simp only [floatFields, Option.isSome_none, Bool.false_eq_true] at hf
    all_goals cases neg <;> rfl
  rw [encodeF_float hff ht, henc, draw_raise_flags]
  exact ⟨rfl, rfl⟩

theorem encodeF_nan {f : Fmt} (hraw : f ≠ .raw) (he8 : f ≠ .e8) (rm : Rm) (int : Bool) (env : FEnv) :
    (encodeF f rm int .nan env).1 = (if hasNan f then canonNan f else 0)
    ∧ (encodeF f rm int .nan env).2.flags = env.flags ||| (if hasNan f then 0 else 1) := by
  cases f
  case raw => exact absurd rfl hraw
  case e8 => exact absurd rfl he8
  all_goals exact ⟨rfl, draw_raise_flags env rm _⟩

/-! ### E8 (R23) -/

section ScaleFormat

variable {m : Nat} (hm : m ≠ 0) (e : Int)

include hm

/-- The binary logarithm of a number is that of its leading bit. -/
theorem two_zpow_le_iff (c : Int) : (2 : ℚ) ^ c ≤ m * 2 ^ e ↔ c ≤ e + bitLen m - 1 := by
  obtain ⟨h1, h2, h3⟩ := bitLen_bounds hm
  have hlo : (2 : ℚ) ^ (e + bitLen m - 1) ≤ m * 2 ^ e := by
    rw [show e + (bitLen m : Int) - 1 = ((bitLen m - 1 : Nat) : Int) + e by omega, zpow_add₀ two_ne_zero, zpow_natCast]
    gcongr
    exact_mod_cast h2
  have hhi : (m : ℚ) * 2 ^ e < 2 ^ (e + bitLen m) := by
    rw [show e + (bitLen m : Int) = ((bitLen m : Nat) : Int) + e by omega, zpow_add₀ two_ne_zero, zpow_natCast]
    gcongr
    exact_mod_cast h3
  constructor
  · intro h
    have := (zpow_lt_zpow_iff_right₀ one_lt_two).1 (h.trans_lt hhi)
    omega
  · intro h
    exact (zpow_le_zpow_right₀ one_le_two h).trans hlo

theorem two_zpow_eq_iff (c : Int) : (m : ℚ) * 2 ^ e = 2 ^ c ↔ c = e + bitLen m - 1 ∧ m = 2 ^ (bitLen m - 1) := by
  obtain ⟨h1, h2, h3⟩ := bitLen_bounds hm
  have hpow : (2 : ℚ) ^ (e + bitLen m - 1) = (2 ^ (bitLen m - 1) : Nat) * 2 ^ e := by
    rw [show e + (bitLen m : Int) - 1 = ((bitLen m - 1 : Nat) : Int) + e by omega, zpow_add₀ two_ne_zero, zpow_natCast]
    push_cast
    rfl
  constructor
  · intro h
    have hc : c = e + bitLen m - 1 := by
      refine le_antisymm ((two_zpow_le_iff hm e c).1 h.ge) ?_
      have := (two_zpow_le_iff hm e (e + bitLen m - 1)).2 le_rfl
      exact (zpow_le_zpow_iff_right₀ one_lt_two).1 (this.trans h.le)
    refine ⟨hc, ?_⟩
    rw [hc, hpow] at h
    exact_mod_cast mul_right_cancel₀ (by positivity) h
  · rintro ⟨rfl, hp⟩
    rw [hpow, ← hp]

end ScaleFormat

theorem encE8_pos {m : Nat} (hm : m ≠ 0) (e : Int) : encE8 (.fin false m e false)
    = (if e + (bitLen m : Int) - 1 + 127 < 0 then (0, (if m = 2 ^ (bitLen m - 1) then 0 else fNX) ||| fSAT)
      else if 254 < e + (bitLen m : Int) - 1 + 127 then (254, (if m = 2 ^ (bitLen m - 1) then 0 else fNX) ||| fSAT)
      else ((e + (bitLen m : Int) - 1 + 127).toNat, if m = 2 ^ (bitLen m - 1) then 0 else fNX)) := by
  have hm' : (m == 0) = false := by simpa using hm
  simp only [encE8, hm', Bool.false_or, Bool.false_eq_true, if_false, decide_eq_true_eq, ne_eq, ite_not]

theorem sat_raised (env : FEnv) (nx : Flags) : (env.raise (nx ||| fSAT)).flags.getLsbD 5 = true := by
  unfold FEnv.raise
  simp [fSAT]

theorem encodeF_e8 {rm : Rm} {v : FVal} (env : FEnv) {y : ℚ} (hv : valNum v = some y) :
    (∀ c : Nat, c < 255 → (2 : ℚ) ^ (c - 127 : ℤ) ≤ y → y < (2 : ℚ) ^ (c - 126 : ℤ) →
      encodeF .e8 rm false v env = (c, env.raise (if y = (2 : ℚ) ^ (c - 127 : ℤ) then 0 else 0b0010000)))
    ∧ (y ≤ 0 → encodeF .e8 rm false v env = (0xFF, env.raise 1))
    ∧ (0 < y → y < (2 : ℚ) ^ (-127 : ℤ) → (encodeF .e8 rm false v env).1 = 0
      ∧ (encodeF .e8 rm false v env).2.flags.getLsbD 5 = true)
    ∧ ((2 : ℚ) ^ (128 : ℤ) ≤ y → (encodeF .e8 rm false v env).1 = 254
      ∧ (encodeF .e8 rm false v env).2.flags.getLsbD 5 = true) := by
  obtain ⟨m, e, hve, hyv⟩ := valNum_sgn hv
  have henc : encodeF .e8 rm false v env = ((encE8 v).1, env.raise (encE8 v).2) := rfl
  have hpos : 0 < y → m ≠ 0 ∧ v = .fin false m e false ∧ y = m * 2 ^ e := fun hy => by
    have hs := sign_eq_decide hv hy.ne'
    rw [decide_eq_false (not_lt.2 hy.le)] at hs
    rw [hs] at hve hyv
    rw [sgn, if_neg (by decide), one_mul] at hyv
    exact ⟨fun hc => by rw [hyv, hc] at hy; simp at hy, hve, hyv⟩
  refine ⟨fun c hc h1 h2 => ?_, fun hy => ?_, fun hy h1 => ?_, fun h1 => ?_⟩
  · obtain ⟨hm, hve, hyv⟩ := hpos (lt_of_lt_of_le (by positivity) h1)
    have hiff := two_zpow_eq_iff hm e (c - 127)
    rw [hyv] at h1 h2
    have hlo := (two_zpow_le_iff hm e _).1 h1
    have hhi := mt (two_zpow_le_iff hm e _).2 (not_le.2 h2)
    have hcv : (c : Int) = e + bitLen m - 1 + 127 := by omega
    rw [henc, hve, encE8_pos hm, if_neg (by omega), if_neg (by omega), ← hcv]
    by_cases hp : m = 2 ^ (bitLen m - 1)
    · rw [if_pos hp, if_pos (by rw [hyv]; exact hiff.2 ⟨by omega, hp⟩)]
      rfl
    · rw [if_neg hp, if_neg (by rw [hyv]; exact fun hc => hp (hiff.1 hc).2)]
      rfl
  · have hcond : (v.sign || m == 0) = true := by
      rcases eq_or_lt_of_le hy with hy0 | hy0
      · have hm : m = 0 := by
          by_contra hm
          have : sgn v.sign ≠ 0 := by cases v.sign <;> simp [sgn]
          have hm' : (m : ℚ) ≠ 0 := by exact_mod_cast hm
          exact absurd (hyv.symm.trans hy0) (mul_ne_zero this (mul_ne_zero hm' (by positivity)))
        rw [hm]; simp
      · rw [sign_eq_decide hv hy0.ne, decide_eq_true hy0, Bool.true_or]
    rw [henc, hve]
    unfold encE8
    simp only [hcond, if_true]
    rfl
  · obtain ⟨hm, hve, hyv⟩ := hpos hy
    rw [hyv] at h1
    have hhi := mt (two_zpow_le_iff hm e _).2 (not_le.2 h1)
    rw [henc, hve, encE8_pos hm, if_pos (by omega)]
    exact ⟨rfl, sat_raised env _⟩
  · obtain ⟨hm, hve, hyv⟩ := hpos (lt_of_lt_of_le (by positivity) h1)
    rw [hyv] at h1
    have hlo := (two_zpow_le_iff hm e _).1 h1
    rw [henc, hve, encE8_pos hm, if_neg (by omega), if_pos (by omega)]
    exact ⟨rfl, sat_raised env _⟩

/-- Settles O8: decoding, then the rounding of what lies in range (`rounded_between`), then each way out of range. -/
theorem roundingIntoFormats : Obligations.RoundingIntoFormats := by
  refine ⟨fun f x hx => ⟨fun q hq => valNum_decodeF hq, fun hn => decodeF_of_patNum_none hx hn, fun hf hn => sign_decodeF hf hn⟩,
    fun f rm int v env y lo hi hraw he8 hv hlo hhi h1 h2 => rounded_between hraw he8 rm int env hv hlo hhi h1 h2, ?_, ?_, ?_, ?_⟩
  · rintro f rm int v env y top x neg hv rfl hx htop hmax hy
    refine ⟨fun hf => overflow_float hf rm int env hv hx htop hmax hy, ?_⟩
    rintro rfl
    exact overflow_mk8 rm int env hv hmax hy
  · exact fun f rm int neg v env y lim x hf hv hx hlim hout => clamp_int hf rm int neg env hv hx hlim hout
  · intro f rm int neg env x top
    refine ⟨fun hf hx htop hmax => encodeF_inf_float hf rm int neg env hx htop hmax, ?_, fun hraw he8 => ?_⟩
    · rintro rfl
      rw [encodeF_mk8, draw_raise_flags]
      cases neg <;> exact ⟨rfl, rfl⟩
    · obtain ⟨hx, hflags⟩ := encodeF_nan hraw he8 rm int env
      rw [hx, hflags]
      cases f
      case e8 => exact absurd rfl he8
      all_goals exact ⟨rfl, rfl⟩
  · intro rm v env y hv
    obtain ⟨h1, h2, h3, h4⟩ := encodeF_e8 (rm := rm) env hv
    refine ⟨h1, h2, h3, h4, fun n => rfl, ?_⟩
    have : env.raise 0 = env := by unfold FEnv.raise; simp
    exact congrArg (Prod.mk 0xFF) this

end Sys2Proof.Machine
end

section
/-! PROOFS. Exact results before their one rounding (R20, R32, R33, R180). -/

namespace Sys2Proof.Machine

/-! ### Sums, products and negations -/

/-- A significand moved to a smaller exponent. -/
theorem shiftLeft_zpow (m : Nat) {e lo : Int} (h : lo ≤ e) : ((m <<< (e - lo).toNat : Nat) : ℚ) * 2 ^ lo = m * 2 ^ e := by
  rw [Nat.shiftLeft_eq, Nat.cast_mul, Nat.cast_pow, Nat.cast_ofNat, mul_assoc, ← zpow_natCast, ← zpow_add₀ two_ne_zero]
  congr 2
  omega

theorem cast_signed (neg : Bool) (n : Nat) : ((if neg then -(n : Int) else n : Int) : ℚ) = sgn neg * n := by
  cases neg <;> simp [sgn]

theorem sgn_bne (s t : Bool) : sgn (s != t) = sgn s * sgn t := by cases s <;> cases t <;> simp [sgn]

theorem valNum_fin (neg : Bool) (m : Nat) (e : Int) : valNum (.fin neg m e false) = some (sgn neg * (m * 2 ^ e)) := by
  simp only [valNum, sgn, mul_assoc]

theorem valNum_ofScaled (rm : Rm) (i e : Int) : valNum (ofScaled rm i e) = some ((i : ℚ) * 2 ^ e) := by
  unfold ofScaled
  split
  · next h => subst h; simp [FVal.zero, valNum]
  · rw [valNum_fin]
    congr 1
    by_cases hi : i < 0
    · rw [sgn, if_pos (by simpa using hi), Nat.cast_natAbs, abs_of_neg (by exact_mod_cast hi)]; push_cast; ring
    · rw [sgn, if_neg (by simpa using hi), Nat.cast_natAbs, abs_of_nonneg (by exact_mod_cast not_lt.1 hi), one_mul]

section Exact

variable {a b : FVal} {x y : ℚ} (ha : valNum a = some x) (hb : valNum b = some y)

include ha

theorem valNum_neg : valNum a.neg = some (-x) ∧ a.neg.sign = !a.sign := by
  obtain ⟨m, e, hv, rfl⟩ := valNum_sgn ha
  generalize a.sign = s at *
  subst hv
  refine ⟨?_, rfl⟩
  rw [FVal.neg, valNum_fin]
  cases s <;> simp [sgn]

/-- A number is zero where its significand is. -/
theorem significand_eq_zero_iff {n : Bool} {m : Nat} {e : Int} {st : Bool} (hv : a = .fin n m e st) : m = 0 ↔ x = 0 := by
  obtain ⟨n', m', e', hv', rfl⟩ := valNum_eq_some.1 ha
  rw [hv] at hv'
  cases hv'
  have h1 : (if n then (-1 : ℚ) else 1) ≠ 0 := by cases n <;> simp
  have h2 : (2 : ℚ) ^ e ≠ 0 := by positivity
  rw [mul_eq_zero, mul_eq_zero, or_iff_left h2, or_iff_right h1, Nat.cast_eq_zero]

include hb

/-- R180: the exact sum; a zero of opposite signs is −0 under RD only. -/
theorem valNum_add (rm : Rm) : (a.add rm b).2 = false ∧ valNum (a.add rm b).1 = some (x + y)
    ∧ (x + y = 0 → (a.add rm b).1.sign = if a.sign = b.sign then a.sign else decide (rm = .rd)) := by
  obtain ⟨m, e, hv, rfl⟩ := valNum_sgn ha
  obtain ⟨m', e', hv', rfl⟩ := valNum_sgn hb
  generalize a.sign = s at *
  generalize b.sign = t at *
  subst hv hv'
  unfold FVal.add
  dsimp only
  by_cases hz : m = 0 ∧ m' = 0
  · obtain ⟨rfl, rfl⟩ := hz
    rw [if_pos (by simp)]
    refine ⟨rfl, ?_, fun _ => ?_⟩
    · split <;> simp [FVal.zero, valNum]
    · split <;> simp_all [FVal.zero, FVal.sign]
  · rw [if_neg (by simpa using hz)]
    obtain ⟨lo, hlo, h1, h2⟩ : ∃ lo, (if e ≤ e' then e else e') = lo ∧ lo ≤ e ∧ lo ≤ e' :=
      ⟨_, rfl, by split <;> omega, by split <;> omega⟩
    rw [hlo]
    have hval : (((if s then -((m <<< (e - lo).toNat : Nat) : Int) else (m <<< (e - lo).toNat : Nat))
        + (if t then -((m' <<< (e' - lo).toNat : Nat) : Int) else (m' <<< (e' - lo).toNat : Nat)) : Int) : ℚ) * 2 ^ lo
        = sgn s * (m * 2 ^ e) + sgn t * (m' * 2 ^ e') := by
      rw [Int.cast_add, cast_signed, cast_signed, add_mul, mul_assoc, mul_assoc, shiftLeft_zpow m h1, shiftLeft_zpow m' h2]
    refine ⟨rfl, by rw [valNum_ofScaled, hval], fun h0 => ?_⟩
    rw [← hval] at h0
    have hi := (mul_eq_zero.1 h0).resolve_right (by positivity)
    rw [Int.cast_eq_zero] at hi
    rw [hi]
    have hst : s ≠ t := by
      rintro rfl
      have h3 : m <<< (e - lo).toNat = 0 ∧ m' <<< (e' - lo).toNat = 0 := by
        generalize m <<< (e - lo).toNat = i at *
        generalize m' <<< (e' - lo).toNat = j at *
        cases s
        · simp only [Bool.false_eq_true, if_false] at hi; omega
        · simp only [if_true] at hi; omega
      rw [Nat.shiftLeft_eq, Nat.shiftLeft_eq, mul_eq_zero, mul_eq_zero] at h3
      exact hz ⟨h3.1.resolve_right (by positivity), h3.2.resolve_right (by positivity)⟩
    rw [if_neg hst]
    rfl

/-- R180: the exact product. -/
theorem valNum_mul : (a.mul b).2 = false ∧ valNum (a.mul b).1 = some (x * y) ∧ (a.mul b).1.sign = (a.sign != b.sign) := by
  obtain ⟨m, e, hv, rfl⟩ := valNum_sgn ha
  obtain ⟨m', e', hv', rfl⟩ := valNum_sgn hb
  generalize a.sign = s at *
  generalize b.sign = t at *
  subst hv hv'
  refine ⟨rfl, ?_, rfl⟩
  rw [FVal.mul, valNum_fin, sgn_bne, zpow_add₀ two_ne_zero]
  congr 1
  push_cast
  ring

/-- R32: comparing two numbers. -/
theorem cmp_neg_iff : (a.cmp b < 0 ↔ x < y) ∧ (a.cmp b = 0 ↔ x = y) := by
  obtain ⟨m, e, hv, rfl⟩ := valNum_sgn ha
  obtain ⟨m', e', hv', rfl⟩ := valNum_sgn hb
  generalize a.sign = s at *
  generalize b.sign = t at *
  subst hv hv'
  unfold FVal.cmp
  dsimp only
  obtain ⟨lo, hlo, h1, h2⟩ : ∃ lo, (if e ≤ e' then e else e') = lo ∧ lo ≤ e ∧ lo ≤ e' :=
    ⟨_, rfl, by split <;> omega, by split <;> omega⟩
  rw [hlo]
  have hL := cast_signed s (m <<< (e - lo).toNat)
  have hR := cast_signed t (m' <<< (e' - lo).toNat)
  rw [← shiftLeft_zpow m h1, ← shiftLeft_zpow m' h2, ← mul_assoc, ← mul_assoc, ← hL, ← hR,
    mul_lt_mul_iff_left₀ (by positivity), mul_left_inj' (by positivity), Int.cast_lt, Int.cast_inj]
  generalize (if s then -((m <<< (e - lo).toNat : Nat) : Int) else (m <<< (e - lo).toNat : Nat)) = i
  generalize (if t then -((m' <<< (e' - lo).toNat : Nat) : Int) else (m' <<< (e' - lo).toNat : Nat)) = j
  constructor <;> split <;> (try split) <;> omega

theorem ltZ_iff (hne : x ≠ y) : a.ltZ b = true ↔ x < y := by
  obtain ⟨h1, h2⟩ := cmp_neg_iff ha hb
  unfold FVal.ltZ
  simp [h1, h2, hne]

end Exact

/-! ### Quotients and roots -/

theorem lt_bitLen {n m : Nat} (h : 2 ^ n ≤ m) : n < bitLen m := by
  have hm : m ≠ 0 := fun hc => by have := Nat.two_pow_pos n; omega
  exact (Nat.pow_lt_pow_iff_right (by norm_num)).1 (h.trans_lt (bitLen_bounds hm).2.2)

/-- An integer quotient with its remainder as the sticky bit. -/
theorem magOf_div (n : Nat) {d : Nat} (hd : d ≠ 0) (c : Int) : MagOf (n / d) c (decide (n % d ≠ 0)) ((n : ℝ) / d * 2 ^ c) := by
  have hC : (0 : ℝ) < 2 ^ c := by positivity
  have hD : (0 : ℝ) < d := by exact_mod_cast Nat.pos_of_ne_zero hd
  have hdm : (n : ℝ) = (n / d : Nat) * d + (n % d : Nat) := by exact_mod_cast (Nat.div_add_mod' n d).symm
  have hlt : ((n % d : Nat) : ℝ) < d := by exact_mod_cast Nat.mod_lt n (Nat.pos_of_ne_zero hd)
  refine ⟨?_, ?_, ?_⟩
  · gcongr
    rw [le_div_iff₀ hD]
    have : (0 : ℝ) ≤ (n % d : Nat) := Nat.cast_nonneg _
    linarith
  · gcongr
    rw [div_lt_iff₀ hD, add_mul, one_mul]
    linarith
  · rw [decide_eq_false_iff_not, not_not, mul_left_inj' hC.ne', div_eq_iff hD.ne']
    constructor
    · intro h; rw [h, Nat.cast_zero, add_zero] at hdm; exact hdm
    · intro h
      have : ((n % d : Nat) : ℝ) = 0 := by linarith
      exact_mod_cast this

/-- The root bit by bit: the loop keeps the root between its value and its value and the bits to come. -/
theorem isqrtFrom_spec (n : Nat) (i : Nat) {r : Nat} (h : r * r ≤ n) (h' : n < (r + 2 ^ (i + 1)) * (r + 2 ^ (i + 1))) :
    isqrtFrom n i r * isqrtFrom n i r ≤ n ∧ n < (isqrtFrom n i r + 1) * (isqrtFrom n i r + 1) := by
  induction i generalizing r with
  | zero =>
    unfold isqrtFrom
    split
    · next hc => exact ⟨hc, h'⟩
    · next hc => exact ⟨h, not_le.1 hc⟩
  | succ i ih =>
    unfold isqrtFrom
    dsimp only
    split
    · next hc => exact ih hc (by rw [Nat.add_assoc, ← two_mul, ← pow_succ']; exact h')
    · next hc => exact ih h (not_le.1 hc)

theorem isqrt_spec (n : Nat) : isqrt n * isqrt n ≤ n ∧ n < (isqrt n + 1) * (isqrt n + 1) := by
  refine isqrtFrom_spec n _ (Nat.zero_le _) ?_
  rw [Nat.zero_add, ← pow_add]
  have hlt : n < 2 ^ bitLen n := by
    rcases eq_or_ne n 0 with rfl | hn
    · positivity
    · exact (bitLen_bounds hn).2.2
  exact hlt.trans_le (Nat.pow_le_pow_right (by norm_num) (by omega))

/-- An integer root with its remainder as the sticky bit. -/
theorem magOf_sqrt {n r : Nat} (h : r * r ≤ n) (h' : n < (r + 1) * (r + 1)) (c : Int) :
    MagOf r c (decide (r * r ≠ n)) (Real.sqrt n * 2 ^ c) := by
  have hC : (0 : ℝ) < 2 ^ c := by positivity
  have hR : ((r * r : Nat) : ℝ) ≤ n := by exact_mod_cast h
  have hR' : (n : ℝ) < ((r + 1) * (r + 1) : Nat) := by exact_mod_cast h'
  push_cast at hR hR'
  refine ⟨?_, ?_, ?_⟩
  · gcongr
    exact Real.le_sqrt_of_sq_le (by rw [sq]; exact hR)
  · gcongr
    rw [Real.sqrt_lt' (by positivity), sq]
    exact hR'
  · rw [decide_eq_false_iff_not, not_not, mul_left_inj' hC.ne', Real.sqrt_eq_iff_mul_self_eq (by positivity) (by positivity)]
    exact_mod_cast eq_comm

/-- The quotient of two numbers that are not zero: its sign, its magnitude, and bits enough for any rounding. -/
theorem div_spec {a b : FVal} {x y : ℚ} (ha : valNum a = some x) (hb : valNum b = some y) (hx : x ≠ 0) (hy : y ≠ 0) :
    ∃ m e st, a.div b = (.fin (a.sign != b.sign) m e st, 0) ∧ m ≠ 0 ∧ MagOf m e st |((x / y : ℚ) : ℝ)| ∧ 100 < bitLen m
      ∧ ((x / y : ℚ) : ℝ) = (sgn (a.sign != b.sign) : ℝ) * |((x / y : ℚ) : ℝ)| := by
  obtain ⟨m, e, hv, hxv⟩ := valNum_sgn ha
  obtain ⟨m', e', hv', hyv⟩ := valNum_sgn hb
  have hm := mt (significand_eq_zero_iff ha hv).1 hx
  have hm' := mt (significand_eq_zero_iff hb hv').1 hy
  generalize a.sign = s at *
  generalize b.sign = t at *
  have hmR : (0 : ℝ) < m := by exact_mod_cast Nat.pos_of_ne_zero hm
  have hmR' : (0 : ℝ) < m' := by exact_mod_cast Nat.pos_of_ne_zero hm'
  obtain ⟨k, hk⟩ : ∃ k, 128 + bitLen m' = k := ⟨_, rfl⟩
  have hnum : ((m <<< k : Nat) : ℝ) / m' * 2 ^ (e - e' - k : Int) = m * 2 ^ e / (m' * 2 ^ e') := by
    rw [Nat.shiftLeft_eq, zpow_sub₀ two_ne_zero, zpow_sub₀ two_ne_zero, zpow_natCast]
    push_cast
    field_simp
  have hdiv : ((x / y : ℚ) : ℝ) = (sgn (s != t) : ℝ) * (m * 2 ^ e / (m' * 2 ^ e')) := by
    rw [hxv, hyv, sgn_bne]
    push_cast
    have h1 : (sgn s : ℝ) * sgn s = 1 := by exact_mod_cast sgn_mul_sgn s
    have h2 : (sgn t : ℝ) * sgn t = 1 := by exact_mod_cast sgn_mul_sgn t
    have h3 : (sgn t : ℝ) ≠ 0 := left_ne_zero_of_mul_eq_one h2
    field_simp
    rw [sq, h2, mul_one]
  have habs : |((x / y : ℚ) : ℝ)| = m * 2 ^ e / (m' * 2 ^ e') := by rw [hdiv, abs_sgn_mul _ (by positivity)]
  have hbig : 2 ^ 128 ≤ m <<< k / m' := by
    rw [Nat.le_div_iff_mul_le (Nat.pos_of_ne_zero hm'), Nat.shiftLeft_eq, ← hk, pow_add]
    have h1 := (bitLen_bounds hm').2.2.le
    have h2 := Nat.one_le_iff_ne_zero.2 hm
    calc 2 ^ 128 * m' ≤ 2 ^ 128 * 2 ^ bitLen m' := Nat.mul_le_mul_left _ h1
      _ ≤ m * (2 ^ 128 * 2 ^ bitLen m') := Nat.le_mul_of_pos_left _ h2
  refine ⟨m <<< k / m', e - e' - k, decide (m <<< k % m' ≠ 0), ?_, ?_, ?_, (by norm_num : 100 < 128).trans (lt_bitLen hbig), by rw [habs, hdiv]⟩
  · rw [hv, hv']
    unfold FVal.div
    dsimp only
    rw [if_neg hm', if_neg hm, hk]
  · intro hc
    rw [hc] at hbig
    exact absurd hbig (by norm_num)
  · rw [habs, ← hnum]
    exact magOf_div _ hm' _

/-- The root of a positive number: its magnitude, and bits enough for any rounding. -/
theorem sqrt_spec {a : FVal} {x : ℚ} (ha : valNum a = some x) (hx : 0 < x) :
    ∃ m e st, a.sqrt = (.fin false m e st, false) ∧ m ≠ 0 ∧ MagOf m e st (Real.sqrt x) ∧ 100 < bitLen m := by
  obtain ⟨m, e, hv, hxv⟩ := valNum_sgn ha
  have hm := mt (significand_eq_zero_iff ha hv).1 hx.ne'
  have hs := sign_eq_decide ha hx.ne'
  rw [decide_eq_false (not_lt.2 hx.le)] at hs
  rw [hs] at hv hxv
  rw [sgn, if_neg (by decide), one_mul] at hxv
  obtain ⟨k, hk, hk260⟩ : ∃ k : Nat, (if e % 2 = 0 then 260 else 261) = k ∧ 260 ≤ k := ⟨_, rfl, by split <;> omega⟩
  obtain ⟨c, hc⟩ : ∃ c : Int, e = k + 2 * c := ⟨(e - k) / 2, by rw [← hk]; split <;> omega⟩
  obtain ⟨h1, h2⟩ := isqrt_spec (m <<< k)
  have hval : Real.sqrt x = Real.sqrt ((m <<< k : Nat) : ℝ) * 2 ^ c := by
    have h2c : Real.sqrt ((2 : ℝ) ^ (2 * c)) = 2 ^ c := by
      rw [two_mul, zpow_add₀ two_ne_zero, Real.sqrt_mul_self (by positivity)]
    rw [← h2c, ← Real.sqrt_mul (by positivity), hxv, hc, Nat.shiftLeft_eq, zpow_add₀ two_ne_zero, zpow_natCast]
    push_cast
    rw [mul_assoc]
  have hbig : 2 ^ 125 ≤ isqrt (m <<< k) := by
    have h3 : 2 ^ 250 ≤ m <<< k := by
      rw [Nat.shiftLeft_eq]
      calc 2 ^ 250 ≤ 2 ^ k := Nat.pow_le_pow_right (by norm_num) (by omega)
        _ ≤ m * 2 ^ k := Nat.le_mul_of_pos_left _ (Nat.pos_of_ne_zero hm)
    by_contra hcon
    have h4 : isqrt (m <<< k) + 1 ≤ 2 ^ 125 := by omega
    have h5 := Nat.mul_le_mul h4 h4
    rw [← pow_add] at h5
    exact absurd (h3.trans_lt h2) (not_lt.2 h5)
  refine ⟨isqrt (m <<< k), c, decide (isqrt (m <<< k) * isqrt (m <<< k) ≠ m <<< k), ?_, ?_, ?_, (by norm_num : 100 < 125).trans (lt_bitLen hbig)⟩
  · rw [hv]
    unfold FVal.sqrt
    simp only [Bool.false_eq_true, if_false]
    rw [if_neg hm, hk, show (e - (k : Int)) / 2 = c by omega]
  · intro h0
    rw [h0] at hbig
    exact absurd hbig (by norm_num)
  · rw [hval]
    exact magOf_sqrt h1 h2 c

end Sys2Proof.Machine
end

section
/-! PROOFS. The arithmetic functions round the exact result once (R20, R32, R33, R180). -/

namespace Sys2Proof.Machine

theorem FEnv.raise_zero (env : FEnv) : env.raise 0 = env := by unfold FEnv.raise; simp

theorem FEnv.raise_raise (env : FEnv) (a b : Flags) : (env.raise a).raise b = env.raise (a ||| b) := by
  unfold FEnv.raise; simp [BitVec.or_assoc]

/-! ### A number that the format holds -/

section Float

variable {f : Fmt} {e w b lm tx : Nat} {le : Int} (hf : floatFields f = some (e, w, b)) (ht : TopOf f e w b lm tx le)

theorem encFloat_zero (rm : Rm) (u : Nat) (neg : Bool) (e₀ : Int) : encFloat f rm u (.fin neg 0 e₀ false) = (signBit f neg, 0) := by
  unfold encFloat; rfl

include hf

theorem patNum_signBit (neg : Bool) : patNum f (signBit f neg) = some 0 ∧ signBit f neg < 2 ^ fmtBits f ∧ patSign f (signBit f neg) = neg := by
  have h2 : 0 < 2 ^ e := by positivity
  have hs := (isFloat_of_fields hf).spec
  have hb := (isFloat_of_fields hf).bits
  have heq : signBit f neg = fieldsPat e w neg 0 0 := by
    unfold signBit fieldsPat
    rw [hs]
    cases neg <;> simp [pow_add]
  have hfr : 0 < 2 ^ w := by positivity
  have he := (isFloat_of_fields hf).one_le_exp
  have h4 : 2 ^ 2 ≤ 2 ^ e := Nat.pow_le_pow_right (by norm_num) he
  rw [heq, hb]
  refine ⟨?_, fieldsPat_lt h2 hfr, fieldsPat_sign hf h2 hfr⟩
  rw [patNum_fieldsPat hf h2 hfr, if_neg (by omega)]
  simp [sigOf]

include ht

/-- Encoding a number that the format holds answers its pattern, with no flag, in every mode. -/
theorem encFloat_exact {v : FVal} {z : ℚ} {x : Nat} (hv : valNum v = some z) (hx : x < 2 ^ fmtBits f) (hz : patNum f x = some z)
    (hs : patSign f x = v.sign) (rm : Rm) (u : Nat) : encFloat f rm u v = (x, 0) := by
  obtain ⟨m, e₀, hve, hzv⟩ := valNum_sgn hv
  have hm0 := significand_eq_zero_iff hv hve
  generalize v.sign = neg at *
  subst hve
  rcases eq_or_ne m 0 with rfl | hm
  · obtain ⟨p1, p2, p3⟩ := patNum_signBit hf neg
    rw [encFloat_zero, pat_inj hf hx p2 (hs.trans p3.symm) hz (by rw [p1, hm0.1 rfl])]
  · obtain ⟨k, q, φ, up, inexact, tiny, h, he⟩ := encFloat_step hf ht (neg := neg) hm (magOf_exact m e₀) (fun hc => by cases hc) rm u
    have habs : |(z : ℝ)| = m * 2 ^ e₀ := by rw [hzv]; push_cast; exact abs_sgn_mul neg (by positivity)
    have hQ : (0 : ℝ) < 2 ^ q := by positivity
    have htop : (m : ℝ) * 2 ^ e₀ ≤ lm * 2 ^ le := by rw [← habs]; exact abs_le_of_holds hf ht (Holds.of_pat hx hz)
    have hφ : φ = 0 := by
      have hg := gap_of_canon hf ht (h.canon false) z (Holds.of_pat hx hz)
      rw [habs, h.eq, if_neg (by decide), mul_le_mul_iff_left₀ hQ, mul_le_mul_iff_left₀ hQ] at hg
      have := h.nonneg; have := h.lt_one
      rcases hg with hg | hg <;> linarith
    have hup : up = false := by
      by_contra hc
      exact absurd (h.up_iff.1 (by simpa using hc)).pos (by rw [hφ]; exact lt_irrefl _)
    have hin : inexact = false := by
      by_contra hc
      exact absurd (h.inexact_iff.1 (by simpa using hc)) (by rw [hφ]; exact lt_irrefl _)
    have hkt := h.no_overflow hf ht htop
    obtain ⟨p1, p2, p3, -, -⟩ := pat_packMag hf ht (h.canon up) hkt neg
    rw [he, if_neg (by rw [gtMag_iff]; exact not_lt.2 hkt), hin]
    refine Prod.ext (pat_inj hf p2 hx (p3.trans hs.symm) p1 ?_) (by cases tiny <;> rfl)
    rw [hz, hzv, hup, if_neg (by decide)]
    have heq := h.eq
    rw [hφ, add_zero] at heq
    have : (m : ℚ) * 2 ^ e₀ = k * 2 ^ q := by exact_mod_cast (by push_cast; exact heq : (((m : ℚ) * 2 ^ e₀ : ℚ) : ℝ) = ((k * 2 ^ q : ℚ) : ℝ))
    rw [this]

theorem encodeF_exact {v : FVal} {z : ℚ} {x : Nat} (hv : valNum v = some z) (hx : x < 2 ^ fmtBits f) (hz : patNum f x = some z)
    (hs : patSign f x = v.sign) (int : Bool) (env : FEnv) : encodeF f .rne int v env = (x, env) := by
  rw [encodeF_float hf ht, encFloat_exact hf ht hv hx hz hs]
  exact congrArg (Prod.mk x) env.raise_zero

omit ht in
theorem patNum_mod (x : Nat) : patNum f (x % 2 ^ fmtBits f) = patNum f x ∧ patSign f (x % 2 ^ fmtBits f) = patSign f x := by
  have hb := (isFloat_of_fields hf).bits
  have hsign : patSign f (x % 2 ^ fmtBits f) = patSign f x := by
    unfold patSign
    rw [Nat.testBit_mod_two_pow, decide_eq_true (by omega), Bool.true_and]
  refine ⟨?_, hsign⟩
  have h1 : x % 2 ^ fmtBits f % 2 ^ w = x % 2 ^ w := Nat.mod_mod_of_dvd _ (pow_dvd_pow 2 (by omega))
  have h2 : x % 2 ^ fmtBits f / 2 ^ w % 2 ^ e = x / 2 ^ w % 2 ^ e := by
    rw [hb, show w + e + 1 = w + (e + 1) by omega, pow_add, Nat.mod_mul_right_div_self]
    exact Nat.mod_mod_of_dvd _ (pow_dvd_pow 2 (by omega))
  rw [patNum_float hf, patNum_float hf, h1, h2, hsign]

end Float

/-! ### The formats of arithmetic -/

/-- What the four formats of arithmetic share. -/
structure Arith (f : Fmt) (e w b lm tx : Nat) (le : Int) : Prop where
  fields : floatFields f = some (e, w, b)
  top : TopOf f e w b lm tx le
  isInt : isInt f = false
  frac_le : w ≤ 52
  one : Holds f 1
  raw : f ≠ .raw
  e8 : f ≠ .e8
  inf : f ∈ infFormats
  nan : hasNan f = true

theorem arith_of_mem {f : Fmt} (h : f ∈ arithFormats) : ∃ e w b lm tx le, Arith f e w b lm tx le := by
  have hone : Holds f 1 := by
    simp only [arithFormats, List.mem_cons, List.not_mem_nil, or_false] at h
    rcases h with rfl | rfl | rfl | rfl
    · exact ⟨0x3FF0000000000000, by decide, by norm_num [patNum, floatFields, patSign, fmtBits, infFormats]; exact if_neg (by decide)⟩
    · exact ⟨0x3F800000, by decide, by norm_num [patNum, floatFields, patSign, fmtBits, infFormats]; exact if_neg (by decide)⟩
    · exact ⟨0x3F80, by decide, by norm_num [patNum, floatFields, patSign, fmtBits, infFormats]; exact if_neg (by decide)⟩
    · exact ⟨0x3C00, by decide, by norm_num [patNum, floatFields, patSign, fmtBits, infFormats]; exact if_neg (by decide)⟩
  have hsome : (floatFields f).isSome = true ∧ isInt f = false ∧ ((floatFields f).elim true fun p => p.2.1 ≤ 52) ∧ f ≠ .raw ∧ f ≠ .e8
      ∧ f ∈ infFormats ∧ hasNan f = true := by
    simp only [arithFormats, List.mem_cons, List.not_mem_nil, or_false] at h
    rcases h with rfl | rfl | rfl | rfl <;> decide
  obtain ⟨h1, h2, h3, h4, h5, h6, h7⟩ := hsome
  obtain ⟨⟨e, w, b⟩, hf⟩ := Option.isSome_iff_exists.1 h1
  obtain ⟨lm, tx, le, ht⟩ := exists_topOf hf
  rw [hf] at h3
  exact ⟨e, w, b, lm, tx, le, hf, ht, h2, by simpa using h3, hone, h4, h5, h6, h7⟩

section Arithmetic

variable {f : Fmt} {e w b lm tx : Nat} {le : Int} (hA : Arith f e w b lm tx le)

include hA

theorem Arith.abs_le_top {lo hi : ℚ} {y : ℝ} (hlo : Holds f lo) (hhi : Holds f hi) (h1 : lo ≤ y) (h2 : y ≤ hi) : |y| ≤ lm * 2 ^ le := by
  have hl := abs_le.1 (abs_le_of_holds hA.fields hA.top hlo)
  have hh := abs_le.1 (abs_le_of_holds hA.fields hA.top hhi)
  exact abs_le.2 ⟨by linarith [hl.1], by linarith [hh.2]⟩

theorem Arith.one_le : (1 : ℝ) ≤ lm * 2 ^ le := by
  simpa using abs_le_of_holds hA.fields hA.top hA.one

/-- A valid result is encoded as it is. -/
theorem Arith.roundRes (rm : Rm) (r : FVal × Bool) (env : FEnv) (h : r.2 = false) : roundRes f rm r env = encodeF f rm false r.1 env := by
  unfold Machine.roundRes; rw [h, hA.isInt]; rfl

theorem Arith.encodeF_nan (rm : Rm) (int : Bool) (env : FEnv) : (encodeF f rm int .nan env).2.flags = env.flags := by
  rw [(Machine.encodeF_nan hA.raw hA.e8 rm int env).2, if_pos hA.nan, flags_or_zero]

/-- An infinity encodes as itself, with no flag. -/
theorem Arith.encodeF_inf (rm : Rm) (int neg : Bool) (env : FEnv) : (encodeF f rm int (.inf neg) env).1 = infPat f neg
    ∧ (encodeF f rm int (.inf neg) env).2.flags = env.flags := by
  have hF := isFloat_of_fields hA.fields
  have henc : ∀ u, encFloat f rm u (.inf neg) = (infPat f neg, 0) := fun u => by
    unfold encFloat infPat
    simp only [hF.inf, hA.inf, decide_true, if_true, hA.fields, infBits, hF.spec, signBit]
    cases neg <;> simp [Nat.add_comm]
  rw [encodeF_float hA.fields hA.top, henc, draw_raise_flags]
  exact ⟨rfl, flags_or_zero _⟩

section Numbers

variable {rm : Rm} (env : FEnv) {u v : FVal} {x y lo hi : ℚ} (hu : valNum u = some x) (hv : valNum v = some y)
  (hlo : Holds f lo) (hhi : Holds f hi)

include hu hlo hhi

/-- An exact result between two numbers of the format is rounded once. -/
theorem Arith.rounded (h1 : lo ≤ x) (h2 : x ≤ hi) : Rounded f rm x u.sign env (encodeF f rm false u env) :=
  rounded_between hA.raw hA.e8 rm false env hu hlo hhi h1 h2

include hv

theorem Arith.rounded_add (hne : x + y ≠ 0) (h1 : lo ≤ x + y) (h2 : x + y ≤ hi) :
    Rounded f rm (x + y : ℚ) (decide (x + y < 0)) env (addF f rm u v env) := by
  obtain ⟨hok, hval, -⟩ := valNum_add hu hv rm
  rw [addF, hA.roundRes rm _ env hok, ← sign_eq_decide hval hne]
  exact hA.rounded env hval hlo hhi h1 h2

theorem Arith.rounded_mul (h1 : lo ≤ x * y) (h2 : x * y ≤ hi) :
    Rounded f rm (x * y : ℚ) (u.sign != v.sign) env (mulF f rm u v env) := by
  obtain ⟨hok, hval, hs⟩ := valNum_mul hu hv
  rw [mulF, hA.roundRes rm _ env hok, ← hs]
  exact hA.rounded env hval hlo hhi h1 h2

theorem Arith.rounded_div (hne : y ≠ 0) (h1 : lo ≤ x / y) (h2 : x / y ≤ hi) :
    Rounded f rm (x / y : ℚ) (u.sign != v.sign) env (divF f rm u v env) := by
  have hb := hA.abs_le_top (y := (x / y : ℚ)) hlo hhi (by exact_mod_cast h1) (by exact_mod_cast h2)
  unfold divF
  rcases eq_or_ne x 0 with hx | hx
  · obtain ⟨m, e₀, hue, -⟩ := valNum_sgn hu
    obtain ⟨m', e₀', hve, -⟩ := valNum_sgn hv
    have hm := (significand_eq_zero_iff hu hue).2 hx
    have hm' := mt (significand_eq_zero_iff hv hve).1 hne
    have hdiv : u.div v = (.zero (u.sign != v.sign), 0) := by
      generalize u.sign = s at *
      generalize v.sign = t at *
      rw [hue, hve]
      unfold FVal.div
      dsimp only
      rw [if_neg hm', if_pos hm]
    rw [hdiv]
    dsimp only
    rw [env.raise_zero, hx, zero_div]
    have h0 : Holds f 0 := ⟨_, (patNum_signBit hA.fields false).2.1, (patNum_signBit hA.fields false).1⟩
    exact hA.rounded env (u := .zero (u.sign != v.sign)) (by simp [FVal.zero, valNum]) h0 h0 le_rfl le_rfl
  · obtain ⟨m, e₀, st, hdiv, hm, hmag, hbits, hsgn⟩ := div_spec hu hv hx hne
    rw [hdiv]
    dsimp only
    rw [env.raise_zero, hsgn]
    have := hA.frac_le
    exact rounded_encodeF hA.fields hA.top hm hmag (fun _ => by omega) hb rm false env

end Numbers

theorem Arith.rounded_sqrt {rm : Rm} (env : FEnv) {u : FVal} {x : ℚ} (hu : valNum u = some x) (hx : Holds f x) (hpos : 0 < x) :
    Rounded f rm (Real.sqrt x) false env (sqrtF f rm u env) := by
  obtain ⟨m, e₀, st, hs, hm, hmag, hbits⟩ := sqrt_spec hu hpos
  have hle : Real.sqrt x ≤ lm * 2 ^ le := by
    have h1 := hA.one_le
    have h2 := (le_abs_self _).trans (abs_le_of_holds hA.fields hA.top hx)
    refine Real.sqrt_le_iff.2 ⟨by linarith, ?_⟩
    nlinarith
  rw [sqrtF, hA.roundRes rm _ env (by rw [hs]), hs]
  have := hA.frac_le
  have h := rounded_encodeF (neg := false) hA.fields hA.top hm hmag (fun _ => by omega) hle rm false env
  rw [cast_sgn_false, one_mul] at h
  exact h

/-- R180: a quotient by zero. -/
theorem Arith.div_zero {rm : Rm} (env : FEnv) {u v : FVal} {x : ℚ} (hu : valNum u = some x) (hv : valNum v = some 0) :
    (divF f rm u v env).2.flags = env.flags ||| (if x = 0 then 1 else 2)
    ∧ (x ≠ 0 → (divF f rm u v env).1 = infPat f (u.sign != v.sign)) := by
  obtain ⟨m, e₀, hue, -⟩ := valNum_sgn hu
  obtain ⟨m', e₀', hve, -⟩ := valNum_sgn hv
  have hm := significand_eq_zero_iff hu hue
  have hm' := (significand_eq_zero_iff hv hve).2 rfl
  have hdiv : u.div v = if x = 0 then (.nan, fNV) else (.inf (u.sign != v.sign), fDZ) := by
    generalize u.sign = s at *
    generalize v.sign = t at *
    rw [hue, hve]
    unfold FVal.div
    dsimp only
    rw [if_pos hm', if_congr hm rfl rfl]
  unfold divF
  rw [hdiv]
  by_cases hx : x = 0
  · rw [if_pos hx, if_pos hx]
    exact ⟨hA.encodeF_nan rm false _, fun hc => absurd hx hc⟩
  · rw [if_neg hx, if_neg hx]
    obtain ⟨h1, h2⟩ := hA.encodeF_inf rm false (u.sign != v.sign) (env.raise fDZ)
    exact ⟨h2, fun _ => h1⟩

theorem Arith.sqrt_neg {rm : Rm} (env : FEnv) {u : FVal} {x : ℚ} (hu : valNum u = some x) (hneg : x < 0) :
    sqrtF f rm u env = encodeF f rm false .nan (env.raise 1) := by
  obtain ⟨m, e₀, hue, -⟩ := valNum_sgn hu
  have hm := mt (significand_eq_zero_iff hu hue).1 hneg.ne
  have hs := sign_eq_decide hu hneg.ne
  rw [decide_eq_true hneg] at hs
  rw [hs] at hue
  have : u.sqrt = (.nan, true) := by
    rw [hue]
    unfold FVal.sqrt
    dsimp only
    rw [if_neg hm, if_pos rfl]
  unfold sqrtF Machine.roundRes
  rw [this, hA.isInt]
  rfl

/-- A pattern's own value encodes to the pattern. -/
theorem Arith.exactBits_decodeF {p : Nat} {x : ℚ} (hp : patNum f p = some x) : exactBits f (decodeF f p) = p % 2 ^ fmtBits f := by
  obtain ⟨h1, h2⟩ := patNum_mod hA.fields p
  have hv := valNum_decodeF hp
  have hs := sign_decodeF (x := p) (Option.isSome_iff_exists.2 ⟨_, hA.fields⟩) fun hc => by rw [hc] at hv; cases hv
  unfold exactBits
  rw [encodeF_exact hA.fields hA.top hv (Nat.mod_lt _ (by positivity)) (by rw [h1, hp]) (by rw [h2, hs])]

/-- R32: MAX and MIN of two different numbers. -/
theorem Arith.max_min {p q : Nat} {x y : ℚ} (hp : patNum f p = some x) (hq : patNum f q = some y) (hne : x ≠ y) :
    exactBits f ((decodeF f p).max (decodeF f q)) = (if x < y then q else p) % 2 ^ fmtBits f
    ∧ exactBits f ((decodeF f p).min (decodeF f q)) = (if x < y then p else q) % 2 ^ fmtBits f := by
  have hx := hA.exactBits_decodeF hp
  have hy := hA.exactBits_decodeF hq
  have hu := valNum_decodeF hp
  have hv := valNum_decodeF hq
  have hlt := ltZ_iff hu hv hne
  have hgt := ltZ_iff hv hu hne.symm
  obtain ⟨m, e₀, hue, -⟩ := valNum_sgn hu
  obtain ⟨m', e₀', hve, -⟩ := valNum_sgn hv
  have hmax : (decodeF f p).max (decodeF f q) = if x < y then decodeF f q else decodeF f p := by
    rw [← if_congr hlt rfl rfl, hue, hve]
    rfl
  have hmin : (decodeF f p).min (decodeF f q) = if y < x then decodeF f q else decodeF f p := by
    rw [← if_congr hgt rfl rfl, hue, hve]
    rfl
  rw [hmax, hmin]
  rcases lt_or_gt_of_ne hne with h | h
  · rw [if_pos h, if_pos h, if_neg h.not_gt, if_pos h]
    exact ⟨hy, hx⟩
  · rw [if_neg h.not_gt, if_neg h.not_gt, if_pos h, if_neg h.not_gt]
    exact ⟨hx, hy⟩

/-- R180: a NaN source gives NaN without a flag. -/
theorem Arith.nan_sources (rm : Rm) (env : FEnv) (v w : FVal) :
    addF f rm .nan v env = encodeF f rm false .nan env ∧ addF f rm v .nan env = encodeF f rm false .nan env
    ∧ mulF f rm .nan v env = encodeF f rm false .nan env ∧ mulF f rm v .nan env = encodeF f rm false .nan env
    ∧ divF f rm .nan v env = encodeF f rm false .nan env ∧ sqrtF f rm .nan env = encodeF f rm false .nan env
    ∧ fmaF f rm .nan v w env = encodeF f rm false .nan env ∧ fmaF f rm v w .nan env = encodeF f rm false .nan env := by
  have hadd : ∀ u, FVal.add rm u .nan = (.nan, false) := fun u => by cases u <;> rfl
  have hmul : ∀ u, FVal.mul u .nan = (.nan, false) := fun u => by cases u <;> rfl
  have hround := hA.roundRes rm (.nan, false) env rfl
  refine ⟨?_, ?_, ?_, ?_, ?_, hround, ?_, ?_⟩
  · exact hround
  · rw [addF, hadd, hround]
  · exact hround
  · rw [mulF, hmul, hround]
  · exact congrArg (encodeF f rm false .nan) env.raise_zero
  · exact hround
  · unfold fmaF
    simp only [hadd, decide_true, Bool.or_true, Bool.not_true, Bool.and_false]
    exact hround

/-- R33, R180: infinities, and the order of zeros. -/
theorem Arith.special_sources (rm : Rm) (env : FEnv) (v : FVal) (s t : Bool) (m : Nat) (e₀ : Int) :
    addF f rm (.inf s) (.inf !s) env = encodeF f rm false .nan (env.raise 1)
    ∧ addF f rm (.inf s) (.inf s) env = encodeF f rm false (.inf s) env
    ∧ mulF f rm (.inf s) (.fin t 0 e₀ false) env = encodeF f rm false .nan (env.raise 1)
    ∧ divF f rm (.inf s) (.inf t) env = encodeF f rm false .nan (env.raise 1)
    ∧ (m ≠ 0 → mulF f rm (.inf s) (.fin t m e₀ false) env = encodeF f rm false (.inf (s != t)) env)
    ∧ FVal.max .nan v = .nan ∧ FVal.max v .nan = .nan ∧ FVal.min .nan v = .nan ∧ FVal.min v .nan = .nan
    ∧ exactBits f (FVal.max (.zero true) (.zero false)) = 0
    ∧ exactBits f (FVal.min (.zero false) (.zero true)) = 2 ^ (fmtBits f - 1) := by
  have hInt := hA.isInt
  have hinvalid : Machine.roundRes f rm (.nan, true) env = encodeF f rm false .nan (env.raise 1) := by
    unfold Machine.roundRes; rw [hInt]; rfl
  obtain ⟨p1, p2, p3⟩ := patNum_signBit hA.fields false
  obtain ⟨n1, n2, n3⟩ := patNum_signBit hA.fields true
  have hF := isFloat_of_fields hA.fields
  refine ⟨?_, ?_, hinvalid, rfl, fun hm => ?_, rfl, by cases v <;> rfl, rfl, by cases v <;> rfl, ?_, ?_⟩
  · rw [addF, ← hinvalid]
    cases s <;> rfl
  · rw [addF, ← hA.roundRes rm (.inf s, false) env rfl]
    cases s <;> rfl
  · rw [mulF, ← hA.roundRes rm (.inf (s != t), false) env rfl, FVal.mul, if_neg hm]
  · change exactBits f (.zero false) = 0
    unfold exactBits
    rw [encodeF_exact hA.fields hA.top (v := .zero false) (z := 0) (by simp [FVal.zero, valNum]) p2 p1 p3]
    rfl
  · change exactBits f (.zero true) = _
    unfold exactBits
    rw [encodeF_exact hA.fields hA.top (v := .zero true) (z := 0) (by simp [FVal.zero, valNum]) n2 n1 n3, hF.bits, signBit, hF.spec]
    rfl

end Arithmetic

end Sys2Proof.Machine
end

section
/-! PROOFS. FP32 to nearest even: what a rounding depends on, and its range (R24, R35). -/

namespace Sys2Proof.Machine

/-! ### A rounding depends on the number alone -/

/-- The multiple and the fraction of a magnitude on a grid. -/
theorem OnGrid.unique {k r s k' r' s' : Nat} {st st' : Bool} {q : Int} {a φ φ' : ℝ} (h : OnGrid k r s st q a φ)
    (h' : OnGrid k' r' s' st' q a φ') : k = k' ∧ φ = φ' := by
  have hQ : (0 : ℝ) < 2 ^ q := by positivity
  have heq : (k : ℝ) + φ = k' + φ' := mul_right_cancel₀ hQ.ne' (h.eq.symm.trans h'.eq)
  have h0 := h.nonneg; have h1 := h.lt_one; have h0' := h'.nonneg; have h1' := h'.lt_one
  have hk : k = k' := by
    have h2 : (k : ℝ) < (k' + 1 : Nat) := by push_cast; linarith
    have h3 : (k' : ℝ) < (k + 1 : Nat) := by push_cast; linarith
    have h2' : k < k' + 1 := by exact_mod_cast h2
    have h3' : k' < k + 1 := by exact_mod_cast h3
    omega
  subst hk
  exact ⟨rfl, by linarith⟩

section Float

variable {f : Fmt} {e w b lm tx : Nat} {le : Int} (hf : floatFields f = some (e, w, b)) (ht : TopOf f e w b lm tx le)

include hf

/-- What the encoder answers depends on the magnitude alone, not on the significand that stands for it. -/
theorem encFloat_congr {neg st st' : Bool} {m m' : Nat} {e₀ e₀' : Int} {a : ℝ} (hm : m ≠ 0) (hm' : m' ≠ 0) (h : MagOf m e₀ st a)
    (h' : MagOf m' e₀' st' a) (hst : st = true → w + 25 ≤ bitLen m) (hst' : st' = true → w + 25 ≤ bitLen m') (rm : Rm) (u : Nat) :
    encFloat f rm u (.fin neg m e₀ st) = encFloat f rm u (.fin neg m' e₀' st') := by
  have hs := (isFloat_of_fields hf).spec
  obtain ⟨l1, l2⟩ := h.lead hm
  obtain ⟨l1', l2'⟩ := h'.lead hm'
  obtain ⟨lead, hlead⟩ : ∃ lead, e₀ + (bitLen m : Int) - 1 = lead := ⟨_, rfl⟩
  have hlead' : e₀' + (bitLen m' : Int) - 1 = lead := by
    have h3 := (zpow_lt_zpow_iff_right₀ (one_lt_two (α := ℝ))).1 (l1.trans_lt l2')
    have h4 := (zpow_lt_zpow_iff_right₀ (one_lt_two (α := ℝ))).1 (l1'.trans_lt l2)
    omega
  have hgrid : ∀ q, lead - w ≤ q → (gridOf m e₀ q).1 = (gridOf m' e₀' q).1
      ∧ (decide ((gridOf m e₀ q).2.1 ≠ 0) || st) = (decide ((gridOf m' e₀' q).2.1 ≠ 0) || st')
      ∧ ∀ rm u, roundsUp rm neg (gridOf m' e₀' q).1 (gridOf m e₀ q).2.1 (gridOf m e₀ q).2.2 st u
        = roundsUp rm neg (gridOf m' e₀' q).1 (gridOf m' e₀' q).2.1 (gridOf m' e₀' q).2.2 st' u := fun q hq => by
    obtain ⟨φ, hg⟩ := h.onGrid (q := q) fun hc => by have := hst hc; omega
    obtain ⟨φ', hg'⟩ := h'.onGrid (q := q) fun hc => by have := hst' hc; omega
    obtain ⟨hk, rfl⟩ := hg.unique hg'
    refine ⟨hk, Bool.eq_iff_iff.2 (hg.inexact_iff.trans hg'.inexact_iff.symm), fun rm u => ?_⟩
    rw [hk] at hg
    exact Bool.eq_iff_iff.2 ((hg.roundsUp_iff rm neg u).trans (hg'.roundsUp_iff rm neg u).symm)
  obtain ⟨q, hq⟩ : ∃ q, (if lead - w < 1 - (b : Int) - w then 1 - (b : Int) - w else lead - w) = q := ⟨_, rfl⟩
  obtain ⟨g1, g2, g3⟩ := hgrid q (by rw [← hq]; split <;> omega)
  obtain ⟨n1, -, n3⟩ := hgrid (lead - w) le_rfl
  unfold encFloat
  simp only [hs, hlead, hlead', hq, g1, g2, g3, n1, n3]
  rw [if_neg (show ¬ (decide (m = 0) && !st) = true by simp [hm]), if_neg (show ¬ (decide (m' = 0) && !st') = true by simp [hm'])]

include ht

/-- Two values of one number and one sign encode alike. -/
theorem encodeF_congr {v v' : FVal} {y : ℚ} (hv : valNum v = some y) (hv' : valNum v' = some y) (hs : v.sign = v'.sign) (rm : Rm)
    (int : Bool) (env : FEnv) : encodeF f rm int v env = encodeF f rm int v' env := by
  obtain ⟨m, e₀, hve, hy⟩ := valNum_sgn hv
  obtain ⟨m', e₀', hve', hy'⟩ := valNum_sgn hv'
  have hm := significand_eq_zero_iff hv hve
  have hm' := significand_eq_zero_iff hv' hve'
  rw [← hs] at hve' hy'
  generalize v.sign = s at *
  rw [encodeF_float hf ht, encodeF_float hf ht, hve, hve']
  suffices hE : encFloat f rm (env.draw rm).1 (.fin s m e₀ false) = encFloat f rm (env.draw rm).1 (.fin s m' e₀' false) by rw [hE]
  by_cases h0 : y = 0
  · rw [hm.2 h0, hm'.2 h0, encFloat_zero, encFloat_zero]
  · have hmag : (m : ℝ) * 2 ^ e₀ = m' * 2 ^ e₀' := by
      have hsg : sgn s ≠ 0 := by cases s <;> simp [sgn]
      have hq := congrArg (fun t : ℚ => (t : ℝ)) (mul_left_cancel₀ hsg (hy.symm.trans hy'))
      push_cast at hq
      exact hq
    exact encFloat_congr hf (mt hm.1 h0) (mt hm'.1 h0) (magOf_exact m e₀) (hmag ▸ magOf_exact m' e₀') (fun hc => by cases hc)
      (fun hc => by cases hc) rm _

/-! ### To nearest even, up to half a unit above the largest number -/

/-- Less than half a unit above the largest number, the multiple below is the largest number. -/
theorem EncStep.eq_largest {rm : Rm} {neg up inexact tiny : Bool} {u k : Nat} {a φ : ℝ} {q : Int}
    (h : EncStep w b lm le rm neg u a k q φ up inexact tiny) (h1 : lm * 2 ^ le < a) (h2 : a < lm * 2 ^ le + 2 ^ le / 2) :
    k = lm ∧ q = le := by
  have hL : (0 : ℝ) < 2 ^ le := by positivity
  have hQ : (0 : ℝ) < 2 ^ q := by positivity
  have hlo : (lm : ℝ) * 2 ^ le ≤ k * 2 ^ q := by
    have hg := gap_of_canon hf ht (h.canon false) _ (holds_largest hf ht false)
    rw [show |((sgn false * (lm * 2 ^ le) : ℚ) : ℝ)| = lm * 2 ^ le by push_cast; exact abs_sgn_mul false (by positivity)] at hg
    rcases hg with hg | hg
    · simpa using hg
    · have hlt : (k : ℝ) + φ < k + 1 := by linarith [h.lt_one]
      have := mul_lt_mul_of_pos_right hlt hQ
      rw [← h.eq] at this
      simp only [Bool.false_eq_true, if_false] at hg
      linarith
  have hhi : (k : ℝ) * 2 ^ q < lm * 2 ^ le + 2 ^ le := by
    have : (k : ℝ) * 2 ^ q ≤ a := by rw [h.eq]; gcongr; linarith [h.nonneg]
    linarith
  have hqle : le ≤ q := by
    by_contra hc
    have hk : (k : ℝ) < 2 ^ (w + 1) := by exact_mod_cast h.lt
    have hlm : (2 : ℝ) ^ w ≤ lm := by exact_mod_cast ht.full
    have : (k : ℝ) * 2 ^ q < lm * 2 ^ le := by
      calc (k : ℝ) * 2 ^ q < 2 ^ (w + 1) * 2 ^ q := by gcongr
        _ ≤ 2 ^ (w + 1) * 2 ^ (le - 1) := by gcongr; exact one_le_two; omega
        _ = 2 ^ w * 2 ^ le := by rw [zpow_sub_one₀ two_ne_zero, pow_succ]; ring
        _ ≤ lm * 2 ^ le := by gcongr
    linarith
  obtain ⟨j, rfl⟩ : ∃ j : Nat, q = le + j := ⟨(q - le).toNat, by omega⟩
  rw [zpow_add₀ two_ne_zero, zpow_natCast, mul_comm ((2 : ℝ) ^ le), ← mul_assoc] at hlo hhi
  have hlo' : lm ≤ k * 2 ^ j := by exact_mod_cast le_of_mul_le_mul_right hlo hL
  have hhi' : k * 2 ^ j < lm + 1 := by
    have : ((k * 2 ^ j : Nat) : ℝ) < (lm + 1 : Nat) := by
      push_cast
      exact lt_of_mul_lt_mul_right (by rw [add_mul, one_mul]; exact hhi) hL.le
    exact_mod_cast this
  have heq : k * 2 ^ j = lm := by omega
  have hj : j = 0 := by
    by_contra hc
    have h3 : 2 * k ≤ k * 2 ^ j := by
      rw [Nat.mul_comm]
      exact Nat.mul_le_mul_left k (by calc 2 = 2 ^ 1 := rfl
        _ ≤ 2 ^ j := Nat.pow_le_pow_right (by norm_num) (by omega))
    have h4 := ht.lt
    rw [pow_succ] at h4
    have hq := h.full.resolve_left (by omega)
    have := ht.exp
    have := ht.pos
    omega
  subst hj
  exact ⟨by simpa using heq, by simp⟩

/-- R24: to nearest even, up to half a unit above the largest number. -/
theorem encFloat_rne {neg st : Bool} {m : Nat} {e₀ : Int} {a : ℝ} (hm : m ≠ 0) (h : MagOf m e₀ st a)
    (hst : st = true → w + 25 ≤ bitLen m) (ha : a < lm * 2 ^ le + 2 ^ le / 2) (u : Nat) :
    RoundsTo f .rne 0 ((sgn neg : ℝ) * a) (encFloat f .rne u (.fin neg m e₀ st)).1
    ∧ patSign f (encFloat f .rne u (.fin neg m e₀ st)).1 = neg := by
  obtain ⟨k, q, φ, up, inexact, tiny, hs, he⟩ := encFloat_step hf ht (neg := neg) hm h hst .rne u
  have hL : (0 : ℝ) < 2 ^ le := by positivity
  have hup : up = true ↔ UpSpec .rne neg k u φ := hs.up_iff
  have htop : ((if up then k + 1 else k : Nat) : ℝ) * 2 ^ q ≤ lm * 2 ^ le := by
    rcases le_or_gt a (lm * 2 ^ le) with h1 | h1
    · exact hs.no_overflow hf ht h1
    · obtain ⟨rfl, rfl⟩ := hs.eq_largest hf ht h1 ha
      have hφ : φ < 1 / 2 := by
        rw [hs.eq, add_mul] at ha
        nlinarith
      have hu : up = false := by
        by_contra hc
        rcases hup.1 (by simpa using hc) with h2 | ⟨h2, -⟩ <;> linarith
      rw [hu]
      simp
  rw [he, if_neg (by rw [gtMag_iff]; exact not_lt.2 htop)]
  obtain ⟨p1, p2, p3, p4, -⟩ := pat_packMag hf ht (hs.canon up) htop neg
  refine ⟨?_, p3⟩
  rw [hs.eq]
  exact roundsTo_of_grid hs.nonneg hs.lt_one p2 p1 p4 hup (gap_of_canon hf ht (hs.canon false)) fun hc => by cases hc

end Float

/-! ### Nearest numbers -/

section Nearest

variable {y : ℝ} {q z : ℚ}

/-- To nearest even, a number on the other side of a held one stays there. -/
theorem Rne32.le (h : Rne32 y q) (hz : Holds .fp32 z) (hy : y ≤ z) : q ≤ z := by
  obtain ⟨x, ⟨r, -, hr, hnear⟩, hq⟩ := h
  obtain rfl : r = q := Option.some.inj (hr.symm.trans hq)
  by_contra hc
  have hc' : (z : ℝ) < r := by exact_mod_cast not_le.1 hc
  have h1 : |(r : ℝ) - y| = r - y := abs_of_nonneg (by linarith)
  have h2 : |(z : ℝ) - y| = z - y := abs_of_nonneg (by linarith)
  rcases hnear z hz with h3 | h3 | ⟨h3, -⟩
  · exact hc h3.ge
  · linarith
  · linarith

theorem Rne32.ge (h : Rne32 y q) (hz : Holds .fp32 z) (hy : z ≤ y) : z ≤ q := by
  obtain ⟨x, ⟨r, -, hr, hnear⟩, hq⟩ := h
  obtain rfl : r = q := Option.some.inj (hr.symm.trans hq)
  by_contra hc
  have hc' : (r : ℝ) < z := by exact_mod_cast not_le.1 hc
  have h1 : |(r : ℝ) - y| = y - r := by rw [abs_sub_comm, abs_of_nonneg (by linarith)]
  have h2 : |(z : ℝ) - y| = y - z := by rw [abs_sub_comm, abs_of_nonneg (by linarith)]
  rcases hnear z hz with h3 | h3 | ⟨h3, -⟩
  · exact hc h3.le
  · linarith
  · linarith

theorem Rne32.holds (h : Rne32 y q) : Holds .fp32 q := by
  obtain ⟨x, ⟨r, hx, -, -⟩, hq⟩ := h
  exact ⟨x, hx, hq⟩

end Nearest

/-! ### FP32 -/

theorem fp32_fields : floatFields .fp32 = some (8, 23, 127) := rfl

theorem fp32_top : TopOf .fp32 8 23 127 (2 ^ 24 - 1) 254 104 := by constructor <;> decide

theorem sign_decodeF_fp32 {x : Nat} {q : ℚ} (hx : patNum .fp32 x = some q) : (decodeF .fp32 x).sign = patSign .fp32 x :=
  sign_decodeF rfl fun hc => by
    have := valNum_decodeF hx
    rw [hc] at this
    cases this

/-- A value that FP32 holds: the decoding of the pattern of a number. -/
structure IsPat (v : FVal) (x : Nat) (q : ℚ) : Prop where
  lt : x < 2 ^ 32
  eq : v = decodeF .fp32 x
  num : patNum .fp32 x = some q

section IsPat

variable {v : FVal} {x : Nat} {q : ℚ} (h : IsPat v x q)

include h

theorem IsPat.val : valNum v = some q := h.eq ▸ valNum_decodeF h.num

theorem IsPat.sign : v.sign = patSign .fp32 x := h.eq ▸ sign_decodeF_fp32 h.num

theorem IsPat.holds : Holds .fp32 q := ⟨x, h.lt, h.num⟩

/-- Such a value is encoded to its pattern. -/
theorem IsPat.encode (int : Bool) (env : FEnv) : encodeF .fp32 .rne int v env = (x, env) :=
  encodeF_exact fp32_fields fp32_top h.val h.lt h.num h.sign.symm int env

theorem IsPat.r32 : r32 v = v := by
  unfold Machine.r32
  rw [h.encode, ← h.eq]

end IsPat

/-- Below half a unit above the largest number, R35's rounding answers a number of FP32, the nearest one. -/
theorem r32_of_mag {neg st : Bool} {m : Nat} {e₀ : Int} {a : ℝ} (hm : m ≠ 0) (h : MagOf m e₀ st a) (hst : st = true → 48 ≤ bitLen m)
    (ha : a < 2 ^ 128 - 2 ^ 103) : ∃ x q, IsPat (r32 (.fin neg m e₀ st)) x q ∧ Rne32 ((sgn neg : ℝ) * a) q ∧ patSign .fp32 x = neg := by
  have hlim : ((2 ^ 24 - 1 : Nat) : ℝ) * 2 ^ (104 : Int) + 2 ^ (104 : Int) / 2 = 2 ^ 128 - 2 ^ 103 := by
    push_cast
    norm_num
  obtain ⟨hr, hs⟩ := encFloat_rne (neg := neg) fp32_fields fp32_top hm h hst (hlim ▸ ha) 0
  obtain ⟨q, hx, hq, hnear⟩ := id hr
  exact ⟨_, q, ⟨hx, rfl, hq⟩, ⟨_, hr, hq⟩, hs⟩

theorem r32_of_num {v : FVal} {y : ℚ} (hv : valNum v = some y) (hy : |y| < 2 ^ 128 - 2 ^ 103) :
    ∃ x q, IsPat (r32 v) x q ∧ Rne32 y q ∧ patSign .fp32 x = v.sign := by
  obtain ⟨m, e₀, hve, hyv⟩ := valNum_sgn hv
  have hm := significand_eq_zero_iff hv hve
  rcases eq_or_ne m 0 with h0 | h0
  · obtain ⟨p1, p2, p3⟩ := patNum_signBit fp32_fields v.sign
    have hy0 := hm.1 h0
    have henc := encodeF_exact fp32_fields fp32_top hv p2 (by rw [p1, hy0]) p3 false ⟨0, 0⟩
    have hr : r32 v = decodeF .fp32 (signBit .fp32 v.sign) := by unfold r32; rw [henc]
    refine ⟨_, 0, ⟨p2, hr, p1⟩, ⟨_, ⟨0, p2, p1, fun z hz => ?_⟩, p1⟩, p3⟩
    rw [hy0]
    rcases eq_or_ne z 0 with hz0 | hz0
    · exact .inl hz0
    · exact .inr (.inl (by simpa using hz0))
  · rw [hyv, abs_mul, abs_sgn, one_mul, abs_of_nonneg (by positivity)] at hy
    have hyR := (Rat.cast_lt (K := ℝ)).2 hy
    push_cast at hyR
    obtain ⟨x, q, h1, h2, h3⟩ := r32_of_mag (neg := v.sign) h0 (magOf_exact m e₀) (fun hc => by cases hc) hyR
    rw [← hve] at h1
    refine ⟨x, q, h1, ?_, h3⟩
    rw [hyv]
    push_cast
    exact h2

/-- Two values of one number and one sign round alike. -/
theorem r32_congr {v v' : FVal} {y : ℚ} (hv : valNum v = some y) (hv' : valNum v' = some y) (hs : v.sign = v'.sign) : r32 v = r32 v' := by
  unfold r32
  rw [encodeF_congr fp32_fields fp32_top hv hv' hs]

/-- A held number has a pattern of a sign that suits it. -/
theorem exists_isPat {v : FVal} {z : ℚ} (hv : valNum v = some z) (hz : Holds .fp32 z) :
    ∃ x, x < 2 ^ 32 ∧ patNum .fp32 x = some z ∧ patSign .fp32 x = v.sign := by
  rcases eq_or_ne z 0 with rfl | h0
  · obtain ⟨p1, p2, p3⟩ := patNum_signBit fp32_fields v.sign
    exact ⟨_, p2, p1, p3⟩
  · obtain ⟨x, hx, hxz⟩ := hz
    refine ⟨x, hx, hxz, ?_⟩
    rw [sign_eq_decide hv h0, ← sign_decodeF_fp32 hxz, sign_eq_decide (valNum_decodeF hxz) h0]

end Sys2Proof.Machine
end

section
/-! PROOFS. The numbers of FP32, constants to nearest even, the flush, and the special sources (R35, R36). -/

namespace Sys2Proof.Machine

/-! ### Numbers that a format holds -/

section Float

variable {f : Fmt} {e w b lm tx : Nat} {le : Int} (hf : floatFields f = some (e, w, b)) (ht : TopOf f e w b lm tx le)

include hf ht

/-- A significand of at most `w` + 1 bits on a grid of the format, within its range, is held. -/
theorem holds_of_lt {k : Nat} {q : Int} (hk : k < 2 ^ (w + 1)) (hq : (1 : Int) - b - w ≤ q) (htop : (k : ℝ) * 2 ^ q ≤ lm * 2 ^ le)
    (neg : Bool) : Holds f (sgn neg * (k * 2 ^ q)) := by
  rcases eq_or_ne k 0 with rfl | hk0
  · obtain ⟨p1, p2, -⟩ := patNum_signBit hf neg
    exact ⟨_, p2, by rw [p1]; simp⟩
  obtain ⟨k', q', φ, up, inexact, tiny, h, -⟩ :=
    encFloat_step hf ht (neg := neg) hk0 (magOf_exact k q) (fun hc => by cases hc) .rz 0
  have hQ : (0 : ℝ) < 2 ^ q' := by positivity
  have hq' : q' ≤ q := by
    by_contra hc
    have hk' : (2 : ℝ) ^ w ≤ k' := by exact_mod_cast h.full.resolve_right (by omega)
    have hkR : (k : ℝ) < 2 ^ (w + 1) := by exact_mod_cast hk
    have h1 : (2 : ℝ) ^ w * 2 ^ q' ≤ k * 2 ^ q := by rw [h.eq]; gcongr; linarith [h.nonneg]
    have h2 : (k : ℝ) * 2 ^ q < 2 ^ w * 2 ^ q' := by
      calc (k : ℝ) * 2 ^ q < 2 ^ (w + 1) * 2 ^ q := by gcongr
        _ ≤ 2 ^ (w + 1) * 2 ^ (q' - 1) := by gcongr; exact one_le_two; omega
        _ = 2 ^ w * 2 ^ q' := by rw [zpow_sub_one₀ two_ne_zero, pow_succ]; ring
    linarith
  obtain ⟨j, rfl⟩ : ∃ j : Nat, q = q' + j := ⟨(q - q').toNat, by omega⟩
  have hval : (k : ℝ) * 2 ^ (q' + (j : Int)) = (k * 2 ^ j : Nat) * 2 ^ q' := by
    rw [zpow_add₀ two_ne_zero, zpow_natCast]; push_cast; ring
  have heq : ((k * 2 ^ j : Nat) : ℝ) = k' + φ := mul_right_cancel₀ hQ.ne' (hval.symm.trans h.eq)
  have hk' : k * 2 ^ j = k' := by
    have h0 := h.nonneg; have h1 := h.lt_one
    have h2 : (k' : ℝ) ≤ (k * 2 ^ j : Nat) := by linarith
    have h3 : ((k * 2 ^ j : Nat) : ℝ) < (k' + 1 : Nat) := by rw [heq]; push_cast; linarith
    have h2' : k' ≤ k * 2 ^ j := by exact_mod_cast h2
    have h3' : k * 2 ^ j < k' + 1 := by exact_mod_cast h3
    omega
  have hc := h.canon false
  rw [if_neg (by decide), ← hk'] at hc
  obtain ⟨p1, p2, -⟩ := pat_packMag hf ht hc (hval ▸ htop) neg
  refine ⟨_, p2, p1.trans ?_⟩
  rw [zpow_add₀ two_ne_zero, zpow_natCast]
  push_cast
  congr 1
  ring

end Float

theorem holds_fp32 {k : Nat} {q : Int} (hk : k < 2 ^ 24) (hq : -149 ≤ q) (hq' : q ≤ 104) (neg : Bool) :
    Holds .fp32 (sgn neg * (k * 2 ^ q)) := by
  refine holds_of_lt fp32_fields fp32_top hk (by push_cast; omega) ?_ neg
  gcongr
  · omega
  · norm_num

/-- The power of two of a normal number. -/
theorem holds_two_zpow {n : Int} (h : -149 ≤ n) (h' : n ≤ 104) : Holds .fp32 ((2 : ℚ) ^ n) := by
  have := holds_fp32 (k := 1) (by norm_num) h h' false
  simpa [sgn] using this

theorem abs_le_fp32 {z : ℚ} (hz : Holds .fp32 z) : |z| ≤ (2 ^ 24 - 1) * 2 ^ 104 := by
  have h := abs_le_of_holds fp32_fields fp32_top hz
  rw [← Rat.cast_abs] at h
  have h' : ((|z| : ℚ) : ℝ) ≤ (((2 ^ 24 - 1) * 2 ^ 104 : ℚ) : ℝ) := by
    push_cast
    push_cast at h
    exact_mod_cast h
  exact_mod_cast h'

theorem abs_lt_of_holds {z : ℚ} (hz : Holds .fp32 z) : |z| < 2 ^ 128 - 2 ^ 103 :=
  (abs_le_fp32 hz).trans_lt (by norm_num)

/-! ### The sign flipped -/

/-- The pattern of the other sign. -/
def flipPat (x : Nat) : Nat := if patSign .fp32 x then x - 2 ^ 31 else x + 2 ^ 31

theorem flipPat_spec {x : Nat} (hx : x < 2 ^ 32) : flipPat x < 2 ^ 32 ∧ patSign .fp32 (flipPat x) = !patSign .fp32 x
    ∧ flipPat x % 2 ^ 23 = x % 2 ^ 23 ∧ flipPat x / 2 ^ 23 % 2 ^ 8 = x / 2 ^ 23 % 2 ^ 8 ∧ flipPat x % 2 = x % 2 := by
  have hs : ∀ z, patSign .fp32 z = decide (z / 2 ^ 31 % 2 = 1) := fun z => Nat.testBit_eq_decide_div_mod_eq
  unfold flipPat
  rw [hs x]
  by_cases h : x / 2 ^ 31 % 2 = 1
  · rw [decide_eq_true h, if_pos rfl, hs]
    refine ⟨by omega, ?_, by omega, by omega, by omega⟩
    rw [decide_eq_false (by omega)]; rfl
  · rw [decide_eq_false h, if_neg (by decide), hs]
    refine ⟨by omega, ?_, by omega, by omega, by omega⟩
    rw [decide_eq_true (by omega)]; rfl

theorem decodeF_flipPat {x : Nat} (hx : x < 2 ^ 32) : decodeF .fp32 (flipPat x) = (decodeF .fp32 x).neg := by
  obtain ⟨-, h2, h3, h4, -⟩ := flipPat_spec hx
  rw [decodeF_float fp32_fields, decodeF_float fp32_fields, h2, h3, h4]
  split
  · split <;> rfl
  split
  · rfl
  split <;> rfl

theorem patNum_flipPat {x : Nat} {q : ℚ} (hx : x < 2 ^ 32) (hq : patNum .fp32 x = some q) : patNum .fp32 (flipPat x) = some (-q) := by
  obtain ⟨-, h2, h3, h4, -⟩ := flipPat_spec hx
  rw [patNum_float fp32_fields] at hq
  rw [patNum_float fp32_fields, h2, h3, h4]
  split at hq
  · cases hq
  · next hc =>
    rw [if_neg hc]
    split at hq <;> rename_i h0
    · rw [if_pos h0, ← Option.some.inj hq]
      cases patSign .fp32 x <;> simp
    · rw [if_neg h0, ← Option.some.inj hq]
      cases patSign .fp32 x <;> simp

theorem Holds.neg {z : ℚ} (hz : Holds .fp32 z) : Holds .fp32 (-z) := by
  obtain ⟨x, hx, h⟩ := hz
  exact ⟨_, (flipPat_spec hx).1, patNum_flipPat hx h⟩

theorem Rne32.neg {y : ℝ} {q : ℚ} (h : Rne32 y q) : Rne32 (-y) (-q) := by
  obtain ⟨x, ⟨r, hx, hr, hnear⟩, hq⟩ := h
  obtain rfl : r = q := Option.some.inj (hr.symm.trans hq)
  refine ⟨flipPat x, ⟨-r, (flipPat_spec hx).1, patNum_flipPat hx hr, fun z hz => ?_⟩, patNum_flipPat hx hr⟩
  have h1 : |((-r : ℚ) : ℝ) - -y| = |(r : ℝ) - y| := by rw [← abs_neg]; congr 1; push_cast; ring
  have h2 : |(z : ℝ) - -y| = |((-z : ℚ) : ℝ) - y| := by rw [← abs_neg]; congr 1; push_cast; ring
  rw [h1, h2, (flipPat_spec hx).2.2.2.2]
  rcases hnear (-z) hz.neg with h3 | h3 | h3
  · exact .inl (by rw [← h3, neg_neg])
  · exact .inr (.inl h3)
  · exact .inr (.inr h3)

/-! ### Nearest numbers -/

section Nearest

variable {y : ℝ} {q z z' : ℚ}

/-- Below the middle of two held numbers, the nearest number is below the upper one. -/
theorem Rne32.lt_of_mid (h : Rne32 y q) (hz : Holds .fp32 z) (hlt : z < z') (hy : 2 * y < z + z') : q < z' := by
  obtain ⟨x, ⟨r, -, hr, hnear⟩, hq⟩ := h
  obtain rfl : r = q := Option.some.inj (hr.symm.trans hq)
  by_contra hc
  have hc' : (z' : ℝ) ≤ r := by exact_mod_cast not_lt.1 hc
  have hlt' : (z : ℝ) < z' := by exact_mod_cast hlt
  have h1 : |(r : ℝ) - y| = r - y := abs_of_nonneg (by linarith)
  have h2 : |(z : ℝ) - y| < r - y := abs_lt.2 ⟨by linarith, by linarith⟩
  rcases hnear z hz with h3 | h3 | ⟨h3, -⟩
  · exact absurd h3 (by intro h3; rw [h3] at hlt'; linarith)
  · linarith
  · linarith

/-- A held number is its own rounding. -/
theorem rne32_self (hz : Holds .fp32 z) : Rne32 z z := by
  obtain ⟨x, hx, hxz⟩ := hz
  refine ⟨x, ⟨z, hx, hxz, fun z' _ => ?_⟩, hxz⟩
  rcases eq_or_ne z' z with h | h
  · exact .inl h
  · refine .inr (.inl ?_)
    rw [sub_self, abs_zero, abs_pos, sub_ne_zero]
    exact_mod_cast h

/-- To nearest even, an odd pattern is no tie: the answer is its number. -/
theorem Rne32.eq_of_odd {x : Nat} {r : ℚ} (h : Rne32 y q) (hx : RoundsTo .fp32 .rne 0 y x) (hr : patNum .fp32 x = some r)
    (hodd : x % 2 = 1) : q = r := by
  have hq := h.holds
  obtain ⟨x', ⟨q', -, hq', hnear'⟩, hq''⟩ := h
  obtain rfl : q' = q := Option.some.inj (hq'.symm.trans hq'')
  obtain ⟨r', hx, hr', hnear⟩ := hx
  obtain rfl : r' = r := Option.some.inj (hr'.symm.trans hr)
  rcases hnear q' hq with h1 | h1 | ⟨-, h1⟩
  · exact h1
  · rcases hnear' r' ⟨x, hx, hr⟩ with h2 | h2 | ⟨h2, -⟩
    · exact h2.symm
    · exact absurd h1 h2.not_gt
    · exact absurd h1 (by rw [h2]; exact lt_irrefl _)
  · omega

/-- A number within half a unit of a multiple rounds to it. -/
theorem roundsTo_of_near {k : Nat} {q : Int} (hk : 2 ^ 23 ≤ k) (hk' : k < 2 ^ 24) (hq : -149 ≤ q) (hq' : q ≤ 104)
    (hlo : (2 * k - 1) * 2 ^ q < 2 * y) (hhi : 2 * y < (2 * k + 1) * 2 ^ q) (hpow : k = 2 ^ 23 → (k : ℝ) * 2 ^ q ≤ y) :
    RoundsTo .fp32 .rne 0 y (packMag .fp32 k q) ∧ patNum .fp32 (packMag .fp32 k q) = some ((k : ℚ) * 2 ^ q)
      ∧ packMag .fp32 k q % 2 = k % 2 := by
  have hQ : (0 : ℝ) < 2 ^ q := by positivity
  have hc : Canon 23 127 k q := ⟨by omega, by push_cast; omega, .inl hk⟩
  have htop : (k : ℝ) * 2 ^ q ≤ (2 ^ 24 - 1 : Nat) * 2 ^ (104 : Int) := by
    gcongr
    · omega
    · norm_num
  obtain ⟨p1, p2, -, p4, -⟩ := pat_packMag fp32_fields fp32_top hc htop false
  have hsb : signBit .fp32 false = 0 := rfl
  rw [hsb, Nat.zero_add] at p1 p2 p4
  rcases le_or_gt ((k : ℝ) * 2 ^ q) y with h | h
  · have hφ : y = (k + (y / 2 ^ q - k)) * 2 ^ q := by field_simp; ring
    have h0 : (k : ℝ) ≤ y / 2 ^ q := (le_div_iff₀ hQ).2 h
    have h1 : y / 2 ^ q < k + 1 / 2 := (div_lt_iff₀ hQ).2 (by linarith)
    refine ⟨?_, by rw [p1]; simp [sgn], p4⟩
    have hR := roundsTo_of_grid (neg := false) (up := false) (u := 0) (rm := .rne) (φ := y / 2 ^ q - k) (by linarith) (by linarith) p2
      (by simpa using p1) (by simpa using p4)
      (iff_of_false (by decide) (by rintro (h2 | ⟨h2, -⟩) <;> linarith)) (gap_of_canon fp32_fields fp32_top hc) fun hc => by cases hc
    rw [← hφ, cast_sgn_false, one_mul] at hR
    exact hR
  · have hk1 : 2 ^ 23 < k := lt_of_le_of_ne hk fun hc => absurd (hpow hc.symm) (not_le.2 h)
    obtain ⟨j, rfl⟩ : ∃ j, k = j + 1 := ⟨k - 1, by omega⟩
    have hc' : Canon 23 127 j q := ⟨by omega, by push_cast; omega, .inl (by omega)⟩
    push_cast at h hlo hhi
    have hφ : y = (j + (y / 2 ^ q - j)) * 2 ^ q := by field_simp; ring
    have h0 : y / 2 ^ q < j + 1 := (div_lt_iff₀ hQ).2 h
    have h1 : (j : ℝ) + 1 / 2 < y / 2 ^ q := (lt_div_iff₀ hQ).2 (by linarith)
    refine ⟨?_, by rw [p1]; simp [sgn], p4⟩
    have hR := roundsTo_of_grid (neg := false) (up := true) (u := 0) (rm := .rne) (φ := y / 2 ^ q - j) (by linarith) (by linarith) p2
      (by simpa using p1) (by simpa using p4)
      (iff_of_true rfl (.inl (by linarith))) (gap_of_canon fp32_fields fp32_top hc') fun hc => by cases hc
    rw [← hφ, cast_sgn_false, one_mul] at hR
    exact hR

end Nearest

/-! ### The flush (R36) -/

theorem leadOf_bounds {m : Nat} (hm : m ≠ 0) (e : Int) : (2 : ℚ) ^ leadOf m e ≤ m * 2 ^ e ∧ (m : ℚ) * 2 ^ e < 2 ^ (leadOf m e + 1) := by
  have h := (two_zpow_le_iff hm e)
  refine ⟨(h _).2 le_rfl, not_le.1 fun hc => ?_⟩
  have := (h _).1 hc
  unfold leadOf at this
  omega

section Flush

variable {v : FVal} {q : ℚ} (hv : valNum v = some q)

include hv

theorem flush32_of_normal (h : q = 0 ∨ 1 / 2 ^ 126 ≤ |q|) : flush32 v = (v, false) := by
  obtain ⟨m, e, hve, hq⟩ := valNum_sgn hv
  have hm := significand_eq_zero_iff hv hve
  rw [hve]
  unfold flush32
  dsimp only
  rw [if_neg]
  rintro ⟨hm0, hl⟩
  have hq0 := mt hm.2 hm0
  have h1 := h.resolve_left hq0
  rw [hq, abs_mul, abs_sgn, one_mul, abs_of_nonneg (by positivity)] at h1
  have h2 := (leadOf_bounds hm0 e).2
  have h3 : (2 : ℚ) ^ (leadOf m e + 1) ≤ 2 ^ (-126 : Int) := zpow_le_zpow_right₀ one_le_two (by omega)
  rw [show (2 : ℚ) ^ (-126 : Int) = 1 / 2 ^ 126 by norm_num] at h3
  linarith

theorem flush32_of_small (h0 : q ≠ 0) (h : |q| < 1 / 2 ^ 126) : flush32 v = (.zero v.sign, true) := by
  obtain ⟨m, e, hve, hq⟩ := valNum_sgn hv
  have hm := mt (significand_eq_zero_iff hv hve).1 h0
  generalize v.sign = s at *
  rw [hq, abs_mul, abs_sgn, one_mul, abs_of_nonneg (by positivity)] at h
  have h2 := (leadOf_bounds hm e).1.trans_lt h
  rw [show (1 : ℚ) / 2 ^ 126 = 2 ^ (-126 : Int) by norm_num] at h2
  have hl : leadOf m e < -126 := (zpow_lt_zpow_iff_right₀ one_lt_two).1 h2
  rw [hve]
  unfold flush32
  dsimp only
  rw [if_pos ⟨hm, hl⟩]

end Flush

/-! ### A transcendental of FP32 -/

/-- The flags of a function with those of the flush. -/
def rawFlags (r : FVal × Flags) : Flags := if (flush32 r.1).2 then r.2 ||| fFZ else r.2

theorem transc_eq (t : TFun) (f : Fmt) (x : Nat) (env : FEnv) : transc t f x env
    = ((encodeF f .rne false (flush32 (t.raw (decodeF f x)).1).1 ⟨0, 0⟩).1, (env.raise (rawFlags (t.raw (decodeF f x)))).raise
      (if f = .fp32 then 0 else (encodeF f .rne false (flush32 (t.raw (decodeF f x)).1).1 ⟨0, 0⟩).2.flags)) := rfl

theorem transc_fp32 (t : TFun) (x : Nat) (env : FEnv) : transc t .fp32 x env
    = ((encodeF .fp32 .rne false (flush32 (t.raw (decodeF .fp32 x)).1).1 ⟨0, 0⟩).1, env.raise (rawFlags (t.raw (decodeF .fp32 x)))) := by
  rw [transc_eq, if_pos rfl, FEnv.raise_zero]

/-- A function that answers a number of FP32 which is not flushed gives that number. -/
theorem gives_of_isPat {t : TFun} {x p : Nat} {v : FVal} {q : ℚ} (hraw : t.raw (decodeF .fp32 x) = (v, 0)) (hv : IsPat v p q)
    (h : q = 0 ∨ 1 / 2 ^ 126 ≤ |q|) : Gives t x q := by
  refine ⟨p, ?_, hv.num⟩
  rw [transc_fp32, rawFlags, hraw, flush32_of_normal hv.val h, hv.encode]
  exact congrArg (Prod.mk p) (FEnv.raise_zero _)

/-- R36: the special sources. -/
theorem transc_special (t : TFun) (l : List (Nat × Flags)) (env : FEnv) (n x : Nat) (ht : (t, l) ∈ specialRows) (hn : n < 5)
    (hx : x = [0x7FC00000, 0xFF800000, 0x80000000, 0, 0x7F800000].getD n 0) :
    transc t .fp32 x env = ((l.getD n (0, 0)).1, env.raise (l.getD n (0, 0)).2) := by
  subst hx
  have h : ∀ r ∈ specialRows, ∀ n < 5, ((encodeF .fp32 .rne false (flush32 (r.1.raw (decodeF .fp32
      ([0x7FC00000, 0xFF800000, 0x80000000, 0, 0x7F800000].getD n 0))).1).1 ⟨0, 0⟩).1,
      rawFlags (r.1.raw (decodeF .fp32 ([0x7FC00000, 0xFF800000, 0x80000000, 0, 0x7F800000].getD n 0)))) = r.2.getD n (0, 0) := by
    decide +kernel
  have h1 := h _ ht n hn
  rw [transc_fp32]
  rw [← h1]

end Sys2Proof.Machine
end

section
/-! PROOFS. The steps of R35, and RCP and RSQ (R35, R36). -/

namespace Sys2Proof.Machine

/-! ### One rounded step -/

theorem Rne32.abs_le_of_holds {y : ℝ} {q z : ℚ} (h : Rne32 y q) (hz : Holds .fp32 z) (hy : |y| ≤ z) : |q| ≤ z := by
  have h' := abs_le.1 hy
  have hz' : ((-z : ℚ) : ℝ) ≤ y := by push_cast; exact h'.1
  exact abs_le.2 ⟨h.ge hz.neg hz', h.le hz h'.2⟩

/-- A value and its nearest number in FP32. -/
structure Step (v : FVal) (y : ℝ) (q : ℚ) : Prop where
  pat : ∃ x, IsPat v x q
  near : Rne32 y q

theorem Step.val {v : FVal} {y : ℝ} {q : ℚ} (h : Step v y q) : valNum v = some q := by
  obtain ⟨x, hx⟩ := h.pat
  exact hx.val

section Steps

variable {a b c : FVal} {α β γ : ℚ} (ha : valNum a = some α) (hb : valNum b = some β)

include ha hb

theorem mul32_step (h : |α * β| < 2 ^ 128 - 2 ^ 103) : ∃ q, Step (mul32 a b) (α * β : ℚ) q := by
  obtain ⟨-, hv, -⟩ := valNum_mul ha hb
  obtain ⟨x, q, h1, h2, -⟩ := r32_of_num hv h
  exact ⟨q, ⟨x, h1⟩, h2⟩

theorem add32_step (h : |α + β| < 2 ^ 128 - 2 ^ 103) : ∃ q, Step (add32 a b) (α + β : ℚ) q := by
  obtain ⟨-, hv, -⟩ := valNum_add ha hb .rne
  obtain ⟨x, q, h1, h2, -⟩ := r32_of_num hv h
  exact ⟨q, ⟨x, h1⟩, h2⟩

theorem fma32_step (hc : valNum c = some γ) (h : |α * β + γ| < 2 ^ 128 - 2 ^ 103) : ∃ q, Step (fma32 a b c) (α * β + γ : ℚ) q := by
  obtain ⟨-, hv, -⟩ := valNum_mul ha hb
  obtain ⟨-, hv', -⟩ := valNum_add hv hc .rne
  obtain ⟨x, q, h1, h2, -⟩ := r32_of_num hv' h
  exact ⟨q, ⟨x, h1⟩, h2⟩

end Steps

/-- A function that answers a held number which is not flushed gives that number. -/
theorem gives_of_holds {t : TFun} {x : Nat} {v : FVal} {q : ℚ} (hraw : t.raw (decodeF .fp32 x) = (v, 0)) (hv : valNum v = some q)
    (hq : Holds .fp32 q) (h : q = 0 ∨ 1 / 2 ^ 126 ≤ |q|) : Gives t x q := by
  obtain ⟨p, h1, h2, h3⟩ := exists_isPat hv hq
  refine ⟨p, ?_, h2⟩
  rw [transc_fp32, rawFlags, hraw, flush32_of_normal hv h, encodeF_exact fp32_fields fp32_top hv h1 h2 h3]
  exact congrArg (Prod.mk p) (FEnv.raise_zero _)

/-- The least positive number of FP32. -/
theorem le_of_holds_pos {z : ℚ} (hz : Holds .fp32 z) (h : 0 < z) : (2 : ℚ) ^ (-149 : Int) ≤ z := by
  obtain ⟨x, hx, hxz⟩ := hz
  obtain ⟨k, q, hc, -, hz, -⟩ := exists_canon fp32_fields fp32_top hx hxz
  have hk : k ≠ 0 := by rintro rfl; rw [hz] at h; simp at h
  have hs : sgn (patSign .fp32 x) = 1 := by
    cases hp : patSign .fp32 x
    · simp [sgn]
    · have hle : sgn true * ((k : ℚ) * 2 ^ q) ≤ 0 := by
        rw [sgn, if_pos rfl, neg_one_mul, neg_nonpos]; positivity
      rw [hz, hp] at h
      exact absurd h hle.not_gt
  rw [hz, hs, one_mul]
  have hfin := hc.finest
  push_cast at hfin
  calc (2 : ℚ) ^ (-149 : Int) ≤ 2 ^ q := zpow_le_zpow_right₀ one_le_two (by omega)
    _ ≤ k * 2 ^ q := le_mul_of_one_le_left (by positivity) (by exact_mod_cast Nat.one_le_iff_ne_zero.2 hk)

/-! ### RCP -/

/-- R36: the quotient that the reciprocal of a number rounds. -/
theorem rcpF_mag {v : FVal} {a : ℚ} (hv : valNum v = some a) (ha : a ≠ 0) : ∃ m e st, rcpF v = (r32 (.fin v.sign m e st), 0)
    ∧ m ≠ 0 ∧ MagOf m e st |((1 / a : ℚ) : ℝ)| ∧ 48 ≤ bitLen m ∧ ((1 / a : ℚ) : ℝ) = (sgn v.sign : ℝ) * |((1 / a : ℚ) : ℝ)| := by
  obtain ⟨m, e, hve, -⟩ := valNum_sgn hv
  have hm := mt (significand_eq_zero_iff hv hve).1 ha
  have hone : valNum (FVal.ofNat 1) = some 1 := by simp [FVal.ofNat, valNum]
  obtain ⟨m', e', st, hdiv, hm', hmag, hbits, hsgn⟩ := div_spec hone hv one_ne_zero ha
  rw [show (FVal.ofNat 1).sign = false from rfl, Bool.false_bne] at hdiv hsgn
  refine ⟨m', e', st, ?_, hm', hmag, by omega, hsgn⟩
  rw [← show ((FVal.ofNat 1).div v).1 = .fin v.sign m' e' st from congrArg Prod.fst hdiv]
  generalize v.sign = s at *
  subst hve
  unfold rcpF
  dsimp only
  rw [if_neg hm]

/-- R36: the reciprocal of a number, rounded once. -/
theorem rcpF_step {v : FVal} {a : ℚ} (hv : valNum v = some a) (ha : a ≠ 0) (h : |1 / a| < 2 ^ 128 - 2 ^ 103) :
    ∃ w q, rcpF v = (w, 0) ∧ Step w (1 / a : ℚ) q ∧ w.sign = v.sign := by
  obtain ⟨m, e, st, hw, hm, hmag, hbits, hsgn⟩ := rcpF_mag hv ha
  have hR := (Rat.cast_lt (K := ℝ)).2 h
  rw [Rat.cast_abs] at hR
  obtain ⟨x, q, h1, h2, h3⟩ := r32_of_mag (neg := v.sign) hm hmag (fun _ => hbits) (by push_cast at hR ⊢; exact hR)
  rw [← hsgn] at h2
  exact ⟨_, q, hw, ⟨⟨x, h1⟩, h2⟩, h1.sign.trans h3⟩

/-- A magnitude below the middle of the two numbers around 2^−126 rounds to a subnormal number. -/
theorem rne32_subnormal {y : ℝ} {q : ℚ} (h : Rne32 y q) (h1 : (2 : ℝ) ^ (-128 : Int) ≤ y)
    (h2 : y < 1 / 2 ^ 126 * (1 - 1 / 2 ^ 24)) : 0 < q ∧ q < 1 / 2 ^ 126 := by
  have hz := holds_fp32 (k := 2 ^ 23 - 1) (q := -149) (by norm_num) le_rfl (by norm_num) false
  have hlo := h.ge (holds_two_zpow (n := -128) (by norm_num) (by norm_num)) (by push_cast; exact h1)
  refine ⟨lt_of_lt_of_le (by positivity) hlo, h.lt_of_mid hz ?_ ?_⟩
  · norm_num [sgn]
  · push_cast
    rw [cast_sgn_false]
    norm_num at h2 ⊢
    linarith

theorem rcp_flushed {x : Nat} {a : ℚ} (hx : x < 2 ^ 32) (hxa : patNum .fp32 x = some a) (ha : a ≠ 0)
    (h : |1 / a| < 1 / 2 ^ 126 * (1 - 1 / 2 ^ 24)) (env : FEnv) :
    transc .rcp .fp32 x env = (if a < 0 then 2 ^ 31 else 0, env.raise 0b1000000) := by
  have hv := valNum_decodeF hxa
  obtain ⟨w, q, hw, hs, hsign⟩ := rcpF_step hv ha (h.trans (by norm_num))
  have hlo : (2 : ℝ) ^ (-128 : Int) ≤ |((1 / a : ℚ) : ℝ)| := by
    have h1 := abs_le_fp32 ⟨x, hx, hxa⟩
    have h2 : (2 : ℚ) ^ (-128 : Int) ≤ |1 / a| := by
      rw [abs_div, abs_one, le_div_iff₀ (abs_pos.2 ha)]
      calc (2 : ℚ) ^ (-128 : Int) * |a| ≤ 2 ^ (-128 : Int) * ((2 ^ 24 - 1) * 2 ^ 104) := by gcongr
        _ ≤ 1 := by norm_num
    have h3 := (Rat.cast_le (K := ℝ)).2 h2
    push_cast at h3 ⊢
    exact h3
  have hhi : |((1 / a : ℚ) : ℝ)| < 1 / 2 ^ 126 * (1 - 1 / 2 ^ 24) := by
    have h3 := (Rat.cast_lt (K := ℝ)).2 h
    push_cast at h3 ⊢
    exact h3
  have hq : q ≠ 0 ∧ |q| < 1 / 2 ^ 126 := by
    rcases lt_or_gt_of_ne ha with hneg | hpos
    · rw [abs_of_neg (by exact_mod_cast one_div_neg.2 hneg)] at hlo hhi
      obtain ⟨h1, h2⟩ := rne32_subnormal hs.near.neg hlo hhi
      exact ⟨(neg_pos.1 h1).ne, by rw [abs_of_neg (neg_pos.1 h1)]; exact h2⟩
    · rw [abs_of_pos (by exact_mod_cast one_div_pos.2 hpos)] at hlo hhi
      obtain ⟨h1, h2⟩ := rne32_subnormal hs.near hlo hhi
      exact ⟨h1.ne', by rw [abs_of_pos h1]; exact h2⟩
  have hraw : TFun.raw .rcp (decodeF .fp32 x) = (w, 0) := hw
  rw [transc_fp32, rawFlags, hraw, flush32_of_small hs.val hq.1 hq.2, hsign, sign_eq_decide hv ha]
  have hflag : (0 ||| fFZ : Flags) = 0b1000000 := by decide
  have hzero : ∀ s, (encodeF .fp32 .rne false (.zero s) ⟨0, 0⟩).1 = if s then 2 ^ 31 else 0 := by decide
  by_cases hneg : a < 0
  · rw [if_pos hneg, decide_eq_true hneg]
    exact Prod.ext ((hzero true).trans (if_pos rfl)) (congrArg env.raise hflag)
  · rw [if_neg hneg, decide_eq_false hneg]
    exact Prod.ext ((hzero false).trans (if_neg (by decide))) (congrArg env.raise hflag)

theorem rcp_gives {x : Nat} {a : ℚ} (hxa : patNum .fp32 x = some a) (ha : a ≠ 0) (h1 : 1 / 2 ^ 126 ≤ |1 / a|)
    (h2 : |1 / a| < 2 ^ 128 - 2 ^ 103) : ∃ q, Rne32 (1 / a : ℚ) q ∧ Gives .rcp x q := by
  obtain ⟨w, q, hw, hs, -⟩ := rcpF_step (valNum_decodeF hxa) ha h2
  refine ⟨q, hs.near, gives_of_holds hw hs.val hs.near.holds (.inr ?_)⟩
  have hz : Holds .fp32 (1 / 2 ^ 126) := by
    have := holds_two_zpow (n := -126) (by norm_num) (by norm_num)
    norm_num at this ⊢
    exact this
  rcases le_abs'.1 h1 with h | h
  · have := hs.near.le hz.neg (by exact_mod_cast h)
    exact le_abs'.2 (.inl this)
  · have := hs.near.ge hz (by exact_mod_cast h)
    exact le_abs'.2 (.inr this)

/-! ### RSQ -/

/-- An integer root of a quotient with its remainder as the sticky bit. -/
theorem magOf_sqrt_div {n d r : Nat} (hd : d ≠ 0) (h : r * r * d ≤ n) (h' : n < (r + 1) * (r + 1) * d) (c : Int) :
    MagOf r c (decide (r * r * d ≠ n)) (Real.sqrt (n / d) * 2 ^ c) := by
  have hC : (0 : ℝ) < 2 ^ c := by positivity
  have hD : (0 : ℝ) < d := by exact_mod_cast Nat.pos_of_ne_zero hd
  have hR : ((r * r * d : Nat) : ℝ) ≤ n := by exact_mod_cast h
  have hR' : (n : ℝ) < ((r + 1) * (r + 1) * d : Nat) := by exact_mod_cast h'
  push_cast at hR hR'
  refine ⟨?_, ?_, ?_⟩
  · gcongr
    exact Real.le_sqrt_of_sq_le (by rw [sq, le_div_iff₀ hD]; exact hR)
  · gcongr
    rw [Real.sqrt_lt' (by positivity), sq, div_lt_iff₀ hD]
    exact hR'
  · rw [decide_eq_false_iff_not, not_not, mul_left_inj' hC.ne', Real.sqrt_eq_iff_mul_self_eq (by positivity) (by positivity),
      div_eq_iff hD.ne']
    exact_mod_cast eq_comm

/-- R36: the root that the reciprocal root of a number rounds. -/
theorem rsqF_mag {v : FVal} {a : ℚ} (hv : valNum v = some a) (ha : 0 < a) : ∃ m e st, rsqF v = (r32 (.fin false m e st), 0)
    ∧ m ≠ 0 ∧ MagOf m e st (1 / Real.sqrt a) ∧ 48 ≤ bitLen m := by
  obtain ⟨m, e, hve, hav⟩ := valNum_sgn hv
  have hm := mt (significand_eq_zero_iff hv hve).1 ha.ne'
  have hs := sign_eq_decide hv ha.ne'
  rw [decide_eq_false (not_lt.2 ha.le)] at hs
  rw [hs] at hve hav
  rw [sgn, if_neg (by decide), one_mul] at hav
  obtain ⟨m', e', hpair, hm', c, rfl, hval⟩ : ∃ m' e', (if e % 2 = 0 then (m, e) else (2 * m, e - 1)) = (m', e') ∧ m' ≠ 0
      ∧ ∃ c, e' = 2 * c ∧ a = m' * 2 ^ e' := by
    by_cases he : e % 2 = 0
    · exact ⟨m, e, if_pos he, hm, e / 2, by omega, hav⟩
    · refine ⟨2 * m, e - 1, if_neg he, by omega, (e - 1) / 2, by omega, ?_⟩
      rw [hav, zpow_sub_one₀ two_ne_zero]
      push_cast
      ring
  obtain ⟨k, hk⟩ : ∃ k, bitLen m' + 64 = k := ⟨_, rfl⟩
  obtain ⟨h1, h2⟩ := isqrt_spec (2 ^ (2 * k) / m')
  obtain ⟨r, hr⟩ : ∃ r, isqrt (2 ^ (2 * k) / m') = r := ⟨_, rfl⟩
  rw [hr] at h1 h2
  have hpos := Nat.pos_of_ne_zero hm'
  have hlo : r * r * m' ≤ 2 ^ (2 * k) := (Nat.le_div_iff_mul_le hpos).1 h1
  have hhi : 2 ^ (2 * k) < (r + 1) * (r + 1) * m' := (Nat.div_lt_iff_lt_mul hpos).1 h2
  have hbig : 2 ^ 64 ≤ r := by
    by_contra hc
    have h3 : r + 1 ≤ 2 ^ 64 := by omega
    have h4 := (bitLen_bounds hm').2.2
    have h5 : (r + 1) * (r + 1) * m' ≤ 2 ^ 64 * 2 ^ 64 * 2 ^ bitLen m' := Nat.mul_le_mul (Nat.mul_le_mul h3 h3) h4.le
    rw [← pow_add, ← pow_add] at h5
    have h6 : 2 ^ (64 + 64 + bitLen m') ≤ 2 ^ (2 * k) := Nat.pow_le_pow_right (by norm_num) (by omega)
    omega
  have hmag := magOf_sqrt_div hm' hlo hhi (-c - k)
  have heq : Real.sqrt (((2 ^ (2 * k) : Nat) : ℝ) / m') * 2 ^ (-c - k : Int) = 1 / Real.sqrt a := by
    have hsq : Real.sqrt (((2 : ℝ) ^ (-c - k : Int)) * 2 ^ (-c - k : Int)) = 2 ^ (-c - k : Int) := Real.sqrt_mul_self (by positivity)
    rw [one_div, ← Real.sqrt_inv, hval, ← hsq, ← Real.sqrt_mul (by positivity)]
    congr 1
    push_cast
    rw [← zpow_add₀ two_ne_zero, show -c - (k : Int) + (-c - k) = -(2 * c) - (2 * k : Nat) by push_cast; ring, zpow_sub₀ two_ne_zero,
      zpow_neg, zpow_natCast]
    have : (m' : ℝ) ≠ 0 := by exact_mod_cast hm'
    field_simp
  rw [heq] at hmag
  refine ⟨r, -c - k, _, ?_, by omega, hmag, by have := lt_bitLen hbig; omega⟩
  rw [hve]
  unfold rsqF
  simp only [Bool.false_eq_true, if_false]
  rw [if_neg hm, hpair]
  simp only [hk, hr]
  rw [show 2 * c / 2 = c by omega]

theorem rsqF_step {v : FVal} {a : ℚ} (hv : valNum v = some a) (ha : 0 < a) (hlim : 1 / Real.sqrt a < 2 ^ 128 - 2 ^ 103) :
    ∃ w q, rsqF v = (w, 0) ∧ Step w (1 / Real.sqrt a) q := by
  obtain ⟨m, e, st, hw, hm, hmag, hbits⟩ := rsqF_mag hv ha
  obtain ⟨x, q, p1, p2, -⟩ := r32_of_mag (neg := false) hm hmag (fun _ => hbits) hlim
  rw [cast_sgn_false, one_mul] at p2
  exact ⟨_, q, hw, ⟨x, p1⟩, p2⟩

theorem rsq_gives {x : Nat} {a : ℚ} (hx : x < 2 ^ 32) (hxa : patNum .fp32 x = some a) (ha : 0 < a) :
    ∃ q, Rne32 (1 / Real.sqrt a) q ∧ Gives .rsq x q := by
  have hlo := le_of_holds_pos ⟨x, hx, hxa⟩ ha
  have hhi := (le_abs_self a).trans (abs_le_fp32 ⟨x, hx, hxa⟩)
  have hloR := (Rat.cast_le (K := ℝ)).2 hlo
  have hhiR := (Rat.cast_le (K := ℝ)).2 hhi
  push_cast at hloR hhiR
  have haR : (0 : ℝ) < a := by exact_mod_cast ha
  have hs0 : 0 < Real.sqrt a := Real.sqrt_pos.2 haR
  have h1 : (1 : ℝ) / 2 ^ 75 ≤ Real.sqrt a := Real.le_sqrt_of_sq_le (le_trans (by norm_num) hloR)
  have h2 : Real.sqrt a ≤ 2 ^ 64 := Real.sqrt_le_iff.2 ⟨by positivity, hhiR.trans (by norm_num)⟩
  have h3 : 1 / Real.sqrt a ≤ 2 ^ 75 := by
    rw [div_le_iff₀ hs0]
    have := mul_le_mul_of_nonneg_left h1 (by positivity : (0 : ℝ) ≤ 2 ^ 75)
    linarith [show (2 : ℝ) ^ 75 * (1 / 2 ^ 75) = 1 by norm_num]
  have h4 : (2 : ℝ) ^ (-64 : Int) ≤ 1 / Real.sqrt a := by
    rw [le_div_iff₀ hs0]
    have := mul_le_mul_of_nonneg_left h2 (by positivity : (0 : ℝ) ≤ 2 ^ (-64 : Int))
    linarith [show (2 : ℝ) ^ (-64 : Int) * 2 ^ 64 = 1 by norm_num]
  obtain ⟨w, q, hw, hs⟩ := rsqF_step (valNum_decodeF hxa) ha (h3.trans_lt (by norm_num))
  refine ⟨q, hs.near, gives_of_holds hw hs.val hs.near.holds (.inr ?_)⟩
  have h5 := hs.near.ge (holds_two_zpow (n := -64) (by norm_num) (by norm_num)) (by push_cast; exact h4)
  exact le_trans (by norm_num) (h5.trans (le_abs_self q))

/-- R36: the root and the logarithm of a negative number. -/
theorem rsq_log2_of_neg {x : Nat} {a : ℚ} (hxa : patNum .fp32 x = some a) (ha : a < 0) (env : FEnv) :
    transc .rsq .fp32 x env = (0x7FC00000, env.raise 1) ∧ transc .log2 .fp32 x env = (0x7FC00000, env.raise 1) := by
  have hv := valNum_decodeF hxa
  obtain ⟨m, e, hve, -⟩ := valNum_sgn hv
  have hm := mt (significand_eq_zero_iff hv hve).1 ha.ne
  rw [sign_eq_decide hv ha.ne, decide_eq_true ha] at hve
  have h1 : TFun.raw .rsq (decodeF .fp32 x) = (.nan, fNV) := by
    rw [hve]
    unfold TFun.raw rsqF
    dsimp only
    rw [if_neg hm, if_pos rfl]
  have h2 : TFun.raw .log2 (decodeF .fp32 x) = (.nan, fNV) := by
    rw [hve]
    unfold TFun.raw log2F
    dsimp only
    rw [if_neg hm, if_pos rfl]
  rw [transc_fp32, transc_fp32, h1, h2]
  exact ⟨rfl, rfl⟩

end Sys2Proof.Machine
end

section
/-! PROOFS. EXP2 by the steps of R36, with the constants and the table of R35. -/

namespace Sys2Proof.Machine

/-! ### Constants -/

/-- A constant of R35 as a multiple of a power of two, with the number that it is nearest to. -/
theorem const_near {bits k : Nat} {q : Int} {y : ℝ} (hb : packMag .fp32 k q = bits) (hk : 2 ^ 23 < k) (hk' : k < 2 ^ 24) (hq : -149 ≤ q)
    (hq' : q ≤ 104) (hlo : (2 * k - 1) * 2 ^ q < 2 * y) (hhi : 2 * y < (2 * k + 1) * 2 ^ q) :
    RoundsTo .fp32 .rne 0 y bits ∧ patNum .fp32 bits = some ((k : ℚ) * 2 ^ q) ∧ bits % 2 = k % 2 := by
  have h := roundsTo_of_near hk.le hk' hq hq' hlo hhi fun hc => absurd hc hk.ne'
  rw [hb] at h
  exact h

theorem kC1_near : valNum kC1 = some (11629080 * 2 ^ (-24 : Int)) ∧ Rne32 (Real.log 2) (11629080 * 2 ^ (-24 : Int)) := by
  have h1 := Real.log_two_gt_d9
  have h2 := Real.log_two_lt_d9
  obtain ⟨hr, hp, -⟩ := const_near (k := 11629080) (q := -24) (bits := 0x3F317218) (y := Real.log 2) (by decide) (by norm_num)
    (by norm_num) (by norm_num) (by norm_num) (by norm_num; linarith) (by norm_num; linarith)
  have hv : valNum kC1 = some (((11629080 : Nat) : ℚ) * 2 ^ (-24 : Int)) := valNum_decodeF hp
  exact ⟨by simpa using hv, _, hr, by simpa using hp⟩

theorem kC2_near : valNum kC2 = some (16121328 * 2 ^ (-26 : Int)) ∧ Rne32 (Real.log 2 ^ 2 / 2) (16121328 * 2 ^ (-26 : Int)) := by
  have h1 := Real.log_two_gt_d9
  have h2 := Real.log_two_lt_d9
  obtain ⟨hr, hp, -⟩ := const_near (k := 16121328) (q := -26) (bits := 0x3E75FDF0) (y := Real.log 2 ^ 2 / 2) (by decide) (by norm_num)
    (by norm_num) (by norm_num) (by norm_num) (by norm_num; nlinarith) (by norm_num; nlinarith)
  have hv : valNum kC2 = some (((16121328 : Nat) : ℚ) * 2 ^ (-26 : Int)) := valNum_decodeF hp
  exact ⟨by simpa using hv, _, hr, by simpa using hp⟩

theorem kL_near : RoundsTo .fp32 .rne 0 (1 / Real.log 2) 0x3FB8AA3B ∧ patNum .fp32 0x3FB8AA3B = some (12102203 * 2 ^ (-23 : Int)) := by
  have h1 := Real.log_two_gt_d9
  have h2 := Real.log_two_lt_d9
  have h0 : (0 : ℝ) < Real.log 2 := by linarith
  have h3 : 1 / Real.log 2 < 1.4426950421 := by rw [div_lt_iff₀ h0]; linarith
  have h4 : 1.4426950398 < 1 / Real.log 2 := by rw [lt_div_iff₀ h0]; linarith
  obtain ⟨hr, hp, -⟩ := const_near (k := 12102203) (q := -23) (bits := 0x3FB8AA3B) (y := 1 / Real.log 2) (by decide) (by norm_num)
    (by norm_num) (by norm_num) (by norm_num) (by norm_num at h3 h4 ⊢; linarith) (by norm_num at h3 h4 ⊢; linarith)
  exact ⟨hr, by simpa using hp⟩

theorem kD2_near : valNum kD2 = some (-(12102203 * 2 ^ (-24 : Int))) ∧ Rne32 (-1 / (2 * Real.log 2)) (-(12102203 * 2 ^ (-24 : Int))) := by
  have h1 := Real.log_two_gt_d9
  have h2 := Real.log_two_lt_d9
  have h0 : (0 : ℝ) < Real.log 2 := by linarith
  have h3 : 1 / (2 * Real.log 2) < 0.72134752105 := by rw [div_lt_iff₀ (by linarith)]; linarith
  have h4 : 0.7213475199 < 1 / (2 * Real.log 2) := by rw [lt_div_iff₀ (by linarith)]; linarith
  obtain ⟨hr, hp, -⟩ := const_near (k := 12102203) (q := -24) (bits := 0x3F38AA3B) (y := 1 / (2 * Real.log 2)) (by decide) (by norm_num)
    (by norm_num) (by norm_num) (by norm_num) (by norm_num at h3 h4 ⊢; linarith) (by norm_num at h3 h4 ⊢; linarith)
  have hp' : patNum .fp32 0x3F38AA3B = some (12102203 * 2 ^ (-24 : Int)) := by simpa using hp
  have hflip : kD2 = decodeF .fp32 (flipPat 0x3F38AA3B) := by decide
  refine ⟨?_, ?_⟩
  · rw [hflip]
    exact valNum_decodeF (patNum_flipPat (by norm_num) hp')
  · rw [neg_div]
    exact Rne32.neg ⟨_, hr, hp'⟩

/-! ### The table of powers -/

/-- The significand of entry `i` of the table of powers. -/
def expSig (i : Nat) : Nat := 2 ^ 23 + bitsOf (expTable.getD (i / 16) 0) (32 * (i % 16)) 32 % 2 ^ 23

/-- The table of powers, entry by entry, in integers: entry `i` is nearest to 2^(i/128). -/
theorem expTable_check : ∀ i < 128, packMag .fp32 (expSig i) (-23) = bitsOf (expTable.getD (i / 16) 0) (32 * (i % 16)) 32
    ∧ 2 ^ 23 ≤ expSig i ∧ expSig i ≤ 16686609 ∧ (i ≠ 127 → expSig i ≤ 16596492) ∧ (expSig i = 2 ^ 23 → i = 0)
    ∧ (i ≠ 0 → (2 * expSig i - 1) ^ 128 < 2 ^ (3072 + i)) ∧ 2 ^ (3072 + i) < (2 * expSig i + 1) ^ 128 := by
  decide +kernel

theorem two_rpow_pow (i : Nat) : ((2 : ℝ) ^ ((i : ℝ) / 128)) ^ 128 = 2 ^ i := by
  rw [← Real.rpow_natCast, ← Real.rpow_mul (by norm_num)]
  push_cast
  rw [div_mul_cancel₀ _ (by norm_num), Real.rpow_natCast]

/-- R35: entry `i` of the table of powers. -/
theorem expTable_near {i : Nat} (hi : i < 128) : valNum (tableAt expTable i) = some ((expSig i : ℚ) * 2 ^ (-23 : Int))
    ∧ Rne32 ((2 : ℝ) ^ ((i : ℝ) / 128)) (expSig i * 2 ^ (-23 : Int)) := by
  obtain ⟨hb, hk, hk', -, hone, hlo, hhi⟩ := expTable_check i hi
  have hy : (0 : ℝ) < 2 ^ ((i : ℝ) / 128) := by positivity
  have hpow : ((2 : ℝ) ^ 24 * 2 ^ ((i : ℝ) / 128)) ^ 128 = 2 ^ (3072 + i) := by
    rw [mul_pow, two_rpow_pow, pow_add, ← pow_mul]
  have h1 : (2 : ℝ) ^ 24 * 2 ^ ((i : ℝ) / 128) < 2 * expSig i + 1 := by
    refine lt_of_pow_lt_pow_left₀ 128 (by positivity) ?_
    rw [hpow]
    exact_mod_cast hhi
  have h2 : (2 : ℝ) * expSig i - 1 < 2 ^ 24 * 2 ^ ((i : ℝ) / 128) := by
    rcases eq_or_ne i 0 with rfl | h0
    · have : expSig 0 = 2 ^ 23 := by decide
      rw [this]
      norm_num
    · refine lt_of_pow_lt_pow_left₀ 128 (by positivity) ?_
      rw [hpow]
      have h3 := hlo h0
      have hcast : ((2 * expSig i - 1 : Nat) : ℝ) = 2 * expSig i - 1 := by
        rw [Nat.cast_sub (by omega)]; push_cast; ring
      rw [← hcast]
      exact_mod_cast h3
  have h23 : (2 : ℝ) ^ (-23 : Int) = 2 / 2 ^ 24 := by norm_num
  obtain ⟨hr, hp, -⟩ := roundsTo_of_near (y := (2 : ℝ) ^ ((i : ℝ) / 128)) hk (by omega) (q := -23) (by norm_num) (by norm_num)
    (by rw [h23]; norm_num at h2 ⊢; linarith) (by rw [h23]; norm_num at h1 ⊢; linarith) (fun hc => by
      rw [hone hc]
      have : expSig 0 = 2 ^ 23 := by decide
      rw [this]
      norm_num)
  rw [hb] at hr hp
  exact ⟨valNum_decodeF hp, _, hr, hp⟩

/-! ### The steps after the split of the argument -/

/-- R36: 2^g from a polynomial, times the power of the table. -/
theorem exp_chain {G T : FVal} {g t : ℚ} (hG : valNum G = some g) (hT : valNum T = some t) (h0 : 0 ≤ g) (h1 : g < 1 / 128)
    (ht : 1 ≤ t) (ht' : t ≤ 16686609 / 2 ^ 23) : ∃ u v y : ℚ,
      Rne32 ((16121328 * 2 ^ (-26 : Int)) * g + (11629080 * 2 ^ (-24 : Int)) : ℚ) u ∧ Rne32 (u * g : ℚ) v ∧ Rne32 (t * v + t : ℚ) y
      ∧ valNum (fma32 T (mul32 (fma32 kC2 G kC1) G) T) = some y ∧ 1 ≤ y ∧ y ≤ 2
      ∧ (t ≤ 16596492 / 2 ^ 23 ∨ g ≤ 1 / 128 - 1 / 2 ^ 17 → y < 2) := by
  have e24 : (2 : ℚ) ^ (-24 : Int) = 1 / 2 ^ 24 := by norm_num
  have e26 : (2 : ℚ) ^ (-26 : Int) = 1 / 2 ^ 26 := by norm_num
  obtain ⟨u, hu⟩ := fma32_step kC2_near.1 hG kC1_near.1 (by
    rw [e24, e26, abs_of_nonneg (by positivity)]; norm_num; linarith)
  have hU : Holds .fp32 (11660567 / 2 ^ 24) := by
    have := holds_fp32 (k := 11660567) (q := -24) (by norm_num) (by norm_num) (by norm_num) false
    norm_num [sgn] at this ⊢
    exact this
  have hzero : Holds .fp32 0 := ⟨0, by norm_num [fmtBits], by norm_num [patNum, floatFields, infFormats]⟩
  have hu0 : 0 ≤ u := hu.near.ge hzero (by rw [e24, e26]; push_cast; positivity)
  have hu1 : u ≤ 11660567 / 2 ^ 24 := by
    refine hu.near.le hU ?_
    have : 16121328 * 2 ^ (-26 : Int) * g + 11629080 * 2 ^ (-24 : Int) ≤ (11660567 / 2 ^ 24 : ℚ) := by
      rw [e24, e26]; norm_num; linarith
    exact_mod_cast this
  have hug : u * g ≤ 11660567 / 2 ^ 31 := by nlinarith
  have hug0 : 0 ≤ u * g := mul_nonneg hu0 h0
  obtain ⟨v, hv⟩ := mul32_step hu.val hG (by rw [abs_of_nonneg hug0]; linarith)
  have hv0 : 0 ≤ v := hv.near.ge hzero (by exact_mod_cast hug0)
  have hV : Holds .fp32 (11660567 / 2 ^ 31) := by
    have := holds_fp32 (k := 11660567) (q := -31) (by norm_num) (by norm_num) (by norm_num) false
    norm_num [sgn] at this ⊢
    exact this
  have hv1 : v ≤ 11660567 / 2 ^ 31 := hv.near.le hV (by exact_mod_cast hug)
  have hy2 : t * v + t ≤ 2 := by nlinarith
  have hy1 : 1 ≤ t * v + t := by nlinarith
  obtain ⟨y, hy⟩ := fma32_step hT hv.val hT (by rw [abs_of_nonneg (by linarith)]; linarith)
  have hone : Holds .fp32 1 := by simpa using holds_two_zpow (n := 0) (by norm_num) (by norm_num)
  have htwo : Holds .fp32 2 := by simpa using holds_two_zpow (n := 1) (by norm_num) (by norm_num)
  refine ⟨u, v, y, hu.near, hv.near, hy.near, hy.val, hy.near.ge hone (by exact_mod_cast hy1), hy.near.le htwo (by exact_mod_cast hy2),
    fun hc => ?_⟩
  have hz : Holds .fp32 (2 - 1 / 2 ^ 23) := by
    have := holds_fp32 (k := 16777215) (q := -23) (by norm_num) (by norm_num) (by norm_num) false
    norm_num [sgn] at this ⊢
    exact this
  have hlt : t * v + t < 2 - 1 / 2 ^ 24 := by
    rcases hc with hc | hc
    · nlinarith
    · have hV' : Holds .fp32 (11649180 / 2 ^ 31) := by
        have := holds_fp32 (k := 11649180) (q := -31) (by norm_num) (by norm_num) (by norm_num) false
        norm_num [sgn] at this ⊢
        exact this
      have hug' : u * g ≤ 11649180 / 2 ^ 31 := by nlinarith
      have hv2 : v ≤ 11649180 / 2 ^ 31 := hv.near.le hV' (by exact_mod_cast hug')
      nlinarith
  refine hy.near.lt_of_mid hz (by norm_num) ?_
  have hltR := (Rat.cast_lt (K := ℝ)).2 hlt
  push_cast at hltR ⊢
  norm_num at hltR ⊢
  linarith

/-! ### Splitting the argument -/

/-- A value times a power of two. -/
def scaleBy (n : Int) : FVal → FVal
  | .fin s m e st => .fin s m (e + n) st
  | v => v

theorem valNum_scaleBy {v : FVal} {y : ℚ} (hv : valNum v = some y) (n : Int) : valNum (scaleBy n v) = some (y * 2 ^ n)
    ∧ (scaleBy n v).sign = v.sign := by
  obtain ⟨m, e, hve, rfl⟩ := valNum_sgn hv
  generalize v.sign = s at *
  subst hve
  refine ⟨?_, rfl⟩
  rw [scaleBy, valNum_fin, zpow_add₀ two_ne_zero]
  congr 1
  ring

theorem fix200_eq {neg : Bool} {m : Nat} {e : Int} (he : -200 ≤ e) :
    (fix200 neg m e : ℚ) = sgn neg * (m * 2 ^ e) * 2 ^ 200 := by
  have h := shiftLeft_zpow m he
  rw [show e - -200 = e + 200 by ring] at h
  unfold fix200
  dsimp only
  rw [cast_signed, ← h]
  rw [mul_assoc, mul_assoc, show (2 : ℚ) ^ (-200 : Int) * 2 ^ 200 = 1 by norm_num, mul_one]

/-- R36: where EXP2 leaves its steps: from 128 on, and below −150. -/
theorem exp2F_extreme {neg : Bool} {m : Nat} {e : Int} {a : ℚ} (hv : valNum (.fin neg m e false) = some a) (he : -200 ≤ e) :
    (128 ≤ a → exp2F (.fin neg m e false) = .inf false) ∧ (a < -150 → exp2F (.fin neg m e false) = .zero false)
    ∧ (a = 0 → exp2F (.fin neg m e false) = FVal.ofNat 1) := by
  have hm := significand_eq_zero_iff hv rfl
  have hval : a = sgn neg * (m * 2 ^ e) := Option.some.inj (hv.symm.trans (valNum_fin neg m e))
  have hs : a ≠ 0 → neg = decide (a < 0) := fun h => sign_eq_decide hv h
  refine ⟨fun h => ?_, fun h => ?_, fun h => ?_⟩
  · have hm0 : m ≠ 0 := mt hm.1 (by linarith)
    have hneg : neg = false := by rw [hs (by linarith), decide_eq_false (by linarith)]
    have hl : 7 ≤ leadOf m e := by
      have h1 := (leadOf_bounds hm0 e).2
      rw [hval, hneg, sgn, if_neg (by decide), one_mul] at h
      have h2 : (2 : ℚ) ^ (7 : Int) < 2 ^ (leadOf m e + 1) := lt_of_le_of_lt (by norm_num; linarith) h1
      have := (zpow_lt_zpow_iff_right₀ (one_lt_two (α := ℚ))).1 h2
      omega
    unfold exp2F
    dsimp only
    rw [if_neg hm0, if_pos (by rw [hneg, decide_eq_true hl]; rfl)]
  · have hm0 : m ≠ 0 := mt hm.1 (by linarith)
    have hneg : neg = true := by rw [hs (by linarith), decide_eq_true (by linarith)]
    have hk : fix200 neg m e < -150 * ((2 ^ 200 : Nat) : Int) := by
      have h1 : (fix200 neg m e : ℚ) < ((-150 * ((2 ^ 200 : Nat) : Int) : Int) : ℚ) := by
        rw [fix200_eq he, ← hval]
        have h2 : a * 2 ^ 200 < -150 * 2 ^ 200 := mul_lt_mul_of_pos_right h (by positivity)
        push_cast
        linarith
      exact_mod_cast h1
    unfold exp2F
    dsimp only
    rw [if_neg hm0, if_neg (by rw [hneg]; simp), if_pos hk]
  · unfold exp2F
    dsimp only
    rw [if_pos (hm.2 h)]

/-- R36: EXP2 splits its argument into an integer, an index of the table and a remainder. -/
theorem exp2F_split {neg : Bool} {m : Nat} {e : Int} {a : ℚ} (hv : valNum (.fin neg m e false) = some a) (he : -200 ≤ e) (h0 : a ≠ 0)
    (h1 : -150 ≤ a) (h2 : a < 128) : ∃ (n : Int) (i : Nat) (G : FVal) (g : ℚ), a = n + i / 128 + g ∧ i < 128 ∧ 0 ≤ g ∧ g < 1 / 128
      ∧ valNum G = some g ∧ exp2F (.fin neg m e false)
        = scaleBy n (fma32 (tableAt expTable i) (mul32 (fma32 kC2 G kC1) G) (tableAt expTable i)) := by
  have hm := mt (significand_eq_zero_iff hv rfl).1 h0
  have hval : a = sgn neg * (m * 2 ^ e) := Option.some.inj (hv.symm.trans (valNum_fin neg m e))
  have hfix : (fix200 neg m e : ℚ) = a * 2 ^ 200 := by rw [fix200_eq he, hval]
  have hlead : (!neg && decide (7 ≤ leadOf m e)) = false := by
    cases hn : neg
    · rw [Bool.not_false, Bool.true_and, decide_eq_false_iff_not]
      intro hl
      have h3 := (leadOf_bounds hm e).1
      have h4 : (2 : ℚ) ^ (7 : Int) ≤ 2 ^ leadOf m e := zpow_le_zpow_right₀ one_le_two hl
      rw [hval, hn, sgn, if_neg (by decide), one_mul] at h2
      norm_num at h4
      linarith
    · rfl
  obtain ⟨k, hk⟩ : ∃ k, fix200 neg m e = k := ⟨_, rfl⟩
  obtain ⟨D, hD⟩ : ∃ D : Nat, 2 ^ 200 = D := ⟨_, rfl⟩
  obtain ⟨S, hS⟩ : ∃ S : Nat, 2 ^ 193 = S := ⟨_, rfl⟩
  have hDS : D = 128 * S := by rw [← hD, ← hS]; norm_num
  have hS0 : 0 < S := by rw [← hS]; positivity
  have hnot : ¬ k < -150 * (D : Int) := by
    intro hc
    have h3 : (k : ℚ) < ((-150 * (D : Int) : Int) : ℚ) := by exact_mod_cast hc
    rw [← hk, hfix, ← hD] at h3
    have h4 : a * 2 ^ 200 < -150 * 2 ^ 200 := by push_cast at h3; linarith
    exact absurd (lt_of_mul_lt_mul_right h4 (by positivity)) (not_lt.2 h1)
  obtain ⟨f, hf⟩ : ∃ f : Nat, (f : Int) = k % (D : Int) := ⟨(k % (D : Int)).toNat, Int.toNat_of_nonneg (Int.emod_nonneg _ (by omega))⟩
  have hfD : f < D := by
    have := Int.emod_lt_of_pos k (show (0 : Int) < D by omega)
    omega
  refine ⟨k / (D : Int), f / S, .fin false (f % S) (-200) false, (f % S : Nat) * 2 ^ (-200 : Int), ?_, ?_, by positivity, ?_, ?_, ?_⟩
  · have h3 : k = (D : Int) * (k / (D : Int)) + f := by rw [hf]; exact (Int.mul_ediv_add_emod k D).symm
    have h4 : f = S * (f / S) + f % S := (Nat.div_add_mod f S).symm
    generalize k / (D : Int) = n at *
    generalize f / S = i at *
    generalize f % S = r at *
    have h5 : (k : ℚ) = D * n + (S * i + r) := by
      have : k = (D : Int) * n + ((S * i + r : Nat) : Int) := by rw [← h4]; exact h3
      rw [this]; push_cast; ring
    rw [← hk, hfix, ← hD, ← hS] at h5
    push_cast at h5
    have e200 : (2 : ℚ) ^ (-200 : Int) = 1 / 2 ^ 200 := by norm_num
    rw [e200]
    have h6 : a = (2 ^ 200 * n + (2 ^ 193 * i + r)) / 2 ^ 200 := by rw [eq_div_iff (by positivity)]; exact h5
    rw [h6, add_div, add_div]
    norm_num
    ring
  · rw [Nat.div_lt_iff_lt_mul hS0]; omega
  · have h3 : ((f % S : Nat) : ℚ) < 2 ^ 193 := by
      have := Nat.mod_lt f hS0
      rw [← hS] at this ⊢
      exact_mod_cast this
    calc ((f % S : Nat) : ℚ) * 2 ^ (-200 : Int) < 2 ^ 193 * 2 ^ (-200 : Int) := by gcongr
      _ = 1 / 128 := by norm_num
  · rw [valNum_fin, sgn, if_neg (by decide), one_mul]
  · have hft : (k % (D : Int)).toNat = f := by omega
    unfold exp2F
    simp only [hk, hD, hS, hft]
    rw [if_neg hm, hlead, if_neg (by decide), if_neg hnot]
    rfl

end Sys2Proof.Machine
end

section
/-! PROOFS. EXP2 and LOG2 of FP32 (R36). -/

namespace Sys2Proof.Machine

/-! ### EXP2 -/

/-- The exponents that decoding answers. -/
theorem decodeF_exp_ge {f : Fmt} {e w b : Nat} (hf : floatFields f = some (e, w, b)) {x : Nat} {neg st : Bool} {m : Nat} {e₀ : Int}
    (h : decodeF f x = .fin neg m e₀ st) : (1 : Int) - b - w ≤ e₀ := by
  rw [decodeF_float hf] at h
  split at h
  · split at h <;> cases h
  split at h
  · cases h
  split at h
  · cases h; exact le_rfl
  · next h0 => cases h; omega

/-- A number of one binade moved to another one. -/
theorem holds_scaled {y : ℚ} (hy : Holds .fp32 y) (h1 : 1 ≤ y) (h2 : y < 2) {n : Int} (hn : -126 ≤ n) (hn' : n ≤ 127) :
    Holds .fp32 (y * 2 ^ n) := by
  obtain ⟨x, hx, hxy⟩ := hy
  obtain ⟨k, q, hc, hk, hy, -⟩ := exists_canon fp32_fields fp32_top hx hxy
  have hs : sgn (patSign .fp32 x) = 1 := by
    cases hp : patSign .fp32 x
    · simp [sgn]
    · have hle : sgn true * ((k : ℚ) * 2 ^ q) ≤ 0 := by
        rw [sgn, if_pos rfl, neg_one_mul, neg_nonpos]; positivity
      rw [hy, hp] at h1
      linarith
  rw [hs, one_mul] at hy
  have hkQ : (k : ℚ) < 2 ^ 24 := by exact_mod_cast hk
  have hlow : -24 < q := by
    have h3 : (2 : ℚ) ^ (0 : Int) < 2 ^ (q + 24) := by
      rw [zpow_zero, zpow_add₀ two_ne_zero]
      calc (1 : ℚ) ≤ k * 2 ^ q := hy ▸ h1
        _ < 2 ^ 24 * 2 ^ q := by gcongr
        _ = 2 ^ q * 2 ^ (24 : Int) := by rw [mul_comm]; norm_cast
    have := (zpow_lt_zpow_iff_right₀ (one_lt_two (α := ℚ))).1 h3
    omega
  have hhigh : q ≤ -23 := by
    rcases hc.full with hf | hf
    · have hfQ : (2 : ℚ) ^ 23 ≤ k := by exact_mod_cast hf
      have h3 : (2 : ℚ) ^ (q + 23) < 2 ^ (1 : Int) := by
        rw [zpow_add₀ two_ne_zero]
        calc (2 : ℚ) ^ q * 2 ^ (23 : Int) = 2 ^ 23 * 2 ^ q := by rw [mul_comm]; norm_cast
          _ ≤ k * 2 ^ q := by gcongr
          _ < 2 ^ (1 : Int) := by rw [← hy]; simpa using h2
      have := (zpow_lt_zpow_iff_right₀ (one_lt_two (α := ℚ))).1 h3
      omega
    · push_cast at hf; omega
  have h := holds_fp32 (k := k) (q := q + n) hk (by omega) (by omega) false
  rw [sgn, if_neg (by decide), one_mul, zpow_add₀ two_ne_zero, ← mul_assoc, ← hy] at h
  exact h

/-- Below 128, a number of FP32 is at least 2^−17 below. -/
theorem le_of_holds_lt {a : ℚ} (ha : Holds .fp32 a) (h : a < 128) : a ≤ 128 - 1 / 2 ^ 17 := by
  rcases lt_or_ge a 0 with h0 | h0
  · linarith [show (0 : ℚ) < 128 - 1 / 2 ^ 17 by norm_num]
  have hc : Canon 23 127 (2 ^ 24 - 1) (-17) := ⟨by norm_num, by norm_num, .inl (by norm_num)⟩
  have hg := gap_of_canon fp32_fields fp32_top hc a ha
  rw [abs_of_nonneg (by exact_mod_cast h0)] at hg
  have hR := (Rat.cast_lt (K := ℝ)).2 h
  have hle : (a : ℝ) ≤ ((128 - 1 / 2 ^ 17 : ℚ) : ℝ) := by
    push_cast at hR hg ⊢
    norm_num at hR hg ⊢
    rcases hg with hg | hg <;> linarith
  exact_mod_cast hle

/-- R36: what EXP2 takes its steps to, within its range. -/
structure ExpSteps (a : ℚ) (n : Int) (i : Nat) (g u v t y : ℚ) : Prop where
  split : a = n + i / 128 + g
  index : i < 128
  nonneg : 0 ≤ g
  lt : g < 1 / 128
  table : Rne32 ((2 : ℝ) ^ ((i : ℝ) / 128)) t
  poly : Rne32 ((16121328 * 2 ^ (-26 : Int)) * g + (11629080 * 2 ^ (-24 : Int)) : ℚ) u
  power : Rne32 (u * g : ℚ) v
  result : Rne32 (t * v + t : ℚ) y
  one_le : 1 ≤ y
  le_two : y ≤ 2
  lt_two : n = 127 → y < 2

theorem ExpSteps.holds {a : ℚ} {n : Int} {i : Nat} {g u v t y : ℚ} (h : ExpSteps a n i g u v t y) (ha : a < 128)
    (hn : 1 / 2 ^ 126 ≤ y * 2 ^ n) : Holds .fp32 (y * 2 ^ n) := by
  have hn' : n ≤ 127 := by
    have h1 : (n : ℚ) < 128 := by
      have := h.split; have := h.nonneg
      have : (0 : ℚ) ≤ (i : ℚ) / 128 := by positivity
      linarith
    have : n < 128 := by exact_mod_cast h1
    omega
  rcases lt_or_eq_of_le h.le_two with h2 | h2
  · refine holds_scaled h.result.holds h.one_le h2 ?_ hn'
    by_contra hc
    have h3 : (2 : ℚ) ^ n ≤ 2 ^ (-127 : Int) := zpow_le_zpow_right₀ one_le_two (by omega)
    have h4 : y * 2 ^ n < 2 * 2 ^ (-127 : Int) := by
      have := h.one_le
      exact mul_lt_mul h2 h3 (by positivity) (by norm_num)
    norm_num at h4 hn
    linarith
  · have hn6 : n ≤ 126 := by
      by_contra hc
      exact absurd (h.lt_two (by omega)) (by rw [h2]; exact lt_irrefl _)
    rw [h2, ← zpow_one_add₀ two_ne_zero] at hn ⊢
    have h3 : (2 : ℚ) ^ (-126 : Int) ≤ 2 ^ (1 + n) := by norm_num at hn ⊢; exact hn
    have h4 := (zpow_le_zpow_iff_right₀ (one_lt_two (α := ℚ))).1 h3
    have h5 := holds_scaled (y := 1) (n := 1 + n) (by simpa using holds_two_zpow (n := 0) (by norm_num) (by norm_num)) le_rfl (by norm_num)
      h4 (by omega)
    rwa [one_mul] at h5

theorem exp2_steps {x : Nat} {a : ℚ} (hx : x < 2 ^ 32) (hxa : patNum .fp32 x = some a) (h1 : -150 ≤ a) (h2 : a < 128) :
    ∃ n i g u v t y w, ExpSteps a n i g u v t y ∧ exp2F (decodeF .fp32 x) = w ∧ valNum w = some (y * 2 ^ n) := by
  have hv := valNum_decodeF hxa
  obtain ⟨m, e, hve, -⟩ := valNum_sgn hv
  have he := decodeF_exp_ge fp32_fields hve
  rw [hve] at hv
  rw [hve]
  generalize (decodeF .fp32 x).sign = s at *
  have he' : -200 ≤ e := by push_cast at he; omega
  rcases eq_or_ne a 0 with h0 | h0
  · have hone : Holds .fp32 1 := by simpa using holds_two_zpow (n := 0) (by norm_num) (by norm_num)
    have hzero : Holds .fp32 0 := ⟨_, (patNum_signBit fp32_fields false).2.1, (patNum_signBit fp32_fields false).1⟩
    have hone' : Rne32 ((1 : ℚ) : ℝ) 1 := rne32_self hone
    refine ⟨0, 0, 0, 11629080 * 2 ^ (-24 : Int), 0, 1, 1, _, ⟨by rw [h0]; norm_num, by norm_num, le_rfl, by norm_num, ?_, ?_, ?_, ?_,
      le_rfl, by norm_num, fun hc => by cases hc⟩, (exp2F_extreme hv he').2.2 h0, by simp [FVal.ofNat, valNum]⟩
    · simpa using hone'
    · rw [mul_zero, zero_add]
      exact rne32_self kC1_near.2.holds
    · rw [mul_zero]
      exact rne32_self hzero
    · rw [mul_zero, zero_add]
      exact hone'
  · obtain ⟨n, i, G, g, hsplit, hi, hg0, hg1, hG, hw⟩ := exp2F_split hv he' h0 h1 h2
    obtain ⟨hT, ht⟩ := expTable_near hi
    obtain ⟨-, hk, hk', hk6, -, -, -⟩ := expTable_check i hi
    obtain ⟨t, htt⟩ : ∃ t : ℚ, (expSig i : ℚ) * 2 ^ (-23 : Int) = t := ⟨_, rfl⟩
    have e23 : (2 : ℚ) ^ (-23 : Int) = 1 / 2 ^ 23 := by norm_num
    have hcast : ∀ j : Nat, expSig i ≤ j → t ≤ (j : ℚ) / 2 ^ 23 := fun j hj => by
      have : (expSig i : ℚ) ≤ j := by exact_mod_cast hj
      rw [← htt, e23, mul_one_div]
      gcongr
    have ht1 : 1 ≤ t := by
      have : ((2 ^ 23 : Nat) : ℚ) ≤ expSig i := by exact_mod_cast hk
      rw [← htt, e23, mul_one_div, le_div_iff₀ (by positivity), one_mul]
      exact_mod_cast hk
    rw [htt] at hT ht
    obtain ⟨u, v, y, hu, hvv, hy, hval, hy1, hy2, hylt⟩ := exp_chain hG hT hg0 hg1 ht1 (hcast _ hk')
    refine ⟨n, i, g, u, v, t, y, _, ⟨hsplit, hi, hg0, hg1, ht, hu, hvv, hy, hy1, hy2, fun hn => hylt ?_⟩, hw, (valNum_scaleBy hval n).1⟩
    by_cases hi7 : i = 127
    · right
      have hle := le_of_holds_lt ⟨x, hx, hxa⟩ h2
      rw [hn, hi7] at hsplit
      push_cast at hsplit
      linarith
    · exact .inl (hcast _ (hk6 hi7))

theorem exp2_gives {x : Nat} {a : ℚ} (hx : x < 2 ^ 32) (hxa : patNum .fp32 x = some a) (h1 : -126 ≤ a) (h2 : a < 128) :
    ∃ (n : ℤ) (i : Nat) (g c1 c2 u v t y : ℚ), a = n + i / 128 + g ∧ i < 128 ∧ 0 ≤ g ∧ g < 1 / 128
      ∧ Rne32 (Real.log 2) c1 ∧ Rne32 (Real.log 2 ^ 2 / 2) c2 ∧ Rne32 ((2 : ℝ) ^ (i / 128 : ℝ)) t
      ∧ Rne32 (c2 * g + c1 : ℚ) u ∧ Rne32 (u * g : ℚ) v ∧ Rne32 (t * v + t : ℚ) y ∧ Gives .exp2 x (y * 2 ^ n) := by
  obtain ⟨n, i, g, u, v, t, y, w, h, hw, hval⟩ := exp2_steps hx hxa (by linarith) h2
  have hn : -126 ≤ n := by
    have h3 : (-127 : ℚ) < n := by
      have := h.split; have := h.lt
      have : ((i : ℚ)) / 128 ≤ 127 / 128 := by
        have : (i : ℚ) ≤ 127 := by exact_mod_cast (by have := h.index; omega : i ≤ 127)
        gcongr
      linarith
    have : -127 < n := by exact_mod_cast h3
    omega
  have hy : 1 / 2 ^ 126 ≤ y * 2 ^ n := by
    have h3 : (2 : ℚ) ^ (-126 : Int) ≤ 2 ^ n := zpow_le_zpow_right₀ one_le_two hn
    have h4 : (2 : ℚ) ^ n ≤ y * 2 ^ n := le_mul_of_one_le_left (by positivity) h.one_le
    norm_num at h3 ⊢
    linarith
  refine ⟨n, i, g, _, _, u, v, t, y, h.split, h.index, h.nonneg, h.lt, kC1_near.2, kC2_near.2, h.table, h.poly, h.power, h.result, ?_⟩
  have hraw : TFun.raw .exp2 (decodeF .fp32 x) = (w, 0) := congrArg (·, (0 : Flags)) hw
  exact gives_of_holds hraw hval (h.holds h2 hy) (.inr (hy.trans (le_abs_self _)))

/-- R36: EXP2 overflows to +∞ from 128 on, and is +0 below −150. -/
theorem exp2_extreme {x : Nat} {a : ℚ} (hxa : patNum .fp32 x = some a) (env : FEnv) :
    (128 ≤ a → transc .exp2 .fp32 x env = (0x7F800000, env.raise 0)) ∧ (a < -150 → transc .exp2 .fp32 x env = (0, env.raise 0)) := by
  have hv := valNum_decodeF hxa
  obtain ⟨m, e, hve, -⟩ := valNum_sgn hv
  have he := decodeF_exp_ge fp32_fields hve
  rw [hve] at hv
  obtain ⟨hbig, hsmall, -⟩ := exp2F_extreme hv (by push_cast at he; omega)
  have hraw : TFun.raw .exp2 (decodeF .fp32 x) = (exp2F (decodeF .fp32 x), 0) := rfl
  rw [transc_fp32, hraw, hve]
  exact ⟨fun h => by rw [hbig h]; rfl, fun h => by rw [hsmall h]; rfl⟩

/-! ### LOG2 -/

/-- The significand of entry `i` of the table of logarithms, in units of 2^−30. -/
def logFix (i : Nat) : Nat :=
  let x := bitsOf (logTable.getD (i / 16) 0) (32 * (i % 16)) 32
  sigOf 23 (x / 2 ^ 23) (x % 2 ^ 23) * 2 ^ (x / 2 ^ 23 - 120)

/-- The table of logarithms, entry by entry, in integers: entry `i` is within two units of 2^−10 of the logarithm. -/
theorem logTable_check : ∀ i < 128, bitsOf (logTable.getD (i / 16) 0) (32 * (i % 16)) 32 / 2 ^ 23 < 127
    ∧ (bitsOf (logTable.getD (i / 16) 0) (32 * (i % 16)) 32 = 0 ∨ 120 ≤ bitsOf (logTable.getD (i / 16) 0) (32 * (i % 16)) 32 / 2 ^ 23)
    ∧ logFix i ≤ 2 ^ 30
    ∧ 128 ^ 1024 * 2 ^ (logFix i / 2 ^ 20) ≤ 2 * (128 + i) ^ 1024 ∧ (128 + i) ^ 1024 ≤ 2 ^ (logFix i / 2 ^ 20 + 2) * 128 ^ 1024 := by
  decide +kernel

/-- The binary logarithm of (128 + i)/128 from two comparisons of `K`th powers. -/
theorem logb_between {K i j : Nat} (hlo : 128 ^ K * 2 ^ j ≤ 2 * (128 + i) ^ K) (hhi : (128 + i) ^ K ≤ 2 ^ (j + 2) * 128 ^ K) :
    (j : ℝ) ≤ 1 + K * Real.logb 2 (1 + i / 128) ∧ K * Real.logb 2 (1 + i / 128) ≤ j + 2 := by
  obtain ⟨r, hr⟩ : ∃ r : ℝ, 1 + (i : ℝ) / 128 = r := ⟨_, rfl⟩
  have hr0 : 0 < r := by rw [← hr]; positivity
  have hrpow : r ^ K * 128 ^ K = (128 + i) ^ K := by
    rw [← mul_pow, ← hr]; congr 1; ring
  have h128 : (0 : ℝ) < 128 ^ K := by positivity
  have hloR : (2 : ℝ) ^ j ≤ 2 * r ^ K := by
    have h := (Nat.cast_le (α := ℝ)).2 hlo
    push_cast at h
    rw [← hrpow] at h
    nlinarith
  have hhiR : r ^ K ≤ 2 ^ (j + 2) := by
    have h := (Nat.cast_le (α := ℝ)).2 hhi
    push_cast at h
    rw [← hrpow] at h
    exact le_of_mul_le_mul_right h h128
  rw [hr]
  constructor
  · have h := Real.logb_le_logb_of_le (b := 2) (by norm_num) (by positivity) hloR
    rwa [Real.logb_mul (by norm_num) (by positivity), Real.logb_pow, Real.logb_pow, Real.logb_self_eq_one (by norm_num), mul_one] at h
  · have h := Real.logb_le_logb_of_le (b := 2) (by norm_num) (by positivity) hhiR
    rw [Real.logb_pow, Real.logb_pow, Real.logb_self_eq_one (by norm_num), mul_one] at h
    exact_mod_cast h

/-- R35: entry `i` of the table of logarithms. -/
theorem logTable_near {i : Nat} (hi : i < 128) : ∃ t : ℚ, valNum (tableAt logTable i) = some t ∧ Holds .fp32 t ∧ 0 ≤ t ∧ t ≤ 1
    ∧ |(t : ℝ) - Real.logb 2 (1 + i / 128)| ≤ 1 / 2 ^ 9 := by
  obtain ⟨hex, hnorm, hone, hlo, hhi⟩ := logTable_check i hi
  obtain ⟨hL1, hL2⟩ := logb_between hlo hhi
  clear hlo hhi
  obtain ⟨x, hx⟩ : ∃ x, bitsOf (logTable.getD (i / 16) 0) (32 * (i % 16)) 32 = x := ⟨_, rfl⟩
  obtain ⟨N, hN⟩ : ∃ N, logFix i = N := ⟨_, rfl⟩
  rw [hx] at hex hnorm
  rw [hN] at hL1 hL2 hone
  have hx32 : x < 2 ^ 32 := by omega
  have hfields : x = fieldsPat 8 23 false (x / 2 ^ 23) (x % 2 ^ 23) := by unfold fieldsPat; simp; omega
  have hpat : patNum .fp32 x = some ((N : ℚ) / 2 ^ 30) := by
    rw [hfields, patNum_fieldsPat fp32_fields (by omega) (by omega), if_neg (by rintro (⟨h, -⟩ | ⟨h, -⟩) <;> [omega; cases h]),
      sgn, if_neg (by decide), one_mul, ← hN]
    refine congrArg some ?_
    unfold logFix
    simp only [hx]
    rcases hnorm with h0 | h0
    · rw [h0]; simp [sigOf]
    · obtain ⟨j, hj⟩ : ∃ j, x / 2 ^ 23 = 120 + j := ⟨x / 2 ^ 23 - 120, by omega⟩
      rw [hj, show expOf 23 127 (120 + j) = (j : Int) - 30 by unfold expOf; omega, Nat.add_sub_cancel_left, zpow_sub₀ two_ne_zero,
        zpow_natCast]
      push_cast
      rw [show (2 : ℚ) ^ 30 = 1073741824 by norm_num, mul_div_assoc]
  obtain ⟨j, hj⟩ : ∃ j, N / 2 ^ 20 = j := ⟨_, rfl⟩
  rw [hj] at hL1 hL2
  have hN1 : ((j * 2 ^ 20 : Nat) : ℝ) ≤ N := by
    have : j * 2 ^ 20 ≤ N := by omega
    exact_mod_cast this
  have hN2 : (N : ℝ) < ((j + 1) * 2 ^ 20 : Nat) := by
    have : N < (j + 1) * 2 ^ 20 := by omega
    exact_mod_cast this
  push_cast at hN1 hN2 hL1 hL2
  generalize Real.logb 2 (1 + (i : ℝ) / 128) = L at *
  refine ⟨(N : ℚ) / 2 ^ 30, ?_, ⟨x, hx32, hpat⟩, by positivity, ?_, ?_⟩
  · unfold tableAt fp32
    rw [hx]
    exact valNum_decodeF hpat
  · rw [div_le_one (by positivity)]
    exact_mod_cast hone
  · push_cast
    rw [abs_le]
    norm_num at hN1 hN2 ⊢
    constructor <;> linarith

theorem valNum_ofInt (z : Int) : valNum (.ofInt z) = some (z : ℚ) := by
  simp only [FVal.ofInt, valNum, zpow_zero, mul_one, Option.some_inj]
  by_cases hz : z < 0
  · rw [decide_eq_true hz, if_pos rfl, Nat.cast_natAbs, abs_of_neg (by exact_mod_cast hz)]; push_cast; ring
  · rw [decide_eq_false hz, if_neg (by decide), Nat.cast_natAbs, abs_of_nonneg (by exact_mod_cast not_lt.1 hz), one_mul]

theorem valNum_ofNat (n : Nat) : valNum (.ofNat n) = some (n : ℚ) := by simp [FVal.ofNat, valNum]

/-- R35: the table of reciprocals. -/
theorem rtAt_step (i : Nat) : ∃ r, Step (rtAt i) (1 / (1 + i / 128)) r ∧ 0 ≤ r ∧ r ≤ 1 := by
  have hne : ((128 + i : Nat) : ℚ) ≠ 0 := by positivity
  obtain ⟨m, e, st, hdiv, hm, hmag, hbits, -⟩ := div_spec (valNum_ofNat 128) (valNum_ofNat (128 + i)) (by norm_num) hne
  have hy : |(((128 : Nat) / (128 + i : Nat) : ℚ) : ℝ)| = 1 / (1 + i / 128) := by
    push_cast
    rw [abs_of_nonneg (by positivity)]
    field_simp
  have h1 : (1 : ℝ) / (1 + i / 128) ≤ 1 := by
    rw [div_le_one (by positivity)]
    have : (0 : ℝ) ≤ (i : ℝ) / 128 := by positivity
    linarith
  rw [hy] at hmag
  obtain ⟨x, r, p1, p2, -⟩ := r32_of_mag (neg := false) hm hmag (fun _ => by omega) (h1.trans_lt (by norm_num))
  rw [cast_sgn_false, one_mul] at p2
  have hone : Holds .fp32 1 := by simpa using holds_two_zpow (n := 0) (by norm_num) (by norm_num)
  have hzero : Holds .fp32 0 := ⟨_, (patNum_signBit fp32_fields false).2.1, (patNum_signBit fp32_fields false).1⟩
  refine ⟨r, ⟨⟨x, ?_⟩, p2⟩, p2.ge hzero (by push_cast; positivity), p2.le hone (by exact_mod_cast h1)⟩
  unfold rtAt
  rw [hdiv]
  exact p1

/-- R36: LOG2 splits its argument into a power of two, an index of the table and a remainder. -/
theorem log2F_split {m : Nat} {e : Int} {a : ℚ} (hv : valNum (.fin false m e false) = some a) (ha : 0 < a) :
    ∃ (n : Int) (i : Nat) (G : FVal) (g : ℚ), a = (1 + i / 128 + g) * 2 ^ n ∧ i < 128 ∧ 0 ≤ g ∧ g < 1 / 128 ∧ valNum G = some g
      ∧ log2F (.fin false m e false) = (add32 (add32 (FVal.ofInt n) (tableAt logTable i))
        (mul32 (fma32 kD2 (mul32 G (rtAt i)) kL) (mul32 G (rtAt i))), 0) := by
  have hm := mt (significand_eq_zero_iff hv rfl).1 ha.ne'
  have hval : a = m * 2 ^ e := by
    have := Option.some.inj (hv.symm.trans (valNum_fin false m e))
    rwa [sgn, if_neg (by decide), one_mul] at this
  obtain ⟨h1, h2, h3⟩ := bitLen_bounds hm
  obtain ⟨l, hl⟩ : ∃ l, bitLen m - 1 = l := ⟨_, rfl⟩
  rw [hl] at h2
  rw [show bitLen m = l + 1 by omega, pow_succ] at h3
  obtain ⟨S, hS⟩ : ∃ S : Nat, 2 ^ l = S := ⟨_, rfl⟩
  have hS0 : 0 < S := by rw [← hS]; positivity
  rw [hS] at h2 h3
  obtain ⟨fr, hfr⟩ : ∃ fr, (m - S) * 128 = fr := ⟨_, rfl⟩
  have hSQ : (S : ℚ) = 2 ^ l := by rw [← hS]; push_cast; rfl
  have hg : ((fr % S : Nat) : ℚ) * 2 ^ (-(l : Int) - 7) = (fr % S : Nat) / S / 128 := by
    rw [hSQ, zpow_sub₀ two_ne_zero, zpow_neg, zpow_natCast, show (2 : ℚ) ^ (7 : Int) = 128 by norm_num]
    field_simp
  have hmod : ((fr % S : Nat) : ℚ) < S := by exact_mod_cast Nat.mod_lt fr hS0
  have hSpos : (0 : ℚ) < S := by exact_mod_cast hS0
  refine ⟨e + l, fr / S, .fin false (fr % S) (-(l : Int) - 7) false, (fr % S : Nat) * 2 ^ (-(l : Int) - 7), ?_, ?_, by positivity, ?_, ?_, ?_⟩
  · have h4 : (fr : ℚ) = S * (fr / S : Nat) + (fr % S : Nat) := by exact_mod_cast (Nat.div_add_mod fr S).symm
    have h5 : (fr : ℚ) = (m - S) * 128 := by rw [← hfr, Nat.cast_mul, Nat.cast_sub h2]; push_cast; rfl
    rw [hg, hval, zpow_add₀ two_ne_zero, zpow_natCast, ← hSQ]
    have h6 : (m : ℚ) = S * (1 + (fr / S : Nat) / 128 + (fr % S : Nat) / S / 128) := by
      field_simp
      linarith
    generalize ((fr / S : Nat) : ℚ) = i at *
    generalize ((fr % S : Nat) : ℚ) = r at *
    rw [h6]
    ring
  · rw [Nat.div_lt_iff_lt_mul hS0]; omega
  · rw [hg]
    have : ((fr % S : Nat) : ℚ) / S < 1 := (div_lt_one hSpos).2 hmod
    linarith
  · rw [valNum_fin, sgn, if_neg (by decide), one_mul]
  · unfold log2F
    simp only [hl, hS, hfr]
    rw [if_neg hm, if_neg (by decide)]

theorem log2_gives {x : Nat} {a : ℚ} (hx : x < 2 ^ 32) (hxa : patNum .fp32 x = some a) (ha : 0 < a) :
    ∃ (n : ℤ) (i : Nat) (g r d1 d2 w u p h t y : ℚ), a = (1 + i / 128 + g) * 2 ^ n ∧ i < 128 ∧ 0 ≤ g ∧ g < 1 / 128
      ∧ Rne32 (1 / (1 + i / 128)) r ∧ Rne32 (1 / Real.log 2) d1 ∧ Rne32 (-1 / (2 * Real.log 2)) d2
      ∧ |(t : ℝ) - Real.logb 2 (1 + i / 128)| ≤ 1 / 2 ^ 9 ∧ Rne32 (g * r : ℚ) w ∧ Rne32 (d2 * w + d1 : ℚ) u ∧ Rne32 (u * w : ℚ) p
      ∧ Rne32 (n + t : ℚ) h ∧ Rne32 (h + p : ℚ) y ∧ (y = 0 ∨ 1 / 2 ^ 126 ≤ |y| → Gives .log2 x y) := by
  have hv := valNum_decodeF hxa
  obtain ⟨m, e, hve, -⟩ := valNum_sgn hv
  rw [sign_eq_decide hv ha.ne', decide_eq_false (not_lt.2 ha.le)] at hve
  rw [hve] at hv
  obtain ⟨n, i, G, g, hsplit, hi, hg0, hg1, hG, hlog⟩ := log2F_split hv ha
  obtain ⟨r, hr, hr0, hr1⟩ := rtAt_step i
  obtain ⟨t, hT, htH, ht0, ht1, htnear⟩ := logTable_near hi
  have hn : |(n : ℚ)| ≤ 150 := by
    have h1 := le_of_holds_pos ⟨x, hx, hxa⟩ ha
    have h2 := (le_abs_self a).trans (abs_le_fp32 ⟨x, hx, hxa⟩)
    have hi' : (i : ℚ) / 128 ≤ 127 / 128 := by
      have : (i : ℚ) ≤ 127 := by exact_mod_cast (by omega : i ≤ 127)
      gcongr
    have hi0 : (0 : ℚ) ≤ (i : ℚ) / 128 := by positivity
    have hp : (0 : ℚ) < 2 ^ n := by positivity
    have h3 : (2 : ℚ) ^ (-149 : Int) < 2 ^ (1 + n) := by
      rw [zpow_one_add₀ two_ne_zero]
      refine lt_of_le_of_lt h1 ?_
      rw [hsplit]
      gcongr
      linarith
    have h4 : (2 : ℚ) ^ n < 2 ^ (128 : Int) := by
      refine lt_of_le_of_lt ?_ (h2.trans_lt (by norm_num))
      rw [hsplit]
      exact le_mul_of_one_le_left hp.le (by linarith)
    have h3' := (zpow_lt_zpow_iff_right₀ (one_lt_two (α := ℚ))).1 h3
    have h4' := (zpow_lt_zpow_iff_right₀ (one_lt_two (α := ℚ))).1 h4
    have h5 : |n| ≤ 150 := abs_le.2 ⟨by omega, by omega⟩
    exact_mod_cast h5
  have e23 : (2 : ℚ) ^ (-23 : Int) = 1 / 2 ^ 23 := by norm_num
  have e24 : (2 : ℚ) ^ (-24 : Int) = 1 / 2 ^ 24 := by norm_num
  have hpow : ∀ k : Nat, k ≤ 104 → Holds .fp32 (2 ^ k) := fun k hk => by
    have := holds_two_zpow (n := (k : Int)) (by omega) (by omega)
    rwa [zpow_natCast] at this
  have hbound : ∀ {y q : ℚ} (k : Nat), k ≤ 104 → Rne32 y q → |y| ≤ 2 ^ k → |q| ≤ 2 ^ k := fun k hk h hy =>
    h.abs_le_of_holds (hpow k hk) (by
      have := (Rat.cast_le (K := ℝ)).2 hy
      push_cast at this ⊢
      exact this)
  have hgr : |g * r| ≤ 2 ^ 0 := by rw [abs_of_nonneg (mul_nonneg hg0 hr0)]; nlinarith
  obtain ⟨w, hw⟩ := mul32_step hG hr.val (hgr.trans_lt (by norm_num))
  have hwb := hbound 0 (by norm_num) hw.near hgr
  have hwb' := abs_le.1 hwb
  have hu0 : |-(12102203 * 2 ^ (-24 : Int)) * w + 12102203 * 2 ^ (-23 : Int)| ≤ 2 ^ 2 := by
    rw [e23, e24, abs_le]; constructor <;> norm_num at hwb' ⊢ <;> linarith
  obtain ⟨u, hu⟩ := fma32_step kD2_near.1 hw.val (valNum_decodeF kL_near.2) (hu0.trans_lt (by norm_num))
  have hub := hbound 2 (by norm_num) hu.near hu0
  have hp0 : |u * w| ≤ 2 ^ 2 := by
    rw [abs_mul]
    calc |u| * |w| ≤ 2 ^ 2 * 2 ^ 0 := mul_le_mul hub hwb (abs_nonneg _) (by norm_num)
      _ = 2 ^ 2 := by norm_num
  obtain ⟨p, hp⟩ := mul32_step hu.val hw.val (hp0.trans_lt (by norm_num))
  have hpb := hbound 2 (by norm_num) hp.near hp0
  have hh0 : |(n : ℚ) + t| ≤ 2 ^ 8 := (abs_add_le _ _).trans (by rw [abs_of_nonneg ht0]; norm_num; linarith)
  obtain ⟨h, hh⟩ := add32_step (valNum_ofInt n) hT (hh0.trans_lt (by norm_num))
  have hhb := hbound 8 (by norm_num) hh.near hh0
  have hy0 : |h + p| ≤ 2 ^ 9 := (abs_add_le _ _).trans (by norm_num at hhb hpb ⊢; linarith)
  obtain ⟨y, hy⟩ := add32_step hh.val hp.val (hy0.trans_lt (by norm_num))
  have hraw : TFun.raw .log2 (decodeF .fp32 x) = (add32 (add32 (FVal.ofInt n) (tableAt logTable i))
      (mul32 (fma32 kD2 (mul32 G (rtAt i)) kL) (mul32 G (rtAt i))), 0) := by rw [hve]; exact hlog
  exact ⟨n, i, g, r, _, _, w, u, p, h, t, y, hsplit, hi, hg0, hg1, hr.near, ⟨_, kL_near⟩, kD2_near.2, htnear, hw.near, hu.near, hp.near,
    hh.near, hy.near, fun hc => gives_of_holds hraw hy.val hy.near.holds hc⟩

end Sys2Proof.Machine
end

section
/-! PROOFS. SIGM and TANH, the narrower sources, and the settled obligation O11 (R35, R36). -/

namespace Sys2Proof.Machine

/-! ### The nearest number is one -/

/-- Between two numbers with even patterns there is another number. -/
theorem exists_between_even {x x' : Nat} {r r' : ℚ} (hx : x < 2 ^ 32) (hx' : x' < 2 ^ 32) (hr : patNum .fp32 x = some r)
    (hr' : patNum .fp32 x' = some r') (heven : x % 2 = 0) (heven' : x' % 2 = 0) (hlt : r < r') (hpos : 0 < r') :
    ∃ z, Holds .fp32 z ∧ r < z ∧ z < r' := by
  obtain ⟨k, q, hc, hk, hz, htop⟩ := exists_canon fp32_fields fp32_top hx' hr'
  have hs' : patSign .fp32 x' = false := by
    rw [← sign_decodeF_fp32 hr', sign_eq_decide (valNum_decodeF hr') hpos.ne', decide_eq_false (not_lt.2 hpos.le)]
  rw [hs', sgn, if_neg (by decide), one_mul] at hz
  have hpar : x' % 2 = k % 2 := by
    obtain ⟨p1, p2, p3, p4, -⟩ := pat_packMag fp32_fields fp32_top hc htop false
    rw [← p4]
    congr 1
    exact pat_inj fp32_fields hx' p2 (hs'.trans p3.symm) hr' (by rw [p1, hz]; simp [sgn])
  have hk2 : 2 ≤ k := by
    have : k ≠ 0 := by rintro rfl; rw [hz] at hpos; simp at hpos
    omega
  obtain ⟨j, q', hc', hj, hnext⟩ : ∃ (j : Nat) (q' : Int), Canon 23 127 j q' ∧ j % 2 = 1 ∧ ((j : ℝ) + 1) * 2 ^ q' = k * 2 ^ q := by
    by_cases hcase : 2 ^ 23 < k ∨ q = 1 - (127 : Nat) - (23 : Nat)
    · refine ⟨k - 1, q, ⟨by omega, hc.finest, ?_⟩, by omega, ?_⟩
      · rcases hcase with h | h
        · exact .inl (by omega)
        · exact .inr h
      · rw [Nat.cast_sub (by omega)]; push_cast; ring
    · rw [not_or] at hcase
      have hfull := hc.full.resolve_right hcase.2
      have hfin := hc.finest
      refine ⟨2 * k - 1, q - 1, ⟨by omega, by omega, .inl (by omega)⟩, by omega, ?_⟩
      rw [Nat.cast_sub (by omega), zpow_sub_one₀ two_ne_zero]; push_cast; ring
  have hQ : (0 : ℝ) < 2 ^ q' := by positivity
  have hjtop : (j : ℝ) * 2 ^ q' ≤ (2 ^ 24 - 1 : Nat) * 2 ^ (104 : Int) := by
    refine le_trans ?_ htop
    rw [← hnext]
    nlinarith
  obtain ⟨p1, p2, p3, p4, -⟩ := pat_packMag fp32_fields fp32_top hc' hjtop false
  have hj0 : (0 : ℝ) < j * 2 ^ q' := by
    have : (0 : ℝ) < j := by exact_mod_cast (by omega : 0 < j)
    positivity
  have hzR : (r' : ℝ) = (j + 1) * 2 ^ q' := by rw [hnext, hz]; push_cast; rfl
  have hltR : (r : ℝ) < (j + 1) * 2 ^ q' := by rw [← hzR]; exact_mod_cast hlt
  have hle : (r : ℝ) ≤ j * 2 ^ q' := by
    rcases gap_of_canon fp32_fields fp32_top hc' r ⟨x, hx, hr⟩ with h | h
    · exact (le_abs_self _).trans h
    · rcases le_abs'.1 h with h' | h'
      · nlinarith
      · linarith
  rw [sgn, if_neg (by decide), one_mul] at p1
  have hne : r ≠ j * 2 ^ q' := by
    intro he
    have hr0 : 0 < r := by
      have : (0 : ℝ) < r := by rw [he]; push_cast; exact hj0
      exact_mod_cast this
    have hs : patSign .fp32 x = false := by
      rw [← sign_decodeF_fp32 hr, sign_eq_decide (valNum_decodeF hr) hr0.ne', decide_eq_false (not_lt.2 hr0.le)]
    have hxx := pat_inj fp32_fields hx p2 (hs.trans p3.symm) hr (by rw [p1, he])
    rw [← hxx] at p4
    omega
  refine ⟨j * 2 ^ q', ⟨_, p2, p1⟩, lt_of_le_of_ne ?_ hne, ?_⟩
  · exact_mod_cast (show (r : ℝ) ≤ ((j * 2 ^ q' : ℚ) : ℝ) by push_cast; exact hle)
  · have : (((j * 2 ^ q' : ℚ)) : ℝ) < r' := by rw [hzR]; push_cast; nlinarith
    exact_mod_cast this

/-- R24: there is one nearest number, ties going to the even pattern. -/
theorem Rne32.unique {y : ℝ} {q q' : ℚ} (h : Rne32 y q) (h' : Rne32 y q') : q = q' := by
  wlog hlt : q < q' generalizing q q'
  · rcases lt_trichotomy q q' with h1 | h1 | h1
    · exact this h h' h1
    · exact h1
    · exact (this h' h h1).symm
  exfalso
  wlog hpos : 0 < q' generalizing y q q'
  · exact this h'.neg h.neg (neg_lt_neg hlt) (by linarith)
  have hq := h.holds
  have hq' := h'.holds
  obtain ⟨x, ⟨r, hx, hr, hnear⟩, hxr⟩ := h
  obtain rfl : r = q := Option.some.inj (hr.symm.trans hxr)
  obtain ⟨x', ⟨r', hx', hr', hnear'⟩, hxr'⟩ := h'
  obtain rfl : r' = q' := Option.some.inj (hr'.symm.trans hxr')
  have htie : |(r : ℝ) - y| = |(r' : ℝ) - y| ∧ x % 2 = 0 ∧ x' % 2 = 0 := by
    rcases hnear r' hq' with h1 | h1 | ⟨h1, h2⟩
    · exact absurd h1 hlt.ne'
    · rcases hnear' r hq with h3 | h3 | ⟨h3, -⟩
      · exact absurd h3 hlt.ne
      · exact absurd h1 h3.not_gt
      · exact absurd h1 (by rw [h3]; exact lt_irrefl _)
    · rcases hnear' r hq with h3 | h3 | ⟨-, h4⟩
      · exact absurd h3 hlt.ne
      · exact absurd h3 (by rw [h1]; exact lt_irrefl _)
      · exact ⟨h1, h2, h4⟩
  obtain ⟨hd, he, he'⟩ := htie
  obtain ⟨z, hz, hz1, hz2⟩ := exists_between_even hx hx' hr hr' he he' hlt hpos
  have hz1' : (r : ℝ) < z := by exact_mod_cast hz1
  have hz2' : (z : ℝ) < r' := by exact_mod_cast hz2
  have hmid : (r : ℝ) + r' = 2 * y := by
    rcases abs_eq_abs.1 hd with h1 | h1 <;> linarith
  have hzr : |(z : ℝ) - y| < |(r : ℝ) - y| := by
    rw [abs_of_neg (show (r : ℝ) - y < 0 by linarith), abs_lt]
    constructor <;> linarith
  rcases hnear z hz with h1 | h1 | ⟨h1, -⟩
  · exact absurd h1 hz1.ne'
  · linarith
  · linarith

/-! ### What the functions answer -/

/-- A value that FP32 has a pattern for: a NaN, an infinity, or a number that it holds. -/
def Repr32 (v : FVal) : Prop := v = .nan ∨ (∃ s, v = .inf s) ∨ ∃ y, valNum v = some y ∧ Holds .fp32 y

theorem repr32_decodeF (x : Nat) : Repr32 (decodeF .fp32 x) := by
  cases hx : patNum .fp32 x with
  | some q =>
    obtain ⟨h1, -⟩ := patNum_mod fp32_fields x
    exact .inr (.inr ⟨q, valNum_decodeF hx, ⟨_, Nat.mod_lt _ (by norm_num [fmtBits]), h1.trans hx⟩⟩)
  | none =>
    rw [patNum_float fp32_fields] at hx
    rw [decodeF_float fp32_fields]
    split at hx
    · next hc =>
      have hc' : x / 2 ^ 23 % 2 ^ 8 = 2 ^ 8 - 1 ∧ Fmt.fp32 ∈ infFormats := hc.resolve_right fun h => by cases h.1
      rw [if_pos hc']
      split
      · exact .inr (.inl ⟨_, rfl⟩)
      · exact .inl rfl
    · split at hx <;> cases hx

theorem repr32_r32 (v : FVal) : Repr32 (r32 v) := repr32_decodeF _

theorem repr32_zero (s : Bool) : Repr32 (.zero s) :=
  .inr (.inr ⟨0, by simp [FVal.zero, valNum], ⟨_, (patNum_signBit fp32_fields s).2.1, (patNum_signBit fp32_fields s).1⟩⟩)

theorem repr32_rcpF (v : FVal) : Repr32 (rcpF v).1 := by
  cases v with
  | nan => exact .inl rfl
  | inf n => exact repr32_zero n
  | fin n m e st =>
    unfold rcpF
    dsimp only
    split
    · exact .inr (.inl ⟨_, rfl⟩)
    · exact repr32_r32 _

theorem repr32_rsqF (v : FVal) : Repr32 (rsqF v).1 := by
  cases v with
  | nan => exact .inl rfl
  | inf n => cases n <;> [exact repr32_zero _; exact .inl rfl]
  | fin n m e st =>
    unfold rsqF
    dsimp only
    split
    · exact .inr (.inl ⟨_, rfl⟩)
    · split
      · exact .inl rfl
      · exact repr32_r32 _

theorem repr32_log2F (v : FVal) : Repr32 (log2F v).1 := by
  cases v with
  | nan => exact .inl rfl
  | inf n => cases n <;> [exact .inr (.inl ⟨_, rfl⟩); exact .inl rfl]
  | fin n m e st =>
    unfold log2F
    dsimp only
    split
    · exact .inr (.inl ⟨_, rfl⟩)
    · split
      · exact .inl rfl
      · exact repr32_r32 _

/-- The flush keeps what FP32 has a pattern for. -/
theorem repr32_flush32 {v : FVal} (h : Repr32 v) : Repr32 (flush32 v).1 := by
  rcases h with rfl | ⟨s, rfl⟩ | ⟨y, hv, hy⟩
  · exact .inl rfl
  · exact .inr (.inl ⟨s, rfl⟩)
  · by_cases hn : y = 0 ∨ 1 / 2 ^ 126 ≤ |y|
    · rw [flush32_of_normal hv hn]
      exact .inr (.inr ⟨y, hv, hy⟩)
    · rw [not_or, not_le] at hn
      rw [flush32_of_small hv hn.1 hn.2]
      exact repr32_zero _

/-- What EXP2 of a number answers after the flush: +∞, or a number that is not negative. -/
theorem exp2F_flushed {x : Nat} {a : ℚ} (hx : x < 2 ^ 32) (hxa : patNum .fp32 x = some a) :
    (flush32 (exp2F (decodeF .fp32 x))).1 = .inf false
    ∨ ∃ η, valNum (flush32 (exp2F (decodeF .fp32 x))).1 = some η ∧ Holds .fp32 η ∧ 0 ≤ η := by
  have hzero : ∀ s, valNum (.zero s) = some 0 := fun s => by simp [FVal.zero, valNum]
  have hheld : Holds .fp32 0 := ⟨_, (patNum_signBit fp32_fields false).2.1, (patNum_signBit fp32_fields false).1⟩
  have hv := valNum_decodeF hxa
  obtain ⟨m, e, hve, -⟩ := valNum_sgn hv
  have he := decodeF_exp_ge fp32_fields hve
  have hv' := hv
  rw [hve] at hv'
  obtain ⟨hbig, hsmall, -⟩ := exp2F_extreme hv' (by push_cast at he; omega)
  rcases le_or_gt 128 a with h1 | h1
  · rw [hve, hbig h1]
    exact .inl rfl
  rcases lt_or_ge a (-150) with h2 | h2
  · rw [hve, hsmall h2]
    exact .inr ⟨0, hzero _, hheld, le_rfl⟩
  obtain ⟨n, i, g, u, v, t, y, w, h, hw, hval⟩ := exp2_steps hx hxa h2 h1
  have hy : 0 < y * 2 ^ n := by
    have := h.one_le
    positivity
  rw [hw]
  right
  rcases le_or_gt (1 / 2 ^ 126) (y * 2 ^ n) with h3 | h3
  · rw [flush32_of_normal hval (.inr (h3.trans (le_abs_self _)))]
    exact ⟨_, hval, h.holds h1 h3, hy.le⟩
  · rw [flush32_of_small hval hy.ne' (by rwa [abs_of_pos hy])]
    exact ⟨0, hzero _, hheld, le_rfl⟩

/-- A function of FP32 answers, after the flush, what FP32 has a pattern for. -/
theorem repr32_transc (t : TFun) {x : Nat} {a : ℚ} (hx : x < 2 ^ 32) (hxa : patNum .fp32 x = some a) :
    Repr32 (flush32 (t.raw (decodeF .fp32 x)).1).1 := by
  cases t with
  | exp2 =>
    rcases exp2F_flushed hx hxa with h | ⟨η, h1, h2, -⟩
    · exact .inr (.inl ⟨_, h⟩)
    · exact .inr (.inr ⟨η, h1, h2⟩)
  | log2 => exact repr32_flush32 (repr32_log2F _)
  | rcp => exact repr32_flush32 (repr32_rcpF _)
  | rsq => exact repr32_flush32 (repr32_rsqF _)
  | sigm => exact repr32_flush32 (repr32_rcpF _)
  | tanh => exact repr32_flush32 (repr32_r32 _)

/-! ### SIGM -/

theorem add32_congr {a a' b b' : FVal} {α β : ℚ} (ha : valNum a = some α) (ha' : valNum a' = some α) (hs : a.sign = a'.sign)
    (hb : valNum b = some β) (hb' : valNum b' = some β) (hs' : b.sign = b'.sign) : add32 a b = add32 a' b' := by
  obtain ⟨-, h1, h2⟩ := valNum_add ha hb .rne
  obtain ⟨-, h1', h2'⟩ := valNum_add ha' hb' .rne
  refine r32_congr h1 h1' ?_
  by_cases h0 : α + β = 0
  · rw [h2 h0, h2' h0, hs, hs']
  · rw [sign_eq_decide h1 h0, sign_eq_decide h1' h0]

theorem mul32_congr {a a' b : FVal} {α β : ℚ} (ha : valNum a = some α) (ha' : valNum a' = some α) (hs : a.sign = a'.sign)
    (hb : valNum b = some β) : mul32 a b = mul32 a' b := by
  obtain ⟨-, h1, h2⟩ := valNum_mul ha hb
  obtain ⟨-, h1', h2'⟩ := valNum_mul ha' hb
  exact r32_congr h1 h1' (by rw [h2, h2', hs])

theorem kL_val : valNum kL = some (12102203 * 2 ^ (-23 : Int)) := valNum_decodeF kL_near.2

/-- R36: a rounding answers a number or an infinity. -/
theorem r32_num_or_inf {v : FVal} {y : ℚ} (hv : valNum v = some y) : (∃ x q, IsPat (r32 v) x q) ∨ ∃ s, r32 v = .inf s := by
  obtain ⟨m, e₀, hve, hyv⟩ := valNum_sgn hv
  have hm := significand_eq_zero_iff hv hve
  rcases eq_or_ne m 0 with h0 | h0
  · obtain ⟨x, q, h, -⟩ := r32_of_num hv (by rw [hm.1 h0]; norm_num)
    exact .inl ⟨x, q, h⟩
  · obtain ⟨k, q, φ, up, inexact, tiny, h, he⟩ :=
      encFloat_step fp32_fields fp32_top (neg := v.sign) h0 (magOf_exact m e₀) (fun hc => by cases hc) .rne 0
    have hr : r32 v = decodeF .fp32 (encFloat .fp32 .rne 0 (.fin v.sign m e₀ false)).1 := by rw [← hve]; rfl
    rw [he] at hr
    by_cases hg : gtMag (if up then k + 1 else k) q (2 ^ 24 - 1) 104 = true
    · right
      rw [if_pos hg] at hr
      rw [hr]
      have hinf : ∀ s, decodeF .fp32 (overflowF .fp32 .rne s).1 = .inf s := by decide
      exact ⟨_, hinf _⟩
    · left
      rw [if_neg hg] at hr
      rw [gtMag_iff, not_lt] at hg
      obtain ⟨p1, p2, -⟩ := pat_packMag fp32_fields fp32_top (h.canon up) hg v.sign
      exact ⟨_, _, p2, hr, p1⟩

/-- SIGM from the exponential of the negated product, after the flush. -/
def sigmOf (E : FVal) : FVal := (rcpF (add32 (FVal.ofNat 1) E)).1

theorem sigmF_eq (x : FVal) : sigmF x = sigmOf (flush32 (exp2F (mul32 x kL).neg)).1 := rfl

theorem exp2F_inf (s : Bool) : (flush32 (exp2F (.inf s))).1 = if s then .zero false else .inf false := by cases s <;> rfl

theorem IsPat.neg {v : FVal} {x : Nat} {q : ℚ} (h : IsPat v x q) : IsPat v.neg (flipPat x) (-q) :=
  ⟨(flipPat_spec h.lt).1, by rw [decodeF_flipPat h.lt, ← h.eq], patNum_flipPat h.lt h.num⟩

/-- What EXP2 answers inside SIGM: +∞, or a number that is not negative. -/
theorem sigm_exp {v : FVal} {a : ℚ} (hv : valNum v = some a) : (flush32 (exp2F (mul32 v kL).neg)).1 = .inf false
    ∨ ∃ η, valNum (flush32 (exp2F (mul32 v kL).neg)).1 = some η ∧ Holds .fp32 η ∧ 0 ≤ η := by
  obtain ⟨-, hp, -⟩ := valNum_mul hv kL_val
  rcases r32_num_or_inf hp with ⟨x, q, h⟩ | ⟨s, h⟩
  · have hn := h.neg
    have := exp2F_flushed hn.lt hn.num
    rwa [← hn.eq] at this
  · have h' : mul32 v kL = .inf s := h
    rw [h', show (FVal.inf s).neg = .inf (!s) from rfl, exp2F_inf]
    cases s
    · exact .inr ⟨0, by simp [FVal.zero, valNum], ⟨_, (patNum_signBit fp32_fields false).2.1, (patNum_signBit fp32_fields false).1⟩, le_rfl⟩
    · exact .inl rfl

/-- SIGM of a number lies between 0 and 1. -/
theorem sigm_flushed {v : FVal} {a : ℚ} (hv : valNum v = some a) :
    ∃ s, valNum (flush32 (sigmF v)).1 = some s ∧ Holds .fp32 s ∧ 0 ≤ s ∧ s ≤ 1 := by
  have hzero : ∀ s, valNum (.zero s) = some 0 := fun s => by simp [FVal.zero, valNum]
  have hheld : Holds .fp32 0 := ⟨_, (patNum_signBit fp32_fields false).2.1, (patNum_signBit fp32_fields false).1⟩
  have hone : Holds .fp32 1 := by simpa using holds_two_zpow (n := 0) (by norm_num) (by norm_num)
  rw [sigmF_eq]
  rcases sigm_exp hv with h | ⟨η, h1, h2, h3⟩
  · rw [h]
    exact ⟨0, hzero _, hheld, le_rfl, by norm_num⟩
  · have hη := (le_abs_self η).trans (abs_le_fp32 h2)
    have hlim : |1 + η| < 2 ^ 128 - 2 ^ 103 := by
      rw [abs_of_nonneg (by linarith)]
      exact lt_of_le_of_lt (add_le_add le_rfl hη) (by norm_num)
    obtain ⟨d, hd⟩ := add32_step (valNum_ofNat 1) h1 (by push_cast; exact hlim)
    have hd1 : 1 ≤ d := hd.near.ge hone (by push_cast; have : (0 : ℝ) ≤ η := by exact_mod_cast h3
                                            linarith)
    have hinv1 : 1 / d ≤ 1 := (div_le_one (by linarith)).2 hd1
    have hinv0 : 0 ≤ 1 / d := by positivity
    obtain ⟨w, s, hw, hs, -⟩ := rcpF_step hd.val (by linarith) (by rw [abs_of_nonneg hinv0]; exact hinv1.trans_lt (by norm_num))
    have hs0 : 0 ≤ s := hs.near.ge hheld (by exact_mod_cast hinv0)
    have hs1 : s ≤ 1 := hs.near.le hone (by exact_mod_cast hinv1)
    have hval : sigmOf (flush32 (exp2F (mul32 v kL).neg)).1 = w := congrArg Prod.fst hw
    rw [hval]
    by_cases hn : s = 0 ∨ 1 / 2 ^ 126 ≤ |s|
    · rw [flush32_of_normal hs.val hn]
      exact ⟨s, hs.val, hs.near.holds, hs0, hs1⟩
    · rw [not_or, not_le] at hn
      rw [flush32_of_small hs.val hn.1 hn.2]
      exact ⟨0, hzero _, hheld, le_rfl, by norm_num⟩

/-- EXP2 of the numbers of one rounding: of a zero it does not see the sign. -/
theorem exp2F_of_num {x x' : Nat} {q : ℚ} (hx : x < 2 ^ 32) (hx' : x' < 2 ^ 32) (h : patNum .fp32 x = some q)
    (h' : patNum .fp32 x' = some q) : exp2F (decodeF .fp32 x) = exp2F (decodeF .fp32 x') := by
  rcases eq_or_ne q 0 with h0 | h0
  · have hone : ∀ z, patNum .fp32 z = some q → exp2F (decodeF .fp32 z) = FVal.ofNat 1 := fun z hz => by
      have hv := valNum_decodeF hz
      obtain ⟨m, e, hve, -⟩ := valNum_sgn hv
      have he := decodeF_exp_ge fp32_fields hve
      rw [hve] at hv ⊢
      exact (exp2F_extreme hv (by push_cast at he; omega)).2.2 h0
    rw [hone x h, hone x' h']
  · have hs := sign_eq_decide (valNum_decodeF h) h0
    have hs' := sign_eq_decide (valNum_decodeF h') h0
    rw [sign_decodeF_fp32 h] at hs
    rw [sign_decodeF_fp32 h'] at hs'
    rw [pat_inj fp32_fields hx hx' (hs.trans hs'.symm) h h']

theorem patNum_one : patNum .fp32 0x3F800000 = some 1 := by
  norm_num [patNum, floatFields, patSign, fmtBits, infFormats]
  exact if_neg (by decide)

/-- R36: SIGM by its steps. -/
theorem sigm_steps {x : Nat} {a l : ℚ} {z e d : Nat} (hxa : patNum .fp32 x = some a) (hl : Rne32 (1 / Real.log 2) l)
    (hlim : |a * l| < 2 ^ 128 - 2 ^ 103) (hz : RoundsTo .fp32 .rne 0 (a * l : ℚ) z)
    (he : (transc .exp2 .fp32 (if patSign .fp32 z then z - 2 ^ 31 else z + 2 ^ 31) ⟨0, 0⟩).1 = e)
    (hd : (addF .fp32 .rne (decodeF .fp32 0x3F800000) (decodeF .fp32 e) ⟨0, 0⟩).1 = d) :
    (transc .sigm .fp32 x ⟨0, 0⟩).1 = (transc .rcp .fp32 d ⟨0, 0⟩).1 := by
  have hv := valNum_decodeF hxa
  obtain rfl : l = 12102203 * 2 ^ (-23 : Int) := hl.eq_of_odd kL_near.1 kL_near.2 (by decide)
  obtain ⟨-, hp, -⟩ := valNum_mul hv kL_val
  obtain ⟨p, q, h1, h2, -⟩ := r32_of_num hp hlim
  obtain ⟨qz, hzlt, hzq, -⟩ := id hz
  have hzq' : patNum .fp32 z = some q := by rw [hzq, Rne32.unique ⟨z, hz, hzq⟩ h2]
  have hexp : exp2F (mul32 (decodeF .fp32 x) kL).neg = exp2F (decodeF .fp32 (flipPat z)) := by
    have h1n := h1.neg
    rw [show mul32 (decodeF .fp32 x) kL = r32 ((decodeF .fp32 x).mul kL).1 from rfl, h1n.eq]
    exact exp2F_of_num h1n.lt (flipPat_spec hzlt).1 h1n.num (patNum_flipPat hzlt hzq')
  have heE : (encodeF .fp32 .rne false (flush32 (exp2F (mul32 (decodeF .fp32 x) kL).neg)).1 ⟨0, 0⟩).1 = e := by
    rw [hexp, ← he, transc_fp32]
    rfl
  have hE := sigm_exp hv
  have hsig := sigmF_eq (decodeF .fp32 x)
  generalize (flush32 (exp2F (mul32 (decodeF .fp32 x) kL).neg)).1 = E at *
  have hdE : decodeF .fp32 d = add32 (FVal.ofNat 1) E := by
    rcases hE with rfl | ⟨η, g1, g2, -⟩
    · rw [← hd, ← heE]
      decide
    · obtain ⟨w, w1, w2, w3⟩ := exists_isPat g1 g2
      have hew : e = w := by rw [← heE, encodeF_exact fp32_fields fp32_top g1 w1 w2 w3]
      rw [← hew] at w2 w3
      have hone := valNum_decodeF patNum_one
      have hdec := valNum_decodeF w2
      obtain ⟨hok, -, -⟩ := valNum_add hone hdec .rne
      have hcon := add32_congr hone (valNum_ofNat 1) (by decide) hdec g1 ((sign_decodeF_fp32 w2).trans w3)
      rw [← hcon, ← hd]
      unfold addF roundRes
      rw [hok]
      rfl
  rw [transc_fp32, transc_fp32]
  have hraw : (TFun.raw .sigm (decodeF .fp32 x)).1 = (TFun.raw .rcp (decodeF .fp32 d)).1 := by
    rw [hdE]
    exact hsig
  rw [hraw]

/-! ### TANH -/

theorem sigmF_of_num {x x' : Nat} {q : ℚ} (hx : x < 2 ^ 32) (hx' : x' < 2 ^ 32) (h : patNum .fp32 x = some q)
    (h' : patNum .fp32 x' = some q) : sigmF (decodeF .fp32 x) = sigmF (decodeF .fp32 x') := by
  rcases eq_or_ne q 0 with h0 | h0
  · have hzero : ∀ z, patNum .fp32 z = some q → exp2F (mul32 (decodeF .fp32 z) kL).neg = FVal.ofNat 1 := fun z hz => by
      obtain ⟨-, hp, -⟩ := valNum_mul (valNum_decodeF hz) kL_val
      rw [h0, zero_mul] at hp
      obtain ⟨p, r, h1, h2, -⟩ := r32_of_num hp (by norm_num)
      have hr : r = 0 := h2.unique (by exact_mod_cast rne32_self (z := 0) ⟨_, (patNum_signBit fp32_fields false).2.1,
        (patNum_signBit fp32_fields false).1⟩)
      have h1n := h1.neg
      have hval := h1n.val
      obtain ⟨m, e, hve, -⟩ := valNum_sgn hval
      have he := decodeF_exp_ge fp32_fields (h1n.eq.symm.trans hve)
      rw [show mul32 (decodeF .fp32 z) kL = r32 ((decodeF .fp32 z).mul kL).1 from rfl]
      rw [hve] at hval ⊢
      exact (exp2F_extreme hval (by push_cast at he; omega)).2.2 (by rw [hr, neg_zero])
    rw [sigmF_eq, sigmF_eq, hzero x h, hzero x' h']
  · have hs := sign_eq_decide (valNum_decodeF h) h0
    have hs' := sign_eq_decide (valNum_decodeF h') h0
    rw [sign_decodeF_fp32 h] at hs
    rw [sign_decodeF_fp32 h'] at hs'
    rw [pat_inj fp32_fields hx hx' (hs.trans hs'.symm) h h']

/-- R36: TANH by its steps. -/
theorem tanh_steps {x z : Nat} {a q : ℚ} (hxa : patNum .fp32 x = some a) (hlim : |2 * a| < 2 ^ 128 - 2 ^ 103)
    (hz : RoundsTo .fp32 .rne 0 (2 * a : ℚ) z) (hq : patNum .fp32 (transc .sigm .fp32 z ⟨0, 0⟩).1 = some q) :
    ∃ y, Rne32 (2 * q - 1 : ℚ) y ∧ (y = 0 ∨ 1 / 2 ^ 126 ≤ |y| → Gives .tanh x y) := by
  have hv := valNum_decodeF hxa
  obtain ⟨-, hp, -⟩ := valNum_mul (valNum_ofNat 2) hv
  obtain ⟨p, r, h1, h2, -⟩ := r32_of_num hp (by push_cast; exact hlim)
  obtain ⟨qz, hzlt, hzq, -⟩ := id hz
  have hzq' : patNum .fp32 z = some r := by
    rw [hzq, Rne32.unique ⟨z, hz, hzq⟩ (by push_cast at h2 ⊢; exact h2)]
  have hsig : sigmF (mul32 (FVal.ofNat 2) (decodeF .fp32 x)) = sigmF (decodeF .fp32 z) := by
    rw [show mul32 (FVal.ofNat 2) (decodeF .fp32 x) = r32 ((FVal.ofNat 2).mul (decodeF .fp32 x)).1 from rfl, h1.eq]
    exact sigmF_of_num h1.lt hzlt h1.num hzq'
  obtain ⟨s, hs, hsH, hs0, hs1⟩ := sigm_flushed (valNum_decodeF hzq')
  have hsq : s = q := by
    obtain ⟨w, w1, w2, w3⟩ := exists_isPat hs hsH
    rw [transc_fp32, show (TFun.raw .sigm (decodeF .fp32 z)).1 = sigmF (decodeF .fp32 z) from rfl,
      encodeF_exact fp32_fields fp32_top hs w1 w2 w3] at hq
    exact Option.some.inj (w2.symm.trans hq)
  subst hsq
  obtain ⟨y, hy⟩ := fma32_step (valNum_ofNat 2) hs (valNum_ofInt (-1)) (by
    push_cast
    rw [abs_lt]
    constructor <;> linarith)
  have hnear : Rne32 (2 * s - 1 : ℚ) y := by
    have := hy.near
    push_cast at this ⊢
    rwa [← sub_eq_add_neg] at this
  refine ⟨y, hnear, fun hc => ?_⟩
  have hraw : TFun.raw .tanh (decodeF .fp32 x) = (fma32 (FVal.ofNat 2) (flush32 (sigmF (decodeF .fp32 z))).1 (FVal.ofInt (-1)), 0) := by
    rw [← hsig]
    rfl
  exact gives_of_holds hraw hy.val hy.near.holds hc

end Sys2Proof.Machine
end

section
/-! PROOFS. Sources of BF16 and FP16 (R35), and the settled obligation O11. -/

namespace Sys2Proof.Machine

/-! ### A function depends on the number alone -/

/-- A value of a number, a sign and an exponent that the fixed point of EXP2 reaches. -/
structure Source (v : FVal) (s : Bool) (m : Nat) (e : Int) (a : ℚ) : Prop where
  eq : v = .fin s m e false
  num : valNum v = some a
  exp_ge : -200 ≤ e

section Source

variable {v v' : FVal} {s : Bool} {m m' : Nat} {e e' : Int} {a : ℚ} (h : Source v s m e a) (h' : Source v' s m' e' a)

include h

theorem Source.zero_iff : m = 0 ↔ a = 0 := significand_eq_zero_iff h.num h.eq

theorem Source.value : a = sgn s * (m * 2 ^ e) := by
  have := h.num
  rw [h.eq, valNum_fin] at this
  exact (Option.some.inj this).symm

theorem Source.sign : v.sign = s := by rw [h.eq]; rfl

theorem Source.pos (ha : 0 < a) : s = false := by
  rw [← h.sign, sign_eq_decide h.num ha.ne', decide_eq_false (not_lt.2 ha.le)]

include h'

theorem Source.mag_eq : (m : ℚ) * 2 ^ e = m' * 2 ^ e' := by
  have hsg : sgn s ≠ 0 := by cases s <;> simp [sgn]
  exact mul_left_cancel₀ hsg (h.value.symm.trans h'.value)

theorem Source.sign_eq : v.sign = v'.sign := by rw [h.sign, h'.sign]

theorem Source.lead_eq (ha : a ≠ 0) : leadOf m e = leadOf m' e' := by
  obtain ⟨h1, h2⟩ := leadOf_bounds (mt h.zero_iff.1 ha) e
  obtain ⟨h3, h4⟩ := leadOf_bounds (mt h'.zero_iff.1 ha) e'
  rw [h.mag_eq h'] at h1 h2
  have h5 := (zpow_lt_zpow_iff_right₀ (one_lt_two (α := ℚ))).1 (h1.trans_lt h4)
  have h6 := (zpow_lt_zpow_iff_right₀ (one_lt_two (α := ℚ))).1 (h3.trans_lt h2)
  omega

theorem exp2F_congr : exp2F v = exp2F v' := by
  by_cases ha : a = 0
  · have g := h.num
    have g' := h'.num
    rw [h.eq] at g
    rw [h'.eq] at g'
    rw [h.eq, h'.eq, (exp2F_extreme g h.exp_ge).2.2 ha, (exp2F_extreme g' h'.exp_ge).2.2 ha]
  · have hfix : fix200 s m e = fix200 s m' e' := by
      have : (fix200 s m e : ℚ) = fix200 s m' e' := by rw [fix200_eq h.exp_ge, fix200_eq h'.exp_ge, h.mag_eq h']
      exact_mod_cast this
    rw [h.eq, h'.eq]
    unfold exp2F
    simp only [h.lead_eq h' ha, hfix]
    rw [if_neg (mt h.zero_iff.1 ha), if_neg (mt h'.zero_iff.1 ha)]

theorem rcpF_congr : rcpF v = rcpF v' := by
  by_cases ha : a = 0
  · rw [h.eq, h'.eq]
    unfold rcpF
    dsimp only
    rw [if_pos (h.zero_iff.2 ha), if_pos (h'.zero_iff.2 ha)]
  · obtain ⟨n, c, st, hw, hn, hmag, hbits, -⟩ := rcpF_mag h.num ha
    obtain ⟨n', c', st', hw', hn', hmag', hbits', -⟩ := rcpF_mag h'.num ha
    have henc := encFloat_congr (neg := v.sign) fp32_fields hn hn' hmag hmag' (fun _ => hbits) (fun _ => hbits') .rne 0
    rw [hw, hw', ← h.sign_eq h']
    exact congrArg (fun z : Nat × Flags => (decodeF .fp32 z.1, (0 : Flags))) henc

theorem rsqF_congr : rsqF v = rsqF v' := by
  rcases lt_trichotomy a 0 with ha | ha | ha
  · have hs : s = true := by rw [← h.sign, sign_eq_decide h.num ha.ne, decide_eq_true ha]
    have hneg : ∀ n c, n ≠ 0 → rsqF (.fin true n c false) = (.nan, fNV) := fun n c hn => by
      unfold rsqF
      dsimp only
      rw [if_neg hn, if_pos rfl]
    rw [h.eq, h'.eq, hs, hneg m e (mt h.zero_iff.1 ha.ne), hneg m' e' (mt h'.zero_iff.1 ha.ne)]
  · rw [h.eq, h'.eq]
    unfold rsqF
    dsimp only
    rw [if_pos (h.zero_iff.2 ha), if_pos (h'.zero_iff.2 ha)]
  · obtain ⟨n, c, st, hw, hn, hmag, hbits⟩ := rsqF_mag h.num ha
    obtain ⟨n', c', st', hw', hn', hmag', hbits'⟩ := rsqF_mag h'.num ha
    have henc := encFloat_congr (neg := false) fp32_fields hn hn' hmag hmag' (fun _ => hbits) (fun _ => hbits') .rne 0
    rw [hw, hw']
    exact congrArg (fun z : Nat × Flags => (decodeF .fp32 z.1, (0 : Flags))) henc

/-- The fractions above the leading bits of two significands of one number are equal. -/
theorem Source.frac_eq (ha : a ≠ 0) {l l' : Nat} (hl : bitLen m - 1 = l) (hl' : bitLen m' - 1 = l') :
    (m - 2 ^ l) * 128 / 2 ^ l = (m' - 2 ^ l') * 128 / 2 ^ l'
    ∧ (m - 2 ^ l) * 128 % 2 ^ l * 2 ^ l' = (m' - 2 ^ l') * 128 % 2 ^ l' * 2 ^ l := by
  obtain ⟨b1, b2, -⟩ := bitLen_bounds (mt h.zero_iff.1 ha)
  obtain ⟨b1', b2', -⟩ := bitLen_bounds (mt h'.zero_iff.1 ha)
  have hlead := h.lead_eq h' ha
  unfold leadOf at hlead
  have hel : e + l = e' + l' := by omega
  have hmul : m * 2 ^ l' = m' * 2 ^ l := by
    have hq : (m : ℚ) * 2 ^ l' * 2 ^ (e' : Int) = m' * 2 ^ l * 2 ^ (e' : Int) := by
      calc (m : ℚ) * 2 ^ l' * 2 ^ e' = m * 2 ^ (e' + l' : Int) := by rw [zpow_add₀ two_ne_zero, zpow_natCast]; ring
        _ = (m * 2 ^ e) * 2 ^ l := by rw [← hel, zpow_add₀ two_ne_zero, zpow_natCast]; ring
        _ = m' * 2 ^ l * 2 ^ e' := by rw [h.mag_eq h']; ring
    exact_mod_cast mul_right_cancel₀ (by positivity) hq
  have hfr : (m - 2 ^ l) * 128 * 2 ^ l' = (m' - 2 ^ l') * 128 * 2 ^ l := by
    calc (m - 2 ^ l) * 128 * 2 ^ l' = (m * 2 ^ l' - 2 ^ l * 2 ^ l') * 128 := by rw [← Nat.sub_mul]; ring
      _ = (m' * 2 ^ l - 2 ^ l' * 2 ^ l) * 128 := by rw [hmul, Nat.mul_comm (2 ^ l)]
      _ = (m' - 2 ^ l') * 128 * 2 ^ l := by rw [← Nat.sub_mul]; ring
  have p := Nat.two_pow_pos l
  have p' := Nat.two_pow_pos l'
  constructor
  · rw [← Nat.mul_div_mul_right _ _ p', hfr, Nat.mul_comm (2 ^ l), Nat.mul_div_mul_right _ _ p]
  · rw [← Nat.mul_mod_mul_right, hfr, Nat.mul_comm (2 ^ l), Nat.mul_mod_mul_right]

theorem log2F_congr : log2F v = log2F v' := by
  by_cases ha : a = 0
  · rw [h.eq, h'.eq]
    unfold log2F
    dsimp only
    rw [if_pos (h.zero_iff.2 ha), if_pos (h'.zero_iff.2 ha)]
  · have hm := mt h.zero_iff.1 ha
    have hm' := mt h'.zero_iff.1 ha
    obtain ⟨b1, -⟩ := bitLen_bounds hm
    obtain ⟨b1', -⟩ := bitLen_bounds hm'
    obtain ⟨l, hl⟩ : ∃ l, bitLen m - 1 = l := ⟨_, rfl⟩
    obtain ⟨l', hl'⟩ : ∃ l', bitLen m' - 1 = l' := ⟨_, rfl⟩
    obtain ⟨hi, hr⟩ := h.frac_eq h' ha hl hl'
    have hlead := h.lead_eq h' ha
    unfold leadOf at hlead
    have hel : e + l = e' + l' := by omega
    have hg : (((m - 2 ^ l) * 128 % 2 ^ l : Nat) : ℚ) * 2 ^ (-(l : Int) - 7) = ((m' - 2 ^ l') * 128 % 2 ^ l' : Nat) * 2 ^ (-(l' : Int) - 7) := by
      have hrQ := congrArg (Nat.cast (R := ℚ)) hr
      rw [Nat.cast_mul, Nat.cast_mul] at hrQ
      push_cast [zpow_sub₀ (two_ne_zero (α := ℚ)), zpow_neg, zpow_natCast] at hrQ ⊢
      field_simp
      linarith
    have hw : ∀ i, mul32 (.fin false ((m - 2 ^ l) * 128 % 2 ^ l) (-(l : Int) - 7) false) (rtAt i)
        = mul32 (.fin false ((m' - 2 ^ l') * 128 % 2 ^ l') (-(l' : Int) - 7) false) (rtAt i) := fun i => by
      obtain ⟨r, hr, -⟩ := rtAt_step i
      exact mul32_congr (valNum_fin _ _ _) (by rw [valNum_fin, hg]) rfl hr.val
    rw [h.eq, h'.eq]
    unfold log2F
    simp only [hl, hl', hi, hel, hw]
    rw [if_neg hm, if_neg hm']

theorem sigmF_congr : sigmF v = sigmF v' := by
  rw [sigmF_eq, sigmF_eq, mul32_congr h.num h'.num (h.sign_eq h') kL_val]

theorem tanhF_congr : tanhF v = tanhF v' := by
  obtain ⟨-, h1, h2⟩ := valNum_mul (valNum_ofNat 2) h.num
  obtain ⟨-, h1', h2'⟩ := valNum_mul (valNum_ofNat 2) h'.num
  have hm : mul32 (FVal.ofNat 2) v = mul32 (FVal.ofNat 2) v' := r32_congr h1 h1' (by rw [h2, h2', h.sign_eq h'])
  unfold tanhF
  rw [hm]

theorem raw_congr (t : TFun) : t.raw v = t.raw v' := by
  cases t with
  | exp2 => exact congrArg (·, (0 : Flags)) (exp2F_congr h h')
  | log2 => exact log2F_congr h h'
  | rcp => exact rcpF_congr h h'
  | rsq => exact rsqF_congr h h'
  | sigm => exact congrArg (·, (0 : Flags)) (sigmF_congr h h')
  | tanh => exact congrArg (·, (0 : Flags)) (tanhF_congr h h')

end Source

/-! ### Through FP32 -/

/-- Decoding what FP32 holds and encoding it again changes nothing that a further conversion sees. -/
theorem encodeF_through_fp32 {f : Fmt} {e w b lm tx : Nat} {le : Int} (hA : Arith f e w b lm tx le) {v : FVal} (hv : Repr32 v) (env : FEnv) :
    encodeF f .rne false (decodeF .fp32 (encodeF .fp32 .rne false v ⟨0, 0⟩).1) env = encodeF f .rne false v env := by
  rcases hv with rfl | ⟨s, rfl⟩ | ⟨y, h1, h2⟩
  · rw [show decodeF .fp32 (encodeF .fp32 .rne false .nan ⟨0, 0⟩).1 = .nan by decide]
  · have hinf : ∀ s, decodeF .fp32 (encodeF .fp32 .rne false (.inf s) ⟨0, 0⟩).1 = .inf s := by decide
    rw [hinf]
  · obtain ⟨p, p1, p2, p3⟩ := exists_isPat h1 h2
    rw [encodeF_exact fp32_fields fp32_top h1 p1 p2 p3]
    exact encodeF_congr hA.fields hA.top (valNum_decodeF p2) h1 ((sign_decodeF_fp32 p2).trans p3) .rne false env

/-- R35: a source of BF16 or FP16 goes through FP32. -/
theorem transc_narrow (t : TFun) {f : Fmt} {x z : Nat} {a : ℚ} (hf : f ∈ [Fmt.bf16, .fp16]) (hxa : patNum f x = some a)
    (hza : patNum .fp32 z = some a) (hs : patSign f x = patSign .fp32 z) (hz : z < 2 ^ 32) (env : FEnv) :
    transc t f x env = ((encodeF f .rne false (decodeF .fp32 (transc t .fp32 z ⟨0, 0⟩).1) ⟨0, 0⟩).1,
        env.raise ((transc t .fp32 z ⟨0, 0⟩).2.flags
          ||| (encodeF f .rne false (decodeF .fp32 (transc t .fp32 z ⟨0, 0⟩).1) ⟨0, 0⟩).2.flags)) := by
  have hmem : f ∈ arithFormats := by
    simp only [List.mem_cons, List.not_mem_nil, or_false] at hf
    rcases hf with rfl | rfl <;> decide
  have hne : f ≠ .fp32 := by rintro rfl; simp at hf
  have hbias : ((floatFields f).elim true fun p => decide (p.2.2 + p.2.1 ≤ 201)) = true := by
    simp only [List.mem_cons, List.not_mem_nil, or_false] at hf
    rcases hf with rfl | rfl <;> decide
  obtain ⟨e, w, b, lm, tx, le, hA⟩ := arith_of_mem hmem
  rw [hA.fields] at hbias
  have hbias : b + w ≤ 201 := by simpa using hbias
  have hv := valNum_decodeF hxa
  have hv' := valNum_decodeF hza
  have hsign : (decodeF f x).sign = patSign .fp32 z := by
    rw [← hs]
    exact sign_decodeF (Option.isSome_iff_exists.2 ⟨_, hA.fields⟩) fun hc => by rw [hc] at hv; cases hv
  obtain ⟨m, c, hve, -⟩ := valNum_sgn hv
  obtain ⟨m', c', hve', -⟩ := valNum_sgn hv'
  have hc := decodeF_exp_ge hA.fields hve
  have hc' := decodeF_exp_ge fp32_fields hve'
  rw [hsign] at hve
  rw [sign_decodeF_fp32 hza] at hve'
  have hraw := raw_congr (v := decodeF f x) (v' := decodeF .fp32 z) ⟨hve, hv, by omega⟩ ⟨hve', hv', by push_cast at hc'; omega⟩ t
  have hrep := repr32_transc t hz hza
  rw [transc_eq t f x, hraw, if_neg hne, transc_fp32, FEnv.raise_raise]
  dsimp only
  rw [encodeF_through_fp32 hA hrep]
  have h0 : ((⟨0, 0⟩ : FEnv).raise (rawFlags (t.raw (decodeF .fp32 z)))).flags = rawFlags (t.raw (decodeF .fp32 z)) :=
    BitVec.zero_or
  rw [h0]

/-! ### The obligation -/

/-- Settles O11: the exact results (`valNum_add`, `valNum_mul`, `div_spec`, `sqrt_spec`) rounded once, and each function of
R36 through its steps. -/
theorem arithmeticRoundsOnce : Obligations.ArithmeticRoundsOnce := by
  refine ⟨fun f rm env p q r a b c lo hi hf hp hq hr hlo hhi => ?_, fun f rm env v w s t m e hf => ?_,
    fun t l env n x ht hn hx => transc_special t l env n x ht hn hx, fun x a hx hxa => ?_,
    fun t f x z a hf hxa hza hs hz env => transc_narrow t hf hxa hza hs hz env⟩
  · obtain ⟨e, w, b', lm, tx, le, hA⟩ := arith_of_mem hf
    have hsome : (floatFields f).isSome = true := Option.isSome_iff_exists.2 ⟨_, hA.fields⟩
    have sign : ∀ {x : Nat} {y : ℚ}, patNum f x = some y → (decodeF f x).sign = patSign f x := fun {x y} hx =>
      sign_decodeF hsome fun hc => by
        have := valNum_decodeF hx
        rw [hc] at this
        cases this
    have ha := valNum_decodeF hp
    have hb := valNum_decodeF hq
    have hc := valNum_decodeF hr
    have hpx : Holds f a := ⟨_, Nat.mod_lt _ (by positivity), (patNum_mod hA.fields p).1.trans hp⟩
    have h0 : Holds f 0 := ⟨_, (patNum_signBit hA.fields false).2.1, (patNum_signBit hA.fields false).1⟩
    refine ⟨fun hne h1 h2 => hA.rounded_add env ha hb hlo hhi hne h1 h2, fun hne h1 h2 => ?_, fun hz => ?_, fun h1 h2 => ?_,
      fun hne h1 h2 => ?_, fun hne h1 h2 => ?_, fun hpos => hA.rounded_sqrt env ha hpx hpos, fun hb0 => ?_, fun hb0 ha0 => ?_,
      fun hneg => hA.sqrt_neg env ha hneg, fun hne => hA.max_min hp hq hne⟩
    · rw [sub_eq_add_neg] at hne h1 h2 ⊢
      exact hA.rounded_add env ha (valNum_neg hb).1 hlo hhi hne h1 h2
    · obtain ⟨hok, hval, hs⟩ := valNum_add ha hb rm
      have h := hA.rounded (rm := rm) env hval h0 h0 (by rw [hz]) (by rw [hz])
      rw [hs hz, hz, sign hp, sign hq, Rat.cast_zero] at h
      rw [addF, hA.roundRes rm _ env hok]
      exact h
    · rw [← sign hp, ← sign hq]
      exact hA.rounded_mul env ha hb hlo hhi h1 h2
    · obtain ⟨hok, hval, -⟩ := valNum_mul ha hb
      obtain ⟨hok', hval', -⟩ := valNum_add hval hc rm
      have h := hA.rounded (rm := rm) env hval' hlo hhi h1 h2
      rw [sign_eq_decide hval' hne] at h
      unfold fmaF
      simp only [hok, hok', Bool.false_or, Bool.false_and]
      rw [hA.roundRes rm _ env rfl]
      exact h
    · rw [← sign hp, ← sign hq]
      exact hA.rounded_div env ha hb hlo hhi hne h1 h2
    · rw [hb0] at hb
      exact (hA.div_zero env ha hb).1
    · rw [hb0] at hb
      rw [← sign hp, ← sign hq]
      exact (hA.div_zero env ha hb).2 ha0
  · obtain ⟨e', w', b', lm, tx, le, hA⟩ := arith_of_mem hf
    obtain ⟨n1, n2, n3, n4, n5, n6, n7, n8⟩ := hA.nan_sources rm env v w
    exact ⟨n1, n2, n3, n4, n5, n6, n7, n8, hA.special_sources rm env v s t m e⟩
  · exact ⟨rcp_gives hxa, fun ha h env => rcp_flushed hx hxa ha h env, rsq_gives hx hxa, fun ha env => rsq_log2_of_neg hxa ha env,
      fun ha env => (exp2_extreme hxa env).1 ha, fun ha env => (exp2_extreme hxa env).2 ha, exp2_gives hx hxa, log2_gives hx hxa,
      fun l z e d hl hlim hz he hd => sigm_steps hxa hl hlim hz he hd, fun z q hlim hz hq => tanh_steps hxa hlim hz hq⟩

end Sys2Proof.Machine
end

section
/-! PROOFS. One burst of a CPY that faults though every line of its destination takes a write when the burst begins (R110,
R386): in a state whose table of withheld lines is not in canonical form, the first line's write uncovers an entry of the
next line. -/

namespace Sys2Proof.Machine

/-! ### A burst that meets a fault at the lines it writes -/

/-- What a burst of CPY reads, the command at the place after it, and how the writing of its lines ends. -/
def State.burstReads (s : State) (e : Agent) (c : EngCmd) : State × EngCmd × Option EngErr :=
  State.readJobs e s c (s.burstJobs e.cl c 4096).1
def State.burstAt (s : State) (e : Agent) (c : EngCmd) : EngCmd :=
  { (s.burstReads e c).2.1 with prog := (s.burstJobs e.cl c 4096).2 }
def State.burstWrites (s : State) (e : Agent) (c : EngCmd) : Except (State × Held × EngErr) (State × Held) :=
  State.flushHeld e (s.burstReads e c).1 (s.burstAt e c).held ((s.burstReads e c).1.ready e (s.burstAt e c) 4096)

/-- A burst that begins with nothing on its way, reads all its pieces and meets a fault where it writes them. -/
theorem State.burstMove_of_fault {s t f : State} {e : Agent} {c : EngCmd} {h : Held} {code addr : Nat}
    {line : Option (Nat × HErr)} {u : Bool} (held : c.held = []) (whole : (s.burstReads e c).2.2 = none)
    (met : s.burstWrites e c = .error (t, h, .fault f code addr line u)) :
    s.burstMove e c = ((t.looseHeld e { s.burstAt e c with held := h }).putCmd e { s.burstAt e c with held := [] }).endFault e
      { s.burstAt e c with held := h } code addr line u := by
  have begun : State.flushHeld e s c.held (s.ready e c 4096) = .ok (s, []) := by
    simp only [State.ready, held]
    rfl
  obtain ⟨⟩ := c
  cases held
  unfold State.burstMove
  simp only [begun, List.length_nil, Nat.sub_zero]
  unfold State.burstWrites State.burstAt State.burstReads at *
  split
  · rename_i read
    simp [read] at whole
  · rename_i s1 c1 read
    simp only [read] at met ⊢
    simp only [met, State.burstStop]

/-- A fault leaves nothing behind where no write of what was on its way goes through. -/
theorem State.looseHeld_eq_self {s : State} {e : Agent} {c : EngCmd}
    (fails : ∀ l bs, bs.Sublist (Held.of c.held l) → bs ≠ [] → ∃ x, s.engPut e l bs = .error x) :
    s.looseHeld e c = s := by
  unfold State.looseHeld
  dsimp only
  refine List.foldlRecOn (motive := fun t => t = s) _ _ rfl fun t same g hg => ?_
  subst same
  have hm := (List.of_mem_zip hg).2
  simp only [List.mem_flatMap, List.mem_filterMap] at hm
  obtain ⟨l, -, i, -, some_⟩ := hm
  split at some_
  · cases some_
  · rename_i some_bytes
    obtain ⟨x, hx⟩ := fails l ((Held.of c.held l).filter (fun b => b.1 / 8 == 16 * l + i)) List.filter_sublist
      (by simp_all)
    rw [← Option.some.inj some_]
    split
    · simp only [hx]
    · rfl

/-- A write of part of a line that meets an error there does not go through. -/
theorem State.engPut_of_lineErr {s : State} {e : Agent} {l a pa : Nat} {b : Byte} {bs : List (Nat × Byte)} {x : HErr}
    (space : spaceOf a ≠ .localSp) (tr : s.translate e.req e.slice e.pasid a true = .ok pa) (few : bs.length < 127)
    (bad : s.lineErr (e.secure s) e.team (pa / 128) .part = some x) :
    ∃ y, s.engPut e l ((a, b) :: bs) = .error y := by
  have part : ¬ 128 ≤ (((a, b) :: bs).map (fun b => (pa + (b.1 - a), b.2))).length := by simp; omega
  refine ⟨herrFault s a (pa / 128) x, ?_⟩
  simp only [State.engPut, List.head?_cons, Option.map_some, Option.getD_some, space, if_false, State.engTr, tr, bind,
    Except.bind, State.writeLine, part, bad]

/-! ### The state and the command -/

/-- Stack 1 names line 2 and stack 0 line 3, in this order: as the keys fall, the table reads as empty at stack 0. Both
lines are on stack 0, so a request to either meets no error; line 2 counts as withheld where it is replaced. -/
def uncoveringHome : Home := { withheld := [(1, [2]), (0, [3])] }

/-- 136 bytes from scratchpad to line 2 and the first 8 bytes of line 3. -/
def uncoveringCmd : EngCmd :=
  { num := 1, kind := .cpy, g0 := 0x100, g1 := 0xFFFFFFF000000000, g2 := 0, g3 := 136, pasid := physPasid, gtag := 0 }

/-- A committed node of one member with that command queued; byte 128 of its scratchpad is 1. -/
def uncoveringState : State :=
  { cores := [(0, { team := 1, ctx := { queues := [(0, [uncoveringCmd])] } })]
    clusters := [(0, { team := 1, store := { sp := [(128, 1)] } })]
    teams := [(1, { live := true, committed := true, cluster := some 0 })]
    home := uncoveringHome }

def uncoveringAgent : Agent := uncoveringState.agent 1 0 0 uncoveringCmd

/-- The state in which the engine serves the command, and the command as it is begun. -/
def uncoveringBurst : State :=
  (uncoveringState.onCluster 0 (fun k => { k with served := Map.set 0 k.served 0 4 })).putCmd uncoveringAgent
    { uncoveringCmd with started := true }
def begunCmd : EngCmd := { uncoveringCmd with started := true }

theorem uncovering_fresh : freshCmd uncoveringState 1 0 0 .copy uncoveringCmd := by unfold freshCmd; decide +kernel

theorem uncovering_gets : engGets uncoveringState uncoveringAgent 0 uncoveringCmd.g1.toNat 136 := .inl (by decide)

theorem uncovering_puts : engPuts uncoveringState uncoveringAgent 0 uncoveringCmd.g0.toNat 136 := by
  refine .inr ⟨by decide, rfl, by decide, fun i hi => ⟨rfl, ?_, ?_⟩⟩ <;> revert i <;> decide +kernel

theorem uncovering_exec :
    exec (.engineBurst 1 0 .copy 0) uncoveringState = .next (uncoveringBurst.burstMove uncoveringAgent begunCmd) := by
  have able : (uncoveringState.canBurst 1 0 0 0 && uncoveringState.engineTurn (uncoveringState.engineOf 1) 0 == some 4) = true := by
    decide +kernel
  exact if_pos (t := Host.Outcome.next (uncoveringBurst.burstMove uncoveringAgent begunCmd))
    (e := Host.Outcome.next uncoveringState) able

/-! ### How the burst ends -/

/-- The burst meets a fault at line 3 with its 8 bytes still on their way, in a state that refuses every part of that line and
whose memory, once the command has ended, has no byte of them. -/
def uncoveringStops (d : EngCmd) : Except (State × Held × EngErr) (State × Held) → Bool
  | .error (t, h, .fault _ code addr line u) =>
    decide (h = [(384, some 1), (385, some 0), (386, some 0), (387, some 0), (388, some 0), (389, some 0), (390, some 0), (391, some 0)])
    && decide (t.lineErr (uncoveringAgent.secure t) uncoveringAgent.team 3 .part = some (.ue 4))
    && decide (((t.putCmd uncoveringAgent { d with held := [] }).endFault uncoveringAgent { d with held := h } code addr line u).home.mem.get 384 = 0)
  | _ => false

theorem uncovering_stops :
    uncoveringStops (uncoveringBurst.burstAt uncoveringAgent begunCmd) (uncoveringBurst.burstWrites uncoveringAgent begunCmd) = true := by
  decide +kernel

/-- The eight bytes on their way to line 3 are not written, as a free value or not. -/
theorem uncovering_byte (d : EngCmd) {x : Except (State × Held × EngErr) (State × Held)} (stops : uncoveringStops d x = true) :
    ∃ t h f code addr line u, x = .error (t, h, .fault f code addr line u)
      ∧ (((t.looseHeld uncoveringAgent { d with held := h }).putCmd uncoveringAgent { d with held := [] }).endFault uncoveringAgent
        { d with held := h } code addr line u).home.mem.get 384 = 0 := by
  match x, stops with
  | .error (t, h, .fault f code addr line u), stops =>
    simp only [uncoveringStops, Bool.and_eq_true, decide_eq_true_eq] at stops
    obtain ⟨⟨rfl, refused⟩, byte⟩ := stops
    refine ⟨t, _, f, code, addr, line, u, rfl, ?_⟩
    rw [State.looseHeld_eq_self fun l bs sub some_ => ?_]
    · exact byte
    · obtain ⟨⟨a, b⟩, bs, rfl⟩ := List.exists_cons_of_ne_nil some_
      have few := sub.length_le.trans (List.length_filterMap_le _ _)
      have line3 := sub.subset (List.mem_cons_self ..)
      have here : 384 ≤ a ∧ a < 392 := by
        simp only [Held.of, List.mem_filterMap] at line3
        obtain ⟨e, he, hab⟩ := line3
        split at hab
        · obtain rfl : e.1 = a := by cases h : e.2 <;> simp_all
          simp only [List.mem_cons, List.not_mem_nil, or_false] at he
          rcases he with rfl | rfl | rfl | rfl | rfl | rfl | rfl | rfl <;> decide
        · cases hab
      refine State.engPut_of_lineErr (pa := a) (x := .ue 4) ?_ rfl (by simp at few; omega) ?_
      · have low : a < 2 ^ 57 := by omega
        simp only [spaceOf, if_pos low]
        decide
      · rw [show a / 128 = 3 by omega]; exact refused

/-- Refutes O32: its first clause takes any state, also one whose table of withheld lines is not in canonical form. There the
write of one line can uncover an entry of the next, and the burst of a CPY faults at it, though every line of the destination
takes a write when the burst begins (`engPuts`). -/
theorem not_engineBursts : ¬ Obligations.EngineBursts := by
  intro h
  obtain ⟨t, next, -, moves, -⟩ := (h.1 uncoveringState 1 0 0 0 0 0 136 1 0 0 136 1 1 uncoveringCmd uncoveringAgent uncovering_fresh
    rfl rfl rfl rfl rfl rfl rfl rfl (by decide) rfl rfl rfl (by decide) (.inl rfl) uncovering_gets uncovering_puts).2
    (by decide +kernel)
  obtain ⟨_, _, _, _, _, _, _, met, byte⟩ := uncovering_byte _ uncovering_stops
  rw [uncovering_exec, State.burstMove_of_fault rfl (by decide +kernel) met] at next
  cases next
  have wrong := (moves (by decide)).1 0 128 (by decide) (by decide)
  have stands : engHome _ 0 0 384 = 0 := byte
  exact absurd (stands.symm.trans wrong) (by decide +kernel)

end Sys2Proof.Machine
end

section
/-! PROOFS. An MSAVE that faults though every line of its image takes a write when it begins (R364, R386): in a state whose table
of withheld lines is not in canonical form, the write of one line of the header uncovers an entry of its last line. -/

namespace Sys2Proof.Machine

/-! ### An MSAVE of no tile that meets a fault -/

/-- The piece that an MSAVE of no tile writes: the header and the tag over it. -/
def saveHead (st : TeamStore) (x : Restart) : List Byte :=
  saveHeader st x 0 ++ leBytes 32 (Config.hmac (saveHeader st x 0 ++ [])).toNat

/-- It meets a fault: nothing is written, whatever the free value of the piece, and the instruction completes with the fault. -/
theorem State.msave_of_fault {s f : State} {cl code addr : Nat} {m : MxInstr} {line : Option (Nat × HErr)} {u : Bool} {e : Agent}
    (none_ : bitsOf m.a2.toNat 0 9 = 0) (agent : e = m.agent cl (s.cluster cl).team)
    (met : s.engWrite e m.a1.toNat (saveHead (s.cluster cl).store (s.cluster cl).array.restart) = .error (.fault f code addr line u)) :
    s.msave cl m = ((s.engMeet e line u).clearRefused e).completeMx cl m (some (code, 2, BitVec.ofNat 64 addr)) := by
  subst agent
  have put : s.putPieces (m.agent cl (s.cluster cl).team) m.a1.toNat
      [(0, saveHead (s.cluster cl).store (s.cluster cl).array.restart)] = .error (.fault f code addr line u) := by
    simp only [State.putPieces, foldE, Nat.add_zero, met]
  have tiles : selTiles 0 = [] := rfl
  have save : s.msave cl m = s.imageStop cl m (m.agent cl (s.cluster cl).team) 2
      [(0, saveHead (s.cluster cl).store (s.cluster cl).array.restart)] (.fault f code addr line u) := by
    simp only [State.msave, none_, tiles, List.flatMap_nil, List.nil_append]
    unfold saveHead at put
    rw [put]
    rfl
  rw [save]
  simp only [State.imageStop, List.length_singleton, List.range_one, List.zip_cons_cons, List.zip_nil_left, List.foldl_cons,
    List.foldl_nil, Nat.add_zero, met, ite_self]

/-! ### The state -/

/-- An MSAVE of no tile to the physical address 64, and the committed node of one member that it is queued for. Stack 2 names
line 1, which is on stack 0, and stack 1 names line 32, the last of the header's lines: as the keys fall, the table reads as
empty at stacks 0 and 1. -/
def uncoveringSave : MxInstr :=
  { insn := .msave 0 0, core := 0, member := 0, rowK := 0, colK := 0, a1 := 64, a2 := 0, b1 := 0, b2 := 0, koff := 0, dparam := 0
    waitCp := 0, waitWs := 0, pasid := physPasid }
def saveState : State :=
  { cores := [(0, { team := 1 })]
    clusters := [(0, { team := 1, array := { queue := [uncoveringSave] } })]
    teams := [(1, { live := true, committed := true, cluster := some 0 })]
    home := { withheld := [(2, [1]), (1, [32])] } }
def saveAgent : Agent := uncoveringSave.agent 0 1

/-- What its write meets, and what the instruction leaves in the first four bytes of the image. -/
def saveStops : Except EngErr State → Bool
  | .error (.fault _ code addr line u) =>
    decide ((((saveState.engMeet saveAgent line u).clearRefused saveAgent).completeMx 0 uncoveringSave
      (some (code, 2, BitVec.ofNat 64 addr))).home.mem.getRange 64 4 = [0, 0, 0, 0])
  | _ => false

theorem save_stops : saveStops (saveState.engWrite saveAgent 64 (saveHead {} {})) = true := by
  decide +kernel

/-! ### Every line of the image takes a write -/

theorem saveState_secure (pa : Nat) : saveState.home.secure pa = false := by
  simp [Home.secure, saveState, Sparse.get_nil]

/-- The table reads as empty at every stack but stack 2, where line 1 is not. -/
theorem saveState_withheld (l : Nat) : (Map.get [] saveState.home.withheld (bitsOf (l * 128) 12 4)).contains l = false := by
  by_cases two : bitsOf (l * 128) 12 4 = 2
  · have far : l ≠ 1 := by rintro rfl; exact absurd two (by decide)
    simp [two, saveState, Map.get, far]
  · by_cases low : bitsOf (l * 128) 12 4 < 2
    · simp [saveState, Map.get, low]
    · have above : ¬ bitsOf (l * 128) 12 4 < 1 ∧ bitsOf (l * 128) 12 4 ≠ 1 := by omega
      simp [saveState, Map.get, low, two, above.1, above.2]

theorem saveState_lineErr (sec : Bool) (l : Nat) (low : l * 128 < 2 ^ 30) (k : Touch) : saveState.lineErr sec 1 l k = none := by
  have place : decodePA saveState.home.wide (l * 128) = some (bitsOf (l * 128) 12 4, bitsOf (l * 128) 16 5, bitsOf (l * 128) 12 4 / 2) := by
    refine if_pos ?_
    rw [Nat.div_eq_of_lt low]
    decide
  have runs : (saveState.slice (bitsOf (l * 128) 12 4 / 2)).stopped = false := rfl
  have free : (saveState.team 1).stages l = false := rfl
  have dram : saveState.home.dramBad = [] := rfl
  have msc : saveState.home.mscBad = [] := rfl
  simp only [State.lineErr, place, saveState_secure, runs, free, saveState_withheld]
  simp [dram, msc]

theorem save_puts : engPuts saveState saveAgent 0 uncoveringSave.a1.toNat 0x82000 := by
  refine .inr ⟨by decide, rfl, by decide, fun i hi => ?_⟩
  have at_ : uncoveringSave.a1.toNat = 64 := rfl
  rw [at_]
  exact ⟨rfl, saveState_lineErr _ _ (by omega) _, saveState_lineErr _ _ (by omega) _⟩

/-- Refutes O49: its clause on MSAVE takes any state, also one whose table of withheld lines is not in canonical form. There the
write of one line can uncover an entry of another, and the write of the header faults at it, though every line of the image
takes a write when the instruction begins (`engPuts`); nothing is written then. -/
theorem not_arrayExecution : ¬ Obligations.ArrayExecution := by
  intro h
  obtain ⟨t, hb, next, -, -, -, bytes, version, -⟩ := h.2.2.2.1 saveState 0 0 0 uncoveringSave 0 0 saveAgent {} {} rfl rfl
    (by decide +kernel) rfl rfl rfl rfl save_puts (by decide) (fun t i _ named => absurd named (by simp))
  have stops := save_stops
  match met : saveState.engWrite saveAgent 64 (saveHead {} {}), stops with
  | .error (.fault f code addr line u), stops =>
    have done : exec (.arrayExecute 0) saveState = .next (saveState.msave 0 uncoveringSave) := rfl
    have stopped := State.msave_of_fault (s := saveState) (cl := 0) (m := uncoveringSave) (e := saveAgent) (by decide) rfl met
    have left : t.home.mem.getRange 64 4 = [0, 0, 0, 0] := by
      rw [← Host.Outcome.next.inj ((done.trans (congrArg _ stopped)).symm.trans next)]
      exact of_decide_eq_true stops
    have read : (List.range 4).map hb = t.home.mem.getRange 64 4 := by subst bytes; rfl
    rw [read, left] at version
    exact absurd version (by decide)

end Sys2Proof.Machine
end

section
/-! PROOFS. The encoder's words decode to their instructions (O1, O2). -/

namespace Sys2Proof

/-! ### Every instruction -/

/-- The family of `Laws.EncodeDecode`, by the form of the word: what only fields tell apart decodes by the rule of its form;
the others by the lemma of their own. -/
theorem decode_encode (i : Instr) : Laws.EncodeDecode.Statement i := by
  cases i with
  | qpop d q => exact Laws.EncodeDecode.qpop d q
  | amocas d a b => exact Laws.EncodeDecode.amocas d a b
  | fence sc => exact Laws.EncodeDecode.fence sc
  | sobind d a b => exact Laws.EncodeDecode.sobind d a b
  | waittl t b => exact Laws.EncodeDecode.waittl t b
  | tlrd d t issued => exact Laws.EncodeDecode.tlrd d t issued
  | waitc ld st cp tile => exact Laws.EncodeDecode.waitc ld st cp tile
  | slli d a sh => exact Laws.EncodeDecode.slli d a sh
  | srli d a sh => exact Laws.EncodeDecode.srli d a sh
  | srai d a sh => exact Laws.EncodeDecode.srai d a sh
  | csrr d c => exact Laws.EncodeDecode.csrr d c
  | csrw d a c => exact Laws.EncodeDecode.csrw d a c
  | csrs d a c => exact Laws.EncodeDecode.csrs d a c
  | csrc d a c => exact Laws.EncodeDecode.csrc d a c
  | msave a b => exact fun _ => decode_msave a b
  | mrstr a b => exact fun _ => decode_mrstr a b
  | mstat d => exact fun _ => decode_mstat d
  | cpy | cpyb | gath | scat | wstr | dload | fxput | fxred =>
    exact fun h => (decode_srWord _ _ _ _ _ rfl (by decide)).trans (group_of _ _ (groupOk_of_wf h rfl))
  | add | sub | and | or | xor | andn | sll | srl | sra | slt | sltu | min | max | minu | maxu | mul | mulh | mulhu
  | div | divu | rem | remu | clz | ctz | popc | bswap | sextb | sexth | sextw | pref | cflush | cinv | czero
  | amoswap | amoadd | amoand | amoor | amoxor | amomin | amomax | amominu | amomaxu | amofadds | amofaddd
  | redadd | redand | redor | redxor | redmin | redmax | redminu | redmaxu | redfadds | redfaddd | alb | ale
  | acq | rel | cbar | bcwait | mbwait | mback | lease | unlease | step | stepnb | stepwt | fxstat | spawn | jdec
  | exit | yield | tcoord | gridid | eret | brk | wfe | pdone | halt =>
    exact fun _ => decode_srWord _ _ _ _ _ rfl (by decide)
  | addi | andi | ori | xori | slti | sltiu | jalr | ldb | ldbu | ldh | ldhu | ldw | ldwu | ldd | stb | sth | stw
  | std | trap => exact fun _ => decode_siWord _ _ _ _ rfl
  | lui | aupc | jal => exact fun _ => decode_suWord _ _ _ (by decide)
  | beq | bne | blt | bge | bltu | bgeu => exact fun _ => decode_sbWord _ _ _ _ (by decide)
  | vadd | vsub | vmul | vdiv | vfma | vfms | vfnma | vfnms | vmax | vmin | vabs | vneg | vsqrt | vcpsgn | vexp2 | vlog2
  | vrcp | vrsq | vsigm | vtanh | viadd | visub | vimul | vimulh | vimin | vimax | viminu | vimaxu | vand | vor | vxor
  | vshl | vshr | vsra | viabs | vidot4 | vcvt | vscale | vtag | vqblk | vdqblk | vclass | vcmp | vsel | kand | kor | kxor
  | knot | kpop | kmov | vrsum | vrmax | vrmin | vramax | vriadd | vmov | vbcast | vperm | vrot | vcomp | vexpd | viota
  | vzip | vuzp | vld | vst | vldx | vstx => exact round_vector rfl rfl
  | mma | drun | mld | mst | mzero | acpy | acpyin => exact round_matrix rfl rfl rfl
  | _ => exact not_wf_event rfl

/-- Settles O2: `decode_encode` for every instruction. -/
theorem decodeEncodeRoundTrip : Obligations.DecodeEncodeRoundTrip := decode_encode

/-- Settles O1: each word is what the encoder writes for its instruction, which is well formed. -/
theorem specWordsDecode : Obligations.SpecWordsDecode :=
  ⟨decode_encode (.addi 3 4 (-5)) rfl, decode_encode (.bgeu 1 2 12) rfl, decode_encode (.jal 1 (-1)) rfl,
    decode_encode (.std 5 6 16) rfl, decode_encode (.amocas 2 3 4) rfl, decode_encode (.cpy 7 8) rfl,
    decode_encode (.csrs 1 2 .dbgctl) rfl, decode_encode (.vadd ⟨1, .fp32, 0, 0, .v 1, .v 2, .v 3⟩) rfl,
    decode_encode (.mzero { MWord.zero with acc := 2, rowMask := 3, colMask := 4, cf := .fp32 }) rfl⟩

end Sys2Proof
end

section
/-! PROOFS. A word that decodes is the one the encoder writes (O3): for each part of the decoder, what it answers encodes as
the word whose fields it was given. -/

namespace Sys2Proof

open Machine (bitsOf)

/-- Where a part of the decoder answers an instruction, that is well formed and encodes as the given word. -/
def Reencodes (r : Except Nat Instr) (w : List Parcel) : Prop := ∀ i, r = .ok i → i.wf = true ∧ encode i = w

/-! ### Checks of a scalar word's fields -/

/-- An instruction that only `Instr.scalarOk` restricts. -/
theorem wf_scalar {i : Instr} (he : i.isEvent = false) (hv : i.vparts = none) (hm : i.mparts = none) :
    i.wf = i.scalarOk := by
  simp [Instr.wf, he, hv, hm]

namespace Reencodes

variable {i : Instr} {w : List Parcel} {m fn : Nat} {d a b : SReg}

/-! One rule for each way in which the decoder ends, and for each set of fields that a word uses. -/

theorem error {n : Nat} : Reencodes (.error n) w := fun _ h => by cases h

theorem ok (wf : i.wf = true) (enc : encode i = w) : Reencodes (.ok i) w := by
  rintro _ ⟨⟩
  exact ⟨wf, enc⟩

theorem ite {c : Prop} [Decidable c] {x y : Except Nat Instr} (yes : c → Reencodes x w) (no : ¬ c → Reencodes y w) :
    Reencodes (if c then x else y) w := by
  split
  case isTrue h => exact yes h
  case isFalse h => exact no h

theorem usesDA (wf : i.wf = true) (enc : encode i = srWord m fn d a 0) : Reencodes (usesDA b i) (srWord m fn d a b) :=
  ite (by rintro rfl; exact ok wf enc) (fun _ => error)

theorem usesA (wf : i.wf = true) (enc : encode i = srWord m fn 0 a 0) : Reencodes (usesA d b i) (srWord m fn d a b) :=
  ite (by rintro ⟨rfl, rfl⟩; exact ok wf enc) (fun _ => error)

theorem usesAB (wf : i.wf = true) (enc : encode i = srWord m fn 0 a b) : Reencodes (usesAB d i) (srWord m fn d a b) :=
  ite (by rintro rfl; exact ok wf enc) (fun _ => error)

theorem usesD (wf : i.wf = true) (enc : encode i = srWord m fn d 0 0) : Reencodes (usesD a b i) (srWord m fn d a b) :=
  ite (by rintro ⟨rfl, rfl⟩; exact ok wf enc) (fun _ => error)

theorem usesNone (wf : i.wf = true) (enc : encode i = srWord m fn 0 0 0) :
    Reencodes (usesNone d a b i) (srWord m fn d a b) :=
  ite (by rintro ⟨rfl, rfl, rfl⟩; exact ok wf enc) (fun _ => error)

theorem group (wf : i.wf = groupOk a) (enc : encode i = srWord m fn d a 0) :
    Reencodes (group a b i) (srWord m fn d a b) :=
  ite (fun _ => error) fun h => by
    obtain rfl := not_not.mp h
    exact ite (fun g => ok (wf.trans g) enc) (fun _ => error)

end Reencodes

/-! ### The SR majors

Below, the case `h_n` of a table is its `n`-th entry. -/

theorem Scope.code_ofCode {n : Nat} {sc : Scope} (h : Scope.ofCode n = some sc) : sc.code = n := by
  unfold Scope.ofCode at h
  split at h <;> cases h <;> rfl

theorem TL.code_ofCode {n : Nat} {t : TL} (h : TL.ofCode n = some t) : t.code = n := by
  unfold TL.ofCode at h
  split at h <;> cases h <;> rfl

variable (fn : Nat) (d a b : SReg)

theorem decQpop_reencodes : Reencodes (decQpop d a b) (srWord 0x17 0 d a b) := by
  refine .ite (fun _ => .error) fun h => .ite (fun low => ?_) (fun _ => .error)
  obtain rfl := not_not.mp h
  have back : (a.setWidth 3).setWidth 6 = a := by
    apply BitVec.eq_of_toNat_eq
    rw [BitVec.toNat_setWidth, BitVec.toNat_setWidth]
    omega
  exact .ok rfl (congrArg (srWord 0x17 0 d · 0) back)

theorem decFence_reencodes : Reencodes (decFence d a b) (srWord 0x23 2 d a b) := by
  unfold decFence
  split
  · exact .error
  · next sc h =>
    refine .ite ?_ (fun _ => .error)
    rintro ⟨rfl, rfl⟩
    have back : BitVec.ofNat 6 sc.code = a := by rw [Scope.code_ofCode h, BitVec.ofNat_toNat, BitVec.setWidth_eq]
    exact .ok rfl (congrArg (srWord 0x23 2 0 · 0) back)

theorem decWaittl_reencodes : Reencodes (decWaittl d a b) (srWord 0x23 6 d a b) := by
  unfold decWaittl
  split
  · exact .error
  · next t h =>
    refine .ite ?_ (fun _ => .error)
    rintro rfl
    have back : BitVec.ofNat 6 t.code = a := by rw [TL.code_ofCode h, BitVec.ofNat_toNat, BitVec.setWidth_eq]
    exact .ok rfl (congrArg (srWord 0x23 6 0 · b) back)

theorem decTlrd_reencodes : Reencodes (decTlrd d a b) (srWord 0x23 7 d a b) := by
  unfold decTlrd
  split
  · exact .error
  · next t h =>
    refine .ite ?_ (fun _ => .error)
    rintro ⟨rfl, low⟩
    have bit : (a.toNat / 8 % 2 == 1).toNat = a.toNat / 8 := by
      rcases Nat.mod_two_eq_zero_or_one (a.toNat / 8) with e | e <;> rw [e] <;> simp <;> omega
    have back : BitVec.ofNat 6 (t.code + 8 * (a.toNat / 8 % 2 == 1).toNat) = a := by
      rw [TL.code_ofCode h, bit, Nat.mod_add_div, BitVec.ofNat_toNat, BitVec.setWidth_eq]
    exact .ok rfl (congrArg (srWord 0x23 7 d · 0) back)

theorem decAmocas_reencodes : Reencodes (decAmocas d a b) (srWord 0x20 11 d a b) :=
  .ite (fun _ => .error) fun h => .ok ((wf_scalar rfl rfl rfl).trans (bne_iff_ne.mpr h)) rfl

theorem decSobind_reencodes : Reencodes (decSobind d a b) (srWord 0x23 4 d a b) :=
  .ite (fun _ => .error) fun h => by
    obtain ⟨h0, h63⟩ := not_or.mp h
    exact .ok ((wf_scalar rfl rfl rfl).trans (Bool.and_eq_true_iff.mpr ⟨bne_iff_ne.mpr h0, bne_iff_ne.mpr h63⟩)) rfl

theorem decodeAlu_reencodes : Reencodes (decodeAlu fn d a b) (srWord 0x00 fn d a b) := by
  unfold decodeAlu
  split
  case h_30 => exact .error
  case h_23 | h_24 | h_25 | h_26 | h_27 | h_28 | h_29 => exact .usesDA rfl rfl
  all_goals exact .ok rfl rfl

theorem decodePop_reencodes : Reencodes (decodePop fn d a b) (srWord 0x17 fn d a b) := by
  unfold decodePop
  split
  · exact decQpop_reencodes d a b
  · exact .error

theorem decodeLine_reencodes : Reencodes (decodeLine fn d a b) (srWord 0x1C fn d a b) := by
  unfold decodeLine
  split
  case h_1 => exact .usesA rfl rfl
  case h_5 => exact .error
  all_goals exact .usesAB rfl rfl

theorem decodeAmo_reencodes : Reencodes (decodeAmo fn d a b) (srWord 0x20 fn d a b) := by
  unfold decodeAmo
  split
  case h_12 => exact decAmocas_reencodes d a b
  case h_13 => exact .error
  all_goals exact .ok rfl rfl

theorem decodeRed_reencodes : Reencodes (decodeRed fn d a b) (srWord 0x21 fn d a b) := by
  unfold decodeRed
  split
  case h_11 => exact .error
  all_goals exact .usesAB rfl rfl

theorem decodeRegion_reencodes : Reencodes (decodeRegion fn d a b) (srWord 0x22 fn d a b) := by
  unfold decodeRegion
  split
  · exact .usesA rfl rfl
  · exact .usesD rfl rfl
  · exact .error

theorem decodeSync_reencodes : Reencodes (decodeSync fn d a b) (srWord 0x23 fn d a b) := by
  unfold decodeSync
  split
  · exact .usesDA rfl rfl
  · exact .ok rfl rfl
  · exact decFence_reencodes d a b
  · exact .usesNone rfl rfl
  · exact decSobind_reencodes d a b
  · exact .ok rfl rfl
  · exact decWaittl_reencodes d a b
  · exact decTlrd_reencodes d a b
  · exact .usesDA rfl rfl
  · exact .usesAB rfl rfl
  · exact .error

theorem decodeEngine_reencodes : Reencodes (decodeEngine fn d a b) (srWord 0x28 fn d a b) := by
  unfold decodeEngine
  split
  case h_6 => exact .usesD rfl rfl
  case h_7 => exact .usesNone rfl rfl
  case h_9 => exact .error
  all_goals exact .group (wf_scalar rfl rfl rfl) rfl

theorem decodeFabric_reencodes : Reencodes (decodeFabric fn d a b) (srWord 0x29 fn d a b) := by
  unfold decodeFabric
  split
  case h_1 | h_2 => exact .group (wf_scalar rfl rfl rfl) rfl
  case h_3 | h_4 => exact .usesD rfl rfl
  case h_5 | h_6 => exact .usesDA rfl rfl
  case h_7 => exact .error

theorem decodeTask_reencodes : Reencodes (decodeTask fn d a b) (srWord 0x30 fn d a b) := by
  unfold decodeTask
  split
  case h_1 | h_2 => exact .usesAB rfl rfl
  case h_3 => exact .usesNone rfl rfl
  case h_4 | h_5 | h_6 => exact .usesD rfl rfl
  case h_7 => exact .error

theorem decodeTrap_reencodes : Reencodes (decodeTrap fn d a b) (srWord 0x31 fn d a b) := by
  unfold decodeTrap
  split
  case h_1 | h_2 | h_5 => exact .usesNone rfl rfl
  case h_3 | h_4 => exact .usesDA rfl rfl
  case h_6 => exact .error

theorem decodeSR_reencodes (major : Nat) : Reencodes (decodeSR major fn d a b) (srWord major fn d a b) := by
  unfold decodeSR
  split
  · exact decodeAlu_reencodes fn d a b
  · exact decodePop_reencodes fn d a b
  · exact decodeLine_reencodes fn d a b
  · exact decodeAmo_reencodes fn d a b
  · exact decodeRed_reencodes fn d a b
  · exact decodeRegion_reencodes fn d a b
  · exact decodeSync_reencodes fn d a b
  · exact decodeEngine_reencodes fn d a b
  · exact decodeFabric_reencodes fn d a b
  · exact decodeTask_reencodes fn d a b
  · exact decodeTrap_reencodes fn d a b
  · exact .error

/-! ### The SI majors and the branches -/

theorem fieldOf_toNat (p lo len : Nat) : (fieldOf p lo len).toNat = p / 2 ^ lo % 2 ^ len := by
  simp [fieldOf, Machine.bitsOf, Nat.shiftRight_eq_div_pow]

theorem TReg.code_ofCode {n : Nat} {t : TReg} (h : TReg.ofCode n = some t) : t.code = n := by
  unfold TReg.ofCode at h
  split at h <;> cases h <;> rfl

/-- A trap register's number, in the range of its ring's. -/
theorem number_trapReg {n lo : Nat} {r : HRing} {c : Csr} (above : lo ≤ n) (base : 256 * r.code = lo)
    (h : (TReg.ofCode (n - lo)).map (Csr.trapReg r) = some c) : c.number = n := by
  obtain ⟨t, ht, rfl⟩ := Option.map_eq_some_iff.mp h
  have code := TReg.code_ofCode ht
  simp only [Csr.number]
  omega

theorem Csr.number_ofNumber {n : Nat} {c : Csr} (h : Csr.ofNumber n = some c) : c.number = n := by
  unfold Csr.ofNumber at h
  split at h
  case h_21 =>
    split_ifs at h
    · exact number_trapReg (lo := 256) (r := .d) (by omega) rfl h
    · exact number_trapReg (lo := 512) (r := .h) (by omega) rfl h
    · exact number_trapReg (lo := 768) (r := .m) (by omega) rfl h
  all_goals cases h; rfl

variable (imm : BitVec 13)

theorem decodeShift_reencodes : Reencodes (decodeShift d a imm) (siWord 0x07 d a imm.toNat) := by
  have low := imm.isLt
  have six : (imm.setWidth 6).toNat = imm.toNat % 64 := by rw [BitVec.toNat_setWidth]
  refine .ite (fun _ => .error) fun h3 => .ite (fun _ => .error) fun h0 => .ite (fun k0 => ?_) fun k0 =>
    .ite (fun k1 => ?_) fun k1 => ?_
  · exact .ok rfl (congrArg (siWord 0x07 d a) (show (imm.setWidth 6).toNat = _ by omega))
  · exact .ok rfl (congrArg (siWord 0x07 d a) (show 2048 + (imm.setWidth 6).toNat = _ by omega))
  · exact .ok rfl (congrArg (siWord 0x07 d a) (show 4096 + (imm.setWidth 6).toNat = _ by omega))

theorem decodeWaitc_reencodes : Reencodes (decodeWaitc d a imm) (siWord 0x24 d a imm.toNat) := by
  refine .ite ?_ (fun _ => .error)
  rintro ⟨rfl, rfl, low⟩
  refine .ok rfl (congrArg (siWord 0x24 0 0) ?_)
  simp only [fieldOf_toNat]
  omega

theorem decodeCsr_reencodes (major : Nat) (form : major ∈ [0x32, 0x33, 0x34, 0x35]) :
    Reencodes (decodeCsr major d a imm) (siWord major d a imm.toNat) := by
  refine .ite (fun _ => .error) fun h => ?_
  split
  · exact .error
  · next c named =>
    rw [← Csr.number_ofNumber named]
    split
    · obtain rfl : a = 0 := by simpa using h
      exact .ok rfl rfl
    · exact .ok rfl rfl
    · exact .ok rfl rfl
    · obtain rfl : major = 0x35 := by simp_all
      exact .ok rfl rfl

theorem decodeSI_reencodes (major : Nat) : Reencodes (decodeSI major d a imm) (siWord major d a imm.toNat) := by
  unfold decodeSI
  split
  case h_7 => exact decodeShift_reencodes d a imm
  case h_20 => exact decodeWaitc_reencodes d a imm
  case h_21 | h_22 | h_23 | h_24 => exact decodeCsr_reencodes d a imm _ (by decide)
  case h_25 => exact .ite (by rintro ⟨rfl, rfl⟩; exact .ok rfl rfl) (fun _ => .error)
  case h_26 => exact .error
  all_goals exact .ok rfl rfl

theorem decodeSB_reencodes (cond : Nat) (off : BitVec 10) : Reencodes (decodeSB cond a b off) (sbWord cond a b off) := by
  unfold decodeSB
  split
  case h_7 => exact .error
  all_goals exact .ok rfl rfl

/-! ### A scalar word is its fields -/

variable {p : Parcel} (even : p.toNat % 2 = 0)
include even

omit even in
theorem parcel_of_toNat {x : Nat} (h : x = p.toNat) : BitVec.ofNat 32 x = p := by
  rw [h, BitVec.ofNat_toNat, BitVec.setWidth_eq]

theorem srWord_fields : srWord (bitsOf p.toNat 1 6) (bitsOf p.toNat 25 7) (fieldOf p.toNat 7 6) (fieldOf p.toNat 13 6)
    (fieldOf p.toNat 19 6) = [p] :=
  congrArg (fun x => [x]) <| parcel_of_toNat (by simp only [fieldOf_toNat, bitsOf_eq]; omega)

theorem siWord_fields : siWord (bitsOf p.toNat 1 6) (fieldOf p.toNat 7 6) (fieldOf p.toNat 13 6)
    (fieldOf p.toNat 19 13).toNat = [p] :=
  congrArg (fun x => [x]) <| parcel_of_toNat (by simp only [fieldOf_toNat, bitsOf_eq]; omega)

theorem suWord_fields : suWord (bitsOf p.toNat 1 6) (fieldOf p.toNat 7 6) (fieldOf p.toNat 13 19) = [p] :=
  congrArg (fun x => [x]) <| parcel_of_toNat (by simp only [fieldOf_toNat, bitsOf_eq]; omega)

theorem sbWord_fields (major : bitsOf p.toNat 1 6 = 0x0A) : sbWord (bitsOf p.toNat 19 3) (fieldOf p.toNat 7 6)
    (fieldOf p.toNat 13 6) (fieldOf p.toNat 22 10) = [p] :=
  congrArg (fun x => [x]) <| parcel_of_toNat (by simp only [fieldOf_toNat, bitsOf_eq] at *; omega)

theorem decodeScalar_reencodes : Reencodes (decodeScalar p.toNat) [p] := by
  have su := suWord_fields even
  unfold decodeScalar
  dsimp only
  split
  · next major => rw [major] at su; exact .ok rfl su
  · next major => rw [major] at su; exact .ok rfl su
  · next major => rw [← sbWord_fields even major]; exact decodeSB_reencodes _ _ _ _
  · next major => rw [major] at su; exact .ok rfl su
  case h_16 =>
    rw [← siWord_fields even]
    exact decodeSI_reencodes _ _ _ _
  all_goals
    rw [← srWord_fields even]
    exact decodeSR_reencodes _ _ _ _ _

end Sys2Proof
end

section
/-! PROOFS. The vector and matrix words that decode, and every word (O3). -/

namespace Sys2Proof

open Machine (bitsOf)

/-! ### Vector words -/

theorem Fmt.code_ofCode {n : Nat} {f : Fmt} (h : Fmt.ofCode n = some f) : f.code.toNat = n := by
  unfold Fmt.ofCode at h
  split at h <;> cases h <;> rfl

theorem VOp.code_ofCode {n : Nat} {op : VOp} (h : VOp.ofCode n = some op) : op.code = n := by
  unfold VOp.ofCode at h
  split at h <;> cases h <;> rfl

/-- A field whose reserved bits are zero and whose register is in range holds nothing but the operand it names (R47). -/
theorem Operand.bits_ofBits {x : Nat} (lt : x < 2 ^ 24) (reserved : operandReserved x = true)
    (range : operandRange x = true) : (Operand.ofBits x).bits = x := by
  simp only [operandReserved, operandRange, bitsOf_eq, Bool.and_eq_true, Bool.or_eq_true, Bool.not_eq_true',
    Bool.or_eq_false_iff, beq_iff_eq, beq_eq_false_iff_ne, decide_eq_true_eq] at reserved range
  unfold Operand.ofBits
  dsimp only
  split <;> simp only [Operand.bits, fieldOf_toNat, imp_false] at * <;> omega

theorem VOp.vparts_instr (op : VOp) (w : VWord) : (op.instr w).vparts = some (op, w) := by cases op <;> rfl

theorem VOp.wf_instr (op : VOp) (w : VWord) (ok : op.wordOk w = true) : (op.instr w).wf = true := by
  have rest : (op.instr w).isEvent = false ∧ (op.instr w).scalarOk = true ∧ (op.instr w).mparts = none := by
    cases op <;> exact ⟨rfl, rfl, rfl⟩
  obtain ⟨event, scalar, matrix⟩ := rest
  simp [Instr.wf, event, scalar, matrix, op.vparts_instr, ok]

theorem VOp.encode_instr (op : VOp) (w : VWord) : encode (op.instr w) = vectorWord op w := by
  simp [encode, op.vparts_instr]

theorem decodeVector_reencodes {p0 p1 p2 : Parcel} (form : p0.toNat % 4 = 1) :
    Reencodes (decodeVector p0.toNat p1.toNat p2.toNat) [p0, p1, p2] := by
  unfold decodeVector
  dsimp only
  split
  · exact .error
  next f hf =>
  split
  · exact .error
  next op hop =>
  refine .ite (fun _ => .error) fun h3 => .ite (fun _ => .error) fun h4 => .ite (fun _ => .error) fun h5 => ?_
  simp only [Bool.not_eq_true', Bool.not_eq_false, Bool.and_eq_true] at h3 h4 h5
  obtain ⟨⟨⟨step4, rd⟩, ra⟩, rb⟩ := h4
  obtain ⟨⟨⟨step5, nd⟩, na⟩, nb⟩ := h5
  refine .ok (op.wf_instr _ (by simp [VOp.wordOk, h3, step4, step5])) ((op.encode_instr _).trans ?_)
  have code := VOp.code_ofCode hop
  have fmt := Fmt.code_ofCode hf
  simp only [bitsOf_eq] at *
  have d := Operand.bits_ofBits (by omega) rd nd
  have a := Operand.bits_ofBits (by omega) ra na
  have b := Operand.bits_ofBits (by omega) rb nb
  simp only [vectorWord, d, a, b, code, fmt, fieldOf_toNat]
  rw [parcel_of_toNat (p := p0) (by omega), parcel_of_toNat (p := p1) (by omega), parcel_of_toNat (p := p2) (by omega)]

/-! ### Matrix words -/

theorem MOp.code_ofCode {n : Nat} {op : MOp} (h : MOp.ofCode n = some op) : op.code = n := by
  unfold MOp.ofCode at h
  split at h <;> cases h <;> rfl

theorem MOp.mparts_instr (op : MOp) (w : MWord) : (op.instr w).vparts = none ∧ (op.instr w).mparts = some (op, w) := by
  cases op <;> exact ⟨rfl, rfl⟩

theorem MOp.wf_instr (op : MOp) (w : MWord) (ok : op.wordOk w = true) : (op.instr w).wf = true := by
  have rest : (op.instr w).isEvent = false ∧ (op.instr w).scalarOk = true := by cases op <;> exact ⟨rfl, rfl⟩
  obtain ⟨event, scalar⟩ := rest
  obtain ⟨vector, matrix⟩ := op.mparts_instr w
  simp [Instr.wf, event, scalar, vector, matrix, ok]

theorem MOp.encode_instr (op : MOp) (w : MWord) : encode (op.instr w) = matrixWord op.code w := by
  obtain ⟨vector, matrix⟩ := op.mparts_instr w
  simp [encode, vector, matrix]

theorem toNat_bit (p lo : Nat) : (bitsOf p lo 1 == 1).toNat = p / 2 ^ lo % 2 := by
  rw [bitsOf_eq, Nat.pow_one]
  rcases Nat.mod_two_eq_zero_or_one (p / 2 ^ lo) with h | h <;> rw [h] <;> rfl

/-- Six parcels whose reserved bits are zero hold nothing but an opcode and fields (R50). -/
theorem matrixWord_ofParcels {p0 p1 p2 p3 p4 p5 : Parcel} {af bf cf : Fmt} (form : p0.toNat % 4 = 3)
    (ha : af.code.toNat = bitsOf p0.toNat 19 4) (hb : bf.code.toNat = bitsOf p0.toNat 23 4)
    (hc : cf.code.toNat = bitsOf p0.toNat 27 4)
    (reserved : matrixReserved p1.toNat p2.toNat p3.toNat p4.toNat p5.toNat = true) :
    matrixWord (bitsOf p0.toNat 2 8)
      (MWord.ofParcels af bf cf p0.toNat p1.toNat p2.toNat p3.toNat p4.toNat p5.toNat) = [p0, p1, p2, p3, p4, p5] := by
  simp only [matrixReserved, bitsOf_eq, Bool.and_eq_true, beq_iff_eq] at reserved
  obtain ⟨⟨⟨⟨r1, r2⟩, r3⟩, r4⟩, r5⟩ := reserved
  simp only [matrixWord, MWord.ofParcels, ha, hb, hc, toNat_bit, fieldOf_toNat]
  simp only [bitsOf_eq]
  rw [parcel_of_toNat (p := p0) (by omega), parcel_of_toNat (p := p1) (by omega), parcel_of_toNat (p := p2) (by omega),
    parcel_of_toNat (p := p3) (by omega), parcel_of_toNat (p := p4) (by omega), parcel_of_toNat (p := p5) (by omega)]

theorem decodeScalarsOnly_reencodes {op : Nat} {m : MWord} {res : Bool} {w : List Parcel}
    (enc : res = true → matrixWord op m = w) : Reencodes (decodeScalarsOnly op m res) w := by
  refine .ite ?_ fun _ => .ite ?_ fun _ => .error
  · rintro rfl
    refine .ite (fun h => ?_) (fun _ => .error)
    obtain ⟨hr, hm⟩ := Bool.and_eq_true_iff.mp h
    rw [← enc hr, eq_of_beq hm]
    exact .ok rfl rfl
  · rintro which
    refine .ite (fun h => ?_) (fun _ => .error)
    obtain ⟨hr, hm⟩ := Bool.and_eq_true_iff.mp h
    rw [← enc hr, eq_of_beq hm]
    rcases which with rfl | rfl
    · exact .ok rfl rfl
    · exact .ok rfl rfl

theorem decodeMatrix_reencodes {p0 p1 p2 p3 p4 p5 : Parcel} (form : p0.toNat % 4 = 3) :
    Reencodes (decodeMatrix p0.toNat p1.toNat p2.toNat p3.toNat p4.toNat p5.toNat) [p0, p1, p2, p3, p4, p5] := by
  unfold decodeMatrix
  split
  case h_2 => exact .error
  next af bf cf ha hb hc =>
  have fields := matrixWord_ofParcels (p1 := p1) (p2 := p2) (p3 := p3) (p4 := p4) (p5 := p5) form
    (Fmt.code_ofCode ha) (Fmt.code_ofCode hb) (Fmt.code_ofCode hc)
  dsimp only
  split
  · exact decodeScalarsOnly_reencodes fields
  next op hop =>
  refine .ite (fun _ => .error) fun h3 => .ite (fun _ => .error) fun h4 => .ite (fun _ => .error) fun h5 => ?_
  simp only [Bool.not_eq_true', Bool.not_eq_false, Bool.and_eq_true] at h3 h4 h5
  obtain ⟨step4, reserved⟩ := h4
  refine .ok (op.wf_instr _ (by simp [MOp.wordOk, h3, step4, h5])) ((op.encode_instr _).trans ?_)
  rw [MOp.code_ofCode hop]
  exact fields reserved

/-! ### Every word -/

theorem decode_scalarParcel {p : Parcel} (form : p.toNat % 2 = 0) : decode [p] = decodeScalar p.toNat := by
  simp [decode, wordParcels, form]

theorem decode_vectorParcels {p0 : Parcel} (p1 p2 : Parcel) (form : p0.toNat % 4 = 1) :
    decode [p0, p1, p2] = decodeVector p0.toNat p1.toNat p2.toNat := by
  have odd : p0.toNat % 2 ≠ 0 := by omega
  simp [decode, wordParcels, odd, form]

theorem decode_matrixParcels {p0 : Parcel} (p1 p2 p3 p4 p5 : Parcel) (form : p0.toNat % 4 = 3) :
    decode [p0, p1, p2, p3, p4, p5] = decodeMatrix p0.toNat p1.toNat p2.toNat p3.toNat p4.toNat p5.toNat := by
  have odd : p0.toNat % 2 ≠ 0 := by omega
  simp [decode, wordParcels, odd, form]

/-- Settles O3: a word of each of the three lengths is its fields. -/
theorem decodedWordReencodes : Obligations.DecodedWordReencodes := by
  intro p ps i len dec
  unfold wordParcels at len
  split_ifs at len with even three
  · obtain rfl := List.eq_nil_of_length_eq_zero (Nat.succ.inj len)
    exact decodeScalar_reencodes even i (decode_scalarParcel even ▸ dec)
  · match ps, len with
    | [p1, p2], _ => exact decodeVector_reencodes three i (decode_vectorParcels p1 p2 three ▸ dec)
  · have form : p.toNat % 4 = 3 := by omega
    match ps, len with
    | [p1, p2, p3, p4, p5], _ =>
      exact decodeMatrix_reencodes form i (decode_matrixParcels p1 p2 p3 p4 p5 form ▸ dec)

end Sys2Proof
end

section
/-! PROOFS. Whose turn it is stays through what happens between two steps (R71, R172, R254, R393): lines take their ways, a
node may commit for want of one, multicast stores land, time passes. -/

namespace Sys2Proof.Machine

/-! ### Errors and their records -/

theorem State.ringPut_turn {s t : State} {base size : Nat} {bs : List Byte} (h : s.ringPut base size bs = some t) :
    t.turn = s.turn := by
  unfold State.ringPut at h
  dsimp only at h
  split at h
  · cases h
  · cases h; rfl

@[simp] theorem State.report_turn (s : State) (e : ErrRec) : (s.report e).turn = s.turn := by
  unfold State.report
  by_cases ring : s.mgmt.errbase = 0
  · simp only [ring, if_true]
    split_ifs <;> rfl
  · simp only [ring, if_false]
    cases put : s.ringPut s.mgmt.errbase s.mgmt.errsize e.bytes with
    | none =>
      dsimp only
      split_ifs <;> rfl
    | some t =>
      dsimp only
      have kept := State.ringPut_turn put
      split_ifs <;> exact kept

@[simp] theorem State.reportFor_turn (s : State) (vf team line cls pasid : Nat) (e : HErr) :
    (s.reportFor vf team line cls pasid e).turn = s.turn := by
  unfold State.reportFor
  split
  · rfl
  · dsimp only
    split
    · exact State.report_turn s _
    · rfl

@[simp] theorem State.meet_turn (s : State) (team line cls pasid : Nat) (e : HErr) :
    (s.meet team line cls pasid e).turn = s.turn := by
  unfold State.meet State.reportAt
  cases e <;> exact State.reportFor_turn s _ _ _ _ _ _

/-! ### Logs and queues -/

theorem State.translate_stall_turn {s t : State} {r : Req} {slice pasid va : Nat} {w : Bool}
    (h : s.translate r slice pasid va w = .stall t) : t.turn = s.turn := by
  unfold State.translate at h
  dsimp only at h
  split_ifs at h
  split at h <;> cases h
  rfl

theorem State.translate_refused_turn {s t : State} {r : Req} {slice pasid va : Nat} {w : Bool}
    (h : s.translate r slice pasid va w = .refused t) : t.turn = s.turn := by
  unfold State.translate at h
  dsimp only at h
  split_ifs at h
  · cases h; rfl
  · split at h <;> cases h

theorem State.logSegs_turn {s : State} {vf va n : Nat} {write tell : Bool} {x : State × Bool}
    (h : s.logSegs vf va n write tell = .error x) : x.1.turn = s.turn := by
  refine foldE_error (P := fun x => x.1.turn = s.turn) (fun l p y e => ?_) _ _ x h
  split at e
  · next ht => cases e; exact State.translate_stall_turn ht
  · next ht => cases e; exact State.translate_refused_turn ht
  · split at e
    · cases e
      cases tell
      · rfl
      · exact State.reportFor_turn s _ _ _ _ _ _
    · cases e

@[simp] theorem State.segPut_turn (s : State) (l : List (Nat × Nat)) (bs : List Byte) : (s.segPut l bs).turn = s.turn := by
  induction l generalizing s bs with
  | nil => rfl
  | cons p r ih => exact ih _ _

@[simp] theorem State.countDrop_turn (s : State) (vf : Nat) : (s.countDrop vf).1.turn = s.turn := by
  unfold State.countDrop
  dsimp only
  split
  · rfl
  · split
    · next h =>
      have kept := State.logSegs_turn h
      exact kept
    · exact State.segPut_turn s _ _

@[simp] theorem State.dropLog_turn (s : State) (vf kind : Nat) : (s.dropLog vf kind).turn = s.turn := by
  have counted := State.countDrop_turn s vf
  unfold State.dropLog
  split
  · rfl
  · split
    · next h => rw [h] at counted; exact counted
    · next h => rw [h] at counted; exact counted

@[simp] theorem State.logSignal_turn (s : State) (vf kind : Nat) (w : Bool) : (s.logSignal vf kind w).turn = s.turn := by
  unfold State.logSignal
  split_ifs <;> rfl

@[simp] theorem State.putLog_turn (s : State) (vf kind : Nat) (bs : List Byte) : (s.putLog vf kind bs).1.turn = s.turn := by
  have lost (x : State × Bool) (hx : x.1.turn = s.turn) :
      (if x.2 then (x.1, false) else ((x.1.dropLog vf kind).logSignal vf kind false, true) : State × Bool).1.turn = s.turn := by
    split <;> simp [hx]
  unfold State.putLog
  dsimp only
  split
  · simp
  · split
    · split
      · next h =>
        have kept := State.logSegs_turn h
        exact kept
      · simp
    · split
      · simp
      · split
        · next h => exact lost _ (State.logSegs_turn h)
        · next h => exact lost _ (State.logSegs_turn h)
        · split
          · exact lost (s, false) rfl
          · split
            · next h => exact lost _ (State.logSegs_turn h)
            · simp

@[simp] theorem State.flushLog_turn (s : State) (vf : Nat) : (s.flushLog vf).turn = s.turn := by
  unfold State.flushLog
  refine foldl_keeps (fun x : State × List (Nat × List Byte) => x.1.turn) (fun x e => ?_) _ _
  split
  · rfl
  · have put := State.putLog_turn x.1 vf e.1 e.2
    split
    · next h => rw [h] at put; exact put
    · next h => rw [h] at put; exact put

@[simp] theorem State.log_turn (s : State) (vf kind : Nat) (bs : List Byte) : (s.log vf kind bs).turn = s.turn :=
  State.flushLog_turn _ _

@[simp] theorem State.dispatchFault_turn (s : State) (vf addr reason slice source grid : Nat) :
    (s.dispatchFault vf addr reason slice source grid).turn = s.turn := State.log_turn _ _ _ _

@[simp] theorem State.pushTail_turn (s : State) (vf slice source : Nat) (e : QEnt) :
    (s.pushTail vf slice source e).turn = s.turn := by
  unfold State.pushTail State.pushAt State.enqueue
  split
  · simp
  · exact State.log_turn _ _ _ _

@[simp] theorem State.pushChecked_turn (s : State) (vf slice source : Nat) (e : QEnt) :
    (s.pushChecked vf slice source e).turn = s.turn := by
  unfold State.pushChecked
  split <;> simp

/-! ### The node's commit -/

@[simp] theorem State.pokeWq_turn (s : State) (pa w v : Nat) : (s.pokeWq pa w v).turn = s.turn := rfl

@[simp] theorem State.applyJdec_turn (s : State) (team vf slice addr pa : Nat) :
    (s.applyJdec team vf slice addr pa).1.turn = s.turn := by
  unfold State.applyJdec
  split
  · simp
  · dsimp only
    split_ifs <;> simp

@[simp] theorem State.commitRed_turn (s : State) (team : Nat) (r : RedOp) : (s.commitRed team r).turn = s.turn := by
  unfold State.commitRed
  split
  · simp
  · rfl

@[simp] theorem State.commitObj_turn (s : State) (team : Nat) (o : Nat × Word) : (s.commitObj team o).turn = s.turn := by
  unfold State.commitObj
  split
  · simp
  · rfl

@[simp] theorem State.commitPush_turn (s : State) (team vf : Nat) (p : Push) : (s.commitPush team vf p).turn = s.turn := by
  cases p
  · exact State.pushTail_turn _ _ _ _ _
  · exact State.applyJdec_turn _ _ _ _ _ _

@[simp] theorem State.commit_turn (s : State) (team : Nat) : (s.commit team).turn = s.turn := by
  unfold State.commit
  dsimp only
  split
  · rfl
  · calc
      _ = _ := foldl_keeps State.turn (fun s p => s.commitPush_turn team _ p) _ _
      _ = _ := foldl_keeps State.turn (fun s o => s.commitObj_turn team o) _ _
      _ = _ := foldl_keeps State.turn (fun s r => s.commitRed_turn team r) _ _

/-! ### Ways -/

@[simp] theorem State.outOfL2_turn (s : State) (line vf : Nat) : (s.outOfL2 line vf).turn = s.turn := by
  unfold State.outOfL2
  split <;> rfl

theorem State.takeL2_turn {s t : State} {key vf : Nat} (h : s.takeL2 key vf = some t) : t.turn = s.turn := by
  unfold State.takeL2 at h
  dsimp only at h
  split at h
  · cases h; rfl
  · split at h
    · cases h; simp
    · cases h

@[simp] theorem State.settleL2_turn (s : State) (vf line : Nat) : (s.settleL2 vf line).turn = s.turn := by
  unfold State.settleL2
  split
  · next h => exact State.takeL2_turn h
  · rfl

@[simp] theorem State.settlePending_turn (s : State) (team line : Nat) : (s.settlePending team line).turn = s.turn := by
  unfold State.settlePending
  split
  · next h => exact State.takeL2_turn h
  · simp

@[simp] theorem State.pruneWays_turn (s : State) : s.pruneWays.turn = s.turn := rfl

@[simp] theorem State.settle_turn (s : State) : s.settle.turn = s.turn := by
  unfold State.settle
  dsimp only
  refine (foldl_keeps State.turn (fun s e => ?_) _ _).trans ((foldl_keeps State.turn (fun s k => ?_) _ _).trans
    ((State.pruneWays_turn _).trans (foldl_keeps State.turn (fun s e => ?_) _ _)))
  · split
    · split_ifs <;> simp
    · rfl
  · split_ifs <;> simp
  · split
    · split_ifs <;> rfl
    · rfl

/-! ### Multicast stores and time -/

@[simp] theorem State.landParts_turn (s : State) (m : McStore) : (s.landParts m).turn = s.turn := by
  refine foldl_keeps State.turn (fun s p => foldl_keeps State.turn (fun s j => ?_) _ _) _ _
  dsimp only
  split_ifs <;> rfl

@[simp] theorem State.landAgain_turn (s : State) : s.landAgain.turn = s.turn :=
  foldl_keeps State.turn (fun s m => s.landParts_turn m) _ _

@[simp] theorem State.onMember_turn (s : State) (team m : Nat) (f : Ctx → Ctx) : (s.onMember team m f).turn = s.turn := by
  unfold State.onMember
  dsimp only
  split <;> rfl

@[simp] theorem State.land_turn (s : State) (m : McStore) : (s.land m).turn = s.turn := by
  unfold State.land
  dsimp only
  split_ifs <;> simp

@[simp] theorem State.landDue_turn (n : Nat) (s : State) : (State.landDue n s).turn = s.turn := by
  induction n generalizing s with
  | zero => rfl
  | succ n ih =>
    unfold State.landDue
    split
    · split
      · rw [ih, State.land_turn]
      · rfl
    · rfl

@[simp] theorem State.passTime_turn (s : State) : s.passTime.turn = s.turn :=
  (State.landDue_turn _ _).trans ((State.landAgain_turn _).trans s.settle_turn)

end Sys2Proof.Machine
end

section
/-! PROOFS. The instruction of a core's turn (O4, O6): what fetching its word changes, and what the step makes of the word. -/

namespace Sys2Proof.Machine

/-! ### What a fetch changes -/

/-- Lines may stand elsewhere, and DRAM may hold other values of them. -/
def LinesMoved (h g : Home) : Prop := ∃ pl o b, g = { h with place := pl, old := o, mscBad := b }

theorem LinesMoved.refl (h : Home) : LinesMoved h h := ⟨_, _, _, rfl⟩

theorem LinesMoved.trans {h g f : Home} (hg : LinesMoved h g) (gf : LinesMoved g f) : LinesMoved h f := by
  obtain ⟨pl, o, b, rfl⟩ := hg
  obtain ⟨pl', o', b', rfl⟩ := gf
  exact ⟨pl', o', b', rfl⟩

theorem Home.fillL2_moved (h : Home) (l : Nat) : LinesMoved h (h.fillL2 l) := by
  unfold Home.fillL2
  split
  · exact .refl h
  · split
    · exact ⟨_, _, _, rfl⟩
    · exact ⟨_, _, _, rfl⟩
    · exact .refl h

theorem foldl_fillL2_moved (ls : List Nat) (h : Home) : LinesMoved h (ls.foldl (fun h l => h.fillL2 l) h) := by
  induction ls generalizing h with
  | nil => exact .refl h
  | cons l r ih => exact (h.fillL2_moved l).trans (ih _)

/-- A fetch for a core changes where lines stand, what DRAM holds of them, and what the core's instruction cache holds. -/
structure Fetches (k : Nat) (u t : State) : Prop where
  rest  : t = { u with home := t.home, cores := t.cores }
  home  : LinesMoved u.home t.home
  code  : ∃ l, t.core k = { u.core k with l1i := l }
  other : ∀ n, n ≠ k → t.core n = u.core n

theorem Fetches.refl (k : Nat) (u : State) : Fetches k u u := ⟨rfl, .refl _, ⟨_, rfl⟩, fun _ _ => rfl⟩

theorem Fetches.trans {k : Nat} {u v t : State} (uv : Fetches k u v) (vt : Fetches k v t) : Fetches k u t where
  rest := by rw [vt.rest, uv.rest]
  home := uv.home.trans vt.home
  code := by
    obtain ⟨l, hl⟩ := uv.code
    obtain ⟨l', hl'⟩ := vt.code
    exact ⟨l', by rw [hl', hl]⟩
  other n hn := (vt.other n hn).trans (uv.other n hn)

/-- A read of a line that joins the core's instruction cache. -/
theorem fetches_putCode (k : Nat) (u : State) (pa n line : Nat) (bs : List Byte) :
    Fetches k u ((u.touchRead pa n).onCore k (·.putCode u.time.tick line bs)) where
  rest := rfl
  home := foldl_fillL2_moved _ _
  code := ⟨_, State.core_onCore_same _ _ _⟩
  other _ hm := (State.core_onCore _ _ _ _).trans (if_neg hm)

/-- A parcel that is fetched comes from the instruction cache or from the line that the node sees. -/
theorem State.fetchParcel_ok {s t : State} {k va : Nat} {p : Parcel} (h : s.fetchParcel k va = .ok (t, p)) :
    Fetches k s t ∧ ∃ pa, s.translate (.core k) (sliceOf k) (s.pasidOf k false) va false = .ok pa
      ∧ p = (s.codeCopy k pa).getD (BitVec.ofNat 32 (leNat (s.view (s.core k).team pa 4))) := by
  unfold State.fetchParcel at h
  dsimp only at h
  split at h
  · cases h
  split at h
  · cases h
  · cases h
  next pa tr =>
  refine ⟨?_, pa, tr, ?_⟩ <;> split at h
  · cases h
  · cases h; exact .refl k s
  · cases h
  · cases h; exact fetches_putCode k s _ _ _ _
  · cases h
  · next copy _ => cases h; rw [copy]; rfl
  · cases h
  · next copy => cases h; rw [copy]; rfl

theorem ok_of_bind_ok {ε α β : Type} {x : Except ε α} {f : α → Except ε β} {b : β} (h : x >>= f = .ok b) :
    ∃ a, x = .ok a ∧ f a = .ok b := by
  cases x with
  | error e => cases h
  | ok a => exact ⟨a, rfl, h⟩

theorem State.fetchParcels_ok {k n va : Nat} {s t : State} {ps : List Parcel}
    (h : State.fetchParcels k n s va = .ok (t, ps)) : Fetches k s t := by
  induction n generalizing s va ps with
  | zero => cases h; exact .refl k _
  | succ n ih =>
    obtain ⟨⟨v, p⟩, first, h⟩ := ok_of_bind_ok h
    obtain ⟨⟨w, r⟩, others, h⟩ := ok_of_bind_ok h
    cases h
    exact (State.fetchParcel_ok first).1.trans (ih others)

theorem State.fetchWord_ok {s t : State} {k : Nat} {ps : List Parcel} (h : s.fetchWord k = .ok (t, ps)) :
    Fetches k s t ∧ ∃ pa, s.translate (.core k) (sliceOf k) (s.pasidOf k false) (s.ctx k).pc.toNat false = .ok pa
      ∧ ps.head? = some ((s.codeCopy k pa).getD (BitVec.ofNat 32 (leNat (s.view (s.core k).team pa 4)))) := by
  obtain ⟨⟨v, p⟩, first, h⟩ := ok_of_bind_ok h
  obtain ⟨⟨w, r⟩, others, h⟩ := ok_of_bind_ok h
  cases h
  obtain ⟨frame, pa, tr, rfl⟩ := State.fetchParcel_ok first
  exact ⟨frame.trans (State.fetchParcels_ok others), pa, tr, rfl⟩

/-! ### The step -/

section

variable {s t : State} {k : Nat} {r : List Act} {ps : List Parcel} (agenda : s.agenda = .run k :: r) (low : k < 256)
include agenda low

theorem step_run : step s = ({ s with agenda := r, turn := k } : State).passTime.coreStep := by
  unfold step
  rw [agenda]
  exact if_pos low

variable (issues : (turnState s r k).issues k = true) (clear : (turnState s r k).boundary k = none)
  (fetched : (turnState s r k).fetchWord k = .ok (t, ps))
include issues clear fetched

/-- A core that begins an instruction and takes no cause runs what its word decodes to. -/
theorem step_decoded {i : Instr} (dec : decode ps = .ok i) (go : t.guard k i = .go) : step s = exec i t := by
  unfold turnState at issues clear fetched
  rw [step_run agenda low]
  simp [State.coreStep, issues, clear, fetched, dec, go]

/-- Where its word does not decode, it takes the trap of that. -/
theorem step_undecoded {n : Nat} (dec : decode ps = .error n) : step s = .next (t.takeSync k (tUndecoded n ps)) := by
  unfold turnState at issues clear fetched
  rw [step_run agenda low]
  simp [State.coreStep, issues, clear, fetched, dec]

end

/-- Settles O4: the step by `step_decoded`, the fetch by `State.fetchWord_ok`. -/
theorem stepRunsDecodedInstruction : Obligations.StepRunsDecodedInstruction := by
  rintro s t u k r ps i agenda low rfl issues clear fetched dec go
  obtain ⟨frame, first⟩ := State.fetchWord_ok fetched
  have turn : t.turn = k := by rw [frame.rest]; exact State.passTime_turn _
  exact ⟨step_decoded agenda low issues clear fetched dec go, turn, frame.rest, frame.home, frame.code, frame.other, first⟩

/-- The context that has entered ring D (R341). -/
theorem State.ctx_enterTrap_d (s : State) (k : Nat) (epc cause tval : Word) : (s.enterTrap k .d epc cause tval).ctx k
    = { (s.ctx k).trapRegion .d with
      ring := .d, pc := (s.ctx k).ctl.d.tvec &&& ~~~3#64, wfe := none, mx := none
      ctl := { (s.ctx k).ctl with d := { (s.ctx k).ctl.d with
        epc := epc, cause := cause, tval := tval, status := statusOnTrap (s.ctx k).ctl.d.status (s.ctx k).ring } } } :=
  congrArg Core.ctx ((core_eq_of_cores (State.enterTrap_cores s k .d epc cause tval) k).trans (State.core_onCore_same s k _))

/-- A cause that targets ring D is taken there from ring U, without escalation (R342). -/
theorem State.takeSync_u {s : State} {k : Nat} {i : TrapInfo} (ring : (s.ctx k).ring = .u) (target : i.target = .d) :
    s.takeSync k i = s.enterTrap k .d ((s.ctx k).pc + BitVec.ofNat 64 i.epcOff)
      (causeWord i.cause i.step false 0 i.access false 0) i.tval := by
  rw [State.takeSync_eq, ring, target]
  rfl

/-- Settles O6: the trap of the failing step and first parcel, taken in ring D. -/
theorem undecodedWordTraps : Obligations.UndecodedWordTraps := by
  intro s t k r p ps n agenda low issues clear fetched dec ring
  refine ⟨_, step_undecoded agenda low issues clear fetched dec, ?_⟩
  rw [State.takeSync_u ring rfl, State.ctx_enterTrap_d]
  exact ⟨rfl, rfl, BitVec.add_zero _, by simp [causeWord, tUndecoded, tIllegal], rfl, fun _ => rfl⟩

end Sys2Proof.Machine
end
